-- ==== Sys2Proof/Word.lean ====
section
/-! DEFINITION. Sys2Proof/Word.lean: the word types of the LZ6 (R1, R2, R31). -/

namespace Sys2Proof

/-- Eight bits, the unit of every address space (R2). -/
abbrev Byte := BitVec 8

/-- Sixteen bits. -/
abbrev Half := BitVec 16

/-- Thirty-two bits: a sequencer word, a token's payload, an almanac register. -/
abbrev Word := BitVec 32

/-- Sixty-four bits: a scalar register, a unit word. -/
abbrev DWord := BitVec 64

end Sys2Proof
end

