-- ==== Sys2Proof/Syntax.lean ====
section
/-! DEFINITION. Sys2Proof/Syntax.lean: the instructions and steps of the Luzahild LZ6, one constructor
per row of spec/opcode_table.json, with the operand fields of R179, R185, R186, R188, R201 and, for a row
without an encoding, the names of what the step acts on. -/

namespace Sys2Proof

/-- The three rings of a partition (R453). -/
inductive RingName where
  | completion
  | pageFault
  | errorLog
  deriving DecidableEq, Repr

/-- The engine that a job runs on (R267): a copy engine or an AG of a memory tile (package ordinal), a
decompression or a video engine of a die. -/
inductive EngineName where
  | copy (m : Fin 192)
  | dcmp (d : Fin 4) (n : Fin 4)
  | vdec (d : Fin 4) (n : Fin 16)
  | xfm (m : Fin 192) (ag : Fin 16)
  deriving DecidableEq, Repr

/-- What the debug port reaches of a sequencer during a debug hold (R402): scalar registers, predicates,
system registers by number, the pc, and dwords of local RAM. -/
inductive DebugReg where
  | scalar (n : BitVec 5)
  | pred (n : BitVec 3)
  | system (n : BitVec 14)
  | pc
  | ram (dword : BitVec 13)
  deriving DecidableEq, Repr

/-- The opcode table. Sequencer fields: p protection class, d a b v registers (a predicate where R180 says
so), w width code, i imm, n shift count, o offset or order, s scope or space, z size, g sign or space, k strand,
c context, predicate or condition, q predicate, t tag. Steps: t compute tile (package ordinal, R348), k strand
of that tile, u unit index in the active block, m memory tile, g graph ID, p partition, q queue, d die. -/
inductive Instr where
  /-- ADD, R225. Sequencer integer add: d := a + b at the width of the suffix. -/
  | add (p : BitVec 2) (d : BitVec 5) (a : BitVec 5) (b : BitVec 5) (w : BitVec 2)
  /-- SUB, R225. Sequencer integer subtract: d := a − b. -/
  | sub (p : BitVec 2) (d : BitVec 5) (a : BitVec 5) (b : BitVec 5) (w : BitVec 2)
  /-- MUL, R225. Sequencer multiply; the low half of the product is kept. -/
  | mul (p : BitVec 2) (d : BitVec 5) (a : BitVec 5) (b : BitVec 5) (w : BitVec 2)
  /-- MULH, R225. Sequencer multiply; the high half of the double-width product is kept. -/
  | mulh (p : BitVec 2) (d : BitVec 5) (a : BitVec 5) (b : BitVec 5) (w : BitVec 2)
  /-- DIV, R225. Sequencer divide rounded towards zero; defined results for division by zero and overflow, with no trap. -/
  | div (p : BitVec 2) (d : BitVec 5) (a : BitVec 5) (b : BitVec 5) (w : BitVec 2)
  /-- REM, R225. Sequencer remainder, taking the sign of a. -/
  | rem (p : BitVec 2) (d : BitVec 5) (a : BitVec 5) (b : BitVec 5) (w : BitVec 2)
  /-- MIN, R225. Sequencer minimum under the signedness of the width. -/
  | min (p : BitVec 2) (d : BitVec 5) (a : BitVec 5) (b : BitVec 5) (w : BitVec 2)
  /-- MAX, R225. Sequencer maximum under the signedness of the width. -/
  | max (p : BitVec 2) (d : BitVec 5) (a : BitVec 5) (b : BitVec 5) (w : BitVec 2)
  /-- ADDS, R225. Sequencer saturating add. -/
  | adds (p : BitVec 2) (d : BitVec 5) (a : BitVec 5) (b : BitVec 5) (w : BitVec 2)
  /-- SUBS, R225. Sequencer saturating subtract. -/
  | subs (p : BitVec 2) (d : BitVec 5) (a : BitVec 5) (b : BitVec 5) (w : BitVec 2)
  /-- AND, R225. Sequencer bitwise and. -/
  | and (p : BitVec 2) (d : BitVec 5) (a : BitVec 5) (b : BitVec 5) (w : BitVec 2)
  /-- OR, R225. Sequencer bitwise or. -/
  | or (p : BitVec 2) (d : BitVec 5) (a : BitVec 5) (b : BitVec 5) (w : BitVec 2)
  /-- XOR, R225. Sequencer bitwise exclusive or. -/
  | xor (p : BitVec 2) (d : BitVec 5) (a : BitVec 5) (b : BitVec 5) (w : BitVec 2)
  /-- ANDN, R225. Sequencer a and not b. -/
  | andn (p : BitVec 2) (d : BitVec 5) (a : BitVec 5) (b : BitVec 5) (w : BitVec 2)
  /-- SHL, R225. Sequencer left shift by b mod width. -/
  | shl (p : BitVec 2) (d : BitVec 5) (a : BitVec 5) (b : BitVec 5) (w : BitVec 2)
  /-- SHR, R225. Sequencer right shift: arithmetic for signed widths, logical for unsigned. -/
  | shr (p : BitVec 2) (d : BitVec 5) (a : BitVec 5) (b : BitVec 5) (w : BitVec 2)
  /-- CLZ, R225. Sequencer count of leading zeros. -/
  | clz (p : BitVec 2) (d : BitVec 5) (a : BitVec 5) (w : BitVec 2)
  /-- CTZ, R225. Sequencer count of trailing zeros. -/
  | ctz (p : BitVec 2) (d : BitVec 5) (a : BitVec 5) (w : BitVec 2)
  /-- POPC, R225. Sequencer population count. -/
  | popc (p : BitVec 2) (d : BitVec 5) (a : BitVec 5) (w : BitVec 2)
  /-- CMP_EQ, R226. Compares a = b into a predicate. -/
  | cmpEq (p : BitVec 2) (d : BitVec 3) (a : BitVec 5) (b : BitVec 5) (w : BitVec 2)
  /-- CMP_NE, R226. Compares a ≠ b into a predicate. -/
  | cmpNe (p : BitVec 2) (d : BitVec 3) (a : BitVec 5) (b : BitVec 5) (w : BitVec 2)
  /-- CMP_LT, R226. Compares a < b, under the signedness of the width, into a predicate. -/
  | cmpLt (p : BitVec 2) (d : BitVec 3) (a : BitVec 5) (b : BitVec 5) (w : BitVec 2)
  /-- CMP_GE, R226. Compares a ≥ b, under the signedness of the width, into a predicate. -/
  | cmpGe (p : BitVec 2) (d : BitVec 3) (a : BitVec 5) (b : BitVec 5) (w : BitVec 2)
  /-- PAND, R227. Predicate and. -/
  | pand (p : BitVec 2) (d : BitVec 3) (a : BitVec 3) (b : BitVec 3)
  /-- POR, R227. Predicate or. -/
  | por (p : BitVec 2) (d : BitVec 3) (a : BitVec 3) (b : BitVec 3)
  /-- PXOR, R227. Predicate exclusive or. -/
  | pxor (p : BitVec 2) (d : BitVec 3) (a : BitVec 3) (b : BitVec 3)
  /-- PANDN, R227. Predicate q and not r. -/
  | pandn (p : BitVec 2) (d : BitVec 3) (a : BitVec 3) (b : BitVec 3)
  /-- PGET, R227. Copies p7 to p0 into a scalar register. -/
  | pget (p : BitVec 2) (d : BitVec 5)
  /-- PSET, R227. Sets p1 to p7 from scalar bits 1 to 7. -/
  | pset (p : BitVec 2) (a : BitVec 5)
  /-- SEL, R228. d := a if predicate p, else b. -/
  | sel (p : BitVec 2) (d : BitVec 5) (a : BitVec 5) (b : BitVec 5) (q : BitVec 3)
  /-- ADDI, R230. Adds a sign-extended immediate. -/
  | addi (p : BitVec 2) (d : BitVec 5) (a : BitVec 5) (i : BitVec 14)
  /-- ANDI, R230. Ands a zero-extended immediate. -/
  | andi (p : BitVec 2) (d : BitVec 5) (a : BitVec 5) (i : BitVec 14)
  /-- ORI, R230. Ors a zero-extended immediate. -/
  | ori (p : BitVec 2) (d : BitVec 5) (a : BitVec 5) (i : BitVec 14)
  /-- XORI, R230. Xors a zero-extended immediate. -/
  | xori (p : BitVec 2) (d : BitVec 5) (a : BitVec 5) (i : BitVec 14)
  /-- SHLI, R230. Shifts left by an immediate count. -/
  | shli (p : BitVec 2) (d : BitVec 5) (a : BitVec 5) (n : BitVec 6)
  /-- SHRLI, R230. Shifts right logically by an immediate count. -/
  | shrli (p : BitVec 2) (d : BitVec 5) (a : BitVec 5) (n : BitVec 6)
  /-- SHRAI, R230. Shifts right arithmetically by an immediate count. -/
  | shrai (p : BitVec 2) (d : BitVec 5) (a : BitVec 5) (n : BitVec 6)
  /-- CMPI_EQ, R229. Compares a against an immediate for equality into a predicate. -/
  | cmpiEq (p : BitVec 2) (d : BitVec 3) (a : BitVec 5) (i : BitVec 14)
  /-- CMPI_LT, R229. Compares a < immediate, signed, into a predicate. -/
  | cmpiLt (p : BitVec 2) (d : BitVec 3) (a : BitVec 5) (i : BitVec 14)
  /-- CMPI_LTU, R229. Compares a < immediate, unsigned on the sign-extended immediate, into a predicate. -/
  | cmpiLtu (p : BitVec 2) (d : BitVec 3) (a : BitVec 5) (i : BitVec 14)
  /-- LUI, R231. Loads a sign-extended upper immediate. -/
  | lui (p : BitVec 2) (d : BitVec 5) (i : BitVec 19)
  /-- LPC, R231. Adds an upper immediate to pc. -/
  | lpc (p : BitVec 2) (d : BitVec 5) (i : BitVec 19)
  /-- BEQ, R232. Branches if a = b. -/
  | beq (p : BitVec 2) (a : BitVec 5) (b : BitVec 5) (o : BitVec 14)
  /-- BNE, R232. Branches if a ≠ b. -/
  | bne (p : BitVec 2) (a : BitVec 5) (b : BitVec 5) (o : BitVec 14)
  /-- BLT, R232. Branches if a < b, signed. -/
  | blt (p : BitVec 2) (a : BitVec 5) (b : BitVec 5) (o : BitVec 14)
  /-- BGE, R232. Branches if a ≥ b, signed. -/
  | bge (p : BitVec 2) (a : BitVec 5) (b : BitVec 5) (o : BitVec 14)
  /-- BP, R233. Branches if the predicate is true. -/
  | bp (p : BitVec 2) (c : BitVec 3) (o : BitVec 20)
  /-- BNP, R233. Branches if the predicate is false. -/
  | bnp (p : BitVec 2) (c : BitVec 3) (o : BitVec 20)
  /-- J, R234. Jumps pc-relative. -/
  | j (p : BitVec 2) (o : BitVec 24)
  /-- CALL, R234. Writes pc + 4 to s31 and jumps. -/
  | call (p : BitVec 2) (o : BitVec 24)
  /-- CALLR, R234. Jumps to a + imm and writes the link into d, with an alignment check. -/
  | callr (p : BitVec 2) (d : BitVec 5) (a : BitVec 5) (i : BitVec 14)
  /-- LD, R239. Unordered load from the global, scratch-window or local-RAM space. -/
  | ld (p : BitVec 2) (d : BitVec 5) (b : BitVec 5) (z : BitVec 2) (g : BitVec 1) (s : BitVec 2) (o : BitVec 9)
  /-- ST, R240. Unordered store to the global, scratch-window or local-RAM space. -/
  | st (p : BitVec 2) (d : BitVec 5) (b : BitVec 5) (z : BitVec 2) (s : BitVec 2) (o : BitVec 9)
  /-- LD_ORDERED, R241. Ordered global load, .rlx or .acq, at a scope. -/
  | ldOrdered (p : BitVec 2) (d : BitVec 5) (a : BitVec 5) (o : BitVec 2) (s : BitVec 2) (z : BitVec 2)
  /-- ST_ORDERED, R241. Ordered global store, .rlx or .rel, at a scope. -/
  | stOrdered (p : BitVec 2) (a : BitVec 5) (v : BitVec 5) (o : BitVec 2) (s : BitVec 2) (z : BitVec 2)
  /-- AMO_ADD, R242. Irrevocable atomic add, performed once its round is the oldest uncommitted round. -/
  | amoAdd (p : BitVec 2) (d : BitVec 5) (a : BitVec 5) (v : BitVec 5) (o : BitVec 2) (s : BitVec 2) (z : BitVec 2)
  /-- AMO_SWAP, R242. Irrevocable atomic swap. -/
  | amoSwap (p : BitVec 2) (d : BitVec 5) (a : BitVec 5) (v : BitVec 5) (o : BitVec 2) (s : BitVec 2) (z : BitVec 2)
  /-- AMO_CAS, R242. Irrevocable atomic compare-and-swap against d. -/
  | amoCas (p : BitVec 2) (d : BitVec 5) (a : BitVec 5) (v : BitVec 5) (o : BitVec 2) (s : BitVec 2) (z : BitVec 2)
  /-- FENCE, R244. Orders this sequencer's direct accesses at a scope. -/
  | fence (p : BitVec 2) (o : BitVec 2) (s : BitVec 2)
  /-- CFG_LOAD, R251. Fetches and checks a native block image into a context. -/
  | cfgLoad (p : BitVec 2) (a : BitVec 5) (c : BitVec 4)
  /-- CFG_PART, R257. Injects reconfiguration markers for a strand and sets part pending. -/
  | cfgPart (p : BitVec 2) (k : BitVec 3) (c : BitVec 4)
  /-- CFG_ARM, R252. Makes a context the armed shadow of a strand. -/
  | cfgArm (p : BitVec 2) (k : BitVec 3) (c : BitVec 4)
  /-- CFG_FIRE, R254. Starts a phase of a strand, or makes one pending, with two arguments. -/
  | cfgFire (p : BitVec 2) (a : BitVec 5) (b : BitVec 5) (k : BitVec 3)
  /-- CFG_WAIT, R256. Stalls until a strand is out of run with nothing pending. -/
  | cfgWait (p : BitVec 2) (k : BitVec 3)
  /-- CFG_EXIT, R256. Waits for the strand, then reads its exit mask and sink-closed status. -/
  | cfgExit (p : BitVec 2) (a : BitVec 5) (k : BitVec 3)
  /-- CFG_PICK, R256. Waits for the strand, then chooses and records the next block by R91. -/
  | cfgPick (p : BitVec 2) (a : BitVec 5) (k : BitVec 3)
  /-- CFG_DRAIN, R258. Stalls until the engine jobs bound to a strand's region drain, then acts as an acquire at .dev. -/
  | cfgDrain (p : BitVec 2) (k : BitVec 3)
  /-- CFG_SWAP, R253. Swaps in a strand's armed shadow, or makes the swap pending. -/
  | cfgSwap (p : BitVec 2) (k : BitVec 3)
  /-- TOK_PUT, R261. Injects one data or void token into an injection port. -/
  | tokPut (p : BitVec 2) (a : BitVec 5) (b : BitVec 5) (t : BitVec 7)
  /-- RND_END, R262. Injects an end-of-round marker with a timestamp and advances the port's round. -/
  | rndEnd (p : BitVec 2) (a : BitVec 5) (b : BitVec 5)
  /-- RND_GRAPH, R263. Injects an end-of-graph marker and closes the port. -/
  | rndGraph (p : BitVec 2) (b : BitVec 5)
  /-- RND_REDO, R264. Ends a port's refusal after an abort so that the aborted round can be re-injected. -/
  | rndRedo (p : BitVec 2) (a : BitVec 5) (b : BitVec 5)
  /-- ENG_COPY, R266. Reads and checks a copy job card and queues the job. -/
  | engCopy (p : BitVec 2) (a : BitVec 5) (k : BitVec 3)
  /-- ENG_DCMP, R266. Queues a decompression job from a card. -/
  | engDcmp (p : BitVec 2) (a : BitVec 5) (k : BitVec 3)
  /-- ENG_VDEC, R266. Queues a video decode job from a card. -/
  | engVdec (p : BitVec 2) (a : BitVec 5) (k : BitVec 3)
  /-- ENG_XFM, R266. Queues an AG transform job from a card. -/
  | engXfm (p : BitVec 2) (a : BitVec 5) (k : BitVec 3)
  /-- LAUNCH, R268. Reads a launch record and holds it pending until its round commits. -/
  | launch (p : BitVec 2) (a : BitVec 5) (b : BitVec 5)
  /-- WAIT_ADDR, R269. Sleeps until a word meets its condition. -/
  | waitAddr (p : BitVec 2) (a : BitVec 5) (b : BitVec 5) (o : BitVec 2) (s : BitVec 2) (g : BitVec 2) (c : BitVec 2)
  /-- WAIT_ADDR_N64, R269. Sleeps until a dword meets its condition. -/
  | waitAddrN64 (p : BitVec 2) (a : BitVec 5) (b : BitVec 5) (o : BitVec 2) (s : BitVec 2) (g : BitVec 2) (c : BitVec 2)
  /-- EV_ADD, R270. Irrevocable 64-bit add to an event counter, with release at a scope. -/
  | evAdd (p : BitVec 2) (a : BitVec 5) (b : BitVec 5) (s : BitVec 2)
  /-- TRAP, R271. Takes the trap-instruction trap; trap 0 at user privilege ends the sequencer's part. -/
  | trap (p : BitVec 2) (i : BitVec 16)
  /-- BRK, R271. Takes the breakpoint trap with a code. -/
  | brk (p : BitVec 2) (i : BitVec 16)
  /-- ERET, R272. Returns from a trap to sy.epc and restores the privilege. -/
  | eret (p : BitVec 2)
  /-- IFENCE, R273. Makes later fetches observe this sequencer's earlier stores. -/
  | ifence (p : BitVec 2)
  /-- MFSY, R274. Reads a system register. -/
  | mfsy (p : BitVec 2) (d : BitVec 5) (i : BitVec 14)
  /-- MTSY, R274. Writes a system register. -/
  | mtsy (p : BitVec 2) (a : BitVec 5) (i : BitVec 14)
  /-- ALM_END, R365. Ends an almanac invocation; a7 and a6 become the decision and its argument. -/
  | almEnd
  /-- ALM_ADD, R365. Almanac add. -/
  | almAdd (d : BitVec 3) (a : BitVec 3) (b : BitVec 3)
  /-- ALM_SUB, R365. Almanac subtract. -/
  | almSub (d : BitVec 3) (a : BitVec 3) (b : BitVec 3)
  /-- ALM_AND, R365. Almanac and. -/
  | almAnd (d : BitVec 3) (a : BitVec 3) (b : BitVec 3)
  /-- ALM_OR, R365. Almanac or. -/
  | almOr (d : BitVec 3) (a : BitVec 3) (b : BitVec 3)
  /-- ALM_XOR, R365. Almanac exclusive or. -/
  | almXor (d : BitVec 3) (a : BitVec 3) (b : BitVec 3)
  /-- ALM_SHL, R365. Almanac left shift. -/
  | almShl (d : BitVec 3) (a : BitVec 3) (b : BitVec 3)
  /-- ALM_SHR, R365. Almanac logical right shift. -/
  | almShr (d : BitVec 3) (a : BitVec 3) (b : BitVec 3)
  /-- ALM_MIN, R365. Almanac unsigned minimum. -/
  | almMin (d : BitVec 3) (a : BitVec 3) (b : BitVec 3)
  /-- ALM_MAX, R365. Almanac unsigned maximum. -/
  | almMax (d : BitVec 3) (a : BitVec 3) (b : BitVec 3)
  /-- ALM_MUL, R365. Almanac multiply, keeping the low 32 bits. -/
  | almMul (d : BitVec 3) (a : BitVec 3) (b : BitVec 3)
  /-- ALM_ADDI, R365. Almanac add of a 16-bit extension immediate. -/
  | almAddi (d : BitVec 3) (a : BitVec 3) (x : BitVec 16)
  /-- ALM_LI, R365. Almanac load of a sign-extended 16-bit immediate. -/
  | almLi (d : BitVec 3) (x : BitVec 16)
  /-- ALM_LIH, R365. Almanac load of the upper 16 bits. -/
  | almLih (d : BitVec 3) (x : BitVec 16)
  /-- ALM_MOV, R365. Almanac register move. -/
  | almMov (d : BitVec 3) (a : BitVec 3)
  /-- ALM_SLTU, R365. Almanac set if less than, unsigned. -/
  | almSltu (d : BitVec 3) (a : BitVec 3) (b : BitVec 3)
  /-- ALM_SLT, R365. Almanac set if less than, signed. -/
  | almSlt (d : BitVec 3) (a : BitVec 3) (b : BitVec 3)
  /-- ALM_SEQ, R365. Almanac set if equal. -/
  | almSeq (d : BitVec 3) (a : BitVec 3) (b : BitVec 3)
  /-- ALM_CSEL, R365. Almanac conditional select on the old value of d. -/
  | almCsel (d : BitVec 3) (a : BitVec 3) (b : BitVec 3)
  /-- ALM_BZ, R365. Almanac forward branch if zero. -/
  | almBz (o : BitVec 7) (a : BitVec 3)
  /-- ALM_BNZ, R365. Almanac forward branch if non-zero. -/
  | almBnz (o : BitVec 7) (a : BitVec 3)
  /-- ALM_JMP, R365. Almanac forward jump. -/
  | almJmp (o : BitVec 7)
  /-- ALM_LOOP_N, R365. Starts a counted loop of 1 to 16 iterations. -/
  | almLoopN (k : BitVec 4)
  /-- ALM_ENDL, R365. Ends a loop body, or continues at its first word. -/
  | almEndl
  /-- ALM_RDQ, R365. Reads a queue's depth. -/
  | almRdq (d : BitVec 3) (a : BitVec 3)
  /-- ALM_RDH, R365. Reads a field of a queue's head record. -/
  | almRdh (d : BitVec 3) (a : BitVec 3) (f : BitVec 4)
  /-- ALM_RDFREE, R365. Reads a word of the free-tile map. -/
  | almRdfree (d : BitVec 3) (a : BitVec 3)
  /-- ALM_RDQUOTA, R365. Reads a partition field. -/
  | almRdquota (d : BitVec 3) (f : BitVec 4)
  /-- ALM_RDECL, R365. Reads a word of eclipse bits. -/
  | almRdecl (d : BitVec 3) (a : BitVec 3)
  /-- ALM_RDFLT, R365. Reads a fault field in on_fault. -/
  | almRdflt (d : BitVec 3) (f : BitVec 4)
  /-- ALM_RDP, R365. Reads a persistent word. -/
  | almRdp (d : BitVec 3) (f : BitVec 4)
  /-- ALM_WRP, R365. Writes a persistent word, taking effect at end. -/
  | almWrp (a : BitVec 3) (f : BitVec 4)
  /-- ALM_RDINV, R365. Reads an invocation field. -/
  | almRdinv (d : BitVec 3) (f : BitVec 4)
  /-- ALM_POPC, R365. Almanac population count. -/
  | almPopc (d : BitVec 3) (a : BitVec 3)
  /-- ALM_FFS, R365. Almanac index of the lowest set bit. -/
  | almFfs (d : BitVec 3) (a : BitVec 3)
  /-- ALM_RDRUN, R365. Reads a field of a running slot. -/
  | almRdrun (d : BitVec 3) (a : BitVec 3) (f : BitVec 4)
  /-- U_MXA, R334. Consumes one A and one B wavefront and accumulates the group sums, with the parallax check. -/
  | uMxa (t : Fin 192) (k : Fin 8)
  /-- U_MXD, R336. Takes a swap token and drains a bank row by row as FP32 or INT32. -/
  | uMxd (t : Fin 192) (k : Fin 8)
  /-- U_SOURCE, R315. A free-running source that emits injected, stream or pick tokens whenever its edge has room. -/
  | uSource (t : Fin 192) (k : Fin 8) (u : BitVec 7)
  /-- REGION_ADVANCE, R69. When the gate opens, every unit whose slot equals c fires, the pipeline shifts and c advances; an iteration issues at c = 0. -/
  | regionAdvance (t : Fin 192) (k : Fin 8)
  /-- CONTEXT_SWITCH, R99. Once the reconfiguration marker has passed every output and bound engines have drained, the region switches to the new context. -/
  | contextSwitch (t : Fin 192) (k : Fin 8)
  /-- ROUND_COMMIT, R146. Once its markers have passed every tile and the previous round has committed, the round writes its line entries and the completion word. -/
  | roundCommit (g : BitVec 32)
  /-- ROUND_OVERFLOW, R150. An overflowed round, once oldest, writes its buffered lines and then stores directly. -/
  | roundOverflow (g : BitVec 32) (m : Fin 192)
  /-- WITHHELD_STORE_RELEASE, R151. A withheld store takes a freed entry, or overflows its round once that round is oldest. -/
  | withheldStoreRelease (t : Fin 192) (k : Fin 8) (u : BitVec 7)
  /-- AMO_PERFORM, R164. A waiting amo or ev.add is performed once its round is the oldest uncommitted round. -/
  | amoPerform (t : Fin 192)
  /-- STALL_RELEASE, R249. A stalled configuration, injection, engine or launch instruction resumes when its wait ends. -/
  | stallRelease (t : Fin 192)
  /-- WAIT_ADDR_WAKE, R269. A write to the watched line wakes a sleeping sequencer, which re-reads the location. -/
  | waitAddrWake (t : Fin 192)
  /-- WAIT_ADDR_POLL, R269. Every 1,024 ac cycles, a wait on an uncached host page reads again. -/
  | waitAddrPoll (t : Fin 192)
  /-- FABRIC_LOAD_END, R101. A load whose end conditions hold ends; a later load is placed, or the completion record is written. -/
  | fabricLoadEnd (g : BitVec 32)
  /-- QUIESCENCE_TRIP, R103. 65,536 quiet ac cycles freeze the load. -/
  | quiescenceTrip (g : BitVec 32)
  /-- FREEZE, R396. The load is frozen once its last tile has stopped, with in-flight tokens and replies landed. -/
  | freeze (g : BitVec 32)
  /-- CONTEXT_SCAN, R397. After a freeze for pre-emption or a page fault, the scan writes the save record and frees the slot, tiles and windows. -/
  | contextScan (g : BitVec 32)
  /-- TOKEN_REINJECTION, R377. The re-read of a tagged element returns and is replayed to its final consumer. -/
  | tokenReinjection (g : BitVec 32) (n : BitVec 16)
  /-- PAGE_FAULT_LIMIT, R134. An unresolved request after 100 µs freezes the load and suspends it. -/
  | pageFaultLimit (g : BitVec 32)
  /-- RETRANSLATION_REPLY, R329. A new base returns to the requesting port, which resumes accepting offsets. -/
  | retranslationReply (t : Fin 192) (k : Fin 8) (u : BitVec 7)
  /-- PLACEMENT_EPOCH, R139. Every 1 ms the home die evaluates hot pages for replication or migration and halves the counts. -/
  | placementEpoch (d : Fin 4)
  /-- PAGE_MOVE, R138. A migration, replication or collapse ends with a remap and shootdown, and writers resume. -/
  | pageMove (n : BitVec 16)
  /-- QTAIL_WRITE, R343. A tail write is accepted if newer under serial arithmetic; otherwise QSTALE counts it. -/
  | qtailWrite (p : Fin 16) (q : Fin 64) (v : BitVec 32)
  /-- QHEAD_WRITE, R342. A write to QHEAD sets both head and tail. -/
  | qheadWrite (p : Fin 16) (q : Fin 64) (v : BitVec 32)
  /-- QSTALE_CLEAR, R342. A write of 0 clears QSTALE. -/
  | qstaleClear (p : Fin 16) (q : Fin 64)
  /-- QUEUE_ENABLE, R342. A QCFG write that sets enable checks the configuration and enables the queue, or sets its error bit. -/
  | queueEnable (p : Fin 16) (q : Fin 64) (v : BitVec 64)
  /-- HEAD_ELIGIBLE, R345. A head record becomes eligible, is read once and checked; a failing record is consumed with an error completion. -/
  | headEligible (p : Fin 16) (q : Fin 64)
  /-- HEAD_REREAD, R345. Every 1,024 ns, a waiting head is re-read. -/
  | headReread (p : Fin 16) (q : Fin 64)
  /-- ALMANAC_INVOCATION, R355. The dispatch unit runs the next pending hook of a partition. -/
  | almanacInvocation (p : Fin 16)
  /-- QUANTUM_EXPIRY, R354. A graph running for 2 ms triggers on_preempt with code 0x12. -/
  | quantumExpiry (p : Fin 16) (r : Fin 32)
  /-- DEADLINE_TRIGGER, R354. Time reaching a head's deadline minus the margin triggers on_preempt with code 0x13. -/
  | deadlineTrigger (p : Fin 16) (q : Fin 64)
  /-- INVOCATION_OVERRUN, R361. An invocation without end within 4,096 cycles is discarded and the fallback decides. -/
  | invocationOverrun (p : Fin 16)
  /-- ALMANAC_SWAP, R364. A staged almanac replaces the current one once no invocation runs. -/
  | almanacSwap (p : Fin 16)
  /-- ASYNC_TRAP, R390. A held asynchronous trap is entered between instructions. -/
  | asyncTrap (t : Fin 192)
  /-- WATCHDOG, R392. An instruction stalled for 2^28 ac cycles at user privilege takes cause 0x0B. -/
  | watchdog (t : Fin 192)
  /-- SUPERVISOR_WATCHDOG, R392. 2^20 ac cycles at supervisor privilege kill the graph. -/
  | supervisorWatchdog (t : Fin 192)
  /-- FORCED_BLOCK_BOUNDARY, R404. 65,536 ac cycles after a fetch shootdown request reaches a sequencer, a boundary is forced and its lines are discarded. -/
  | forcedBlockBoundary (t : Fin 192)
  /-- SHOOT_TRANSLATION, R459. A SHOOT command of kind 0 invalidates the page's translations. -/
  | shootTranslation (p : Fin 16) (ctx : BitVec 16) (k : BitVec 3)
  /-- SHOOT_FETCH, R459. A SHOOT command of kind 1 starts a fetch shootdown. -/
  | shootFetch (p : Fin 16) (ctx : BitVec 16) (k : BitVec 3)
  /-- SHOOT_BOTH, R459. A SHOOT command of kind 2 starts both shootdowns. -/
  | shootBoth (p : Fin 16) (ctx : BitVec 16) (k : BitVec 3)
  /-- SHOOTDOWN_COMPLETE, R459. A shootdown completes, in order, and SHOOTDONE advances. -/
  | shootdownComplete (p : Fin 16)
  /-- FRRESOLVE, R455. Resolves a page-fault request by tag as present or invalid. -/
  | frresolve (p : Fin 16) (v : BitVec 64)
  /-- RING_HEAD_WRITE, R453. A host head write to a ring is accepted if it stays within the tail. -/
  | ringHeadWrite (p : Fin 16) (r : RingName) (v : BitVec 32)
  /-- RING_ENABLE, R453. A configuration write that sets enable enables a ring if its base and capacity are valid. -/
  | ringEnable (p : Fin 16) (r : RingName) (v : BitVec 64)
  /-- RING_RECORD_RELEASE, R454. Records waiting for a full completion ring are written once it has room. -/
  | ringRecordRelease (p : Fin 16)
  /-- MSIX_TIMER, R453. 1 µs after the last message, an MSI-X message is sent for new entries. -/
  | msixTimer (p : Fin 16) (r : RingName)
  /-- PSTATUS_READ, R452. A read of PSTATUS returns the status and clears the shootdown error bits. -/
  | pstatusRead (p : Fin 16) (o : BitVec 3) (n : BitVec 4)
  /-- PQERR_CLEAR, R452. Writing 1 clears a queue's enable-error bit. -/
  | pqerrClear (p : Fin 16) (o : BitVec 3) (n : BitVec 4) (v : BitVec 64)
  /-- REGISTER_WRITE, R452. A write to a control-window register that has no behaviour of its own. -/
  | registerWrite (o : BitVec 21) (n : BitVec 4) (v : BitVec 64)
  /-- HOST_MEMORY_WRITE, R450. A host or peer write through the memory window reaches HBM through L2. -/
  | hostMemoryWrite (o : BitVec 39) (n : BitVec 4) (v : BitVec 64)
  /-- HOST_MEMORY_READ, R450. A host or peer read through the memory window, poisoned on an uncorrectable error. -/
  | hostMemoryRead (o : BitVec 39) (n : BitVec 4)
  /-- CXL_MEM_ACCESS, R175. A host access to HDM-DB memory, back-invalidating device copies. -/
  | cxlMemAccess (wr : Bool) (a : BitVec 52) (v : BitVec 512)
  /-- ENGINE_JOB_START, R267. A queued engine job reaches its engine and starts. -/
  | engineJobStart (e : EngineName)
  /-- ENGINE_JOB_COMPLETE, R427. A job ends by writing its completion record, with the value last. -/
  | engineJobComplete (e : EngineName)
  /-- ECLCLR, R474. Removes a unit from the eclipse map. -/
  | eclclr (tag : BitVec 16)
  /-- ALMSTAGE, R474. Stages and verifies an almanac image. -/
  | almstage (tag : BitVec 16)
  /-- ALMSWAP, R474. Requests a swap to the staged almanac. -/
  | almswap (tag : BitVec 16)
  /-- PRELEASE, R474. Releases a partition hold. -/
  | prelease (tag : BitVec 16)
  /-- GKILL, R474. Kills a running graph with status 0x0011. -/
  | gkill (tag : BitVec 16)
  /-- EMASK, R474. Sets an erratum in the emulation mask. -/
  | emask (tag : BitVec 16)
  /-- PARTSET, R474. Forms a partition from pairs and quotas. -/
  | partset (tag : BitVec 16)
  /-- SAVEAREA, R474. Places a partition's save area. -/
  | savearea (tag : BitVec 16)
  /-- STRPAIR, R474. Pairs an off-package channel with a stream. -/
  | strpair (tag : BitVec 16)
  /-- CAPSET, R474. Sets the package power cap. -/
  | capset (tag : BitVec 16)
  /-- LCSTEP, R468. Moves the life cycle forward one state, killing graphs and wiping. -/
  | lcstep (tag : BitVec 16)
  /-- DBGACC_READ, R474. A debug read of memory into MRES. -/
  | dbgaccRead (tag : BitVec 16)
  /-- DBGACC_WRITE, R474. A debug write of memory, refused for shared executable frames. -/
  | dbgaccWrite (tag : BitVec 16)
  /-- DBGACC_RELEASE, R402. Releases a debug hold. -/
  | dbgaccRelease (tag : BitVec 16)
  /-- GET_VERSION, R472. SPDM version request. -/
  | getVersion
  /-- GET_CAPABILITIES, R472. SPDM capabilities request. -/
  | getCapabilities
  /-- NEGOTIATE_ALGORITHMS, R472. SPDM algorithm negotiation. -/
  | negotiateAlgorithms (hash : BitVec 32) (asym : BitVec 32)
  /-- GET_DIGESTS, R472. SPDM certificate digests request. -/
  | getDigests
  /-- GET_CERTIFICATE, R472. SPDM certificate request. -/
  | getCertificate (slot : BitVec 4) (o : BitVec 16) (n : BitVec 16)
  /-- CHALLENGE, R472. SPDM challenge signed with the identity key. -/
  | challenge (slot : BitVec 4) (nonce : BitVec 256)
  /-- GET_MEASUREMENTS, R472. SPDM measurements request. -/
  | getMeasurements (op : BitVec 8) (nonce : BitVec 256)
  /-- RESET, R467. Bring-up: firmware verification, wipe, HBM and link training, then enumeration in harebell mode. -/
  | reset
  /-- TILE_JOIN, R467. A tile whose island passes self-test joins, or is eclipsed; harebell mode ends when all have done so. -/
  | tileJoin (i : Fin 512) (pass : Bool)
  /-- POWER_WINDOW, R470. Each 1 ms window, the management cores choose island frequencies to meet the cap. -/
  | powerWindow (ks : List (Fin 512 × BitVec 5))
  /-- LINK_CRC_REPLAY, R462. A flit failing its CRC is replayed in order. -/
  | linkCrcReplay (d : Fin 4) (l : Fin 5)
  /-- LINK_RETRAIN, R462. A lane failure retrains the link at reduced width. -/
  | linkRetrain (d : Fin 4) (l : Fin 5) (lanes : BitVec 8)
  /-- LINK_DOWN, R462. A link goes down; traffic and streams are rerouted, or loads without a path are killed. -/
  | linkDown (d : Fin 4) (l : Fin 5)
  /-- FLIT_UNDELIVERED, R462. A flit not delivered within 1 ms error-tags its tokens and replies. -/
  | flitUndelivered (d : Fin 4) (l : Fin 5) (t : Fin 192) (k : Fin 8) (u : BitVec 7)
  /-- FIFO_MODE_LOAD, R466. A FIFO-mode load takes the oldest FIFO slot, with its tag, whenever its output edge has room and the FIFO holds a token. -/
  | fifoModeLoad (t : Fin 192) (k : Fin 8) (u : BitVec 7)
  /-- MEMORY_REPLY, R303. The reply of a unit load, gather or ldx lands in its port's reply buffer, the gated boundary input of its region. -/
  | memoryReply (t : Fin 192) (k : Fin 8) (u : BitVec 7)
  /-- DEBUG_PORT_REGISTER_ACCESS, R402. During a debug hold, the debug port reads or writes sequencer registers such as sy.brk0 to sy.brk7. -/
  | debugPortRegisterAccess (t : Fin 192) (r : DebugReg) (v : Option (BitVec 64))
  /-- TABLE_POISON_CLEAR, R130. System software repairs a poisoned page table and clears its poison mark, so walkers may read it again. -/
  | tablePoisonClear (a : BitVec 52)
  /-- OBSERVED_LINE_WRITE, R345. A write to a launch slot's line or a prerequisite counter's line, observed through L2 or CXL.cache, makes the dispatch unit re-read a waiting head. -/
  | observedLineWrite (a : BitVec 52)
  deriving DecidableEq, Repr

end Sys2Proof
end

