-- ==== Sys2Proof/WellFormed.lean ====
section
/-! DEFINITION. Sys2Proof/WellFormed.lean: what R181 and its neighbours ask of the fields of an instruction, beside
the privilege it needs. A word whose fields break this is an illegal instruction (R181), an almanac word is refused
by the verifier (R363). -/

namespace Sys2Proof

/-- The system registers that mfsy reads (R188). -/
def sysReadable (i : BitVec 14) : Bool :=
  i.toNat ≤ 0x00A || (0x010 ≤ i.toNat && i.toNat ≤ 0x017)

/-- The system registers that mtsy writes (R188): sy.cycle, sy.time, sy.tile and sy.part are read-only. -/
def sysWritable (i : BitVec 14) : Bool :=
  i.toNat ≤ 0x005 || i.toNat == 0x00A || (0x010 ≤ i.toNat && i.toNat ≤ 0x017)

/-- The tags that tok.put injects (R261): [5:4] and [1:0] zero, and no fault bit on a void token. -/
def tokTagOk (t : BitVec 7) : Bool :=
  t.extractLsb' 4 2 == 0#2 && t.extractLsb' 0 2 == 0#2 && !(t.getLsbD 6 && t.getLsbD 2)

/-- The fields are ones the instruction set defines (R178 to R188, R201, R202, R366). The protection class 0b11 is
reserved in every sequencer word. -/
def Instr.wf : Instr → Bool
  | .add p _ _ _ _ => p != 3#2
  | .sub p _ _ _ _ => p != 3#2
  | .mul p _ _ _ _ => p != 3#2
  | .mulh p _ _ _ _ => p != 3#2
  | .div p _ _ _ _ => p != 3#2
  | .rem p _ _ _ _ => p != 3#2
  | .min p _ _ _ _ => p != 3#2
  | .max p _ _ _ _ => p != 3#2
  | .adds p _ _ _ _ => p != 3#2
  | .subs p _ _ _ _ => p != 3#2
  | .and p _ _ _ _ => p != 3#2
  | .or p _ _ _ _ => p != 3#2
  | .xor p _ _ _ _ => p != 3#2
  | .andn p _ _ _ _ => p != 3#2
  | .shl p _ _ _ _ => p != 3#2
  | .shr p _ _ _ _ => p != 3#2
  | .clz p _ _ _ => p != 3#2
  | .ctz p _ _ _ => p != 3#2
  | .popc p _ _ _ => p != 3#2
  | .cmpEq p _ _ _ _ => p != 3#2
  | .cmpNe p _ _ _ _ => p != 3#2
  | .cmpLt p _ _ _ _ => p != 3#2
  | .cmpGe p _ _ _ _ => p != 3#2
  | .pand p _ _ _ => p != 3#2
  | .por p _ _ _ => p != 3#2
  | .pxor p _ _ _ => p != 3#2
  | .pandn p _ _ _ => p != 3#2
  | .pget p _ => p != 3#2
  | .pset p _ => p != 3#2
  | .sel p _ _ _ _ => p != 3#2
  | .addi p _ _ _ => p != 3#2
  | .andi p _ _ _ => p != 3#2
  | .ori p _ _ _ => p != 3#2
  | .xori p _ _ _ => p != 3#2
  | .shli p _ _ _ => p != 3#2
  | .shrli p _ _ _ => p != 3#2
  | .shrai p _ _ _ => p != 3#2
  | .cmpiEq p _ _ _ => p != 3#2
  | .cmpiLt p _ _ _ => p != 3#2
  | .cmpiLtu p _ _ _ => p != 3#2
  | .lui p _ _ => p != 3#2
  | .lpc p _ _ => p != 3#2
  | .beq p _ _ _ => p != 3#2
  | .bne p _ _ _ => p != 3#2
  | .blt p _ _ _ => p != 3#2
  | .bge p _ _ _ => p != 3#2
  | .bp p _ _ => p != 3#2
  | .bnp p _ _ => p != 3#2
  | .j p _ => p != 3#2
  | .call p _ => p != 3#2
  | .callr p _ _ _ => p != 3#2
  | .ld p _ _ z g s _ => p != 3#2 && s != 3#2 && !(g == 1#1 && z == 3#2)
  | .st p _ _ _ s _ => p != 3#2 && s != 3#2
  | .ldOrdered p _ _ o _ z => p != 3#2 && (o == 0#2 || o == 1#2) && (z == 2#2 || z == 3#2)
  | .stOrdered p _ _ o _ z => p != 3#2 && (o == 0#2 || o == 2#2) && (z == 2#2 || z == 3#2)
  | .amoAdd p _ _ _ _ _ z => p != 3#2 && (z == 2#2 || z == 3#2)
  | .amoSwap p _ _ _ _ _ z => p != 3#2 && (z == 2#2 || z == 3#2)
  | .amoCas p _ _ _ _ _ z => p != 3#2 && (z == 2#2 || z == 3#2)
  | .fence p o _ => p != 3#2 && o != 0#2
  | .cfgLoad p _ _ => p != 3#2
  | .cfgPart p _ _ => p != 3#2
  | .cfgArm p _ _ => p != 3#2
  | .cfgFire p _ _ _ => p != 3#2
  | .cfgWait p _ => p != 3#2
  | .cfgExit p _ _ => p != 3#2
  | .cfgPick p _ _ => p != 3#2
  | .cfgDrain p _ => p != 3#2
  | .cfgSwap p _ => p != 3#2
  | .tokPut p _ _ t => p != 3#2 && tokTagOk t
  | .rndEnd p _ _ => p != 3#2
  | .rndGraph p _ => p != 3#2
  | .rndRedo p _ _ => p != 3#2
  | .engCopy p _ _ => p != 3#2
  | .engDcmp p _ _ => p != 3#2
  | .engVdec p _ _ => p != 3#2
  | .engXfm p _ _ => p != 3#2
  | .launch p _ _ => p != 3#2
  | .waitAddr p _ _ o _ g _ => p != 3#2 && (o == 0#2 || o == 1#2) && (g == 0#2 || g == 1#2)
  | .waitAddrN64 p _ _ o _ g c => p != 3#2 && (o == 0#2 || o == 1#2) && (g == 0#2 || g == 1#2) && c != 3#2
  | .evAdd p _ _ _ => p != 3#2
  | .trap p _ => p != 3#2
  | .brk p _ => p != 3#2
  | .eret p => p != 3#2
  | .ifence p => p != 3#2
  | .mfsy p _ i => p != 3#2 && sysReadable i
  | .mtsy p _ i => p != 3#2 && sysWritable i
  | .almEnd => true
  | .almAdd _ _ _ => true
  | .almSub _ _ _ => true
  | .almAnd _ _ _ => true
  | .almOr _ _ _ => true
  | .almXor _ _ _ => true
  | .almShl _ _ _ => true
  | .almShr _ _ _ => true
  | .almMin _ _ _ => true
  | .almMax _ _ _ => true
  | .almMul _ _ _ => true
  | .almAddi _ _ _ => true
  | .almLi _ _ => true
  | .almLih _ _ => true
  | .almMov _ _ => true
  | .almSltu _ _ _ => true
  | .almSlt _ _ _ => true
  | .almSeq _ _ _ => true
  | .almCsel _ _ _ => true
  | .almBz _ _ => true
  | .almBnz _ _ => true
  | .almJmp _ => true
  | .almLoopN _ => true
  | .almEndl => true
  | .almRdq _ _ => true
  | .almRdh _ _ f => f.toNat ≤ 6
  | .almRdfree _ _ => true
  | .almRdquota _ f => f.toNat ≤ 6
  | .almRdecl _ _ => true
  | .almRdflt _ _ => true
  | .almRdp _ _ => true
  | .almWrp _ _ => true
  | .almRdinv _ f => f.toNat ≤ 6
  | .almPopc _ _ => true
  | .almFfs _ _ => true
  | .almRdrun _ _ f => f.toNat ≤ 7
  | .uMxa _ _ => true
  | .uMxd _ _ => true
  | .uSource _ _ _ => true
  | .regionAdvance _ _ => true
  | .contextSwitch _ _ => true
  | .roundCommit _ => true
  | .roundOverflow _ _ => true
  | .withheldStoreRelease _ _ _ => true
  | .amoPerform _ => true
  | .stallRelease _ => true
  | .waitAddrWake _ => true
  | .waitAddrPoll _ => true
  | .fabricLoadEnd _ => true
  | .quiescenceTrip _ => true
  | .freeze _ => true
  | .contextScan _ => true
  | .tokenReinjection _ _ => true
  | .pageFaultLimit _ => true
  | .retranslationReply _ _ _ => true
  | .placementEpoch _ => true
  | .pageMove _ => true
  | .qtailWrite _ _ _ => true
  | .qheadWrite _ _ _ => true
  | .qstaleClear _ _ => true
  | .queueEnable _ _ _ => true
  | .headEligible _ _ => true
  | .headReread _ _ => true
  | .almanacInvocation _ => true
  | .quantumExpiry _ _ => true
  | .deadlineTrigger _ _ => true
  | .invocationOverrun _ => true
  | .almanacSwap _ => true
  | .asyncTrap _ => true
  | .watchdog _ => true
  | .supervisorWatchdog _ => true
  | .forcedBlockBoundary _ => true
  | .shootTranslation _ _ _ => true
  | .shootFetch _ _ _ => true
  | .shootBoth _ _ _ => true
  | .shootdownComplete _ => true
  | .frresolve _ _ => true
  | .ringHeadWrite _ _ _ => true
  | .ringEnable _ _ _ => true
  | .ringRecordRelease _ => true
  | .msixTimer _ _ => true
  | .pstatusRead _ _ _ => true
  | .pqerrClear _ _ _ _ => true
  | .registerWrite _ _ _ => true
  | .hostMemoryWrite _ _ _ => true
  | .hostMemoryRead _ _ => true
  | .cxlMemAccess _ _ _ => true
  | .engineJobStart _ => true
  | .engineJobComplete _ => true
  | .eclclr _ => true
  | .almstage _ => true
  | .almswap _ => true
  | .prelease _ => true
  | .gkill _ => true
  | .emask _ => true
  | .partset _ => true
  | .savearea _ => true
  | .strpair _ => true
  | .capset _ => true
  | .lcstep _ => true
  | .dbgaccRead _ => true
  | .dbgaccWrite _ => true
  | .dbgaccRelease _ => true
  | .getVersion => true
  | .getCapabilities => true
  | .negotiateAlgorithms _ _ => true
  | .getDigests => true
  | .getCertificate _ _ _ => true
  | .challenge _ _ => true
  | .getMeasurements _ _ => true
  | .reset => true
  | .tileJoin _ _ => true
  | .powerWindow ks => ks.all (fun x => 8 ≤ x.2.toNat && x.2.toNat ≤ 16)
  | .linkCrcReplay _ _ => true
  | .linkRetrain _ _ _ => true
  | .linkDown _ _ => true
  | .flitUndelivered _ _ _ _ _ => true
  | .fifoModeLoad _ _ _ => true
  | .memoryReply _ _ _ => true
  | .debugPortRegisterAccess _ _ _ => true
  | .tablePoisonClear _ => true
  | .observedLineWrite _ => true

end Sys2Proof
end

