-- ==== Sys2Proof/Decode.lean ====
section
/-! DEFINITION. Sys2Proof/Decode.lean: the encodings of R178 to R186 and R201, R202: the decoder, which rejects by
name, then the encoder, then decodeTableWord. Every constructor's word of the spec is checked in Tests/Slice0.lean. -/

namespace Sys2Proof

/-- Why a word is no instruction (R181, R202, R363). -/
inductive Reject where
  | reservedClass
  | reservedMajor
  | reservedFunction
  | reservedSubOperation
  | reservedField
  | refusedOperand
  | reservedOpcode
  | missingExtension
  deriving DecidableEq, Repr

/-! ### Fields of a sequencer word (R178, R179) -/

/-- The protection class, [31:30]. -/
def fP (w : Word) : BitVec 2 := w.extractLsb' 30 2
/-- The major opcode, [29:24]. -/
def fMajor (w : Word) : BitVec 6 := w.extractLsb' 24 6
/-- The field [23:19]. -/
def fD (w : Word) : BitVec 5 := w.extractLsb' 19 5
/-- The field [18:14]. -/
def fA (w : Word) : BitVec 5 := w.extractLsb' 14 5
/-- The field [13:9]. -/
def fB (w : Word) : BitVec 5 := w.extractLsb' 9 5
/-- The function field [8:0] of RR. -/
def fFun (w : Word) : BitVec 9 := w.extractLsb' 0 9
/-- The field [13:0]. -/
def fImm14 (w : Word) : BitVec 14 := w.extractLsb' 0 14
/-- The field [18:0] of LU. -/
def fImm19 (w : Word) : BitVec 19 := w.extractLsb' 0 19
/-- The sub-operation [13:8] of CF. -/
def fSub (w : Word) : BitVec 6 := w.extractLsb' 8 6
/-- The field [7:0] of CF and SY. -/
def fImm8 (w : Word) : BitVec 8 := w.extractLsb' 0 8
/-- The field [23:8] of SY. -/
def fImm16 (w : Word) : BitVec 16 := w.extractLsb' 8 16

/-- x unless a reserved field is non-zero. -/
def needZero {n : Nat} (f : BitVec n) (x : Except Reject Instr) : Except Reject Instr :=
  if f = 0#n then x else .error .reservedField

/-! ### The decoder -/

/-- Major 0x00 (R183). -/
def decodeAlu (w : Word) : Except Reject Instr :=
  let p := fP w; let d := fD w; let a := fA w; let b := fB w
  let wd := (fFun w).extractLsb' 7 2
  match ((fFun w).extractLsb' 0 7).toNat with
  | 0x00 => .ok (.add p d a b wd)
  | 0x01 => .ok (.sub p d a b wd)
  | 0x02 => .ok (.mul p d a b wd)
  | 0x03 => .ok (.mulh p d a b wd)
  | 0x04 => .ok (.div p d a b wd)
  | 0x05 => .ok (.rem p d a b wd)
  | 0x06 => .ok (.min p d a b wd)
  | 0x07 => .ok (.max p d a b wd)
  | 0x08 => .ok (.adds p d a b wd)
  | 0x09 => .ok (.subs p d a b wd)
  | 0x0A => .ok (.and p d a b wd)
  | 0x0B => .ok (.or p d a b wd)
  | 0x0C => .ok (.xor p d a b wd)
  | 0x0D => .ok (.andn p d a b wd)
  | 0x0E => .ok (.shl p d a b wd)
  | 0x0F => .ok (.shr p d a b wd)
  | 0x10 => needZero b (.ok (.clz p d a wd))
  | 0x11 => needZero b (.ok (.ctz p d a wd))
  | 0x12 => needZero b (.ok (.popc p d a wd))
  | _ => .error .reservedFunction

/-- Major 0x01 (R184). -/
def decodePred (w : Word) : Except Reject Instr :=
  let p := fP w; let d := fD w; let a := fA w; let b := fB w
  let wd := (fFun w).extractLsb' 7 2
  let d3 := d.extractLsb' 0 3; let dh := d.extractLsb' 3 2
  let a3 := a.extractLsb' 0 3; let ah := a.extractLsb' 3 2
  let b3 := b.extractLsb' 0 3; let bh := b.extractLsb' 3 2
  match ((fFun w).extractLsb' 0 7).toNat with
  | 0x00 => needZero dh (.ok (.cmpEq p d3 a b wd))
  | 0x01 => needZero dh (.ok (.cmpNe p d3 a b wd))
  | 0x02 => needZero dh (.ok (.cmpLt p d3 a b wd))
  | 0x03 => needZero dh (.ok (.cmpGe p d3 a b wd))
  | 0x10 => if wd = 0#2 then needZero (dh ++ ah ++ bh) (.ok (.pand p d3 a3 b3)) else .error .reservedFunction
  | 0x11 => if wd = 0#2 then needZero (dh ++ ah ++ bh) (.ok (.por p d3 a3 b3)) else .error .reservedFunction
  | 0x12 => if wd = 0#2 then needZero (dh ++ ah ++ bh) (.ok (.pxor p d3 a3 b3)) else .error .reservedFunction
  | 0x13 => if wd = 0#2 then needZero (dh ++ ah ++ bh) (.ok (.pandn p d3 a3 b3)) else .error .reservedFunction
  | 0x14 => if wd = 0#2 then needZero (a ++ b) (.ok (.pget p d)) else .error .reservedFunction
  | 0x15 => if wd = 0#2 then needZero (d ++ b) (.ok (.pset p a)) else .error .reservedFunction
  | _ => .error .reservedFunction

/-- Majors 0x1A to 0x1F, the AM format (R179, R180, R241, R242, R244). -/
def decodeAm (m : Nat) (w : Word) : Except Reject Instr :=
  let p := fP w; let d := fD w; let a := fA w; let v := fB w
  let o := w.extractLsb' 7 2; let s := w.extractLsb' 5 2; let z := w.extractLsb' 3 2; let r := w.extractLsb' 0 3
  match m with
  | 0x1A => needZero (v ++ r) (.ok (.ldOrdered p d a o s z))
  | 0x1B => needZero (d ++ r) (.ok (.stOrdered p a v o s z))
  | 0x1C => needZero r (.ok (.amoAdd p d a v o s z))
  | 0x1D => needZero r (.ok (.amoSwap p d a v o s z))
  | 0x1E => needZero r (.ok (.amoCas p d a v o s z))
  | 0x1F => needZero (d ++ a ++ v ++ z ++ r) (.ok (.fence p o s))
  | _ => .error .reservedMajor

/-- The CF majors (R185). -/
def decodeCf (m : Nat) (w : Word) : Except Reject Instr :=
  let p := fP w; let a := fD w; let b := fA w; let i := fImm8 w
  let i7 := i.extractLsb' 7 1; let k := i.extractLsb' 4 3; let c := i.extractLsb' 0 4
  match m, (fSub w).toNat with
  | 0x20, 0x00 => needZero (b ++ i7 ++ k) (.ok (.cfgLoad p a c))
  | 0x20, 0x01 => needZero (a ++ b ++ i7) (.ok (.cfgPart p k c))
  | 0x20, 0x02 => needZero (a ++ b ++ i7) (.ok (.cfgArm p k c))
  | 0x20, 0x03 => needZero (i7 ++ c) (.ok (.cfgFire p a b k))
  | 0x20, 0x04 => needZero (a ++ b ++ i7 ++ c) (.ok (.cfgWait p k))
  | 0x20, 0x05 => needZero (b ++ i7 ++ c) (.ok (.cfgExit p a k))
  | 0x20, 0x06 => needZero (b ++ i7 ++ c) (.ok (.cfgPick p a k))
  | 0x20, 0x07 => needZero (a ++ b ++ i7 ++ c) (.ok (.cfgDrain p k))
  | 0x20, 0x08 => needZero (a ++ b ++ i7 ++ c) (.ok (.cfgSwap p k))
  | 0x21, 0x00 => needZero i7 (.ok (.tokPut p a b (i.extractLsb' 0 7)))
  | 0x21, 0x01 => needZero i (.ok (.rndEnd p a b))
  | 0x21, 0x02 => needZero (a ++ i) (.ok (.rndGraph p b))
  | 0x21, 0x03 => needZero i (.ok (.rndRedo p a b))
  | 0x28, 0x00 => needZero (b ++ i7 ++ c) (.ok (.engCopy p a k))
  | 0x28, 0x01 => needZero (b ++ i7 ++ c) (.ok (.engDcmp p a k))
  | 0x28, 0x02 => needZero (b ++ i7 ++ c) (.ok (.engVdec p a k))
  | 0x28, 0x03 => needZero (b ++ i7 ++ c) (.ok (.engXfm p a k))
  | 0x29, 0x00 => needZero i (.ok (.launch p a b))
  | 0x2A, 0x00 => .ok (.waitAddr p a b (i.extractLsb' 6 2) (i.extractLsb' 4 2) (i.extractLsb' 2 2) (i.extractLsb' 0 2))
  | 0x2A, 0x01 => .ok (.waitAddrN64 p a b (i.extractLsb' 6 2) (i.extractLsb' 4 2) (i.extractLsb' 2 2) (i.extractLsb' 0 2))
  | 0x2A, 0x02 => needZero (i.extractLsb' 6 2 ++ c) (.ok (.evAdd p a b (i.extractLsb' 4 2)))
  | _, _ => .error .reservedSubOperation

/-- The fields of a sequencer word (R178 to R186), before the conditions of Instr.wf. -/
def parseSeq (w : Word) : Except Reject Instr :=
  let p := fP w; let d := fD w; let a := fA w; let i := fImm14 w
  match (fMajor w).toNat with
  | 0x00 => decodeAlu w
  | 0x01 => decodePred w
  | 0x02 => needZero (w.extractLsb' 3 6) (.ok (.sel p d a (fB w) (w.extractLsb' 0 3)))
  | 0x04 => .ok (.addi p d a i)
  | 0x05 => .ok (.andi p d a i)
  | 0x06 => .ok (.ori p d a i)
  | 0x07 => .ok (.xori p d a i)
  | 0x08 => needZero (w.extractLsb' 6 8) (.ok (.shli p d a (w.extractLsb' 0 6)))
  | 0x09 => needZero (w.extractLsb' 6 8) (.ok (.shrli p d a (w.extractLsb' 0 6)))
  | 0x0A => needZero (w.extractLsb' 6 8) (.ok (.shrai p d a (w.extractLsb' 0 6)))
  | 0x0B => needZero (d.extractLsb' 3 2) (.ok (.cmpiEq p (d.extractLsb' 0 3) a i))
  | 0x0C => needZero (d.extractLsb' 3 2) (.ok (.cmpiLt p (d.extractLsb' 0 3) a i))
  | 0x0D => needZero (d.extractLsb' 3 2) (.ok (.cmpiLtu p (d.extractLsb' 0 3) a i))
  | 0x0E => .ok (.lui p d (fImm19 w))
  | 0x0F => .ok (.lpc p d (fImm19 w))
  | 0x10 => .ok (.beq p d a i)
  | 0x11 => .ok (.bne p d a i)
  | 0x12 => .ok (.blt p d a i)
  | 0x13 => .ok (.bge p d a i)
  | 0x14 =>
    if w.getLsbD 20 then .ok (.bp p (w.extractLsb' 21 3) (w.extractLsb' 0 20))
    else .ok (.bnp p (w.extractLsb' 21 3) (w.extractLsb' 0 20))
  | 0x15 => .ok (.j p (w.extractLsb' 0 24))
  | 0x16 => .ok (.call p (w.extractLsb' 0 24))
  | 0x17 => .ok (.callr p d a i)
  | 0x18 => .ok (.ld p d a (w.extractLsb' 12 2) (w.extractLsb' 11 1) (w.extractLsb' 9 2) (fFun w))
  | 0x19 => needZero (w.extractLsb' 11 1) (.ok (.st p d a (w.extractLsb' 12 2) (w.extractLsb' 9 2) (fFun w)))
  | 0x1A => decodeAm 0x1A w
  | 0x1B => decodeAm 0x1B w
  | 0x1C => decodeAm 0x1C w
  | 0x1D => decodeAm 0x1D w
  | 0x1E => decodeAm 0x1E w
  | 0x1F => decodeAm 0x1F w
  | 0x20 => decodeCf 0x20 w
  | 0x21 => decodeCf 0x21 w
  | 0x28 => decodeCf 0x28 w
  | 0x29 => decodeCf 0x29 w
  | 0x2A => decodeCf 0x2A w
  | 0x30 =>
    match (fImm8 w).toNat with
    | 0x00 => .ok (.trap p (fImm16 w))
    | 0x01 => .ok (.brk p (fImm16 w))
    | 0x02 => needZero (fImm16 w) (.ok (.eret p))
    | 0x03 => needZero (fImm16 w) (.ok (.ifence p))
    | _ => .error .reservedSubOperation
  | 0x31 => needZero a (.ok (.mfsy p d i))
  | 0x32 => needZero d (.ok (.mtsy p a i))
  | _ => .error .reservedMajor

/-- The sequencer instruction that a word is (R178 to R186), or why it is none. -/
def decodeSeq (w : Word) : Except Reject Instr :=
  if fP w = 3#2 then .error .reservedClass
  else match parseSeq w with
    | .ok i => if i.wf then .ok i else .error .refusedOperand
    | .error e => .error e

/-- Whether an almanac opcode takes an extension word (R202). -/
def almanacExt (w : Half) : Bool :=
  let o := (w.extractLsb' 10 6).toNat
  o == 0x0B || o == 0x0C || o == 0x0D

/-- The fields of an almanac word with its extension word x (R201, R202), before the conditions of Instr.wf. -/
def parseAlm (w x : Half) : Except Reject Instr :=
  let d := w.extractLsb' 7 3; let a := w.extractLsb' 4 3; let f := w.extractLsb' 0 4
  let b := w.extractLsb' 0 3; let b3 := w.extractLsb' 3 1
  match (w.extractLsb' 10 6).toNat with
  | 0x00 => needZero (d ++ a ++ f) (.ok .almEnd)
  | 0x01 => needZero b3 (.ok (.almAdd d a b))
  | 0x02 => needZero b3 (.ok (.almSub d a b))
  | 0x03 => needZero b3 (.ok (.almAnd d a b))
  | 0x04 => needZero b3 (.ok (.almOr d a b))
  | 0x05 => needZero b3 (.ok (.almXor d a b))
  | 0x06 => needZero b3 (.ok (.almShl d a b))
  | 0x07 => needZero b3 (.ok (.almShr d a b))
  | 0x08 => needZero b3 (.ok (.almMin d a b))
  | 0x09 => needZero b3 (.ok (.almMax d a b))
  | 0x0A => needZero b3 (.ok (.almMul d a b))
  | 0x0B => needZero f (.ok (.almAddi d a x))
  | 0x0C => needZero (a ++ f) (.ok (.almLi d x))
  | 0x0D => needZero (a ++ f) (.ok (.almLih d x))
  | 0x0E => needZero f (.ok (.almMov d a))
  | 0x10 => needZero b3 (.ok (.almSltu d a b))
  | 0x11 => needZero b3 (.ok (.almSlt d a b))
  | 0x12 => needZero b3 (.ok (.almSeq d a b))
  | 0x13 => needZero b3 (.ok (.almCsel d a b))
  | 0x18 => .ok (.almBz (d ++ f) a)
  | 0x19 => .ok (.almBnz (d ++ f) a)
  | 0x1A => needZero a (.ok (.almJmp (d ++ f)))
  | 0x1B => needZero (d ++ a) (.ok (.almLoopN f))
  | 0x1C => needZero (d ++ a ++ f) (.ok .almEndl)
  | 0x20 => needZero f (.ok (.almRdq d a))
  | 0x21 => .ok (.almRdh d a f)
  | 0x22 => needZero f (.ok (.almRdfree d a))
  | 0x23 => needZero a (.ok (.almRdquota d f))
  | 0x24 => needZero f (.ok (.almRdecl d a))
  | 0x25 => needZero a (.ok (.almRdflt d f))
  | 0x26 => needZero a (.ok (.almRdp d f))
  | 0x27 => needZero d (.ok (.almWrp a f))
  | 0x28 => needZero a (.ok (.almRdinv d f))
  | 0x29 => needZero f (.ok (.almPopc d a))
  | 0x2A => needZero f (.ok (.almFfs d a))
  | 0x2B => .ok (.almRdrun d a f)
  | _ => .error .reservedOpcode

/-- The almanac instruction at the head of a list of code words, with how many words it takes (R201, R202). -/
def decodeAlm : List Half → Except Reject (Instr × Nat)
  | [] => .error .missingExtension
  | w :: rest =>
    let answer (x : Half) (n : Nat) : Except Reject (Instr × Nat) :=
      match parseAlm w x with
      | .ok i => if i.wf then .ok (i, n) else .error .refusedOperand
      | .error e => .error e
    if almanacExt w then
      match rest with
      | [] => .error .missingExtension
      | x :: _ => answer x 2
    else answer 0#16 1

/-! ### The encoder (R179, R185, R186, R201) -/

/-- The RR format. -/
def encRR (p : BitVec 2) (m : BitVec 6) (d a b : BitVec 5) (f : BitVec 9) : Word := p ++ m ++ d ++ a ++ b ++ f
/-- The RI format. -/
def encRI (p : BitVec 2) (m : BitVec 6) (d a : BitVec 5) (i : BitVec 14) : Word := p ++ m ++ d ++ a ++ i
/-- The LU format. -/
def encLU (p : BitVec 2) (m : BitVec 6) (d : BitVec 5) (i : BitVec 19) : Word := p ++ m ++ d ++ i
/-- The BP format. -/
def encBP (p : BitVec 2) (m : BitVec 6) (q : BitVec 3) (sense : BitVec 1) (o : BitVec 20) : Word := p ++ m ++ q ++ sense ++ o
/-- The JL format. -/
def encJL (p : BitVec 2) (m : BitVec 6) (o : BitVec 24) : Word := p ++ m ++ o
/-- The ME format. -/
def encME (p : BitVec 2) (m : BitVec 6) (d b : BitVec 5) (z : BitVec 2) (g : BitVec 1) (s : BitVec 2) (o : BitVec 9) : Word :=
  p ++ m ++ d ++ b ++ z ++ g ++ s ++ o
/-- The AM format. -/
def encAM (p : BitVec 2) (m : BitVec 6) (d a v : BitVec 5) (o s z : BitVec 2) : Word :=
  p ++ m ++ d ++ a ++ v ++ o ++ s ++ z ++ 0#3
/-- The CF format. -/
def encCF (p : BitVec 2) (m : BitVec 6) (a b : BitVec 5) (sub : BitVec 6) (i : BitVec 8) : Word := p ++ m ++ a ++ b ++ sub ++ i
/-- The SY format. -/
def encSY (p : BitVec 2) (m : BitVec 6) (i : BitVec 16) (sub : BitVec 8) : Word := p ++ m ++ i ++ sub
/-- The word layout of R201. -/
def encAlm (o : BitVec 6) (d a : BitVec 3) (b : BitVec 4) : Half := o ++ d ++ a ++ b

/-- The word of a sequencer instruction; none for any other constructor. -/
def encodeSeq : Instr → Option Word
  | .add p d a b w => some (encRR p 0x00#6 d a b (w ++ 0x00#7))
  | .sub p d a b w => some (encRR p 0x00#6 d a b (w ++ 0x01#7))
  | .mul p d a b w => some (encRR p 0x00#6 d a b (w ++ 0x02#7))
  | .mulh p d a b w => some (encRR p 0x00#6 d a b (w ++ 0x03#7))
  | .div p d a b w => some (encRR p 0x00#6 d a b (w ++ 0x04#7))
  | .rem p d a b w => some (encRR p 0x00#6 d a b (w ++ 0x05#7))
  | .min p d a b w => some (encRR p 0x00#6 d a b (w ++ 0x06#7))
  | .max p d a b w => some (encRR p 0x00#6 d a b (w ++ 0x07#7))
  | .adds p d a b w => some (encRR p 0x00#6 d a b (w ++ 0x08#7))
  | .subs p d a b w => some (encRR p 0x00#6 d a b (w ++ 0x09#7))
  | .and p d a b w => some (encRR p 0x00#6 d a b (w ++ 0x0A#7))
  | .or p d a b w => some (encRR p 0x00#6 d a b (w ++ 0x0B#7))
  | .xor p d a b w => some (encRR p 0x00#6 d a b (w ++ 0x0C#7))
  | .andn p d a b w => some (encRR p 0x00#6 d a b (w ++ 0x0D#7))
  | .shl p d a b w => some (encRR p 0x00#6 d a b (w ++ 0x0E#7))
  | .shr p d a b w => some (encRR p 0x00#6 d a b (w ++ 0x0F#7))
  | .clz p d a w => some (encRR p 0x00#6 d a 0#5 (w ++ 0x10#7))
  | .ctz p d a w => some (encRR p 0x00#6 d a 0#5 (w ++ 0x11#7))
  | .popc p d a w => some (encRR p 0x00#6 d a 0#5 (w ++ 0x12#7))
  | .cmpEq p d a b w => some (encRR p 0x01#6 (0#2 ++ d) a b (w ++ 0x00#7))
  | .cmpNe p d a b w => some (encRR p 0x01#6 (0#2 ++ d) a b (w ++ 0x01#7))
  | .cmpLt p d a b w => some (encRR p 0x01#6 (0#2 ++ d) a b (w ++ 0x02#7))
  | .cmpGe p d a b w => some (encRR p 0x01#6 (0#2 ++ d) a b (w ++ 0x03#7))
  | .pand p d a b => some (encRR p 0x01#6 (0#2 ++ d) (0#2 ++ a) (0#2 ++ b) 0x010#9)
  | .por p d a b => some (encRR p 0x01#6 (0#2 ++ d) (0#2 ++ a) (0#2 ++ b) 0x011#9)
  | .pxor p d a b => some (encRR p 0x01#6 (0#2 ++ d) (0#2 ++ a) (0#2 ++ b) 0x012#9)
  | .pandn p d a b => some (encRR p 0x01#6 (0#2 ++ d) (0#2 ++ a) (0#2 ++ b) 0x013#9)
  | .pget p d => some (encRR p 0x01#6 d 0#5 0#5 0x014#9)
  | .pset p a => some (encRR p 0x01#6 0#5 a 0#5 0x015#9)
  | .sel p d a b q => some (encRR p 0x02#6 d a b (0#6 ++ q))
  | .addi p d a i => some (encRI p 0x04#6 d a i)
  | .andi p d a i => some (encRI p 0x05#6 d a i)
  | .ori p d a i => some (encRI p 0x06#6 d a i)
  | .xori p d a i => some (encRI p 0x07#6 d a i)
  | .shli p d a n => some (encRI p 0x08#6 d a (0#8 ++ n))
  | .shrli p d a n => some (encRI p 0x09#6 d a (0#8 ++ n))
  | .shrai p d a n => some (encRI p 0x0A#6 d a (0#8 ++ n))
  | .cmpiEq p d a i => some (encRI p 0x0B#6 (0#2 ++ d) a i)
  | .cmpiLt p d a i => some (encRI p 0x0C#6 (0#2 ++ d) a i)
  | .cmpiLtu p d a i => some (encRI p 0x0D#6 (0#2 ++ d) a i)
  | .lui p d i => some (encLU p 0x0E#6 d i)
  | .lpc p d i => some (encLU p 0x0F#6 d i)
  | .beq p a b o => some (encRI p 0x10#6 a b o)
  | .bne p a b o => some (encRI p 0x11#6 a b o)
  | .blt p a b o => some (encRI p 0x12#6 a b o)
  | .bge p a b o => some (encRI p 0x13#6 a b o)
  | .bp p c o => some (encBP p 0x14#6 c 1#1 o)
  | .bnp p c o => some (encBP p 0x14#6 c 0#1 o)
  | .j p o => some (encJL p 0x15#6 o)
  | .call p o => some (encJL p 0x16#6 o)
  | .callr p d a i => some (encRI p 0x17#6 d a i)
  | .ld p d b z g s o => some (encME p 0x18#6 d b z g s o)
  | .st p d b z s o => some (encME p 0x19#6 d b z 0#1 s o)
  | .ldOrdered p d a o s z => some (encAM p 0x1A#6 d a 0#5 o s z)
  | .stOrdered p a v o s z => some (encAM p 0x1B#6 0#5 a v o s z)
  | .amoAdd p d a v o s z => some (encAM p 0x1C#6 d a v o s z)
  | .amoSwap p d a v o s z => some (encAM p 0x1D#6 d a v o s z)
  | .amoCas p d a v o s z => some (encAM p 0x1E#6 d a v o s z)
  | .fence p o s => some (encAM p 0x1F#6 0#5 0#5 0#5 o s 0#2)
  | .cfgLoad p a c => some (encCF p 0x20#6 a 0#5 0x00#6 (0#4 ++ c))
  | .cfgPart p k c => some (encCF p 0x20#6 0#5 0#5 0x01#6 (0#1 ++ k ++ c))
  | .cfgArm p k c => some (encCF p 0x20#6 0#5 0#5 0x02#6 (0#1 ++ k ++ c))
  | .cfgFire p a b k => some (encCF p 0x20#6 a b 0x03#6 (0#1 ++ k ++ 0#4))
  | .cfgWait p k => some (encCF p 0x20#6 0#5 0#5 0x04#6 (0#1 ++ k ++ 0#4))
  | .cfgExit p a k => some (encCF p 0x20#6 a 0#5 0x05#6 (0#1 ++ k ++ 0#4))
  | .cfgPick p a k => some (encCF p 0x20#6 a 0#5 0x06#6 (0#1 ++ k ++ 0#4))
  | .cfgDrain p k => some (encCF p 0x20#6 0#5 0#5 0x07#6 (0#1 ++ k ++ 0#4))
  | .cfgSwap p k => some (encCF p 0x20#6 0#5 0#5 0x08#6 (0#1 ++ k ++ 0#4))
  | .tokPut p a b t => some (encCF p 0x21#6 a b 0x00#6 (0#1 ++ t))
  | .rndEnd p a b => some (encCF p 0x21#6 a b 0x01#6 0#8)
  | .rndGraph p b => some (encCF p 0x21#6 0#5 b 0x02#6 0#8)
  | .rndRedo p a b => some (encCF p 0x21#6 a b 0x03#6 0#8)
  | .engCopy p a k => some (encCF p 0x28#6 a 0#5 0x00#6 (0#1 ++ k ++ 0#4))
  | .engDcmp p a k => some (encCF p 0x28#6 a 0#5 0x01#6 (0#1 ++ k ++ 0#4))
  | .engVdec p a k => some (encCF p 0x28#6 a 0#5 0x02#6 (0#1 ++ k ++ 0#4))
  | .engXfm p a k => some (encCF p 0x28#6 a 0#5 0x03#6 (0#1 ++ k ++ 0#4))
  | .launch p a b => some (encCF p 0x29#6 a b 0x00#6 0#8)
  | .waitAddr p a b o s g c => some (encCF p 0x2A#6 a b 0x00#6 (o ++ s ++ g ++ c))
  | .waitAddrN64 p a b o s g c => some (encCF p 0x2A#6 a b 0x01#6 (o ++ s ++ g ++ c))
  | .evAdd p a b s => some (encCF p 0x2A#6 a b 0x02#6 (0#2 ++ s ++ 0#4))
  | .trap p i => some (encSY p 0x30#6 i 0x00#8)
  | .brk p i => some (encSY p 0x30#6 i 0x01#8)
  | .eret p => some (encSY p 0x30#6 0#16 0x02#8)
  | .ifence p => some (encSY p 0x30#6 0#16 0x03#8)
  | .mfsy p d i => some (encRI p 0x31#6 d 0#5 i)
  | .mtsy p a i => some (encRI p 0x32#6 0#5 a i)
  | .almEnd => none
  | .almAdd _ _ _ => none
  | .almSub _ _ _ => none
  | .almAnd _ _ _ => none
  | .almOr _ _ _ => none
  | .almXor _ _ _ => none
  | .almShl _ _ _ => none
  | .almShr _ _ _ => none
  | .almMin _ _ _ => none
  | .almMax _ _ _ => none
  | .almMul _ _ _ => none
  | .almAddi _ _ _ => none
  | .almLi _ _ => none
  | .almLih _ _ => none
  | .almMov _ _ => none
  | .almSltu _ _ _ => none
  | .almSlt _ _ _ => none
  | .almSeq _ _ _ => none
  | .almCsel _ _ _ => none
  | .almBz _ _ => none
  | .almBnz _ _ => none
  | .almJmp _ => none
  | .almLoopN _ => none
  | .almEndl => none
  | .almRdq _ _ => none
  | .almRdh _ _ _ => none
  | .almRdfree _ _ => none
  | .almRdquota _ _ => none
  | .almRdecl _ _ => none
  | .almRdflt _ _ => none
  | .almRdp _ _ => none
  | .almWrp _ _ => none
  | .almRdinv _ _ => none
  | .almPopc _ _ => none
  | .almFfs _ _ => none
  | .almRdrun _ _ _ => none
  | .uMxa _ _ => none
  | .uMxd _ _ => none
  | .uSource _ _ _ => none
  | .regionAdvance _ _ => none
  | .contextSwitch _ _ => none
  | .roundCommit _ => none
  | .roundOverflow _ _ => none
  | .withheldStoreRelease _ _ _ => none
  | .amoPerform _ => none
  | .stallRelease _ => none
  | .waitAddrWake _ => none
  | .waitAddrPoll _ => none
  | .fabricLoadEnd _ => none
  | .quiescenceTrip _ => none
  | .freeze _ => none
  | .contextScan _ => none
  | .tokenReinjection _ _ => none
  | .pageFaultLimit _ => none
  | .retranslationReply _ _ _ => none
  | .placementEpoch _ => none
  | .pageMove _ => none
  | .qtailWrite _ _ _ => none
  | .qheadWrite _ _ _ => none
  | .qstaleClear _ _ => none
  | .queueEnable _ _ _ => none
  | .headEligible _ _ => none
  | .headReread _ _ => none
  | .almanacInvocation _ => none
  | .quantumExpiry _ _ => none
  | .deadlineTrigger _ _ => none
  | .invocationOverrun _ => none
  | .almanacSwap _ => none
  | .asyncTrap _ => none
  | .watchdog _ => none
  | .supervisorWatchdog _ => none
  | .forcedBlockBoundary _ => none
  | .shootTranslation _ _ _ => none
  | .shootFetch _ _ _ => none
  | .shootBoth _ _ _ => none
  | .shootdownComplete _ => none
  | .frresolve _ _ => none
  | .ringHeadWrite _ _ _ => none
  | .ringEnable _ _ _ => none
  | .ringRecordRelease _ => none
  | .msixTimer _ _ => none
  | .pstatusRead _ _ _ => none
  | .pqerrClear _ _ _ _ => none
  | .registerWrite _ _ _ => none
  | .hostMemoryWrite _ _ _ => none
  | .hostMemoryRead _ _ => none
  | .cxlMemAccess _ _ _ => none
  | .engineJobStart _ => none
  | .engineJobComplete _ => none
  | .eclclr _ => none
  | .almstage _ => none
  | .almswap _ => none
  | .prelease _ => none
  | .gkill _ => none
  | .emask _ => none
  | .partset _ => none
  | .savearea _ => none
  | .strpair _ => none
  | .capset _ => none
  | .lcstep _ => none
  | .dbgaccRead _ => none
  | .dbgaccWrite _ => none
  | .dbgaccRelease _ => none
  | .getVersion => none
  | .getCapabilities => none
  | .negotiateAlgorithms _ _ => none
  | .getDigests => none
  | .getCertificate _ _ _ => none
  | .challenge _ _ => none
  | .getMeasurements _ _ => none
  | .reset => none
  | .tileJoin _ _ => none
  | .powerWindow _ => none
  | .linkCrcReplay _ _ => none
  | .linkRetrain _ _ _ => none
  | .linkDown _ _ => none
  | .flitUndelivered _ _ _ _ _ => none
  | .fifoModeLoad _ _ _ => none
  | .memoryReply _ _ _ => none
  | .debugPortRegisterAccess _ _ _ => none
  | .tablePoisonClear _ => none
  | .observedLineWrite _ => none

/-- The words of an almanac instruction; none for any other constructor. -/
def encodeAlm : Instr → Option (List Half)
  | .almEnd => some [encAlm 0x00#6 0#3 0#3 0#4]
  | .almAdd d a b => some [encAlm 0x01#6 d a (0#1 ++ b)]
  | .almSub d a b => some [encAlm 0x02#6 d a (0#1 ++ b)]
  | .almAnd d a b => some [encAlm 0x03#6 d a (0#1 ++ b)]
  | .almOr d a b => some [encAlm 0x04#6 d a (0#1 ++ b)]
  | .almXor d a b => some [encAlm 0x05#6 d a (0#1 ++ b)]
  | .almShl d a b => some [encAlm 0x06#6 d a (0#1 ++ b)]
  | .almShr d a b => some [encAlm 0x07#6 d a (0#1 ++ b)]
  | .almMin d a b => some [encAlm 0x08#6 d a (0#1 ++ b)]
  | .almMax d a b => some [encAlm 0x09#6 d a (0#1 ++ b)]
  | .almMul d a b => some [encAlm 0x0A#6 d a (0#1 ++ b)]
  | .almAddi d a x => some [encAlm 0x0B#6 d a 0#4, x]
  | .almLi d x => some [encAlm 0x0C#6 d 0#3 0#4, x]
  | .almLih d x => some [encAlm 0x0D#6 d 0#3 0#4, x]
  | .almMov d a => some [encAlm 0x0E#6 d a 0#4]
  | .almSltu d a b => some [encAlm 0x10#6 d a (0#1 ++ b)]
  | .almSlt d a b => some [encAlm 0x11#6 d a (0#1 ++ b)]
  | .almSeq d a b => some [encAlm 0x12#6 d a (0#1 ++ b)]
  | .almCsel d a b => some [encAlm 0x13#6 d a (0#1 ++ b)]
  | .almBz o a => some [encAlm 0x18#6 (o.extractLsb' 4 3) a (o.extractLsb' 0 4)]
  | .almBnz o a => some [encAlm 0x19#6 (o.extractLsb' 4 3) a (o.extractLsb' 0 4)]
  | .almJmp o => some [encAlm 0x1A#6 (o.extractLsb' 4 3) 0#3 (o.extractLsb' 0 4)]
  | .almLoopN k => some [encAlm 0x1B#6 0#3 0#3 k]
  | .almEndl => some [encAlm 0x1C#6 0#3 0#3 0#4]
  | .almRdq d a => some [encAlm 0x20#6 d a 0#4]
  | .almRdh d a f => some [encAlm 0x21#6 d a f]
  | .almRdfree d a => some [encAlm 0x22#6 d a 0#4]
  | .almRdquota d f => some [encAlm 0x23#6 d 0#3 f]
  | .almRdecl d a => some [encAlm 0x24#6 d a 0#4]
  | .almRdflt d f => some [encAlm 0x25#6 d 0#3 f]
  | .almRdp d f => some [encAlm 0x26#6 d 0#3 f]
  | .almWrp a f => some [encAlm 0x27#6 0#3 a f]
  | .almRdinv d f => some [encAlm 0x28#6 d 0#3 f]
  | .almPopc d a => some [encAlm 0x29#6 d a 0#4]
  | .almFfs d a => some [encAlm 0x2A#6 d a 0#4]
  | .almRdrun d a f => some [encAlm 0x2B#6 d a f]
  | .add _ _ _ _ _ => none
  | .sub _ _ _ _ _ => none
  | .mul _ _ _ _ _ => none
  | .mulh _ _ _ _ _ => none
  | .div _ _ _ _ _ => none
  | .rem _ _ _ _ _ => none
  | .min _ _ _ _ _ => none
  | .max _ _ _ _ _ => none
  | .adds _ _ _ _ _ => none
  | .subs _ _ _ _ _ => none
  | .and _ _ _ _ _ => none
  | .or _ _ _ _ _ => none
  | .xor _ _ _ _ _ => none
  | .andn _ _ _ _ _ => none
  | .shl _ _ _ _ _ => none
  | .shr _ _ _ _ _ => none
  | .clz _ _ _ _ => none
  | .ctz _ _ _ _ => none
  | .popc _ _ _ _ => none
  | .cmpEq _ _ _ _ _ => none
  | .cmpNe _ _ _ _ _ => none
  | .cmpLt _ _ _ _ _ => none
  | .cmpGe _ _ _ _ _ => none
  | .pand _ _ _ _ => none
  | .por _ _ _ _ => none
  | .pxor _ _ _ _ => none
  | .pandn _ _ _ _ => none
  | .pget _ _ => none
  | .pset _ _ => none
  | .sel _ _ _ _ _ => none
  | .addi _ _ _ _ => none
  | .andi _ _ _ _ => none
  | .ori _ _ _ _ => none
  | .xori _ _ _ _ => none
  | .shli _ _ _ _ => none
  | .shrli _ _ _ _ => none
  | .shrai _ _ _ _ => none
  | .cmpiEq _ _ _ _ => none
  | .cmpiLt _ _ _ _ => none
  | .cmpiLtu _ _ _ _ => none
  | .lui _ _ _ => none
  | .lpc _ _ _ => none
  | .beq _ _ _ _ => none
  | .bne _ _ _ _ => none
  | .blt _ _ _ _ => none
  | .bge _ _ _ _ => none
  | .bp _ _ _ => none
  | .bnp _ _ _ => none
  | .j _ _ => none
  | .call _ _ => none
  | .callr _ _ _ _ => none
  | .ld _ _ _ _ _ _ _ => none
  | .st _ _ _ _ _ _ => none
  | .ldOrdered _ _ _ _ _ _ => none
  | .stOrdered _ _ _ _ _ _ => none
  | .amoAdd _ _ _ _ _ _ _ => none
  | .amoSwap _ _ _ _ _ _ _ => none
  | .amoCas _ _ _ _ _ _ _ => none
  | .fence _ _ _ => none
  | .cfgLoad _ _ _ => none
  | .cfgPart _ _ _ => none
  | .cfgArm _ _ _ => none
  | .cfgFire _ _ _ _ => none
  | .cfgWait _ _ => none
  | .cfgExit _ _ _ => none
  | .cfgPick _ _ _ => none
  | .cfgDrain _ _ => none
  | .cfgSwap _ _ => none
  | .tokPut _ _ _ _ => none
  | .rndEnd _ _ _ => none
  | .rndGraph _ _ => none
  | .rndRedo _ _ _ => none
  | .engCopy _ _ _ => none
  | .engDcmp _ _ _ => none
  | .engVdec _ _ _ => none
  | .engXfm _ _ _ => none
  | .launch _ _ _ => none
  | .waitAddr _ _ _ _ _ _ _ => none
  | .waitAddrN64 _ _ _ _ _ _ _ => none
  | .evAdd _ _ _ _ => none
  | .trap _ _ => none
  | .brk _ _ => none
  | .eret _ => none
  | .ifence _ => none
  | .mfsy _ _ _ => none
  | .mtsy _ _ _ => none
  | .uMxa _ _ => none
  | .uMxd _ _ => none
  | .uSource _ _ _ => none
  | .regionAdvance _ _ => none
  | .contextSwitch _ _ => none
  | .roundCommit _ => none
  | .roundOverflow _ _ => none
  | .withheldStoreRelease _ _ _ => none
  | .amoPerform _ => none
  | .stallRelease _ => none
  | .waitAddrWake _ => none
  | .waitAddrPoll _ => none
  | .fabricLoadEnd _ => none
  | .quiescenceTrip _ => none
  | .freeze _ => none
  | .contextScan _ => none
  | .tokenReinjection _ _ => none
  | .pageFaultLimit _ => none
  | .retranslationReply _ _ _ => none
  | .placementEpoch _ => none
  | .pageMove _ => none
  | .qtailWrite _ _ _ => none
  | .qheadWrite _ _ _ => none
  | .qstaleClear _ _ => none
  | .queueEnable _ _ _ => none
  | .headEligible _ _ => none
  | .headReread _ _ => none
  | .almanacInvocation _ => none
  | .quantumExpiry _ _ => none
  | .deadlineTrigger _ _ => none
  | .invocationOverrun _ => none
  | .almanacSwap _ => none
  | .asyncTrap _ => none
  | .watchdog _ => none
  | .supervisorWatchdog _ => none
  | .forcedBlockBoundary _ => none
  | .shootTranslation _ _ _ => none
  | .shootFetch _ _ _ => none
  | .shootBoth _ _ _ => none
  | .shootdownComplete _ => none
  | .frresolve _ _ => none
  | .ringHeadWrite _ _ _ => none
  | .ringEnable _ _ _ => none
  | .ringRecordRelease _ => none
  | .msixTimer _ _ => none
  | .pstatusRead _ _ _ => none
  | .pqerrClear _ _ _ _ => none
  | .registerWrite _ _ _ => none
  | .hostMemoryWrite _ _ _ => none
  | .hostMemoryRead _ _ => none
  | .cxlMemAccess _ _ _ => none
  | .engineJobStart _ => none
  | .engineJobComplete _ => none
  | .eclclr _ => none
  | .almstage _ => none
  | .almswap _ => none
  | .prelease _ => none
  | .gkill _ => none
  | .emask _ => none
  | .partset _ => none
  | .savearea _ => none
  | .strpair _ => none
  | .capset _ => none
  | .lcstep _ => none
  | .dbgaccRead _ => none
  | .dbgaccWrite _ => none
  | .dbgaccRelease _ => none
  | .getVersion => none
  | .getCapabilities => none
  | .negotiateAlgorithms _ _ => none
  | .getDigests => none
  | .getCertificate _ _ _ => none
  | .challenge _ _ => none
  | .getMeasurements _ _ => none
  | .reset => none
  | .tileJoin _ _ => none
  | .powerWindow _ => none
  | .linkCrcReplay _ _ => none
  | .linkRetrain _ _ _ => none
  | .linkDown _ _ => none
  | .flitUndelivered _ _ _ _ _ => none
  | .fifoModeLoad _ _ _ => none
  | .memoryReply _ _ _ => none
  | .debugPortRegisterAccess _ _ _ => none
  | .tablePoisonClear _ => none
  | .observedLineWrite _ => none

/-- Where an instruction's words stand: a sequencer word, almanac words, or no words. -/
inductive Encoded where
  | seq (w : Word)
  | alm (ws : List Half)
  | none
  deriving DecidableEq, Repr

/-- The words of an instruction; a step without an encoding has none. -/
def encode (i : Instr) : Encoded :=
  match encodeSeq i with
  | some w => .seq w
  | none =>
    match encodeAlm i with
    | some ws => .alm ws
    | none => .none

/-- The almanac words of nbits bits numbered as the opcode table numbers them: the table writes a row with an
extension word with the opcode word in the upper half, which is the word that comes first in the code. -/
def tableHalves (nbits w : Nat) : List Half :=
  if nbits ≤ 16 then [BitVec.ofNat 16 w, 0#16] else [BitVec.ofNat 16 (w / 65536), BitVec.ofNat 16 w]

/-- The instruction that an instruction of nbits bits is, its bits numbered as the opcode table numbers them: 16 bits
are an almanac word, 32 bits a sequencer word, and, where that is none, an almanac word with its extension. -/
def decodeTableWord (nbits w : Nat) : Option Instr :=
  let almanac : Option Instr :=
    match decodeAlm (tableHalves nbits w) with
    | .ok (i, n) => if nbits ≤ 16 || n = 2 then some i else none
    | .error _ => none
  if nbits ≤ 16 then almanac
  else
    match decodeSeq (BitVec.ofNat 32 w) with
    | .ok i => some i
    | .error _ => almanac

end Sys2Proof
end

