-- ==== Sys2Proof/Config.lean ====
section
/-! DEFINITION. Sys2Proof/Config.lean: what the implementation fixes and the free values. A free value is an
opaque constant applied to a counter of State (or to the operands it depends on); nothing here gives it a value.
See the assumption log, entries 2, 8 and 11. -/

namespace Sys2Proof.Config

/-- One free choice between two outcomes that a rule both allows (R129, R273, R177), the n-th drawn. -/
opaque freeBool : Nat → Bool

/-- A free byte, the n-th drawn. -/
opaque freeByte : Nat → Byte

/-- A free 32-bit word, the n-th drawn. -/
opaque freeWord : Nat → Word

/-- A free 64-bit word, the n-th drawn. -/
opaque freeDWord : Nat → DWord

/-- A free number, the n-th drawn: a length or an index that a rule leaves to the part. -/
opaque freeNat : Nat → Nat

/-- How far, in units in the last place, an S-class unit's result lies from the nearest FP32 value (R58).
The function code is the unit opcode's low byte, the operand is the FP32 input. -/
opaque sfOffset : (function : Nat) → (x : Word) → Int

/-- The hash that a read-set signature takes of a 64-byte line (R154). -/
opaque signatureHash : (line : Nat) → Fin 2048

/-- What the translator decides for block b of a portable object (R371, R442, R443), a function of the object's bytes and of its
placement key: a native image's bytes, of which the model takes the bind section, and for a block with protected units the
units added and the consumers (Machine.translated). -/
opaque nativeImage : (object : List Byte) → (sides : List (BitVec 4)) → (avoid : List Word) → (emulated : List Half)
  → (block : Nat) → List Byte

/-- Whether the translator fails on a portable object, and how (R371, R442, R448): 0 it does not, 1 a route that cannot be
made, 2 a spare shortage, 3 no free unit of a class. -/
opaque translationFails : (object : List Byte) → (sides : List (BitVec 4)) → (avoid : List Word) → (emulated : List Half) → Fin 4

/-- The offset, in the object, of a fabric load's sequencer entry: the object layout of R436 to R440 holds no field for
it (log entry 27). -/
opaque entryOffset : (object : List Byte) → (emulated : List Half) → (load : Nat) → Nat

/-- The local RAM address at which a data section is placed, if it is: no field gives it (R351, log entry 27). -/
opaque dataPlace : (object : List Byte) → (section_ : Nat) → Option Nat

/-- What a symbol index of an object that lies at an address names: an address, as the object lies in memory, or a block
of the block area by number; none where the object does not define it. The layout of the symbol section is given nowhere
(R218, log entry 27). -/
opaque symbol : (object : List Byte) → (va : Nat) → (index : Nat) → Option (Nat ⊕ Nat)

/-- The directory entry of the section that a relocation section patches (R218, log entry 27). -/
opaque relocTarget : (object : List Byte) → (section_ : Nat) → Nat

/-- Lanes that a link trains with (R461, R462): found at training. -/
opaque linkLanes : Nat

/-- The bytes of a SHA-512 digest (R443, R472). -/
opaque sha512 : List Byte → Vector Byte 64

/-- What a video engine decodes (R433): a sample of the picture written, a function of the codec, the inputs of the stream so far and
the reference store. plane is 0 for luma, 1 and 2 for the chroma planes. -/
opaque pictureSample : (codec : Nat) → (inputs : List (List Byte)) → (refs : List Byte) → (plane : Fin 3) → (row column : Nat) → BitVec 10

/-- What the last input of a stream is to the codec (R433): no error, a stream error, or a profile or sampling that the engines do not
decode. -/
opaque streamVerdict : (codec : Nat) → (inputs : List (List Byte)) → Fin 3

/-- The luma samples of a stream's pictures, across and down (R433). -/
opaque streamSize : (codec : Nat) → (inputs : List (List Byte)) → Nat × Nat

/-- The size at which a picture is written, in luma samples across and down: cropped for HEVC, upscaled for AV1 (R433). -/
opaque writtenSize : (codec : Nat) → (inputs : List (List Byte)) → Nat × Nat

/-- Whether a stream has ten-bit samples (R433). -/
opaque streamTenBit : (codec : Nat) → (inputs : List (List Byte)) → Bool

/-- Whether a picture is ready for a video card (R433). -/
opaque pictureReady : (codec : Nat) → (inputs : List (List Byte)) → Bool

/-- The input whose picture is written, by its position in the stream (R433). -/
opaque pictureInput : (codec : Nat) → (inputs : List (List Byte)) → Nat

/-- What the measurement of the ROM holds (R472). -/
opaque romDigest : Nat

/-- What the measurement of a management firmware image holds, by its version (R472). -/
opaque firmwareDigest : (version : BitVec 16) → Nat

/-- What the measurement of the Adepor translator holds (R472). -/
opaque translatorDigest : Nat

/-- An SPDM response body (R472): the request code, its operands and the nonce. -/
opaque spdmBody : (request : Nat) → (operands : List Nat) → List Byte

/-- Where the firmware's trap vector stands (R479). The spec gives no address: see log entry 8. -/
def trapVector : DWord := 0#64

/-- The part revision in the part field of a native object (R436): the spec gives no number, see log entry 11. -/
opaque partRevision : Word

end Sys2Proof.Config
end

