-- ==== Sys2Proof/Machine/State.lean ====
section
/-! DEFINITION. Sys2Proof/Machine/State.lean: everything the spec gives the machine, as plain data, and the state
right after reset. INVENTORY.md lists each field with the rule that names it and its reset value. -/

namespace Sys2Proof.Machine

/-- Bytes by address, strictly rising, none equal to what an unlisted address reads as (0, log entry 5). -/
abbrev Memory := List Host.Cell

/-- A value per natural number, sorted by key; an unlisted key holds a default that the reader names. -/
abbrev Sparse (α : Type) := List (Nat × α)

/-! ### Tokens, images, contexts -/

/-- A token of R63: payload and tag. -/
structure Token where
  payload : Word
  tag : Byte
  deriving DecidableEq, Repr

/-- A translated base (R131): the address it was translated from, the page's base address, its context, the page
frame, the page-size index, and the leaf it came from. -/
structure Base where
  va : Nat
  page : Nat
  ctx : Half
  frame : Nat
  size : Nat
  leaf : DWord
  deriving DecidableEq, Repr

/-- Where an error-tagged token came from (R376 to R383): the tile, strand ordinal, block key and unit of the source,
its unit identifier, the element's sequence number and round, what it read (a scratchpad or physical address and the
words), the record's index, whether a single token repairs it, the bases of the one or two pages that it lies in (R377), the buffer and
the token of a transform's pass, and the word of a FIFO, counted from its first. -/
structure Origin where
  tile : Nat
  strand : Nat
  key : Nat
  unit : Nat
  uid : Word
  seq : Nat
  round : Nat
  scratch : Bool
  mtile : Nat
  address : Nat
  words : Nat
  record : Word
  tokenLocal : Bool
  base : Option Base := none
  more : Option (Nat × Base) := none
  pass : Option (Nat × Nat) := none
  slot : Option Nat := none
  deriving DecidableEq, Repr

/-- What an edge carries in one place: a single token or a joined bundle, every word under one tag (R68), the base
when it is a translated base, the origin of its error tag, the advance cycle from which a static edge
shows it (R69, R283), and, word by word, the compressed group of its elastic buffer that holds it, with the slots of that group (R418). -/
structure Item where
  words : List Word
  tag : Byte
  base : Option Base := none
  origin : Option Origin := none
  due : Nat := 0
  packs : List (Option (Nat × Nat)) := []
  deriving DecidableEq, Repr

/-- A native block image (R190, R191, R196 to R200) in its own words. -/
structure Image where
  header : BitVec 128
  units : List DWord
  bindHeader : BitVec 128
  binds : List Word
  gports : List Word
  routes : List DWord
  deriving DecidableEq, Repr

/-- One of the 16 configuration contexts (R247, R251): its image or none, the graph block it is, by strand
ordinal and block index, or no block, and whether its next use meets an uncorrectable error (R374, log entry 6). -/
structure Ctx where
  image : Option Image := none
  block : Option (Nat × Nat) := none
  bad : Bool := false
  deriving DecidableEq, Repr, Inhabited

/-! ### Units -/

/-- The sticky base of a global port (R132, R325): none yet, a void, a fault token, or a base, with whether a
shootdown has made it stale (R459). -/
inductive Sticky where
  | none
  | void
  | fault (i : Item)
  | base (b : Base) (stale : Bool)
  deriving DecidableEq, Repr

/-- What one copy of a unit keeps: its generator (R36), the partial values of a reduction or scan (R297 to R299)
and the count of elements in the group. -/
structure CopySt where
  rng : Word := 0#32
  acc : DWord := 0#64
  acc2 : DWord := 0#64
  count : Nat := 0
  deriving DecidableEq, Repr, Inhabited

/-- The part of a unit's state that an abort takes back to the round's start (R155): its copies, the deal position
(R77), the fault and the error taint of the open group (R297, R301), the lanes of a partly filled output with
whether each came from a void element (R279, R289), the buffered segment of repeat and the block of qz (R290,
R309), the count of round units and stamps (R311, R314), the last index that merge emitted and the last per arm
(R312), the sticky base and whether a refresh is due (R325), and elements counted in the current block (R291). -/
structure UnitCore where
  copies : List CopySt := []
  deal : Nat := 0
  groupFault : Option Item := none
  tainted : Bool := false
  lanes : List (Word × Bool) := []
  segment : List Item := []
  count : Nat := 0
  lastIndex : Option Word := none
  armIndex : List (Option Word) := []
  sticky : Sticky := .none
  refresh : Bool := true
  scale : Option Item := none
  position : Nat := 0
  deriving DecidableEq, Repr

/-- A memory access a port has sent and whose reply has not landed (R303, MEMORY_REPLY): the element's address in
its space, the words asked for, its sequence number and round, the stop that follows it (R324, R327), where the
bytes run on into another page, how many lie in the first and the base that holds the rest (R132), and the copy that made it (R144). -/
structure MemReq where
  scratch : Bool
  address : Nat
  words : Nat
  frame : Option Base
  offset : Word
  seq : Nat
  round : Nat
  copies : Nat
  stopAfter : Bool
  error : Bool
  origin : Option Origin
  more : Option (Nat × Base) := none
  copy : Nat := 0
  deriving DecidableEq, Repr

/-- An access held at a port or an xlat: the page-fault request's tag when one is posted (R134), or none while it waits
for a re-translation (R132); the address; whether it writes; and the fault cause that the wait has ended with. -/
structure Withheld where
  tag : Option Word
  va : Nat
  write : Bool
  cause : Option Nat
  deriving DecidableEq, Repr

/-- One unit of a resident block: the edges into ports a to d, the reply buffer (the gated boundary input it
supplies), requests in flight, results held for their round (R301), tokens formed and not yet written, flags
(R282), the core with the cores kept at each round's start, the next marker each port expects (R94), how many
firings and how much punctuation it has made in this phase and how many firings in this round, the sequence number
in the round (R62), what it withholds, a store waiting for a commit-buffer entry
(R151), how many elements the xlat takes before it serves this unit's re-translation, in arrival order (R329), whether a
reconfiguration marker has passed (R99), whether an end-of-graph marker has, copies whose next output is to be
disturbed or left out (log entry 6), the part of its flags that each copy has set (R340, R372), and, for a source or a FIFO-mode
load, how many of the phase's stops have followed its elements (R82), the level of the one just given, 0 once something else has
followed, whether it has given no element since the phase began or since its last marker, for a load without an input port how
many firings its slot has made (R71), and the rounds and sequence numbers of the updates that an owner has applied (R166). -/
structure UnitSt where
  ports : List (List Item) := [[], [], [], []]
  reply : List Item := []
  requests : List MemReq := []
  hold : List (Nat × Item) := []
  out : List (Nat × Item) := []
  flags : Byte := 0#8
  core : UnitCore := {}
  kept : List (Nat × UnitCore) := []
  nextRound : List (Option Nat) := [none, none, none, none]
  fired : Nat := 0
  puncts : Nat := 0
  inRound : Nat := 0
  seq : Nat := 0
  withheld : Option Withheld := none
  storeWait : Bool := false
  reconf : Bool := false
  eog : Bool := false
  upset : List (Nat × Word) := []
  dropped : List Nat := []
  copyFlags : List Byte := []
  behind : Nat := 0
  stops : Nat := 0
  given : Nat := 0
  calm : Bool := true
  asked : Nat := 0
  applied : List (Nat × Nat) := []
  deriving DecidableEq, Repr

/-! ### Strands -/

/-- The state of a strand (R246). -/
inductive StrandState where
  | empty
  | ready
  | run
  | done
  deriving DecidableEq, Repr, Inhabited

/-- The shadow of a strand (R246). -/
inductive Shadow where
  | none
  | armed (c : Fin 16)
  | unarmed (c : Fin 16)
  deriving DecidableEq, Repr, Inhabited

/-- A phase that cfg.fire or cfg.part starts: the trip counts (0 open), the arguments, and the picked entries with
their queue position. -/
structure Fire where
  trips : List Nat
  args : DWord × DWord
  pick : Option (Nat × Nat)
  deriving DecidableEq, Repr

/-- Punctuation or an iteration mark that units without an input port still have to emit in place (R478): the item
and the number of iterations it follows. -/
structure Punct where
  after : Nat
  item : Item
  deriving DecidableEq, Repr

/-- Where a phase stood at a round's start, for an abort (R155): counters, index of the iteration issued last,
iterations issued, whether the space was exhausted, how much punctuation there was and how much of the pick was read. -/
structure PhaseMark where
  round : Nat
  index : List Nat
  current : List Nat
  issued : Nat
  exhausted : Bool
  puncts : Nat
  pickRead : Nat
  deriving DecidableEq, Repr

/-- The phase a region runs (R69 to R72, R81 to R83): the key of its block, trip counts, counters of the dimensions, the index of the
iteration issued last, the iterations at which the counters began anew with what they then were (R83), iterations issued, whether the space is exhausted, the slot counter, the advance count, where it
stood at each round's start, arguments, the pick it consumes with the queue's head at the pick, how much of it has
been read and whether its stop has been, punctuation for the input-less units, whether the issue stage drains the region
after a marker (R97), has taken a reconfiguration marker or an end-of-graph marker, exits taken, and whether the
phase has ended. -/
structure Phase where
  key : Nat
  trips : List Nat
  index : List Nat
  current : List Nat
  segs : List (Nat × List Nat)
  issued : Nat
  exhausted : Bool
  slot : Nat
  advances : Nat
  marks : List PhaseMark
  args : DWord × DWord
  pick : Option (Nat × Nat)
  pickHead : Nat
  pickRead : Nat
  pickStop : Bool
  puncts : List Punct
  flush : Bool
  blocked : Bool
  eog : Bool
  exits : Byte
  ended : Bool
  deriving DecidableEq, Repr

/-- One of a tile's eight strands (R246, R440): whether the load uses it, its ordinal, exit-table address, block
count and block table, the region's bind header, the state of R246, its phase, the unit states of each block it
has run (keyed by block index, or 64 + context for an image that is no block), and its round count (R96). -/
structure Strand where
  used : Bool := false
  ordinal : Nat := 0
  exitTable : Nat := 0
  blocks : Nat := 0
  blockTable : List (List Byte) := []
  region : BitVec 128 := 0#128
  state : StrandState := .empty
  active : Option (Fin 16) := none
  shadow : Shadow := .none
  swapPending : Bool := false
  partPending : Bool := false
  firePending : Option Fire := none
  args : DWord × DWord := (0#64, 0#64)
  status : BitVec 9 := 0#9
  pick : Option (Nat × Nat) := none
  phase : Option Phase := none
  units : List (Nat × List UnitSt) := []
  roundCount : Nat := 0
  closed : Bool := false
  sinkClosed : Bool := false
  deriving DecidableEq, Repr, Inhabited

/-! ### The matrix core -/

/-- A swap token from mxa to mxd (R335): the bank of the block it closes, the closing level when the block has one, and
the round of the block. -/
structure Swap where
  bank : Bool
  level : Option Nat
  round : Nat
  deriving DecidableEq, Repr

/-- A drain in progress (R336): the next row and the block's swap token. -/
structure Drain where
  row : Nat
  swap : Swap
  deriving DecidableEq, Repr

/-- Where a bank stands (R335 to R337): free and not initialised, initialised for its next block, closed with its swap
token not taken, draining. -/
inductive BankState where
  | free
  | ready
  | closed
  | draining
  deriving DecidableEq, Repr, Inhabited

/-- One accumulator bank (R8, R49, R335, R337): its values by PE, where it stands, its saturation flag, the fault token and
the error tag that its block's drain takes, and the round of the block that left its values. -/
structure Bank where
  values : Sparse (BitVec 48) := []
  state : BankState := .free
  sat : Bool := false
  fault : Option Item := none
  tainted : Bool := false
  origin : Option Origin := none
  round : Option Nat := none
  deriving DecidableEq, Repr, Inhabited

/-- The matrix core of a tile (R8, R332 to R338): banks ping and pong, the number of the block that mxa works on, the
wavefront number, the current scales, whether the block is open, whether a swap token waits for mxd, what waits
between mxa and mxd, the drain, how many blocks have been initialised and how much of the next set mxs has
taken, the ordinal of the block within its round, the block at each round's start (R155), the PEs whose next second
firing is disturbed, each by an amount (R53, log entry 6), and the A latches by row and the B latches by column. -/
structure MatrixCore where
  ping : Bank := {}
  pong : Bank := {}
  block : Nat := 0
  group : Nat := 0
  scaleA : List Byte := []
  scaleB : List Byte := []
  opened : Bool := false
  swapPending : Bool := false
  staged : List (Swap ⊕ Item) := []
  drain : Option Drain := none
  inits : Nat := 0
  filled : Nat := 0
  blockInRound : Nat := 0
  kept : List (Nat × Nat) := []
  peErr : List (Fin 4096 × Word) := []
  latchA : List DWord := []
  latchB : List DWord := []
  deriving DecidableEq, Repr, Inhabited

/-! ### The sequencer -/

/-- What a stalled instruction waits for (R164, R249): the instruction executes again from its start when the wait
ends; cfg.wait, cfg.exit and cfg.pick may wait for the switch of a cfg.part (R256); amo and ev.add wait for their
round; wait.addr sleeps on a line. -/
inductive StallKind where
  | retry
  | switch
  | round
  | kept (place : Nat) (bytes : List Byte)
  | sleep (line : Nat) (uncached : Bool)
  deriving DecidableEq, Repr

/-- A stalled instruction with what it waits for and the cycle at which it stalled (R249, R392). -/
structure Stall where
  instr : Instr
  kind : StallKind
  since : Nat
  deriving DecidableEq, Repr

/-- What a sequencer does (R101, R271): idle when no load holds its tile, running, or ended. -/
inductive SeqMode where
  | idle
  | running
  | ended
  deriving DecidableEq, Repr, Inhabited

/-- A 256-byte line held in the instruction L1 (R11, R240, R273, R403): partition, context, address, physical address, the 64
words, and whether this sequencer has since stored to it. -/
structure L1Line where
  part : Nat
  ctx : Half
  va : Nat
  pa : Nat
  words : List Word
  own : Bool
  deriving DecidableEq, Repr

/-- A pending shootdown command (R459): number, kind, page-size index, context, address, time of issue. -/
structure Shoot where
  number : Word
  kind : Nat
  size : Nat
  ctx : Half
  va : Nat
  since : Nat
  deriving DecidableEq, Repr

/-- A sequencer (R187 to R189, R246, R390 to R394): registers, what it does, a stalled instruction, whether the next
fetch matches no breakpoint register, held traps, the lines of the instruction L1 (newest first), ALU errors of the next protected
instruction and of the next value that a reply gives (R221, R250), whether the next cfg.load waits for its image, the cycle of the last minority, when it last entered supervisor privilege, the page-fault request it sleeps for,
the fetch shootdowns that wait for its block boundary with the cycle each reached it (R404), the word fetched last, none where the fetch
itself trapped (R391), and whether its routine waits in a debug hold (R402). -/
structure Seq where
  regs : Vector DWord 32
  preds : Vector Bool 8
  pc : DWord
  status : DWord
  epc : DWord
  cause : DWord
  tval : DWord
  vbase : DWord
  scratch : DWord
  ctx : Half
  brk : Vector DWord 8
  ram : Memory
  mode : SeqMode
  stall : Option Stall
  noBrk : Bool
  held : List (Nat × DWord)
  il1 : List L1Line
  aluErr : Vector DWord 3
  lateErr : Vector DWord 3
  slow : Bool
  minority : Option Nat
  svSince : Nat
  sleeping : Option Word
  shoots : List (Shoot × Nat)
  word : Option Word
  holding : Bool
  deriving DecidableEq, Repr, Inhabited

/-- A compute tile: sequencer, contexts, strands, matrix core (R11, R60). -/
structure Tile where
  seq : Seq
  ctxs : Vector Ctx 16
  strands : Vector Strand 8
  core : MatrixCore
  deriving DecidableEq, Repr, Inhabited

/-- A scratchpad window (R112): the graph that holds it, base and size in bytes. -/
structure Window where
  graph : Word
  base : Nat
  size : Nat
  deriving DecidableEq, Repr

/-- A memory tile (R12, R112): scratchpad bytes, lines whose next read meets an uncorrectable error, word addresses that
hold an error-tagged datum with where its tag came from (R375), windows. -/
structure MTile where
  bytes : Memory := []
  badLines : List Nat := []
  tainted : List (Nat × Origin) := []
  windows : List Window := []
  deriving DecidableEq, Repr

/-! ### Queues, rings, partitions -/

/-- A launch record (R344). -/
structure LaunchRec where
  seq : Word
  priority : Byte
  flags : Byte
  demand : Half
  graph : DWord
  args : DWord
  seed : DWord
  tsbase : Word
  deadline : Word
  ev0 : DWord
  ev1 : DWord
  th0 : Word
  th1 : Word
  deriving DecidableEq, Repr

/-- A launch queue's registers (R342) and its eligible head: the copy of R345 with the dispatch time at which it
became eligible. -/
structure Queue where
  base : DWord := 0#64
  cfg : DWord := 0#64
  tail : Word := 0#32
  head : Word := 0#32
  stale : Word := 0#32
  shadow : DWord := 0#64
  eligible : Option (LaunchRec × Nat) := none
  deadlineSent : Bool := false
  deriving DecidableEq, Repr

/-- A ring's registers (R452, R453): base, configuration, whether it is enabled, entries written and consumed,
entries and time since the last message. -/
structure Ring where
  base : DWord := 0#64
  cfg : DWord := 0#64
  enabled : Bool := false
  tail : Word := 0#32
  head : Word := 0#32
  sinceMsg : Nat := 0
  lastMsg : Nat := 0
  deriving DecidableEq, Repr

/-- An almanac: the header's entries and the code words (R363). -/
structure Almanac where
  onDispatch : Nat
  onPreempt : Nat
  onFault : Nat
  code : List Half
  deriving DecidableEq, Repr

/-- The three hooks (R354). -/
inductive Hook where
  | dispatch
  | preempt
  | fault
  deriving DecidableEq, Repr

/-- What a fault delivery carries to on_fault (R354, R366): kind, status, graph, queue, load, suspected unit,
context, last committed and faulting rounds, that round's timestamp, relaunch count, origin, demand, priority,
deadline, error-log index, whether a unit was eclipsed, and the running slot. -/
structure FaultRec where
  kind : Nat
  status : Half
  graph : Word
  queue : Nat
  load : Nat
  suspect : Word
  ctx : Half
  lastRound : Word
  round : Word
  timestamp : Word
  relaunches : Nat
  origin : Word
  demand : Word
  priority : Word
  deadline : Word
  log : Word
  eclipsed : Bool
  slot : Word
  flags : Byte
  deriving DecidableEq, Repr

/-- A pending invocation (R354, R355): the hook, the trigger code, the subject, and the fault it delivers. -/
structure Trigger where
  hook : Hook
  code : Nat
  subject : Word
  fault : Option FaultRec
  deriving DecidableEq, Repr

/-- A queue head or resume-queue head as a view shows it (R366 rdh). -/
structure HeadView where
  priority : Word
  deadline : Word
  demand : Word
  since : Nat
  seq : Word
  resume : Bool
  deriving DecidableEq, Repr

/-- A running slot as a view shows it (R366 rdrun). -/
structure RunView where
  graph : Word
  priority : Word
  deadline : Word
  origin : Word
  demand : Word
  since : Nat
  state : Nat
  deriving DecidableEq, Repr

/-- The partition as it stood when the invocation began (R356). -/
structure Snapshot where
  depths : List Word
  heads : List (Option HeadView)
  free : BitVec 192
  quota : List Word
  eclCore : BitVec 192
  eclSeq : BitVec 192
  runs : List (Option RunView)
  now : Nat
  overruns : Nat
  generation : Word
  invocations : Word
  deriving DecidableEq, Repr

/-- A running invocation (R355, R361, R365): its trigger, the view, registers, word offset, open loops (first word
of the body, word after the endl, iterations left), pending wrp writes oldest first, and cycles spent. -/
structure Invocation where
  trigger : Trigger
  view : Snapshot
  regs : Vector Word 8
  pc : Nat
  loops : List (Nat × Nat × Nat)
  writes : List (Nat × Word)
  cycles : Nat
  deriving DecidableEq, Repr

/-- An unresolved page-fault request (R134, R135, R455): its tag, address, context, access, unit, graph and time,
and whether it stands in the ring yet. -/
structure PfReq where
  tag : Word
  va : Nat
  ctx : Half
  access : Nat
  unit : Word
  graph : Word
  time : Nat
  posted : Bool
  deriving DecidableEq, Repr

/-- An entry of the resume queue (R353). -/
structure ResumeEntry where
  graph : Word
  resumable : Bool
  since : Nat
  deriving DecidableEq, Repr

/-- A partition (R342 to R366, R452 to R459, R474). deferred is an on_dispatch decision that waits while completion records
wait, deferredFallback whether the fallback's does (R454). -/
structure Part where
  formed : Bool
  pairs : Vector (BitVec 48) 4
  tileQuota : Nat
  slotQuota : Nat
  margin : Word
  roots : List (Half × Nat)
  queues : Vector Queue 64
  pqerr : DWord
  sysctx : Half
  cr : Ring
  fr : Ring
  el : Ring
  diagBase : DWord
  diagSize : DWord
  shootVa : DWord
  shootDone : Word
  shootNext : Word
  shoots : List Shoot
  shootOverflow : Bool
  shootError : Bool
  waiting : List (List Byte)
  heldTiles : List (Word × List Nat)
  appends : List (Nat × List Byte)
  faults : List PfReq
  nextTag : Word
  almanac : Option Almanac
  shadow : Option Almanac
  swapRequest : Option Bool
  generation : Word
  persist : Vector Word 16
  overruns : Nat
  stickyFallback : Bool
  rejected : Word
  invocations : Word
  pending : List Trigger
  inv : Option Invocation
  deferred : Option (Word × Word)
  deferredFallback : Bool
  resume : List ResumeEntry
  held : Bool
  emask : List Half
  saveBase : Nat
  saveSize : Nat
  deriving DecidableEq, Repr

/-! ### Graphs -/

/-- One strand of a graph object (R440). -/
structure StrandEntry where
  load : Nat
  tile : Nat
  blocks : Nat
  exitTable : Nat
  region : DWord
  images : List Nat
  blockTable : List (List Byte)
  deriving DecidableEq, Repr

/-- A stream-table entry (R440). -/
structure StreamEntry where
  number : Nat
  sink : Nat
  source : Nat
  slots : Nat
  deriving DecidableEq, Repr

/-- A compute footprint entry (R439). -/
structure FootC where
  dx : Int
  dy : Int
  dd : Nat
  deriving DecidableEq, Repr

/-- A memory footprint entry (R439), its window in bytes. -/
structure FootM where
  dx : Int
  dy : Int
  dd : Nat
  size : Nat
  deriving DecidableEq, Repr

/-- An initial token (R437). -/
structure InitTok where
  strand : Nat
  block : Nat
  unit : Nat
  port : Nat
  payload : Word
  deriving DecidableEq, Repr

/-- What the loader reads of a graph object (R436 to R441): whether it is native, D, loads, footprint, strands,
streams, AG words, the entry address of each load's sequencers where it has any, the data that local RAM receives, the
ranges of sequencer code that hold the emulation of the part's erratum (R477), initial tokens, native images by address with their strand and block, the images themselves in the same order, and the native image area. -/
structure Graph where
  native : Bool
  depth : Nat
  loads : Nat
  compute : List FootC
  memory : List FootM
  strands : List StrandEntry
  streams : List StreamEntry
  ags : List (BitVec 256)
  entries : List (Option Nat)
  data : List (Nat × List Byte)
  emulated : List (Nat × Nat)
  inits : List InitTok
  images : List (Nat × Nat × Nat)
  parsed : List Image
  nia : Nat
  deriving DecidableEq, Repr

/-- A buffered store (R142 to R144): round, memory tile, whether it goes to a scratchpad and where, the bytes, the
identifier of its port, its error tag's origin, and whether its page is coded (R407). -/
structure BufStore where
  round : Nat
  mtile : Nat
  scratch : Bool
  address : Nat
  bytes : List Byte
  port : Word
  origin : Option Origin
  comp : Bool
  deriving DecidableEq, Repr

/-- A round in flight or committed (R140, R150, R157, R164, R282): its timestamp once known, flags, whether it
overflowed and has begun to write, whether an amo made it irrevocable, the tags that wait for a replacement, the lines
read (R154), the sources already retried (R379), whether a terminal sink has reported its flags (R316), and an error
that its commit buffer's next entry meets, before the commit or during it (log entry 6), and the flags of units that a
check or vote unit has still to compare, by strand, unit and copy (R281), the lines that it has written before its commit, once it has overflowed (R150, R154), and the
memory tile where it did. -/
structure RoundInfo where
  number : Nat
  timestamp : Option Word
  flags : Byte := 0#8
  overflowed : Bool := false
  writing : Bool := false
  irrevocable : Bool := false
  tags : List Origin := []
  reads : List (Nat × Nat) := []
  retried : List (Nat × Nat × Nat × Word × Word) := []
  reported : Bool := false
  bad : Option Bool := none
  unitFlags : List (Nat × Nat × List Byte) := []
  wrote : List Nat := []
  overTile : Option Nat := none
  deriving DecidableEq, Repr

/-- An injection port (R259 to R264): compute tile, strand of the tile and unit, counts r and sequence, whether
used, closed, and the lowest aborted round it refuses from; the tokens on its edge. -/
structure Port where
  tile : Nat
  strand : Nat
  unit : Nat
  round : Nat
  seq : Nat
  used : Bool
  closed : Bool
  refuses : Option Nat
  items : List Item
  deriving DecidableEq, Repr

/-- A stream of a graph (R107, R317): its number, the strand ordinals of its sink and source, the slots declared,
the tokens in it, those that a later load has taken since the oldest uncommitted round began with their rounds (R155),
the next round its tokens belong to on either side, whether an end-of-graph marker has been written, whether the
destination has exited and how many tokens it has discarded. -/
structure Stream where
  number : Nat
  sink : Nat
  source : Nat
  slots : Nat
  items : List Item
  sent : List (Nat × Item)
  wrote : Nat
  read : Nat
  ended : Bool
  exited : Bool
  discarded : Nat
  deriving DecidableEq, Repr

/-- One AG placement (R476): memory tile, the unit it serves (tile, strand ordinal, block, unit), the AG word, the
access within the pass and the passes completed, those three at each round's start (R155), what a transform's pass still
holds, the passes completed on each buffer where buffers go by round (R119), whether the unit takes the word as an indexed
window (R327), and the blocks of a coded store that its pass has found uncorrectable, with their records (R411, R420). -/
structure Place where
  mtile : Nat
  tile : Nat
  strand : Nat
  block : Nat
  unit : Nat
  word : BitVec 256
  step : Nat
  passes : Nat
  kept : List (Nat × Nat × Nat × List Nat)
  pending : List Item
  perBuf : List Nat := []
  indexed : Bool := false
  spoilt : List (Nat × Word) := []
  deriving DecidableEq, Repr

/-- A FIFO of a memory tile (R120, R466), oldest token first, and how many words have entered
it: word n takes slot n mod (extent + 1), and what lies beyond the extent is in the spill area, where it spills. Its reader's load, whether that
load has exited, and how many tokens it has discarded since (R107). -/
structure Fifo where
  mtile : Nat
  base : Nat
  extent : Nat
  spill : Bool := false
  items : List Item
  written : Nat
  reader : Nat := 0
  exited : Bool := false
  discarded : Nat := 0
  deriving DecidableEq, Repr

/-- A pending device-side launch (R268): sequencer, round,
queue and the 64 bytes. -/
structure PendingLaunch where
  tile : Nat
  round : Nat
  queue : Nat
  bytes : List Byte
  deriving DecidableEq, Repr

/-- Why a load freezes (R396). -/
inductive FreezeReason where
  | preempt
  | kill
  | pageFault
  | quiescence
  | punctuation
  | timestamp
  | debug
  deriving DecidableEq, Repr

/-- A tagged token that waits for its replacement (R377): its origin; the consumer by tile, strand of the tile, block
key and unit; the items that the consumer took, by port; where a store in scratch mode put the datum; and the consumer's sequence number
then. -/
structure Replay where
  origin : Origin
  tile : Nat
  strand : Nat
  key : Nat
  unit : Nat
  items : List (Nat × Item)
  target : Option (Nat × Nat)
  seq : Nat := 0
  deriving DecidableEq, Repr

/-- A graph holding a running slot (R351 to R353); killNs is when a kill was detected (R388). -/
structure Run where
  part : Nat
  slot : Nat
  gid : Word
  queue : Nat
  ctx : Half
  launch : LaunchRec
  origin : Word
  relaunches : Nat
  graph : Graph
  native : Bool
  load : Nat
  tiles : List (Nat × Nat)
  first : Nat
  oldest : Nat
  depth : Nat
  lastCommitted : Option Nat
  rounds : List RoundInfo
  stores : List BufStore
  ports : List Port
  streams : List Stream
  places : List Place
  fifos : List Fifo
  sinks : List (Nat × Nat × Nat)
  flags : Byte
  suspect : Word
  log : Word
  startNs : Nat
  quantumNs : Nat
  lastFire : Nat
  launches : List PendingLaunch
  freeze : Option FreezeReason
  frozen : Bool
  fault : Option FaultRec
  faultSunk : Option Word
  replays : List Replay
  hostKilled : Bool
  eclipseAtEnd : List Word
  killNs : Option Nat := none
  deriving DecidableEq, Repr

/-- An engine job (R266, R267, R426): where it runs, its graph, the issuing tile and strand, the context bound, the
card's 64 bytes, whether it has started, and what it withholds. -/
structure Job where
  engine : EngineName
  graph : Word
  tile : Nat
  strand : Nat
  bound : Option (Fin 16)
  card : List Byte
  started : Bool
  withheld : Option Withheld
  deriving DecidableEq, Repr

/-- A saved fabric load (R398, R399): the run, the tiles by footprint index, the windows by memory footprint index with
their base and bytes, the paused jobs, and the save record as the scan wrote it with its physical address. -/
structure Saved where
  run : Run
  tiles : List (Nat × Tile)
  windows : List (Nat × Nat × Memory)
  jobs : List Job
  address : Nat
  record : List Byte
  deriving DecidableEq, Repr

/-- An open video stream (R267, R432): engine, stream ID, graph, codec, and the inputs decoded so far with their tags. -/
structure VStream where
  die : Nat
  engine : Nat
  id : Nat
  graph : Word
  codec : Nat
  inputs : List (List Byte)
  tags : List DWord
  deriving DecidableEq, Repr

/-! ### The package -/

/-- The clock of an island (R18, R470): k of the frequency 1.3 GHz × k ÷ 16, and the ac-cycle phase (in 160ths of
a cycle) at the device time of the last change; and the same of every frequency before it, newest first. -/
structure Clock where
  k : Nat
  baseNs : Nat
  basePhase : Nat
  past : List (Nat × Nat × Nat)
  deriving DecidableEq, Repr

/-- A Wecel link seen from one die (R461, R462). -/
structure LinkSt where
  lanes : Nat
  replays : Nat
  down : Bool
  deriving DecidableEq, Repr

/-- A cached leaf (R128, R129): die, partition, context, page base, page-size index and leaf entry. -/
structure TlbEntry where
  die : Nat
  part : Nat
  ctx : Half
  va : Nat
  size : Nat
  leaf : DWord
  deriving DecidableEq, Repr

/-- A hot page that the placement unit manages (R139): its context and address, its partition, its frame, page-size index
and home die, the 64-byte accesses from each die and the writes, and the dies that hold a replica. -/
structure HotPage where
  ctx : Half
  va : Nat
  part : Nat
  frame : Nat
  size : Nat
  home : Nat
  counts : List Nat
  writes : Nat
  replicas : List Nat
  deriving DecidableEq, Repr

/-- What a page move does (R138, R139). -/
inductive MoveKind where
  | migrate
  | replicate
  | collapse
  deriving DecidableEq, Repr

/-- A page move in progress (R138): the page, its frames, the kind and the graph whose load waits for it (R137). -/
structure Move where
  part : Nat
  ctx : Half
  va : Nat
  size : Nat
  source : Nat
  dest : Nat
  kind : MoveKind
  forLoad : Option Word := none
  deriving DecidableEq, Repr

/-- An entry of the translation cache (R444): its key, the bytes of the native object, and the images that a hit returns. -/
structure XlEntry where
  key : List Byte
  size : Nat
  images : List (List Byte)
  deriving DecidableEq, Repr

/-- The firmware image that a die finds at reset (R471), an input (log entry 7). -/
structure FirmwareImage where
  version : Half
  verifies : Bool
  wellFormed : Bool
  readable : Bool
  deriving DecidableEq, Repr

/-- What the world does between turns (log entries 3, 6): an uncorrectable physical line, one as L2 holds it, an uncorrectable
scratchpad line, an upset of an ALU, of a PE, of a unit's copy (its output, its activity) or of its flags, a root entry given to a context by system
software, a firmware image offered, a debugger attached, a host-side write into host memory, the HDM decoder's range,
a context whose store goes bad, a token on an edge whose parity fails, a commit buffer whose next entry of a round fails
before its commit begins or during it, a line of an instruction L1 that fails, a management command that will take its time, a page
sent to a frame of host memory (R414, log entry 33). -/
inductive World where
  | badLine (line : Nat)
  | badL2 (line : Nat)
  | badScratch (m : Fin 192) (line : Nat)
  | upsetAlu (t : Fin 192) (alu : Fin 3) (x : DWord)
  | upsetResult (t : Fin 192) (alu : Fin 3) (x : DWord)
  | slowImage (t : Fin 192)
  | upsetPe (t : Fin 192) (pe : Fin 4096) (x : Word)
  | upsetUnit (t : Fin 192) (k : Fin 8) (u : Nat) (copy : Nat) (x : Word)
  | upsetMask (t : Fin 192) (k : Fin 8) (u : Nat) (copy : Nat)
  | upsetFlags (t : Fin 192) (k : Fin 8) (u : Nat) (copy : Nat) (x : Byte)
  | root (p : Fin 16) (ctx : Half) (table : Nat)
  | firmware (d : Fin 4) (image : FirmwareImage)
  | debugger (ctx : Half) (attached : Bool)
  | hostByte (address : Nat) (b : Byte)
  | hdm (base size : Nat)
  | badCtx (t : Fin 192) (c : Fin 16)
  | badToken (t : Fin 192) (k : Fin 8) (u : Nat) (port : Nat)
  | badStore (g : Word) (round : Nat) (during : Bool)
  | badInstr (t : Fin 192)
  | slowCommand
  | evict (p : Fin 16) (ctx : Half) (va frame : Nat)
  deriving DecidableEq, Repr

/-- One turn of the machine: a sequencer executes, an almanac invocation executes, a step without an encoding takes
place, device time passes, the world acts, the host reads the control window (R452), bytes bytes at an offset, or the management cores
complete the command that they are busy with (R473). -/
inductive Turn where
  | seq (t : Fin 192)
  | alm (p : Fin 16)
  | act (i : Instr)
  | wait (ns : Nat)
  | world (w : World)
  | read (offset bytes : Nat)
  | finish
  deriving DecidableEq, Repr

/-- The machine (INVENTORY.md, State). -/
structure State where
  agenda : List Turn
  cur : Fin 192
  curPart : Fin 16
  free : Nat
  unsupported : Bool
  ns : Nat
  mem : Memory
  tags : Sparse (BitVec 4)
  ecc : List Nat
  l2ecc : List Nat
  poisoned : List Nat
  unlogged : List (Nat × Half × Nat)
  tlb : List TlbEntry
  l2 : List Nat
  xcache : List Nat
  tiles : Vector Tile 192
  mtiles : Vector MTile 192
  parts : Vector Part 16
  runs : List Run
  saved : List Saved
  jobs : List Job
  vstreams : List VStream
  hot : List HotPage
  epochs : Vector Nat 4
  served : Vector Nat 4
  moves : List Move
  eclipse : List Word
  lifecycle : BitVec 2
  rollback : Half
  firmware : Vector FirmwareImage 4
  fwfail : Vector (BitVec 4) 4
  ready : Bool
  harebell : Bool
  joined : List Nat
  cap : Nat
  clocks : Sparse Clock
  marg : Vector DWord 6
  mstat : DWord
  mres : DWord
  slowCommand : Bool
  busy : Option DWord
  mlog : List (List Byte)
  links : Sparse LinkSt
  strPairs : List (Nat × Nat)
  hdmBase : Nat
  hdmSize : Nat
  msix : List Nat
  reply : Option (BitVec 512 × Bool)
  spdm : List (List Byte)
  spdmVersion : Bool
  spdmAlgs : Bool
  debuggers : List Half
  fwmem : Memory
  xlcache : List XlEntry
  minorities : List (Word × Nat)
  deriving DecidableEq, Repr

/-- Why a run stops with a fault. Each is raised only where the spec gives no effect at all. -/
inductive Fault where
  /-- Raised by CXL_MEM_ACCESS at an address that the HDM decoder does not map (R451): no agent answers it. Safe: the
  machine stops. -/
  | unmappedCxl (address : Nat)
  deriving DecidableEq, Repr

/-- Why a run stops with a refusal. -/
inductive Refusal where
  /-- Raised by an arm of exec whose instruction has no meaning yet. Safe: the machine stops. -/
  | notModelled (mnemonic : String)
  deriving DecidableEq, Repr

/-! ### The state after reset -/

/-- A sequencer right after reset (R187, R189, R479; log entries 4, 8). -/
def Seq.reset : Seq where
  regs := Vector.replicate 32 0#64
  preds := Vector.replicate 8 false
  pc := 0#64
  status := 0#64
  epc := 0#64
  cause := 0#64
  tval := 0#64
  vbase := Config.trapVector
  scratch := 0#64
  ctx := 0#16
  brk := Vector.replicate 8 0#64
  ram := []
  mode := .idle
  stall := none
  noBrk := false
  held := []
  il1 := []
  aluErr := Vector.replicate 3 0#64
  lateErr := Vector.replicate 3 0#64
  slow := false
  minority := none
  svSince := 0
  sleeping := none
  shoots := []
  word := none
  holding := false

/-- A compute tile right after reset: no image in any context, every strand empty (R246, R469). -/
def Tile.reset : Tile where
  seq := Seq.reset
  ctxs := Vector.replicate 16 {}
  strands := Vector.replicate 8 {}
  core := {}

/-- A partition right after reset; only partition 0 exists in harebell mode (R467; log entries 4, 9). -/
def Part.reset (formed : Bool) : Part where
  formed := formed
  pairs := Vector.replicate 4 0#48
  tileQuota := 0
  slotQuota := 0
  margin := 0#32
  roots := []
  queues := Vector.replicate 64 {}
  pqerr := 0#64
  sysctx := 0#16
  cr := {}
  fr := {}
  el := {}
  diagBase := 0#64
  diagSize := 0#64
  shootVa := 0#64
  shootDone := 0#32
  shootNext := 0#32
  shoots := []
  shootOverflow := false
  shootError := false
  waiting := []
  heldTiles := []
  appends := []
  faults := []
  nextTag := 0#32
  almanac := none
  shadow := none
  swapRequest := none
  generation := 0#32
  persist := Vector.replicate 16 0#32
  overruns := 0
  stickyFallback := false
  rejected := 0#32
  invocations := 0#32
  pending := []
  inv := none
  deferred := none
  deferredFallback := false
  resume := []
  held := false
  emask := []
  saveBase := 0
  saveSize := 0

/-- The machine right after reset: memory and scratchpads wiped, tags 0x8, everything empty, harebell mode
(R467, R469). What the spec states no value for is named in the log, entries 1 to 9. -/
def State.reset : State where
  agenda := []
  cur := 0
  curPart := 0
  free := 0
  unsupported := false
  ns := 0
  mem := []
  tags := []
  ecc := []
  l2ecc := []
  poisoned := []
  unlogged := []
  tlb := []
  l2 := []
  xcache := []
  tiles := Vector.replicate 192 Tile.reset
  mtiles := Vector.replicate 192 {}
  parts := (Vector.replicate 16 (Part.reset false)).set 0 (Part.reset true)
  runs := []
  saved := []
  jobs := []
  vstreams := []
  hot := []
  epochs := Vector.replicate 4 0
  served := Vector.replicate 4 15
  moves := []
  eclipse := []
  lifecycle := 0#2
  rollback := 0#16
  firmware := Vector.replicate 4 ⟨0#16, true, true, true⟩
  fwfail := Vector.replicate 4 0#4
  ready := false
  harebell := true
  joined := []
  cap := 3000
  clocks := []
  marg := Vector.replicate 6 0#64
  mstat := 0#64
  mres := 0#64
  slowCommand := false
  busy := none
  mlog := []
  links := []
  strPairs := []
  hdmBase := 0
  hdmSize := 0
  msix := []
  reply := none
  spdm := []
  spdmVersion := false
  spdmAlgs := false
  debuggers := []
  fwmem := []
  xlcache := []
  minorities := []

end Sys2Proof.Machine
end

