-- ==== Sys2Proof/Machine/Bits.lean ====
section
/-! DEFINITION. Sys2Proof/Machine/Bits.lean: bit fields, sign extension, byte order, sorted maps and byte memories:
the helpers of R203 and R2 that every other file of the machine uses. -/

namespace Sys2Proof.Machine

/-! ### Numbers (R203) -/

/-- x[n−1:0] of a natural number, read as two's complement. -/
def sextNat (x n : Nat) : Int :=
  let m := x % 2 ^ n
  if m < 2 ^ (n - 1) then (m : Int) else (m : Int) - (2 ^ n : Nat)

/-- A bit vector read as two's complement. -/
def sext {n : Nat} (x : BitVec n) : Int := x.toInt

/-- A bit vector read as unsigned. -/
def zext {n : Nat} (x : BitVec n) : Int := (x.toNat : Int)

/-- lo, v or hi (R203). -/
def clampInt (v lo hi : Int) : Int := if v < lo then lo else if hi < v then hi else v

/-- The field [hi:lo] of a natural number. -/
def bitsOf (x hi lo : Nat) : Nat := x / 2 ^ lo % 2 ^ (hi + 1 - lo)

/-- Bit i of a natural number. -/
def bitOf (x i : Nat) : Bool := x / 2 ^ i % 2 == 1

/-- The field [hi:lo] of a bit vector, as a number. -/
def field {n : Nat} (x : BitVec n) (hi lo : Nat) : Nat := bitsOf x.toNat hi lo

/-- The least k with 2^k at or above n. -/
def ceilLog2 (n : Nat) : Nat := if n ≤ 1 then 0 else Nat.log2 (n - 1) + 1

/-- ⌈a ÷ b⌉. -/
def ceilDiv (a b : Nat) : Nat := (a + b - 1) / b

/-- v < w under 32-bit serial arithmetic, strictly (R343). -/
def serialAfter (v t : Word) : Bool := let d := (v - t).toNat; 0 < d && d < 2 ^ 31

/-- (v − c) mod 2^32 < 2^31 (R269, R345). -/
def serialAtLeast (v c : Word) : Bool := (v - c).toNat < 2 ^ 31

/-- The number of ones. -/
def popCount (n : Nat) (x : Nat) : Nat := ((List.range n).filter (fun i => bitOf x i)).length

/-- How many of the top n bits are zero before the first one; n when all are. -/
def leadingZeros (n x : Nat) : Nat := ((List.range n).takeWhile (fun i => !bitOf x (n - 1 - i))).length

/-- The index of the lowest one among n bits; n when there is none. -/
def trailingZeros (n x : Nat) : Nat := ((List.range n).takeWhile (fun i => !bitOf x i)).length

/-! ### Bytes, little-endian (R2) -/

/-- The number that bytes hold, the first least significant. -/
def leNat : List Byte → Nat
  | [] => 0
  | b :: bs => b.toNat + 256 * leNat bs

/-- The n low bytes of a number, least significant first. -/
def leBytes : Nat → Nat → List Byte
  | 0, _ => []
  | n + 1, v => BitVec.ofNat 8 v :: leBytes n (v / 256)

/-- The number in bytes [lo, lo + n) of a record. -/
def recNat (r : List Byte) (lo n : Nat) : Nat := leNat ((r.drop lo).take n)

/-- The words of bytes, four to a word. -/
def bytesToWords (n : Nat) (bs : List Byte) : List Word :=
  (List.range n).map (fun i => BitVec.ofNat 32 (recNat bs (4 * i) 4))

/-- The bytes of words. -/
def wordsToBytes (ws : List Word) : List Byte := ws.flatMap (fun w => leBytes 4 w.toNat)

/-! ### Sorted maps -/

/-- The value at a key, or the default. -/
def Sparse.get {α : Type} (m : Sparse α) (k : Nat) (d : α) : α :=
  match m with
  | [] => d
  | (j, v) :: rest => if j = k then v else if k < j then d else Sparse.get rest k d

/-- The map with a value at a key. -/
def Sparse.set {α : Type} (m : Sparse α) (k : Nat) (v : α) : Sparse α :=
  match m with
  | [] => [(k, v)]
  | (j, w) :: rest =>
    if k < j then (k, v) :: (j, w) :: rest
    else if k = j then (k, v) :: rest
    else (j, w) :: Sparse.set rest k v

/-! ### Byte memories -/

/-- What an address that nothing lists reads as: 0, as the wipe leaves HBM and scratchpads (R469) and as R351 leaves
local RAM; host memory by log entry 5. -/
def unlisted : Byte := 0#8

/-- The byte at an address. -/
def Memory.read (m : Memory) (a : Nat) : Byte :=
  match m with
  | [] => unlisted
  | (j, b) :: rest => if j = a then b else if a < j then unlisted else Memory.read rest a

/-- The memory with a byte at an address; the canonical form lists no byte equal to unlisted. -/
def Memory.write (m : Memory) (a : Nat) (b : Byte) : Memory :=
  match m with
  | [] => if b = unlisted then [] else [(a, b)]
  | (j, c) :: rest =>
    if a < j then (if b = unlisted then (j, c) :: rest else (a, b) :: (j, c) :: rest)
    else if a = j then (if b = unlisted then rest else (a, b) :: rest)
    else (j, c) :: Memory.write rest a b

/-- Every address above lo, strictly rising, and no byte listed that an unlisted address reads as. -/
def Memory.wfFrom (lo : Nat) : Memory → Bool
  | [] => true
  | (a, b) :: rest => decide (lo ≤ a) && decide (b ≠ unlisted) && Memory.wfFrom (a + 1) rest

/-- The canonical form. -/
def Memory.wf (m : Memory) : Bool := Memory.wfFrom 0 m

/-- n bytes from an address upwards. -/
def Memory.readN (m : Memory) (a : Nat) : Nat → List Byte
  | 0 => []
  | n + 1 => m.read a :: Memory.readN m (a + 1) n

/-- Bytes written from an address upwards, in ascending order. -/
def Memory.writeN (m : Memory) (a : Nat) : List Byte → Memory
  | [] => m
  | b :: bs => Memory.writeN (m.write a b) (a + 1) bs

/-! ### Lists -/

/-- The list with one place changed; unchanged when the place does not exist. -/
def modifyAt {α : Type} (l : List α) (n : Nat) (f : α → α) : List α :=
  match l, n with
  | [], _ => []
  | x :: xs, 0 => f x :: xs
  | x :: xs, k + 1 => x :: modifyAt xs k f

/-- The list with f applied to the first element that meets p. -/
def modifyFirst {α : Type} (l : List α) (p : α → Bool) (f : α → α) : List α :=
  match l with
  | [] => []
  | x :: xs => if p x then f x :: xs else x :: modifyFirst xs p f

/-- A list in chunks of n (n at least 1), the last perhaps shorter; fuel is the list's length. -/
def chunksAux {α : Type} (n : Nat) : Nat → List α → List (List α)
  | 0, _ => []
  | fuel + 1, l => if l.isEmpty then [] else l.take n :: chunksAux n fuel (l.drop n)

/-- A list in chunks of n. -/
def chunks {α : Type} (n : Nat) (l : List α) : List (List α) := chunksAux n l.length l

/-- Every element once, keeping the first of equals. -/
def dedup {α : Type} [DecidableEq α] : List α → List α
  | [] => []
  | x :: xs => x :: (dedup xs).filter (fun y => decide (y ≠ x))

/-- The elements in ascending order of a key, equal keys in the order given. -/
def insertBy {α : Type} (key : α → Nat) (x : α) : List α → List α
  | [] => [x]
  | y :: ys => if key x < key y then x :: y :: ys else y :: insertBy key x ys

/-- A stable sort by a key. -/
def sortBy {α : Type} (key : α → Nat) (l : List α) : List α := l.foldl (fun acc x => insertBy key x acc) []

/-- An element with the greatest key, the first among equals. -/
def maxBy {α : Type} (key : α → Nat) : List α → Option α
  | [] => none
  | x :: xs =>
    match maxBy key xs with
    | none => some x
    | some y => if key x < key y then some y else some x

/-- An element with the least key, the first among equals. -/
def minBy {α : Type} (key : α → Nat) : List α → Option α
  | [] => none
  | x :: xs =>
    match minBy key xs with
    | none => some x
    | some y => if key y < key x then some y else some x

end Sys2Proof.Machine
end

