-- ==== Sys2Proof/Machine/Bdc.lean ====
section
/-! DEFINITION. Sys2Proof/Machine/Bdc.lean: block dictionary coding (R406 to R411). -/

namespace Sys2Proof.Machine

/-- The dictionary (R408): 16 entries and the insertion pointer. -/
structure BdcDict where
  entries : List (Option Word)
  pointer : Nat
  deriving DecidableEq, Repr

/-- The dictionary at the start of a block. -/
def bdcEmpty : BdcDict := ⟨List.replicate 16 none, 0⟩

/-- An insertion (R408). -/
def bdcInsert (d : BdcDict) (x : Word) : BdcDict :=
  ⟨d.entries.set d.pointer (some x), (d.pointer + 1) % 16⟩

/-- The lowest index of a valid entry that agrees with x after both lose their low bits (R409). -/
def bdcMatch (d : BdcDict) (x : Word) (low : Nat) : Option Nat :=
  d.entries.findIdx? (fun e => match e with
    | some v => v.toNat / 2 ^ low == x.toNat / 2 ^ low
    | none => false)

/-- The n low bits of a number, most significant first. -/
def msbBits (n x : Nat) : List Bool := (List.range n).map (fun i => bitOf x (n - 1 - i))

/-- The number that bits hold, most significant first. -/
def bitsMsb (bs : List Bool) : Nat := bs.foldl (fun acc b => 2 * acc + (if b then 1 else 0)) 0

/-- The code of one word and the dictionary after it (R407, R409). -/
def bdcEncodeWord (d : BdcDict) (x : Word) : List Bool × BdcDict :=
  if x = 0#32 then ([false, false], d)
  else match bdcMatch d x 0 with
    | some j => ([false, true] ++ msbBits 4 j, d)
    | none =>
      match bdcMatch d x 8 with
      | some j => ([true, false] ++ msbBits 4 j ++ msbBits 8 x.toNat, d)
      | none =>
        match bdcMatch d x 16 with
        | some j => ([true, true, false] ++ msbBits 4 j ++ msbBits 16 x.toNat, bdcInsert d x)
        | none => ([true, true, true] ++ msbBits 32 x.toNat, bdcInsert d x)

/-- The bit string of a block's words (R406). -/
def bdcEncodeFrom : BdcDict → List Word → List Bool
  | _, [] => []
  | d, x :: xs => let (bs, d') := bdcEncodeWord d x; bs ++ bdcEncodeFrom d' xs

/-- The bit string of a block. -/
def bdcEncode (ws : List Word) : List Bool := bdcEncodeFrom bdcEmpty ws

/-- One word read from a bit string: the word, the dictionary and the rest; none when a code names an empty entry or
the string ends (R411). -/
def bdcDecodeWord (d : BdcDict) : List Bool → Option (Word × BdcDict × List Bool)
  | false :: false :: r => some (0#32, d, r)
  | false :: true :: r =>
    if r.length < 4 then none
    else match d.entries.getD (bitsMsb (r.take 4)) none with
      | some v => some (v, d, r.drop 4)
      | none => none
  | true :: false :: r =>
    if r.length < 12 then none
    else match d.entries.getD (bitsMsb (r.take 4)) none with
      | some v => some (BitVec.ofNat 32 (v.toNat / 256 * 256 + bitsMsb ((r.drop 4).take 8)), d, r.drop 12)
      | none => none
  | true :: true :: false :: r =>
    if r.length < 20 then none
    else match d.entries.getD (bitsMsb (r.take 4)) none with
      | some v =>
        let x : Word := BitVec.ofNat 32 (v.toNat / 65536 * 65536 + bitsMsb ((r.drop 4).take 16))
        some (x, bdcInsert d x, r.drop 20)
      | none => none
  | true :: true :: true :: r =>
    if r.length < 32 then none
    else
      let x : Word := BitVec.ofNat 32 (bitsMsb (r.take 32))
      some (x, bdcInsert d x, r.drop 32)
  | _ => none

/-- n words read from a bit string; none when it is undecodable (R411). -/
def bdcDecodeFrom : Nat → BdcDict → List Bool → Option (List Word)
  | 0, _, _ => some []
  | n + 1, d, bs =>
    match bdcDecodeWord d bs with
    | none => none
    | some (x, d', r) => (bdcDecodeFrom n d' r).map (x :: ·)

/-- Bits stored in bytes: bit i in byte i div 8 at position 7 − (i mod 8) (R406). -/
def packMsb (bs : List Bool) : List Byte :=
  (chunks 8 bs).map (fun c => BitVec.ofNat 8 (bitsMsb (c ++ List.replicate (8 - c.length) false)))

/-- The bits of bytes in that order. -/
def unpackMsb (bs : List Byte) : List Bool := bs.flatMap (fun b => msbBits 8 b.toNat)

/-- The block tag and the stored bytes of 64 words (R410). -/
def bdcStore (ws : List Word) : BitVec 4 × List Byte :=
  if ws.all (fun x => decide (x = 0#32)) then (0x0#4, [])
  else
    let bs := bdcEncode ws
    let t := ceilDiv bs.length 256
    if 8 ≤ t then (0x8#4, wordsToBytes ws)
    else
      let body := packMsb bs
      (BitVec.ofNat 4 t, body ++ List.replicate (32 * t - body.length) 0#8)

/-- The 64 words of a stored block, from its tag and the bytes of its slot; none when undecodable (R410, R411). -/
def bdcLoad (tag : BitVec 4) (slot : List Byte) : Option (List Word) :=
  if tag = 0x0#4 then some (List.replicate 64 0#32)
  else if tag = 0x8#4 then some (bytesToWords 64 slot)
  else if 8 < tag.toNat then none
  else bdcDecodeFrom 64 bdcEmpty (unpackMsb (slot.take (32 * tag.toNat)))

end Sys2Proof.Machine
end

