-- ==== Sys2Proof/Machine/Ops.lean ====
section
/-! DEFINITION. Sys2Proof/Machine/Ops.lean: the named operations over registers and physical memory, the places of
tiles and the identifiers of units, clocks, graphs by ID, and taking and returning from a trap (R390, R272). -/

namespace Sys2Proof.Machine

/-! ### Tiles and sequencers -/

/-- The compute tile with a package ordinal. -/
def tileOf (n : Nat) : Fin 192 := Fin.ofNat 192 n

/-- A compute tile's state. -/
def State.tile (s : State) (t : Fin 192) : Tile := s.tiles[t]

/-- The state with a compute tile changed. -/
def State.modTile (s : State) (t : Fin 192) (f : Tile → Tile) : State :=
  { s with tiles := s.tiles.set t (f (s.tiles[t])) }

/-- A sequencer. -/
def State.seq (s : State) (t : Fin 192) : Seq := (s.tile t).seq

/-- The state with a sequencer changed. -/
def State.modSeq (s : State) (t : Fin 192) (f : Seq → Seq) : State :=
  s.modTile t (fun x => { x with seq := f x.seq })

/-- The sequencer that is executing. -/
def State.me (s : State) : Seq := s.seq s.cur

/-- The state with the executing sequencer changed. -/
def State.modMe (s : State) (f : Seq → Seq) : State := s.modSeq s.cur f

/-- A strand of a tile. -/
def State.strand (s : State) (t : Fin 192) (k : Fin 8) : Strand := (s.tile t).strands[k]

/-- The state with a strand changed. -/
def State.modStrand (s : State) (t : Fin 192) (k : Fin 8) (f : Strand → Strand) : State :=
  s.modTile t (fun x => { x with strands := x.strands.set k (f (x.strands[k])) })

/-- The state with a context changed. -/
def State.modCtx (s : State) (t : Fin 192) (c : Fin 16) (f : Ctx → Ctx) : State :=
  s.modTile t (fun x => { x with ctxs := x.ctxs.set c (f (x.ctxs[c])) })

/-- A memory tile. -/
def State.mtile (s : State) (m : Nat) : MTile := s.mtiles[tileOf m]

/-- The state with a memory tile changed. -/
def State.modMTile (s : State) (m : Nat) (f : MTile → MTile) : State :=
  { s with mtiles := s.mtiles.set (tileOf m) (f (s.mtiles[tileOf m])) }

/-- A partition. -/
def State.part (s : State) (p : Fin 16) : Part := s.parts[p]

/-- The partition with a number. -/
def partOf (n : Nat) : Fin 16 := Fin.ofNat 16 n

/-- The state with a partition changed. -/
def State.modPart (s : State) (p : Fin 16) (f : Part → Part) : State :=
  { s with parts := s.parts.set p (f (s.parts[p])) }

/-- The state with a queue changed. -/
def State.modQueue (s : State) (p : Fin 16) (q : Fin 64) (f : Queue → Queue) : State :=
  s.modPart p (fun x => { x with queues := x.queues.set q (f (x.queues[q])) })

/-! ### Scalar registers and predicates (R187, R203) -/

/-- rd(n): s0 reads 0. -/
def Seq.rd (q : Seq) (n : BitVec 5) : DWord := if n = 0#5 then 0#64 else q.regs[n.toFin]

/-- wr(n, v): a write to s0 is discarded. -/
def Seq.wr (q : Seq) (n : BitVec 5) (v : DWord) : Seq :=
  if n = 0#5 then q else { q with regs := q.regs.set n.toFin v }

/-- pred(n): p0 reads true. -/
def Seq.pred (q : Seq) (n : BitVec 3) : Bool := if n = 0#3 then true else q.preds[n.toFin]

/-- A predicate written; a write to p0 is discarded. -/
def Seq.wrPred (q : Seq) (n : BitVec 3) (v : Bool) : Seq :=
  if n = 0#3 then q else { q with preds := q.preds.set n.toFin v }

/-- sy.status sv: 1 is supervisor privilege (R189). -/
def Seq.sv (q : Seq) : Bool := q.status.getLsbD 0
/-- sy.status psv (R189). -/
def Seq.psv (q : Seq) : Bool := q.status.getLsbD 1
/-- sy.status step (R189). -/
def Seq.step (q : Seq) : Bool := q.status.getLsbD 2

/-- The status with the three fields of R189; reserved bits read 0. -/
def statusOf (step psv sv : Bool) : DWord :=
  (0#61 ++ BitVec.ofBool step ++ BitVec.ofBool psv ++ BitVec.ofBool sv : BitVec 64)

/-- pc := pc + 4 (R220). -/
def Seq.advance (q : Seq) : Seq := { q with pc := q.pc + 4#64 }

/-- A block boundary (R404): the L1 lines of every page whose fetch shootdown waits are discarded. -/
def Seq.boundary (q : Seq) : Seq :=
  { q with
    il1 := q.il1.filter (fun w => !q.shoots.any (fun x =>
      decide (w.ctx = x.1.ctx) && w.va / (4096 * 16 ^ x.1.size) == x.1.va / (4096 * 16 ^ x.1.size)))
    shoots := [] }

/-! ### Traps (R389, R390) and the return from one (R272, R394) -/

/-- Entry to a trap, in the order of R390: sy.epc, sy.cause, sy.tval, psv := sv, sv := 1, then pc := vbase + 16 × code.
A stalled instruction is left not executed (R249); entry is a block boundary (R404). -/
def Seq.trap (q : Seq) (code : Nat) (epc tval : DWord) : Seq :=
  { q.boundary with
    epc := epc
    cause := BitVec.ofNat 64 code
    tval := tval
    status := statusOf q.step q.sv true
    pc := q.vbase + BitVec.ofNat 64 (16 * code)
    stall := none
    noBrk := false }

/-- eret: sv := psv, pc := sy.epc (R272), and the suppression of R394 when the trap was a breakpoint register's. -/
def Seq.eret (q : Seq) : Seq :=
  { q.boundary with
    status := statusOf q.step q.psv q.psv
    pc := q.epc
    noBrk := decide (q.cause = 5#64) && decide (0x10000 ≤ q.tval.toNat) && decide (q.tval.toNat ≤ 0x10007) }

/-- An asynchronous trap is held until it can be taken (R390). -/
def State.holdTrap (s : State) (t : Fin 192) (code : Nat) (tval : DWord) : State :=
  s.modSeq t (fun q => { q with held := q.held ++ [(code, tval)] })

/-- The held trap of the lowest code, and the others (R390). -/
def lowestHeld (h : List (Nat × DWord)) : Option ((Nat × DWord) × List (Nat × DWord)) :=
  match minBy (fun x => x.1) h with
  | none => none
  | some x => some (x, h.erase x)

/-! ### Places of tiles (R5 to R7, R9, R19) -/

/-- The die of a package ordinal (R348). -/
def dieOf (n : Nat) : Nat := n / 48

/-- The row of the pair with an ordinal. -/
def pairY (n : Nat) : Nat := n % 48 * 2 / 12

/-- The column of a compute tile: x + y is even (R6). -/
def computeX (n : Nat) : Nat := n % 48 * 2 % 12 + pairY n % 2

/-- The column of a memory tile: x + y is odd (R6). -/
def memoryX (n : Nat) : Nat := n % 48 * 2 % 12 + (1 - pairY n % 2)

/-- The tile index of a compute tile (R6). -/
def computeIndex (n : Nat) : Nat := pairY n * 12 + computeX n

/-- The tile index of a memory tile. -/
def memoryIndex (n : Nat) : Nat := pairY n * 12 + memoryX n

/-- The package ordinal of the tile at (x, y) of a die, of either kind. -/
def ordinalAt (die x y : Nat) : Nat := die * 48 + (y * 12 + x) / 2

/-- The neighbour of (x, y) on a side: 0 north, 1 east, 2 south, 3 west; none beyond the die edge (R7). -/
def neighbour (x y side : Nat) : Option (Nat × Nat) :=
  match side with
  | 0 => if 0 < y then some (x, y - 1) else none
  | 1 => if x < 11 then some (x + 1, y) else none
  | 2 => if y < 7 then some (x, y + 1) else none
  | _ => if 0 < x then some (x - 1, y) else none

/-- The memory tile that a side of a compute tile faces (R7). -/
def facing (t side : Nat) : Option Nat :=
  (neighbour (computeX t) (pairY t) side).map (fun xy => ordinalAt (dieOf t) xy.1 xy.2)

/-- The island of a compute tile (R19). -/
def islandOf (t : Nat) : Nat := dieOf t * 128 + computeIndex t

/-! ### Unit identifiers (R21 to R23) -/

/-- The identifier of a unit. -/
def unitId (die tile kind index : Nat) : Word :=
  BitVec.ofNat 32 (die * 2 ^ 30 + tile * 2 ^ 23 + kind * 2 ^ 20 + index)

/-- "No unit" (R23). -/
def noUnit : Word := 0xFFFF_FFFF#32

/-- A sequencer's identifier. -/
def seqId (t : Nat) : Word := unitId (dieOf t) (computeIndex t) 4 0

/-- A collar unit's identifier. -/
def collarId (t phys : Nat) : Word := unitId (dieOf t) (computeIndex t) 1 phys

/-- A PE's identifier. -/
def peId (t pe : Nat) : Word := unitId (dieOf t) (computeIndex t) 0 pe

/-- An address generator's identifier. -/
def agId (m ag : Nat) : Word := unitId (dieOf m) (memoryIndex m) 3 ag

/-- A link's identifier. -/
def linkId (die link : Nat) : Word := unitId die 96 7 link

/-- Whether a tile index of a die is a compute tile (R6). -/
def isComputeIndex (i : Nat) : Bool := (i % 12 + i / 12) % 2 == 0

/-- Whether an identifier is one that the table of R22 gives. -/
def unitIdOk (w : Word) : Bool :=
  let tile := field w 29 23; let index := field w 19 0
  match field w 22 20 with
  | 0 => tile < 96 && isComputeIndex tile && index < 4096
  | 1 => tile < 96 && isComputeIndex tile && index < 1024
  | 2 => tile < 96 && isComputeIndex tile && index < 1024
  | 3 => tile < 96 && !isComputeIndex tile && index < 16
  | 4 => tile < 96 && isComputeIndex tile && index == 0
  | 5 => tile < 96 && !isComputeIndex tile && index < 16
  | 6 => tile == 96 && index < 64
  | _ => tile == 96 && index < 5

/-! ### Clocks (R18, R470) -/

/-- An island's clock. After reset every tile island runs at 650 MHz, k = 8 (R467). -/
def State.clock (s : State) (island : Nat) : Clock :=
  let k := if island % 128 < 96 then 8 else 16
  s.clocks.get island ⟨k, 0, 0, []⟩

/-- ac cycles of an island since reset: 1.3 GHz × k ÷ 16 is 13 k ÷ 160 cycles in a ns. -/
def State.cycles (s : State) (island : Nat) : Nat :=
  let c := s.clock island
  (c.basePhase + (s.ns - c.baseNs) * 13 * c.k) / 160

/-- The phase of an island at a device time, by the frequency that it ran at then. -/
def Clock.phaseAt (c : Clock) (ns : Nat) : Nat :=
  match ((c.k, c.baseNs, c.basePhase) :: c.past).find? (fun x => decide (x.2.1 ≤ ns)) with
  | some (k, from_, phase) => phase + (ns - from_) * 13 * k
  | none => 0

/-- ac cycles of an island between a device time and now, at whatever frequencies it has run (R18). -/
def State.cyclesSince (s : State) (island ns : Nat) : Nat := s.cycles island - (s.clock island).phaseAt ns / 160

/-- ac cycles of a compute tile's island. -/
def State.tileCycles (s : State) (t : Nat) : Nat := s.cycles (islandOf t)

/-- A sequencer enters a trap (R390); the cycle at which it left user privilege starts the count of R392. -/
def State.trapAt (s : State) (t : Fin 192) (code : Nat) (epc tval : DWord) : State :=
  let now := s.tileCycles t.val
  s.modSeq t (fun q => { q.trap code epc tval with svSince := if q.sv then q.svSince else now })

/-- A synchronous trap of the executing sequencer: sy.epc is the instruction's own address. -/
def State.trapMe (s : State) (code : Nat) (tval : DWord) : State := s.trapAt s.cur code s.me.pc tval

/-- Dispatch time: device time bits [41:10] (R344). -/
def State.dispatchTime (s : State) : Nat := s.ns / 1024 % 2 ^ 32

/-! ### Free values -/

/-- A free choice drawn, and the state after the draw. -/
def State.choose (s : State) : Bool × State := (Config.freeBool s.free, { s with free := s.free + 1 })

/-- n free bytes drawn. -/
def State.drawBytes (s : State) (n : Nat) : List Byte × State :=
  ((List.range n).map (fun i => Config.freeByte (s.free + i)), { s with free := s.free + n })

/-! ### Physical memory (R110, R406 to R413) -/

/-- The HBM of the package ends here (R110). -/
def hbmEnd : Nat := 2 ^ 39

/-- The host range begins here (R110). -/
def hostBase : Nat := 2 ^ 51

/-- Whether a physical address lies in HBM. -/
def inHbm (a : Nat) : Bool := a < hbmEnd

/-- Whether a physical address lies in the host range. -/
def inHost (a : Nat) : Bool := hostBase ≤ a && a < 2 ^ 52

/-- The block tag of an HBM block (R412). -/
def State.tag (s : State) (block : Nat) : BitVec 4 := s.tags.get block 0x8#4

/-- The 256 bytes of an HBM block as every read sees them; none when undecodable (R411, R412). -/
def State.block (s : State) (b : Nat) : Option (List Byte) :=
  (bdcLoad (s.tag b) (s.mem.readN (256 * b) 256)).map wordsToBytes

/-- The byte that a read of a physical address sees. -/
def State.physByte (s : State) (a : Nat) : Byte :=
  if inHbm a && s.tag (a / 256) ≠ 0x8#4 then
    match s.block (a / 256) with
    | some bs => bs.getD (a % 256) 0#8
    | none => s.mem.read a
  else s.mem.read a

/-- n bytes from a physical address. -/
def State.physBytes (s : State) (a n : Nat) : List Byte := (List.range n).map (fun i => s.physByte (a + i))

/-- The 64-byte lines of n bytes from an address. -/
def linesOf (a n : Nat) : List Nat :=
  if n = 0 then [] else (List.range ((a + n - 1) / 64 + 1 - a / 64)).map (a / 64 + ·)

/-- Whether the block of a line is stored coded (R410). -/
def State.codedLine (s : State) (l : Nat) : Bool := inHbm (64 * l) && decide (s.tag (l / 4) ≠ 0x8#4)

/-- The lines that a read of n bytes reaches: of a coded block all that its sectors lie in, the first one also for its tag, since an
error in any of them makes the whole block uncorrectable (R411, log entry 6). -/
def State.errLines (s : State) (a n : Nat) : List Nat :=
  (linesOf a n).flatMap (fun l =>
    if s.codedLine l then (List.range (max 1 (ceilDiv (s.tag (l / 4)).toNat 2))).map (l / 4 * 4 + ·) else [l])

/-- Whether a line is listed as uncorrectable, in HBM or in the L2 that holds it (R374). -/
def State.lineBad (s : State) (l : Nat) : Bool := s.ecc.contains l || (s.l2ecc.contains l && s.l2.contains l)

/-- Whether n bytes from an address lie in an undecodable block (R411). -/
def State.undecodable (s : State) (a n : Nat) : Bool :=
  (linesOf a n).any (fun l => s.codedLine l && (s.block (l / 4)).isNone)

/-- Whether reading n bytes from a physical address meets an uncorrectable error: a listed line, or an undecodable
block (R374, R411). -/
def State.physBad (s : State) (a n : Nat) : Bool := (s.errLines a n).any s.lineBad || s.undecodable a n

/-- Listed errors of lines taken off the list. -/
def State.linesMet (s : State) (ls : List Nat) : State :=
  { s with ecc := s.ecc.filter (fun l => !ls.contains l), l2ecc := s.l2ecc.filter (fun l => !ls.contains l) }

/-- A listed error is met once: the read that meets it takes it off the list (log entry 6). -/
def State.eccMet (s : State) (a n : Nat) : State := s.linesMet (s.errLines a n)

/-- Lines that a die's L2 holds (R13). -/
def l2Lines : Nat := 32 * 2 ^ 20 / 64

/-- A line of HBM brought into the L2 of its die, or used again there: of a full L2 the line used longest ago goes (R13, R111, log
entry 67). -/
def State.fillL2 (s : State) (line : Nat) : State :=
  if !inHbm (64 * line) then s
  else
    let rest := s.l2.filter (fun l => decide (l ≠ line))
    let mine := fun l => l / 2 ^ 31 == line / 2 ^ 31
    let kept := if rest.length < l2Lines || rest.countP mine < l2Lines then rest
      else match (rest.reverse.find? mine) with
        | some old => rest.filter (fun l => decide (l ≠ old))
        | none => rest
    { s with l2 := line :: kept }

/-- The lines of an access to HBM brought into L2. -/
def State.touchL2 (s : State) (a n : Nat) : State :=
  (linesOf a n).foldl State.fillL2 s

/-- Whether reading n bytes finds an error in a line that L2 holds (R374). -/
def State.l2Bad (s : State) (a n : Nat) : Bool :=
  (s.errLines a n).any (fun l => s.l2ecc.contains l && s.l2.contains l)

/-- An uncorrectable error as it is logged: where it was found, the store of R386, and whether a block could not be decoded. -/
structure MemErr where
  address : Nat
  store : Nat
  coded : Bool := false
  deriving DecidableEq, Repr

/-- The codeword that a read finds wrong (R383): the first bad line of those that it reaches, else the block that could not be decoded.
The model's codeword is a 64-byte line (log entry 6). -/
def State.failing (s : State) (lines : List Nat) (a : Nat) : Nat :=
  match lines.find? s.lineBad with
  | some l => 64 * l
  | none => if s.undecodable a 1 then a / 256 * 256 else a

/-- The error that a read of n bytes of physical memory meets; coded adds what a page coded by lines makes undecodable. -/
def State.memErr (s : State) (a n : Nat) (coded : Bool) : MemErr :=
  let first := ((linesOf a n).find? (fun l => s.codedLine l && (s.block (l / 4)).isNone)).map (64 * ·)
  ⟨s.failing (s.errLines a n) (first.getD a), if s.l2Bad a n then 2 else 1, coded || s.undecodable a n⟩

/-- The error that a read of a scratchpad meets: a scratchpad lies at no physical address (R110, R383). -/
def padErr : MemErr := ⟨0, 0, false⟩

/-- The bytes of a block to write over: what it holds, or free bytes where it is undecodable. -/
def State.blockForWrite (s : State) (b : Nat) : List Byte × State :=
  match s.block b with
  | some bs => (bs, s)
  | none => s.drawBytes 256

/-- One byte written to a physical address: through a leaf with comp 0b01 the whole block is encoded again, through
any other leaf it is stored raw (R412). -/
def State.physWriteByte (s : State) (comp : Bool) (a : Nat) (v : Byte) : State :=
  if !inHbm a || (!comp && s.tag (a / 256) == 0x8#4) then { s with mem := s.mem.write a v }
  else
    let b := a / 256
    let (bs, s1) := s.blockForWrite b
    let bs := bs.set (a % 256) v
    if comp then
      let (t, stored) := bdcStore (bytesToWords 64 bs)
      { s1 with
        mem := s1.mem.writeN (256 * b) (stored ++ List.replicate (256 - stored.length) 0#8)
        tags := s1.tags.set b t }
    else { s1 with mem := s1.mem.writeN (256 * b) bs, tags := s1.tags.set b 0x8#4 }

/-- Bytes written from a physical address upwards. -/
def State.physWrite (s : State) (comp : Bool) (a : Nat) : List Byte → State
  | [] => s
  | v :: vs => State.physWrite (s.physWriteByte comp a v) comp (a + 1) vs

/-! ### Graphs -/

/-- The graph with an ID that holds a running slot. -/
def State.run (s : State) (g : Word) : Option Run := s.runs.find? (fun r => r.gid = g)

/-- The graph that holds a compute tile. -/
def State.runOfTile (s : State) (t : Nat) : Option Run :=
  s.runs.find? (fun r => r.tiles.any (fun x => x.2 == t))

/-- The state with a graph changed. -/
def State.modRun (s : State) (g : Word) (f : Run → Run) : State :=
  { s with runs := s.runs.map (fun r => if r.gid = g then f r else r) }

/-- The state without a graph's running slot. -/
def State.dropRun (s : State) (g : Word) : State :=
  { s with runs := s.runs.filter (fun r => decide (r.gid ≠ g)) }

/-- Whether a tile's load stands frozen (R73, R396). -/
def State.tileFrozen (s : State) (t : Nat) : Bool :=
  match s.runOfTile t with
  | some r => r.freeze.isSome
  | none => false

/-- A round of a graph, as far as it is known. -/
def Run.round (r : Run) (n : Nat) : RoundInfo :=
  (r.rounds.find? (fun x => x.number == n)).getD { number := n, timestamp := none }

/-- The graph with a round changed. -/
def Run.modRound (r : Run) (n : Nat) (f : RoundInfo → RoundInfo) : Run :=
  if r.rounds.any (fun x => x.number == n)
  then { r with rounds := r.rounds.map (fun x => if x.number == n then f x else x) }
  else { r with rounds := r.rounds ++ [f { number := n, timestamp := none }] }

/-- A round's timestamp: the one its marker was given (R140), 0 while the round has no marker yet. -/
def Run.timestamp (r : Run) (n : Nat) : Word :=
  match (r.round n).timestamp with
  | some t => t
  | none => 0#32

/-- The last committed round as a completion record holds it (R387). -/
def Run.lastRoundWord (r : Run) : Word :=
  match r.lastCommitted with
  | some n => BitVec.ofNat 32 n
  | none => 0xFFFF_FFFF#32

/-- Whether a load that a timestamp fault stops still works on the rounds before the fault's, which commit normally (R141,
log entry 59). -/
def Run.finishing (r : Run) : Bool :=
  decide (r.freeze = some .timestamp) && !r.frozen && (match r.fault with
    | some f => decide (r.oldest < f.round.toNat)
    | none => false)

/-- Whether a load's regions work: no freeze is asked for, or only that of a timestamp fault whose earlier rounds are not
all committed. -/
def Run.works (r : Run) : Bool := r.freeze.isNone || r.finishing

/-- Whether a fault stands against a load that takes no further one: any but that of a timestamp while earlier rounds
finish. -/
def Run.faulted (r : Run) : Bool := r.fault.isSome && !r.finishing

/-- The footprint index of a tile of a graph. -/
def Run.footIndex (r : Run) (t : Nat) : Option Nat :=
  (r.tiles.find? (fun x => x.2 == t)).map (fun x => x.1)

/-! ### Scratchpads (R12, R112, R113) -/

/-- The window a graph holds on a memory tile. -/
def State.window (s : State) (g : Word) (m : Nat) : Option Window :=
  (s.mtile m).windows.find? (fun w => w.graph = g)

/-- n bytes of a scratchpad. -/
def State.padBytes (s : State) (m a n : Nat) : List Byte := (s.mtile m).bytes.readN a n

/-- Bytes written to a scratchpad. -/
def State.padWrite (s : State) (m a : Nat) (bs : List Byte) : State :=
  s.modMTile m (fun x => { x with
    bytes := x.bytes.writeN a bs
    tainted := x.tainted.filter (fun y => decide (y.1 + 4 ≤ a) || decide (a + bs.length ≤ y.1)) })

/-- Where the error tag of the datum at a scratchpad word came from (R375). -/
def State.padTaint (s : State) (m a n : Nat) : Option Origin :=
  ((s.mtile m).tainted.find? (fun y => decide (a ≤ y.1) && decide (y.1 < a + n))).map (fun y => y.2)

/-- The words of a scratchpad range marked as holding an error-tagged datum (R331, R375). -/
def State.taintPad (s : State) (m a n : Nat) (o : Origin) : State :=
  s.modMTile m (fun x => { x with tainted := (List.range (n / 4)).map (fun i => (a + 4 * i, o)) ++ x.tainted })

/-- Whether reading a scratchpad meets an uncorrectable error. -/
def State.padBad (s : State) (m a n : Nat) : Bool :=
  (s.mtile m).badLines.any (fun l => a / 64 ≤ l && l ≤ (a + n - 1) / 64)

/-- A listed scratchpad error is met once. -/
def State.padMet (s : State) (m a n : Nat) : State :=
  s.modMTile m (fun x => { x with badLines := x.badLines.filter (fun l => decide (¬ (a / 64 ≤ l ∧ l ≤ (a + n - 1) / 64))) })

end Sys2Proof.Machine
end

