-- ==== Sys2Proof/Machine/Walk.lean ====
section
/-! DEFINITION. Sys2Proof/Machine/Walk.lean: page tables, the walk, cached leaves, permissions, accessed and dirty
bits, and reads and writes through a translation (R124 to R133, R412 to R417). -/

namespace Sys2Proof.Machine

/-- What an access is for (R133, R135): a load, a store (scatter, owner update, amo and engine write among them), or a
fetch. -/
inductive Access where
  | read
  | write
  | exec
  deriving DecidableEq, Repr

/-- Whose access it is: the die whose caches serve it, the partition and context, and whether it is a user-mode
access (R133). -/
structure Agent where
  die : Nat
  part : Fin 16
  ctx : Half
  user : Bool
  deriving DecidableEq, Repr

/-- Why an access gets no data (R127, R130, R133, R134). -/
inductive XFault where
  | noContext
  | notPresent
  | bad
  | poisoned
  | denied
  deriving DecidableEq, Repr

/-- A leaf that a walk found: where its accessed and dirty bits stand, the entry, the frame and the page-size index. -/
structure Leaf where
  entryAt : Nat
  entry : DWord
  frame : Nat
  size : Nat
  deriving DecidableEq, Repr

/-- How a walk ends: a leaf, a fault, or an uncorrectable error read in a table (R130). -/
inductive WalkEnd where
  | leaf (l : Leaf)
  | fault (x : XFault)
  | uncorrectable (table : Nat)
  deriving DecidableEq, Repr

/-! ### Entry fields (R125) -/

/-- Bytes of a page of size index k. -/
def pageBytes (k : Nat) : Nat := 4096 * 16 ^ k

/-- The base of the page of size index k that holds va. -/
def pageBase (va k : Nat) : Nat := va / pageBytes k * pageBytes k

/-- comp of a leaf. -/
def leafComp (e : DWord) : Nat := field e 11 10
/-- mtype of a leaf. -/
def leafMtype (e : DWord) : Nat := field e 13 12

/-- The bits in which the entries of a group must agree: all but acc, dirty and soft (R126). -/
def groupBits (e : DWord) : Nat := e.toNat % 2 ^ 56 - (if bitOf e.toNat 6 then 64 else 0) - (if bitOf e.toNat 7 then 128 else 0)

/-- Whether any address of [a, a + n) lies in the reserved physical range of R110. -/
def touchesReserved (a n : Nat) : Bool := decide (hbmEnd < a + n) && decide (a < hostBase)

/-- An 8-byte entry of a table. -/
def State.entry (s : State) (table i : Nat) : DWord := BitVec.ofNat 64 (leNat (s.physBytes (table + 8 * i) 8))

/-- Whether a leaf at a level is well formed (R125, R126, R127, R413). -/
def leafOk (level : Nat) (e : DWord) (groupAgrees : Bool) : Bool :=
  let k := 2 * level + (if bitOf e.toNat 8 then 1 else 0)
  let frame := field e 55 16 * 4096
  decide (level < 4) && !bitOf e.toNat 15 && leafMtype e != 3 && leafComp e != 3
    && (!bitOf e.toNat 8 || groupAgrees)
    && frame % pageBytes k == 0 && !touchesReserved frame (pageBytes k)
    && !(leafComp e != 0 && hostBase ≤ frame)

/-- The walk of R124 from a table down the levels given, the last level 0. It reads the entry that the address selects and, where
that is a grouped leaf, the 16 entries of its group (R126): an uncorrectable error in what it reads poisons the table (R130, log
entry 78). -/
def State.walkFrom (s : State) (va : Nat) : Nat → List Nat → WalkEnd
  | _, [] => .fault .bad
  | table, level :: levels =>
    let i := va / 2 ^ (12 + 8 * level) % 256
    if s.poisoned.contains table then .fault .poisoned
    else
      let e := s.entry table i
      let whole := bitOf e.toNat 0 && bitOf e.toNat 1 && bitOf e.toNat 8
      if s.physBad (table + 8 * (if whole then i / 16 * 16 else i)) (if whole then 128 else 8) then .uncorrectable table
      else if !bitOf e.toNat 0 then
        if bitOf e.toNat 9 then .fault .bad else .fault .notPresent
      else if bitOf e.toNat 1 then
        let grouped := bitOf e.toNat 8
        let first := i / 16 * 16
        let agrees := (List.range 16).all (fun j => groupBits (s.entry table (first + j)) == groupBits e)
        if leafOk level e agrees then
          let at_ := if grouped then first else i
          let holder := s.entry table at_
          .leaf ⟨table + 8 * at_, holder, field e 55 16 * 4096, 2 * level + (if grouped then 1 else 0)⟩
        else .fault .bad
      else if field e 14 2 != 0 then .fault .bad
      else
        let next := field e 55 15 * 2048
        if touchesReserved next 2048 then .fault .bad
        else State.walkFrom s va next levels

/-- The level-4 table that a context's root entry names (R124). -/
def State.rootOf (s : State) (p : Fin 16) (ctx : Half) : Option Nat :=
  ((s.part p).roots.find? (fun x => x.1 = ctx)).map (fun x => x.2)

/-- A walk for an agent. -/
def State.walk (s : State) (g : Agent) (va : Nat) : WalkEnd :=
  match s.rootOf g.part g.ctx with
  | none => .fault .noContext
  | some root => s.walkFrom va root [4, 3, 2, 1, 0]

/-! ### Cached leaves (R128, R129) -/

/-- A leaf that a TLB of the agent's die holds for an address. -/
def State.cached (s : State) (g : Agent) (va : Nat) : Option TlbEntry :=
  s.tlb.find? (fun e => e.die == g.die && e.part == g.part.val && e.ctx = g.ctx && e.va == pageBase va e.size)

/-- A cached leaf as a walk's result. -/
def TlbEntry.asLeaf (e : TlbEntry) : Leaf := ⟨0, e.leaf, field e.leaf 55 16 * 4096, e.size⟩

/-- The leaf an access uses: the one memory holds, or, while a shootdown has not completed, the cached one where they
differ (R129: each access uses either). A cached leaf with dirty clear is not used for a write (R128). -/
def State.leafFor (s : State) (g : Agent) (va : Nat) (acc : Access) : WalkEnd × Bool × State :=
  let fresh := s.walk g va
  match s.cached g va with
  | none => (fresh, false, s)
  | some e =>
    if decide (acc = .write) && !bitOf e.leaf.toNat 7 then (fresh, false, s)
    else
      let same := match fresh with
        | .leaf l => decide (l.entry = e.leaf) && l.size == e.size
        | _ => false
      if same then (fresh, true, s)
      else
        let (old, s1) := s.choose
        if old then (.leaf e.asLeaf, true, s1) else (fresh, false, s1)

/-- Whether a leaf allows an access (R133, R416). -/
def leafAllows (e : DWord) (user : Bool) (acc : Access) : Bool :=
  (!user || bitOf e.toNat 5) &&
    match acc with
    | .read => bitOf e.toNat 2
    | .write => bitOf e.toNat 3 && leafComp e != 2
    | .exec => bitOf e.toNat 4

/-- The entry with accessed set, and dirty for a write (R128). -/
def markEntry (e : DWord) (acc : Access) : DWord :=
  if acc = .write then e ||| 0xC0#64 else e ||| 0x40#64

/-- The entries that a die's TLB keeps, newest first, while their pages fit in what is left of its reach; those of other dies stay. -/
def keepReach (die : Nat) : Nat → List TlbEntry → List TlbEntry
  | _, [] => []
  | left, e :: r =>
    if e.die ≠ die then e :: keepReach die left r
    else if pageBytes e.size ≤ left then e :: keepReach die (left - pageBytes e.size) r
    else keepReach die left r

/-- The leaf cached after an access (R128). The TLB of a die reaches 256 GiB (R20): the oldest entries go. DESIGN CHOICE (log entry 67):
the entry of the access is kept in every case, so that of a 1 TiB page, which alone is beyond the reach, drops all others of the die. -/
def State.cacheLeaf (s : State) (g : Agent) (va : Nat) (l : Leaf) (e : DWord) : State :=
  let x : TlbEntry := ⟨g.die, g.part.val, g.ctx, pageBase va l.size, l.size, e⟩
  let others := s.tlb.filter (fun y => decide (¬ (y.die = x.die ∧ y.part = x.part ∧ y.ctx = x.ctx ∧ y.va = x.va ∧ y.size = x.size)))
  { s with tlb := x :: keepReach g.die (2 ^ 38 - pageBytes l.size) others }

/-- What a translation gives: the physical address and the leaf's entry, frame and size; or a fault; or a table that
was just found uncorrectable, whose poison mark the caller logs (R130). -/
inductive Xlat where
  | ok (pa : Nat) (l : Leaf)
  | fault (x : XFault)
  | poison (table : Nat)
  deriving DecidableEq, Repr

/-- The table marked poisoned (R130). -/
def State.markPoisoned (s : State) (table : Nat) : State :=
  { s with poisoned := table :: s.poisoned.filter (· ≠ table) }

/-- An access's translation: the leaf, its permission, and accessed and dirty set before the access proceeds
(R128, R133). -/
def State.translate (s : State) (g : Agent) (va : Nat) (acc : Access) : Xlat × State :=
  let (w, fromTlb, s1) := s.leafFor g va acc
  match w with
  | .fault x => (.fault x, s1)
  | .uncorrectable table => (.poison table, (s1.eccMet table 2048).markPoisoned table)
  | .leaf l =>
    if !leafAllows l.entry g.user acc then (.fault .denied, s1)
    else
      let pa := l.frame + va % pageBytes l.size
      if fromTlb then (.ok pa l, s1)
      else
        let e := markEntry l.entry acc
        let s2 := if e = l.entry then s1 else s1.physWriteByte false l.entryAt (BitVec.ofNat 8 e.toNat)
        (.ok pa { l with entry := e }, s2.cacheLeaf g va l e)

/-! ### Data behind a leaf (R412, R415 to R417) -/

/-- A line of a compressed code page (R415): the tag and the sectors that its LATT entry names, as memory holds them. -/
structure CodeLine where
  tag : BitVec 4
  start : Nat
  bytes : Nat
  deriving DecidableEq, Repr

/-- The line that holds an offset of a compressed code page; none when the LATT entry is malformed (R416). -/
def State.codeLine (s : State) (l : Leaf) (off : Nat) : Option CodeLine :=
  let page := pageBytes l.size
  let ent := leNat (s.physBytes (l.frame + 4 * (off / 256)) 4)
  let tag := bitsOf ent 31 28
  let start := 32 * bitsOf ent 27 0
  let len := if tag = 8 then 256 else 32 * tag
  if 8 < tag || (0 < tag && (start < page / 64 || page < start + len)) then none
  else some ⟨BitVec.ofNat 4 tag, l.frame + start, len⟩

/-- The bytes of a line expanded; none when it is undecodable (R411). The line's tag takes the place of the block tags of its
sectors (R416). -/
def State.codeBytes (s : State) (c : CodeLine) : Option (List Byte) :=
  (bdcLoad c.tag (s.mem.readN c.start c.bytes)).map wordsToBytes

/-- The memory lines that reading an offset of a compressed code page reaches: those of its LATT entry and of its sectors. -/
def State.codeReach (s : State) (l : Leaf) (off : Nat) : List Nat :=
  s.errLines (l.frame + 4 * (off / 256)) 4 ++ (match s.codeLine l off with
    | some c => linesOf c.start c.bytes
    | none => [])

/-- One byte of a compressed code page, and whether it is uncorrectable; none when its LATT entry is malformed. -/
def State.codeByte (s : State) (l : Leaf) (off : Nat) : Option (Byte × Bool) :=
  (s.codeLine l off).map (fun c =>
    match s.codeBytes c with
    | some bs => (bs.getD (off % 256) 0#8, (s.codeReach l off).any s.lineBad)
    | none => (s.mem.read c.start, true))

/-- What reading through a leaf gives: the bytes and whether they are uncorrectable, or a malformed LATT entry. -/
def State.leafRead (s : State) (l : Leaf) (va n : Nat) : Option (List Byte × Bool) :=
  let off := va % pageBytes l.size
  if leafComp l.entry == 2 then
    let bs := (List.range n).map (fun i => s.codeByte l (off + i))
    if bs.any Option.isNone then none
    else some (bs.map (fun x => (x.getD (0#8, false)).1), bs.any (fun x => (x.getD (0#8, false)).2))
  else some (s.physBytes (l.frame + off) n, s.physBad (l.frame + off) n)

/-- The error that such a read meets, and the state with it met. -/
def State.leafErr (s : State) (l : Leaf) (va n : Nat) : MemErr × State :=
  let off := va % pageBytes l.size
  if leafComp l.entry == 2 then
    let offs := (List.range n).map (off + ·)
    let coded := offs.any (fun o => match s.codeLine l o with
      | some c => (s.codeBytes c).isNone
      | none => false)
    let ls := offs.flatMap (s.codeReach l)
    (⟨s.failing ls (l.frame + off), if ls.any (fun x => s.l2ecc.contains x && s.l2.contains x) then 2 else 1, coded⟩, s.linesMet ls)
  else (s.memErr (l.frame + off) n false, s.eccMet (l.frame + off) n)

/-- How a read through a translation ends. -/
inductive ReadEnd where
  | ok (bytes : List Byte)
  | uncorrectable (e : MemErr)
  | fault (x : XFault)
  | poison (table : Nat)
  deriving DecidableEq, Repr

/-- n bytes of one page, read by an agent for a purpose (a load or a fetch), through the L2 of the die that has them (R13). The coherence
cache holds 4 MiB (R20), the lines read last (log entry 67). -/
def State.virtRead (s : State) (g : Agent) (va n : Nat) (acc : Access) : ReadEnd × State :=
  match s.translate g va acc with
  | (.fault x, s1) => (.fault x, s1)
  | (.poison table, s1) => (.poison table, s1)
  | (.ok pa l, s1) =>
    match s1.leafRead l va n with
    | none => (.fault .bad, s1)
    | some (bs, bad) =>
      if bad then
        let (e, s2) := s1.leafErr l va n
        (.uncorrectable e, s2)
      else
        let s2 := if leafMtype l.entry == 2 then { s1 with xcache := (pa / 64 :: s1.xcache.filter (· ≠ pa / 64)).take 65536 } else s1
        (.ok bs, s2.touchL2 pa n)

/-- How a write through a translation ends. -/
inductive WriteEnd where
  | ok (pa : Nat)
  | fault (x : XFault)
  | poison (table : Nat)
  deriving DecidableEq, Repr

/-- A page that is moving: its writers are withheld (R138). -/
def State.moving (s : State) (g : Agent) (va : Nat) : Bool :=
  s.moves.any (fun m => m.part == g.part.val && m.ctx = g.ctx && m.va == pageBase va m.size)

/-- Lines of instruction L1s that a write to a physical range reaches: the writer's own are marked, so that ifence
finds them (R240, R273). -/
def markOwn (pa n : Nat) (l : List L1Line) : List L1Line :=
  l.map (fun x => if x.pa < pa + n && pa < x.pa + 256 then { x with own := true } else x)

/-- Bytes of one page written by an agent, through the L2 of the die that has them (R13). -/
def State.virtWrite (s : State) (g : Agent) (va : Nat) (bs : List Byte) : WriteEnd × State :=
  match s.translate g va .write with
  | (.fault x, s1) => (.fault x, s1)
  | (.poison table, s1) => (.poison table, s1)
  | (.ok pa l, s1) => (.ok pa, (s1.physWrite (leafComp l.entry == 1) pa bs).touchL2 pa bs.length)

/-- A table found uncorrectable by an access of the device itself, kept until its record is written (R130). -/
def State.noteTable (s : State) (g : Agent) (table : Nat) : State := { s with unlogged := s.unlogged ++ [(g.part.val, g.ctx, table)] }

/-- Bytes that may cross pages, written page by page; whether every page took its part. -/
def State.virtWriteAll (s : State) (g : Agent) : Nat → List Byte → Bool × State
  | _, [] => (true, s)
  | va, b :: bs =>
    match s.virtWrite g va [b] with
    | (.ok _, s1) => State.virtWriteAll s1 g (va + 1) bs
    | (.poison table, s1) => (false, s1.noteTable g table)
    | (_, s1) => (false, s1)

/-- n bytes that may cross pages, read byte by byte. -/
def State.virtReadAll (s : State) (g : Agent) (acc : Access) : Nat → Nat → Option (List Byte) × State
  | _, 0 => (some [], s)
  | va, n + 1 =>
    match s.virtRead g va 1 acc with
    | (.ok bs, s1) =>
      match State.virtReadAll s1 g acc (va + 1) n with
      | (some rest, s2) => (some (bs ++ rest), s2)
      | (none, s2) => (none, s2)
    | (.poison table, s1) => (none, s1.noteTable g table)
    | (_, s1) => (none, s1)

end Sys2Proof.Machine
end

