-- ==== Sys2Proof/Machine/Hot.lean ====
section
/-! DEFINITION. Sys2Proof/Machine/Hot.lean: hot pages as accesses meet them (R125, R138, R139): what the placement unit counts,
and the writers that a page move withholds. -/

namespace Sys2Proof.Machine

/-- hot of a leaf (R125). -/
def leafHot (e : DWord) : Bool := bitOf e.toNat 14

/-- Whether a hot page is the one at an address of an agent's context. -/
def HotPage.at (h : HotPage) (g : Agent) (va : Nat) : Bool :=
  h.part == g.part.val && decide (h.ctx = g.ctx) && h.va == pageBase va h.size

/-- A count of 16 bits, saturating. -/
def bump16 (n : Nat) : Nat := min (n + 1) 65535

/-- A 64-byte access counted (R139). -/
def HotPage.count (h : HotPage) (die : Nat) (acc : Access) : HotPage :=
  { h with
    counts := modifyAt h.counts die bump16
    writes := if acc = .write then bump16 h.writes else h.writes }

/-- A 64-byte access to a hot page counted by the placement unit of the page's home die; any other page counts nothing. -/
def State.countHot (s : State) (g : Agent) (va : Nat) (acc : Access) : State :=
  match s.walk g va with
  | .leaf l =>
    if leafHot l.entry && inHbm l.frame then
      if s.hot.any (fun h => h.at g va) then
        { s with hot := s.hot.map (fun h => if h.at g va then h.count g.die acc else h) }
      else
        let h : HotPage := ⟨g.ctx, pageBase va l.size, g.part.val, l.frame, l.size, l.frame / 2 ^ 37, [0, 0, 0, 0], 0, []⟩
        { s with hot := s.hot ++ [h.count g.die acc] }
    else s
  | _ => s

/-- The 64-byte accesses of a range counted. -/
def State.countRange (s : State) (g : Agent) (va n : Nat) (acc : Access) : State :=
  if n = 0 then s
  else (List.range ((va + n - 1) / 64 - va / 64 + 1)).foldl (fun (s : State) i => s.countHot g ((va / 64 + i) * 64) acc) s

/-- Whether a write is withheld (R138): its page is moving, or is replicated and first collapses (R139). -/
def State.heldWrite (s : State) (g : Agent) (va : Nat) : Bool :=
  s.moving g va || s.hot.any (fun h => h.at g va && !h.replicas.isEmpty)

/-- The collapse that a withheld write to a replicated page starts. -/
def State.holdWrite (s : State) (g : Agent) (va : Nat) : State :=
  if s.moving g va then s
  else
    match s.hot.find? (fun h => h.at g va && !h.replicas.isEmpty) with
    | none => s
    | some h => { s with moves := s.moves ++ [⟨h.part, h.ctx, h.va, h.size, h.frame, h.frame, .collapse, none⟩] }

/-- Whether two physical ranges, each a start and a length, meet. -/
def rangesMeet (a n b k : Nat) : Bool := decide (a < b + k ∧ b < a + n)

/-- Whether a write to a physical range is withheld: it meets a page that moves or a replicated one (R138, R139). -/
def State.heldPhys (s : State) (pa n : Nat) : Bool :=
  s.moves.any (fun m => rangesMeet pa n m.source (pageBytes m.size))
    || s.hot.any (fun h => !h.replicas.isEmpty && rangesMeet pa n h.frame (pageBytes h.size))

/-- The collapses that a withheld write to a physical range starts. -/
def State.holdPhys (s : State) (pa n : Nat) : State :=
  { s with moves := s.moves ++ ((s.hot.filter (fun h => !h.replicas.isEmpty && rangesMeet pa n h.frame (pageBytes h.size)
      && !s.moves.any (fun m => m.part == h.part && decide (m.ctx = h.ctx) && m.va == h.va))).map
        (fun h => ⟨h.part, h.ctx, h.va, h.size, h.frame, h.frame, .collapse, none⟩)) }

/-- The physical ranges, each a start and a length, that a table of a level and everything it maps take up. -/
def State.mappedFrom (s : State) : Nat → Nat → List (Nat × Nat)
  | 0, table => [(table, 2048)]
  | level + 1, table => (table, 2048) :: (List.range 256).flatMap (fun i =>
      let e := s.entry table i
      if !bitOf e.toNat 0 then []
      else if bitOf e.toNat 1 then [(field e 55 16 * 4096, pageBytes (2 * level + (if bitOf e.toNat 8 then 1 else 0)))]
      else State.mappedFrom s level (field e 55 15 * 2048))

/-- The physical ranges in use: what every context of every partition maps and its tables, the save areas, and the pages that
move. -/
def State.rangesInUse (s : State) : List (Nat × Nat) :=
  s.parts.toList.flatMap (fun p => p.roots.flatMap (fun x => s.mappedFrom 5 x.2) ++ [(p.saveBase, p.saveSize)])
    ++ s.moves.flatMap (fun m => [(m.source, pageBytes m.size), (m.dest, pageBytes m.size)])

/-- The first frame of n bytes from a frame on, below a limit, that meets none of some ranges; fuel bounds the ranges passed. -/
def freeFrame (used : List (Nat × Nat)) (n limit : Nat) : Nat → Nat → Option Nat
  | 0, _ => none
  | fuel + 1, frame =>
    if limit < frame + n then none
    else
      match used.find? (fun x => rangesMeet frame n x.1 x.2) with
      | none => some frame
      | some x => freeFrame used n limit fuel (max (frame + n) (ceilDiv (x.1 + x.2) n * n))

/-- A free frame of a range for a page of a size: where the search for it starts is open (log entry 33); none where every frame is in
use. -/
def State.drawFrame (s : State) (base room size : Nat) : Option Nat × State :=
  let n := pageBytes size
  let used := s.rangesInUse.filter (fun x => 0 < x.2)
  let first := base + Config.freeNat s.free % (room / n) * n
  let found := match freeFrame used n (base + room) (used.length + 1) first with
    | some f => some f
    | none => freeFrame used n (base + room) (used.length + 1) base
  (if n ≤ room then found else none, { s with free := s.free + 1 })

/-- A page's move to a frame of a range begun, unless it is already moving. -/
def State.beginMove (s : State) (g : Agent) (va : Nat) (l : Leaf) (base room : Nat) (kind : MoveKind) (load : Option Word) : State :=
  if s.moving g va then s
  else
    match s.drawFrame base room l.size with
    | (none, s1) => s1
    | (some dest, s1) => { s1 with moves := s1.moves ++ [⟨g.part.val, g.ctx, pageBase va l.size, l.size, l.frame, dest, kind, load⟩] }

/-- A page's move to a frame of host memory begun (R414): no rule says what begins one (log entry 33). -/
def State.beginEvict (s : State) (g : Agent) (va frame : Nat) : State :=
  match s.walk g va with
  | .leaf l =>
    if inHbm l.frame && frame % pageBytes l.size == 0 && hostBase ≤ frame && frame + pageBytes l.size ≤ 2 ^ 52 && !s.moving g va then
      { s with moves := s.moves ++ [⟨g.part.val, g.ctx, pageBase va l.size, l.size, l.frame, frame, .migrate, none⟩] }
    else s
  | _ => s

/-- Bytes of an HBM stack (R13). -/
def stackBytes : Nat := 2 ^ 36

/-- Where the stack that serves a column of a die lies: stack 0 the lower half of the die's HBM (R137, log entry 33). -/
def stackBase (die column : Nat) : Nat := die * 2 ^ 37 + (if column < 6 then 0 else stackBytes)

/-- The migration of one page of a buffer bound to an M-class port of a column for a load (R137): which addresses a buffer has is
open to the dispatch unit (log entry 33). A hot page does not move, nor one that lies there already, nor one that an earlier binding
has taken; bound lists those, and gains this one. -/
def State.bindPage (s : State) (g : Agent) (column : Nat) (load : Word) (bound : List Nat) : List Nat × State :=
  let va := Config.freeNat s.free
  let s1 := { s with free := s.free + 1 }
  let base := stackBase g.die column
  match s1.walk g va with
  | .leaf l =>
    let page := pageBase va l.size
    if leafHot l.entry || bound.contains page then (bound, s1)
    else if base ≤ l.frame && l.frame < base + stackBytes then (page :: bound, s1)
    else (page :: bound, s1.beginMove g va l base stackBytes .migrate (some load))
  | _ => (bound, s1)

/-- The pages of the buffer bound to an M-class port, beside those that earlier bindings have taken (R137): how many is open (log
entry 33). -/
def State.bindPages (s : State) (g : Agent) (column : Nat) (load : Word) (bound : List Nat) : List Nat × State :=
  (List.range (Config.freeNat s.free)).foldl (fun acc _ => acc.2.bindPage g column load acc.1) (bound, ({ s with free := s.free + 1 } : State))

/-- Whether a load still waits for the pages of its buffers (R137). -/
def State.pagesMove (s : State) (load : Word) : Bool := s.moves.any (fun m => decide (m.forLoad = some load))

end Sys2Proof.Machine
end

