-- ==== Sys2Proof/Machine/Records.lean ====
section
/-! DEFINITION. Sys2Proof/Machine/Records.lean: the rings of a partition (R453, R454), error-log records (R383 to
R386), completion records (R387, R456 to R458), page-fault requests (R134, R135, R455). -/

namespace Sys2Proof.Machine

/-! ### Rings (R452, R453) -/

/-- A ring of a partition. -/
def Part.ring (p : Part) : RingName → Ring
  | .completion => p.cr
  | .pageFault => p.fr
  | .errorLog => p.el

/-- The partition with a ring changed. -/
def Part.setRing (p : Part) (n : RingName) (r : Ring) : Part :=
  match n with
  | .completion => { p with cr := r }
  | .pageFault => { p with fr := r }
  | .errorLog => { p with el := r }

/-- Bytes of a ring's entry (R453). -/
def ringEntry : RingName → Nat
  | .completion => 32
  | .pageFault => 32
  | .errorLog => 64

/-- C = 2^k (R453). -/
def Ring.capacity (r : Ring) : Nat := 2 ^ field r.cfg 4 0

/-- Unconsumed entries. -/
def Ring.count (r : Ring) : Nat := (r.tail - r.head).toNat

/-- A ring that holds C unconsumed entries is full (R454). -/
def Ring.full (r : Ring) : Bool := r.capacity ≤ r.count

/-- The MSI-X vector of a ring. -/
def Ring.vector (r : Ring) : Nat := field r.cfg 26 16

/-- The partition's home die: the lowest that holds one of its pairs (R351). -/
def State.homeDie (s : State) (p : Fin 16) : Nat :=
  ((List.range 4).find? (fun d => (s.part p).pairs[Fin.ofNat 4 d] ≠ 0#48)).getD 0

/-- The agent by which the device reaches a partition's rings and buffers, in the PSYSCTX context (R452). -/
def State.sysAgent (s : State) (p : Fin 16) : Agent := ⟨s.homeDie p, p, (s.part p).sysctx, false⟩

/-- A message for a ring (R453). -/
def State.ringMessage (s : State) (p : Fin 16) (n : RingName) : State :=
  let r := (s.part p).ring n
  { s.modPart p (fun x => x.setRing n { r with sinceMsg := 0, lastMsg := s.ns }) with msix := r.vector :: s.msix }

/-- Entry t written, then the tail, then its shadow (R453); the message when the ring held nothing unconsumed or 16
entries have passed. A disabled error-log ring is written, with its messages, too (R453, R454). -/
def State.ringWrite (s : State) (p : Fin 16) (n : RingName) (bytes : List Byte) : State :=
  let r := (s.part p).ring n
  let t := r.tail.toNat
  let base := r.base.toNat
  let g := s.sysAgent p
  let (_, s1) := s.virtWriteAll g (base + ringEntry n * (t % r.capacity)) bytes
  let (_, s2) := s1.virtWriteAll g (base + ringEntry n * r.capacity) (leBytes 8 ((r.tail + 1#32).toNat))
  let s3 := s2.modPart p (fun x => x.setRing n { r with tail := r.tail + 1#32, sinceMsg := r.sinceMsg + 1 })
  if r.count == 0 || 16 ≤ r.sinceMsg + 1 then s3.ringMessage p n else s3

/-! ### Error-log records (R383 to R386) -/

/-- An error-log record's fields (R383). -/
structure ErrRec where
  kind : Nat
  action : Nat
  graph : Word := 0xFFFF_FFFF#32
  unit : Word := 0xFFFF_FFFF#32
  ctx : Half := 0#16
  round : Word := 0#32
  timestamp : Word := 0#32
  stream : Word := 0xFFFF_FFFF#32
  seq : Word := 0#32
  syndrome : Nat := 0
  address : Nat := 0
  retry : Nat := 0
  eclipse : Nat := 0
  deriving DecidableEq, Repr

/-- The 64 bytes of a record (R383), with the partition byte and the time. -/
def ErrRec.bytes (e : ErrRec) (partition time : Nat) : List Byte :=
  leBytes 1 e.kind ++ leBytes 1 e.action ++ leBytes 1 partition ++ leBytes 1 0
    ++ leBytes 4 e.graph.toNat ++ leBytes 4 e.unit.toNat ++ leBytes 2 e.ctx.toNat ++ leBytes 2 0
    ++ leBytes 4 e.round.toNat ++ leBytes 4 e.timestamp.toNat ++ leBytes 4 e.stream.toNat ++ leBytes 4 e.seq.toNat
    ++ leBytes 8 e.syndrome ++ leBytes 8 time ++ leBytes 8 e.address ++ leBytes 4 e.retry
    ++ leBytes 1 e.eclipse ++ leBytes 3 0

/-- The records of tables that the device's own accesses found uncorrectable, kind 0x07, for a graph or none (R130). Fuel bounds them: a
record's own write may find another. -/
def State.logNoted (s : State) (graph : Word) : Nat → State
  | 0 => s
  | fuel + 1 =>
    match s.unlogged with
    | [] => s
    | (p, ctx, table) :: rest =>
      let (n, ts) := match s.run graph with
        | some r => (BitVec.ofNat 32 r.oldest, r.timestamp r.oldest)
        | none => (0#32, 0#32)
      let e : ErrRec := { kind := 7, action := 0, graph := graph, ctx := ctx, round := n, timestamp := ts, address := table }
      State.logNoted (({ s with unlogged := rest } : State).ringWrite (partOf p) .errorLog (e.bytes (partOf p).val s.ns)) graph fuel

/-- An entry put into a ring, with the record of a table that writing it found uncorrectable. -/
def State.ringPut (s : State) (p : Fin 16) (n : RingName) (bytes : List Byte) : State := (s.ringWrite p n bytes).logNoted noUnit 4

/-- Bytes written by the device itself for a graph or none; whether they went through (R130). -/
def State.virtPut (s : State) (g : Agent) (graph : Word) (va : Nat) (bs : List Byte) : Bool × State :=
  match s.virtWriteAll g va bs with
  | (true, s1) => (true, s1)
  | (false, s1) => (false, s1.logNoted graph 4)

/-- n bytes read by the device itself for a graph or none. -/
def State.virtGet (s : State) (g : Agent) (graph : Word) (va n : Nat) : Option (List Byte) × State :=
  match s.virtReadAll g .read va n with
  | (some bs, s1) => (some bs, s1)
  | (none, s1) => (none, s1.logNoted graph 4)

/-- A record written to a partition's error-log ring, over the oldest entry when it is full (R454); its index is the
number of records written before it (R383). -/
def State.logError (s : State) (p : Fin 16) (e : ErrRec) : Word × State :=
  ((s.part p).el.tail, s.ringPut p .errorLog (e.bytes p.val s.ns))

/-- A record written to the management log, partition byte 0xFF (R383). -/
def State.logManagement (s : State) (e : ErrRec) : State :=
  { s with mlog := s.mlog ++ [e.bytes 0xFF s.ns] }

/-- The record of a poisoned table: one per table, kind 0x07, with the round of the access that found it (R130, R383). -/
def State.logPoison (s : State) (p : Fin 16) (ctx : Half) (graph unit : Word) (round table : Nat) : State :=
  let ts := match s.run graph with
    | some r => r.timestamp round
    | none => 0#32
  (s.logError p { kind := 7, action := 0, graph := graph, unit := unit, ctx := ctx, round := BitVec.ofNat 32 round, timestamp := ts
                  address := table }).2

/-- An ECC syndrome with its store (R386): the syndrome's value is the part's own. -/
def State.drawSyndrome (s : State) (store : Nat) : Nat × State :=
  ((Config.freeWord s.free).toNat % 65536 + store * 65536, { s with free := s.free + 1 })

/-- The syndrome of an error: 0xFFFF with its store for an undecodable block (R411). -/
def State.errSyndrome (s : State) (e : MemErr) : Nat × State :=
  if e.coded then (0xFFFF + e.store * 65536, s) else s.drawSyndrome e.store

/-! ### Completion records (R387, R454, R457) -/

/-- The 32 bytes of a completion record (R387). -/
def completionBytes (graph : Word) (status : Nat) (flags : Nat) (seq round suspect log : Word) (time : Nat) : List Byte :=
  leBytes 4 graph.toNat ++ leBytes 2 status ++ leBytes 2 flags ++ leBytes 4 seq.toNat ++ leBytes 4 round.toNat
    ++ leBytes 4 suspect.toNat ++ leBytes 4 log.toNat ++ leBytes 8 time

/-- A completion record put into the ring, or kept waiting in completion order when the ring is full or disabled
(R454). The answer says whether the record is the 65th or a later one waiting, whose graph keeps its tiles. -/
def State.putCompletion (s : State) (p : Fin 16) (bytes : List Byte) : Bool × State :=
  let x := s.part p
  if x.cr.enabled && !x.cr.full && x.waiting.isEmpty then (false, s.ringPut p .completion bytes)
  else (decide (64 ≤ x.waiting.length), s.modPart p (fun y => { y with waiting := y.waiting ++ [bytes] }))

/-- Records that wait are written while the ring has room; a graph held for the 65th place keeps its tiles until its record is
written (R454, R463). Fuel bounds the records moved. -/
def State.releaseCompletions (s : State) (p : Fin 16) : Nat → State
  | 0 => s
  | fuel + 1 =>
    let x := s.part p
    match x.waiting with
    | [] => s
    | b :: bs =>
      if x.cr.enabled && !x.cr.full then
        let graph : Word := BitVec.ofNat 32 (leNat (b.take 4))
        let s1 := s.modPart p (fun y => { y with waiting := bs, heldTiles := y.heldTiles.filter (fun h => decide (h.1 ≠ graph)) })
        State.releaseCompletions (s1.ringPut p .completion b) p fuel
      else s

/-! ### Page-fault requests (R134, R135, R454, R455) -/

/-- The 32 bytes of a request (R135). -/
def PfReq.bytes (r : PfReq) : List Byte :=
  leBytes 8 r.va ++ leBytes 2 r.ctx.toNat ++ leBytes 1 r.access ++ leBytes 1 0 ++ leBytes 4 r.unit.toNat
    ++ leBytes 4 r.graph.toNat ++ leBytes 4 r.tag.toNat ++ leBytes 8 r.time

/-- Requests that wait for the page-fault ring are written, in order, while it has room (R454). -/
def State.postFaults (s : State) (p : Fin 16) : Nat → State
  | 0 => s
  | fuel + 1 =>
    let x := s.part p
    match x.faults.find? (fun r => !r.posted) with
    | none => s
    | some r =>
      if x.fr.enabled && !x.fr.full then
        let s1 := s.modPart p (fun y => { y with faults := modifyFirst y.faults (fun q => !q.posted) (fun q => { q with posted := true }) })
        State.postFaults (s1.ringPut p .pageFault r.bytes) p fuel
      else s

/-- A request posted: its tag is unique among the unresolved ones (R455). -/
def State.pageFault (s : State) (p : Fin 16) (va : Nat) (ctx : Half) (access : Nat) (unit graph : Word) : Word × State :=
  let tag := (s.part p).nextTag
  let r : PfReq := ⟨tag, va, ctx, access, unit, graph, s.ns, false⟩
  let s1 := s.modPart p (fun x => { x with faults := x.faults ++ [r], nextTag := x.nextTag + 1#32 })
  (tag, s1.postFaults p 1)

end Sys2Proof.Machine
end

