-- ==== Sys2Proof/Machine/Faults.lean ====
section
/-! DEFINITION. Sys2Proof/Machine/Faults.lean: triggers of the almanac's hooks (R354, R355), eclipses (R380, R381),
freezes (R396, R397), kills and their records (R149, R372, R373, R387), and the end of a graph. -/

namespace Sys2Proof.Machine

/-! ### Triggers (R354, R355) -/

/-- Whether two pending triggers coalesce: any two of on_dispatch, two of on_preempt with one code and subject, never
two fault deliveries (R355). -/
def Trigger.coalesces (a b : Trigger) : Bool :=
  match a.hook, b.hook with
  | .dispatch, .dispatch => true
  | .preempt, .preempt => a.code == b.code && decide (a.subject = b.subject)
  | _, _ => false

/-- A trigger made pending. -/
def State.trigger (s : State) (p : Fin 16) (hook : Hook) (code : Nat) (subject : Word) : State :=
  let t : Trigger := ⟨hook, code, subject, none⟩
  s.modPart p (fun x => if x.pending.any (fun y => y.coalesces t) then x else { x with pending := x.pending ++ [t] })

/-! ### Eclipses (R380, R381) -/

/-- The identifiers that an eclipse of a unit puts into the map: a PE's eclipse is its core's, named by PE 0; a
sequencer, a bank and a switch box stand for themselves. -/
def eclipseKey (u : Word) : Word := if field u 22 20 = 0 then u &&& 0xFFF0_0000#32 else u

/-- Whether a unit is eclipsed. -/
def State.eclipsed (s : State) (u : Word) : Bool := s.eclipse.contains (eclipseKey u)

/-- A unit eclipsed. -/
def State.addEclipse (s : State) (u : Word) : State :=
  if s.eclipsed u then s else { s with eclipse := s.eclipse ++ [eclipseKey u] }

/-- Several units eclipsed. -/
def State.addEclipses (s : State) (us : List Word) : State := us.foldl State.addEclipse s

/-- The eclipse byte of a record that eclipses a unit now (R383). -/
def State.eclipseByte (s : State) (u : Word) : Nat := if s.eclipsed u then 3 else 1

/-- Whether a compute tile's matrix core is eclipsed. -/
def State.coreEclipsed (s : State) (t : Nat) : Bool := s.eclipsed (peId t 0)

/-- Whether a compute tile's sequencer is eclipsed: the whole tile is (R380). -/
def State.seqEclipsed (s : State) (t : Nat) : Bool := s.eclipsed (seqId t)

/-- Whether a memory tile is eclipsed: any of its banks is (R380). -/
def State.mtileEclipsed (s : State) (m : Nat) : Bool :=
  (List.range 16).any (fun b => s.eclipsed (unitId (dieOf m) (memoryIndex m) 5 b))

/-- Whether a collar unit may not be bound: it or its switch box is eclipsed (R380). -/
def State.collarEclipsed (s : State) (t phys : Nat) : Bool :=
  s.eclipsed (collarId t phys) || s.eclipsed (unitId (dieOf t) (computeIndex t) 2 phys)

/-- The address generators of a memory tile that are not eclipsed, in order (R380). -/
def State.agNumbers (s : State) (m : Nat) : List Nat := (List.range 16).filter (fun a => !s.eclipsed (agId m a))

/-- Placements that the running loads hold on a memory tile (R476); they take its address generators in order (log entry 25). -/
def State.placedAgs (s : State) (m : Nat) : Nat := (s.runs.map (fun r => r.places.countP (fun p => p.mtile == m))).foldl (· + ·) 0

/-! ### The fault a hook receives (R366 rdflt) -/

/-- A fault record of a graph as it stands. -/
def Run.faultRec (r : Run) (kind status : Nat) (suspect log round : Word) (eclipsed : Bool) (flags : Byte) : FaultRec where
  kind := kind
  status := BitVec.ofNat 16 status
  graph := r.gid
  queue := r.queue
  load := r.load
  suspect := suspect
  ctx := r.ctx
  lastRound := r.lastRoundWord
  round := round
  timestamp := r.timestamp round.toNat
  relaunches := r.relaunches
  origin := r.origin
  demand := BitVec.ofNat 32 r.launch.demand.toNat
  priority := BitVec.ofNat 32 r.launch.priority.toNat
  deadline := r.launch.deadline
  log := log
  eclipsed := eclipsed
  slot := BitVec.ofNat 32 r.slot
  flags := flags

/-- The sequencer's current round: the least r of the ports it has used and not closed, else the oldest uncommitted
round of its load (R260). -/
def Run.currentRound (r : Run) (t : Nat) : Nat :=
  match minBy id ((r.ports.filter (fun x => x.tile == t && x.used && !x.closed)).map (fun x => x.round)) with
  | some n => n
  | none => r.oldest

/-! ### Ending a graph -/

/-- A sequencer that holds no load any more: the end of its part is a block boundary (R404). -/
def Seq.idle (q : Seq) : Seq := { q.boundary with mode := .idle, stall := none, held := [], sleeping := none, holding := false }

/-- A graph's tiles, windows, jobs and slot freed, minority eclipses taking effect (R112, R373, R352); tiles that it still held
trigger on_dispatch with code 0x02 (R354). -/
def State.freeRun (s : State) (r : Run) : State :=
  let s1 := r.tiles.foldl (fun acc x => acc.modTile (tileOf x.2) (fun t => { t with seq := t.seq.idle, strands := Vector.replicate 8 {} })) s
  let s2 := { s1 with mtiles := s1.mtiles.map (fun (m : MTile) => { m with windows := m.windows.filter (fun w => decide (w.graph ≠ r.gid)) }) }
  let s3 := { s2 with
    jobs := s2.jobs.filter (fun j => decide (j.graph ≠ r.gid)), vstreams := s2.vstreams.filter (fun v => decide (v.graph ≠ r.gid)) }
  let s4 := (s3.dropRun r.gid).addEclipses r.eclipseAtEnd
  let s5 := s4.modPart (partOf r.part) (fun x => { x with faults := x.faults.filter (fun f => decide (f.graph ≠ r.gid)) })
  if r.tiles.isEmpty then s5 else s5.trigger (partOf r.part) .dispatch 0x02 0xFFFF_FFFF#32

/-- Completion record of a graph, and its slot, tiles and windows freed; the 65th record waiting keeps the tiles held
(R387, R454). -/
def State.completeRun (s : State) (r : Run) (status : Nat) (flagsHigh : Byte) : State :=
  let bytes := completionBytes r.gid status (r.flags.toNat + 256 * flagsHigh.toNat) r.launch.seq r.lastRoundWord r.suspect r.log s.ns
  let (held, s1) := s.putCompletion (partOf r.part) bytes
  let s2 := s1.freeRun r
  if held then s2.modPart (partOf r.part) (fun x => { x with heldTiles := x.heldTiles ++ [(r.gid, r.tiles.map (fun y => y.2))] })
  else s2

/-- The completion record of a graph whose load is saved: the save is discarded, and the graph leaves the resume queue
(R353, R367). -/
def State.completeSaved (s : State) (r : Run) (status : Nat) (flagsHigh : Byte) : State :=
  let p := partOf r.part
  let bytes := completionBytes r.gid status (r.flags.toNat + 256 * flagsHigh.toNat) r.launch.seq r.lastRoundWord r.suspect r.log s.ns
  let s1 := (s.putCompletion p bytes).2
  { s1 with saved := s1.saved.filter (fun x => decide (x.run.gid ≠ r.gid)) }.modPart p (fun x => { x with
    resume := x.resume.filter (fun e => decide (e.graph ≠ r.gid)), faults := x.faults.filter (fun y => decide (y.graph ≠ r.gid)) })

/-- What a kill discards: buffered stores of every uncommitted round, pending launches, jobs, and a record of a debug
hold or save; an overflowed round that has begun to write leaves the partial-round flag (R149, R150, R268, R434). -/
def Run.discard (r : Run) : Run :=
  let partialRound := r.rounds.any (fun x => x.number == r.oldest && x.writing)
  { r with
    stores := []
    launches := []
    replays := []
    flags := if partialRound then r.flags ||| 0x80#8 else r.flags }

/-- kill_report: the graph's completion record is written with its fault status (R359); a graph that has already
completed has no record left to write. A save of the graph is discarded (R367). -/
def State.killReport (s : State) (f : FaultRec) : State :=
  match s.run f.graph, s.saved.find? (fun x => decide (x.run.gid = f.graph)) with
  | some r, _ => s.completeRun r.discard f.status.toNat f.flags
  | none, some v => s.completeSaved v.run.discard f.status.toNat f.flags
  | none, none => s

/-- A fault delivered to on_fault: never coalesced; a 65th waiting one is decided by kill_report at once (R355). -/
def State.deliverFault (s : State) (p : Fin 16) (f : FaultRec) : State :=
  if 64 ≤ ((s.part p).pending.filter (fun x => decide (x.hook = .fault))).length then s.killReport f
  else s.modPart p (fun x => { x with pending := x.pending ++ [⟨.fault, 0x21, f.slot, some f⟩] })

/-! ### Freezes and kills (R73, R149, R372, R396) -/

/-- A freeze of a load is requested (R396). -/
def State.requestFreeze (s : State) (g : Word) (why : FreezeReason) : State :=
  s.modRun g (fun r => { r with freeze := some why, frozen := false })

/-- A kill with a status, without eclipse or record of its own: the load freezes and on_fault receives the fault
(R372, R391); its suspect and record are those of the graph's most recent kill (R387). A graph already killed is not delivered
twice (R388). -/
def State.killWith (s : State) (g : Word) (kind status : Nat) (suspect log round : Word) (eclipsed : Bool) (flags : Byte) : State :=
  match s.run g with
  | none => s
  | some r =>
    if r.faulted then s
    else
      let r1 := { r.discard with suspect := suspect, log := log }
      let f := r1.faultRec kind status suspect log round eclipsed flags
      let r2 := { r1 with freeze := some .kill, frozen := false, fault := some f, killNs := some s.ns }
      let s1 := { s.modRun g (fun _ => r2) with jobs := s.jobs.filter (fun j => decide (j.graph ≠ g)) }
      s1.deliverFault (partOf r.part) f

/-- A kill with no unit suspected and no record: a supervisor routine's, the host's, a link's (R391, R392, R462). -/
def State.kill (s : State) (g : Word) (status : Nat) (flags : Byte) : State :=
  match s.run g with
  | none => s
  | some r => s.killWith g 0 status noUnit 0xFFFF_FFFF#32 (BitVec.ofNat 32 r.oldest) false flags

/-- Of mismatches that are detected at one time the lowest unit identifier is the suspect (R388). -/
def State.tieKill (s : State) (g : Word) (f : FaultRec → FaultRec) (suspect log : Word) : State :=
  match s.run g with
  | none => s
  | some r =>
    if decide (r.killNs = some s.ns) && decide (r.freeze = some .kill) && decide (suspect.toNat < r.suspect.toNat) then
      (s.modRun g (fun x => { x with suspect := suspect, log := log, fault := x.fault.map f })).modPart (partOf r.part) (fun x => { x with
        pending := x.pending.map (fun y => { y with fault := y.fault.map (fun z => if z.graph = g then f z else z) }) })
    else s

/-- A kill that a record describes: the record is written, the units eclipsed, then on_fault receives it (R372). The
first record of a freeze is the suspect's, and each later one is written too (R388). -/
def State.killLogged (s : State) (g : Word) (status : Nat) (e : ErrRec) (eclipse : List Word) : State :=
  match s.run g with
  | none => s
  | some r =>
    let byte := if eclipse.isEmpty then 0 else s.eclipseByte e.unit
    let e1 := { e with graph := g, ctx := r.ctx, eclipse := byte, action := if eclipse.isEmpty then 4 else 5, timestamp := r.timestamp e.round.toNat }
    let (i, s1) := s.logError (partOf r.part) e1
    if r.faulted then
      (s1.addEclipses eclipse).tieKill g (fun f => { f with
        kind := e.kind, status := BitVec.ofNat 16 status, suspect := e.unit, log := i, eclipsed := !eclipse.isEmpty }) e.unit i
    else (s1.addEclipses eclipse).killWith g e.kind status e.unit i e.round (!eclipse.isEmpty) 0#8

/-- A freeze that goes to on_fault with the state left in place: punctuation, deadlock (R98, R104). A load on its way to a save
is saved first (R367). -/
def State.freezeFault (s : State) (g : Word) (why : FreezeReason) (kind status : Nat) (log round : Word) : State :=
  match s.run g with
  | none => s
  | some r =>
    if r.faulted then s
    else
      let f := r.faultRec kind status noUnit log round false 0#8
      let s1 := s.modRun g (fun x => if x.freeze = some .preempt || x.freeze = some .pageFault then { x with fault := some f }
        else { x with freeze := some why, frozen := false, fault := some f })
      s1.deliverFault (partOf r.part) f

/-- The punctuation fault (R98). -/
def State.punctuationFault (s : State) (g : Word) (round : Nat) : State :=
  s.freezeFault g .punctuation 0 5 0xFFFF_FFFF#32 (BitVec.ofNat 32 round)

/-- The timestamp fault (R141): the load freezes once the rounds before it have committed, and on_fault receives the fault
then. -/
def State.timestampFault (s : State) (g : Word) (round : Nat) : State :=
  s.modRun g (fun r => if r.fault.isSome then r else { r with
    freeze := some .timestamp, frozen := false
    fault := some (r.faultRec 0 6 noUnit 0xFFFF_FFFF#32 (BitVec.ofNat 32 round) false 0#8) })

/-! ### Protection of a sequencer (R221, R370, R372, R373) -/

/-- What comparing or voting over an instruction's copies answers: the value all or most agree on, given as the error
that the primary's value carries, with whether a minority was corrected; or a mismatch. -/
inductive Vote where
  | agreed (err : DWord)
  | minority (err : DWord)
  | mismatch
  | noMajority
  deriving DecidableEq, Repr

/-- The vote of a class over the errors of the three ALUs (R178, R221, R370). -/
def vote (p : BitVec 2) (e : Vector DWord 3) : Vote :=
  if p = 1#2 then if e[0] = e[1] then .agreed e[0] else .mismatch
  else if p = 2#2 then
    if e[0] = e[1] then if e[2] = e[0] then .agreed e[0] else .minority e[0]
    else if e[0] = e[2] || e[1] = e[2] then .minority e[2]
    else .noMajority
  else .agreed e[0]

/-- A sequencer's dual mismatch or vote without a majority: the graph is killed and the tile eclipsed (R221, R372).
point is the comparison point of R386: 4 writeback, 5 request. -/
def State.seqMismatch (s : State) (kind point : Nat) : State :=
  let t := s.cur.val
  match s.runOfTile t with
  | none => s
  | some r =>
    s.killLogged r.gid 2
      { kind := kind, action := 5, unit := seqId t, round := BitVec.ofNat 32 (r.currentRound t), syndrome := 0xFFFF_FFFF + point * 2 ^ 32 }
      [seqId t]

/-- A sequencer's corrected minority: logged as kind 0x03; a second within 10^9 cycles schedules the eclipse; the
sequencer then takes cause 0x07 with the record's index (R373, R389). -/
def State.seqMinority (s : State) (point : Nat) : State :=
  let t := s.cur.val
  let now := s.tileCycles t
  let second := match s.me.minority with
    | some c => decide (now - c < 10 ^ 9)
    | none => false
  match s.runOfTile t with
  | none => s
  | some r =>
    let (i, s1) := s.logError (partOf r.part)
      { kind := 3, action := 1, graph := r.gid, unit := seqId t, ctx := r.ctx, round := BitVec.ofNat 32 (r.currentRound t),
        timestamp := r.timestamp (r.currentRound t), eclipse := if s.eclipsed (seqId t) then 3 else if second then 2 else 0,
        syndrome := (seqId t).toNat + point * 2 ^ 32 + (if second then 2 else 1) * 2 ^ 40 }
    let s2 := s1.modMe (fun q => { q with minority := some now })
    let s3 := if second then s2.modRun r.gid (fun x => { x with eclipseAtEnd := seqId t :: x.eclipseAtEnd }) else s2
    s3.holdTrap s.cur 7 (i.setWidth 64)

/-- The ALU errors spent by the instruction (log entry 6). -/
def State.clearUpsets (s : State) : State := s.modMe (fun q => { q with aluErr := Vector.replicate 3 0#64 })

/-- The errors of a reply's value spent by the instruction (log entry 6). -/
def State.clearLate (s : State) : State := s.modMe (fun q => { q with lateErr := Vector.replicate 3 0#64 })

/-- What a comparison leaves: f receives the error that the agreed value carries; with a mismatch there is no effect (R221,
R369). -/
def State.judged (s : State) (v : Vote) (point : Nat) (f : DWord → State → State) : State :=
  match v with
  | .agreed e => f e s
  | .minority e => State.seqMinority (f e s) point
  | .mismatch => s.seqMismatch 2 point
  | .noMajority => s.seqMismatch 4 point

/-- An instruction's effect under its class: f receives the error that the agreed value carries, 0 when no ALU was
disturbed (R221, R369). -/
def State.guarded (s : State) (p : BitVec 2) (point : Nat) (f : DWord → State → State) : State :=
  s.clearUpsets.judged (vote p s.me.aluErr) point f

/-- The second comparison of an instruction that waits for a reply: the value written, at writeback (R221, R250). -/
def State.guardedValue (s : State) (p : BitVec 2) (f : DWord → State → State) : State :=
  s.clearLate.judged (vote p s.me.lateErr) 4 f

end Sys2Proof.Machine
end

