-- ==== Sys2Proof/Machine/Almanac.lean ====
section
/-! DEFINITION. Sys2Proof/Machine/Almanac.lean: the almanac's registers, arithmetic, control flow and view reads (R356, R361,
R365, R366). A step on which no invocation of the partition runs changes nothing. -/

namespace Sys2Proof.Machine

/-- An almanac register. -/
def Invocation.rd (v : Invocation) (n : BitVec 3) : Word := v.regs[n.toFin]

/-- An almanac register written. -/
def Invocation.wr (v : Invocation) (n : BitVec 3) (x : Word) : Invocation := { v with regs := v.regs.set n.toFin x }

/-- The invocation after n code words and a cycle (R361). -/
def Invocation.advance (v : Invocation) (n : Nat) : Invocation := { v with pc := v.pc + n, cycles := v.cycles + 1 }

/-- The invocation that is executing. -/
def State.invocation (s : State) : Option Invocation := (s.part s.curPart).inv

/-- The state with the executing invocation changed. -/
def State.modInv (s : State) (f : Invocation → Invocation) : State :=
  s.modPart s.curPart (fun p => { p with inv := p.inv.map f })

/-- An almanac instruction: what it does to the invocation. Fields that R202 or R366 reserves stand in no accepted
almanac. -/
def almInstr (i : Instr) (f : Invocation → Invocation) (s : State) : Host.Outcome State Fault Refusal :=
  .next (if i.wf then s.modInv f else s)

/-- An instruction of n words that writes a register. -/
def almWrite (i : Instr) (n : Nat) (d : BitVec 3) (value : Invocation → Word) (s : State) : Host.Outcome State Fault Refusal :=
  almInstr i (fun v => (v.wr d (value v)).advance n) s

/-! ### Arithmetic (R365) -/

/-- add. -/
def execAlmAdd (d a b : BitVec 3) (s : State) : Host.Outcome State Fault Refusal :=
  almWrite (.almAdd d a b) 1 d (fun v => v.rd a + v.rd b) s

/-- sub. -/
def execAlmSub (d a b : BitVec 3) (s : State) : Host.Outcome State Fault Refusal :=
  almWrite (.almSub d a b) 1 d (fun v => v.rd a - v.rd b) s

/-- and. -/
def execAlmAnd (d a b : BitVec 3) (s : State) : Host.Outcome State Fault Refusal :=
  almWrite (.almAnd d a b) 1 d (fun v => v.rd a &&& v.rd b) s

/-- or. -/
def execAlmOr (d a b : BitVec 3) (s : State) : Host.Outcome State Fault Refusal :=
  almWrite (.almOr d a b) 1 d (fun v => v.rd a ||| v.rd b) s

/-- xor. -/
def execAlmXor (d a b : BitVec 3) (s : State) : Host.Outcome State Fault Refusal :=
  almWrite (.almXor d a b) 1 d (fun v => v.rd a ^^^ v.rd b) s

/-- shl: rd(a) × 2^(rd(b)[4:0]). -/
def execAlmShl (d a b : BitVec 3) (s : State) : Host.Outcome State Fault Refusal :=
  almWrite (.almShl d a b) 1 d (fun v => v.rd a <<< field (v.rd b) 4 0) s

/-- shr, logical. -/
def execAlmShr (d a b : BitVec 3) (s : State) : Host.Outcome State Fault Refusal :=
  almWrite (.almShr d a b) 1 d (fun v => v.rd a >>> field (v.rd b) 4 0) s

/-- min, unsigned. -/
def execAlmMin (d a b : BitVec 3) (s : State) : Host.Outcome State Fault Refusal :=
  almWrite (.almMin d a b) 1 d (fun v => if (v.rd a).toNat ≤ (v.rd b).toNat then v.rd a else v.rd b) s

/-- max, unsigned. -/
def execAlmMax (d a b : BitVec 3) (s : State) : Host.Outcome State Fault Refusal :=
  almWrite (.almMax d a b) 1 d (fun v => if (v.rd a).toNat ≤ (v.rd b).toNat then v.rd b else v.rd a) s

/-- mul: the low 32 bits. -/
def execAlmMul (d a b : BitVec 3) (s : State) : Host.Outcome State Fault Refusal :=
  almWrite (.almMul d a b) 1 d (fun v => v.rd a * v.rd b) s

/-- sltu. -/
def execAlmSltu (d a b : BitVec 3) (s : State) : Host.Outcome State Fault Refusal :=
  almWrite (.almSltu d a b) 1 d (fun v => if (v.rd a).toNat < (v.rd b).toNat then 1#32 else 0#32) s

/-- slt, signed. -/
def execAlmSlt (d a b : BitVec 3) (s : State) : Host.Outcome State Fault Refusal :=
  almWrite (.almSlt d a b) 1 d (fun v => if (v.rd a).toInt < (v.rd b).toInt then 1#32 else 0#32) s

/-- seq. -/
def execAlmSeq (d a b : BitVec 3) (s : State) : Host.Outcome State Fault Refusal :=
  almWrite (.almSeq d a b) 1 d (fun v => if v.rd a = v.rd b then 1#32 else 0#32) s

/-- csel: rd(a) where rd(d) is not 0, else rd(b). -/
def execAlmCsel (d a b : BitVec 3) (s : State) : Host.Outcome State Fault Refusal :=
  almWrite (.almCsel d a b) 1 d (fun v => if v.rd d ≠ 0#32 then v.rd a else v.rd b) s

/-- addi: the extension word, sign-extended. -/
def execAlmAddi (d a : BitVec 3) (x : BitVec 16) (s : State) : Host.Outcome State Fault Refusal :=
  almWrite (.almAddi d a x) 2 d (fun v => v.rd a + x.signExtend 32) s

/-- li: the extension word, sign-extended. -/
def execAlmLi (d : BitVec 3) (x : BitVec 16) (s : State) : Host.Outcome State Fault Refusal :=
  almWrite (.almLi d x) 2 d (fun _ => x.signExtend 32) s

/-- lih: the upper half; the lower half is kept. -/
def execAlmLih (d : BitVec 3) (x : BitVec 16) (s : State) : Host.Outcome State Fault Refusal :=
  almWrite (.almLih d x) 2 d (fun v => x ++ (v.rd d).extractLsb' 0 16) s

/-- mov. -/
def execAlmMov (d a : BitVec 3) (s : State) : Host.Outcome State Fault Refusal :=
  almWrite (.almMov d a) 1 d (fun v => v.rd a) s

/-- popc. -/
def execAlmPopc (d a : BitVec 3) (s : State) : Host.Outcome State Fault Refusal :=
  almWrite (.almPopc d a) 1 d (fun v => BitVec.ofNat 32 (popCount 32 (v.rd a).toNat)) s

/-- ffs: the lowest set bit, or 32. -/
def execAlmFfs (d a : BitVec 3) (s : State) : Host.Outcome State Fault Refusal :=
  almWrite (.almFfs d a) 1 d (fun v => BitVec.ofNat 32 (trailingZeros 32 (v.rd a).toNat)) s

/-! ### Control flow (R365) -/

/-- A branch taken: the target is the address after it plus off7; every loop whose body it leaves ends. -/
def Invocation.branch (v : Invocation) (off : BitVec 7) : Invocation :=
  let t := v.pc + 1 + off.toNat
  { v with pc := t, cycles := v.cycles + 1, loops := v.loops.filter (fun l => l.1 ≤ t && t < l.2.1) }

/-- bz. -/
def execAlmBz (o : BitVec 7) (a : BitVec 3) (s : State) : Host.Outcome State Fault Refusal :=
  almInstr (.almBz o a) (fun v => if v.rd a = 0#32 then v.branch o else v.advance 1) s

/-- bnz. -/
def execAlmBnz (o : BitVec 7) (a : BitVec 3) (s : State) : Host.Outcome State Fault Refusal :=
  almInstr (.almBnz o a) (fun v => if v.rd a ≠ 0#32 then v.branch o else v.advance 1) s

/-- jmp. -/
def execAlmJmp (o : BitVec 7) (s : State) : Host.Outcome State Fault Refusal :=
  almInstr (.almJmp o) (fun v => v.branch o) s

/-- The word after the endl that closes the loop whose body starts at a word: open counts the loops nested in it. -/
def afterEndl (code : List Half) : Nat → Nat → Nat → Nat
  | 0, at_, _ => at_
  | n + 1, at_, opened =>
    match code[at_]? with
    | none => at_
    | some w =>
      let op := field w 15 10
      if op = 0x1B then afterEndl code n (at_ + 1) (opened + 1)
      else if op = 0x1C then (if opened = 0 then at_ + 1 else afterEndl code n (at_ + 1) (opened - 1))
      else afterEndl code n (at_ + (if almanacExt w then 2 else 1)) opened

/-- The code of the executing invocation's almanac. -/
def State.almCode (s : State) : List Half :=
  match (s.part s.curPart).almanac with
  | some a => a.code
  | none => []

/-- loop.n: the body runs k + 1 times. -/
def execAlmLoopN (k : BitVec 4) (s : State) : Host.Outcome State Fault Refusal :=
  let code := s.almCode
  almInstr (.almLoopN k) (fun v =>
    { v.advance 1 with loops := (v.pc + 1, afterEndl code code.length (v.pc + 1) 0, k.toNat) :: v.loops }) s

/-- endl: the innermost open loop goes on at its body, or ends. -/
def execAlmEndl (s : State) : Host.Outcome State Fault Refusal :=
  almInstr .almEndl (fun v =>
    match v.loops with
    | (start, after, n + 1) :: ls => { v with pc := start, cycles := v.cycles + 1, loops := (start, after, n) :: ls }
    | _ :: ls => { v.advance 1 with loops := ls }
    | [] => v.advance 1) s

/-! ### Views (R356, R366) -/

/-- A view read: a cycle, and as many more as its fetch and arbitration take, which no rule bounds (R361). -/
def viewInstr (i : Instr) (d : BitVec 3) (value : Invocation → Word) (s : State) : Host.Outcome State Fault Refusal :=
  almInstr i (fun v => { (v.wr d (value v)).advance 1 with cycles := v.cycles + 1 + Config.freeNat s.free }) { s with free := s.free + 1 }

/-- A field of a head (R366 rdh). -/
def HeadView.field (h : HeadView) (now : Nat) (f : Nat) : Word :=
  match f with
  | 0 => 1#32
  | 1 => h.priority
  | 2 => h.deadline
  | 3 => h.demand
  | 4 => BitVec.ofNat 32 (min (now - h.since) (2 ^ 32 - 1))
  | 5 => h.seq
  | _ => if h.resume then 1#32 else 0#32

/-- A field of a running slot (R366 rdrun). -/
def RunView.field (r : RunView) (now : Nat) (f : Nat) : Word :=
  match f with
  | 0 => 1#32
  | 1 => r.graph
  | 2 => r.priority
  | 3 => r.deadline
  | 4 => r.origin
  | 5 => r.demand
  | 6 => BitVec.ofNat 32 (now - r.since)
  | _ => BitVec.ofNat 32 r.state

/-- A field of a fault record (R366 rdflt). -/
def FaultRec.field (x : FaultRec) (f : Nat) : Word :=
  match f with
  | 0 => BitVec.ofNat 32 x.kind
  | 1 => x.status.setWidth 32
  | 2 => x.graph
  | 3 => BitVec.ofNat 32 (x.queue + x.load * 65536)
  | 4 => x.suspect
  | 5 => x.ctx.setWidth 32
  | 6 => x.lastRound
  | 7 => x.round
  | 8 => x.timestamp
  | 9 => BitVec.ofNat 32 x.relaunches
  | 10 => x.origin
  | 11 => x.demand
  | 12 => x.priority
  | 13 => x.deadline
  | 14 => x.log
  | _ => if x.eclipsed then 1#32 else 0#32

/-- The hook's number (R366 rdinv). -/
def Hook.number : Hook → Nat
  | .dispatch => 0
  | .preempt => 1
  | .fault => 2

/-- A field of the invocation (R366 rdinv). -/
def Invocation.field (v : Invocation) (f : Nat) : Word :=
  match f with
  | 0 => BitVec.ofNat 32 v.trigger.hook.number
  | 1 => BitVec.ofNat 32 v.trigger.code
  | 2 => v.trigger.subject
  | 3 => BitVec.ofNat 32 v.view.now
  | 4 => BitVec.ofNat 32 v.view.overruns
  | 5 => v.view.generation
  | _ => v.view.invocations

/-- 32 bits of a 192-bit map. -/
def mapWord (m : BitVec 192) (n : Nat) : Word := BitVec.ofNat 32 (m.toNat / 2 ^ (32 * n))

/-- rdq. -/
def execAlmRdq (d a : BitVec 3) (s : State) : Host.Outcome State Fault Refusal :=
  viewInstr (.almRdq d a) d (fun v => v.view.depths.getD (v.rd a).toNat 0#32) s

/-- rdh. -/
def execAlmRdh (d a : BitVec 3) (f : BitVec 4) (s : State) : Host.Outcome State Fault Refusal :=
  viewInstr (.almRdh d a f) d (fun v =>
    match v.view.heads[(v.rd a).toNat]? with
    | some (some h) => h.field v.view.now f.toNat
    | _ => 0#32) s

/-- rdfree. -/
def execAlmRdfree (d a : BitVec 3) (s : State) : Host.Outcome State Fault Refusal :=
  viewInstr (.almRdfree d a) d (fun v => if (v.rd a).toNat ≤ 5 then mapWord v.view.free (v.rd a).toNat else 0#32) s

/-- rdquota. -/
def execAlmRdquota (d : BitVec 3) (f : BitVec 4) (s : State) : Host.Outcome State Fault Refusal :=
  viewInstr (.almRdquota d f) d (fun v => v.view.quota.getD f.toNat 0#32) s

/-- rdecl. -/
def execAlmRdecl (d a : BitVec 3) (s : State) : Host.Outcome State Fault Refusal :=
  viewInstr (.almRdecl d a) d (fun v =>
    let n := (v.rd a).toNat
    if n ≤ 5 then mapWord v.view.eclCore n else if n ≤ 11 then mapWord v.view.eclSeq (n - 6) else 0#32) s

/-- rdflt. -/
def execAlmRdflt (d : BitVec 3) (f : BitVec 4) (s : State) : Host.Outcome State Fault Refusal :=
  viewInstr (.almRdflt d f) d (fun v =>
    match v.trigger.fault with
    | some x => x.field f.toNat
    | none => 0#32) s

/-- rdp: a persistent word as the last end or swap left it. -/
def execAlmRdp (d : BitVec 3) (f : BitVec 4) (s : State) : Host.Outcome State Fault Refusal :=
  let w := (s.part s.curPart).persist[f.toFin]
  viewInstr (.almRdp d f) d (fun _ => w) s

/-- wrp: it takes effect at end (R361). -/
def execAlmWrp (a : BitVec 3) (f : BitVec 4) (s : State) : Host.Outcome State Fault Refusal :=
  almInstr (.almWrp a f) (fun v => { v.advance 1 with writes := v.writes ++ [(f.toNat, v.rd a)] }) s

/-- rdinv. -/
def execAlmRdinv (d : BitVec 3) (f : BitVec 4) (s : State) : Host.Outcome State Fault Refusal :=
  viewInstr (.almRdinv d f) d (fun v => v.field f.toNat) s

/-- rdrun. -/
def execAlmRdrun (d a : BitVec 3) (f : BitVec 4) (s : State) : Host.Outcome State Fault Refusal :=
  viewInstr (.almRdrun d a f) d (fun v =>
    match v.view.runs[(v.rd a).toNat]? with
    | some (some r) => r.field v.view.now f.toNat
    | _ => 0#32) s

end Sys2Proof.Machine
end

