-- ==== Sys2Proof/Machine/Inflate.lean ====
section
/-! DEFINITION. Sys2Proof/Machine/Inflate.lean: the decompression formats of R431: the LZ4 block format, Deflate, and
Deflate in the RFC 1950 wrapper. Each decoder answers the output bytes and the status code of R427. -/

namespace Sys2Proof.Machine

/-! ### LZ4 blocks -/

/-- A length that goes on in bytes of 255: the length and the rest; none where the input ends. -/
def lz4More : Nat → List Byte → Option (Nat × List Byte)
  | _, [] => none
  | v, b :: bs => if b = 0xFF#8 then lz4More (v + 255) bs else some (v + b.toNat, bs)

/-- n bytes copied from off back in the output, byte by byte. -/
def copyBack (off : Nat) : Nat → List Byte → List Byte
  | 0, out => out
  | n + 1, out => copyBack off n (out ++ [out.getD (out.length - off) 0#8])

/-- Sequences of an LZ4 block; fuel bounds them. -/
def lz4Go (cap : Nat) : Nat → List Byte → List Byte → List Byte × Nat
  | 0, _, out => (out, 3)
  | _, [], out => (out, 3)
  | fuel + 1, tok :: bs, out =>
    let lit := tok.toNat / 16
    match (if lit = 15 then lz4More 15 bs else some (lit, bs)) with
    | none => (out, 3)
    | some (n, bs1) =>
      if bs1.length < n then (out, 3)
      else
        let out1 := out ++ bs1.take n
        let bs2 := bs1.drop n
        if cap < out1.length then (out1.take cap, 4)
        else
          match bs2 with
          | [] => (out1, 0)
          | [_] => (out1, 3)
          | lo :: hi :: bs3 =>
            let off := lo.toNat + 256 * hi.toNat
            if off = 0 || out1.length < off then (out1, 3)
            else
              let m := tok.toNat % 16
              match (if m = 15 then lz4More 15 bs3 else some (m, bs3)) with
              | none => (out1, 3)
              | some (k, bs4) =>
                let out2 := copyBack off (k + 4) out1
                if cap < out2.length then (out2.take cap, 4) else lz4Go cap fuel bs4 out2

/-- An LZ4 block decoded into at most cap bytes. -/
def lz4Block (input : List Byte) (cap : Nat) : List Byte × Nat := lz4Go cap (input.length + 1) input []

/-! ### Deflate -/

/-- A position in the input: the bits as a number, least significant first, how many there are, and the next one. -/
structure BitsIn where
  value : Nat
  count : Nat
  pos : Nat

/-- n bits as a number; none where the input ends. -/
def BitsIn.take (b : BitsIn) (n : Nat) : Option (Nat × BitsIn) :=
  if b.count < b.pos + n then none else some (b.value / 2 ^ b.pos % 2 ^ n, { b with pos := b.pos + n })

/-- A canonical Huffman code: the symbols with their lengths. -/
abbrev HuffCode := List (Nat × Nat)

/-- The code that lengths by symbol define. -/
def codeOf (lens : List Nat) : HuffCode := (List.range lens.length).filterMap (fun s => let n := lens.getD s 0; if n = 0 then none else some (s, n))

/-- Codes of a length. -/
def HuffCode.countLen (c : HuffCode) (n : Nat) : Nat := (c.filter (fun x => x.2 == n)).length

/-- What is left of the code space of 15 bits, as an integer; negative where the lengths claim too much. -/
def HuffCode.left (c : HuffCode) : Int := (2 ^ 15 : Nat) - (((c.map (fun x => 2 ^ (15 - x.2))).foldl (· + ·) 0 : Nat) : Int)

/-- Whether a set of lengths may be used: complete, or one code of one bit where single is allowed, or none at all
where empty is. -/
def HuffCode.usable (c : HuffCode) (single empty : Bool) : Bool :=
  decide (c.left = 0) || (single && decide (0 < c.left) && c.all (fun x => x.2 == 1) && !c.isEmpty) || (empty && c.isEmpty)

/-- A symbol decoded bit by bit: code, first and index are those of the canonical construction (RFC 1951, 3.2.2). -/
def HuffCode.symbol (c : HuffCode) : Nat → Nat → Nat → Nat → BitsIn → Option (Nat × BitsIn)
  | 0, _, _, _, _ => none
  | fuel + 1, len, code, first, b =>
    match b.take 1 with
    | none => none
    | some (bit, b1) =>
      let code := code + bit
      let n := c.countLen len
      if code < first + n && first ≤ code then ((c.filter (fun x => x.2 == len))[code - first]?).map (fun x => (x.1, b1))
      else HuffCode.symbol c fuel (len + 1) (2 * code) (2 * (first + n)) b1

/-- The next symbol of a code. -/
def HuffCode.next (c : HuffCode) (b : BitsIn) : Option (Nat × BitsIn) := c.symbol 15 1 0 0 b

/-- Base of a length symbol from 257 on. -/
def lenBase : List Nat := [3, 4, 5, 6, 7, 8, 9, 10, 11, 13, 15, 17, 19, 23, 27, 31, 35, 43, 51, 59, 67, 83, 99, 115, 131, 163, 195, 227, 258]
/-- Extra bits of a length symbol. -/
def lenExtra : List Nat := [0, 0, 0, 0, 0, 0, 0, 0, 1, 1, 1, 1, 2, 2, 2, 2, 3, 3, 3, 3, 4, 4, 4, 4, 5, 5, 5, 5, 0]
/-- Base of a distance symbol. -/
def distBase : List Nat := [1, 2, 3, 4, 5, 7, 9, 13, 17, 25, 33, 49, 65, 97, 129, 193, 257, 385, 513, 769, 1025, 1537, 2049, 3073, 4097, 6145,
  8193, 12289, 16385, 24577]
/-- Extra bits of a distance symbol. -/
def distExtra (s : Nat) : Nat := if s < 4 then 0 else s / 2 - 1

/-- The fixed literal and length code. -/
def fixedLit : HuffCode := codeOf (List.replicate 144 8 ++ List.replicate 112 9 ++ List.replicate 24 7 ++ List.replicate 8 8)
/-- The fixed distance code. -/
def fixedDist : HuffCode := codeOf (List.replicate 32 5)

/-- How a block ends: with the position after it and the output, or with a status. -/
inductive BlockEnd where
  | ok (b : BitsIn) (out : List Byte)
  | stop (out : List Byte) (status : Nat)

/-- The symbols of a compressed block; fuel bounds them. -/
def inflateCodes (lit dist : HuffCode) (cap : Nat) : Nat → BitsIn → List Byte → BlockEnd
  | 0, _, out => .stop out 3
  | fuel + 1, b, out =>
    match lit.next b with
    | none => .stop out 3
    | some (s, b1) =>
      if s < 256 then
        let out1 := out ++ [BitVec.ofNat 8 s]
        if cap < out1.length then .stop (out1.take cap) 4 else inflateCodes lit dist cap fuel b1 out1
      else if s = 256 then .ok b1 out
      else if 285 < s then .stop out 3
      else
        match b1.take (lenExtra.getD (s - 257) 0) with
        | none => .stop out 3
        | some (x, b2) =>
          let n := lenBase.getD (s - 257) 0 + x
          match dist.next b2 with
          | none => .stop out 3
          | some (d, b3) =>
            if 29 < d then .stop out 3
            else
              match b3.take (distExtra d) with
              | none => .stop out 3
              | some (y, b4) =>
                let off := distBase.getD d 0 + y
                if out.length < off then .stop out 3
                else
                  let out1 := copyBack off n out
                  if cap < out1.length then .stop (out1.take cap) 4 else inflateCodes lit dist cap fuel b4 out1

/-- A stored block. -/
def inflateStored (cap : Nat) (b : BitsIn) (out : List Byte) : BlockEnd :=
  let b0 := { b with pos := (b.pos + 7) / 8 * 8 }
  match b0.take 16 with
  | none => .stop out 3
  | some (n, b1) =>
    match b1.take 16 with
    | none => .stop out 3
    | some (m, b2) =>
      if n + m ≠ 65535 then .stop out 3
      else
        let have_ := min n ((b2.count - b2.pos) / 8)
        let out1 := out ++ (List.range have_).map (fun i => BitVec.ofNat 8 (b2.value / 2 ^ (b2.pos + 8 * i)))
        if cap < out1.length then .stop (out1.take cap) 4
        else if have_ < n then .stop out1 3
        else .ok { b2 with pos := b2.pos + 8 * n } out1

/-- Code lengths of a dynamic block, run-length coded; fuel bounds them. -/
def readLengths (c : HuffCode) (total : Nat) : Nat → BitsIn → List Nat → Option (List Nat × BitsIn)
  | 0, _, _ => none
  | fuel + 1, b, acc =>
    if acc.length = total then some (acc, b)
    else if total < acc.length then none
    else
      match c.next b with
      | none => none
      | some (s, b1) =>
        if s < 16 then readLengths c total fuel b1 (acc ++ [s])
        else
          let (bits, base) := if s = 16 then (2, 3) else if s = 17 then (3, 3) else (7, 11)
          match b1.take bits with
          | none => none
          | some (x, b2) =>
            if s = 16 && acc.isEmpty then none
            else readLengths c total fuel b2 (acc ++ List.replicate (base + x) (if s = 16 then acc.getLastD 0 else 0))

/-- n code lengths of three bits. -/
def readSmall : Nat → BitsIn → List Nat → Option (List Nat × BitsIn)
  | 0, b, acc => some (acc, b)
  | n + 1, b, acc =>
    match b.take 3 with
    | none => none
    | some (x, b1) => readSmall n b1 (acc ++ [x])

/-- The order in which code-length lengths stand. -/
def lengthOrder : List Nat := [16, 17, 18, 0, 8, 7, 9, 6, 10, 5, 11, 4, 12, 3, 13, 2, 14, 1, 15]

/-- The two codes of a dynamic block. -/
def readDynamic (b : BitsIn) : Option (HuffCode × HuffCode × BitsIn) :=
  match b.take 14 with
  | none => none
  | some (h, b1) =>
    let nlit := h % 32 + 257; let ndist := h / 32 % 32 + 1; let ncode := h / 1024 + 4
    if 286 < nlit then none
    else
      match readSmall ncode b1 [] with
      | none => none
      | some (ls, b2) =>
        let pairs := lengthOrder.zip ls
        let cl := codeOf ((List.range 19).map (fun s => match pairs.find? (fun x => x.1 == s) with
          | some x => x.2
          | none => 0))
        if !cl.usable false false then none
        else
          match readLengths cl (nlit + ndist) (nlit + ndist + 1) b2 [] with
          | none => none
          | some (all, b3) =>
            let lit := codeOf (all.take nlit); let dist := codeOf (all.drop nlit)
            if all.getD 256 0 = 0 || !lit.usable true false || !dist.usable true true then none else some (lit, dist, b3)

/-- Blocks up to the final one; fuel bounds them. -/
def inflateBlocks (cap : Nat) : Nat → BitsIn → List Byte → BlockEnd
  | 0, _, out => .stop out 3
  | fuel + 1, b, out =>
    match b.take 3 with
    | none => .stop out 3
    | some (h, b1) =>
      let r := match h / 2 with
        | 0 => inflateStored cap b1 out
        | 1 => inflateCodes fixedLit fixedDist cap (b1.count + 1) b1 out
        | 2 => (match readDynamic b1 with
          | none => .stop out 3
          | some (l, d, b2) => inflateCodes l d cap (b2.count + 1) b2 out)
        | _ => .stop out 3
      match r with
      | .stop o st => .stop o st
      | .ok b2 o => if h % 2 = 1 then .ok b2 o else inflateBlocks cap fuel b2 o

/-- The Adler-32 checksum of RFC 1950. -/
def adler32 (bs : List Byte) : Nat :=
  let (a, b) := bs.foldl (fun acc x => let a := (acc.1 + x.toNat) % 65521; (a, (acc.2 + a) % 65521)) (1, 0)
  b * 65536 + a

/-- Deflate decoded into at most cap bytes; wrapped says whether the RFC 1950 wrapper stands around it. -/
def inflate (input : List Byte) (wrapped : Bool) (cap : Nat) : List Byte × Nat :=
  let cmf := (input.getD 0 0#8).toNat; let flg := (input.getD 1 0#8).toNat
  if wrapped && (input.length < 2 || cmf % 16 ≠ 8 || 7 < cmf / 16 || (cmf * 256 + flg) % 31 ≠ 0) then ([], 3)
  else if wrapped && bitOf flg 5 then ([], 6)
  else
    let body := if wrapped then input.drop 2 else input
    let b : BitsIn := ⟨leNat body, 8 * body.length, 0⟩
    match inflateBlocks cap (b.count + 1) b [] with
    | .stop out st => (out, st)
    | .ok e out =>
      if !wrapped then (out, 0)
      else
        let tail := (body.drop ((e.pos + 7) / 8)).take 4
        if tail.length < 4 || leNat tail.reverse ≠ adler32 out then (out, 3) else (out, 0)

end Sys2Proof.Machine
end

