-- ==== Sys2Proof/Machine/Num.lean ====
section
/-! DEFINITION. Sys2Proof/Machine/Num.lean: number formats, rounding, conversion and exact arithmetic (R24 to R46).
An exact value is a sign, a natural significand and an exponent of two; a quotient or a square root carries one more
bit below its last that says whether the rest is zero, which no rounding mode can tell from the exact value. -/

namespace Sys2Proof.Machine

/-! ### Formats (R25 to R31, R192) -/

/-- The formats of R192, and ACC48 (R26). -/
inductive Fmt where
  | f32
  | bf16
  | f16
  | e4m3
  | e5m2
  | e2m1
  | e8m0
  | i8
  | i16
  | i32
  | i64
  | n8
  | n16
  | n32
  | n64
  | b32
  | acc48
  deriving DecidableEq, Repr

/-- The format that a code of R192 names. -/
def fmtOf (code : Nat) : Fmt :=
  match code with
  | 0 => .f32
  | 1 => .bf16
  | 2 => .f16
  | 3 => .e4m3
  | 4 => .e5m2
  | 5 => .e2m1
  | 6 => .e8m0
  | 7 => .i8
  | 8 => .i16
  | 9 => .i32
  | 10 => .i64
  | 11 => .n8
  | 12 => .n16
  | 13 => .n32
  | 14 => .n64
  | _ => .b32

/-- Bits of an element. -/
def Fmt.width : Fmt → Nat
  | .f32 => 32
  | .bf16 => 16
  | .f16 => 16
  | .e4m3 => 8
  | .e5m2 => 8
  | .e2m1 => 4
  | .e8m0 => 8
  | .i8 => 8
  | .i16 => 16
  | .i32 => 32
  | .i64 => 64
  | .n8 => 8
  | .n16 => 16
  | .n32 => 32
  | .n64 => 64
  | .b32 => 32
  | .acc48 => 48

/-- Two's complement formats (R31). -/
def Fmt.isInt : Fmt → Bool
  | .i8 => true
  | .i16 => true
  | .i32 => true
  | .i64 => true
  | _ => false

/-- Unsigned formats (R31). -/
def Fmt.isNat : Fmt → Bool
  | .n8 => true
  | .n16 => true
  | .n32 => true
  | .n64 => true
  | _ => false

/-- FP32, BF16 and FP16. -/
def Fmt.isFloat : Fmt → Bool
  | .f32 => true
  | .bf16 => true
  | .f16 => true
  | _ => false

/-- How many 32-bit words an element's token or bundle holds. -/
def Fmt.words (f : Fmt) : Nat := if f.width = 64 then 2 else 1

/-- Elements in a 32-bit token (R32); one for the 64-bit formats. -/
def Fmt.lanes (f : Fmt) : Nat := if 32 ≤ f.width then 1 else 32 / f.width

/-- How a floating format treats its top exponent (R27). -/
inductive Specials where
  | ieee
  | nanOnly
  | finite
  deriving DecidableEq, Repr

/-- Exponent bits, fraction bits, bias and special encodings (R26, R27). -/
structure FloatSpec where
  eb : Nat
  fb : Nat
  bias : Nat
  sp : Specials
  deriving DecidableEq, Repr

/-- The fields of a floating format; none for the others. -/
def Fmt.float : Fmt → Option FloatSpec
  | .f32 => some ⟨8, 23, 127, .ieee⟩
  | .bf16 => some ⟨8, 7, 127, .ieee⟩
  | .f16 => some ⟨5, 10, 15, .ieee⟩
  | .e5m2 => some ⟨5, 2, 15, .ieee⟩
  | .e4m3 => some ⟨4, 3, 7, .nanOnly⟩
  | .e2m1 => some ⟨2, 1, 1, .finite⟩
  | .acc48 => some ⟨8, 39, 127, .ieee⟩
  | _ => none

/-! ### Exact values -/

/-- A value: NaN, an infinity, or ± m × 2^e, where m = 0 is a signed zero. -/
inductive Val where
  | nan
  | inf (neg : Bool)
  | fin (neg : Bool) (m : Nat) (e : Int)
  deriving DecidableEq, Repr

/-- An integer as a value; integer zero is +0 (R35). -/
def Val.ofInt (x : Int) : Val := .fin (decide (x < 0)) x.natAbs 0

/-- Whether a value is ±0. -/
def Val.isZero : Val → Bool
  | .fin _ m _ => m == 0
  | _ => false

/-- Whether a value is NaN. -/
def Val.isNan : Val → Bool
  | .nan => true
  | _ => false

/-- −v. -/
def Val.neg : Val → Val
  | .nan => .nan
  | .inf n => .inf (!n)
  | .fin n m e => .fin (!n) m e

/-- |v|. -/
def Val.abs : Val → Val
  | .nan => .nan
  | .inf _ => .inf false
  | .fin _ m e => .fin false m e

/-- The value of a floating encoding (R25, R27). -/
def FloatSpec.decode (s : FloatSpec) (x : Nat) : Val :=
  let neg := bitOf x (s.eb + s.fb)
  let E := bitsOf x (s.eb + s.fb - 1) s.fb
  let F := x % 2 ^ s.fb
  let top := 2 ^ s.eb - 1
  let special := match s.sp with
    | .ieee => E == top
    | .nanOnly => E == top && F == 2 ^ s.fb - 1
    | .finite => false
  if special then (if s.sp = .nanOnly || F != 0 then .nan else .inf neg)
  else if E = 0 then .fin neg F (1 - (s.bias : Int) - s.fb)
  else .fin neg (2 ^ s.fb + F) ((E : Int) - s.bias - s.fb)

/-- The value of an element's bits (R25 to R32); .b32 is read as unsigned. -/
def Fmt.decode (f : Fmt) (x : Nat) : Val :=
  match f.float with
  | some s => s.decode x
  | none =>
    if f = .e8m0 then (if x % 256 = 255 then .nan else .fin false 1 ((x % 256 : Nat) - 127))
    else if f.isInt then Val.ofInt (sextNat x f.width)
    else Val.ofInt ((x % 2 ^ f.width : Nat) : Int)

/-! ### Rounding (R33 to R37) -/

/-- m × 2^e cut to a multiple of 2^u by a rounding code; draw is the generator's draw under .rs. -/
def cutTo (mode draw : Nat) (neg : Bool) (m : Nat) (e u : Int) : Nat :=
  if u ≤ e then m * 2 ^ (e - u).toNat
  else
    let sh := (u - e).toNat
    let q := m / 2 ^ sh
    let r := m % 2 ^ sh
    let half := 2 ^ (sh - 1)
    let up := match mode with
      | 0 => decide (half < r) || (r == half && q % 2 == 1)
      | 1 => false
      | 2 => !neg && r != 0
      | 3 => neg && r != 0
      | _ => decide (draw < (if 16 ≤ sh then r / 2 ^ (sh - 16) else r * 2 ^ (16 - sh)))
    if up then q + 1 else q

/-- The greatest finite encoding of a floating format, without its sign (R26). -/
def FloatSpec.maxBits (s : FloatSpec) : Nat :=
  match s.sp with
  | .ieee => (2 ^ s.eb - 2) * 2 ^ s.fb + (2 ^ s.fb - 1)
  | .nanOnly => (2 ^ s.eb - 1) * 2 ^ s.fb + (2 ^ s.fb - 2)
  | .finite => 2 ^ (s.eb + s.fb) - 1

/-- The canonical NaN (R27); a format without NaN gives +0 (R42). -/
def FloatSpec.nanBits (s : FloatSpec) : Nat :=
  match s.sp with
  | .ieee => (2 ^ s.eb - 1) * 2 ^ s.fb + 2 ^ (s.fb - 1)
  | .nanOnly => 2 ^ (s.eb + s.fb) - 1
  | .finite => 0

/-- Overflow (R34); clampMax is qz's rule, which always clamps (R56). -/
def FloatSpec.overflow (s : FloatSpec) (mode : Nat) (nanov clampMax neg : Bool) : Nat :=
  let sign := if neg then 2 ^ (s.eb + s.fb) else 0
  match s.sp with
  | .ieee =>
    let inf := (2 ^ s.eb - 1) * 2 ^ s.fb
    let toMax := clampMax || mode == 1 || (mode == 2 && neg) || (mode == 3 && !neg)
    sign + (if toMax then s.maxBits else inf)
  | .nanOnly => if nanov && !clampMax then s.nanBits else sign + s.maxBits
  | .finite => sign + s.maxBits

/-- An infinity in a floating format (R41, R42); qz clamps it. -/
def FloatSpec.infBits (s : FloatSpec) (nanov clampMax neg : Bool) : Nat :=
  let sign := if neg then 2 ^ (s.eb + s.fb) else 0
  match s.sp with
  | .ieee => sign + (if clampMax then s.maxBits else (2 ^ s.eb - 1) * 2 ^ s.fb)
  | .nanOnly => if nanov && !clampMax then s.nanBits else sign + s.maxBits
  | .finite => sign + s.maxBits

/-- A value rounded once into a floating format. -/
def FloatSpec.round (s : FloatSpec) (mode draw : Nat) (nanov clampMax : Bool) (v : Val) : Nat :=
  match v with
  | .nan => s.nanBits
  | .inf neg => s.infBits nanov clampMax neg
  | .fin neg m e =>
    let sign := if neg then 2 ^ (s.eb + s.fb) else 0
    if m = 0 then sign
    else
      let lead := e + (Nat.log2 m : Int)
      let least : Int := 1 - (s.bias : Int) - s.fb
      let u := max (lead - s.fb) least
      let q := cutTo mode draw neg m e u
      let (q, u) := if 2 ^ (s.fb + 1) ≤ q then (q / 2, u + 1) else (q, u)
      let body := if q < 2 ^ s.fb then q else ((u - least).toNat + 1) * 2 ^ s.fb + (q - 2 ^ s.fb)
      if s.maxBits < body then s.overflow mode nanov clampMax neg else sign + body

/-- A value rounded to E8M0 (R43). -/
def roundE8M0 (mode : Nat) (v : Val) : Nat :=
  match v with
  | .nan => 0xFF
  | .inf _ => 0xFF
  | .fin neg m e =>
    if neg then 0xFF
    else if m = 0 then 0
    else
      let j := e + (Nat.log2 m : Int)
      let exact := m == 2 ^ Nat.log2 m
      let up := !exact && (match mode with
        | 0 => decide (3 * 2 ^ Nat.log2 m ≤ 2 * m)
        | 2 => true
        | _ => false)
      if j < -127 then 0x00
      else if 127 < j || (j = 127 && !exact) then 0xFE
      else ((if up then j + 1 else j) + 127).toNat

/-- The range of an integer format (R31). -/
def Fmt.least (f : Fmt) : Int := if f.isInt then -(2 ^ (f.width - 1) : Nat) else 0

/-- The greatest value of an integer format. -/
def Fmt.greatest (f : Fmt) : Int := if f.isInt then (2 ^ (f.width - 1) : Nat) - 1 else (2 ^ f.width : Nat) - 1

/-- An integer's low bits as an element of w bits. -/
def intBits (w : Nat) (x : Int) : Nat := (x % (2 ^ w : Nat)).toNat

/-- A value rounded to an integer format, its ulp 1, then clamped (R33, R34, R42). -/
def Fmt.roundInt (f : Fmt) (mode draw : Nat) (v : Val) : Nat :=
  match v with
  | .nan => 0
  | .inf neg => intBits f.width (if neg then f.least else f.greatest)
  | .fin neg m e =>
    let q : Int := cutTo mode draw neg m e 0
    intBits f.width (clampInt (if neg then -q else q) f.least f.greatest)

/-- round_to (R203): the encoding in a format of an exact value. -/
def Fmt.round (f : Fmt) (mode draw : Nat) (nanov clampMax : Bool) (v : Val) : Nat :=
  match f.float with
  | some s => s.round mode draw nanov clampMax v
  | none => if f = .e8m0 then roundE8M0 mode v else f.roundInt mode draw v

/-- A value rounded to nearest even, into a format. -/
def Fmt.rne (f : Fmt) (v : Val) : Nat := f.round 0 0 false false v

/-! ### Exact arithmetic (R28, R35, R44) -/

/-- A signed exact number with an exponent, as an integer at the lesser exponent. -/
def alignInt (n : Bool) (m : Nat) (e low : Int) : Int :=
  let x : Int := (m * 2 ^ (e - low).toNat : Nat)
  if n then -x else x

/-- a + b, exact, with R35's zeros. -/
def Val.add (a b : Val) : Val :=
  match a, b with
  | .nan, _ => .nan
  | _, .nan => .nan
  | .inf n, .inf k => if n = k then .inf n else .nan
  | .inf n, .fin _ _ _ => .inf n
  | .fin _ _ _, .inf k => .inf k
  | .fin n m e, .fin k p f =>
    if m = 0 && p = 0 then .fin (n && k) 0 0
    else
      let low := min e f
      let x := alignInt n m e low + alignInt k p f low
      .fin (decide (x < 0)) x.natAbs low

/-- a − b. -/
def Val.sub (a b : Val) : Val := a.add b.neg

/-- a × b, exact. -/
def Val.mul (a b : Val) : Val :=
  match a, b with
  | .nan, _ => .nan
  | _, .nan => .nan
  | .inf n, .inf k => .inf (n != k)
  | .inf n, .fin k p _ => if p = 0 then .nan else .inf (n != k)
  | .fin n m _, .inf k => if m = 0 then .nan else .inf (n != k)
  | .fin n m e, .fin k p f => .fin (n != k) (m * p) (e + f)

/-- a ÷ b (R285), to 96 bits with a last bit that says whether anything is left. -/
def Val.div (a b : Val) : Val :=
  match a, b with
  | .nan, _ => .nan
  | _, .nan => .nan
  | .inf _, .inf _ => .nan
  | .inf n, .fin k _ _ => .inf (n != k)
  | .fin n _ _, .inf k => .fin (n != k) 0 0
  | .fin n m e, .fin k p f =>
    if p = 0 then (if m = 0 then .nan else .inf (n != k))
    else if m = 0 then .fin (n != k) 0 0
    else
      let s := 96 + Nat.log2 p
      let x := m * 2 ^ s
      .fin (n != k) (2 * (x / p) + (if x % p = 0 then 0 else 1)) (e - f - s - 1)

/-- The greatest r below 2^n with r² at most x. -/
def isqrt : Nat → Nat → Nat → Nat
  | 0, r, _ => r
  | n + 1, r, x => let c := r + 2 ^ n; isqrt n (if c * c ≤ x then c else r) x

/-- √v (R285), in the same form. -/
def Val.sqrt (v : Val) : Val :=
  match v with
  | .nan => .nan
  | .inf n => if n then .nan else .inf false
  | .fin n m e =>
    if m = 0 then .fin n 0 0
    else if n then .nan
    else
      let odd : Nat := if e % 2 = 0 then 0 else 1
      let x := m * 2 ^ (192 + odd)
      let r := isqrt (Nat.log2 x / 2 + 1) 0 x
      .fin false (2 * r + (if r * r = x then 0 else 1)) ((e - odd) / 2 - 96 - 1)

/-- v × 2^k, exact. -/
def Val.scale (v : Val) (k : Int) : Val :=
  match v with
  | .fin n m e => .fin n m (e + k)
  | x => x

/-- a < b among values that are not NaN, with −0 below +0 when zeros is set (R285). -/
def Val.ltOrd (zeros : Bool) (a b : Val) : Bool :=
  match a, b with
  | .nan, _ => false
  | _, .nan => false
  | .inf n, .inf k => n && !k
  | .inf n, .fin _ _ _ => n
  | .fin _ _ _, .inf k => !k
  | .fin n m e, .fin k p f =>
    if m = 0 && p = 0 then zeros && n && !k
    else
      let low := min e f
      decide (alignInt n m e low < alignInt k p f low)

/-- The minimum of R285: NaN when either is. -/
def Val.min (a b : Val) : Val :=
  if a.isNan || b.isNan then .nan else if b.ltOrd true a then b else a

/-- The maximum of R285. -/
def Val.max (a b : Val) : Val :=
  if a.isNan || b.isNan then .nan else if a.ltOrd true b then b else a

/-- floor(log2 |v|) of a finite non-zero value. -/
def Val.floorLog2 (v : Val) : Int :=
  match v with
  | .fin _ m e => e + (Nat.log2 m : Int)
  | _ => 0

/-! ### The generator of .rs (R36, R39) -/

/-- One step of the xorshift generator. -/
def rngStep (s : Word) : Word :=
  let s := s ^^^ (s <<< 13)
  let s := s ^^^ (s >>> 17)
  s ^^^ (s <<< 5)

/-- The draw of a state. -/
def rngDraw (s : Word) : Nat := field s 31 16

/-- rotl32. -/
def rotl32 (x : Word) (k : Nat) : Word := (x <<< k) ||| (x >>> (32 - k))

/-- The state that a unit takes at its first firing of a round (R39): seed q, key k, round n. -/
def rngSeed (q : DWord) (k n : Nat) : Word :=
  let h := q.extractLsb' 0 32 ^^^ rotl32 (q.extractLsb' 32 32) 7
  let h := h ^^^ BitVec.ofNat 32 (k * 0x9E3779B1) ^^^ BitVec.ofNat 32 (n * 0x85EBCA77)
  let s := if h = 0#32 then 0x6D2B79F5#32 else h
  rngStep (rngStep (rngStep (rngStep s)))

/-- The unit key of R39: 0b000 ++ strand[15:0] ++ replica[5:0] ++ unit[6:0]. -/
def unitKey (strand replica unit : Nat) : Nat := strand % 65536 * 2 ^ 13 + replica % 64 * 2 ^ 7 + unit % 128

end Sys2Proof.Machine
end

