-- ==== Sys2Proof/Machine/Image.lean ====
section
/-! DEFINITION. Sys2Proof/Machine/Image.lean: the fields of phase blocks, unit words, bind headers, bind words, gated-port
words and route words (R190 to R200), what each unit opcode has (R194, R277, R303), and the edges of a block. -/

namespace Sys2Proof.Machine

/-! ### The header (R190) -/

/-- Units of the block. -/
def Image.count (i : Image) : Nat := field i.header 119 113 + 1
/-- Exits of the block. -/
def Image.exits (i : Image) : Nat := field i.header 112 110 + 1
/-- Dimensions of the block. -/
def Image.dims (i : Image) : Nat := field i.header 109 108 + 1
/-- dpcl. -/
def Image.dpcl (i : Image) : Nat := field i.header 107 106
/-- serial (R153). -/
def Image.serial (i : Image) : Bool := bitOf i.header.toNat 105
/-- private. -/
def Image.privateFlag (i : Image) : Bool := bitOf i.header.toNat 104
/-- rclose (R96). -/
def Image.rclose (i : Image) : Bool := bitOf i.header.toNat 102
/-- gclose (R96). -/
def Image.gclose (i : Image) : Bool := bitOf i.header.toNat 101
/-- Dimension descriptor j (R81). -/
def Image.dim (i : Image) (j : Nat) : Nat := field i.header (25 * j + 24) (25 * j)
/-- Whether a descriptor names a register (R81). -/
def dimIsReg (d : Nat) : Bool := bitOf d 24

/-! ### Unit words (R191 to R193) -/

/-- A unit word by index; the word of all zeros beyond the block. -/
def Image.unit (i : Image) (u : Nat) : DWord := i.units.getD u 0#64
/-- pcl. -/
def uPcl (w : DWord) : Nat := field w 63 62
/-- opcode. -/
def uOp (w : DWord) : Nat := field w 61 54
/-- Copies. -/
def uRep (w : DWord) : Nat := field w 53 48 + 1
/-- The format field's code. -/
def uFmtCode (w : DWord) : Nat := field w 47 44
/-- The format. -/
def uFmt (w : DWord) : Fmt := fmtOf (uFmtCode w)
/-- pmode (R79). -/
def uPmode (w : DWord) : Nat := field w 43 42
/-- imm. -/
def uImm (w : DWord) : Nat := field w 13 0
/-- Consumer field 0 or 1. -/
def uCons (w : DWord) (which : Nat) : Nat := if which = 0 then field w 41 28 else field w 27 14
/-- valid of a consumer field. -/
def consValid (c : Nat) : Bool := bitOf c 13
/-- The consumer's unit. -/
def consUnit (c : Nat) : Nat := bitsOf c 12 6
/-- The consumer's port. -/
def consPort (c : Nat) : Nat := bitsOf c 5 4
/-- The declared minimum slots. -/
def consSlots (c : Nat) : Nat := c % 16

/-! ### The bind section (R196 to R200) -/

/-- shape. -/
def bShape (h : BitVec 128) : Nat := field h 119 118
/-- core. -/
def bCore (h : BitVec 128) : Bool := bitOf h.toNat 117
/-- II. -/
def bII (h : BitVec 128) : Nat := field h 84 80 + 1
/-- The fields from shape to qhi, in which two regions are the same (R247). -/
def bRegion (h : BitVec 128) : Nat := field h 119 85
/-- The region part of a bind header of a context's image. -/
def Image.region (i : Image) : Nat := bRegion i.bindHeader
/-- A unit's bind word. -/
def Image.bind (i : Image) (u : Nat) : Word := i.binds.getD u 0#32
/-- phys of a bind word. -/
def bwPhys (w : Word) : Nat := field w 31 22
/-- slot of a bind word. -/
def bwSlot (w : Word) : Nat := field w 21 17
/-- depth of a bind word. -/
def bwDepth (w : Word) : Nat := field w 16 8
/-- cthresh of a bind word. -/
def bwThresh (w : Word) : Nat := field w 7 0

/-- Whether (side, depth, position) lies in a region (R61, R197). -/
def inRegion (h : BitVec 128) (phys : Nat) : Bool :=
  let side := phys / 256; let depth := phys / 64 % 4; let p := phys % 64
  let inDepth := decide (field h 112 111 ≤ depth) && decide (depth ≤ field h 110 109)
  let arm1 := side == field h 116 115 && inDepth && decide (field h 108 103 ≤ p) && decide (p ≤ field h 102 97)
  let arm2 := side == field h 114 113 && inDepth && decide (field h 96 91 ≤ p) && decide (p ≤ field h 90 85)
  match bShape h with
  | 0 => arm1
  | 1 => arm1 || arm2
  | 2 => true
  | _ => false

/-- Whether two regions share a collar unit or the core (R61). -/
def regionsMeet (a b : BitVec 128) : Bool :=
  (bCore a && bCore b) || (List.range 1024).any (fun p => inRegion a p && inRegion b p)

/-- The classes of collar units (R10, R194). -/
inductive Cls where
  | a
  | w
  | q
  | s
  | m
  | x
  | c
  | core
  | any
  deriving DecidableEq, Repr

/-- The class of a physical collar unit (R10). -/
def physClass (phys : Nat) : Cls :=
  let depth := phys / 64 % 4; let p := phys % 64
  match depth with
  | 0 => if p % 4 = 0 then .w else if p % 4 = 2 then .s else .a
  | 1 => if p % 4 = 0 then .q else if p % 4 = 2 then .s else .a
  | 2 => .a
  | _ => if p % 4 = 0 then .m else if p % 8 = 2 then .x else if p % 8 = 6 then .c else .a

/-- The class of an opcode; none for a reserved opcode (R194). -/
def opClass (op : Nat) : Option Cls :=
  if op ≤ 0x0A || (0x20 ≤ op && op ≤ 0x2F) || (0x40 ≤ op && op ≤ 0x42) || (0x60 ≤ op && op ≤ 0x62) then some .a
  else if 0x48 ≤ op && op ≤ 0x50 then some .s
  else if 0x68 ≤ op && op ≤ 0x71 then some .q
  else if op = 0x80 || op = 0x88 || op = 0x89 || op = 0x8B then some .any
  else if op = 0x81 || op = 0x82 then some .w
  else if (0x83 ≤ op && op ≤ 0x87) || op = 0x8A || (0x8C ≤ op && op ≤ 0x8E) then some .a
  else if op = 0xA5 then some .x
  else if 0xA0 ≤ op && op ≤ 0xA8 then some .m
  else if 0xC0 ≤ op && op ≤ 0xC3 then some .core
  else if 0xD0 ≤ op && op ≤ 0xD3 then some .c
  else none

/-- The physical units that the copies of a unit occupy: the next positions along its side and depth that hold its
class (R198, R304); none when they run past position 63. DESIGN CHOICE (log entry 87): a unit of class any has no class whose units
its copies could count, and they take consecutive positions. -/
def copyPlaces (cls : Cls) (first : Nat) (rep : Nat) : Option (List Nat) :=
  let row := (List.range (64 - first % 64)).map (fun i => first + i)
  let fit := row.filter (fun p => decide (cls = .any) || decide (physClass p = cls))
  if fit.length < rep then none else some (fit.take rep)

/-- The places that a unit's copies occupy, none for a core unit or when they do not fit. -/
def Image.places (i : Image) (u : Nat) : Option (List Nat) :=
  let w := i.unit u; let b := i.bind u
  match opClass (uOp w) with
  | some .core => if uOp w = 0xC1 then some ((List.range 64).map (fun p => 512 + p)) else some []
  | some cls => copyPlaces cls (bwPhys b) (uRep w)
  | none => none

/-- Whether an opcode is a memory unit whose reply is a gated boundary input (R303). -/
def isMemReply (op : Nat) : Bool := 0xA0 ≤ op && op ≤ 0xA8 && op != 0xA6

/-- Whether a load or store is in global mode. -/
def memGlobal (w : DWord) : Bool := bitOf (uImm w) 13

/-- Whether a unit word names an AG word (R323), and which. -/
def agOf (w : DWord) : Option Nat :=
  let op := uOp w
  if op = 0xA0 || op = 0xA1 then (if memGlobal w then none else some (uImm w % 256))
  else if op = 0xA2 || op = 0xA3 || op = 0xA4 || op = 0xA7 || op = 0xA8 then some (uImm w % 256)
  else none

/-- The data ports that a unit word needs an edge into, as letters 0 to 3 (R284 to R300, R307, R323, R334, R339). -/
def neededPorts (w : DWord) : List Nat :=
  let op := uOp w; let imm := uImm w
  let own : List Nat :=
    if op = 0x03 || op = 0x0A || op = 0x23 || op = 0x61 || op = 0x62 then [0, 1, 2]
    else if (op ≤ 0x05 && op != 0x03) || op = 0x08 then [0, 1]
    else if op = 0x06 || op = 0x07 || op = 0x09 then [0]
    else if 0x20 ≤ op && op ≤ 0x2F then (if op = 0x26 || op = 0x27 then [0] else [0, 1])
    else if op = 0x42 || op = 0x60 then [0, 1]
    else if 0x40 ≤ op && op ≤ 0x50 then [0]
    else if 0x68 ≤ op && op ≤ 0x70 then [0]
    else if op = 0x71 then List.range (bitsOf imm 5 4 + 2)
    else if op = 0x81 || op = 0x83 || op = 0x86 || op = 0x8D then [0, 1]
    else if op = 0x84 || op = 0x8E then List.range (imm % 4 + 1)
    else if op = 0x88 || op = 0x8B || op = 0x8C then []
    else if op = 0xA0 then (if memGlobal w then [0, 1] else [])
    else if op = 0xA1 then (if memGlobal w then [0, 1, 2] else [0])
    else if op = 0xA2 || op = 0xA4 || op = 0xA6 || op = 0xA8 then [0, 1]
    else if op = 0xC0 then [0, 1] ++ (if bitOf imm 4 then [2] else []) ++ (if bitOf imm 5 then [3] else [])
    else if op = 0xD0 || op = 0xD2 then [0, 1]
    else if op = 0xD1 || op = 0xD3 then [0, 1, 2]
    else [0]
  own ++ (if uPmode w = 0 then [] else [3])

/-- The result format of a reduction or scan (R297). -/
def redResult (op : Nat) (f : Fmt) : Fmt :=
  if op = 0x6B || op = 0x6C then (if f = .n64 then .n64 else .n32)
  else if f.isFloat then .f32
  else if f.isInt then (if f = .i64 then .i64 else .i32)
  else if f = .n64 then .n64 else .n32

/-! ### Edges -/

/-- An edge of a block: producer, which of its consumer fields, consumer, port and declared slots. -/
structure Edge where
  src : Nat
  which : Nat
  dst : Nat
  port : Nat
  slots : Nat
  deriving DecidableEq, Repr

/-- The edges of a block, in unit order. -/
def Image.edges (i : Image) : List Edge :=
  (List.range i.count).flatMap (fun u =>
    ([0, 1].filter (fun k => consValid (uCons (i.unit u) k))).map (fun k =>
      let c := uCons (i.unit u) k
      ⟨u, k, consUnit c, consPort c, consSlots c⟩))

/-- The ports of a unit that an edge enters. -/
def Image.connected (i : Image) (u : Nat) : List Nat :=
  ([0, 1, 2, 3] : List Nat).filter (fun p => i.edges.any (fun e => e.dst == u && e.port == p))

/-- Whether an edge lies on a cycle: its consumer reaches its producer. -/
def Image.reaches (i : Image) (target : Nat) : Nat → List Nat → Bool
  | 0, _ => false
  | n + 1, front =>
    front.contains target ||
      Image.reaches i target n (dedup (front ++ (i.edges.filter (fun e => front.contains e.src)).map (fun e => e.dst)))

/-- Whether an edge is elastic (R442): an initial token, a cycle, or port a of a global-mode memory unit. -/
def Image.elastic (i : Image) (inits : List (Nat × Nat)) (e : Edge) : Bool :=
  let w := i.unit e.dst
  inits.contains (e.dst, e.port) || (e.port == 0 && ((uOp w == 0xA0 || uOp w == 0xA1) && memGlobal w || uOp w == 0xA6))
    || i.reaches e.src i.count [e.dst]

/-! ### Bundle sizes (R68, R303) -/

/-- The words of the tokens that a source gives: one by injection or from a pick (R261, R315), and from a stream those of its
sinks' edge, where they are known (R317). -/
def sourceWords (streams : Nat → Option Nat) (w : DWord) : Option Nat :=
  if uImm w % 4 = 1 then streams (bitsOf (uImm w) 9 2) else some 1

/-- The words that a unit other than a source emits on a consumer, given the words on its port a. -/
def outWords (w : DWord) (which : Nat) (portA : Nat) : Nat :=
  let op := uOp w; let imm := uImm w; let f := uFmt w
  if op = 0x40 then (fmtOf (bitsOf imm 7 4)).words
  else if op = 0x41 || op = 0x42 then 1
  else if 0x68 ≤ op && op ≤ 0x6F then (redResult op f).words
  else if op = 0x70 then 2
  else if op = 0x80 || op = 0x81 || op = 0x86 || op = 0x87 || op = 0x8D || op = 0x8E || op = 0xD0 || op = 0xD1 then portA
  else if op = 0x82 then bitsOf imm 5 3 + 1
  else if op = 0x83 then imm % 8 + 1
  else if op = 0x84 then (if which = 1 then 1 else if bitOf imm 5 then bitsOf imm 4 2 + 1 else bitsOf imm 4 2)
  else if op = 0x85 then imm % 8 + 2
  else if op = 0xA0 then (if memGlobal w then bitsOf imm 10 8 + 1 else f.words)
  else if op = 0xA1 || op = 0xA4 || op = 0xA8 then 1
  else if op = 0xA2 then (if bitOf imm 11 then f.words else 1)
  else if op = 0xA5 then 2
  else if 0xC0 ≤ op then 1
  else f.words

/-- The words that a port expects; none where any size is accepted. -/
def portWords (w : DWord) (port : Nat) : Option Nat :=
  let op := uOp w; let imm := uImm w; let f := uFmt w
  if uPmode w != 0 && port = 3 then none
  else if op < 0x70 || op = 0x70 || op = 0x71 then (if op = 0x41 || op = 0x42 then some 1 else some f.words)
  else if op = 0x81 || op = 0x86 || op = 0x8D then (if port = 0 then none else some 1)
  else if op = 0x82 then some (imm % 8 + 1)
  else if op = 0x83 then (if port = 0 then some (imm % 8 + 1) else some 1)
  else if op = 0x84 then some (bitsOf imm 4 2 + 1)
  else if op = 0x85 then some (imm % 8 + 1)
  else if op = 0x8A then some 1
  else if op = 0xA0 || op = 0xA6 then (if port = 0 then some 2 else some 1)
  else if op = 0xA1 then
    (if memGlobal w then (if port = 0 then some 2 else if port = 1 then some 1 else some (bitsOf imm 10 8 + 1)) else some f.words)
  else if op = 0xA2 || op = 0xA4 || op = 0xA8 then (if port = 0 then some 1 else some f.words)
  else if op = 0xA3 || op = 0xA7 then some 1
  else if op = 0xA5 then some 2
  else if op = 0xC0 then (if port < 2 then some 8 else some 1)
  else if op = 0xC2 || op = 0xC3 then some 1
  else none

/-- Whether a unit passes on the bundles of its port a as they are. -/
def passesWords (w : DWord) : Bool :=
  let op := uOp w
  op == 0x80 || op == 0x81 || op == 0x86 || op == 0x87 || op == 0x8D || op == 0x8E || op == 0xD0 || op == 0xD1

/-- The words that an edge carries in one transfer, by following producers, where they are known; fuel bounds the chain. -/
def Image.wordsFrom (i : Image) (streams : Nat → Option Nat) : Nat → Edge → Option Nat
  | 0, _ => none
  | n + 1, e =>
    let w := i.unit e.src
    if uOp w = 0x88 then sourceWords streams w
    else if passesWords w then (i.edges.find? (fun x => x.dst == e.src && x.port == 0)).bind (Image.wordsFrom i streams n)
    else some (outWords w e.which 1)

/-- The words that an edge carries in one transfer, where they are known. -/
def Image.edgeWords (i : Image) (streams : Nat → Option Nat) (e : Edge) : Option Nat := i.wordsFrom streams (i.count + 1) e

/-- The always-plain opcodes (R305). -/
def alwaysPlain (op : Nat) : Bool :=
  op == 0x80 || op == 0x88 || op == 0x89 || op == 0x8A || op == 0x8B || op == 0x8C || op == 0x8E || op == 0xA6
    || (0xC0 ≤ op && op ≤ 0xC3)

/-- The effective protection class of a unit (R191, R305): 0 plain, 1 dual, 2 triple. -/
def Image.classOf (i : Image) (u : Nat) : Nat :=
  let w := i.unit u
  if alwaysPlain (uOp w) || 0xD0 ≤ uOp w then 0 else if uPcl w = 3 then i.dpcl else uPcl w

/-! ### Protected units (R195, R305, R339, R371) -/

/-- Whether an opcode's requests pass chk.mem or vote.mem where its class is dual or triple (R305). -/
def guardedMem (op : Nat) : Bool := (0xA0 ≤ op && op ≤ 0xA4) || op == 0xA7 || op == 0xA8

/-- The chk.mem or vote.mem unit of a memory unit: it names the unit in imm[6:0] (R339). -/
def Image.memGuard (i : Image) (u : Nat) : Option Nat :=
  (List.range i.count).find? (fun g => (uOp (i.unit g) == 0xD2 || uOp (i.unit g) == 0xD3) && uImm (i.unit g) % 128 == u)

/-- The units whose tokens or requests a check or vote unit compares, side by side. -/
def Image.sides (i : Image) (g : Nat) : List Nat :=
  ([0, 1, 2] : List Nat).filterMap (fun p => (i.edges.find? (fun e => e.dst == g && e.port == p)).map (fun e => e.src))

/-- Whether a memory unit is a spare copy: its requests go to a chk.mem or vote.mem of another unit, which issues them
(R305, R371). -/
def Image.spare (i : Image) (u : Nat) : Bool :=
  guardedMem (uOp (i.unit u)) && i.edges.any (fun e =>
    e.src == u && (uOp (i.unit e.dst) == 0xD2 || uOp (i.unit e.dst) == 0xD3) && uImm (i.unit e.dst) % 128 != u)

/-- The spare copies of a memory unit. -/
def Image.sparesOf (i : Image) (u : Nat) : List Nat :=
  match (if guardedMem (uOp (i.unit u)) then i.memGuard u else none) with
  | some g => (i.sides g).filter (fun v => v != u)
  | none => []

/-- Whether a unit's tokens pass a check or vote unit. -/
def Image.checked (i : Image) (u : Nat) : Bool :=
  i.edges.any (fun e => e.src == u && (uOp (i.unit e.dst) == 0xD0 || uOp (i.unit e.dst) == 0xD1))

/-- The units of a block whose source or FIFO-mode load supplies a gated boundary input: sources by opcode, loads by a
list given (R303). -/
def Image.suppliers (i : Image) (fifo : List Nat) : List Nat :=
  (List.range i.count).filter (fun u => uOp (i.unit u) == 0x88 || fifo.contains u)

/-! ### Token-local paths (R376) -/

/-- Whether an opcode with its imm is token-local in itself: no group, no order and no .rs draw. -/
def tokenLocalOp (w : DWord) : Bool :=
  let op := uOp w; let imm := uImm w; let f := uFmt w
  let rounds := op ≤ 0x03 || op = 0x08 || op = 0x09 || op = 0x0A || op = 0x40 || (op = 0x71 && decide (f = .f32))
  let listed := op < 0x40 || (op = 0x40 && (fmtOf (bitsOf imm 7 4)).width == f.width) || (0x48 ≤ op && op ≤ 0x50)
    || (0x60 ≤ op && op ≤ 0x62) || op = 0x71 || op = 0x80 || op = 0x8D || op = 0x85 || op = 0xD0 || op = 0xD1
  listed && !(rounds && imm % 8 == 4)

/-- Whether an edge's consumer ends a path: a terminal sink, or the data port of a store, stx, scatter or owner. -/
def Image.finalConsumer (i : Image) (e : Edge) : Bool :=
  let w := i.unit e.dst; let op := uOp w
  (op == 0x89 && uImm w % 4 == 0)
    || (op == 0xA1 && e.port == (if memGlobal w then 2 else 0)) || (op == 0xA8 && e.port == 1) || (op == 0xA4 && e.port == 1)
    || (op == 0xA2 && e.port ≤ 1)

/-- Whether every other input of an edge's consumer comes directly from a const unit with src 0; the inputs of a check or
vote unit all stand on the path. -/
def Image.othersConst (i : Image) (e : Edge) : Bool :=
  uOp (i.unit e.dst) == 0xD0 || uOp (i.unit e.dst) == 0xD1 || i.edges.all (fun x => x.dst != e.dst || x.port == e.port ||
    (uOp (i.unit x.src) == 0x8B && bitsOf (uImm (i.unit x.src)) 13 12 == 0))

/-- Whether a tag that unit u puts on its output is repaired by a single token (R376): every path from it leads over
token-local units to a final consumer; fuel bounds the paths. -/
def Image.localFrom (i : Image) : Nat → Nat → Bool
  | 0, _ => false
  | n + 1, u => (i.edges.filter (fun e => e.src == u)).all (fun e =>
      i.finalConsumer e || (tokenLocalOp (i.unit e.dst) && i.othersConst e && Image.localFrom i n e.dst))

/-- Whether an error that unit u reads is repaired by a single token: u is a load, gather or ldx (R376). -/
def Image.repairable (i : Image) (u : Nat) : Bool :=
  let op := uOp (i.unit u)
  (op == 0xA0 || op == 0xA3 || op == 0xA7) && i.localFrom (i.count + 1) u

end Sys2Proof.Machine
end

