-- ==== Sys2Proof/Machine/ImageCheck.lean ====
section
/-! DEFINITION. Sys2Proof/Machine/ImageCheck.lean: the loader's checks of a block image and the load error codes they
report (R190 to R200, R280, R306, R448). Each check answers the code of a rejection where it applies; the lowest is
reported. -/

namespace Sys2Proof.Machine

/-- The lowest code of a list; none when it is empty. -/
def lowestCode (l : List Nat) : Option Nat := minBy id l

/-- A code when a check fails. -/
def reject (bad : Bool) (code : Nat) : List Nat := if bad then [code] else []

/-! ### Formats (0x0203) -/

/-- The matrix pairs of R47. -/
def matrixPair (a b : Fmt) : Bool :=
  let small (f : Fmt) : Bool := decide (f = .e2m1) || decide (f = .e4m3) || decide (f = .e5m2)
  (small a && small b) || (decide (a = .i8) && decide (b = .i8)) || (decide (a = .bf16) && decide (b = .bf16))
    || (decide (a = .f16) && decide (b = .f16))

/-- Whether an opcode accepts its format (R284 to R300, R307, R323, R334 to R337). -/
def formatOk (w : DWord) : Bool :=
  let op := uOp w; let f := uFmt w; let imm := uImm w
  let integer := f.isInt || f.isNat
  let small := decide (f = .e2m1) || decide (f = .e4m3) || decide (f = .e5m2)
  let word32 := decide (f = .n32) || decide (f = .b32)
  if op ≤ 0x0A then f.isFloat
  else if op = 0x26 || op = 0x27 then f.isInt
  else if 0x2B ≤ op && op ≤ 0x2D then integer || decide (f = .b32)
  else if 0x20 ≤ op && op ≤ 0x2F then integer
  else if op = 0x40 then decide (f ≠ .b32) && bitsOf imm 7 4 != 15 && uFmtCode w != bitsOf imm 7 4
  else if op = 0x41 || op = 0x42 then small
  else if 0x48 ≤ op && op ≤ 0x50 then decide (f = .f32)
  else if op = 0x60 then
    let cc := imm % 8
    (f.isFloat || (integer && cc != 6) || (decide (f = .b32) && decide (cc ≤ 1)))
  else if op = 0x62 then f.isFloat || integer
  else if op = 0x6B || op = 0x6C then f.isNat || decide (f = .b32)
  else if 0x68 ≤ op && op ≤ 0x6F then f.isFloat || integer
  else if op = 0x70 then f.isFloat
  else if op = 0x71 then decide (f = .f32) || decide (f = .i32)
  else if op = 0x88 then imm % 4 != 2 || word32
  else if op = 0x8A then word32
  else if op = 0x8C then decide (f = .n32) || decide (f = .i32)
  else if op = 0xA2 then
    let o := bitsOf imm 10 8
    decide (f = .i32) || decide (f = .n32) || decide (f = .i64) || decide (f = .n64) || (decide (f = .f32) && decide (o ≤ 2))
  else if op = 0xA5 then decide (f = .n64)
  else if op = 0xC0 then imm % 16 != 15 && matrixPair f (fmtOf (imm % 16))
  else if op = 0xC1 then decide (f = .f32) || decide (f = .i32)
  else if op = 0xC2 then word32
  else if op = 0xC3 then decide (f = .f32) || decide (f = .i32)
  else true

/-! ### Rounding (0x0204) and imm (0x0205) -/

/-- Whether an opcode of the arithmetic units takes a rounding code in imm[2:0] and .nanov in imm[3] (R191, R277). -/
def takesRounding (w : DWord) : Bool :=
  let op := uOp w; let f := uFmt w
  op ≤ 0x03 || op == 0x08 || op == 0x09 || op == 0x0A || (0x40 ≤ op && op ≤ 0x42) || op == 0x70 || op == 0x71
    || ((op == 0x68 || op == 0x6D) && f.isFloat)

/-- Whether the result of an opcode that rounds is E4M3 (R34). -/
def givesE4m3 (w : DWord) : Bool :=
  (uOp w == 0x40 && bitsOf (uImm w) 7 4 == 3) || (uOp w == 0x41 && uFmtCode w == 3)

/-- Whether the rounding code of an opcode that rounds is reserved, or .nanov or .rs is misplaced (R33, R34, R43, R290). -/
def roundingBad (w : DWord) : Bool :=
  let op := uOp w; let imm := uImm w
  let code := imm % 8
  ((takesRounding w || op == 0xC1) && 4 < code)
    || (takesRounding w && bitOf imm 3 && !givesE4m3 w)
    || (op == 0x40 && code == 4 && bitsOf imm 7 4 == 6)

/-- The imm bits that an opcode names (R277 to R300, R307, R323, R334 to R339). -/
def immMask (w : DWord) : Nat :=
  let op := uOp w; let f := uFmt w
  if op ≤ 0x03 || op = 0x08 || op = 0x09 || op = 0x0A then 0xF
  else if op ≤ 0x2F then 0
  else if op = 0x40 then 0xFF
  else if op = 0x41 then 0xF
  else if op = 0x42 then 0xF
  else if op ≤ 0x50 then 0
  else if op = 0x60 then 0x7
  else if op ≤ 0x62 then 0
  else if op = 0x68 then (if f.isFloat then 0x7F else 0x70)
  else if op ≤ 0x6C then 0x70
  else if op = 0x6D then (if f.isFloat then 0xFF else 0xF0)
  else if op ≤ 0x6F then 0xF0
  else if op = 0x70 then 0x1FFF
  else if op = 0x71 then 0x3F
  else if op = 0x80 then 0
  else if op = 0x81 then 0x3
  else if op = 0x82 then 0x3F
  else if op = 0x83 then 0x7
  else if op = 0x84 then 0x3F
  else if op = 0x85 then 0xF
  else if op = 0x86 || op = 0x87 then 0x7
  else if op = 0x88 || op = 0x89 then 0x3FF
  else if op = 0x8A then 0x7
  else if op = 0x8B then (if bitsOf (uImm w) 13 12 = 0 then 0x3FFF else 0x3001)
  else if op = 0x8C then 0x7
  else if op = 0x8D then 0
  else if op = 0x8E then 0x3
  else if op = 0xA0 then (if memGlobal w then 0x3F00 else 0x21FF)
  else if op = 0xA1 then (if memGlobal w then 0x3F00 else 0x20FF)
  else if op = 0xA2 then 0xFFF
  else if op = 0xA3 then 0x3FFF
  else if op = 0xA4 then 0x1FFF
  else if op = 0xA5 then 0
  else if op = 0xA6 then 0x700
  else if op = 0xA7 || op = 0xA8 then 0xFF
  else if op = 0xC0 then 0x3F
  else if op = 0xC1 then 0x37
  else if op = 0xC2 || op = 0xC3 then 0
  else 0x7F

/-- Whether a key of imm is out of its range. -/
def keyBad (w : DWord) : Bool :=
  let op := uOp w; let imm := uImm w; let f := uFmt w
  if op = 0x60 then imm % 8 == 7
  else if 0x68 ≤ op && op ≤ 0x70 then bitOf imm 6 && bitsOf imm 5 4 != 0
  else if op = 0x71 then bitsOf imm 5 4 == 3
  else if op = 0x82 then
    let m := imm % 8; let n := bitsOf imm 5 3
    (m == 0 && n == 0) || (m != 0 && n != 0)
  else if op = 0x83 then imm % 8 == 0
  else if op = 0x84 then imm % 4 == 0 || bitsOf imm 4 2 == 0
  else if op = 0x85 then imm % 8 == 7
  else if op = 0x88 then imm % 4 == 3
  else if op = 0x89 then 2 ≤ imm % 4
  else if op = 0x8B then
    let src := bitsOf imm 13 12
    src == 3 || (src != 0 && decide (f.words = 2) && bitOf imm 0) || (src != 0 && decide (f.width < 32))
  else if op = 0x8E then imm % 4 == 0
  else if op = 0xA0 || op = 0xA1 then memGlobal w && decide (f.words = 2) && bitsOf imm 10 8 % 2 == 0
  else if op = 0xA6 then decide (f.words = 2) && bitsOf imm 10 8 % 2 == 0
  else if op = 0xA2 then 4 < bitsOf imm 10 8
  else if op = 0xA3 || op = 0xA4 then decide (f.words = 2) && bitsOf imm 12 8 % 2 == 0
  else if op = 0xC0 then
    let scaled (g : Fmt) : Bool := decide (g = .e2m1) || decide (g = .e4m3) || decide (g = .e5m2)
    (bitOf imm 4 && !scaled f) || (bitOf imm 5 && !scaled (fmtOf (imm % 16)))
  else if op = 0xC1 then bitsOf imm 5 4 == 3
  else false

/-! ### Consumers and ports (0x0206) -/

/-- Whether a consumer field breaks R193. -/
def consBad (i : Image) (f : Nat) : Bool :=
  if consValid f then consSlots f == 0 || i.count ≤ consUnit f
      || !(neededPorts (i.unit (consUnit f))).contains (consPort f)
  else f != 0

/-- Units whose table entry says that they have no consumers (R307, R323, R337). -/
def noConsumers (op : Nat) : Bool :=
  op == 0x89 || op == 0x8A || op == 0xA6 || op == 0xC2 || op == 0xC3 || op == 0xD2 || op == 0xD3

/-- Whether a unit's consumers or input edges break R193, R280, R303 or R306. -/
def wiringBad (i : Image) (streams : Nat → Option Nat) (u : Nat) : Bool :=
  let w := i.unit u; let op := uOp w
  let c0 := uCons w 0; let c1 := uCons w 1
  let needed := neededPorts w
  consBad i c0 || consBad i c1 || (consValid c1 && !consValid c0)
    || (if noConsumers op then consValid c0 || consValid c1 else !consValid c0)
    || ((op == 0x80 || op == 0x41) && !consValid c1)
    || needed.any (fun p => (i.edges.filter (fun e => e.dst == u && e.port == p)).length != 1)
    || i.edges.any (fun e => e.dst == u && (match portWords w e.port with
        | some n => (i.edgeWords streams e).getD n != n
        | none => false))

/-! ### rep and pmode (0x0207) -/

/-- Whether rep or pmode is forbidden (R79, R280, R306). -/
def repBad (w : DWord) : Bool :=
  let op := uOp w; let rep := uRep w; let pm := uPmode w
  let cvtWidths := op == 0x40 && decide ((uFmt w).width ≠ (fmtOf (bitsOf (uImm w) 7 4)).width)
  let one := cvtWidths || op == 0x41 || op == 0x42 || (0x6D ≤ op && op ≤ 0x70) || op == 0x84 || op == 0x8E || op == 0x85
    || op == 0x87 || op == 0x88 || op == 0x89 || op == 0x8A || op == 0xA5 || (0xC0 ≤ op && op ≤ 0xC3)
  let noPred := op == 0x80 || op == 0x88 || op == 0x89 || op == 0x8A || op == 0x8E || op == 0x84 || (0xC0 ≤ op && op ≤ 0xC3)
    || (op == 0x71 && bitsOf (uImm w) 5 4 == 2)
  (one && 1 < rep) || (noPred && pm != 0) || pm == 3

/-! ### Protection (0x0208) -/

/-- Whether an explicit dual or triple class stands on an always-plain unit (R305). -/
def plainBad (w : DWord) : Bool := alwaysPlain (uOp w) && (uPcl w == 1 || uPcl w == 2)

/-- Whether the sides of a check or vote unit are not the unit it protects and, on each further port, a spare of it: a plain unit of
the same opcode, format and replication, on the same side of the tile where the port matters (R371, log entry 75). -/
def sidesBad (i : Image) (g : Nat) : Bool :=
  let v := uImm (i.unit g) % 128
  let w := i.unit v
  let fixed := decide (opClass (uOp w) = some .m) || decide (opClass (uOp w) = some .x)
  let spareOk (s : Nat) : Bool :=
    s != v && uOp (i.unit s) == uOp w && uFmtCode (i.unit s) == uFmtCode w && uRep (i.unit s) == uRep w && i.classOf s == 0
      && (!fixed || bwPhys (i.bind s) / 256 == bwPhys (i.bind v) / 256)
  match i.sides g with
  | a :: rest => a != v || rest.any (fun s => !spareOk s)
  | [] => true

/-- Whether a check or vote unit breaks R195 or R371, or a dual or triple unit is not named by those that it needs in a native image
(R195, R305). -/
def guardBad (i : Image) (u : Nat) : Bool :=
  let w := i.unit u
  let named (op : Nat) : Bool := (List.range i.count).any (fun v => uOp (i.unit v) == op && uImm (i.unit v) % 128 == u)
  let triple (v : Nat) : Nat := if i.classOf v = 2 then 1 else 0
  if 0xD0 ≤ uOp w then
    let v := uImm w % 128
    uPcl w != 0 || uPmode w != 0 || i.count ≤ v || uRep w != uRep (i.unit v)
      || i.classOf v == 0 || uOp w % 2 != triple v || (0xD2 ≤ uOp w && !guardedMem (uOp (i.unit v))) || sidesBad i u
  else i.classOf u != 0
    && (!named (0xD0 + triple u) || (guardedMem (uOp w) && !named (0xD2 + triple u)))

/-! ### The matrix region (0x020A) -/

/-- The units of a block with an opcode. -/
def Image.withOp (i : Image) (op : Nat) : List Nat := (List.range i.count).filter (fun u => uOp (i.unit u) == op)

/-- Whether a producer of one of mxa's ports is not where R332 binds it: that of a or b a W-class unit replicated 16 times from west or
north depth 0, position 0, that of c or d on depth 0 of the same side. -/
def feederBad (i : Image) (port u : Nat) : Bool :=
  let side := if port % 2 = 0 then 3 else 0
  let phys := bwPhys (i.bind u)
  if port < 2 then phys != 256 * side || uRep (i.unit u) != 16 || decide (opClass (uOp (i.unit u)) ≠ some .w) else phys / 64 != 4 * side

/-- Whether the matrix units break R332, R336 or R337; what binds the feeders is judged in a native image. -/
def matrixBad (i : Image) (native core : Bool) : Bool :=
  let a := i.withOp 0xC0; let d := i.withOp 0xC1; let z := i.withOp 0xC2; let s := i.withOp 0xC3
  if core then
    match a, d with
    | [ua], [ud] =>
      let wa := i.unit ua; let wd := i.unit ud
      let int8 := decide (uFmt wa = .i8)
      1 < z.length + s.length
        || !(consValid (uCons wa 0) && consUnit (uCons wa 0) == ud && consPort (uCons wa 0) == 0 && consSlots (uCons wa 0) == 1)
        || consValid (uCons wa 1)
        || i.edges.any (fun e => e.dst == ud && e.src != ua)
        || (native && i.edges.any (fun e => e.dst == ua && feederBad i e.port e.src))
        || (decide (uFmt wd = .i32) != int8)
        || s.any (fun u => decide (uFmt (i.unit u) ≠ uFmt wd))
    | _, _ => true
  else !(a.isEmpty && d.isEmpty && z.isEmpty && s.isEmpty)

/-! ### The checks of an image without its bind section (0x02xx) -/

/-- Whether the header breaks R190 (rclose and gclose beside a boundary input other than a memory reply, which is that of a source: R96,
R303). -/
def headerBad (i : Image) : Bool :=
  field i.header 127 120 != 1 || i.dpcl == 3 || bitOf i.header.toNat 100
    || (List.range 4).any (fun j => i.dims ≤ j && i.dim j != 0)
    || (List.range i.dims).any (fun j => dimIsReg (i.dim j) && bitsOf (i.dim j) 23 5 != 0)
    || ((i.rclose || i.gclose) && !(i.suppliers []).isEmpty)

/-- The codes of the 0x02xx rows that a block's units raise; portable objects hold no check or vote unit. -/
def unitCodes (i : Image) (native core : Bool) (streams : Nat → Option Nat) : List Nat :=
  let us := List.range i.count
  let check (f : Nat → Bool) (code : Nat) : List Nat := reject (us.any f) code
  reject (headerBad i) 0x0201
    ++ check (fun u => (opClass (uOp (i.unit u))).isNone || (!native && 0xD0 ≤ uOp (i.unit u))) 0x0202
    ++ check (fun u => !formatOk (i.unit u)) 0x0203
    ++ check (fun u => roundingBad (i.unit u)) 0x0204
    ++ check (fun u => (Nat.land (uImm (i.unit u)) (0x3FFF - immMask (i.unit u))) != 0 || keyBad (i.unit u)) 0x0205
    ++ check (fun u => wiringBad i streams u) 0x0206
    ++ check (fun u => repBad (i.unit u)) 0x0207
    ++ check (fun u => plainBad (i.unit u) || (native && guardBad i u)) 0x0208
    ++ check (fun u => uOp (i.unit u) == 0x8A && i.exits ≤ uImm (i.unit u) % 8) 0x0209
    ++ reject (matrixBad i native core) 0x020A

/-! ### The bind section (0x03xx) -/

/-- Whether the corner of an L-shape is reached: the position on each arm at the corner the two sides share (R197). -/
def cornerOf (s1 s2 : Nat) : Option (Nat × Nat) :=
  match s1, s2 with
  | 0, 1 => some (63, 0)
  | 1, 0 => some (0, 63)
  | 1, 2 => some (63, 63)
  | 2, 1 => some (63, 63)
  | 2, 3 => some (0, 63)
  | 3, 2 => some (63, 0)
  | 3, 0 => some (0, 0)
  | 0, 3 => some (0, 0)
  | _, _ => none

/-- Whether a bind header breaks R197. DESIGN CHOICE (log entry 74): a rectangle has no second arm, and qlo and qhi are reserved there
with side2. -/
def bindHeaderBad (h : BitVec 128) : Bool :=
  let shape := bShape h
  let dlo := field h 112 111; let dhi := field h 110 109
  let plo := field h 108 103; let phi := field h 102 97; let qlo := field h 96 91; let qhi := field h 90 85
  field h 127 120 != 1 || shape == 3 || field h 63 0 != 0 || 32 < field h 79 74
    || (match shape with
      | 0 => dhi < dlo || phi < plo || field h 114 113 != 0 || qlo != 0 || qhi != 0
      | 1 => dhi < dlo || phi < plo || qhi < qlo
          || (match cornerOf (field h 116 115) (field h 114 113) with
              | none => true
              | some (c1, c2) => !((plo == c1 || phi == c1) && (qlo == c2 || qhi == c2)))
      | _ => field h 116 85 != 0)

/-- Whether a collar unit lies at the boundary of a region (R194): at the core or outermost, or beside a unit outside the region
(log entry 75). DESIGN CHOICE (log entry 75): at a corner, where a side ends, a unit has no neighbour on that hand and does not count
as at the boundary for it. -/
def atBoundary (h : BitVec 128) (phys : Nat) : Bool :=
  let depth := phys / 64 % 4; let p := phys % 64
  depth == 0 || depth == 3 || !inRegion h (phys - 64) || !inRegion h (phys + 64)
    || (p != 0 && !inRegion h (phys - 1)) || (p != 63 && !inRegion h (phys + 1))

/-- Whether a unit's bind word breaks R198, the depth that it declares apart. DESIGN CHOICE (log entry 74): the south units that mxd's
drain covers need not lie in the region that includes the core. -/
def bindBad (i : Image) (u : Nat) : Bool :=
  let w := i.unit u; let b := i.bind u; let op := uOp w
  let ii := bII i.bindHeader
  let others := ((List.range i.count).filter (fun v => v != u)).flatMap (fun v => (i.places v).getD [])
  let classBad := match opClass op with
    | some .core => if op = 0xC1 then bwPhys b != 512 else bwPhys b != 0
    | some .any => false
    | some cls => decide (physClass (bwPhys b) ≠ cls)
    | none => true
  classBad || ii ≤ bwSlot b
    || ((op == 0x88 || op == 0x89) && !atBoundary i.bindHeader (bwPhys b))
    || (match i.places u with
        | none => true
        | some ps => ps.any (fun p => others.contains p) || (op != 0xC1 && ps.any (fun p => !inRegion i.bindHeader p)))

/-- The elastic edges into a unit. -/
def Image.elasticIns (i : Image) (inits : List (Nat × Nat)) (u : Nat) : List Edge := i.edges.filter (fun e => e.dst == u && i.elastic inits e)

/-- Whether a unit without an elastic input declares a depth (R198). What feeds a source or a FIFO-mode load is elastic, and no edge
of the image (R74, R120, R122). -/
def noDepthBad (i : Image) (inits : List (Nat × Nat)) (fifo : List Nat) (u : Nat) : Bool :=
  (i.elasticIns inits u).isEmpty && bwDepth (i.bind u) != 0 && !(uOp (i.unit u) == 0x88 || fifo.contains u)

/-- Whether a unit's depth is below what R74 asks, or its cthresh breaks R418. -/
def depthBad (i : Image) (inits : List (Nat × Nat)) (streams : Nat → Option Nat) (u : Nat) : Bool :=
  let b := i.bind u
  (1 ≤ bwThresh b && bwThresh b ≤ 31)
    || (i.elasticIns inits u).any (fun e => bwDepth b < e.slots || bwDepth b < (i.edgeWords streams e).getD 1)

/-- Fields of a gated-port word (R199). -/
def gpUnit (w : Word) : Nat := field w 31 25
/-- Port of a gated-port word. -/
def gpPort (w : Word) : Nat := field w 24 23
/-- Whether a gated-port word names an output. -/
def gpOut (w : Word) : Bool := bitOf w.toNat 22
/-- Slot of a gated-port word. -/
def gpSlot (w : Word) : Nat := field w 21 17

/-- Whether a dimension is open (R81): an immediate trip count of 0. A register dimension is judged at cfg.fire. -/
def Image.openDim (i : Image) : Bool := (List.range i.dims).any (fun j => !dimIsReg (i.dim j) && i.dim j == 0)

/-- Whether a unit writes a gated boundary output, which may be full: an exit unit or a stream sink (R87, R317). -/
def gatedOutput (w : DWord) : Bool := uOp w == 0x8A || (uOp w == 0x89 && uImm w % 4 == 1)

/-- Whether a gated-port word may name a unit as an output: those, any other sink, and a store into scratchpad, whose FIFO may be
full (R466). -/
def outputUnit (w : DWord) : Bool := uOp w == 0x8A || uOp w == 0x89 || (uOp w == 0xA1 && !memGlobal w)

/-- Whether the gated-port words that name outputs break R199. -/
def goutsBad (i : Image) : Bool :=
  let outs := i.gports.filter gpOut
  let names := outs.map gpUnit
  names.length != (dedup names).length
    || outs.any (fun w => !outputUnit (i.unit (gpUnit w)) || !(neededPorts (i.unit (gpUnit w))).contains (gpPort w))
    || (List.range i.count).any (fun u => gatedOutput (i.unit u) && !names.contains u)

/-- Whether the gated-port words break R199. -/
def gportsBad (i : Image) (fifo : List Nat) : Bool :=
  let ins := i.gports.filter (fun w => !gpOut w)
  let lead := i.suppliers fifo
  let names := ins.map gpUnit
  i.gports.any (fun w => field w 16 0 != 0 || i.count ≤ gpUnit w || bII i.bindHeader ≤ gpSlot w)
    || i.gports.length != (dedup i.gports).length || goutsBad i
    || names.length != (dedup names).length
    || (List.range i.count).any (fun u => (uOp (i.unit u) == 0x88 || isMemReply (uOp (i.unit u))) && !names.contains u)
    || ins.any (fun w => !(uOp (i.unit (gpUnit w)) == 0x88 || isMemReply (uOp (i.unit (gpUnit w)))))
    || (i.openDim && (match ins with
        | [] => true
        | w :: _ => !lead.contains (gpUnit w) || gpSlot w != 0))

/-- The hops of a route word (R200). -/
def routeHops (w : DWord) : List Nat := (List.range (field w 62 60)).map (fun k => field w (59 - 10 * k) (50 - 10 * k))

/-- Whether two switch boxes are adjacent: neighbours along a side or a depth, or across the corner of two sides. -/
def boxesAdjacent (a b : Nat) : Bool :=
  let sa := a / 256; let da := a / 64 % 4; let pa := a % 64
  let sb := b / 256; let db := b / 64 % 4; let pb := b % 64
  if sa = sb then (da == db && (pa + 1 == pb || pb + 1 == pa)) || (pa == pb && (da + 1 == db || db + 1 == da))
  else da == db && decide (cornerOf sa sb = some (pa, pb))

/-- The routes of a bind section: the words of one edge, which follow one another with cont set on all but the last. -/
def groupRoutes : List DWord → List DWord → List (List DWord)
  | [], acc => if acc.isEmpty then [] else [acc]
  | w :: ws, acc => if bitOf w.toNat 63 then groupRoutes ws (acc ++ [w]) else (acc ++ [w]) :: groupRoutes ws []

/-- What one route uses: each box with where it leaves it (the next box, or the consumer's port beyond the last). -/
def routeUses (hops : List Nat) (port : Nat) : List (Nat × Nat) :=
  match hops with
  | [] => []
  | [h] => [(h, 1024 + port)]
  | h :: k :: rest => (h, k) :: routeUses (k :: rest) port

/-- A step on the mesh, on the package's torus of 24 by 16 tiles (R5, R6). -/
def meshStep (at_ : Nat × Nat) (dir : Nat) : Nat × Nat :=
  match dir with
  | 0 => (at_.1, (at_.2 + 15) % 16)
  | 1 => ((at_.1 + 1) % 24, at_.2)
  | 2 => (at_.1, (at_.2 + 1) % 16)
  | _ => ((at_.1 + 23) % 24, at_.2)

/-- The routers of a mesh route that starts at a side of a tile, by their offset from that tile, each with its hop; and the router
at which it ends. -/
def meshWalk : Nat × Nat → List Nat → List ((Nat × Nat) × Nat) × (Nat × Nat)
  | at_, [] => ([], at_)
  | at_, h :: hs => let r := meshWalk (meshStep at_ (h / 256)) hs; ((at_, h) :: r.1, r.2)

/-- Whether a switch box is where a core unit meets the collar (R8, R9, R332): its feeders' side at depth 0, the west for ports a
and c of mxa, the north for b and d; the south for what leaves the core and for mxd; for mxz and mxs any side but the east. -/
def coreMeets (op port : Nat) (leaves : Bool) (h : Nat) : Bool :=
  if leaves || op = 0xC1 then h / 64 == 8
  else if op = 0xC0 then h / 64 == (if port % 2 = 0 then 12 else 0)
  else h / 64 % 4 == 0 && h / 256 != 1

/-- Whether one route breaks a field rule or does not join its producer to its consumer (R200). -/
def routeBad (i : Image) (ws : List DWord) : Bool :=
  match ws with
  | [] => true
  | w :: _ =>
    let p := field w 9 3; let which := field w 2 2; let kind := field w 1 0
    let hops := ws.flatMap routeHops
    let cons := uCons (i.unit p) which
    ws.any (fun x => field x 62 60 == 0 || 5 < field x 62 60 || field x 9 0 != field w 9 0
        || (List.range 5).any (fun k => field x 62 60 ≤ k && field x (59 - 10 * k) (50 - 10 * k) != 0))
      || bitOf (ws.getLastD 0#64).toNat 63
      || 2 ≤ kind || i.count ≤ p || !consValid cons
      || (if kind = 0 then
            let ends (u h : Nat) (leaves : Bool) : Bool := match opClass (uOp (i.unit u)) with
              | some .core => coreMeets (uOp (i.unit u)) (consPort cons) leaves h
              | _ => ((i.places u).getD []).contains h
            !(ends p (hops.headD 0) true) || !(ends (consUnit cons) (hops.getLastD 0) false)
              || (hops.zip (hops.drop 1)).any (fun x => !boxesAdjacent x.1 x.2)
          else
            let router (u : Nat) : Nat × Nat := meshStep (0, 0) (bwPhys (i.bind u) / 256)
            hops.any (fun h => h % 16 != 0) || (meshWalk (router p) hops).2 != router (consUnit cons))

/-- Whether the routes break R200: one fails by itself, one edge has two, or two use one switch-box output in one modulo slot or one
channel of one hop. DESIGN CHOICE (log entry 88): an edge uses its outputs in the modulo slot in which its producer is bound. -/
def routesBad (i : Image) : Bool :=
  let rs := groupRoutes i.routes []
  let uses := rs.flatMap (fun ws =>
    let w := ws.headD 0#64
    let p := field w 9 3
    let slot := bwSlot (i.bind p)
    if field w 1 0 = 0 then (routeUses (ws.flatMap routeHops) (consPort (uCons (i.unit p) (field w 2 2)))).map (fun x => (slot, x.1, x.2))
    else [])
  let edges := rs.map (fun ws => let w := ws.headD 0#64; (field w 9 3, field w 2 2))
  let channels := rs.flatMap (fun ws =>
    let w := ws.headD 0#64
    if field w 1 0 = 1 then (meshWalk (meshStep (0, 0) (bwPhys (i.bind (field w 9 3)) / 256)) (ws.flatMap routeHops)).1 else [])
  rs.any (routeBad i) || edges.length != (dedup edges).length || uses.length != (dedup uses).length
    || channels.length != (dedup channels).length

/-- Bytes of a native image. -/
def Image.bytes (i : Image) : Nat := 32 + 12 * i.count + 4 * i.gports.length + 8 * i.routes.length

/-- The load error code of a native block image by itself (R251, R448): the lowest that applies. inits are the ports of
the block that hold initial tokens, fifo the units that are FIFO-mode loads, others the regions of the fabric load on
this tile that are not this block's strand's, streams the words of the tokens of each stream, where they are known. -/
def Image.check (i : Image) (inits : List (Nat × Nat)) (fifo : List Nat) (others : List (BitVec 128)) (streams : Nat → Option Nat) : Option Nat :=
  let us := List.range i.count
  lowestCode
    (reject (4096 < i.bytes) 0x0106
      ++ unitCodes i true (bCore i.bindHeader) streams
      ++ reject (bindHeaderBad i.bindHeader || others.any (regionsMeet i.bindHeader)) 0x0301
      ++ reject (us.any (fun u => bindBad i u || noDepthBad i inits fifo u)) 0x0302
      ++ reject (gportsBad i fifo) 0x0303
      ++ reject (routesBad i) 0x0304
      ++ reject (us.any (depthBad i inits streams)) 0x0307)

end Sys2Proof.Machine
end

