-- ==== Sys2Proof/Machine/ImageRead.lean ====
section
/-! DEFINITION. Sys2Proof/Machine/ImageRead.lean: a native block image out of its bytes (R190, R196 to R200). -/

namespace Sys2Proof.Machine

/-- Units that a phase-block header declares. -/
def headerUnits (h : Nat) : Nat := bitsOf h 119 113 + 1

/-- Bytes of a phase block: its header and unit words (R190). -/
def blockBytes (h : Nat) : Nat := 16 + 8 * headerUnits h

/-- Bytes that the bind words, gated-port words and route words take after a bind header; none follow one that is not
of version 0x01 (R197). -/
def bindBytes (units b : Nat) : Nat :=
  if bitsOf b 127 120 = 1 then 4 * units + 4 * bitsOf b 79 74 + 8 * bitsOf b 73 64 else 0

/-- The image that bytes hold; bytes that are missing count as 0. -/
def imageOf (bs : List Byte) : Image :=
  let h := recNat bs 0 16
  let n := headerUnits h
  let at_ := blockBytes h
  let b := recNat bs at_ 16
  let w := at_ + 16
  let g := bitsOf b 79 74; let r := bitsOf b 73 64
  if bitsOf b 127 120 = 1 then
    { header := BitVec.ofNat 128 h
      units := (List.range n).map (fun u => BitVec.ofNat 64 (recNat bs (16 + 8 * u) 8))
      bindHeader := BitVec.ofNat 128 b
      binds := (List.range n).map (fun u => BitVec.ofNat 32 (recNat bs (w + 4 * u) 4))
      gports := (List.range g).map (fun u => BitVec.ofNat 32 (recNat bs (w + 4 * n + 4 * u) 4))
      routes := (List.range r).map (fun u => BitVec.ofNat 64 (recNat bs (w + 4 * n + 4 * g + 8 * u) 8)) }
  else
    { header := BitVec.ofNat 128 h
      units := (List.range n).map (fun u => BitVec.ofNat 64 (recNat bs (16 + 8 * u) 8))
      bindHeader := BitVec.ofNat 128 b, binds := [], gports := [], routes := [] }

/-- The load error code of an image as cfg.load judges it (R251): a portable image is judged as one, its matrix units as those of a
region with the core, and has no bind section (0x0301). -/
def Image.loadCode (i : Image) (inits : List (Nat × Nat)) (fifo : List Nat) (others : List (BitVec 128)) (streams : Nat → Option Nat) : Option Nat :=
  if field i.bindHeader 127 120 = 1 then i.check inits fifo others streams
  else lowestCode (unitCodes i false (!(i.withOp 0xC0).isEmpty) streams ++ [0x0301])

end Sys2Proof.Machine
end

