-- ==== Sys2Proof/Machine/Links.lean ====
section
/-! DEFINITION. Sys2Proof/Machine/Links.lean: the on-package Wecel links: which carry traffic, the paths over them, and what has
no path (R5, R111, R462). -/

namespace Sys2Proof.Machine

/-- A link as a die sees it. -/
def State.link (s : State) (die l : Nat) : LinkSt := s.links.get (8 * die + l) ⟨Config.linkLanes, 0, false⟩

/-- Whether the on-package link of a die along an axis (0 x, 1 y) carries traffic: neither of its ends is down or
eclipsed. -/
def State.linkUp (s : State) (die axis : Nat) : Bool :=
  let up (d : Nat) : Bool := !(s.link d axis).down && !s.eclipsed (linkId d axis)
  up die && up (die ^^^ (axis + 1))

/-- The links that a hop across an axis takes from a die: the link itself, or the other way round the ring. -/
def State.linkPath (s : State) (die axis : Nat) : Option (List (Nat × Nat)) :=
  if s.linkUp die axis then some [(die, axis)]
  else
    let o := 1 - axis
    let d1 := die ^^^ (o + 1); let d2 := d1 ^^^ (axis + 1)
    if s.linkUp die o && s.linkUp d1 axis && s.linkUp d2 o then some [(die, o), (d1, axis), (d2, o)] else none

/-- Whether traffic between two dies has a path: between neighbours over their link or the other three, between diagonal
dies x first or y first. -/
def State.reaches (s : State) (d e : Nat) : Bool :=
  match d ^^^ e with
  | 0 => true
  | 1 => (s.linkPath d 0).isSome
  | 2 => (s.linkPath d 1).isSome
  | _ => (s.linkUp d 0 && s.linkUp (d ^^^ 1) 1) || (s.linkUp d 1 && s.linkUp (d ^^^ 2) 0)

/-- The links that traffic between two dies takes, each as the die that it leaves and its axis; none where it has no path. -/
def State.diePath (s : State) (d e : Nat) : List (Nat × Nat) :=
  match d ^^^ e with
  | 0 => []
  | 1 => (s.linkPath d 0).getD []
  | 2 => (s.linkPath d 1).getD []
  | _ => if s.linkUp d 0 && s.linkUp (d ^^^ 1) 1 then [(d, 0), (d ^^^ 1, 1)]
    else if s.linkUp d 1 && s.linkUp (d ^^^ 2) 0 then [(d, 1), (d ^^^ 2, 0)] else []

/-- Whether a path takes a link, whose two ends are one link (R5). -/
def pathTakes (die l : Nat) (path : List (Nat × Nat)) : Bool :=
  path.any (fun x => x.2 == l && (x.1 == die || x.1 == die ^^^ (l + 1)))

/-- The die that serves a physical address: its HBM's, or die 0 for the host port (R14, R110). -/
def servingDie (pa : Nat) : Nat := if inHbm pa then pa / 2 ^ 37 else 0

/-- Whether an access that an agent may make has no path to the memory that its address names. -/
def State.cutOff (s : State) (g : Agent) (va : Nat) (acc : Access) : Bool :=
  match s.walk g va with
  | .leaf l => leafAllows l.entry g.user acc && !s.reaches g.die (servingDie (l.frame + va % pageBytes l.size))
  | _ => false

end Sys2Proof.Machine
end

