-- ==== Sys2Proof/Machine/Special.lean ====
section
/-! DEFINITION. Sys2Proof/Machine/Special.lean: the special functions of the S-class units (R58, R59). Each result is the
nearest FP32 value moved by Config.sfOffset, as far as the error bound of R58 allows; exact and special results are
as the rules give them (log entry 12). The functions are evaluated in fixed point with 512 fraction bits, whose error is
far below any bound of R58. -/

namespace Sys2Proof.Machine

/-- Fraction bits of the evaluation. -/
def fxBits : Nat := 512

/-- 1 in fixed point. -/
def fxOne : Int := (2 ^ fxBits : Nat)

/-- Product in fixed point, towards −∞. -/
def fxMul (a b : Int) : Int := a * b / fxOne

/-- A finite value in fixed point, towards −∞. -/
def fxOf (n : Bool) (m : Nat) (e : Int) : Int :=
  let k := e + fxBits
  let x : Int := if 0 ≤ k then (m * 2 ^ k.toNat : Nat) else (m / 2 ^ (-k).toNat : Nat)
  if n then -x else x

/-- A fixed-point number as an exact value. -/
def fxVal (x : Int) : Val := .fin (decide (x < 0)) x.natAbs (-(fxBits : Int))

/-- The sum of n terms of a power series: term i + 1 is next i (term i). -/
def fxSeries (next : Nat → Int → Int) : Nat → Nat → Int → Int → Int
  | 0, _, _, acc => acc
  | n + 1, i, term, acc => let t := next i term; fxSeries next n (i + 1) t (acc + t)

/-- e^x for |x| at most 1. -/
def fxExpSmall (x : Int) : Int := fxSeries (fun i t => fxMul t x / ((i : Int) + 1)) 110 0 fxOne fxOne

/-- arctan(1 ÷ k). -/
def fxAtanInv (k : Int) : Int :=
  let t0 := fxOne / k
  fxSeries (fun i t => -(t * (2 * (i : Int) + 1)) / (k * k * (2 * (i : Int) + 3))) 230 0 t0 t0

/-- π (Machin's formula). -/
def fxPi : Int := 4 * (4 * fxAtanInv 5 - fxAtanInv 239)

/-- artanh(1 ÷ k). -/
def fxAtanhInv (k : Int) : Int :=
  let t0 := fxOne / k
  fxSeries (fun i t => t * (2 * (i : Int) + 1) / (k * k * (2 * (i : Int) + 3))) 80 0 t0 t0

/-- ln 2 as 18 artanh(1/26) − 2 artanh(1/4801) + 8 artanh(1/8749). -/
def fxLn2 : Int := 18 * fxAtanhInv 26 - 2 * fxAtanhInv 4801 + 8 * fxAtanhInv 8749

/-- sin of an angle of at most 4. -/
def fxSin (x : Int) : Int := fxSeries (fun i t => -(fxMul (fxMul t x) x) / ((2 * (i : Int) + 2) * (2 * i + 3))) 70 0 x x

/-- cos of an angle of at most 4. -/
def fxCos (x : Int) : Int := fxSeries (fun i t => -(fxMul (fxMul t x) x) / ((2 * (i : Int) + 1) * (2 * i + 2))) 70 0 fxOne fxOne

/-- The bits of log2 of a number of [1, 2), most significant first, by repeated squaring. -/
def fxLogBits : Nat → Int → Int → Int
  | 0, _, acc => acc
  | n + 1, y, acc =>
    let z := fxMul y y
    if 2 * fxOne ≤ z then fxLogBits n (z / 2) (2 * acc + 1) else fxLogBits n z (2 * acc)

/-- 2^(i + f) as an exact value, f of [0, 1) in fixed point. -/
def exp2Val (i : Int) (f : Int) : Val := (fxVal (fxExpSmall (fxMul f fxLn2))).scale i

/-- e^x as an exact value for |x| below 2^16. -/
def expVal (x : Int) : Val :=
  let y := x * fxOne / fxLn2
  exp2Val (y / fxOne) (y % fxOne)

/-- The error bound of R58 in ULPs; fn is the opcode less 0x48. -/
def sfBound (fn : Nat) : Nat :=
  match fn with
  | 2 => 1
  | 3 => 1
  | 5 => 3
  | 6 => 3
  | _ => 2

/-- How close to the real result a finite non-zero input's function comes: the value, and whether it is exact
(R58's exact results). -/
def sfReal (fn : Nat) (n : Bool) (m : Nat) (e : Int) : Val × Bool :=
  let v : Val := .fin n m e
  let x := fxOf n m e
  let one : Val := .fin false 1 0
  let lead := e + (Nat.log2 m : Int)
  let pow := m == 2 ^ Nat.log2 m
  let big := 8 ≤ lead
  match fn with
  | 0 =>
    if big then (if n then .fin false 1 (-400) else .inf false, true)
    else (exp2Val (x / fxOne) (x % fxOne), x % fxOne = 0)
  | 1 =>
    if pow then (Val.ofInt lead, true)
    else
      let y := (m : Int) * fxOne / (2 ^ Nat.log2 m : Nat)
      ((fxVal (lead * (2 ^ 256 : Nat) + fxLogBits 256 y 0)).scale 256, false)
  | 2 => (one.div v, pow)
  | 3 => (one.div v.sqrt, pow && lead % 2 == 0)
  | 5 =>
    if 6 ≤ lead then (.fin n (2 ^ 200 - 1) (-200), false)
    else
      let a := fxOf false m e
      let t := fxExpSmall (-(a / 32))
      let t2 := fxMul t t; let t4 := fxMul t2 t2; let t8 := fxMul t4 t4; let t16 := fxMul t8 t8; let t32 := fxMul t16 t16
      let t64 := fxMul t32 t32
      let r := (fxOne - t64) * fxOne / (fxOne + t64)
      (if lead < -100 then v else fxVal (if n then -r else r), false)
  | 6 =>
    if big then (if n then .fin false 1 (-400) else .fin false (2 ^ 200 - 1) (-200), false)
    else
      let w := expVal (if n then x else -x)
      let d := one.add w
      (if n then w.div d else one.div d, false)
  | 7 =>
    let r := x % (2 * fxPi)
    (if lead < -100 then v else fxVal (fxSin (if fxPi < r then r - 2 * fxPi else r)), false)
  | _ =>
    let r := x % (2 * fxPi)
    (fxVal (fxCos (if fxPi < r then r - 2 * fxPi else r)), false)

/-- |a − b| at most k ulps of FP32 at b. -/
def withinUlps (k : Nat) (a b : Val) : Bool :=
  match b with
  | .fin _ bm be =>
    if bm = 0 then decide (a = b)
    else
      let u := max (be + (Nat.log2 bm : Int) - 23) (-149)
      !(Val.ltOrd false (.fin false k u) (a.sub b).abs)
  | _ => false

/-- The FP32 encoding k places from another on the number line. -/
def fp32Step (x : Nat) (k : Int) : Nat :=
  let pos : Int := if x < 2 ^ 31 then (x : Int) else -((x - 2 ^ 31 : Nat) : Int)
  let p := pos + k
  if p < 0 then 2 ^ 31 + p.natAbs else p.toNat

/-- A result that is neither special nor exact: the nearest FP32 value, moved by Config.sfOffset where the moved value
keeps the bound, the sign and the range that R58 and R59 give. sigm of a negative input stays below 0.5 (R59). -/
def sfFree (fn : Nat) (x : Word) (v : Val) : Nat :=
  let negative := x.toNat / 2 ^ 31 == 1
  let below (y : Nat) : Bool := !(fn == 6 && negative) || decide (y < 0x3F00_0000)
  let near := if below (Fmt.rne .f32 v) then Fmt.rne .f32 v else 0x3EFF_FFFF
  let cand := fp32Step near (Config.sfOffset fn x)
  let value := Fmt.decode .f32 cand
  let finite := match value with
    | .fin _ _ _ => true
    | _ => false
  let inRange := fn < 5 || !(Val.ltOrd false (.fin false 1 0) value.abs)
  let sameSign := cand / 2 ^ 31 % 2 == near / 2 ^ 31 % 2
  let tiny := Val.ltOrd false v.abs (.fin false 1 (-150))
  if !tiny && cand < 2 ^ 32 && finite && inRange && below cand && sameSign && withinUlps (sfBound fn) value v then cand else near

/-- A special function of an FP32 encoding (R58, R59); fn is the opcode less 0x48. -/
def specialFn (fn : Nat) (x : Word) : Nat :=
  let f32 := Fmt.rne .f32
  match Fmt.decode .f32 x.toNat with
  | .nan => f32 .nan
  | .inf n =>
    match fn with
    | 0 => f32 (if n then .fin false 0 0 else .inf false)
    | 1 => f32 (if n then .nan else .inf false)
    | 2 => f32 (.fin n 0 0)
    | 3 => f32 (if n then .nan else .fin false 0 0)
    | 4 => f32 (if n then .nan else .inf false)
    | 5 => f32 (.fin n 1 0)
    | 6 => f32 (if n then .fin false 0 0 else .fin false 1 0)
    | _ => f32 .nan
  | .fin n m e =>
    if m = 0 then
      match fn with
      | 0 => f32 (.fin false 1 0)
      | 1 => f32 (.inf true)
      | 2 => f32 (.inf n)
      | 3 => f32 (.inf n)
      | 4 => f32 (.fin n 0 0)
      | 5 => f32 (.fin n 0 0)
      | 6 => f32 (.fin false 1 (-1))
      | 7 => f32 (.fin n 0 0)
      | _ => f32 (.fin false 1 0)
    else if fn = 4 then f32 (Val.sqrt (.fin n m e))
    else if n && (fn == 1 || fn == 3) then f32 .nan
    else
      let (v, exact) := sfReal fn n m e
      if exact then f32 v
      else
        match v with
        | .fin _ _ _ =>
          let r := f32 v
          if r % 2 ^ 31 = 0x7F80_0000 then r else sfFree fn x v
        | w => f32 w

end Sys2Proof.Machine
end

