-- ==== Sys2Proof/Machine/UnitOps.lean ====
section
/-! DEFINITION. Sys2Proof/Machine/UnitOps.lean: what the units of opcodes 0x00 to 0x71 compute on the lanes of a token
(R278, R284 to R300): arithmetic, conversion, quantisation, compare and select, the folds of reductions. -/

namespace Sys2Proof.Machine

/-! ### Lanes (R32, R278) -/

/-- The elements that a token or bundle of a format holds, lane 0 first. -/
def lanesOf (f : Fmt) (ws : List Word) : List Nat :=
  if f.width = 64 then [(ws.getD 0 0#32).toNat + (ws.getD 1 0#32).toNat * 2 ^ 32]
  else (List.range f.lanes).map (fun i => bitsOf (ws.getD 0 0#32).toNat (f.width * i + f.width - 1) (f.width * i))

/-- Elements packed into the words of one token or bundle; missing lanes hold 0. -/
def packLanes (f : Fmt) (xs : List Nat) : List Word :=
  if f.width = 64 then
    let x := xs.getD 0 0
    [BitVec.ofNat 32 x, BitVec.ofNat 32 (x / 2 ^ 32)]
  else [BitVec.ofNat 32 ((List.range f.lanes).foldl (fun acc i => acc + xs.getD i 0 % 2 ^ f.width * 2 ^ (f.width * i)) 0)]

/-- The draw of one rounded element and the generator after it: a step under .rs only (R38). -/
def drawFor (mode : Nat) (rng : Word) : Nat × Word :=
  if mode = 4 then (let s := rngStep rng; (rngDraw s, s)) else (0, rng)

/-- Lane i of every operand. -/
def laneArgs (f : Fmt) (args : List (List Word)) (i : Nat) : List Nat := args.map (fun ws => (lanesOf f ws).getD i 0)

/-! ### One lane -/

/-- The floating opcodes 0x00 to 0x0A (R284, R285): the exact result and whether it is rounded. -/
def floatOp (op : Nat) (a b c : Val) : Val × Bool :=
  match op with
  | 0x00 => (a.add b, true)
  | 0x01 => (a.sub b, true)
  | 0x02 => (a.mul b, true)
  | 0x03 => ((a.mul b).add c, true)
  | 0x04 => (a.min b, false)
  | 0x05 => (a.max b, false)
  | 0x06 => (a.abs, false)
  | 0x07 => (a.neg, false)
  | 0x08 => (a.div b, true)
  | 0x09 => (a.sqrt, true)
  | _ => ((a.mul b).sub c, true)

/-- An integer lane's number, under its format's signedness. -/
def laneInt (f : Fmt) (x : Nat) : Int := if f.isInt then sextNat x f.width else ((x % 2 ^ f.width : Nat) : Int)

/-- The integer opcodes 0x20 to 0x2F (R286, R287), as the low bits of the result. -/
def intOp (op : Nat) (f : Fmt) (a b c : Nat) : Nat :=
  let w := f.width
  let x := laneInt f a; let y := laneInt f b; let z := laneInt f c
  let n := b % 2 ^ w % w
  match op with
  | 0x20 => intBits w (x + y)
  | 0x21 => intBits w (x - y)
  | 0x22 => intBits w (x * y)
  | 0x23 => intBits w (x * y + z)
  | 0x24 => intBits w (if y < x then y else x)
  | 0x25 => intBits w (if x < y then y else x)
  | 0x26 => intBits w (if x < 0 then -x else x)
  | 0x27 => intBits w (-x)
  | 0x28 => intBits w (x * y / (2 ^ w : Nat))
  | 0x29 => intBits w (clampInt (x + y) f.least f.greatest)
  | 0x2A => intBits w (clampInt (x - y) f.least f.greatest)
  | 0x2B => Nat.land a b
  | 0x2C => Nat.lor a b
  | 0x2D => Nat.xor a b
  | 0x2E => intBits w (x * (2 ^ n : Nat))
  | _ => intBits w (x / (2 ^ n : Nat))

/-- The condition of cmp (R293). -/
def cmpHolds (cc : Nat) (f : Fmt) (a b : Nat) : Bool :=
  if f.isFloat then
    let x := f.decode a; let y := f.decode b
    if x.isNan || y.isNan then cc == 1 || cc == 6
    else
      let lt := Val.ltOrd false x y; let gt := Val.ltOrd false y x
      match cc with
      | 0 => !lt && !gt
      | 1 => lt || gt
      | 2 => lt
      | 3 => !gt
      | 4 => gt
      | 5 => !lt
      | _ => false
  else
    let x := laneInt f a; let y := laneInt f b
    match cc with
    | 0 => decide (x = y)
    | 1 => decide (x ≠ y)
    | 2 => decide (x < y)
    | 3 => decide (x ≤ y)
    | 4 => decide (y < x)
    | 5 => decide (y ≤ x)
    | _ => false

/-- min(max(a, b), c) (R295). -/
def clampLane (f : Fmt) (a b c : Nat) : Nat :=
  if f.isFloat then f.rne (((f.decode a).max (f.decode b)).min (f.decode c))
  else
    let x := laneInt f a; let lo := laneInt f b; let hi := laneInt f c
    let m := if x < lo then lo else x
    intBits f.width (if hi < m then hi else m)

/-- kcomb (R300, R51): the sum in ascending order, and whether an INT32 sum clamped. DESIGN CHOICE (log entry 90): under .rs the generator
steps once for each of the k - 1 additions of a lane, each of which rounds. -/
def kcombLane (f : Fmt) (mode : Nat) (xs : List Nat) (rng : Word) : Nat × Word × Bool :=
  match xs with
  | [] => (0, rng, false)
  | x :: rest =>
    rest.foldl (fun acc y =>
      let (v, g, sat) := acc
      if f = .f32 then
        let (d, g) := drawFor mode g
        (f.round mode d false false ((f.decode v).add (f.decode y)), g, sat)
      else
        let s := laneInt f v + laneInt f y
        let k := clampInt s f.least f.greatest
        (intBits 32 k, g, sat || decide (k ≠ s))) (x, rng, false)

/-- One lane of a unit of opcodes 0x00 to 0x2F, 0x48 to 0x50, 0x60 to 0x62 and 0x71: the result, the generator and
whether sat is set. -/
def laneResult (w : DWord) (xs : List Nat) (rng : Word) : Nat × Word × Bool :=
  let op := uOp w; let f := uFmt w; let imm := uImm w; let mode := imm % 8
  let a := xs.getD 0 0; let b := xs.getD 1 0; let c := xs.getD 2 0
  if op ≤ 0x0A then
    let (v, rounds) := floatOp op (f.decode a) (f.decode b) (f.decode c)
    if rounds then
      let (d, g) := drawFor mode rng
      (f.round mode d false false v, g, false)
    else (f.rne v, rng, false)
  else if op ≤ 0x2F then (intOp op f a b c, rng, false)
  else if op ≤ 0x50 then (specialFn (op - 0x48) (BitVec.ofNat 32 a), rng, false)
  else if op = 0x60 then ((if cmpHolds mode f a b then 2 ^ f.width - 1 else 0), rng, false)
  else if op = 0x61 then ((if c != 0 then a else b), rng, false)
  else if op = 0x62 then (clampLane f a b c, rng, false)
  else kcombLane f mode xs rng

/-- Every lane of a firing, lane 0 first (R278): the result's words, the generator, whether sat is set. -/
def tokenResult (w : DWord) (args : List (List Word)) (rng : Word) : List Word × Word × Bool :=
  let f := uFmt w
  let (rs, g, sat) := (List.range f.lanes).foldl (fun acc i =>
    let (rs, g, sat) := acc
    let (r, g, k) := laneResult w (laneArgs f args i) g
    (rs ++ [r], g, sat || k)) ([], rng, false)
  (packLanes f rs, g, sat)

/-! ### Conversion (R288 to R291) -/

/-- One element of cvt. -/
def cvtElem (s d : Fmt) (mode : Nat) (nanov : Bool) (x : Nat) (rng : Word) : Nat × Word :=
  let (k, g) := drawFor mode rng
  (d.round mode k nanov false (s.decode x), g)

/-- p_T of R55. -/
def largestPower (t : Fmt) : Int := if t = .e2m1 then 2 else if t = .e4m3 then 8 else 15

/-- The quantisation of a block by R55 and R56: elements with whether each is void. The answer: the scale, the encoded
elements, the generator, and whether the underflow row decided. -/
def quantise (t : Fmt) (mode : Nat) (xs : List (Nat × Bool)) (rng : Word) : Nat × List Nat × Word × Bool :=
  let vals := xs.map (fun x => if x.2 then Val.fin false 0 0 else Fmt.decode .f32 x.1)
  let bad := vals.any (fun v => match v with
    | .fin _ _ _ => false
    | _ => true)
  let m := vals.foldl (fun acc v => if Val.ltOrd false acc v.abs then v.abs else acc) (Val.fin false 0 0)
  let lead := m.floorLog2
  let k := lead - largestPower t + 127
  let encode (shift : Int) : List Nat × Word :=
    (xs.zip vals).foldl (fun acc x =>
      if x.1.2 then (acc.1 ++ [0], acc.2)
      else
        let (d, g) := drawFor mode acc.2
        (acc.1 ++ [t.round mode d false true (x.2.scale shift)], g)) ([], rng)
  if bad then
    let (_, g) := encode 0
    (0xFF, xs.map (fun x => if x.2 then 0 else t.rne .nan), g, false)
  else if m.isZero then
    let (es, g) := encode 0
    (0, es, g, false)
  else if k < 0 then
    let (es, g) := encode 127
    (0, es, g, true)
  else
    let (es, g) := encode (largestPower t - lead)
    (k.toNat, es, g, false)

/-- One element of dq (R57, R291). -/
def dequantise (t : Fmt) (mode : Nat) (scale x : Nat) (rng : Word) : Nat × Word :=
  let (d, g) := drawFor mode rng
  let v := if scale % 256 = 255 then Val.nan else (t.decode x).scale ((scale % 256 : Nat) - 127)
  (Fmt.round .f32 mode d false false v, g)

/-! ### Reductions and scans (R297 to R299) -/

/-- The format that a reduction's lanes are read in: .b32 as N32. -/
def redLane (f : Fmt) : Fmt := if f = .b32 then .n32 else f

/-- The identity of a reduction, in its result format. -/
def redIdentity (op : Nat) (f : Fmt) : Nat :=
  let rf := redResult op f
  match op with
  | 0x69 => if rf = .f32 then Fmt.rne .f32 (.inf true) else intBits rf.width rf.least
  | 0x6E => if rf = .f32 then Fmt.rne .f32 (.inf true) else intBits rf.width rf.least
  | 0x6A => if rf = .f32 then Fmt.rne .f32 (.inf false) else intBits rf.width rf.greatest
  | 0x6F => if rf = .f32 then Fmt.rne .f32 (.inf false) else intBits rf.width rf.greatest
  | 0x6B => 2 ^ rf.width - 1
  | _ => 0

/-- One step of a fold: p op x, both in the result format. -/
def redStep (op : Nat) (f : Fmt) (mode : Nat) (p x : Nat) (rng : Word) : Nat × Word :=
  let rf := redResult op f
  let base := if op = 0x6D then 0x68 else if op = 0x6E then 0x69 else if op = 0x6F then 0x6A else op
  if rf = .f32 then
    match base with
    | 0x68 =>
      let (d, g) := drawFor mode rng
      (rf.round mode d false false ((rf.decode p).add (rf.decode x)), g)
    | 0x69 => (rf.rne ((rf.decode p).max (rf.decode x)), rng)
    | _ => (rf.rne ((rf.decode p).min (rf.decode x)), rng)
  else
    match base with
    | 0x68 => (intBits rf.width (laneInt rf p + laneInt rf x), rng)
    | 0x69 => ((if laneInt rf p < laneInt rf x then x else p), rng)
    | 0x6A => ((if laneInt rf x < laneInt rf p then x else p), rng)
    | 0x6B => (Nat.land p x, rng)
    | _ => (Nat.lor p x, rng)

/-- A lane read exactly as the result format. -/
def redRead (op : Nat) (f : Fmt) (x : Nat) : Nat :=
  let rf := redResult op f
  if f.isFloat then rf.rne (f.decode x) else intBits rf.width (laneInt (redLane f) x)

/-- nacc's close (R299): mean and r from s1, s2 and n. -/
def naccClose (rms : Bool) (eps : Nat) (s1 s2 n : Nat) : Nat × Nat :=
  let a := Fmt.decode .f32 s1; let b := Fmt.decode .f32 s2
  let finite := match a, b with
    | .fin _ _ _, .fin _ _ _ => true
    | _, _ => false
  if !finite then (Fmt.rne .f32 .nan, Fmt.rne .f32 .nan)
  else
    let count := Val.ofInt (n : Int)
    let mean := if n = 0 || rms then 0 else Fmt.rne .f32 (a.div count)
    let e : Val := if eps = 0 then .fin false 0 0 else .fin false 1 (-(eps : Int))
    -- v + eps over the common denominator n, exactly: v·n is s2, less n·mean² when the mean is taken out
    let scaled := if rms then b else b.sub (((Fmt.decode .f32 mean).mul (Fmt.decode .f32 mean)).mul count)
    let v : Val := if n = 0 then .fin false 0 0 else if Val.ltOrd false scaled (.fin false 0 0) then .fin false 0 0 else scaled
    let den : Val := if n = 0 then .fin false 1 0 else count
    let total := v.add (e.mul den)
    let r := if total.isZero then Fmt.rne .f32 (.inf false) else Fmt.rne .f32 ((den.div total).sqrt)
    (mean, r)

end Sys2Proof.Machine
end

