-- ==== Sys2Proof/Machine/AgWord.lean ====
section
/-! DEFINITION. Sys2Proof/Machine/AgWord.lean: address-generator words (R115, R116), the loader's checks of one placement
(R117, R327, R328, R419 to R425), and the transforms (R420 to R425). -/

namespace Sys2Proof.Machine

/-! ### Fields (R115, R116) -/

/-- mode: 0 tile store, 1 FIFO, 2 line buffer. -/
def agMode (w : BitVec 256) : Nat := field w 255 252
/-- Buffers. -/
def agBuffers (w : BitVec 256) : Nat := field w 251 250 + 1
/-- Dimensions. -/
def agDims (w : BitVec 256) : Nat := field w 249 248 + 1
/-- The element format's code. -/
def agFmtCode (w : BitVec 256) : Nat := field w 247 244
/-- The element format. -/
def agFmt (w : BitVec 256) : Fmt := fmtOf (agFmtCode w)
/-- transform. -/
def agTransform (w : BitVec 256) : Nat := field w 243 240
/-- private. -/
def agPrivate (w : BitVec 256) : Bool := bitOf w.toNat 239
/-- spill. -/
def agSpill (w : BitVec 256) : Bool := bitOf w.toNat 238
/-- write. -/
def agWrite (w : BitVec 256) : Bool := bitOf w.toNat 236
/-- base, in words. -/
def agBase (w : BitVec 256) : Nat := field w 235 217
/-- extent + 1, in words. -/
def agExtent (w : BitVec 256) : Nat := field w 216 198 + 1
/-- Dimension descriptor j. -/
def agDim (w : BitVec 256) (j : Nat) : Nat := field w (89 + 36 * j) (54 + 36 * j)
/-- The count of a dimension. -/
def agCount (w : BitVec 256) (j : Nat) : Nat := bitsOf (agDim w j) 35 20 + 1
/-- The stride of a dimension. -/
def agStride (w : BitVec 256) (j : Nat) : Int := sextNat (agDim w j) 20
/-- params. -/
def agParams (w : BitVec 256) : Nat := field w 53 0
/-- w of R117: words of an element's access. -/
def agWords (w : BitVec 256) : Nat := (agFmt w).words

/-- Accesses of a pass of the affine pattern. -/
def agAccesses (w : BitVec 256) : Nat := (List.range (agDims w)).foldl (fun acc j => acc * agCount w j) 1

/-- The offset of access t of a pass, in words (R116). -/
def agOffset (w : BitVec 256) (t : Nat) : Int :=
  ((List.range (agDims w)).foldl (fun acc j => (acc.1 / agCount w j, acc.2 + ((acc.1 % agCount w j : Nat) : Int) * agStride w j)) (t, (0 : Int))).2

/-- lo of R117. -/
def agLo (w : BitVec 256) : Int :=
  (List.range (agDims w)).foldl (fun acc j => acc + min 0 (((agCount w j : Int) - 1) * agStride w j)) 0

/-- hi of R117. -/
def agHi (w : BitVec 256) : Int :=
  (List.range (agDims w)).foldl (fun acc j => acc + max 0 (((agCount w j : Int) - 1) * agStride w j)) 0 + (agWords w : Int) - 1

/-- Whether an AG word may be an indexed window (R327). Its transform field has no part in that, and none in the window's
accesses (log entry 64). -/
def agIndexed (w : BitVec 256) : Bool :=
  agMode w == 0 && !agWrite w && (List.range 4).all (fun j => agDim w j == 0)
    && (agPrivate w || agBuffers w == 1)

/-! ### Checks (R115, R117, R419 to R425) -/

/-- A reserved field, mode or transform (0x0401). -/
def agReservedBad (w : BitVec 256) : Bool :=
  2 < agMode w || (agMode w != 0 && agBuffers w != 1) || 7 < agTransform w || (agPrivate w && agMode w != 0)
    || (agSpill w && agMode w != 1) || bitOf w.toNat 237
    || (agTransform w == 0 && agParams w != 0)
    || (List.range 4).any (fun j => (agDims w ≤ j || agMode w == 1) && agDim w j != 0)
    || (agMode w == 1 && agDims w != 1)

/-- Whether a field that R115, R116, R120 or R419 marks as reserved is non-zero. -/
def agReservedSet (w : BitVec 256) : Bool :=
  let unused (lo : Nat) : Bool := agParams w / 2 ^ lo != 0
  bitOf w.toNat 237
    || (List.range 4).any (fun j => (agDims w ≤ j || agMode w == 1) && agDim w j != 0)
    || (agMode w == 1 && agDims w != 1)
    || (match agTransform w with
      | 0 => unused 0
      | 1 => unused 19
      | 2 => unused 19
      | 3 => unused 24
      | 4 => unused 28
      | 5 => unused 52
      | 6 => unused 28
      | 7 => unused 39
      | _ => false)

/-- Whether the tag or index array of a transform runs past a window of a size in bytes (R420, R425). -/
def agArrayBad (w : BitVec 256) (size : Nat) : Bool :=
  let end_ := agParams w % 2 ^ 19 + (if agTransform w = 7 then bitsOf (agParams w) 34 19 + 1 else ceilDiv (agExtent w / 64) 8)
  (agTransform w == 1 || agTransform w == 2 || agTransform w == 7) && size / 4 < end_

/-- An affine pattern outside its extent (0x0402). -/
def agAffineBad (w : BitVec 256) : Bool := agLo w < 0 || (agExtent w : Int) ≤ agHi w

/-- A window overrun or a 64-bit alignment breach (0x0403); size in bytes. -/
def agWindowBad (w : BitVec 256) (size : Nat) : Bool :=
  size / 4 < agBase w + agBuffers w * agExtent w
    || (agWords w == 2 && (agBase w % 2 == 1 || agExtent w % 2 == 1
        || (agMode w != 1 && (List.range (agDims w)).any (fun j => agStride w j % 2 != 0))))

/-- A transform word that breaks R419 to R425 (0x0407). -/
def agTransformBad (w : BitVec 256) (size : Nat) : Bool :=
  let p := agParams w; let f := agFmt w; let t := agTransform w; let wd := f.width
  let noDims := agDims w == 1 && (List.range 4).all (fun j => agDim w j == 0)
  let offset := p % 2 ^ 19
  let dataEnd := agBase w + agBuffers w * agExtent w
  if t = 0 then false
  else
    agMode w != 0 || (t == 2 && !agWrite w) || (t != 2 && t != 4 && agWrite w)
      || ((t == 3 || t == 5 || t == 6 || t == 7) && !noDims)
      || (match t with
        | 1 => p / 2 ^ 19 != 0 || agExtent w % 64 != 0 || agBuffers w != 1
            || (let n := ceilDiv (agExtent w / 64) 8
                size / 4 < offset + n || (offset < dataEnd && agBase w < offset + n))
        | 2 => p / 2 ^ 19 != 0 || agExtent w % 64 != 0 || agBuffers w != 1
            || agDims w != 1 || agStride w 0 != 1 || agCount w 0 % 64 != 0 || agBase w % 64 != 0
            || (let n := ceilDiv (agExtent w / 64) 8
                size / 4 < offset + n || (offset < dataEnd && agBase w < offset + n))
        | 3 =>
          let W := p % 4096 + 1; let H := bitsOf p 23 12 + 1
          p / 2 ^ 24 != 0 || wd == 64 || W * wd % 32 != 0 || H * wd % 32 != 0 || agExtent w < H * W * wd / 32
        | 4 =>
          let g := fmtOf (p % 16); let mx := bitOf p 8
          let small := decide (f = .e2m1) || decide (f = .e4m3) || decide (f = .e5m2)
          p / 2 ^ 28 != 0 || 4 < bitsOf p 6 4 || p % 16 == 15 || agFmtCode w == 15
            || (if mx then !small || decide (g ≠ .f32) || agBuffers w != 1 else bitsOf p 27 9 != 0)
            || (bitOf p 7 && decide ((if agWrite w then f else g) ≠ .e4m3))
            || (bitsOf p 6 4 == 4 && decide ((if agWrite w then f else g) = .e8m0))
        | 5 =>
          let Wo := p % 8192 + 1; let Ws := bitsOf p 38 26 + 1; let Hs := bitsOf p 51 39 + 1
          p / 2 ^ 52 != 0 || !(decide (f = .n8) || decide (f = .n16)) || Ws * wd % 32 != 0 || Wo * wd % 32 != 0
            || agExtent w < Hs * Ws * wd / 32
        | 6 =>
          let W := p % 8192 + 1; let H := bitsOf p 25 13 + 1
          p / 2 ^ 28 != 0 || !(decide (f = .n8) || decide (f = .n16)) || bitsOf p 27 26 == 3 || W % 2 == 1 || H % 2 == 1
            || W * wd % 32 != 0 || agExtent w < (H + H / 2) * W * wd / 32
        | _ =>
          let len := bitsOf p 38 35 + 1
          p / 2 ^ 39 != 0 || (agWords w == 2 && len % 2 == 1) || size / 4 < offset + bitsOf p 34 19 + 1)

/-! ### Transforms (R420 to R425) -/

/-- Element i of packed words of width w that a reader of words gives. -/
def packedElem (rd : Nat → Word) (base w i : Nat) : Nat :=
  if w = 64 then (rd (base + 2 * i)).toNat + (rd (base + 2 * i + 1)).toNat * 2 ^ 32
  else bitsOf (rd (base + i * w / 32)).toNat (i * w % 32 + w - 1) (i * w % 32)

/-- The stored words of the affine pattern, in pass order, at a buffer's base. -/
def patternWords (w : BitVec 256) (at_ : Nat) : List Nat :=
  (List.range (agAccesses w)).flatMap (fun t =>
    let a := ((at_ : Int) + agOffset w t).toNat
    if agWords w = 2 then [a, a + 1] else [a])

/-- The words that hold element i of packed words of width w. -/
def packedAt (base w i : Nat) : List Nat := if w = 64 then [base + 2 * i, base + 2 * i + 1] else [base + i * w / 32]

/-- The window words that decoding block k of a BDC store reads: its tag's, and those of the sectors that its tag names (R410, R420). -/
def bdcReads (rd : Nat → Word) (base tags k : Nat) : List Nat :=
  let tag := bitsOf (rd (tags + k / 8)).toNat (4 * (k % 8) + 3) (4 * (k % 8))
  (tags + k / 8) :: (if 8 < tag then [] else (List.range (8 * tag)).map (base + 64 * k + ·))

/-- Decoded logical word n of a BDC store (R420): the word, and whether its block is undecodable. -/
def bdcWord (rd : Nat → Word) (base tags n : Nat) : Word × Bool :=
  let k := n / 64
  let tag := bitsOf (rd (tags + k / 8)).toNat (4 * (k % 8) + 3) (4 * (k % 8))
  let slot := wordsToBytes ((List.range 64).map (fun i => rd (base + 64 * k + i)))
  match bdcLoad (BitVec.ofNat 4 tag) slot with
  | some ws => (ws.getD (n % 64) 0#32, false)
  | none => (rd (base + n), true)

/-- A position and weight of the resize (R423): x0, x1 and fx. -/
def resizePos (x ws wo : Nat) : Nat × Nat × Nat :=
  let q0 : Int := ((2 * (x : Int) + 1) * ws - wo) * 128 / wo
  let q := (clampInt q0 0 (((ws : Int) - 1) * 256)).toNat
  (q / 256, min (q / 256 + 1) (ws - 1), q % 256)

/-- The constants of a matrix of R424: crv, cgu, cgv, cbu. -/
def yuvMatrix (m : Nat) : Int × Int × Int × Int :=
  match m with
  | 0 => (13075, 3209, 6660, 16525)
  | 1 => (14686, 1747, 4366, 17305)
  | _ => (13752, 1535, 5328, 17545)

/-- Words of a token of a read pass. -/
def agTokenWords (w : BitVec 256) : Nat := if agTransform w = 4 then (fmtOf (agParams w % 16)).words else agWords w

/-- Tokens of a read pass (R420 to R425). -/
def agReadTokens (w : BitVec 256) : Nat :=
  let p := agParams w; let lanes := (agFmt w).lanes
  match agTransform w with
  | 3 => ceilDiv ((p % 4096 + 1) * (bitsOf p 23 12 + 1)) lanes
  | 4 => ceilDiv (agAccesses w * lanes) (fmtOf (p % 16)).lanes
  | 5 => ceilDiv ((p % 8192 + 1) * (bitsOf p 25 13 + 1)) lanes
  | 6 => ceilDiv (3 * (p % 8192 + 1) * (bitsOf p 25 13 + 1)) lanes
  | 7 => (bitsOf p 34 19 + 1) * ((bitsOf p 38 35 + 1) / agWords w)
  | _ => agAccesses w

/-- One token of a read pass as it is read: its words; 0 for data, 1 for a fault token, 2 for one of an undecodable block; the window
words read; the block of a coded store that it lies in; and the generator after it. -/
structure PassTok where
  words : List Word
  kind : Nat := 0
  reads : List Nat
  block : Option Nat := none
  rng : Word
  deriving DecidableEq, Repr

/-- Token t of a read pass (R116, R420 to R425): rd reads a window word, buf the buffer, rng the generator of
a conversion under .rs. -/
def agReadToken (w : BitVec 256) (rd : Nat → Word) (buf : Nat) (rng : Word) (t : Nat) : PassTok :=
  let p := agParams w; let f := agFmt w; let wd := f.width
  let base := agBase w + buf * agExtent w
  -- the token of a stream of n elements of format g: element i with the words that it reads
  let packed (g : Fmt) (n : Nat) (elem : Nat → List Nat × Nat) : PassTok :=
    let xs := (List.range (min n ((t + 1) * g.lanes) - t * g.lanes)).map (fun j => elem (t * g.lanes + j))
    { words := packLanes g (xs.map (fun x => x.2)), reads := dedup (xs.flatMap (fun x => x.1)), rng := rng }
  match agTransform w with
  | 0 =>
    let a := ((base : Int) + agOffset w t).toNat
    let reads := if agWords w = 2 then [a, a + 1] else [a]
    { words := reads.map rd, reads := reads, rng := rng }
  | 1 =>
    let a := (agOffset w t).toNat
    let xs := (if agWords w = 2 then [a, a + 1] else [a]).map (bdcWord rd base (p % 2 ^ 19))
    { words := xs.map (fun x => x.1), kind := if xs.any (fun x => x.2) then 2 else 0, reads := bdcReads rd base (p % 2 ^ 19) (a / 64)
      block := some (a / 64), rng := rng }
  | 3 =>
    let W := p % 4096 + 1; let H := bitsOf p 23 12 + 1
    packed f (W * H) (fun s => (packedAt base wd (s % H * W + s / H), packedElem rd base wd (s % H * W + s / H)))
  | 4 =>
    let g := fmtOf (p % 16); let mode := bitsOf p 6 4
    let scaleByte (j : Nat) : Nat := 4 * bitsOf p 27 9 + j
    let n := agAccesses w * f.lanes
    (List.range (min n ((t + 1) * g.lanes) - t * g.lanes)).foldl (fun (acc : List Nat × PassTok) j =>
      let i := t * g.lanes + j
      let a := ((base : Int) + agOffset w (i / f.lanes)).toNat
      let reads := if agWords w = 2 then [a, a + 1] else [a]
      let x := (lanesOf f (reads.map rd)).getD (i % f.lanes) 0
      let b := scaleByte (i / 32)
      let scale := bitsOf (rd (b / 4)).toNat (8 * (b % 4) + 7) (8 * (b % 4))
      let (y, r) := if bitOf p 8 then dequantise f mode scale x acc.2.rng else cvtElem f g mode (bitOf p 7) x acc.2.rng
      let ys := acc.1 ++ [y]
      (ys, { words := packLanes g ys, reads := dedup (acc.2.reads ++ reads ++ (if bitOf p 8 then [b / 4] else [])), rng := r }))
      (([] : List Nat), { words := [], reads := [], rng := rng }) |>.2
  | 5 =>
    let Wo := p % 8192 + 1; let Ho := bitsOf p 25 13 + 1; let Ws := bitsOf p 38 26 + 1; let Hs := bitsOf p 51 39 + 1
    let px (y x : Nat) : Nat := packedElem rd base wd (y * Ws + x)
    packed f (Wo * Ho) (fun s =>
      let (x0, x1, fx) := resizePos (s % Wo) Ws Wo
      let (y0, y1, fy) := resizePos (s / Wo) Hs Ho
      let v := (256 - fy) * ((256 - fx) * px y0 x0 + fx * px y0 x1) + fy * ((256 - fx) * px y1 x0 + fx * px y1 x1)
      (([(y0, x0), (y0, x1), (y1, x0), (y1, x1)] : List (Nat × Nat)).flatMap (fun q => packedAt base wd (q.1 * Ws + q.2)), (v + 32768) / 65536))
  | 6 =>
    let W := p % 8192 + 1; let H := bitsOf p 25 13 + 1
    let b := if wd = 8 then 8 else 10
    let k : Int := if wd = 8 then 1 else 4
    let sample (i : Nat) : Int := let x := packedElem rd base wd i; ((if wd = 8 then x else bitsOf x 15 6 : Nat) : Int)
    let (crv, cgu, cgv, cbu) := yuvMatrix (bitsOf p 27 26)
    let top : Int := (2 ^ b : Nat) - 1
    packed f (3 * W * H) (fun s =>
      let plane := s / (W * H); let y := s % (W * H) / W; let x := s % W
      let uv := H * W + y / 2 * W + x / 2 * 2
      let y' := sample (y * W + x) - 16 * k; let u' := sample uv - 128 * k; let v' := sample (uv + 1) - 128 * k
      let c := if plane = 0 then 9539 * y' + crv * v' else if plane = 1 then 9539 * y' - cgu * u' - cgv * v' else 9539 * y' + cbu * u'
      let chroma := if plane = 0 then [uv + 1] else if plane = 1 then [uv, uv + 1] else [uv]
      (((y * W + x) :: chroma).flatMap (packedAt base wd), (clampInt ((c + 4096) / 8192) 0 top).toNat))
  | _ =>
    let len := bitsOf p 38 35 + 1
    let n := agWords w
    let per := len / n
    let at_ := p % 2 ^ 19 + t / per
    let e := (rd at_).toNat
    let faults (cause : Nat) : PassTok :=
      { words := List.replicate n (BitVec.ofNat 32 (cause * 2 ^ 24 + e % 2 ^ 24)), kind := 1, reads := [at_], rng := rng }
    if agExtent w < e * len + len then faults 1
    else if len = 2 && e % 2 = 1 then faults 2
    else
      let ws := (List.range n).map (fun j => base + e * len + n * (t % per) + j)
      { words := ws.map rd, reads := at_ :: ws, rng := rng }

/-- Tokens that a write pass takes. -/
def agWriteTokens (w : BitVec 256) : Nat :=
  if agTransform w = 4 then
    let g := fmtOf (agParams w % 16)
    ceilDiv (agAccesses w * (agFmt w).lanes) g.lanes
  else agAccesses w

/-- What a whole write pass of a transform stores (R420, R422): window words with their addresses, scale bytes with
theirs, the generator, and whether qz's underflow row decided a block. toks are the pass's tokens, none for a void, which
writes nothing (R80, R324, log entry 63). -/
def agWritePass (w : BitVec 256) (rd : Nat → Word) (buf : Nat) (toks : List (Option (List Word))) (rng : Word) :
    List (Nat × Word) × List (Nat × Byte) × Word × Bool :=
  let p := agParams w; let f := agFmt w
  let base := agBase w + buf * agExtent w
  match agTransform w with
  | 2 =>
    let ws := (toks.zip (List.range toks.length)).map (fun x => match x.1 with
      | some t => t.getD 0 0#32
      | none => (bdcWord rd base (p % 2 ^ 19) x.2).1)
    let blocks := (chunks 64 ws).zip (List.range (ws.length / 64 + 1))
    let data := blocks.flatMap (fun x =>
      let (_, bytes) := bdcStore x.1
      let slot := bytesToWords (bytes.length / 4) bytes
      (slot.zip (List.range slot.length)).map (fun y => (base + 64 * x.2 + y.2, y.1)))
    let tagWords := (List.range (ceilDiv blocks.length 8)).map (fun j =>
      let old := (rd (p % 2 ^ 19 + j)).toNat
      let v := (List.range 8).foldl (fun acc i =>
        match blocks[8 * j + i]? with
        | some x => acc - bitsOf acc (4 * i + 3) (4 * i) * 16 ^ i + (bdcStore x.1).1.toNat * 16 ^ i
        | none => acc) old
      (p % 2 ^ 19 + j, BitVec.ofNat 32 v))
    (data ++ tagWords, [], rng, false)
  | _ =>
    let g := fmtOf (p % 16); let mode := bitsOf p 6 4
    let elems : List (Nat × Bool) := toks.flatMap (fun t =>
      match t with
      | some ws => (lanesOf g ws).map (fun x => (x, false))
      | none => (List.range g.lanes).map (fun _ => (0, true)))
    let addrs := patternWords w base
    let (out, scales, r, under) :=
      if bitOf p 8 then
        ((chunks 32 elems).zip (List.range (elems.length / 32 + 1))).foldl (fun acc x =>
          let (sc, es, r, u) := quantise f mode x.1 acc.2.2.1
          (acc.1 ++ es, acc.2.1 ++ [(4 * bitsOf p 27 9 + x.2, BitVec.ofNat 8 sc)], r, acc.2.2.2 || u))
          (([] : List Nat), ([] : List (Nat × Byte)), rng, false)
      else
        let (o, r) := elems.foldl (fun acc x =>
          if x.2 then (acc.1 ++ [0], acc.2)
          else
            let (y, r) := cvtElem g f mode (bitOf p 7) x.1 acc.2
            (acc.1 ++ [y], r)) (([] : List Nat), rng)
        (o, [], r, false)
    let words := (chunks f.lanes (out.zip elems)).flatMap (fun c =>
      (packLanes f (c.map (fun x => x.1))).map (fun v => (v, c.all (fun x => x.2.2))))
    ((addrs.zip words).filterMap (fun x => if x.2.2 then none else some (x.1, x.2.1)), scales, r, under)

end Sys2Proof.Machine
end

