-- ==== Sys2Proof/Machine/Object.lean ====
section
/-! DEFINITION. Sys2Proof/Machine/Object.lean: graph objects as they lie in memory (R218, R436 to R441, R477) and the checks of
an object that need neither an origin nor a binding (R448). -/

namespace Sys2Proof.Machine

/-! ### Sections (R436, R437) -/

/-- A directory entry: section type, index, length and offset. -/
structure Section where
  kind : Nat
  index : Nat
  length : Nat
  offset : Nat
  deriving DecidableEq, Repr

/-- The directory of an object. -/
def directory (o : List Byte) : List Section :=
  let dir := recNat o 16 8
  (List.range (min (recNat o 8 4) 256)).map (fun k =>
    let at_ := dir + 16 * k
    ⟨recNat o at_ 1, recNat o (at_ + 2) 2, recNat o (at_ + 4) 4, recNat o (at_ + 8) 8⟩)

/-- The sections of a type. -/
def sectionsOf (o : List Byte) (kind : Nat) : List Section := (directory o).filter (fun x => x.kind == kind)

/-- The bytes of a section. -/
def sectionBytes (o : List Byte) (x : Section) : List Byte := (o.drop x.offset).take x.length

/-- The graph section; empty where there is none. -/
def graphSection (o : List Byte) : Section := ((sectionsOf o 0x01).head?).getD ⟨0, 0, 0, 0⟩

/-- Whether an object is native. -/
def isNative (o : List Byte) : Bool := bitOf (recNat o 6 2) 0

/-- 0x0101: magic, version, lengths, sections. -/
def objectBad (o : List Byte) (length : Nat) : Bool :=
  let n := recNat o 8 4; let dir := recNat o 16 8
  recNat o 0 4 != 0x52504441 || 1 < recNat o 4 2 || n == 0 || 256 < n || length < 64 || length < dir + 16 * n
    || (directory o).any (fun x => x.kind == 0 || 0x0A < x.kind || x.offset % 64 != 0 || length < x.offset + x.length)
    || (sectionsOf o 0x01).length != 1 || (sectionsOf o 0x02).length != 1 || (graphSection o).length < 64
    || (sectionsOf o 0x02).any (fun x => x.length % 32 != 0)

/-! ### The graph section (R438 to R440) -/

/-- The graph section's bytes, from which every offset of its header counts (log entry 28). -/
def graphBytes (o : List Byte) : List Byte := sectionBytes o (graphSection o)

/-- Counts and offsets of the graph header. -/
def gDepth (g : List Byte) : Nat := recNat g 0 1
/-- Fabric loads. -/
def gLoads (g : List Byte) : Nat := recNat g 1 1
/-- Strand-table entries. -/
def gStrands (g : List Byte) : Nat := recNat g 2 2
/-- Compute footprint entries. -/
def gNc (g : List Byte) : Nat := recNat g 4 2
/-- Memory footprint entries. -/
def gNm (g : List Byte) : Nat := recNat g 6 2
/-- Stream-table entries. -/
def gStreams (g : List Byte) : Nat := recNat g 8 2
/-- The offset of the block area. -/
def gBlk (g : List Byte) : Nat := recNat g 40 8
/-- The native image area. -/
def gNia (g : List Byte) : Nat := recNat g 48 8
/-- A footprint entry; the nm memory entries follow the nc compute entries. -/
def gFoot (g : List Byte) (k : Nat) : Nat := recNat g (recNat g 16 8 + 4 * k) 4
/-- A strand-table entry. -/
def gStrand (g : List Byte) (k : Nat) : List Byte := (g.drop (recNat g 24 8 + 32 * k)).take 32
/-- A stream-table entry. -/
def gStream (g : List Byte) (k : Nat) : Nat := recNat g (recNat g 32 8 + 8 * k) 8

/-- Whether a table of the graph section lies outside it (log entry 28). -/
def graphBad (g : List Byte) : Bool :=
  g.length < recNat g 16 8 + 4 * (gNc g + gNm g) || g.length < recNat g 24 8 + 32 * gStrands g
    || g.length < recNat g 32 8 + 8 * gStreams g || g.length < gBlk g

/-- 0x0102: reserved fields. A depth out of 1 to 4 is taken as one (log entry 28). -/
def reservedBad (o g : List Byte) : Bool :=
  let native := isNative o
  recNat o 6 2 / 2 != 0 || (!native && (recNat o 12 4 != 0 || recNat o 32 32 != 0))
    || (List.range (min (recNat o 8 4) 256)).any (fun k => recNat o (recNat o 16 8 + 16 * k + 1) 1 != 0)
    || recNat g 10 6 != 0 || recNat g 56 8 != 0 || gDepth g == 0 || 4 < gDepth g
    || (List.range (gNc g)).any (fun k => gFoot g k / 2 ^ 18 != 0)
    || (List.range (gNm g)).any (fun k => gFoot g (gNc g + k) / 2 ^ 28 != 0)
    || (List.range (gStrands g)).any (fun k =>
        let e := gStrand g k
        recNat e 3 1 != 0 || recNat e 4 4 / 2 ^ 23 != 0 || (!native && recNat e 8 8 != 0))
    || (List.range (gStreams g)).any (fun k => gStream g k / 2 ^ 52 != 0)

/-- A footprint entry's offsets and its own field. -/
def footOf (e : Nat) : Int × Int × Nat := (sextNat (e % 256) 8, sextNat (e / 256 % 256) 8, e / 2 ^ 16)

/-- The compute footprint. -/
def computeFoot (g : List Byte) : List FootC :=
  (List.range (gNc g)).map (fun k => let (x, y, f) := footOf (gFoot g k); ⟨x, y, f % 4⟩)

/-- The memory footprint. -/
def memoryFoot (g : List Byte) : List FootM :=
  (List.range (gNm g)).map (fun k => let (x, y, f) := footOf (gFoot g (gNc g + k)); ⟨x, y, f / 2 ^ 10 % 4, f % 2 ^ 10 * 4096⟩)

/-- 0x0105: a footprint that breaks R439, a strand out of range. -/
def footBad (g : List Byte) : Bool :=
  let c := computeFoot g; let m := memoryFoot g
  let all := c.map (fun x => (x.dx, x.dy, x.dd)) ++ m.map (fun x => (x.dx, x.dy, x.dd))
  c.isEmpty || 192 < c.length || 192 < m.length || decide (c.head? ≠ some ⟨0, 0, 0⟩)
    || c.any (fun x => (x.dx + x.dy) % 2 != 0) || m.any (fun x => (x.dx + x.dy) % 2 != 1)
    || m.any (fun x => x.size == 0 || 512 * 4096 < x.size) || all.length != (dedup all).length
    || gLoads g == 0
    || (List.range (gStrands g)).any (fun k => c.length ≤ recNat (gStrand g k) 1 1 || gLoads g ≤ recNat (gStrand g k) 0 1)

/-- Bytes that one block takes in the block area, rounded up to the next block's 16-byte boundary (R440). -/
def blockSpan (native : Bool) (bs : List Byte) : Nat :=
  let head := blockBytes (recNat bs 0 16)
  let n := if native then head + 16 + bindBytes (headerUnits (recNat bs 0 16)) (recNat bs head 16) else head
  (n + 15) / 16 * 16

/-- The offsets of n consecutive blocks from one on, in the graph section. -/
def blockOffsets (native : Bool) (g : List Byte) : Nat → Nat → List Nat
  | _, 0 => []
  | at_, n + 1 => at_ :: blockOffsets native g (at_ + blockSpan native (g.drop at_)) n

/-- The blocks of a strand-table entry, by their offsets in the graph section. -/
def strandBlocks (native : Bool) (g : List Byte) (k : Nat) : List Nat :=
  let e := gStrand g k
  blockOffsets native g (gBlk g + recNat e 16 8) (recNat e 2 1)

/-- Every block of the block area, in order (R441). -/
def allBlocks (native : Bool) (g : List Byte) : List Nat :=
  sortBy id (dedup ((List.range (gStrands g)).flatMap (strandBlocks native g)))

/-- The number of a block among all (R441). -/
def blockNumber (native : Bool) (g : List Byte) (offset : Nat) : Nat := (allBlocks native g).findIdx (fun x => x == offset)

/-- The block table of a strand (R89). -/
def blockTableOf (g : List Byte) (k : Nat) : List (List Byte) :=
  let e := gStrand g k
  chunks 8 ((g.drop (gBlk g + recNat e 24 8)).take (8 * recNat e 2 1))

/-- Initial tokens (R437). -/
def initTokens (o : List Byte) : List InitTok :=
  (sectionsOf o 0x0A).flatMap (fun x =>
    (chunks 16 (sectionBytes o x)).map (fun e =>
      ⟨recNat e 0 2, recNat e 2 1, recNat e 3 1, recNat e 4 1 % 4, BitVec.ofNat 32 (recNat e 8 4)⟩))

/-- Erratum declarations. -/
def errataOf (o : List Byte) : List Half :=
  (sectionsOf o 0x09).flatMap (fun x => (chunks 2 (sectionBytes o x)).map (fun e => BitVec.ofNat 16 (leNat e)))

/-- AG words. -/
def agWordsOf (o : List Byte) : List (BitVec 256) :=
  (sectionsOf o 0x02).flatMap (fun x => (chunks 32 (sectionBytes o x)).map (fun e => BitVec.ofNat 256 (leNat e)))

/-- The stream table. -/
def streamsOf (g : List Byte) : List StreamEntry :=
  (List.range (gStreams g)).map (fun k =>
    let e := gStream g k
    ⟨e % 2 ^ 16, bitsOf e 31 16, bitsOf e 47 32, bitsOf e 51 48⟩)

/-! ### Errata (R447, R477) -/

/-- The erratum of the part: 0x0017, corrected, with a vendor emulation. -/
def partErratum : Half := 0x0017#16

/-- 0x0601 to 0x0603: the erratum outcomes, under a partition's emulation mask. -/
def errataCodes (o : List Byte) (mask : List Half) : List Nat :=
  (errataOf o).flatMap (fun e =>
    if e ≠ partErratum then [0x0602]
    else if !mask.contains e then [0x0601]
    else if isNative o then [0x0603]
    else [])

/-- The emulations that the translator inserts. -/
def emulatedOf (o : List Byte) (mask : List Half) : List Half := (dedup (errataOf o)).filter (fun e => mask.contains e)

/-! ### Relocations (R210, R218, R441) -/

/-- lo13 of R210. -/
def lo13 (x : Int) : Int := sextNat (x % 2 ^ 13).toNat 13

/-- A relocation record. -/
structure Reloc where
  offset : Nat
  symbol : Nat
  kind : Nat
  addend : Int
  deriving DecidableEq, Repr

/-- The relocations of an object: the directory entry that each patches, and the record. -/
def relocsOf (o : List Byte) : List (Nat × Reloc) :=
  let d := directory o
  ((List.range d.length).filter (fun k => ((d[k]?).map (fun x => x.kind)) == some 0x07)).flatMap (fun k =>
    match d[k]? with
    | none => []
    | some x => (chunks 16 (sectionBytes o x)).map (fun r =>
        (Config.relocTarget o k, ⟨recNat r 0 8, recNat r 8 3, recNat r 11 1, sextNat (recNat r 12 4) 32⟩)))

/-- The address of the field that a relocation fills. -/
def relocAddress (o : List Byte) (va : Nat) (r : Nat × Reloc) : Nat :=
  va + (match (directory o)[r.1]? with
    | some x => x.offset
    | none => 0) + r.2.offset

/-- What a relocation writes for a symbol's value: how many bytes, how many low bits of them, and the value of those bits; none where it
is rejected with 0x0104. DESIGN CHOICE (log entry 72): a value of type 0x07 is bounded to 32 bits where it is one as a signed or
as an unsigned number, and one of type 0x06 that is no multiple of 4 from its instruction does not fit its field. -/
def relocField (o : List Byte) (va : Nat) (r : Nat × Reloc) (s : Int) : Option (Nat × Nat × Nat) :=
  let x := s + r.2.addend
  let p : Int := (relocAddress o va r : Int)
  let bits (v : Int) (n : Nat) : Nat := (v % (2 ^ n : Nat)).toNat
  let hi (v : Int) : Option (Nat × Nat × Nat) :=
    let h := v - lo13 v
    if -(2 ^ 31) ≤ h && h < 2 ^ 31 then some (4, 19, bits (h / 2 ^ 13) 19) else none
  match r.2.kind with
  | 1 => if 0 ≤ x && x < 2 ^ 64 then some (8, 64, bits x 64) else none
  | 2 => hi x
  | 3 => some (4, 14, bits (lo13 x) 14)
  | 4 => hi (x - p)
  | 5 => some (4, 14, bits (lo13 (x - p + 4)) 14)
  | 6 => if (x - p) % 4 = 0 && -(2 ^ 25) ≤ x - p && x - p < 2 ^ 25 then some (4, 24, bits ((x - p) / 4) 24) else none
  | 7 => if -(2 ^ 31) ≤ x && x < 2 ^ 32 then some (4, 32, bits x 32) else none
  | _ => none

/-- An object's bytes with relocations resolved, as far as a value is given for them (R218). -/
def relocateBy (o : List Byte) (va : Nat) (value : Nat × Reloc → Option (Nat × Nat × Nat)) : List Byte :=
  (relocsOf o).foldl (fun acc r => match value r with
    | none => acc
    | some (bytes, bits, v) =>
      let at_ := relocAddress o va r - va
      acc.take at_ ++ leBytes bytes (recNat acc at_ bytes / 2 ^ bits * 2 ^ bits + v) ++ acc.drop (at_ + bytes)) o

/-- The native image area of an object at an address, its own field's relocation resolved (R218, R441); 0 for none. -/
def niaOf (o : List Byte) (va : Nat) : Nat :=
  gNia (graphBytes (relocateBy o va (fun r => match Config.symbol o va r.2.symbol with
    | some (.inl a) => relocField o va r a
    | _ => none)))

/-- The address of the image of block number b (R441). -/
def imageAddress (o : List Byte) (va b : Nat) : Nat :=
  if isNative o then va + (graphSection o).offset + (allBlocks true (graphBytes o)).getD b 0 else niaOf o va + 4096 * b

/-- What a relocation writes; none where its symbol has no value, or it does not fit (0x0104). -/
def relocValue (o : List Byte) (va : Nat) (r : Nat × Reloc) : Option (Nat × Nat × Nat) :=
  (Config.symbol o va r.2.symbol).bind (fun sym => relocField o va r (match sym with
    | .inl a => (a : Int)
    | .inr b => (imageAddress o va b : Int)))

/-- An object's bytes with every relocation resolved (R218). -/
def relocated (o : List Byte) (va : Nat) : List Byte := relocateBy o va (relocValue o va)

/-- Whether an object holds a relocation against a block symbol. -/
def blockReloc (o : List Byte) (va : Nat) : Bool :=
  (relocsOf o).any (fun r => match Config.symbol o va r.2.symbol with
    | some (.inr _) => true
    | _ => false)

/-! ### The graph that an object describes -/

/-- The image bytes of a block of a native object. -/
def nativeBlock (g : List Byte) (offset : Nat) : List Byte := (g.drop offset).take 4096

/-- A unit word with the consumers of another. -/
def withConsumers (w c : DWord) : DWord := (w &&& 0xFFFF_FC00_0000_3FFF#64) ||| (c &&& 0x0000_03FF_FFFF_C000#64)

/-- The native image of a block that the translator makes of its portable form (R196, R371, R442). Everything before the bind header is
as in the portable form, where every unit is plain. For a dual or triple unit spares and check or vote units follow the block's own
units, and the tokens are led to them: the count of units and the consumers are then the translator's. Which they are, and what the
bind section holds, is out of img (Config). -/
def translated (src img : List Byte) : List Byte :=
  let i := imageOf src
  let n := i.count; let m := headerUnits (recNat img 0 16)
  let bound := img.drop (blockBytes (recNat img 0 16))
  if (List.range n).all (fun u => i.classOf u == 0) then src.take (blockBytes (recNat src 0 16)) ++ bound
  else
    let h := recNat src 0 16
    let header := leBytes 16 (h - bitsOf h 119 113 * 2 ^ 113 + (max n m - 1) % 128 * 2 ^ 113)
    let word (u : Nat) : DWord := BitVec.ofNat 64 (recNat img (16 + 8 * u) 8)
    let units := (List.range (max n m)).map (fun u => if u < n then withConsumers (i.unit u) (word u) else word u)
    header ++ units.flatMap (fun w => leBytes 8 w.toNat) ++ bound

/-- The native images of an object at an address, in block order: its own, its relocations resolved, or the translator's for
an origin. -/
def imagesOf (o : List Byte) (va : Nat) (sides : List (BitVec 4)) (avoid : List Word) (emulated : List Half) : List (List Byte) :=
  let g := graphBytes (relocated o va)
  let all := allBlocks (isNative o) (graphBytes o)
  (List.range all.length).map (fun b =>
    let src := nativeBlock g (all.getD b 0)
    if isNative o then src else translated src (Config.nativeImage o sides avoid emulated b))

/-- The graph of an object at an address, once it is bound; its fields and its data are as its relocations leave them. -/
def graphOf (o : List Byte) (va : Nat) (images : List (List Byte)) (emulated : List Half) : Graph :=
  let full := relocated o va
  let g := graphBytes full; let native := isNative o
  let parsed := images.map imageOf
  let strands := (List.range (gStrands g)).map (fun k =>
    let e := gStrand g k
    let blocks := (strandBlocks native g k).map (fun x => blockNumber native g x)
    let region := if native then BitVec.ofNat 64 (recNat e 8 8)
      else match blocks.head? with
        | some b => ((parsed.getD b (imageOf [])).bindHeader.extractLsb' 64 64)
        | none => 0#64
    ({ load := recNat e 0 1, tile := recNat e 1 1, blocks := recNat e 2 1, exitTable := recNat e 4 4
       region := region, images := blocks.map (imageAddress o va), blockTable := blockTableOf g k } : StrandEntry))
  let placed := (List.range (gStrands g)).flatMap (fun k =>
    let blocks := (strandBlocks native g k).map (fun x => blockNumber native g x)
    (blocks.zip (List.range blocks.length)).map (fun x => (x.1, k, x.2)))
  { native := native, depth := gDepth g, loads := gLoads g, compute := computeFoot g, memory := memoryFoot g
    strands := strands, streams := streamsOf g, ags := agWordsOf full
    entries := (List.range (gLoads g)).map (fun l =>
      if (sectionsOf o 0x03).any (fun x => x.index == l) then some (va + Config.entryOffset o emulated l) else none)
    data := ((List.range (directory o).length).filterMap (fun k =>
      match (directory o)[k]?, Config.dataPlace o k with
      | some x, some a => if x.kind = 0x04 || x.kind = 0x05 then some (a, sectionBytes full x) else none
      | _, _ => none))
    emulated := if native || !emulated.contains partErratum then [] else (sectionsOf o 0x03).map (fun x => (va + x.offset, x.length))
    inits := initTokens full
    images := placed.map (fun x => (imageAddress o va x.1, x.2.1, x.2.2))
    parsed := placed.map (fun x => parsed.getD x.1 (imageOf [])), nia := gNia g }

end Sys2Proof.Machine
end

