-- ==== Sys2Proof/Machine/ObjectCheck.lean ====
section
/-! DEFINITION. Sys2Proof/Machine/ObjectCheck.lean: the loader's checks of an object that need no origin (R446, R448): the codes of
what is wrong with it. Each check answers the code of a rejection where it applies; the lowest is reported. -/

namespace Sys2Proof.Machine

/-- A block of a graph as the checks see it: strand ordinal, block index, image. -/
structure BlockAt where
  strand : Nat
  block : Nat
  image : Image

/-- The blocks of a graph with its images. -/
def Graph.blockList (g : Graph) : List BlockAt := (g.images.zip g.parsed).map (fun x => ⟨x.1.2.1, x.1.2.2, x.2⟩)

/-- The image of a block of a graph. -/
def Graph.imageAt (g : Graph) (strand block : Nat) : Option Image :=
  (g.blockList.find? (fun x => x.strand == strand && x.block == block)).map (fun x => x.image)

/-- The AG word that a unit word names. -/
def Graph.agWord (g : Graph) (w : DWord) : Option (BitVec 256) := (agOf w).bind (fun n => g.ags[n]?)

/-- The units of an image that are FIFO-mode loads (R303). -/
def Graph.fifoUnits (g : Graph) (i : Image) : List Nat :=
  (List.range i.count).filter (fun u => uOp (i.unit u) == 0xA0 && !memGlobal (i.unit u) &&
    (match g.agWord (i.unit u) with
      | some w => agMode w == 1
      | none => false))

/-- The words of a stream's tokens: those that the edges into its sinks carry, where they are known (R303, R317). A stream
may take its tokens from another's source, and fuel bounds that chain. -/
def Graph.streamWords (g : Graph) : Nat → Nat → Option Nat
  | 0, _ => none
  | n + 1, k => g.blockList.findSome? (fun x =>
      ((x.image.withOp 0x89).find? (fun u => uImm (x.image.unit u) % 4 == 1 && bitsOf (uImm (x.image.unit u)) 9 2 == k)).bind (fun u =>
        (x.image.edges.find? (fun e => e.dst == u && e.port == 0)).bind (x.image.edgeWords (Graph.streamWords g n))))

/-- The words of each stream of a graph. -/
def Graph.streamSizes (g : Graph) : Nat → Option Nat := g.streamWords (g.streams.length + 1)

/-- The ports of a block that hold initial tokens (R437). -/
def Graph.initPorts (g : Graph) (x : BlockAt) : List (Nat × Nat) :=
  (g.inits.filter (fun t => t.strand == x.strand && t.block == x.block)).map (fun t => (t.unit, t.port))

/-- The regions of a load on the tile of a strand that are other strands' (R61, R197). -/
def Graph.otherRegions (g : Graph) (k : Nat) : List (BitVec 128) :=
  match g.strands[k]? with
  | none => []
  | some e => ((g.strands.zip (List.range g.strands.length)).filter (fun x =>
      x.2 != k && x.1.load == e.load && x.1.tile == e.tile)).map (fun x => x.1.region ++ 0#64)

/-! ### Checks block by block -/

/-- 0x020B: a private flag over a structure that is not round-private (R190). -/
def privateBad (g : Graph) (i : Image) : Bool :=
  i.privateFlag && (List.range i.count).any (fun u => match g.agWord (i.unit u) with
    | some w => agMode w != 0 || !agPrivate w
    | none => false)

/-- Whether a unit addresses an indexed window (R327, R328). -/
def indexedOp (op : Nat) : Bool := op == 0xA2 || op == 0xA3 || op == 0xA4 || op == 0xA7 || op == 0xA8

/-- The codes of 0x0401, 0x0402, 0x0404 and 0x0409 that one unit raises. -/
def agUnitCodes (g : Graph) (w : DWord) : List Nat :=
  match agOf w with
  | none => []
  | some n =>
    match g.ags[n]? with
    | none => [0x0401]
    | some a =>
      reject (agReservedBad a) 0x0401
        ++ reject (!indexedOp (uOp w) && agMode a != 1 && agAffineBad a) 0x0402
        ++ reject ((uOp w == 0xA0 && agWrite a) || (uOp w == 0xA1 && !agWrite a)) 0x0404
        ++ reject (indexedOp (uOp w) && (!agIndexed a || (uOp w == 0xA2 && agPrivate a))) 0x0409

/-- Whether every path from a unit's output leads to port a of a global-mode memory unit, over fan and repeat units
(R131) and the check or vote unit of a protected xlat (R371) only; fuel bounds the paths. -/
def basePathOk (i : Image) : Nat → Nat → Bool
  | 0, _ => false
  | n + 1, u => (i.edges.filter (fun e => e.src == u)).all (fun e =>
      let w := i.unit e.dst; let op := uOp w
      (e.port == 0 && (op == 0xA6 || ((op == 0xA0 || op == 0xA1) && memGlobal w)))
        || (e.port == 0 && (op == 0x80 || op == 0x81) && basePathOk i n e.dst)
        || ((op == 0xD0 || op == 0xD1) && basePathOk i n e.dst))

/-- 0x0408. -/
def baseBad (i : Image) : Bool := (i.withOp 0xA5).any (fun u => !basePathOk i (i.count + 1) u)

/-- Whether an amerge's outputs reach owner units of R446 only, directly or through fans; fuel bounds the paths. -/
def amergeOk (i : Image) : Nat → Nat → Bool
  | 0, _ => false
  | n + 1, u => (i.edges.filter (fun e => e.src == u)).all (fun e =>
      let w := i.unit e.dst
      (uOp w == 0x80 && amergeOk i n e.dst)
        || (uOp w == 0xA2 && ((uFmt w).isInt || (uFmt w).isNat) && !bitOf (uImm w) 11))

/-- 0x0505. -/
def rateBad (i : Image) : Bool := (i.withOp 0x8E).any (fun u => !amergeOk i (i.count + 1) u)

/-- Whether a stream source of a native block is bound with less depth than its stream's declared minimum, or than the tokens
of one transfer (R74, R198). -/
def streamDepthBad (g : Graph) (i : Image) : Bool :=
  (i.withOp 0x88).any (fun u =>
    let n := bitsOf (uImm (i.unit u)) 9 2
    uImm (i.unit u) % 4 == 1 && (bwDepth (i.bind u) < (g.streamSizes n).getD 1
      || g.streams.any (fun y => y.number == n && bwDepth (i.bind u) < y.slots)))

/-- The codes of one block. A portable block has no bind section to judge. -/
def blockCodes (g : Graph) (x : BlockAt) : List Nat :=
  let i := x.image
  let fifo := g.fifoUnits i
  (if g.native then (i.check (g.initPorts x) fifo (g.otherRegions x.strand) g.streamSizes).toList ++ reject (streamDepthBad g i) 0x0307
    else unitCodes i false (!(i.withOp 0xC0).isEmpty) g.streamSizes)
    ++ reject (privateBad g i) 0x020B
    ++ (List.range i.count).flatMap (fun u => agUnitCodes g (i.unit u))
    ++ reject (baseBad i) 0x0408
    ++ reject (rateBad i) 0x0505

/-! ### Checks of the whole graph -/

/-- 0x0209: a block table that breaks R89. -/
def blockTableBad (g : Graph) (x : BlockAt) : Bool :=
  match g.strands[x.strand]? with
  | none => true
  | some e =>
    let row := e.blockTable.getD x.block []
    (List.range 8).any (fun k =>
      let b := (row.getD k 0#8).toNat
      if k < x.image.exits then b == 0xFF || e.blocks ≤ b else b != 0xFF)

/-- The stream sinks or sources of the graph: stream number, strand and block (R317). -/
def Graph.streamEnds (g : Graph) (op : Nat) : List (Nat × Nat × Nat) :=
  g.blockList.flatMap (fun x => (x.image.withOp op).filterMap (fun u =>
    let imm := uImm (x.image.unit u)
    if imm % 4 = 1 then some (bitsOf imm 9 2, x.strand, x.block) else none))

/-- 0x0503: streams that break R317, or a table that disagrees with them. -/
def streamsBad (g : Graph) : Bool :=
  let sinks := g.streamEnds 0x89; let sources := g.streamEnds 0x88
  let used := dedup (sinks.map (fun x => x.1) ++ sources.map (fun x => x.1))
  let table := g.streams.map (fun e => e.number)
  sinks.length != (dedup sinks).length || sources.length != (dedup sources).length
    || table.length != (dedup table).length || used.any (fun n => !table.contains n)
    || g.streams.any (fun e =>
        let a := dedup ((sinks.filter (fun x => x.1 == e.number)).map (fun x => x.2.1))
        let b := dedup ((sources.filter (fun x => x.1 == e.number)).map (fun x => x.2.1))
        decide (a ≠ [e.sink]) || decide (b ≠ [e.source]))

/-- The edges of the graph that hold no initial token, streams among them: nodes are block numbers and units. What FIFOs join is
known once the graph is placed (R466). -/
def Graph.arcs (g : Graph) : List ((Nat × Nat) × (Nat × Nat)) :=
  let bs := g.blockList
  let nodes := bs.zip (List.range bs.length)
  nodes.flatMap (fun x =>
    let held := g.initPorts x.1
    (x.1.image.edges.filter (fun e => !held.contains (e.dst, e.port))).map (fun e => ((x.2, e.src), (x.2, e.dst)))
      ++ (x.1.image.withOp 0x89).flatMap (fun u =>
          let imm := uImm (x.1.image.unit u)
          if imm % 4 = 1 then
            nodes.flatMap (fun y => ((y.1.image.withOp 0x88).filter (fun v =>
              uImm (y.1.image.unit v) % 4 == 1 && bitsOf (uImm (y.1.image.unit v)) 9 2 == bitsOf imm 9 2)).map (fun v =>
                ((x.2, u), (y.2, v))))
          else []))

/-- Arcs that lie on no cycle dropped round by round: an arc whose end is no arc's start lies on none. -/
def pruneArcs : Nat → List ((Nat × Nat) × (Nat × Nat)) → List ((Nat × Nat) × (Nat × Nat))
  | 0, l => l
  | n + 1, l =>
    let m := l.filter (fun a => l.any (fun b => b.1 == a.2))
    if m.length = l.length then l else pruneArcs n m

/-- 0x0502: a cycle with no initial token (R102), over the graph's edges and those that FIFOs add. A cycle of declared minimum 0
(0x0501) cannot be: every consumer field declares a slot (R193). -/
def cycleBad (g : Graph) (fifos : List ((Nat × Nat) × (Nat × Nat))) : Bool :=
  let l := g.arcs ++ fifos
  !(pruneArcs (l.length + 1) l).isEmpty

/-- 0x0504: more than 8 strands on a tile, or a block count that breaks R88. -/
def strandsBad (g : Graph) : Bool :=
  g.strands.any (fun e => e.blocks == 0 || 64 < e.blocks
    || 8 < (g.strands.filter (fun f => f.load == e.load && f.tile == e.tile)).length)

/-- The codes of an object that its bytes, its address and its partition's emulation mask decide: a broken layout is
0x0101, the lowest, and ends the checks. What a relocation fills is judged as it is resolved (R218). -/
def objectCodes (o : List Byte) (length va : Nat) (mask : List Half) : List Nat :=
  let full := relocated o va
  let g := graphBytes full
  if objectBad o length || graphBad (graphBytes o) || graphBad g then [0x0101]
  else
    let native := isNative o
    let all := allBlocks native g
    let bytes := all.map (fun x => if native then nativeBlock g x else (g.drop x).take 4096)
    let plain := graphOf o va bytes (emulatedOf o mask)
    let gr := if native then plain else { plain with parsed := plain.parsed.map (fun (i : Image) => { i with bindHeader := 0#128, binds := [], gports := [], routes := [] }) }
    let relocs := relocsOf o
    reject (reservedBad full g) 0x0102
      ++ reject (native && recNat o 12 4 != Config.partRevision.toNat) 0x0103
      ++ reject (relocs.any (fun r => (relocValue o va r).isNone)) 0x0104
      ++ reject (footBad g) 0x0105
      ++ reject (native && all.any (fun x => 4096 < blockSpan true (g.drop x))) 0x0106
      ++ reject (!native && niaOf o va == 0 && blockReloc o va) 0x0107
      ++ gr.blockList.flatMap (blockCodes gr)
      ++ reject (gr.blockList.any (blockTableBad gr)) 0x0209
      ++ reject (gr.ags.any agReservedBad) 0x0401
      ++ reject (streamsBad gr) 0x0503
      ++ reject (cycleBad gr []) 0x0502
      ++ reject (strandsBad gr) 0x0504
      ++ errataCodes o mask

end Sys2Proof.Machine
end

