-- ==== Sys2Proof/Machine/Placement.lean ====
section
/-! DEFINITION. Sys2Proof/Machine/Placement.lean: the free-tile map, origins, feasible placements, windows, mesh channels, and the
loader's checks of a placement (R112, R119 to R122, R348 to R350, R448, R462, R466, R476). -/

namespace Sys2Proof.Machine

/-! ### The free-tile map (R348, R467) -/

/-- Whether a partition owns pair n of the package. -/
def Part.owns (p : Part) (n : Nat) : Bool := p.formed && bitOf (p.pairs[Fin.ofNat 4 (dieOf n)]).toNat (n % 48)

/-- Whether both tiles of a pair have joined (R467). -/
def State.pairJoined (s : State) (n : Nat) : Bool :=
  s.joined.contains (islandOf n) && s.joined.contains (dieOf n * 128 + memoryIndex n)

/-- Whether a graph, or a completion record that waits (R454), holds a compute tile. -/
def State.tileHeld (s : State) (n : Nat) : Bool :=
  (s.runOfTile n).isSome || s.parts.toList.any (fun p => p.heldTiles.any (fun x => x.2.contains n))

/-- A bit of a partition's free-tile map. -/
def State.tileFree (s : State) (p : Fin 16) (n : Nat) : Bool :=
  (s.part p).owns n && s.pairJoined n && !s.tileHeld n && !s.seqEclipsed n

/-- A map of the 192 compute tiles. -/
def mapOf (f : Nat → Bool) : BitVec 192 :=
  BitVec.ofNat 192 ((List.range 192).foldl (fun acc i => if f i then acc + 2 ^ i else acc) 0)

/-- Compute tiles that a partition's graphs hold. -/
def State.tilesHeld (s : State) (p : Fin 16) : Nat :=
  (List.range 192).countP (fun n => (s.part p).owns n && s.tileHeld n)

/-- Running slots that a partition uses. -/
def State.slotsUsed (s : State) (p : Fin 16) : List Nat := (s.runs.filter (fun r => r.part == p.val)).map (fun r => r.slot)

/-! ### Origins and footprints (R349, R350) -/

/-- The compute-tile ordinal that an origin names; none where a bit that must be 0 is set or the ordinal is above 47. -/
def originTile (o : Nat) : Option Nat :=
  if o % 64 ≠ 0 || 2 ^ 14 ≤ o || 48 ≤ bitsOf o 13 8 then none else some (bitsOf o 7 6 * 48 + bitsOf o 13 8)

/-- The origin that a compute tile is. -/
def originOf (n : Nat) : Nat := dieOf n * 64 + n % 48 * 256

/-- The tile of a footprint entry at an origin, by package ordinal; none off its die. -/
def entryTile (origin : Nat) (dx dy : Int) (dd : Nat) : Option Nat :=
  let x := (computeX origin : Int) + dx
  let y := (pairY origin : Int) + dy
  if 0 ≤ x && x < 12 && 0 ≤ y && y < 8 then some (ordinalAt (dieOf origin ^^^ dd) x.toNat y.toNat) else none

/-- A footprint placed: compute tiles and memory tiles with their sizes, each by footprint index. -/
structure Placed where
  origin : Nat
  tiles : List (Nat × Nat)
  mtiles : List (Nat × Nat × Nat)
  deriving DecidableEq, Repr

/-- All of a list's answers, or none. -/
def allSome {α : Type} : List (Option α) → Option (List α)
  | [] => some []
  | none :: _ => none
  | some x :: xs => (allSome xs).map (fun ys => x :: ys)

/-- A footprint at an origin; none where an entry lies off its die. -/
def placeAt (g : Graph) (origin : Nat) : Option Placed :=
  match allSome (g.compute.map (fun c => entryTile origin c.dx c.dy c.dd)), allSome (g.memory.map (fun m => entryTile origin m.dx m.dy m.dd)) with
  | some ts, some ms =>
    some ⟨origin, (List.range ts.length).zip ts, (List.range ms.length).zip (ms.zip (g.memory.map (fun m => m.size)))⟩
  | _, _ => none

/-! ### Windows (R112) -/

/-- Bytes of a scratchpad (R12). -/
def padSize : Nat := 2 * 2 ^ 20

/-- The base of a new window of a size: the lowest that overlaps none (log entry 29). -/
def windowBase (ws : List Window) (size : Nat) : Option Nat :=
  minBy id ((0 :: ws.map (fun w => w.base + w.size)).filter (fun b =>
    b + size ≤ padSize && ws.all (fun w => b + size ≤ w.base || w.base + w.size ≤ b)))

/-! ### Mesh channels (R122, R462) -/

/-- A stream channel of a mesh link: die, column, row, direction, channel. -/
structure Hop where
  die : Nat
  x : Nat
  y : Nat
  dir : Nat
  channel : Nat
  deriving DecidableEq, Repr

/-- The hops of a mesh route from a router on, and the crossings of die edges. -/
def walkHops : Nat → Nat → Nat → List Nat → List Hop × List (Nat × Nat)
  | _, _, _, [] => ([], [])
  | d, x, y, h :: hs =>
    let dir := h / 256; let hop : Hop := ⟨d, x, y, dir, h / 16 % 16⟩
    match neighbour x y dir with
    | some (x', y') => let r := walkHops d x' y' hs; (hop :: r.1, r.2)
    | none =>
      let axis := if dir % 2 = 1 then 0 else 1
      let x' := if dir = 1 then 0 else if dir = 3 then 11 else x
      let y' := if dir = 0 then 7 else if dir = 2 then 0 else y
      let r := walkHops (d ^^^ (axis + 1)) x' y' hs
      (hop :: r.1, (d, axis) :: r.2)

/-- The mesh routes of an image. -/
def Image.meshRoutes (i : Image) : List (List DWord) := (groupRoutes i.routes []).filter (fun ws => field (ws.headD 0#64) 1 0 == 1)

/-- The hops and crossings of a mesh route of a tile's image: it starts at the router of the memory tile that its producer's side
faces. -/
def routeWalk (t : Nat) (i : Image) (ws : List DWord) : List Hop × List (Nat × Nat) :=
  match neighbour (computeX t) (pairY t) (bwPhys (i.bind (field (ws.headD 0#64) 9 3)) / 256) with
  | none => ([], [])
  | some (x, y) => walkHops (dieOf t) x y (ws.flatMap routeHops)

/-- The hops and crossings of the mesh routes of an image on a tile. -/
def imageHops (t : Nat) (i : Image) : List Hop × List (Nat × Nat) :=
  i.meshRoutes.foldl (fun acc ws => let r := routeWalk t i ws; (acc.1 ++ r.1, acc.2 ++ r.2)) ([], [])

/-- The hops and crossings of a fabric load. -/
def loadHops (g : Graph) (load : Nat) (tiles : List (Nat × Nat)) : List Hop × List (Nat × Nat) :=
  g.blockList.foldl (fun acc b =>
    match g.strands[b.strand]? with
    | none => acc
    | some e =>
      match (if e.load = load then tiles.find? (fun x => x.1 == e.tile) else none) with
      | none => acc
      | some t => let r := imageHops t.2 b.image; (acc.1 ++ r.1, acc.2 ++ r.2)) ([], [])

/-- The link channels that crossings hold; none where one has no path. -/
def State.linkChannels (s : State) (cs : List (Nat × Nat)) : Option (List (Nat × Nat)) :=
  (allSome (cs.map (fun c => s.linkPath c.1 c.2))).map (fun l => l.flatMap id)

/-- Whether every route of a load can hold a channel on every hop beside the loads that run (R122). -/
def State.channelsFree (s : State) (g : Graph) (load : Nat) (tiles : List (Nat × Nat)) : Bool :=
  let mine := loadHops g load tiles
  let others := s.runs.map (fun r => loadHops r.graph r.load r.tiles)
  let taken := others.flatMap (fun x => x.1)
  match s.linkChannels mine.2 with
  | none => false
  | some ls =>
    let all := ls ++ (others.map (fun x => (s.linkChannels x.2).getD [])).flatMap id
    mine.1.all (fun h => !taken.contains h) && ls.all (fun l => all.count l ≤ 256)

/-! ### Feasibility (R349) -/

/-- Whether an image names on a tile a collar unit that is eclipsed or whose switch box is, or routes an edge through an eclipsed switch
box (R380). -/
def State.imageEclipsed (s : State) (t : Nat) (i : Image) : Bool :=
  (List.range i.count).any (fun u => (decide (opClass (uOp (i.unit u)) ≠ some .core) || uOp (i.unit u) == 0xC1)
      && ((i.places u).getD []).any (s.collarEclipsed t))
    || ((groupRoutes i.routes []).filter (fun ws => field (ws.headD 0#64) 1 0 == 0)).any (fun ws =>
      (ws.flatMap routeHops).any (fun h => s.eclipsed (unitId (dieOf t) (computeIndex t) 2 h)))

/-- Whether an image on a tile has an M-class or X-class unit on a side that faces no memory tile (R7). -/
def Image.faceless (i : Image) (t : Nat) : Bool :=
  (List.range i.count).any (fun u =>
    let cls := opClass (uOp (i.unit u))
    (decide (cls = some .m) || decide (cls = some .x)) && (facing t (bwPhys (i.bind u) / 256)).isNone)

/-- Whether a block of a graph names an eclipsed collar unit or switch box. -/
def State.namesEclipsed (s : State) (g : Graph) (x : Placed) : Bool :=
  g.blockList.any (fun b =>
    match (g.strands[b.strand]?).bind (fun e => x.tiles.find? (fun y => y.1 == e.tile)) with
    | none => false
    | some t => s.imageEclipsed t.2 b.image)

/-! ### Spares (R371) -/

/-- The collar units of a class that a portable image takes: those of its own units, and with spares those of the copies and of the check
and vote units that its dual and triple units need as well (R305, R371). -/
def Image.takes (i : Image) (cls : Cls) (spares : Bool) : Nat :=
  ((List.range i.count).map (fun u =>
    let w := i.unit u; let r := uRep w; let sides := i.classOf u
    let own := if decide (opClass (uOp w) = some cls) then r * (if spares then 1 + sides else 1) else 0
    let checks := if spares && decide (cls = .c) && sides != 0 then r * (if guardedMem (uOp w) then 2 else 1) else 0
    own + checks)).foldl (· + ·) 0

/-- The units of a class that a tile has for a translation which avoids some: M and X units only where they face a memory tile (R7). -/
def classUnits (t : Nat) (avoid : List Word) (cls : Cls) : Nat :=
  (List.range 1024).countP (fun p => decide (physClass p = cls) && !avoid.contains (collarId t p)
    && !avoid.contains (unitId (dieOf t) (computeIndex t) 2 p)
    && !((decide (cls = .m) || decide (cls = .x)) && (facing t (p / 256)).isNone))

/-- Whether the strands of a load on a tile, whose regions share no unit, need more units of a class than the tile has: of each strand
the block that takes most. -/
def classShort (g : Graph) (x : Placed) (avoid : List Word) (spares : Bool) : Bool :=
  (List.range g.loads).any (fun l => x.tiles.any (fun t =>
    let mine := (List.range g.strands.length).filter (fun k => match g.strands[k]? with
      | some e => e.load == l && e.tile == t.1
      | none => false)
    ([.a, .w, .q, .s, .m, .x, .c] : List Cls).any (fun cls =>
      classUnits t.2 avoid cls < (mine.map (fun k =>
        ((g.blockList.filter (fun b => b.strand == k)).map (fun b => b.image.takes cls spares)).foldl max 0)).foldl (· + ·) 0)))

/-- Whether a load of a graph binds a matrix core. -/
def Graph.bindsCore (g : Graph) : Bool :=
  g.strands.any (fun e => bCore (e.region ++ 0#64)) || g.parsed.any (fun i => !(i.withOp 0xC0).isEmpty)

/-- Whether a placement is feasible for a partition; a decommissioned device runs no graph (R468). -/
def State.feasible (s : State) (p : Fin 16) (g : Graph) (x : Placed) : Bool :=
  decide (s.lifecycle ≠ 3#2) && x.tiles.all (fun t => s.tileFree p t.2)
    && !(g.bindsCore && x.tiles.any (fun t => s.coreEclipsed t.2))
    && !(g.native && s.namesEclipsed g x)
    && x.mtiles.all (fun m => (s.part p).owns m.2.1 && s.pairJoined m.2.1 && !s.mtileEclipsed m.2.1
        && (windowBase (s.mtile m.2.1).windows m.2.2).isSome)
    && decide (s.tilesHeld p + x.tiles.length ≤ (s.part p).tileQuota)
    && decide ((s.slotsUsed p).length < min (s.part p).slotQuota 32)

/-! ### The loader's checks of a placement (R448, R476) -/

/-- A placement of an AG word as the checks see it: load, memory tile, opcode, strand, block, unit, word. -/
structure AgAt where
  load : Nat
  tile : Nat
  mtile : Option Nat
  op : Nat
  strand : Nat
  block : Nat
  unit : Nat
  word : BitVec 256
  deriving DecidableEq, Repr

/-- The AG placements of a graph at a placement; a spare copy's requests are its unit's, which has the placement (R371). -/
def agPlaces (g : Graph) (x : Placed) : List AgAt :=
  g.blockList.flatMap (fun b =>
    match g.strands[b.strand]? with
    | none => []
    | some e =>
      match x.tiles.find? (fun y => y.1 == e.tile) with
      | none => []
      | some t => ((List.range b.image.count).filter (fun u => !b.image.spare u)).filterMap (fun u =>
          let w := b.image.unit u
          (g.agWord w).map (fun a =>
            ⟨e.load, t.2, facing t.2 (bwPhys (b.image.bind u) / 256), uOp w, b.strand, b.block, u, a⟩)))

/-- Whether two placements stand in one store or line buffer (R119, R121), or in one FIFO (R466). -/
def AgAt.groups (a b : AgAt) : Bool :=
  decide (a.mtile = b.mtile) && agMode a.word == agMode b.word && agBase a.word == agBase b.word && agExtent a.word == agExtent b.word
    && (if agMode a.word = 1 then agSpill a.word == agSpill b.word
        else agBuffers a.word == agBuffers b.word && agPrivate a.word == agPrivate b.word && a.load == b.load)

/-- 0x0404: a store with no writer or with two, or a FIFO grouping that breaks R466. -/
def groupBad (l : List AgAt) (a : AgAt) : Bool :=
  let mine := l.filter (fun b => a.groups b && !indexedOp b.op)
  let writers := mine.countP (fun b => agWrite b.word)
  !indexedOp a.op && (writers != 1 || (agMode a.word == 1 && mine.length != 2))

/-- The edges that FIFOs add to a graph: from each store to the load that shares its FIFO (R102, R466). -/
def fifoArcs (g : Graph) (l : List AgAt) : List ((Nat × Nat) × (Nat × Nat)) :=
  let node (a : AgAt) : Nat × Nat := (g.blockList.findIdx (fun b => b.strand == a.strand && b.block == a.block), a.unit)
  (l.filter (fun a => agMode a.word == 1 && agWrite a.word)).flatMap (fun a =>
    (l.filter (fun b => a.groups b && !agWrite b.word && !indexedOp b.op)).map (fun b => (node a, node b)))

/-- 0x0405: a FIFO between fabric loads without spill. -/
def spillBad (l : List AgAt) (a : AgAt) : Bool :=
  agMode a.word == 1 && !agSpill a.word && l.any (fun b => a.groups b && b.load != a.load)

/-- 0x0406: a line-buffer reader beyond its lines, or lines that do not fill the buffer (R121). -/
def linesBad (l : List AgAt) (a : AgAt) : Bool :=
  agMode a.word == 2 && (match l.find? (fun b => a.groups b && agWrite b.word) with
    | none => false
    | some w =>
      let len := agCount w.word 0; let lines := agCount w.word 1
      len * lines != agExtent w.word || (!agWrite a.word && decide ((len * lines : Nat) ≤ agHi a.word)))

/-- AGs of a memory tile that are not eclipsed (R380). -/
def State.agsOf (s : State) (m : Nat) : Nat := (s.agNumbers m).length

/-- Whether an M-class or X-class unit stands on a side that faces no memory tile (R7). -/
def sideBad (g : Graph) (x : Placed) : Bool :=
  g.blockList.any (fun b =>
    match (g.strands[b.strand]?).bind (fun e => x.tiles.find? (fun y => y.1 == e.tile)) with
    | none => false
    | some t => b.image.faceless t.2)

/-- The codes that a placement raises. -/
def State.placementCodes (s : State) (g : Graph) (x : Placed) : List Nat :=
  let l := agPlaces g x
  let size (a : AgAt) : Nat := match a.mtile with
    | none => padSize
    | some m => match x.mtiles.find? (fun y => y.2.1 == m) with
      | some y => y.2.2
      | none => 0
  let crowded := x.mtiles.any (fun m =>
    (dedup (l.map (fun a => a.load))).any (fun k => s.agsOf m.2.1 < l.countP (fun a => a.load == k && decide (a.mtile = some m.2.1)) + s.placedAgs m.2.1))
  reject (sideBad g x || crowded || (!g.native && s.namesEclipsed g x)) 0x0306
    ++ (if g.native then [] else g.blockList.flatMap (fun b => (b.image.check (g.initPorts b) (g.fifoUnits b.image) (g.otherRegions b.strand) g.streamSizes).toList
      ++ reject (streamDepthBad g b.image) 0x0307))
    ++ reject ((List.range g.loads).any (fun k => let h := (loadHops g k x.tiles).1; h.length != (dedup h).length)) 0x0304
    ++ reject (l.any (fun a => agWindowBad a.word (size a))) 0x0403
    ++ reject (l.any (groupBad l)) 0x0404
    ++ reject (l.any (spillBad l)) 0x0405
    ++ reject (l.any (linesBad l)) 0x0406
    ++ reject (cycleBad g (fifoArcs g l)) 0x0502
    ++ reject (l.any (fun a => agTransformBad a.word (size a))) 0x0407

end Sys2Proof.Machine
end

