-- ==== Sys2Proof/Machine/Operands.lean ====
section
/-! DEFINITION. Sys2Proof/Machine/Operands.lean: the operand forms of the sequencer: width codes (R183, R225),
immediates and branch targets (R180), ME and AM addresses and sizes (R180, R236, R241), job-card and wait operands. -/

namespace Sys2Proof.Machine

/-! ### Widths (R183, R225) -/

/-- W: 64 for codes 0b00 and 0b01, 32 for 0b10 and 0b11. -/
def widthBits (w : BitVec 2) : Nat := if w.getLsbD 1 then 32 else 64

/-- signed: codes 0b00 and 0b10. -/
def widthSigned (w : BitVec 2) : Bool := !w.getLsbD 0

/-- x or y of R225: the operand read at the width, by its signedness. -/
def operand (w : BitVec 2) (v : DWord) : Int :=
  if widthSigned w then sextNat v.toNat (widthBits w) else ((v.toNat % 2 ^ widthBits w : Nat) : Int)

/-- lo of R225: the least value of the width. -/
def widthLo (w : BitVec 2) : Int := if widthSigned w then -(2 ^ (widthBits w - 1) : Nat) else 0

/-- hi of R225: the greatest value of the width. -/
def widthHi (w : BitVec 2) : Int := if widthSigned w then (2 ^ (widthBits w - 1) : Nat) - 1 else (2 ^ widthBits w : Nat) - 1

/-- v[W−1:0] written to a register (R225): sign-extended for .i32, zero-extended for .n32. -/
def widthResult (w : BitVec 2) (v : Int) : DWord :=
  let low := (v % (2 ^ widthBits w : Nat)).toNat
  if w = 2#2 then BitVec.ofInt 64 (sextNat low 32) else BitVec.ofNat 64 low

/-- The shift count n of R225. -/
def shiftCount (w : BitVec 2) (b : DWord) : Nat := b.toNat % widthBits w

/-! ### Immediates and targets (R180, R231 to R234) -/

/-- A sign-extended immediate as 64 bits. -/
def sextImm {n : Nat} (i : BitVec n) : DWord := i.signExtend 64

/-- A zero-extended immediate as 64 bits. -/
def zextImm {n : Nat} (i : BitVec n) : DWord := i.setWidth 64

/-- The LU value sext(imm19 ++ 0^13, 32) (R180, R231). -/
def luValue (i : BitVec 19) : DWord := (i ++ 0#13 : BitVec 32).signExtend 64

/-- pc + 4 × sext(offset) (R180). -/
def branchTarget {n : Nat} (pc : DWord) (o : BitVec n) : DWord := pc + (sextImm o <<< 2)

/-! ### Memory operands (R180, R236, R241) -/

/-- The three spaces of the ME format (R180). -/
inductive Space where
  | global
  | scratch
  | localRam
  deriving DecidableEq, Repr

/-- The space a code names; the reserved code has none. -/
def spaceOf (s : BitVec 2) : Option Space :=
  if s = 0#2 then some .global else if s = 1#2 then some .scratch else if s = 2#2 then some .localRam else none

/-- Bytes of an ME access: 2^size. -/
def meBytes (z : BitVec 2) : Nat := 2 ^ z.toNat

/-- addr := rd(base) + sext(offset, 9) × 2^size (R236). -/
def meAddress (base : DWord) (z : BitVec 2) (o : BitVec 9) : DWord := base + (sextImm o <<< z.toNat)

/-- Bytes of an AM access: 4 for size 0b10, 8 for 0b11 (R180). -/
def amBytes (z : BitVec 2) : Nat := if z = 2#2 then 4 else 8

/-- What a load writes of the bytes it read: sign- or zero-extended (R239). -/
def extendLoad (g : BitVec 1) (n : Nat) (v : Nat) : DWord :=
  if g = 1#1 then BitVec.ofInt 64 (sextNat v (8 * n)) else BitVec.ofNat 64 (v % 2 ^ (8 * n))

/-- The strand that an imm8 or port field names. -/
def strandOf (k : BitVec 3) : Fin 8 := k.toFin

/-- The context that a field names. -/
def ctxOf (c : BitVec 4) : Fin 16 := c.toFin

end Sys2Proof.Machine
end

