-- ==== Sys2Proof/Machine/Flags.lean ====
section
/-! DEFINITION. Sys2Proof/Machine/Flags.lean: every condition the spec computes. The sequencer has no condition flags
(R220): compares write predicates. The sticky flags of units go into a round's flag byte (R282, R336, R458). -/

namespace Sys2Proof.Machine

/-- The four conditions of cmp (R226). -/
inductive Cond where
  | eq
  | ne
  | lt
  | ge
  deriving DecidableEq, Repr

/-- A condition of two operands read at a width (R226). -/
def condition (c : Cond) (w : BitVec 2) (a b : DWord) : Bool :=
  let x := operand w a; let y := operand w b
  match c with
  | .eq => decide (x = y)
  | .ne => decide (x ≠ y)
  | .lt => decide (x < y)
  | .ge => decide (y ≤ x)

/-- A condition of two 64-bit operands, signed where it orders (R232). -/
def branchCondition (c : Cond) (a b : DWord) : Bool := condition c 0#2 a b

/-- cmpi.eq (R229): a = sext(imm) mod 2^64. -/
def immEq (a : DWord) (i : BitVec 14) : Bool := a == sextImm i

/-- cmpi.lt (R229), signed. -/
def immLt (a : DWord) (i : BitVec 14) : Bool := decide (sext a < sext i)

/-- cmpi.ltu (R229), unsigned on the sign-extended immediate. -/
def immLtu (a : DWord) (i : BitVec 14) : Bool := decide (a.toNat < (sextImm i).toNat)

/-- Whether wait.addr is done (R185, R269): c the condition code, n the bytes compared. -/
def waitDone (c : BitVec 2) (n v value : Nat) : Bool :=
  let m := value % 2 ^ (8 * n)
  match c.toNat with
  | 0 => v == m
  | 1 => v != m
  | 2 => decide (m ≤ v)
  | _ => serialAtLeast (BitVec.ofNat 32 v) (BitVec.ofNat 32 m)

/-- sat, bit 0 of a round's flag byte (R51, R282). -/
def flagSat : Byte := 0x01#8
/-- qzuf, bit 1 (R55, R282). -/
def flagQzuf : Byte := 0x02#8
/-- msat, bit 2 (R336). -/
def flagMsat : Byte := 0x04#8
/-- discard, bit 6 (R107, R458). -/
def flagDiscard : Byte := 0x40#8
/-- partial round, bit 7 (R150, R458). -/
def flagPartial : Byte := 0x80#8

end Sys2Proof.Machine
end

