-- ==== Sys2Proof/Machine/Access.lean ====
section
/-! DEFINITION. Sys2Proof/Machine/Access.lean: the direct accesses of a sequencer (R158 to R169, R222, R236 to R243) and
the records they leave (R130, R374). -/

namespace Sys2Proof.Machine

/-- How a sequencer's access ends: the value, or the trap that R222 gives it, with its code and sy.tval. -/
inductive SeqEnd where
  | ok (v : Nat)
  | trap (code : Nat) (tval : DWord)
  deriving DecidableEq, Repr

/-- The partition of a compute tile's graph; 0 for a tile that no graph holds. -/
def State.partOfTile (s : State) (t : Nat) : Fin 16 :=
  match s.runOfTile t with
  | some r => partOf r.part
  | none => 0

/-- The graph ID of a compute tile's graph, or none. -/
def State.gidOfTile (s : State) (t : Nat) : Word :=
  match s.runOfTile t with
  | some r => r.gid
  | none => noUnit

/-- The executing sequencer as an agent, at its current privilege (R133). -/
def State.meAgent (s : State) : Agent := ⟨dieOf s.cur.val, s.partOfTile s.cur.val, s.me.ctx, !s.me.sv⟩

/-- The same as a supervisor routine acts for a user instruction: a user-mode access (R133). -/
def State.meUserAgent (s : State) : Agent := ⟨dieOf s.cur.val, s.partOfTile s.cur.val, s.me.ctx, true⟩

/-- The trap of a translation that gave nothing: page fault for a not-present, malformed, declared-invalid or poisoned
entry, access fault for a refused permission or a context the partition does not hold (R222 rows 6 to 8, R274). -/
def xfaultTrap (x : XFault) : Nat :=
  match x with
  | .noContext => 3
  | .denied => 3
  | .notPresent => 4
  | .bad => 4
  | .poisoned => 4

/-- The record of an uncorrectable error that a sequencer's read meets: kind 0x05, naming the sequencer (R243). -/
def State.logConsumed (s : State) (t : Nat) (e : MemErr) : State :=
  match s.runOfTile t with
  | none => s
  | some r =>
    let (syndrome, s1) := s.errSyndrome e
    (s1.logError (partOf r.part)
      { kind := 5, action := 4, graph := r.gid, unit := seqId t, ctx := r.ctx, round := BitVec.ofNat 32 (r.currentRound t)
        timestamp := r.timestamp (r.currentRound t), address := e.address, syndrome := syndrome }).2

/-- A table found uncorrectable during the executing sequencer's access: one record of kind 0x07 (R130). -/
def State.poisonedByMe (s : State) (table : Nat) : State :=
  let t := s.cur.val
  let n := match s.runOfTile t with
    | some r => r.currentRound t
    | none => 0
  s.logPoison (s.partOfTile t) s.me.ctx (s.gidOfTile t) (seqId t) n table

/-- Where a scratch-window address lies (R113): the memory tile and the byte in its scratchpad; none where the access
raises the access fault of row 6. -/
def State.scratchPlace (s : State) (t : Nat) (addr : DWord) (n : Nat) : Option (Nat × Nat) :=
  if field addr 63 23 ≠ 0 then none
  else
    match facing t (field addr 22 21) with
    | none => none
    | some m =>
      match s.runOfTile t with
      | none => none
      | some r =>
        match s.window r.gid m with
        | none => none
        | some w => if field addr 20 0 + n ≤ w.size then some (m, w.base + field addr 20 0) else none

/-- A read of n bytes on a space, without the alignment check of row 5: rows 6 to 9 of R222. -/
def State.seqReadBytes (s : State) (g : Agent) (sp : Space) (addr : DWord) (n : Nat) : SeqEnd × State :=
  let t := s.cur.val
  match sp with
  | .localRam =>
    if 2 ^ 16 < addr.toNat + n then (.trap 3 addr, s) else (.ok (leNat (s.me.ram.readN addr.toNat n)), s)
  | .scratch =>
    match s.scratchPlace t addr n with
    | none => (.trap 3 addr, s)
    | some (m, a) =>
      if s.padBad m a n then (.trap 3 addr, (s.padMet m a n).logConsumed t padErr)
      else (.ok (leNat (s.padBytes m a n)), s)
  | .global =>
    if field addr 63 52 ≠ 0 then (.trap 3 addr, s)
    else
      match s.virtRead g addr.toNat n .read with
      | (.ok bs, s1) => (.ok (leNat bs), s1.countHot g addr.toNat .read)
      | (.uncorrectable e, s1) => (.trap 3 addr, s1.logConsumed t e)
      | (.fault x, s1) => (.trap (xfaultTrap x) addr, s1)
      | (.poison table, s1) => (.trap 4 addr, s1.poisonedByMe table)

/-- A write of n bytes on a space, without the alignment check. -/
def State.seqWriteBytes (s : State) (g : Agent) (sp : Space) (addr : DWord) (n : Nat) (v : Nat) : SeqEnd × State :=
  let t := s.cur.val
  match sp with
  | .localRam =>
    if 2 ^ 16 < addr.toNat + n then (.trap 3 addr, s)
    else (.ok 0, s.modMe (fun q => { q with ram := q.ram.writeN addr.toNat (leBytes n v) }))
  | .scratch =>
    match s.scratchPlace t addr n with
    | none => (.trap 3 addr, s)
    | some (m, a) => (.ok 0, s.padWrite m a (leBytes n v))
  | .global =>
    if field addr 63 52 ≠ 0 then (.trap 3 addr, s)
    else
      match s.virtWrite g addr.toNat (leBytes n v) with
      | (.ok pa, s1) => (.ok 0, (s1.modMe (fun q => { q with il1 := markOwn pa n q.il1 })).countHot g addr.toNat .write)
      | (.fault x, s1) => (.trap (xfaultTrap x) addr, s1)
      | (.poison table, s1) => (.trap 4 addr, s1.poisonedByMe table)

/-- A naturally aligned direct load: rows 5 to 9 of R222 (R237, R238). -/
def State.seqLoad (s : State) (sp : Space) (addr : DWord) (n : Nat) : SeqEnd × State :=
  if addr.toNat % n ≠ 0 then (.trap 2 addr, s) else s.seqReadBytes s.meAgent sp addr n

/-- A naturally aligned direct store (R240). -/
def State.seqStore (s : State) (sp : Space) (addr : DWord) (n v : Nat) : SeqEnd × State :=
  if addr.toNat % n ≠ 0 then (.trap 2 addr, s) else s.seqWriteBytes s.meAgent sp addr n v

/-- The mtype of the page an address lies in, for the executing sequencer, and whether its frame is in the host range
(R165, R269). -/
def State.pageKind (s : State) (addr : DWord) : Option (Nat × Bool) :=
  match s.walk s.meAgent addr.toNat with
  | .leaf l => some (leafMtype l.entry, decide (hostBase ≤ l.frame))
  | _ => none

/-- Rows 5 to 8 of R222 for an atomic at an address, the access treated as a write (R165, R242): the trap, if any, and
the state with the leaf's accessed and dirty bits set. DESIGN CHOICE (log entry 79): the bits are set before the page's kind is judged
and before the atomic waits for its round, so an atomic that is refused or still waits has set them. -/
def State.atomicCheck (s : State) (addr : DWord) (n : Nat) : Option (Nat × DWord) × State :=
  if addr.toNat % n ≠ 0 then (some (2, addr), s)
  else if field addr 63 52 ≠ 0 then (some (3, addr), s)
  else
    match s.translate s.meAgent addr.toNat .write with
    | (.fault x, s1) => (some (xfaultTrap x, addr), s1)
    | (.poison table, s1) => (some (4, addr), s1.poisonedByMe table)
    | (.ok _ l, s1) =>
      if leafMtype l.entry == 1 && hostBase ≤ l.frame then (some (3, addr), s1) else (none, s1)

/-- An indivisible read and write at an address (R164, R242, R270): the new value from the old one, none when nothing is
written. Row 9 of R222 when the old value is uncorrectable: no memory and no register changes (R243). -/
def State.atomicDo (s : State) (addr : DWord) (n : Nat) (f : Nat → Option Nat) : SeqEnd × State :=
  let g := s.meAgent
  match s.translate g addr.toNat .write with
  | (.fault x, s1) => (.trap (xfaultTrap x) addr, s1)
  | (.poison table, s1) => (.trap 4 addr, s1.poisonedByMe table)
  | (.ok pa l, s1) =>
    if s1.physBad pa n then (.trap 3 addr, (s1.eccMet pa n).logConsumed s.cur.val (s1.memErr pa n false))
    else
      let old := leNat (s1.physBytes pa n)
      match f old with
      | none => (.ok old, s1.touchL2 pa n)
      | some v =>
        (.ok old, (((s1.physWrite (leafComp l.entry == 1) pa (leBytes n v)).touchL2 pa n).modMe (fun q => { q with il1 := markOwn pa n q.il1 })).countHot g
          addr.toNat .write)

end Sys2Proof.Machine
end

