-- ==== Sys2Proof/Machine/Unit.lean ====
section
/-! DEFINITION. Sys2Proof/Machine/Unit.lean: one firing of one collar unit, as far as it needs nothing but the unit's own
state and its input edges (R67 to R100, R276 to R322, R339, R340). Memory units are in UnitMem.lean. -/

namespace Sys2Proof.Machine

/-! ### Tokens (R63 to R66) -/

/-- The kind of a tag: 0 data, 1 void, 2 stop, 3 marker. -/
def tagKind (t : Byte) : Nat := field t 7 6
/-- The level of a stop. -/
def tagLevel (t : Byte) : Nat := field t 5 4 + 1
/-- The subtype of a marker: 0 end of round, 1 reconfiguration, 2 end of graph. -/
def tagSub (t : Byte) : Nat := field t 5 4
/-- The error bit. -/
def tagError (t : Byte) : Bool := t.getLsbD 3
/-- The fault bit. -/
def tagFault (t : Byte) : Bool := t.getLsbD 2

/-- Data. -/
def Item.isData (i : Item) : Bool := tagKind i.tag == 0
/-- A data or void token or bundle. -/
def Item.isElem (i : Item) : Bool := tagKind i.tag ≤ 1
/-- A void token or bundle. -/
def Item.isVoid (i : Item) : Bool := tagKind i.tag == 1
/-- A stop. -/
def Item.isStop (i : Item) : Bool := tagKind i.tag == 2
/-- A marker. -/
def Item.isMarker (i : Item) : Bool := tagKind i.tag == 3
/-- A fault token. -/
def Item.isFault (i : Item) : Bool := i.isData && tagFault i.tag
/-- An error-tagged token. -/
def Item.isError (i : Item) : Bool := i.isElem && tagError i.tag
/-- The first word. -/
def Item.word (i : Item) : Word := i.words.getD 0 0#32
/-- The last word: the index of a stamped record (R311). -/
def Item.lastWord (i : Item) : Word := i.words.getLastD 0#32
/-- True as a predicate or condition (R79): data with a non-zero payload. -/
def Item.isTrue (i : Item) : Bool := i.isData && !i.isFault && i.words.any (fun w => decide (w ≠ 0#32))

/-- The tag of a data or void token. -/
def elemTag (void fault error : Bool) : Byte :=
  (if void then 0x40#8 else 0#8) ||| (if fault && !void then 0x04#8 else 0#8) ||| (if error then 0x08#8 else 0#8)

/-- A stop token. -/
def stopItem (level : Nat) : Item := { words := [0#32], tag := BitVec.ofNat 8 (0x80 + 16 * ((min level 4) - 1)) }

/-- A marker. -/
def markerItem (sub : Nat) (payload : Word) : Item := { words := [payload], tag := BitVec.ofNat 8 (0xC0 + 16 * sub) }

/-- A fault token (R65), as a bundle of n equal words (R68). -/
def faultItem (n cause index : Nat) : Item :=
  { words := List.replicate n (BitVec.ofNat 32 (cause * 2 ^ 24 + index % 2 ^ 24)), tag := 0x04#8 }

/-- A void token or bundle. -/
def voidItem (n : Nat) (error : Bool) (origin : Option Origin) : Item :=
  { words := List.replicate n 0#32, tag := elemTag true false error, origin := origin }

/-- The error bit and origin that an output takes from the tokens consumed to form it (R279): the first tagged one's. -/
def errorOf (items : List Item) : Bool × Option Origin :=
  match items.find? Item.isError with
  | some i => (true, i.origin)
  | none => (false, none)

/-- A data item with the error of the tokens consumed. -/
def dataItem (words : List Word) (from_ : List Item) : Item :=
  let (e, o) := errorOf from_
  { words := words, tag := elemTag false false e, origin := o }

/-- A fault token as a unit emits it in place of an n-word result, unchanged but for the error bit (R67). -/
def faultOut (n : Nat) (f : Item) (from_ : List Item) : Item :=
  let (e, o) := errorOf from_
  { words := List.replicate n f.word, tag := elemTag false true e, origin := o }

/-! ### A unit's surroundings -/

/-- What a firing sees beside the unit's state: the block, the unit, the strand's ordinal, the launch seed, the region's
advance count, the first round that may not fire (R152), the arguments of the phase, its trip counts and where its counters
began anew (R83), iterations issued, and the phase's punctuation for units without an input port (R478). -/
structure UEnv where
  image : Image
  u : Nat
  strand : Nat
  seed : DWord
  adv : Nat
  limit : Nat
  args : DWord × DWord
  trips : List Nat
  segs : List (Nat × List Nat)
  issued : Nat
  puncts : List Punct

/-- What a firing asks of the machine. -/
inductive Eff where
  | broken
  | exit (e : Nat) (v : Word)
  | exitError (i : Item)
  | terminal (i : Item)
  | streamPut (s : Nat) (i : Item)
  | flags (round : Nat) (f : Byte) (copies : List Byte)
  | generated (round : Nat)
  | minority (side point position : Nat)
  | mismatch (point : Nat) (positions : List Nat)
  | noMajority (point : Nat) (positions : List Nat)
  | checkFlags (round : Nat)
  deriving DecidableEq, Repr

/-- A firing's result. -/
structure UStep where
  st : UnitSt
  effs : List Eff := []
  deriving DecidableEq, Repr

/-- The unit's word. -/
def UEnv.w (e : UEnv) : DWord := e.image.unit e.u

/-- The unit whose key a spare copy takes: the one that the check or vote unit it feeds protects (R40). -/
def UEnv.keyUnit (e : UEnv) : Nat :=
  match e.image.edges.find? (fun x => x.src == e.u && 0xD0 ≤ uOp (e.image.unit x.dst)) with
  | some x => uImm (e.image.unit x.dst) % 128
  | none => e.u

/-- Words of the result on a consumer, given what port a holds. -/
def UEnv.out (e : UEnv) (which : Nat) (a : List Item) : Nat := outWords e.w which ((a.head?.map (fun i => i.words.length)).getD 1)

/-- The head of a port, once it is due. -/
def UnitSt.head (st : UnitSt) (adv p : Nat) : Option Item :=
  match st.ports.getD p [] with
  | i :: _ => if i.due ≤ adv then some i else none
  | [] => none

/-- The state without the heads of some ports. -/
def UnitSt.pop (st : UnitSt) (ps : List Nat) : UnitSt :=
  { st with ports := (st.ports.zip (List.range 4)).map (fun x => if ps.contains x.2 then x.1.drop 1 else x.1) }

/-- The round that the unit is in: the next marker it expects. -/
def UnitSt.round (st : UnitSt) : Nat := ((st.nextRound.filterMap id).head?).getD 0

/-- An item written to the consumer fields named. -/
def UnitSt.push (st : UnitSt) (e : UEnv) (whichs : List Nat) (i : Item) : UnitSt :=
  { st with out := st.out ++ (whichs.filter (fun k => consValid (uCons e.w k))).map (fun k => (k, i)) }

/-- An item written to both consumers. -/
def UnitSt.emit (st : UnitSt) (e : UEnv) (i : Item) : UnitSt := st.push e [0, 1] i

/-- The disturbance of a copy's next data token (log entry 6): its words are changed, or it is left out, which a check or
vote unit sees as an inactive copy. -/
def UnitSt.disturb (st : UnitSt) (copy : Nat) (i : Item) : Item × UnitSt :=
  if !i.isData || i.isFault then (i, st)
  else if st.dropped.contains copy then ({ i with words := [], tag := 0#8 }, { st with dropped := st.dropped.filter (fun c => c != copy) })
  else
    match st.upset.find? (fun x => x.1 == copy) with
    | none => (i, st)
    | some x => ({ i with words := i.words.map (fun w => w ^^^ x.2) }, { st with upset := st.upset.filter (fun y => y.1 != copy) })

/-- A unit after a firing, its copy's output disturbed where the world has upset it. -/
def UnitSt.spoiled (st : UnitSt) (copy : Nat) : UnitSt :=
  if st.upset.isEmpty && st.dropped.isEmpty then st
  else
    match st.out with
    | (k, i) :: rest =>
      let (j, st1) := st.disturb copy i
      if j = i then st
      else { st1 with out := (k, j) :: rest.map (fun x => if x.2 = i then (x.1, j) else x) }
    | [] => st

/-- The copies at the first firing of a round: seeded by R39, flags cleared (R282). -/
def UnitSt.begin (st : UnitSt) (e : UEnv) : UnitSt :=
  if st.inRound = 0 then
    let cs := (List.range (uRep e.w)).map (fun c =>
      { (st.core.copies.getD c {}) with rng := rngSeed e.seed (unitKey e.strand c e.keyUnit) st.round })
    { st with core := { st.core with copies := cs }, flags := 0#8, copyFlags := [], inRound := 1 }
  else { st with inRound := st.inRound + 1 }

/-- The generator of a copy. -/
def UnitSt.rng (st : UnitSt) (copy : Nat) : Word := (st.core.copies.getD copy {}).rng

/-- The state with a copy changed. -/
def UnitSt.modCopy (st : UnitSt) (copy : Nat) (f : CopySt → CopySt) : UnitSt :=
  { st with core := { st.core with copies := modifyAt st.core.copies copy f } }

/-- A sticky flag set by a copy (R282). -/
def UnitSt.setFlag (st : UnitSt) (copy : Nat) (f : Byte) : UnitSt :=
  { st with
    flags := st.flags ||| f
    copyFlags := (List.range (max st.copyFlags.length (copy + 1))).map (fun c =>
      if c = copy then st.copyFlags.getD c 0#8 ||| f else st.copyFlags.getD c 0#8) }

/-- The deal moved to the next copy (R77). -/
def UnitSt.dealOn (st : UnitSt) (rep : Nat) : UnitSt :=
  { st with core := { st.core with deal := (st.core.deal + 1) % rep }, seq := st.seq + 1 }

/-! ### Alignment (R84, R97, R98) -/

/-- What stands at the heads of some ports. -/
inductive Align where
  | wait
  | fire (items : List Item)
  | stop (level : Nat) (st : UnitSt)
  | marker (i : Item) (st : UnitSt)
  | broken
  deriving DecidableEq, Repr

/-- A marker taken from ports: an end-of-round marker must carry the number that each port expects (R98). -/
def UnitSt.takeMarker (st : UnitSt) (ps : List Nat) (i : Item) : Align :=
  let n := i.word.toNat
  if tagSub i.tag = 0 then
    if ps.any (fun p => match st.nextRound.getD p none with
        | some k => k != n
        | none => false) then .broken
    else
      let st1 := st.pop ps
      .marker i { st1 with nextRound := (st1.nextRound.zip (List.range 4)).map (fun x => if ps.contains x.2 then some (n + 1) else x.1) }
  else .marker i (st.pop ps)

/-- Whether a marker that stands at the head of an input breaks R98, whatever the other inputs hold: it does not follow that input's
previous marker, or it stands beside another number. -/
def UnitSt.badMarkers (st : UnitSt) (adv : Nat) : Bool :=
  let ms := ([0, 1, 2, 3] : List Nat).filterMap (fun p =>
    match st.head adv p with
    | some i => if i.isMarker && tagSub i.tag == 0 then some (p, i.word.toNat) else none
    | none => none)
  ms.any (fun m => match st.nextRound.getD m.1 none with
      | some k => k != m.2
      | none => false) || ms.any (fun m => ms.any (fun n => n.2 != m.2))

/-- The heads of the ports aligned: elements on all; or stops and markers on all, a marker counting as a stop of level 4 (R84). Of
stops at different levels the lower ones are taken and nothing is forwarded yet (level 0), since the input with the highest waits
for that level on the others; then one stop at that level is. Or one marker that stands on all. -/
def UnitSt.align (st : UnitSt) (e : UEnv) (ps : List Nat) : Align :=
  let hs := ps.map (fun p => (p, st.head e.adv p))
  if hs.any (fun h => h.2.isNone) then .wait
  else
    let items := hs.filterMap (fun h => h.2)
    if items.all Item.isElem then
      if st.round < e.limit then .fire items else .wait
    else if items.any Item.isElem then .wait
    else if items.any Item.isStop then
      let stops := hs.filter (fun h => match h.2 with
        | some i => i.isStop
        | none => false)
      let level := items.foldl (fun acc i => if i.isStop then max acc (tagLevel i.tag) else acc) 1
      let low := stops.filter (fun h => match h.2 with
        | some i => decide (tagLevel i.tag < level)
        | none => false)
      if low.isEmpty then .stop level (st.pop (stops.map (fun h => h.1))) else .stop 0 (st.pop (low.map (fun h => h.1)))
    else
      match items with
      | [] => .wait
      | i :: _ =>
        if items.all (fun j => decide (j.tag = i.tag) && decide (j.word = i.word)) then st.takeMarker ps i
        else if items.all (fun j => tagSub j.tag == tagSub i.tag) then .broken
        else .wait

/-- The ports that an edge enters. -/
def UEnv.ports (e : UEnv) : List Nat := e.image.connected e.u

/-- A unit whose state an abort restores keeps it at each round's start (R155). -/
def UnitSt.keep (st : UnitSt) (n : Nat) : UnitSt := { st with kept := (st.kept.filter (fun x => x.1 != n)) ++ [(n, st.core)] }

/-- A stop forwarded; the deal returns to copy 0 (R78). At level 0 nothing is forwarded yet (R84). -/
def UnitSt.passStop (st : UnitSt) (e : UEnv) (level : Nat) : UStep :=
  let st1 := { st with core := { st.core with deal := 0 } }
  { st := if level = 0 then st1 else st1.emit e (stopItem level) }

/-- A marker forwarded, after the results held for its round (R97, R301); at an end-of-round marker the sticky flags go to
the round's flag byte and a new round begins (R282). A marker for round 0xFFFF_FFFF breaks R94. -/
def UnitSt.passMarker (st : UnitSt) (e : UEnv) (i : Item) : UStep :=
  let released := { st with out := st.out ++ st.hold, hold := [], core := { st.core with deal := 0 } }.emit e { i with due := 0 }
  if tagSub i.tag = 0 then
    if i.word = 0xFFFF_FFFF#32 then { st := st, effs := [.broken] }
    else
      { st := { released with flags := 0#8, copyFlags := [], inRound := 0, seq := 0 }.keep (i.word.toNat + 1)
        effs := [.flags i.word.toNat st.flags st.copyFlags] }
  else { st := { released with reconf := released.reconf || tagSub i.tag == 1 } }

/-- The predicate (R79): whether the unit acts, and the fault token that port d holds. -/
def UEnv.acts (e : UEnv) (d : Option Item) : Bool × Option Item :=
  match uPmode e.w, d with
  | 0, _ => (true, none)
  | m, some i => if i.isFault then (true, some i) else ((m == 1) == i.isTrue, none)
  | _, none => (true, none)

/-! ### Units without group state (R278, R279) -/

/-- The result of one element: the fault, the void, or the computed words (R67, R80, R302). -/
def computeElem (e : UEnv) (st : UnitSt) (items : List Item) : UStep :=
  let w := e.w
  let st := (st.pop e.ports).begin e
  let withPred := uPmode w != 0
  let dItem := if withPred then items.getLast? else none
  let args := if withPred then items.dropLast else items
  let (acts, dFault) := e.acts dItem
  let copy := st.core.deal
  let n := e.out 0 items
  let (err, org) := errorOf items
  if !acts then { st := (st.emit e (voidItem n err org)).dealOn (uRep w) }
  else
    let fault := match args.find? Item.isFault with
      | some f => some f
      | none => dFault
    match fault with
    | some f => { st := (st.emit e (faultOut n f items)).dealOn (uRep w) }
    | none =>
      if args.any Item.isVoid then { st := (st.emit e (voidItem n err org)).dealOn (uRep w) }
      else
        let (ws, g, sat) := tokenResult w (args.map Item.words) (st.rng copy)
        let st := st.modCopy copy (fun c => { c with rng := g })
        let st := if sat then st.setFlag copy 0x01#8 else st
        { st := (st.emit e (dataItem ws items)).dealOn (uRep w) }

/-- A unit that aligns all its inputs and passes stops and markers. -/
def alignedStep (e : UEnv) (st : UnitSt) (f : UnitSt → List Item → UStep) : Option UStep :=
  match st.align e e.ports with
  | .wait => none
  | .fire items => some (f st items)
  | .stop level st1 => some (st1.passStop e level)
  | .marker i st1 => some (st1.passMarker e i)
  | .broken => some { st := st, effs := [.broken] }

/-! ### cvt, qz, dq (R288 to R291) -/

/-- The lanes collected so far, formed into an output token of the target format. -/
def packLanesItem (d : Fmt) (lanes : List (Word × Bool)) (hi : List Word) (fault : Option Item) (tainted : Bool) (o : Option Origin) : Item :=
  match fault with
  | some f => { words := List.replicate d.words f.word, tag := elemTag false true tainted, origin := o }
  | none =>
    if lanes.all (fun x => x.2) then voidItem d.words tainted o
    else
      let xs := (lanes.zip hi).map (fun x => x.1.1.toNat + x.2.toNat * 2 ^ 32)
      { words := packLanes d xs, tag := elemTag false false tainted, origin := o }

/-- A partly filled output of cvt emitted (R289). -/
def cvtFlush (e : UEnv) (st : UnitSt) : UnitSt :=
  if st.core.lanes.isEmpty then st
  else
    let d := fmtOf (bitsOf (uImm e.w) 7 4)
    let i := packLanesItem d st.core.lanes (st.core.lanes.map (fun _ => 0#32)) st.core.groupFault st.core.tainted none
    { st with core := { st.core with lanes := [], groupFault := none, tainted := false } }.emit e i

/-- One element converted and packed. -/
def cvtLane (e : UEnv) (items : List Item) (fault : Option Item) (isVoid : Bool) (st : UnitSt) (x : Nat) : UnitSt :=
  let w := e.w; let s := uFmt w; let d := fmtOf (bitsOf (uImm w) 7 4)
  let copy := st.core.deal
  let (err, org) := errorOf items
  let (y, g) := if isVoid || fault.isSome then (0, st.rng copy) else cvtElem s d (uImm w % 8) (bitOf (uImm w) 3) x (st.rng copy)
  let st := st.modCopy copy (fun c => { c with rng := g })
  let gf := match st.core.groupFault with
    | some f => some f
    | none => fault
  let taint := st.core.tainted || err
  if d.lanes = 1 then
    { st with core := { st.core with groupFault := none, tainted := false } }.emit e
      (packLanesItem d [(BitVec.ofNat 32 y, isVoid)] [BitVec.ofNat 32 (y / 2 ^ 32)] gf taint org)
  else
    let lanes := st.core.lanes ++ [(BitVec.ofNat 32 y, isVoid)]
    let st := { st with core := { st.core with lanes := lanes, groupFault := gf, tainted := taint } }
    if lanes.length = d.lanes then cvtFlush e st else st

/-- cvt. -/
def cvtElemStep (e : UEnv) (st : UnitSt) (items : List Item) : UStep :=
  let w := e.w
  let st := (st.pop e.ports).begin e
  let a := items.headD (voidItem 1 false none)
  let (acts, dFault) := e.acts (if uPmode w = 0 then none else items.getLast?)
  let fault := if !acts then none else if a.isFault then some a else dFault
  let void := !acts || (a.isVoid && fault.isNone)
  let xs := lanesOf (uFmt w) a.words
  { st := (xs.foldl (fun st x => cvtLane e items fault void st x) st).dealOn (uRep w) }

/-- A block of qz closed (R290): its elements to cons0, its scale to cons1. -/
def qzClose (e : UEnv) (st : UnitSt) : UnitSt :=
  let xs := st.core.lanes
  if xs.isEmpty then st
  else
    let w := e.w; let t := uFmt w
    let (scale, es, g, under) := quantise t (uImm w % 8) (xs.map (fun x => (x.1.toNat, x.2))) (st.rng 0)
    let toks := chunks t.lanes (es.zip (xs.map (fun x => x.2)))
    let item (c : List (Nat × Bool)) : Item :=
      packLanesItem t (c.map (fun x => (BitVec.ofNat 32 x.1, x.2))) (c.map (fun _ => 0#32)) st.core.groupFault st.core.tainted none
    let st1 := toks.foldl (fun st c => st.push e [0] (item c)) st
    let si : Item := match st.core.groupFault with
      | some f => { words := [f.word], tag := elemTag false true st.core.tainted }
      | none => { words := [BitVec.ofNat 32 scale], tag := elemTag false false st.core.tainted }
    let st2 := (st1.push e [1] si).modCopy 0 (fun c => { c with rng := g })
    let st3 := { st2 with core := { st2.core with lanes := [], groupFault := none, tainted := false } }
    if under then st3.setFlag 0 0x02#8 else st3

/-- One element of qz. A fault token takes no step of the generator and no part in the block (R67). -/
def qzElemStep (e : UEnv) (st : UnitSt) (items : List Item) : UStep :=
  let st := (st.pop e.ports).begin e
  let a := items.headD (voidItem 1 false none)
  let (acts, dFault) := e.acts (if uPmode e.w = 0 then none else items.getLast?)
  let fault := if !acts then none else if a.isFault then some a else dFault
  let none_ := !acts || a.isVoid || fault.isSome
  let lane := (if none_ then 0#32 else a.word, none_)
  let gf := match st.core.groupFault with
    | some f => some f
    | none => fault
  let st := { st with core := { st.core with lanes := st.core.lanes ++ [lane], groupFault := gf, tainted := st.core.tainted || (errorOf items).1 } }
  { st := (if st.core.lanes.length = 32 then qzClose e st else st).dealOn 1 }

/-- dq: the first element of a block pops a scale (R291). -/
def dqStep (e : UEnv) (st : UnitSt) : Option UStep :=
  let w := e.w; let t := uFmt w
  let others := e.ports.filter (fun p => p != 1)
  match st.align e others with
  | .wait => none
  | .broken => some { st := st, effs := [.broken] }
  | .stop _ _ =>
    match st.align e e.ports with
    | .stop level st1 => some ({ st1 with core := { st1.core with count := 0, scale := none } }.passStop e level)
    | _ => none
  | .marker _ _ =>
    match st.align e e.ports with
    | .marker i st1 => some ({ st1 with core := { st1.core with count := 0, scale := none } }.passMarker e i)
    | .stop level st1 => some ({ st1 with core := { st1.core with count := 0, scale := none } }.passStop e level)
    | .broken => some { st := st, effs := [.broken] }
    | _ => none
  | .fire items =>
    let scale := if st.core.count = 0 then
        (match st.head e.adv 1 with
        | some b => if b.isElem then some b else none
        | none => none)
      else st.core.scale
    match scale with
    | none => none
    | some sc =>
      let st := (if st.core.count = 0 then st.pop (1 :: others) else st.pop others).begin e
      let a := items.headD sc
      let (acts, dFault) := e.acts (if uPmode w = 0 then none else items.getLast?)
      let all := sc :: items
      let (err, org) := errorOf all
      let fault := if !acts then none else if a.isFault then some a else if sc.isFault then some sc else dFault
      let void := !acts || ((a.isVoid || sc.isVoid) && fault.isNone)
      let st := (lanesOf t a.words).foldl (fun st x =>
        if void then st.emit e (voidItem 1 err org)
        else
          match fault with
          | some f => st.emit e (faultOut 1 f all)
          | none =>
            let (y, g) := dequantise t (uImm w % 8) sc.word.toNat x (st.rng 0)
            (st.modCopy 0 (fun c => { c with rng := g })).emit e (dataItem [BitVec.ofNat 32 y] all)) st
      let count := (st.core.count + t.lanes) % 32
      some { st := { st with core := { st.core with count := count, scale := if count = 0 then none else some sc } }.dealOn 1 }

/-! ### Reductions, scans and nacc (R296 to R301) -/

/-- The group level L, or none when every group is a whole round. -/
def groupLevel (w : DWord) : Option Nat := if bitOf (uImm w) 6 then none else some (bitsOf (uImm w) 5 4 + 1)

/-- A result held for the round's marker (R301). -/
def UnitSt.holdItem (st : UnitSt) (e : UEnv) (i : Item) : UnitSt :=
  { st with hold := st.hold ++ ([0, 1].filter (fun k => consValid (uCons e.w k))).map (fun k => (k, i)) }

/-- A group emptied. -/
def UnitSt.emptyGroup (st : UnitSt) : UnitSt :=
  { st with core := { st.core with
      count := 0, groupFault := none, tainted := false
      copies := st.core.copies.map (fun c => { c with acc := 0#64, acc2 := 0#64, count := 0 }) } }

/-- The result of a group and the state with the group empty. -/
def groupResult (e : UEnv) (st : UnitSt) : Item × UnitSt :=
  let w := e.w; let op := uOp w; let f := uFmt w; let mode := uImm w % 8
  let n := e.out 0 []
  let taint := st.core.tainted
  match st.core.groupFault with
  | some x => ({ words := List.replicate n x.word, tag := elemTag false true taint }, st.emptyGroup)
  | none =>
    if op = 0x70 then
      let c := st.core.copies.getD 0 {}
      let (mean, r) := naccClose (bitOf (uImm w) 7) (bitsOf (uImm w) 12 8) c.acc.toNat c.acc2.toNat c.count
      ({ words := [BitVec.ofNat 32 mean, BitVec.ofNat 32 r], tag := elemTag false false taint }, st.emptyGroup)
    else
      let used := st.core.copies.filter (fun c => 0 < c.count)
      let (v, g) := match used with
        | [] => (redIdentity op f, st.rng 0)
        | c :: cs => cs.foldl (fun acc d => redStep op f mode acc.1 d.acc.toNat acc.2) (c.acc.toNat, st.rng 0)
      let rf := redResult op f
      let st1 := st.modCopy 0 (fun c => { c with rng := g })
      ({ words := packLanes rf [v], tag := elemTag false false taint }, st1.emptyGroup)

/-- One lane folded into a copy. -/
def foldLane (w : DWord) (c : CopySt) (x : Nat) : CopySt :=
  let op := uOp w; let f := uFmt w; let mode := uImm w % 8
  if op = 0x70 then
    let v := f.decode x
    let (d1, g1) := drawFor mode c.rng
    let s1 := Fmt.round .f32 mode d1 false false ((Fmt.decode .f32 c.acc.toNat).add v)
    let (d2, g2) := drawFor mode g1
    let s2 := Fmt.round .f32 mode d2 false false ((Fmt.decode .f32 c.acc2.toNat).add (v.mul v))
    { c with acc := BitVec.ofNat 64 s1, acc2 := BitVec.ofNat 64 s2, count := c.count + 1, rng := g2 }
  else
    let p := if c.count = 0 then redIdentity op f else c.acc.toNat
    let (v, g) := redStep op f mode p (redRead op f x) c.rng
    { c with acc := BitVec.ofNat 64 v, count := c.count + 1, rng := g }

/-- One element of a reduction or of nacc. -/
def reduceElem (e : UEnv) (st : UnitSt) (items : List Item) : UStep :=
  let w := e.w
  let st := (st.pop e.ports).begin e
  let a := items.headD (voidItem 1 false none)
  let (acts, dFault) := e.acts (if uPmode w = 0 then none else items.getLast?)
  let copy := st.core.deal
  let fault := if !acts then none else if a.isFault then some a else dFault
  let gf := match st.core.groupFault with
    | some f => some f
    | none => fault
  let skip := !acts || a.isVoid || gf.isSome
  let st := if skip then st else (lanesOf (uFmt w) a.words).foldl (fun st x => st.modCopy copy (fun c => foldLane w c x)) st
  let st := { st with core := { st.core with count := st.core.count + 1, groupFault := gf, tainted := st.core.tainted || (errorOf items).1 } }
  { st := st.dealOn (uRep w) }

/-- Tokens that a unit holds for its round, a bundle counting one per word, on one consumer (R301). -/
def UnitSt.held (st : UnitSt) : Nat :=
  ((st.hold.filter (fun x => x.1 == 0)).map (fun x => x.2.words.length)).foldl (· + ·) 0

/-- A reduction or nacc (R296). -/
def reduceStep (e : UEnv) (st : UnitSt) : Option UStep :=
  let close (st : UnitSt) : UnitSt :=
    let (i, st1) := groupResult e st
    st1.holdItem e i
  let check (st : UnitSt) : UStep := if 1024 < st.held then { st := st, effs := [.broken] } else { st := st }
  match st.align e e.ports with
  | .wait => none
  | .broken => some { st := st, effs := [.broken] }
  | .fire items => some (check (reduceElem e st items).st)
  | .stop k st1 =>
    let st1 := { st1 with core := { st1.core with deal := 0 } }
    match groupLevel e.w with
    | none => some { st := st1 }
    | some l =>
      if k < l then some { st := st1 }
      else
        let st2 := close (if st1.inRound = 0 then st1.begin e else st1)
        some (check (if l < k then st2.holdItem e (stopItem (k - l)) else st2))
  | .marker i st1 =>
    let st2 := if 0 < st1.core.count then close st1 else st1
    some (if 1024 < st2.held then { st := st2, effs := [.broken] } else st2.passMarker e i)

/-- One element of a scan (R298). -/
def scanElem (e : UEnv) (st : UnitSt) (items : List Item) : UStep :=
  let w := e.w; let rf := redResult (uOp w) (uFmt w)
  let st := (st.pop e.ports).begin e
  let a := items.headD (voidItem 1 false none)
  let (acts, dFault) := e.acts (if uPmode w = 0 then none else items.getLast?)
  let fault := if !acts then none else if a.isFault then some a else dFault
  let gf := match st.core.groupFault with
    | some f => some f
    | none => fault
  let void := gf.isNone && (!acts || a.isVoid)
  let st := { st with core := { st.core with groupFault := gf, count := st.core.count + 1, tainted := st.core.tainted || (errorOf items).1 } }
  let org := (errorOf items).2
  let st := (lanesOf (uFmt w) a.words).foldl (fun st x =>
    if void then st.emit e (voidItem rf.words st.core.tainted org)
    else
      match gf with
      | some f => st.emit e { words := List.replicate rf.words f.word, tag := elemTag false true st.core.tainted, origin := org }
      | none =>
        let c := st.core.copies.getD 0 {}
        let before := if c.count = 0 then redIdentity (uOp w) (uFmt w) else c.acc.toNat
        let c' := foldLane w c x
        let v := if bitOf (uImm w) 7 then before else c'.acc.toNat
        (st.modCopy 0 (fun _ => c')).emit e
          { words := packLanes rf [v], tag := elemTag false false st.core.tainted, origin := org }) st
  { st := st.dealOn 1 }

/-- A scan (R296): stops are forwarded. -/
def scanStep (e : UEnv) (st : UnitSt) : Option UStep :=
  match st.align e e.ports with
  | .wait => none
  | .broken => some { st := st, effs := [.broken] }
  | .fire items => some (scanElem e st items)
  | .stop k st1 =>
    let closes := match groupLevel e.w with
      | none => false
      | some l => l ≤ k
    some ((if closes then st1.emptyGroup else st1).passStop e k)
  | .marker i st1 => some (st1.emptyGroup.passMarker e i)

/-! ### Stream control (R308 to R322) -/

/-- Elements of a segment that copy 0 holds, the most of any copy: the deal returns to it after each stop (R78, R309). -/
def copyHeld (rep : Nat) (seg : List Item) : Nat :=
  let runs := seg.foldl (fun (acc : Nat × Nat) i => if i.isElem then (acc.1, acc.2 + 1) else (acc.1 + ceilDiv acc.2 rep, 0)) (0, 0)
  runs.1 + ceilDiv runs.2 rep

/-- repeat (R309). The segment is kept with its closing stop and emitted from position on, count times. Port a is aligned with the
predicate's port d as any two inputs are (R79, R84, R97). -/
def repeatStep (e : UEnv) (st : UnitSt) : Option UStep :=
  let w := e.w; let l := uImm w % 4 + 1
  if 0 < st.core.count then
    match st.core.segment[st.core.position]? with
    | none => some { st := { st with core := { st.core with count := 0, segment := [], position := 0 } } }
    | some i =>
      let last := st.core.position + 1 == st.core.segment.length
      let core := if last then
          { st.core with position := 0, count := st.core.count - 1, segment := if st.core.count = 1 then [] else st.core.segment }
        else { st.core with position := st.core.position + 1 }
      some { st := { st with core := core }.emit e { i with due := 0 } }
  else
    let close (st : UnitSt) (c : Item) (seg : List Item) : UStep :=
      let st := { st.pop [1] with core := { st.core with segment := [], position := 0, deal := 0 } }
      if c.isFault then { st := st.emit e (faultOut (e.out 0 (seg.filter Item.isElem)) c [c]) }
      else if c.isVoid then { st := st.emit e (voidItem (e.out 0 (seg.filter Item.isElem)) (tagError c.tag) c.origin) }
      else if c.word = 0#32 then { st := st }
      else { st := { st with core := { st.core with segment := seg, count := c.word.toNat } } }
    let count := st.head e.adv 1
    let fed := if uPmode w = 0 then [0] else [0, 3]
    if count.any Item.isStop then some { st := st.pop [1] }
    else
      match st.align e fed with
      | .wait => none
      | .broken => some { st := st, effs := [.broken] }
      | .fire items => some (element st (items.headD (voidItem 1 false none)))
      | .stop k st1 =>
        if k = 0 then some { st := st1 }
        else if k < l then
          some { st := { st1 with core := { st1.core with segment := st1.core.segment ++ [stopItem k], deal := 0 } } }
        else
          match count with
          | some b => if b.isElem then some (close st1 b (st1.core.segment ++ [stopItem k])) else none
          | none => none
      | .marker _ _ =>
        match count with
        | none => none
        | some b =>
          if b.isElem then some (close st b (st.core.segment ++ [stopItem l]))
          else if !st.core.segment.isEmpty then none
          else
            match st.align e (1 :: fed) with
            | .marker i st1 => some (st1.passMarker e i)
            | .broken => some { st := st, effs := [.broken] }
            | _ => none
where
  element (st : UnitSt) (a : Item) : UStep :=
    let rep := uRep e.w
    let withPred := uPmode e.w != 0
    let d := if withPred then st.head e.adv 3 else none
    let (acts, dFault) := e.acts d
    let a' := if !acts then voidItem a.words.length (tagError a.tag) a.origin
      else match dFault with
        | some f => if a.isFault then a else faultOut a.words.length f [a, f]
        | none => a
    let st := (st.pop (if withPred then [0, 3] else [0])).begin e
    let seg := st.core.segment ++ [a']
    let held := copyHeld rep seg
    let st1 := { st with core := { st.core with segment := seg } }.dealOn rep
    if 512 < held * a.words.length then { st := st1, effs := [.broken] } else { st := st1 }

/-- width: the words gathered so far, formed into a bundle of n words (R310). -/
def joinBundle (n : Nat) (seg : List Item) : Item :=
  let (err, org) := errorOf seg
  match seg.find? Item.isFault with
  | some f => { words := List.replicate n f.word, tag := elemTag false true err, origin := org }
  | none =>
    if seg.all Item.isVoid then voidItem n err org
    else
      let ws := seg.map (fun i => if i.isVoid then 0#32 else i.word)
      { words := ws ++ List.replicate (n - ws.length) 0#32, tag := elemTag false false err, origin := org }

/-- width (R310). -/
def widthStep (e : UEnv) (st : UnitSt) : Option UStep :=
  let w := e.w; let n := bitsOf (uImm w) 5 3 + 1
  let join := 1 < n
  let flush (st : UnitSt) : UnitSt :=
    if st.core.segment.isEmpty then st
    else { st with core := { st.core with segment := [] } }.emit e (joinBundle n st.core.segment)
  match st.align e e.ports with
  | .wait => none
  | .broken => some { st := st, effs := [.broken] }
  | .stop k st1 => some ((flush st1).passStop e k)
  | .marker i st1 => some ((flush st1).passMarker e i)
  | .fire items =>
    let a := items.headD (voidItem 1 false none)
    let (acts, dFault) := e.acts (if uPmode w = 0 then none else items.getLast?)
    let (err, org) := errorOf items
    let st1 := ((st.pop e.ports).begin e).dealOn (uRep w)
    let b : Item := if !acts then voidItem a.words.length err org
      else match dFault with
        | some f => if a.isFault then { a with tag := elemTag false true err } else faultOut a.words.length f items
        | none => { a with tag := elemTag a.isVoid a.isFault err, origin := org }
    if join then
      let seg := st1.core.segment ++ [b]
      let st2 := { st1 with core := { st1.core with segment := seg } }
      some { st := if seg.length = n then flush st2 else st2 }
    else some { st := b.words.foldl (fun st x => st.emit e { b with words := [x], due := 0 }) st1 }

/-- compact (R311). -/
def compactElem (e : UEnv) (st : UnitSt) (items : List Item) : UStep :=
  let rb := items.headD (voidItem 2 false none)
  let c := items.getD 1 (voidItem 1 false none)
  let (acts, dFault) := e.acts (if uPmode e.w = 0 then none else items.getLast?)
  let st := ((st.pop e.ports).begin e).dealOn (uRep e.w)
  let (err, org) := errorOf items
  let put (k : Nat) (i : Item) : UStep := { st := st.push e [k] { i with tag := elemTag i.isVoid i.isFault err, origin := org, due := 0 } }
  let withFault (f : Item) : Item :=
    { words := List.replicate (rb.words.length - 1) f.word ++ [rb.lastWord], tag := 0x04#8 }
  if !acts then { st := st.emit e (voidItem rb.words.length err org) }
  else if rb.isVoid then { st := st }
  else if rb.isFault then put 0 rb
  else if c.isFault then put 0 (withFault c)
  else
    match dFault with
    | some f => put 0 (withFault f)
    | none => if c.isTrue then put 0 rb else put 1 rb

/-- merge (R312): the arms are ports 0 to k − 1. -/
def mergeStep (e : UEnv) (st : UnitSt) : Option UStep :=
  let w := e.w; let arms := List.range (uImm w % 4 + 1)
  let words := bitsOf (uImm w) 4 2 + 1
  let hs := arms.map (fun p => (p, st.head e.adv p))
  let clear (st : UnitSt) : UnitSt := { st with core := { st.core with lastIndex := none, armIndex := [none, none, none, none] } }
  match hs.find? (fun h => match h.2 with
      | some i => i.isVoid
      | none => false) with
  | some h => if st.round < e.limit then some { st := st.pop [h.1] } else none
  | none =>
    if hs.any (fun h => h.2.isNone) then none
    else
      let data := hs.filterMap (fun h => match h.2 with
        | some i => if i.isData then some (h.1, i) else none
        | none => none)
      match minBy (fun x => x.2.lastWord.toNat) data with
      | none =>
        match st.align e arms with
        | .stop k st1 => some ((clear st1).passStop e k)
        | .marker i st1 => some ((clear st1).passMarker e i)
        | .broken => some { st := st, effs := [.broken] }
        | _ => none
      | some (p, h) =>
        if e.limit ≤ st.round then none
        else
          let index := h.lastWord
          let keep := bitOf (uImm w) 5
          let n := if keep then words else words - 1
          let prev := st.core.armIndex.getD p none
          let err := tagError h.tag
          let out : Item :=
            if st.core.lastIndex = some index then { faultItem n 6 index.toNat with tag := elemTag false true err, origin := h.origin }
            else if (match prev with
                | some q => decide (index.toNat < q.toNat)
                | none => false) then { faultItem n 7 index.toNat with tag := elemTag false true err, origin := h.origin }
            else { h with words := if keep then h.words else h.words.dropLast, due := 0 }
          let out : Item := if keep && out.isFault then { out with words := out.words.take (words - 1) ++ [index] } else out
          let st1 := ((st.pop [p]).begin e).dealOn 1
          let st2 := { st1 with core := { st1.core with lastIndex := some index, armIndex := st1.core.armIndex.set p (some index) } }
          let st3 := st2.push e [0] out
          some { st := if keep then st3 else st3.push e [1] { words := [index], tag := elemTag false false err, origin := h.origin } }

/-- stamp (R311). -/
def stampElem (e : UEnv) (st : UnitSt) (items : List Item) : UStep :=
  let w := e.w
  let r := items.headD (voidItem 1 false none)
  let (acts, dFault) := e.acts (if uPmode w = 0 then none else items.getLast?)
  let base := if bitOf (uImm w) 3 then e.args.1.setWidth 32 else 0#32
  let index := base + BitVec.ofNat 32 st.seq
  let st1 := ((st.pop e.ports).begin e).dealOn 1
  let (err, org) := errorOf items
  let fault := if r.isFault then some r else dFault
  if !acts || (r.isVoid && fault.isNone) then { st := st1.emit e (voidItem (r.words.length + 1) err org) }
  else
    match fault with
    | some f => { st := st1.emit e { words := List.replicate r.words.length f.word ++ [index], tag := elemTag false true err, origin := org } }
    | none => { st := st1.emit e { words := r.words ++ [index], tag := elemTag false false err, origin := org } }

/-- stop (R313). -/
def stopElem (e : UEnv) (st : UnitSt) (items : List Item) : UStep :=
  let w := e.w; let l := uImm w % 4 + 1; let drop := bitOf (uImm w) 2
  let a := items.headD (voidItem 1 false none)
  let b := items.getD 1 (voidItem 1 false none)
  let (acts, dFault) := e.acts (if uPmode w = 0 then none else items.getLast?)
  let st := ((st.pop e.ports).begin e).dealOn (uRep w)
  let (err, org) := errorOf items
  if !acts then { st := st.emit e (voidItem a.words.length err org) }
  else if b.isFault then { st := st.emit e (faultOut a.words.length b items) }
  else
    match (if a.isFault then none else dFault) with
    | some f => { st := st.emit e (faultOut a.words.length f items) }
    | none =>
      let st1 := if drop && b.isTrue then st else st.emit e { a with tag := elemTag a.isVoid a.isFault err, origin := org, due := 0 }
      { st := if b.isTrue then st1.emit e (stopItem l) else st1 }

/-- round (R314): the count n stands in the core. -/
def roundStep (e : UEnv) (st : UnitSt) : Option UStep :=
  let w := e.w; let l := uImm w % 4 + 1; let keepStop := bitOf (uImm w) 2
  let n := st.core.count
  match st.align e e.ports with
  | .wait => none
  | .broken => some { st := st, effs := [.broken] }
  | .fire items =>
    if e.limit ≤ n then none
    else some (computePass e st items)
  | .stop k st1 =>
    if k < l then some (st1.passStop e k)
    else if 0xFFFF_FFFF ≤ n then some { st := st, effs := [.broken] }
    else
      let st2 := if keepStop then st1.emit e (stopItem k) else st1
      let st3 := { st2 with core := { st2.core with count := n + 1, deal := 0 }, inRound := 0, seq := 0, flags := 0#8, copyFlags := [],
                               nextRound := st2.nextRound.set 0 (some (n + 1)) }
      some { st := (st3.emit e (markerItem 0 (BitVec.ofNat 32 n))).keep (n + 1), effs := [.generated n, .flags n st.flags st.copyFlags] }
  | .marker i st1 =>
    if tagSub i.tag = 0 then some { st := st, effs := [.broken] }
    else if tagSub i.tag = 2 then some (st1.passMarker e (markerItem 2 (BitVec.ofNat 32 n - 1#32)))
    else some (st1.passMarker e i)
where
  computePass (e : UEnv) (st : UnitSt) (items : List Item) : UStep :=
    let a := items.headD (voidItem 1 false none)
    let (acts, dFault) := e.acts (if uPmode e.w = 0 then none else items.getLast?)
    let st := (({ st with fired := st.fired + 1 }.pop e.ports).begin e).dealOn 1
    let (err, org) := errorOf items
    if !acts then { st := st.emit e (voidItem a.words.length err org) }
    else
      match (if a.isFault then none else dFault) with
      | some f => { st := st.emit e (faultOut a.words.length f items) }
      | none => { st := st.emit e { a with tag := elemTag a.isVoid a.isFault err, origin := org, due := 0 } }

/-- fan (R308): a copy of each token to both consumers, its bits unchanged. -/
def fanElem (e : UEnv) (st : UnitSt) (items : List Item) : UStep :=
  let a := items.headD (voidItem 1 false none)
  { st := (((st.pop e.ports).begin e).emit e { a with due := 0 }).dealOn (uRep e.w) }

/-- gate (R321). -/
def gateElem (e : UEnv) (st : UnitSt) (items : List Item) : UStep :=
  let a := items.headD (voidItem 1 false none)
  let b := items.getD 1 (voidItem 1 false none)
  let (acts, dFault) := e.acts (if uPmode e.w = 0 then none else items.getLast?)
  let st := ((st.pop e.ports).begin e).dealOn (uRep e.w)
  let (err, org) := errorOf items
  let fault := if b.isFault then some b else if a.isFault then none else dFault
  if !acts then { st := st.emit e (voidItem a.words.length err org) }
  else
    match fault with
    | some f => { st := st.push e [0] (faultOut a.words.length f items) }
    | none => { st := st.push e [if b.isTrue then 0 else 1] { a with tag := elemTag a.isVoid a.isFault err, origin := org, due := 0 } }

/-- amerge (R322): tokens as they arrive, in ascending port order. -/
def amergeStep (e : UEnv) (st : UnitSt) : Option UStep :=
  let arms := List.range (uImm e.w % 4 + 1)
  match arms.find? (fun p => match st.head e.adv p with
      | some i => i.isElem
      | none => false) with
  | some p =>
    match st.head e.adv p with
    | some i => if st.round < e.limit then some { st := (((st.pop [p]).begin e).emit e { i with due := 0 }).dealOn 1 } else none
    | none => none
  | none =>
    match st.align e arms with
    | .stop k st1 => some (st1.passStop e k)
    | .marker i st1 => some (st1.passMarker e i)
    | .broken => some { st := st, effs := [.broken] }
    | _ => none

/-- sink (R316, R317): one token disposed of. -/
def sinkStep (e : UEnv) (st : UnitSt) : Option UStep :=
  let stream := uImm e.w % 4 == 1
  let num := bitsOf (uImm e.w) 9 2
  let eff (i : Item) : Eff := if stream then .streamPut num { i with due := 0 } else .terminal i
  -- a reconfiguration marker goes no further than the region's outputs (R100)
  match st.align e [0] with
  | .wait => none
  | .broken => some { st := st, effs := [.broken] }
  | .fire items =>
    let a := items.headD (voidItem 1 false none)
    some { st := ((st.pop [0]).begin e).dealOn 1, effs := [eff a] }
  | .stop k st1 => some { st := st1, effs := if stream then [eff (stopItem k)] else [] }
  | .marker i st1 =>
    let r := st1.passMarker e i
    some { r with effs := r.effs ++ (if tagSub i.tag != 1 then [eff i] else []) }

/-- exit (R318): one token appended, stops and markers absorbed. -/
def exitStep (e : UEnv) (st : UnitSt) : Option UStep :=
  match st.align e [0] with
  | .wait => none
  | .broken => some { st := st, effs := [.broken] }
  | .fire items =>
    let a := items.headD (voidItem 1 false none)
    let effs := if a.isVoid || a.isFault then [] else if a.isError then [.exitError a] else [.exit (uImm e.w % 8) a.word]
    some { st := ((st.pop [0]).begin e).dealOn 1, effs := effs }
  | .stop _ st1 => some { st := st1 }
  | .marker i st1 => some (st1.passMarker e i)

/-- The value of const (R319). -/
def constWords (w : DWord) (args : DWord × DWord) : List Word :=
  let imm := uImm w; let f := uFmt w; let src := bitsOf imm 13 12; let v := imm % 4096
  let s : Int := sextNat v 12
  if src = 0 then
    match f with
    | .f32 => [BitVec.ofNat 32 (v * 2 ^ 20)]
    | .bf16 => packLanes f [v * 16, v * 16]
    | .f16 => packLanes f [v * 16, v * 16]
    | .i64 => [BitVec.ofInt 32 s, BitVec.ofInt 32 (s / (2 ^ 32 : Nat))]
    | .n64 => [BitVec.ofInt 32 s, BitVec.ofInt 32 (s / (2 ^ 32 : Nat))]
    | .i16 => packLanes f [intBits 16 s, intBits 16 s]
    | .n16 => packLanes f [intBits 16 s, intBits 16 s]
    | .i32 => [BitVec.ofInt 32 s]
    | .n32 => [BitVec.ofInt 32 s]
    | .b32 => [BitVec.ofInt 32 s]
    | _ => packLanes f (List.replicate f.lanes v)
  else
    let a := if src = 1 then args.1 else args.2
    if f.words = 2 then [a.extractLsb' 0 32, a.extractLsb' 32 32]
    else if bitOf imm 0 then [a.extractLsb' 32 32] else [a.extractLsb' 0 32]

/-- The counters of an iteration n places after one whose counters are given, innermost first; an open dimension does not wrap
(R82). -/
def addCounters : List (Nat × Nat) → Nat → List Nat
  | [], _ => []
  | (t, i) :: r, n => if t = 0 then (i + n) :: r.map (fun x => x.2) else ((i + n) % t) :: addCounters r ((i + n) / t)

/-- The counters of iteration n of a phase, from where they last began anew (R82, R83). -/
def iterationIndex (trips : List Nat) (segs : List (Nat × List Nat)) (n : Nat) : List Nat :=
  match (segs.filter (fun x => x.1 ≤ n)).getLast? with
  | some (m, ix) => addCounters (trips.zip ix) (n - m)
  | none => addCounters (trips.zip (trips.map (fun _ => 0))) n

/-- Whether a unit that fires once per iteration has its predicate, where it has one (R79). -/
def UEnv.predicated (e : UEnv) (st : UnitSt) : Bool :=
  uPmode e.w == 0 || (match st.head e.adv 3 with
    | some i => i.isElem
    | none => false)

/-- A unit that fires once per issued iteration (R303, R478): the next punctuation that stands before its next output, or the output
of the next issued iteration. value gives that output; none while it has to wait. On a predicate input, stops are dropped, since the
unit has the region's own, and a marker waits for the region's. -/
def inputlessStep (e : UEnv) (st : UnitSt) (value : UnitSt → Option UStep) : Option UStep :=
  let d := if uPmode e.w = 0 then none else st.head e.adv 3
  if d.any Item.isStop then some { st := st.pop [3] }
  else
    let next := if st.fired < e.issued && st.round < e.limit && e.predicated st then value st else none
    match e.puncts[st.puncts]? with
    | some p =>
      if p.after ≤ st.fired then
        let st1 := { st with puncts := st.puncts + 1 }
        if p.item.isStop then some (st1.passStop e (tagLevel p.item.tag))
        else if uPmode e.w != 0 && !d.any Item.isMarker then none
        else
          let st2 := if uPmode e.w = 0 then st1 else st1.pop [3]
          let st3 := if tagSub p.item.tag = 0 then { st2 with nextRound := (st2.nextRound.zip (List.range 4)).map (fun x =>
              if x.2 = 0 || (x.2 = 3 && uPmode e.w != 0) then some (p.item.word.toNat + 1) else x.1) } else st2
          some (st3.passMarker e p.item)
      else next
    | none => next

/-- What an inputless unit emits for an element: its value, or what its predicate makes of it (R79, R80). -/
def UEnv.predicate (e : UEnv) (st : UnitSt) (i : Item) : Item :=
  match (if uPmode e.w = 0 then none else st.head e.adv 3) with
  | none => i
  | some d =>
    match e.acts (some d) with
    | (false, _) => voidItem i.words.length (i.isError || d.isError) (errorOf [i, d]).2
    | (true, some f) => if i.isFault then i else faultOut i.words.length f [i, f]
    | (true, none) => { i with tag := i.tag ||| elemTag false false d.isError, origin := (errorOf [i, d]).2 }

/-- An inputless unit's predicate token taken. -/
def UnitSt.popPredicate (st : UnitSt) (e : UEnv) : UnitSt := if uPmode e.w = 0 then st else st.pop [3]

/-- const and iota (R319, R320). -/
def constStep (e : UEnv) (st : UnitSt) : Option UStep :=
  inputlessStep e st (fun st =>
    let w := e.w
    let ws := if uOp w = 0x8B then constWords w e.args
      else if bitOf (uImm w) 2 then [BitVec.ofNat 32 st.fired]
      else [BitVec.ofNat 32 ((iterationIndex e.trips e.segs st.fired).getD (uImm w % 4) 0)]
    let st1 := ((st.popPredicate e).begin e).dealOn 1
    some { st := { st1 with fired := st1.fired + 1 }.emit e (e.predicate st { words := ws, tag := 0#8 }) })

/-- Whether an item stands for an inactive copy (R78). -/
def Item.isGap (i : Item) : Bool := i.words.isEmpty

/-- Whether two sides agree: in the mask, the payload and the whole tag (R340). -/
def Item.agrees (a b : Item) : Bool := decide (a.words = b.words) && decide (a.tag = b.tag)

/-- The group that stands at the head of a side: its elements up to n, ended early by a stop or a marker (R77, R78); none while
it may still grow. -/
def groupOf (adv : Nat) : Nat → List Item → Option (List Item)
  | 0, _ => some []
  | _ + 1, [] => none
  | n + 1, i :: is =>
    if adv < i.due then none
    else if i.isElem then (groupOf adv n is).map (fun g => i :: g)
    else some []

/-- Whether a copy position of a group is active: it holds an element that is no gap. -/
def activeAt (g : List Item) (c : Nat) : Bool := match g[c]? with
  | some i => !i.isGap
  | none => false

/-- The copy positions at which two groups differ in their masks. -/
def maskDiffers (g h : List Item) : List Nat :=
  (List.range (max g.length h.length)).filter (fun c => activeAt g c != activeAt h c)

/-- The copy positions at which two groups differ: in their masks, or else in a token (R340, R372). -/
def groupDiffers (g h : List Item) : List Nat :=
  match maskDiffers g h with
  | [] => (List.range (max g.length h.length)).filter (fun c => activeAt g c && match g[c]?, h[c]? with
      | some a, some b => !a.agrees b
      | _, _ => true)
  | l => l

/-- The comparison point of a difference between groups: the mask, or the token (R386). -/
def groupPoint (g h : List Item) : Nat := if (maskDiffers g h).isEmpty then 0 else 3

/-- The heads of some ports taken, a number of items from each. -/
def UnitSt.popMany (st : UnitSt) (ns : List (Nat × Nat)) : UnitSt :=
  { st with ports := (st.ports.zip (List.range 4)).map (fun x => match ns.find? (fun y => y.1 == x.2) with
      | some y => x.1.drop y.2
      | none => x.1) }

/-- A check or vote unit (R340): the sides in lockstep, a whole group at a time, so that nothing of a group that differs goes on.
chk.mem and vote.mem compare requests as they issue (State.fireGuarded); what they forward to no consumer is dropped. -/
def checkStep (e : UEnv) (st : UnitSt) : Option UStep :=
  let op := uOp e.w
  let ps : List Nat := if op == 0xD0 || op == 0xD2 then [0, 1] else [0, 1, 2]
  let deal := st.core.deal
  let gs := ps.filterMap (fun p => groupOf e.adv (uRep e.w - deal) (st.ports.getD p []))
  let takeGroup (g : List Item) (effs : List Eff) : Option UStep :=
    let st1 := st.popMany ((ps.zip gs).map (fun x => (x.1, x.2.length)))
    let st2 := g.foldl (fun st i => if i.isGap then st.dealOn (uRep e.w) else (st.emit e { i with due := 0 }).dealOn (uRep e.w)) st1
    some { st := st2, effs := effs }
  let takePunct (i : Item) (effs : List Eff) : Option UStep :=
    if i.isStop then
      let r := (st.pop ps).passStop e (tagLevel i.tag)
      some { r with effs := effs }
    else
      match st.takeMarker ps i with
      | .marker j st1 =>
        let r := st1.passMarker e j
        some { r with effs := r.effs ++ effs ++ (if tagSub i.tag = 0 then [.checkFlags i.word.toNat] else []) }
      | _ => some { st := st, effs := [.broken] }
  let places (l : List Nat) : List Nat := if l.isEmpty then [deal] else l.map (fun c => deal + c)
  if gs.length < ps.length then none
  else if gs.all List.isEmpty then
    match ps.filterMap (st.head e.adv) with
    | [a, b] => if op == 0xD2 || a.agrees b then takePunct a [] else some { st := st, effs := [.mismatch 0 [deal]] }
    | [a, b, c] =>
      if op == 0xD3 then takePunct a []
      else if a.agrees b then takePunct a (if a.agrees c then [] else [.minority 2 0 deal])
      else if a.agrees c then takePunct a [.minority 1 0 deal]
      else if b.agrees c then takePunct b [.minority 0 0 deal]
      else some { st := st, effs := [.noMajority 0 [deal]] }
    | _ => none
  else if e.limit ≤ st.round then none
  else
    match gs with
    | [a, b] =>
      if op == 0xD2 || (groupDiffers a b).isEmpty then takeGroup a []
      else some { st := st, effs := [.mismatch (groupPoint a b) (places (groupDiffers a b))] }
    | [a, b, c] =>
      let odd (side : Nat) (g h : List Item) : List Eff := (groupDiffers g h).map (fun x => .minority side (groupPoint g h) (deal + x))
      if op == 0xD3 || (groupDiffers a b).isEmpty then takeGroup a (if op == 0xD3 then [] else odd 2 a c)
      else if (groupDiffers a c).isEmpty then takeGroup a (odd 1 a b)
      else if (groupDiffers b c).isEmpty then takeGroup b (odd 0 b a)
      else
        let masks := dedup (maskDiffers a b ++ maskDiffers a c)
        let all := if masks.isEmpty then dedup (groupDiffers a b ++ groupDiffers a c) else masks
        some { st := st, effs := [.noMajority (if masks.isEmpty then 0 else 3) (places (sortBy id all))] }
    | _ => none

/-- One firing of a unit of opcodes 0x00 to 0x8E or 0xD0 to 0xD3; none when it cannot fire. -/
def unitStep (e : UEnv) (st : UnitSt) : Option UStep :=
  let op := uOp e.w
  if op = 0x40 then
    match st.align e e.ports with
    | .wait => none
    | .fire items => some (cvtElemStep e st items)
    | .stop k st1 => some ((cvtFlush e st1).passStop e k)
    | .marker i st1 => some ((cvtFlush e st1).passMarker e i)
    | .broken => some { st := st, effs := [.broken] }
  else if op = 0x41 then
    match st.align e e.ports with
    | .wait => none
    | .fire items => some (qzElemStep e st items)
    | .stop k st1 => some ((qzClose e st1).passStop e k)
    | .marker i st1 => some ((qzClose e st1).passMarker e i)
    | .broken => some { st := st, effs := [.broken] }
  else if op = 0x42 then dqStep e st
  else if 0x68 ≤ op && op ≤ 0x6C || op = 0x70 then reduceStep e st
  else if 0x6D ≤ op && op ≤ 0x6F then scanStep e st
  else if op ≤ 0x71 then alignedStep e st (computeElem e)
  else if op = 0x80 then alignedStep e st (fanElem e)
  else if op = 0x81 then repeatStep e st
  else if op = 0x82 then widthStep e st
  else if op = 0x83 then alignedStep e st (compactElem e)
  else if op = 0x84 then mergeStep e st
  else if op = 0x85 then alignedStep e st (stampElem e)
  else if op = 0x86 then alignedStep e st (stopElem e)
  else if op = 0x87 then roundStep e st
  else if op = 0x89 then sinkStep e st
  else if op = 0x8A then exitStep e st
  else if op = 0x8B || op = 0x8C then constStep e st
  else if op = 0x8D then alignedStep e st (gateElem e)
  else if op = 0x8E then amergeStep e st
  else if 0xD0 ≤ op && op ≤ 0xD3 then checkStep e st
  else none

/-- The latency of an opcode in advance cycles (R283). -/
def opLatency (w : DWord) : Nat :=
  match uOp w with
  | 0x00 => 3
  | 0x01 => 3
  | 0x02 => 3
  | 0x03 => 4
  | 0x08 => 10
  | 0x09 => 10
  | 0x0A => 4
  | 0x22 => 2
  | 0x23 => 2
  | 0x28 => 2
  | 0x40 => 2
  | 0x41 => 2
  | 0x42 => 2
  | 0x70 => 16
  | 0x71 => 3 * (bitsOf (uImm w) 5 4 + 1)
  | 0x84 => 2
  | n => if 0x48 ≤ n && n ≤ 0x50 then 6 else if 0x68 ≤ n && n ≤ 0x6C then 3 else if 0x6D ≤ n && n ≤ 0x6F then 2 else 1

end Sys2Proof.Machine
end

