-- ==== Sys2Proof/Machine/UnitMem.lean ====
section
/-! DEFINITION. Sys2Proof/Machine/UnitMem.lean: the memory units (R119 to R121, R132, R134, R142 to R151, R323 to R331,
R466). A firing may change memory, placements, FIFOs and buffered stores; replies of global and indexed reads land by
MEMORY_REPLY. -/

namespace Sys2Proof.Machine

/-! ### Where a unit is -/

/-- A unit of a running strand: the graph, the tile, the strand, the block's key and what a firing sees. -/
structure MEnv where
  gid : Word
  t : Fin 192
  k : Fin 8
  key : Nat
  e : UEnv

/-- The graph. -/
def MEnv.run (m : MEnv) (s : State) : Option Run := s.run m.gid

/-- Whose access a unit makes: a user-mode access in the strand's context (R133). -/
def MEnv.agent (m : MEnv) (s : State) : Agent :=
  match s.run m.gid with
  | some r => ⟨dieOf m.t.val, partOf r.part, r.ctx, true⟩
  | none => ⟨dieOf m.t.val, 0, 0#16, true⟩

/-- The identifier of a unit's first copy, which stands for its port (R144). -/
def MEnv.uid (m : MEnv) : Word := collarId m.t.val (bwPhys (m.e.image.bind m.e.u))

/-- The identifier of a copy of the unit: a record names the copy that made the access (R144, R304). -/
def MEnv.copyUid (m : MEnv) (copy : Nat) : Word :=
  collarId m.t.val (((m.e.image.places m.e.u).getD []).getD copy (bwPhys (m.e.image.bind m.e.u)))

/-- The memory tile that the unit's side faces (R7, R9). -/
def MEnv.mtile (m : MEnv) : Option Nat := facing m.t.val (bwPhys (m.e.image.bind m.e.u) / 256)

/-- The placement that serves the unit (R476). -/
def MEnv.isPlace (m : MEnv) (p : Place) : Bool :=
  p.tile == m.t.val && p.strand == m.e.strand && p.block == m.key && p.unit == m.e.u

/-- The placement, from the graph. -/
def MEnv.place (m : MEnv) (s : State) : Option Place := (s.run m.gid).bind (fun r => r.places.find? m.isPlace)

/-- The state with the unit's placement changed. -/
def MEnv.modPlace (m : MEnv) (s : State) (f : Place → Place) : State :=
  s.modRun m.gid (fun r => { r with places := r.places.map (fun p => if m.isPlace p then f p else p) })

/-- The byte in a memory tile's scratchpad of a window word; none without a window. -/
def State.windowByte (s : State) (g : Word) (mt word : Nat) : Nat :=
  match s.window g mt with
  | some w => w.base + 4 * word
  | none => 4 * word

/-- A window word. -/
def State.windowWord (s : State) (g : Word) (mt word : Nat) : Word :=
  BitVec.ofNat 32 (leNat (s.padBytes mt (s.windowByte g mt word) 4))

/-- The origin of an error tag raised by a copy of a unit that read words at an address (R376 to R378). -/
def MEnv.origin (m : MEnv) (st : UnitSt) (copy : Nat) (scratch : Bool) (address words : Nat) (record : Word) : Origin :=
  { tile := m.t.val, strand := m.e.strand, key := m.key, unit := m.e.u, uid := m.copyUid copy, seq := st.seq, round := st.round
    scratch := scratch, mtile := (m.mtile).getD 0, address := address, words := words, record := record
    tokenLocal := m.e.image.repairable m.e.u }

/-- The retries of a source and sequence number in a round: re-injections and re-runs (R379, R383). -/
def RoundInfo.retriesOf (i : RoundInfo) (strand unit seq : Nat) : Nat :=
  i.retried.countP (fun x => x.1 == strand && x.2.1 == unit && x.2.2.1 == seq)

/-- An uncorrectable error read by a copy of a unit: the record of kind 0x05 (R331, R374, R383), with its index. -/
def MEnv.logRead (m : MEnv) (s : State) (st : UnitSt) (copy : Nat) (er : MemErr) : Word × State :=
  match s.run m.gid with
  | none => (0#32, s)
  | some r =>
    let (syndrome, s1) := s.errSyndrome er
    s1.logError (partOf r.part)
      { kind := 5, action := if m.e.image.repairable m.e.u then 2 else 3, graph := r.gid, unit := m.copyUid copy, ctx := r.ctx
        round := BitVec.ofNat 32 st.round, timestamp := r.timestamp st.round, stream := BitVec.ofNat 32 (m.e.strand * 65536 + m.e.u)
        seq := BitVec.ofNat 32 st.seq, address := er.address, syndrome := syndrome
        retry := (r.round st.round).retriesOf m.e.strand m.e.u st.seq }

/-- A page-fault request of a copy of the unit (R134, R135, R144): its tag. -/
def MEnv.fault (m : MEnv) (s : State) (copy va access : Nat) : Word × State :=
  let a := m.agent s
  s.pageFault a.part va a.ctx access (m.copyUid copy) m.gid

/-! ### Replies (R303) -/

/-- How many items a unit's gated input takes: the declared slots of its consumer, and at least one transfer. -/
def replyRoom (e : UEnv) : Nat := max (consSlots (uCons e.w 0)) (if uOp e.w = 0xA3 then 32 else 2)

/-- A unit's outputs of one firing moved to its gated input; they leave in order, so none moves while a request is
outstanding. -/
def UnitSt.toReply (st : UnitSt) : UnitSt :=
  { st with reply := st.reply ++ (st.out.filter (fun x => x.1 == 0)).map (fun x => x.2), out := [] }

/-- Whether a unit may fire into its gated input now. -/
def UnitSt.mayReply (st : UnitSt) (e : UEnv) : Bool := st.requests.isEmpty && st.reply.length < replyRoom e

/-! ### Buffered stores (R142 to R151) -/

/-- The line of a buffered store: its space and 64-byte line. -/
def BufStore.line (b : BufStore) : Bool × Nat := (b.scratch, b.address / 64)

/-- A store cut at the edge of a 64-byte line: an access of at most 32 bytes touches two (R150, log entry 65). -/
def BufStore.cut (b : BufStore) : List BufStore :=
  let n := 64 - b.address % 64
  if b.bytes.length ≤ n then [b]
  else [{ b with bytes := b.bytes.take n }, { b with address := b.address + n, bytes := b.bytes.drop n }]

/-- The line entries that a round holds in a commit buffer. -/
def Run.linesOf (r : Run) (n mt : Nat) : List (Bool × Nat) :=
  dedup ((r.stores.filter (fun b => b.round == n && b.mtile == mt)).map BufStore.line)

/-- The entries of a commit buffer in use, over every round of every graph. -/
def State.linesUsed (s : State) (mt : Nat) : Nat :=
  (s.runs.map (fun r => ((dedup ((r.stores.filter (fun b => b.mtile == mt)).map (fun b => b.round))).map
    (fun n => (r.linesOf n mt).length)).foldl (· + ·) 0)).foldl (· + ·) 0

/-- What becomes of a store that is ready to issue. -/
inductive StoreFate where
  | buffered
  | direct
  | overflow
  | withheld
  | wait
  deriving DecidableEq, Repr

/-- R150 and R151 decide a store of round n to a line through a commit buffer. -/
def State.storeFate (s : State) (r : Run) (n mt : Nat) (line : Bool × Nat) : StoreFate :=
  let info := r.round n
  if info.overflowed then (if info.writing then .direct else .wait)
  else if (r.linesOf n mt).contains line then .buffered
  else if 4096 ≤ (r.linesOf n mt).length then .overflow
  else if 4096 ≤ s.linesUsed mt then (if n = r.oldest then .overflow else .withheld)
  else .buffered

/-- A line as signatures hash it (R154). -/
def BufStore.signLine (b : BufStore) : Nat := if b.scratch then 2 ^ 52 / 64 + b.mtile * 2 ^ 15 + b.address / 64 else b.address / 64

/-- A store written to memory. -/
def State.storeNow (s : State) (b : BufStore) : State :=
  if b.scratch then s.padWrite b.mtile b.address b.bytes else s.physWrite b.comp b.address b.bytes

/-- A store issued: buffered, written directly, or not yet. The answer says whether the element is performed. A tagged datum stays
buffered until its replacement has come (R375). -/
def MEnv.store (m : MEnv) (s : State) (b : BufStore) : Bool × Bool × State :=
  match s.run m.gid with
  | none => (false, false, s)
  | some r =>
    match s.storeFate r b.round b.mtile b.line with
    | .buffered => (true, false, s.modRun m.gid (fun x => { x with stores := x.stores ++ [b] }))
    | .direct =>
      if b.origin.isSome then (true, false, s.modRun m.gid (fun x => { x with stores := x.stores ++ [b] }))
      else (true, false, (s.storeNow b).modRun m.gid (fun x => x.modRound b.round (fun y => { y with wrote := y.wrote ++ [b.signLine] })))
    | .overflow => (false, false, s.modRun m.gid (fun x => x.modRound b.round (fun y => { y with overflowed := true, overTile := some b.mtile })))
    | .withheld => (false, true, s)
    | .wait => (false, false, s)

/-- The parts of one store issued, all or none: an access that runs into a second line or page, of which a round can take only a
part, leaves no part behind. -/
def MEnv.storeAll (m : MEnv) (s : State) (bs : List BufStore) : Bool × Bool × State :=
  let (ok, hold, s1) := bs.foldl (fun (acc : Bool × Bool × State) b =>
    let (ok, hold, s) := acc
    if !ok then acc
    else
      let (o, h, s') := m.store s b
      (o, hold || h, s')) (true, false, s)
  if ok then (true, hold, s1)
  else (false, hold, { s with runs := s1.runs.map (fun r => if r.gid = m.gid then { r with stores := ((s.run m.gid).getD r).stores } else r) })

/-- The 64-byte lines of a range, as signatures hash them (R154): scratchpad lines lie beyond every physical one. -/
def signLines (scratch : Bool) (mt a n : Nat) : List Nat :=
  let first := a / 64
  (List.range ((a + n - 1) / 64 + 1 - first)).map (fun i => if scratch then 2 ^ 52 / 64 + mt * 2 ^ 15 + first + i else first + i)

/-- The lines that a unit read enter the round's signature (R154). -/
def MEnv.sign (m : MEnv) (s : State) (round mt : Nat) (lines : List Nat) : State :=
  s.modRun m.gid (fun r => r.modRound round (fun x =>
    { x with reads := x.reads ++ (lines.filter (fun l => !x.reads.contains (mt, l))).map (fun l => (mt, l)) }))

/-- The bytes that a port's read returns (R145): memory, under the latest store of the same port in the round. -/
def MEnv.merged (m : MEnv) (s : State) (round : Nat) (scratch : Bool) (mt a : Nat) (mem : List Byte) : List Byte :=
  match s.run m.gid with
  | none => mem
  | some r =>
    let mine := r.stores.filter (fun b => b.round == round && b.port = m.uid && b.scratch == scratch && (!scratch || b.mtile == mt))
    mine.foldl (fun acc b =>
      (acc.zip (List.range acc.length)).map (fun x =>
        let at_ := a + x.2
        if b.address ≤ at_ && at_ < b.address + b.bytes.length then b.bytes.getD (at_ - b.address) x.1 else x.1)) mem

/-! ### Global mode (R325, R326, R132) -/

/-- How a unit's firing on memory ends: it fires, with what it asks, or it only changed what it waits for. -/
structure MStep where
  step : UStep
  s : State

/-- The origin of the error tag of what a store emits for a tagged element: none where the store keeps the datum for a replacement, since
the path of the tagged token ends there (R376, R377). -/
def keptOrigin (o : Option Origin) : Option Origin := o.bind (fun x => if x.tokenLocal then none else some x)

/-- The element replaced by one item; the inputs are consumed. -/
def MEnv.finish (m : MEnv) (s : State) (st : UnitSt) (i : Item) : Option MStep :=
  some ⟨{ st := ((st.emit m.e i).dealOn (uRep m.e.w)).toReply }, s⟩

/-- The unit behind port a's edge, over fan, repeat, chk and vote units: the xlat whose base reaches a port (R131, R329); fuel
bounds the path. -/
def Image.baseSource (i : Image) : Nat → Nat → Option Nat
  | 0, _ => none
  | n + 1, u =>
    match i.edges.find? (fun e => e.dst == u && e.port == 0) with
    | none => none
    | some e => if uOp (i.unit e.src) = 0xA5 then some e.src else Image.baseSource i n e.src

/-- Another unit of the block as it stands. -/
def MEnv.other (m : MEnv) (s : State) (v : Nat) : UnitSt :=
  match (s.strand m.t m.k).units.find? (fun x => x.1 == m.key) with
  | some x => x.2.getD v {}
  | none => {}

/-- The unit waits for a re-translation of an address (R132): the xlat serves it behind the inputs that it already holds
(R329). -/
def MEnv.retranslate (m : MEnv) (s : State) (st : UnitSt) (va : Nat) (write : Bool) : Option MStep :=
  match st.withheld with
  | some _ => none
  | none =>
    let behind := match m.e.image.baseSource m.e.image.count m.e.u with
      | some v => let y := m.other s v; y.core.count + ((y.ports.getD 0 []).filter Item.isElem).length
      | none => 0
    some ⟨{ st := { st with withheld := some ⟨none, va, write, none⟩, behind := behind } }, s⟩

/-- Whether an xlat is to serve a re-translation before its next input. -/
def MEnv.requestWaits (m : MEnv) (s : State) (st : UnitSt) : Bool :=
  (List.range m.e.image.count).any (fun u => match (m.other s u).withheld with
    | some w => w.tag.isNone && w.cause.isNone && (m.other s u).behind ≤ st.core.count && m.e.image.baseSource m.e.image.count u == some m.e.u
    | none => false)

/-- Whether a leaf still needs accessed, or dirty for a write, before an access (R128). -/
def needsMark (leaf : DWord) (write : Bool) : Bool := !bitOf leaf.toNat 6 || (write && !bitOf leaf.toNat 7)

/-- A base that no page holds: it is to be translated again from its own address before it serves an access (R401). -/
def Base.forget (b : Base) : Base := { b with page := 2 ^ 60 }

/-- Whether a base waits for the translation of its own address (R401). -/
def Base.forgotten (b : Base) : Bool := b.page == 2 ^ 60

/-- Whether a base's page holds an address. -/
def Base.holds (b : Base) (va : Nat) : Bool := decide (pageBase va b.size = b.page)

/-- The bytes of an access that lie in the page of its first byte. -/
def Base.upTo (b : Base) (va bytes : Nat) : Nat := min bytes (pageBytes b.size - va % pageBytes b.size)

/-- The base of the page that a leaf gives for an address, for the virtual address that a base keeps (R131, R132). -/
def Base.moved (b : Base) (va pa : Nat) (l : Leaf) : Base :=
  { b with leaf := l.entry, frame := pa - va % pageBytes l.size, size := l.size, page := pageBase va l.size }

/-- The cause of a translation fault (R127, R130, R133). -/
def faultCause (x : XFault) : Nat :=
  match x with
  | .noContext => 4
  | .denied => 4
  | .notPresent => 3
  | .bad => 3
  | .poisoned => 5

/-- What the second page of an access that runs over a page's end comes to: there is none, its base, or how the access ends. -/
inductive PageEnd where
  | none
  | base (b : Base)
  | withhold (va : Nat)
  | cause (c : Nat)
  | poison (table : Nat)
  deriving DecidableEq, Repr

/-- The page behind that of an access's first byte, translated as the access needs it. -/
def MEnv.nextPage (m : MEnv) (s : State) (b : Base) (va bytes : Nat) (acc : Access) : PageEnd × State :=
  let n := b.upTo va bytes
  if n = bytes then (.none, s)
  else
    match s.translate (m.agent s) (va + n) acc with
    | (.ok pa l, s1) => (.base (b.moved (va + n) pa l), s1)
    | (.fault .notPresent, s1) => (.withhold (va + n), s1)
    | (.fault x, s1) => (.cause (faultCause x), s1)
    | (.poison table, s1) => (.poison table, s1)

/-- The 64-byte lines of an access brought into the L2 of the die that serves them (R330). -/
def State.prefetchLines (s : State) (pa bytes : Nat) : State :=
  s.touchL2 pa bytes

/-- The access of one offset through a base, once the base's page holds its first byte: permissions, accessed and dirty, then
the load's request or the store. items are the tokens of the element; st has consumed them. An access whose later bytes
lie in another page takes those through that page's own entry (R132, log entry 65). -/
def MEnv.access (m : MEnv) (s : State) (st0 st : UnitSt) (items : List Item) (b : Base) (o va words : Nat) (data : Option Item) :
    Option MStep :=
  let w := m.e.w
  let write := data.isSome
  let bytes := 4 * words
  let (err, org) := errorOf items
  let fail (cause : Nat) (s : State) : Option MStep :=
    m.finish s { st with withheld := none } { faultItem (m.e.out 0 []) cause o with tag := elemTag false true err, origin := org }
  let acc : Access := if write then .write else .read
  let withhold (s : State) (at_ : Nat) : Option MStep :=
    match st0.withheld with
    | some _ => none
    | none =>
      let (tag, s2) := m.fault s st0.core.deal at_ (if write then 1 else 0)
      some ⟨{ st := { st0 with withheld := some { tag := some tag, va := at_, write := write, cause := none } } }, s2⟩
  let poisoned (s : State) (table : Nat) : Option MStep :=
    let a := m.agent s
    fail 5 (s.logPoison a.part a.ctx m.gid (m.copyUid st0.core.deal) st0.round table)
  let land (s : State) (b : Base) (more : Option Base) : Option MStep :=
    let pa := b.frame + va % pageBytes b.size
    let n := b.upTo va bytes
    let far := match more with
      | some c => !s.reaches (dieOf m.t.val) (servingDie c.frame)
      | none => false
    if far || !s.reaches (dieOf m.t.val) (servingDie pa) then some ⟨{ st := st0 }, s.kill m.gid 0x12 0#8⟩
    else if write && (s.moving (m.agent s) va || s.moving (m.agent s) (va + bytes - 1)) then
      (if st0.storeWait then none else some ⟨{ st := { st0 with storeWait := true } }, s⟩)
    else if write && s.heldWrite (m.agent s) va then some ⟨{ st := { st0 with storeWait := true } }, s.holdWrite (m.agent s) va⟩
    else
      let s := s.countHot (m.agent s) va acc
      let core := { st.core with sticky := Sticky.base b false }
      match data with
      | none =>
        let q : MemReq := { scratch := false, address := pa, words := words, frame := some b, offset := BitVec.ofNat 32 o
                            seq := st.seq, round := st.round, copies := 1, stopAfter := false
                            error := err, origin := org, more := more.map (fun c => (n, c)), copy := st0.core.deal }
        some ⟨{ st := ({ st with requests := st.requests ++ [q], core := core }).dealOn (uRep w) }, s⟩
      | some d =>
        match m.mtile with
        | none => none
        | some mt =>
          let put (b : Base) (pa : Nat) (bs : List Byte) : BufStore :=
            { round := st.round, mtile := mt, scratch := false, address := pa, bytes := bs, port := m.uid
              origin := if err then org else none, comp := leafComp b.leaf == 1 }
          let ds := wordsToBytes d.words
          let parts := (put b pa (ds.take n) :: (more.map (fun c => put c c.frame (ds.drop n))).toList).flatMap BufStore.cut
          match m.storeAll s parts with
          | (true, _, s1) => m.finish s1 { st with storeWait := false, core := core } (voidItem 1 err (keptOrigin org))
          | (false, hold, s1) =>
            if hold && st0.storeWait then none
            else some ⟨{ st := { st0 with storeWait := hold } }, s1⟩
  let go (s : State) (b : Base) : Option MStep :=
    match m.nextPage s b va bytes acc with
    | (.none, s1) => land s1 b none
    | (.base c, s1) => land s1 b (some c)
    | (.withhold at_, s1) => withhold s1 at_
    | (.cause c, s1) => fail c s1
    | (.poison table, s1) => poisoned s1 table
  if uOp w = 0xA6 then
    let pa := b.frame + va % pageBytes b.size
    let n := b.upTo va bytes
    let dropped := !leafAllows b.leaf true acc || hostBase ≤ pa || !s.reaches (dieOf m.t.val) (servingDie pa)
    let s1 := if dropped then s else s.prefetchLines pa n
    let s2 := if dropped || n = bytes then s1 else
      (match (s.leafFor (m.agent s) (va + n) .read).1 with
      | .leaf l => if leafAllows l.entry true acc && !(hostBase ≤ l.frame) && s.reaches (dieOf m.t.val) (servingDie l.frame)
          then s1.prefetchLines l.frame (bytes - n) else s1
      | _ => s1)
    some ⟨{ st := { st with core := { st.core with sticky := Sticky.base b false } }.dealOn (uRep w) }, s2⟩
  else if !leafAllows b.leaf true acc then fail 4 s
  else if needsMark b.leaf write then
    match s.translate (m.agent s) va acc with
    | (.ok pa l, s1) => go s1 (b.moved va pa l)
    | (.fault .notPresent, s1) => withhold s1 va
    | (.fault x, s1) => fail (faultCause x) s1
    | (.poison table, s1) => poisoned s1 table
  else go s b

/-- A global-mode load, store or prefetch. A void base lets nothing happen (R325); of fault tokens the lowest-lettered port's
goes on, the sticky base standing for port a (R67); then the checks of R326 in their order. The spec judges the offset's
alignment only (R168, R326): through a base whose own address is unaligned the access is made where it falls (log entry 65). -/
def MEnv.globalStep (m : MEnv) (s : State) (st : UnitSt) : Option MStep :=
  let e := m.e; let w := e.w; let op := uOp w
  let isStore := op == 0xA1
  let quiet := op == 0xA6
  let words := bitsOf (uImm w) 10 8 + 1
  let level := if quiet then 1 else bitsOf (uImm w) 12 11 + 1
  let ps := e.ports.filter (fun p => p != 0)
  let out (u : UStep) : UStep := { u with st := if quiet then { u.st with out := [] } else u.st.toReply }
  let stopOnA := match st.head e.adv 0 with
    | some i => i.isStop
    | none => false
  if stopOnA then some ⟨{ st := st.pop [0] }, s⟩
  else if !st.mayReply e then none
  else
    match st.align e ps with
    | .wait => none
    | .broken => some ⟨{ st := st, effs := [.broken] }, s⟩
    | .stop l st1 =>
      let st2 := if level ≤ l then { st1 with core := { st1.core with refresh := true } } else st1
      some ⟨out (st2.passStop e l), s⟩
    | .marker _ _ =>
      match st.align e (0 :: ps) with
      | .marker i st1 => some ⟨out (st1.passMarker e i), s⟩
      | .broken => some ⟨{ st := st, effs := [.broken] }, s⟩
      | _ => none
    | .fire items =>
      let aHead := st.head e.adv 0
      let ready := if st.core.refresh then (match aHead with
          | some i => i.isElem
          | none => false) else true
      if !ready then none
      else
        let st := if st.core.refresh then
            (match aHead with
            | some i =>
              let sticky : Sticky := if i.isVoid then .void else if i.isFault then .fault { i with due := 0 } else
                match i.base with
                | some b => .base b false
                | none => .void
              { st.pop [0] with core := { st.core with sticky := sticky, refresh := false } }
            | none => st) else st
        let st1 := (st.pop ps).begin e
        let oi := items.headD (voidItem 1 false none)
        let di := if isStore then items[1]? else none
        let (acts, dFault) := e.acts (if uPmode w = 0 then none else items.getLast?)
        let (err, org) := errorOf items
        let n := if isStore then 1 else e.out 0 []
        let done (i : Item) : Option MStep :=
          if quiet then some ⟨{ st := { st1 with withheld := none }.dealOn (uRep w) }, s⟩ else m.finish s { st1 with withheld := none } i
        let fault := if oi.isFault then some oi else match di with
          | some d => if d.isFault then some d else dFault
          | none => dFault
        let sticky := st1.core.sticky
        let baseVoid := match sticky with
          | .base _ _ => false
          | .fault _ => false
          | _ => true
        let fault := match fault, sticky with
          | some _, .fault b => some b
          | f, _ => f
        let baseFault := match sticky with
          | .fault _ => true
          | _ => false
        if !acts || baseVoid then done (voidItem n err org)
        else
          match fault with
          | some f => done (faultOut n f items)
          | none =>
            if !baseFault && (oi.isVoid || (match di with
                | some d => d.isVoid
                | none => false)) then done (voidItem n err org)
            else
              let o := oi.word.toNat
              let failed (c : Nat) : Option MStep := done { faultItem n c o with tag := elemTag false true err, origin := org }
              if !baseFault && o % (4 * 2 ^ ceilLog2 words) ≠ 0 then failed 2
              else
                match sticky with
                | .none => done (voidItem n err org)
                | .void => done (voidItem n err org)
                | .fault f => done (faultOut n f items)
                | .base b stale =>
                  match st1.withheld with
                  | some { cause := some c, .. } => failed c
                  | some _ => none
                  | none =>
                    let va := ((b.va : Int) + sextNat o 32)
                    if b.forgotten then m.retranslate s st b.va isStore
                    else if va < 0 || (2 ^ 52 : Nat) ≤ va then failed 4
                    else
                      let va := va.toNat
                      if stale || !b.holds va then m.retranslate s st va isStore
                      else m.access s st st1 items b o va words di

/-! ### Scratch mode (R119 to R121, R324, R466) -/

/-- Whether two placements are of one store or line buffer (R119). -/
def samePlaceStore (a b : Place) : Bool :=
  a.mtile == b.mtile && agMode a.word == agMode b.word && agBase a.word == agBase b.word && agExtent a.word == agExtent b.word
    && agBuffers a.word == agBuffers b.word && agPrivate a.word == agPrivate b.word && !a.indexed && !b.indexed

/-- The writer of a placement's store and its readers. -/
def Run.storeGroup (r : Run) (p : Place) : Option Place × List Place :=
  let group := r.places.filter (fun q => samePlaceStore p q)
  (group.find? (fun q => agWrite q.word), group.filter (fun q => !agWrite q.word))

/-- The buffer that a placement uses in a round (R119). -/
def bufferOf (p : Place) (round : Nat) : Nat := (if agPrivate p.word then round else p.passes) % agBuffers p.word

/-- Passes that a placement has completed on a buffer: counted where buffers go by round, else every nbuf + 1-th of its passes. -/
def Place.passesOn (p : Place) (b : Nat) : Nat :=
  if agPrivate p.word then p.perBuf.getD b 0 else (p.passes + agBuffers p.word - 1 - b) / agBuffers p.word

/-- Whether a reader may make its next access: in a tile store its buffer is full, in a line buffer its line is written
(R119, R121). -/
def Run.mayRead (r : Run) (p : Place) (round : Nat) : Bool :=
  match (r.storeGroup p).1 with
  | none => false
  | some wr =>
    if agMode p.word = 2 then
      let line := agCount wr.word 0
      let lines := agExtent p.word / line
      let written := wr.passes * lines + wr.step / line
      decide (p.passes + ((agOffset p.word p.step).toNat / line) < written)
    else
      let b := bufferOf p round
      decide (p.passesOn b < wr.passesOn b)

/-- Whether a writer may make its next access: its buffer is empty, every reader having finished its pass of what it held, and a
buffer that goes by round waits for the round before it there to commit (R119); in a line buffer fewer than L lines are
unreleased (R121). A line buffer that has no reader never stalls its writer (log entry 66). -/
def Run.mayWrite (r : Run) (p : Place) (round : Nat) : Bool :=
  let readers := (r.storeGroup p).2
  let free :=
    if agMode p.word = 2 then
      match minBy id (readers.map (fun q => q.passes)) with
      | none => true
      | some least =>
        let line := agCount p.word 0
        let lines := agExtent p.word / line
        decide (p.passes * lines + p.step / line < least + lines)
    else
      let b := bufferOf p round
      readers.all (fun q => decide (p.passesOn b ≤ q.passesOn b))
  free && (!agPrivate p.word || decide (round < r.oldest + agBuffers p.word))

/-- The window word of a placement's next access. -/
def Run.placeWord (r : Run) (p : Place) (round : Nat) : Nat :=
  let off := agOffset p.word p.step
  if agMode p.word = 2 && !agWrite p.word then
    let line := match (r.storeGroup p).1 with
      | some wr => agCount wr.word 0
      | none => 1
    agBase p.word + (p.passes * line + off.toNat) % agExtent p.word
  else ((agBase p.word + bufferOf p round * agExtent p.word : Nat) + off).toNat

/-- A placement whose pass is complete, in a buffer. -/
def Place.passed (p : Place) (b : Nat) : Place :=
  { p with
    step := 0, passes := p.passes + 1, pending := [], spoilt := []
    perBuf := if agPrivate p.word then (List.range (agBuffers p.word)).map (fun c => p.perBuf.getD c 0 + (if c = b then 1 else 0)) else [] }

/-- A placement after one access of a pass of n, made in a round. -/
def Place.onward (p : Place) (round n : Nat) : Place :=
  if n ≤ p.step + 1 then p.passed (bufferOf p round) else { p with step := p.step + 1 }

/-- What reading words of a scratchpad, by byte address, makes of a token: it is error-tagged after an uncorrectable error, which is
logged (R331), and where a word holds an error-tagged datum (R375), which the reader's round then repairs, under a record of its own
(R378). -/
def MEnv.readTag (m : MEnv) (s : State) (st : UnitSt) (mt a : Nat) (words : List Nat) : Option Origin × State :=
  if words.any (fun w => s.padBad mt w 4) then
    let (idx, s1) := m.logRead (words.foldl (fun s w => s.padMet mt w 4) s) st st.core.deal padErr
    (some (m.origin st st.core.deal true a words.length idx), s1)
  else ((words.findSome? (fun w => s.padTaint mt w 4)).map (fun o => { o with tokenLocal := false, record := 0xFFFF_FFFF#32 }), s)

/-- The byte addresses of n words of a scratchpad. -/
def wordsAt (a n : Nat) : List Nat := (List.range n).map (fun i => a + 4 * i)

/-- An item with the tag that its read gives it. -/
def Item.readAs (i : Item) (o : Option Origin) : Item :=
  match o with
  | some _ => { i with tag := i.tag ||| 0x08#8, origin := o }
  | none => i

/-- The token of a transform's pass that an access reads (R420 to R425), with the generator after it. What it reads makes it
error-tagged: an uncorrectable error in one of its words, and in a block of a coded store an error in any sector or in the tag, or a
malformed code, which spoils the block for the rest of the pass and is logged once (R411, R420). -/
def MEnv.passRead (m : MEnv) (s : State) (st : UnitSt) (p : Place) : Item × Word × State :=
  let buf := bufferOf p st.round
  let tok := agReadToken p.word (s.windowWord m.gid p.mtile) buf (st.rng 0) p.step
  let here (o : Option Origin) : Option Origin := o.map (fun x => { x with pass := some (buf, p.step) })
  let item : Item := { words := tok.words, tag := if tok.kind = 1 then 0x04#8 else 0#8 }
  match tok.block.bind (fun b => (p.spoilt.find? (fun x => x.1 == b))) with
  | some (_, idx) => (item.readAs (here (some (m.origin st st.core.deal true 0 0 idx))), tok.rng, s)
  | none =>
    let ws := tok.reads.map (s.windowByte m.gid p.mtile)
    let (tag, s1) := m.readTag s st p.mtile 0 ws
    let (tag, s2) := if tag.isNone && tok.kind = 2 then
        (let (idx, s2) := m.logRead s1 st st.core.deal ⟨0, 0, true⟩
         (some (m.origin st st.core.deal true 0 0 idx), s2))
      else (tag, s1)
    let s3 := match tag, tok.block with
      | some o, some b => if o.tokenLocal then m.modPlace s2 (fun q => { q with spoilt := q.spoilt ++ [(b, o.record)] }) else s2
      | _, _ => s2
    (item.readAs (match tag with
      | some o => if o.record = 0xFFFF_FFFF#32 then some o else here (some o)
      | none => none), tok.rng, s3)

/-- The value of the next access of a scratch-mode load that reads a tile store or a line buffer: one word, or one token of a
transform's pass. A disabled load emits its void token and its pattern advances: it reads nothing and its generator takes no step
(R38, R80). -/
def MEnv.scratchLoad (m : MEnv) (s : State) (st : UnitSt) (p : Place) (r : Run) : Option MStep :=
  let e := m.e
  if !r.mayRead p st.round || !st.mayReply e || !e.predicated st then none
  else
    let acts := match (if uPmode e.w = 0 then none else st.head e.adv 3) with
      | some d => (e.acts (some d)).1 && !d.isFault
      | none => true
    let st0 := st
    let st := (st.popPredicate e).begin e
    let n := agReadTokens p.word
    let (item, st, s) :=
      if !acts then (voidItem (agTokenWords p.word) false none, st, s)
      else if agTransform p.word = 0 then
        (let k := agWords p.word
         let a := s.windowByte m.gid p.mtile (r.placeWord p st.round)
         let (tag, s1) := m.readTag s st p.mtile a (wordsAt a k)
         (Item.readAs { words := bytesToWords k (s.padBytes p.mtile a (4 * k)), tag := 0#8 } tag, st, s1))
      else
        (let (i, g, s1) := m.passRead s st p
         (i, st.modCopy 0 (fun c => { c with rng := g }), s1))
    let st1 := ({ st with fired := st.fired + 1 }.emit e (e.predicate st0 item)).dealOn 1
    let st2 := if n ≤ p.step + 1 && bitOf (uImm e.w) 8 then st1.emit e (stopItem 1) else st1
    some ⟨{ st := st2.toReply }, m.modPlace s (fun q => q.onward st.round n)⟩

/-- The FIFO that a placement belongs to (R466). -/
def isFifoOf (p : Place) (f : Fifo) : Bool :=
  f.mtile == p.mtile && f.base == agBase p.word && f.extent == agExtent p.word && f.spill == agSpill p.word

/-- Words that a FIFO holds, a bundle counting one per word (R68). -/
def Fifo.count (f : Fifo) : Nat := (f.items.map (fun i => i.words.length)).foldl (· + ·) 0

/-- The scratchpad byte of the n-th word that a FIFO holds. -/
def State.fifoByte (s : State) (g : Word) (f : Fifo) (n : Nat) : Nat :=
  s.windowByte g f.mtile (f.base + (f.written - f.count + n) % f.extent)

/-- The words of a FIFO from one place in it up to another laid into their slots, as far as the FIFO has slots (R120). -/
def State.fifoLay (s : State) (g : Word) (f : Fifo) (first upTo : Nat) : State :=
  let ws := f.items.flatMap (fun i => i.words)
  ((List.range (min upTo f.extent)).drop first).foldl (fun s n => s.padWrite f.mtile (s.fifoByte g f n) (leBytes 4 (ws.getD n 0#32).toNat)) s

/-- The placement's FIFO. -/
def MEnv.fifo (m : MEnv) (s : State) (p : Place) : Option Fifo := (s.run m.gid).bind (fun r => r.fifos.find? (isFifoOf p))

/-- The state with the placement's FIFO changed. -/
def MEnv.modFifo (m : MEnv) (s : State) (p : Place) (f : Fifo → Fifo) : State :=
  s.modRun m.gid (fun r => { r with fifos := r.fifos.map (fun x => if isFifoOf p x then f x else x) })

/-- A token or bundle put into a FIFO: its words go to the next slots of the scratchpad while the FIFO has room there, and beyond
them to the spill area. A FIFO whose reader's load has exited discards and counts (R107). -/
def MEnv.fifoPut (m : MEnv) (s : State) (p : Place) (i : Item) : State :=
  match m.fifo s p with
  | none => s
  | some f =>
    let n := i.words.length
    if f.exited then
      let s1 := m.modFifo s p (fun x => { x with discarded := x.discarded + n })
      if i.isMarker && tagSub i.tag == 0 then
        (s1.modStrand m.t m.k (fun st => { st with sinkClosed := true })).modRun m.gid (fun r => { r with flags := r.flags ||| flagDiscard })
      else s1
    else
      let f1 := { f with items := f.items ++ [{ i with due := 0, packs := [] }], written := f.written + n }
      (m.modFifo s p (fun _ => f1)).fifoLay m.gid f1 f.count f1.count

/-- Whether a FIFO takes n more words: it has the slots, or spills (R120). While its reader's load is still to be placed, it
does not spill: the FIFO fills and its producer stalls (R107). -/
def MEnv.fifoRoom (m : MEnv) (s : State) (p : Place) (n : Nat) : Bool :=
  match m.fifo s p, s.run m.gid with
  | some f, some r => f.exited || (agSpill p.word && decide (f.reader ≤ r.load)) || decide (f.count + n ≤ f.extent)
  | _, _ => false

/-- A FIFO-mode store (R466): every token is written with its tag, and a void token, the fault token, the stop or the
marker goes on. A reconfiguration marker stays inside the region (R100). -/
def MEnv.fifoStore (m : MEnv) (s : State) (st : UnitSt) (p : Place) : Option MStep :=
  let e := m.e
  let need := match st.head e.adv 0 with
    | some i => i.words.length
    | none => 1
  if !st.mayReply e || !m.fifoRoom s p need then none
  else
    match st.align e e.ports with
    | .wait => none
    | .broken => some ⟨{ st := st, effs := [.broken] }, s⟩
    | .stop l st1 =>
      let u := st1.passStop e l
      some ⟨{ u with st := u.st.toReply }, if l = 0 then s else m.fifoPut s p (stopItem l)⟩
    | .marker i st1 =>
      let u := st1.passMarker e i
      some ⟨{ u with st := u.st.toReply }, if tagSub i.tag = 1 then s else m.fifoPut s p i⟩
    | .fire items =>
      let a := items.headD (voidItem 1 false none)
      let (acts, _) := e.acts (if uPmode e.w = 0 then none else items.getLast?)
      let st1 := (st.pop e.ports).begin e
      let i := if acts then a else voidItem a.words.length (errorOf items).1 (errorOf items).2
      let s1 := m.fifoPut s p i
      m.finish s1 st1 (if i.isFault then { i with due := 0 } else voidItem 1 (errorOf items).1 (errorOf items).2)

/-- A pass of a transform written from its tokens (R420, R422): memory, the generator after it, and whether a scale underflowed. -/
def MEnv.writePass (m : MEnv) (s : State) (p : Place) (buf : Nat) (toks : List Item) (rng : Word) : State × Word × Bool :=
  let (ws, bs, g, under) := agWritePass p.word (s.windowWord m.gid p.mtile) buf
    (toks.map (fun i => if i.isVoid then none else some i.words)) rng
  let s1 := ws.foldl (fun s x => s.padWrite p.mtile (s.windowByte m.gid p.mtile x.1) (leBytes 4 x.2.toNat)) s
  (bs.foldl (fun s x => s.padWrite p.mtile (s.windowByte m.gid p.mtile 0 + x.1) [x.2]) s1, g, under)

/-- A writer's unit and placement after a pass of a transform. -/
def MEnv.endPass (m : MEnv) (s : State) (st : UnitSt) (p : Place) (toks : List Item) : UnitSt × State :=
  let buf := bufferOf p st.round
  let (s1, g, under) := m.writePass s p buf toks (st.rng 0)
  let st1 := st.modCopy 0 (fun c => { c with rng := g })
  (if under then st1.setFlag 0 0x02#8 else st1, m.modPlace s1 (fun q => q.passed buf))

/-- A tile-store or line-buffer writer's element (R119, R121, R324). A pass of a transform that holds a tagged datum is written once
its replacement has come (R375, R377). -/
def MEnv.scratchStore (m : MEnv) (s : State) (st : UnitSt) (p : Place) (r : Run) : Option MStep :=
  let e := m.e
  if !st.mayReply e then none
  else
    match st.align e e.ports with
    | .wait => none
    | .broken => some ⟨{ st := st, effs := [.broken] }, s⟩
    | .stop l st1 =>
      let u := st1.passStop e l
      some ⟨{ u with st := u.st.toReply }, s⟩
    | .marker i st1 =>
      let u := st1.passMarker e i
      some ⟨{ u with st := u.st.toReply }, s⟩
    | .fire items =>
      if !r.mayWrite p st.round || (agTransform p.word != 0 && agWriteTokens p.word ≤ p.pending.length) then none
      else
        let a := items.headD (voidItem 1 false none)
        let (acts, dFault) := e.acts (if uPmode e.w = 0 then none else items.getLast?)
        let st1 := (st.pop e.ports).begin e
        let (err, org) := errorOf items
        let fault := if !acts then none else if a.isFault then some a else dFault
        let datum : Option (List Word) := if !acts || a.isVoid || fault.isSome then none else some a.words
        let result : Item := match fault with
          | some f => faultOut 1 f items
          | none => voidItem 1 err (if datum.isSome then keptOrigin org else org)
        if agTransform p.word = 0 then
          let at_ := s.windowByte m.gid p.mtile (r.placeWord p st.round)
          let s1 := match datum with
            | some ws =>
              let s1 := s.padWrite p.mtile at_ (wordsToBytes ws)
              (match (if err then org else none) with
              | some o => s1.taintPad p.mtile at_ (4 * ws.length) o
              | none => s1)
            | none => s
          m.finish (m.modPlace s1 (fun q => q.onward st.round (agAccesses p.word))) st1 result
        else
          let item : Item := match datum with
            | some ws => { words := ws, tag := 0#8, origin := if err then org else none }
            | none => voidItem 1 false none
          let toks := p.pending ++ [item]
          if toks.length < agWriteTokens p.word || toks.any (fun i => i.origin.isSome) then
            m.finish (m.modPlace s (fun q => { q with pending := toks, step := q.step + 1 })) st1 result
          else
            let (st2, s2) := m.endPass s st1 p toks
            m.finish s2 st2 result

/-! ### Indexed windows (R118, R327, R328) -/

/-- The window word of element e of an indexed window, or the cause of the fault token (R327, log entry 62). -/
def indexedWord (w : BitVec 256) (buf len e : Nat) : Nat ⊕ Nat :=
  let k := agWords w
  if agExtent w ≤ (e * len + len) * k - 1 then .inr 1
  else if k = 2 && e * len % 2 = 1 then .inr 2
  else .inl (agBase w + buf * agExtent w + e * len * k)

/-- gather and ldx: one request per element. -/
def MEnv.indexedRead (m : MEnv) (s : State) (st : UnitSt) (p : Place) (len : Nat) (rowstop : Bool) : Option MStep :=
  let e := m.e
  let k := agWords p.word
  let per := if k = 2 && 1 < len then len / 2 else if k = 2 then 1 else len
  if !st.mayReply e then none
  else
    match st.align e e.ports with
    | .wait => none
    | .broken => some ⟨{ st := st, effs := [.broken] }, s⟩
    | .stop l st1 =>
      let u := st1.passStop e l
      some ⟨{ u with st := u.st.toReply }, s⟩
    | .marker i st1 =>
      let u := st1.passMarker e i
      some ⟨{ u with st := u.st.toReply }, s⟩
    | .fire items =>
      let a := items.headD (voidItem 1 false none)
      let (acts, dFault) := e.acts (if uPmode e.w = 0 then none else items.getLast?)
      let st1 := (st.pop e.ports).begin e
      let (err, org) := errorOf items
      let many (i : Item) : Option MStep :=
        let st2 := (List.range per).foldl (fun st _ => st.emit e i) st1
        let st3 := if rowstop then st2.emit e (stopItem 1) else st2
        some ⟨{ st := (st3.dealOn (uRep e.w)).toReply }, s⟩
      let fault := if !acts then none else if a.isFault then some a else dFault
      if !acts then many (voidItem k err org)
      else
        match fault with
        | some f => many (faultOut k f items)
        | none =>
          if a.isVoid then many (voidItem k err org)
          else
            match indexedWord p.word (if agPrivate p.word then st.round % agBuffers p.word else 0) len a.word.toNat with
            | .inr c => many { faultItem k c a.word.toNat with tag := elemTag false true err, origin := org }
            | .inl word =>
              let q : MemReq := { scratch := true, address := s.windowByte m.gid p.mtile word, words := per * k, frame := none
                                  offset := a.word, seq := st1.seq, round := st1.round, copies := per, stopAfter := rowstop
                                  error := err, origin := org, copy := st.core.deal }
              some ⟨{ st := ({ st1 with requests := st1.requests ++ [q] }).dealOn (uRep e.w) }, s⟩

/-- scatter and stx: the element's data tokens buffered in the round. -/
def MEnv.indexedWrite (m : MEnv) (s : State) (st : UnitSt) (p : Place) (len : Nat) : Option MStep :=
  let e := m.e
  let k := agWords p.word
  let per := if k = 2 && 1 < len then len / 2 else if k = 2 then 1 else len
  if !st.mayReply e then none
  else
    match st.align e e.ports with
    | .wait => none
    | .broken => some ⟨{ st := st, effs := [.broken] }, s⟩
    | .stop l st1 =>
      let u := st1.passStop e l
      some ⟨{ u with st := u.st.toReply }, s⟩
    | .marker i st1 =>
      let u := st1.passMarker e i
      some ⟨{ u with st := u.st.toReply }, s⟩
    | .fire items =>
      let a := items.headD (voidItem 1 false none)
      let data := ((st.ports.getD 1 []).take per).filter (fun i => i.isElem && i.due ≤ e.adv)
      if data.length < per then none
      else
        let (acts, dFault) := e.acts (if uPmode e.w = 0 then none else items.getLast?)
        let st1 := (st.pop (e.ports.filter (fun q => q != 1))).begin e
        let st2 := { st1 with ports := (st1.ports.zip (List.range 4)).map (fun x => if x.2 = 1 then x.1.drop per else x.1) }
        let all := a :: data
        let (err, org) := errorOf all
        let fault := if !acts then none else if a.isFault then some a else match data.find? Item.isFault with
          | some f => some f
          | none => dFault
        if !acts then m.finish s st2 (voidItem 1 err org)
        else
          match fault with
          | some f => m.finish s st2 (faultOut 1 f all)
          | none =>
            if a.isVoid || data.any Item.isVoid then m.finish s st2 (voidItem 1 err org)
            else
              match indexedWord p.word (if agPrivate p.word then st.round % agBuffers p.word else 0) len a.word.toNat with
              | .inr c => m.finish s st2 { faultItem 1 c a.word.toNat with tag := elemTag false true err, origin := org }
              | .inl word =>
                let at_ := s.windowByte m.gid p.mtile word
                let puts := (data.zip (List.range per)).map (fun x =>
                  ({ round := st2.round, mtile := p.mtile, scratch := true, address := at_ + 4 * k * x.2
                     bytes := wordsToBytes x.1.words, port := m.uid, origin := if x.1.isError then x.1.origin else none, comp := false } : BufStore))
                match m.storeAll s puts with
                | (true, _, s1) => m.finish s1 { st2 with storeWait := false } (voidItem 1 err (keptOrigin org))
                | (false, hold, s1) =>
                  if hold && st.storeWait then none
                  else some ⟨{ st := { st with storeWait := hold } }, s1⟩

/-- The new value of an owner's element (R328). -/
def ownerValue (op : Nat) (f : Fmt) (old v : Nat) : Nat :=
  if f = .f32 then
    let a := Fmt.decode .f32 old; let b := Fmt.decode .f32 v
    match op with
    | 0 => Fmt.rne .f32 (a.add b)
    | 1 => Fmt.rne .f32 (a.min b)
    | _ => Fmt.rne .f32 (a.max b)
  else
    match op with
    | 0 => intOp 0x20 f old v 0
    | 1 => intOp 0x24 f old v 0
    | 2 => intOp 0x25 f old v 0
    | 3 => Nat.land old v
    | _ => Nat.lor old v

/-- owner (R166, R328): one update, performed at once and never again: when an abort's re-injection brings the token of an update that has
been applied once more, the owner takes it and changes nothing (log entry 83). A word that it reads with an error tags its token (R331), and what it then
writes. -/
def MEnv.ownerStep (m : MEnv) (s : State) (st : UnitSt) (p : Place) : Option MStep :=
  let e := m.e; let f := uFmt e.w
  let k := agWords p.word
  let ret := bitOf (uImm e.w) 11
  let n := if ret then k else 1
  if !st.mayReply e then none
  else
    match st.align e e.ports with
    | .wait => none
    | .broken => some ⟨{ st := st, effs := [.broken] }, s⟩
    | .stop l st1 =>
      let u := st1.passStop e l
      some ⟨{ u with st := u.st.toReply }, s⟩
    | .marker i st1 =>
      let u := st1.passMarker e i
      some ⟨{ u with st := u.st.toReply }, s⟩
    | .fire items =>
      let a := items.headD (voidItem 1 false none)
      let v := items.getD 1 (voidItem 1 false none)
      let (acts, dFault) := e.acts (if uPmode e.w = 0 then none else items.getLast?)
      let st1 := (st.pop e.ports).begin e
      let (err, org) := errorOf items
      let fault := if a.isFault then some a else if v.isFault then some v else dFault
      let again := st.applied.contains (st1.round, st1.seq)
      if err && acts then m.finish s st1 (voidItem n true (if ret then org else keptOrigin org))
      else if !acts then m.finish s st1 (voidItem n err org)
      else
        match fault with
        | some x => m.finish s st1 (faultOut n x items)
        | none =>
          if a.isVoid || v.isVoid then m.finish s st1 (voidItem n err org)
          else
            match indexedWord p.word 0 1 a.word.toNat with
            | .inr c => m.finish s st1 (faultItem n c a.word.toNat)
            | .inl word =>
              let at_ := s.windowByte m.gid p.mtile word
              let (tag, s) := m.readTag s st1 p.mtile at_ (wordsAt at_ k)
              let old := leNat (s.padBytes p.mtile at_ (4 * k))
              let arg := leNat (wordsToBytes v.words)
              let new := ownerValue (bitsOf (uImm e.w) 10 8) f old arg
              let s1 := if again then s else s.padWrite p.mtile at_ (leBytes (4 * k) new)
              let s2 := match tag with
                | some o => s1.taintPad p.mtile at_ (4 * k) o
                | none => s1
              m.finish s2 { st1 with applied := if again then st1.applied else (st1.round, st1.seq) :: st1.applied.filter (fun x => match s.run m.gid with
                  | some r => r.oldest ≤ x.1
                  | none => false) } (Item.readAs (if ret then { words := bytesToWords k (leBytes (4 * k) old), tag := 0#8 } else voidItem 1 false none) tag)

/-! ### xlat (R329) -/

/-- A base from a leaf: the page that holds page address va, for a base address. -/
def baseOf (va pageVa : Nat) (ctx : Half) (l : Leaf) : Base := ⟨va, pageBase pageVa l.size, ctx, l.frame, l.size, l.entry⟩

/-- xlat. It serves its inputs and the re-translations that ports ask of it in arrival order. DESIGN CHOICE (log entry 91): the request for
a not-present page that withholds a token here, before any access's kind is known, says access 0 (read). -/
def MEnv.xlatStep (m : MEnv) (s : State) (st : UnitSt) : Option MStep :=
  let e := m.e
  if !st.mayReply e || (st.withheld.isNone && m.requestWaits s st) then none
  else
    match st.align e e.ports with
    | .wait => none
    | .broken => some ⟨{ st := st, effs := [.broken] }, s⟩
    | .stop l st1 =>
      let u := st1.passStop e l
      some ⟨{ u with st := u.st.toReply }, s⟩
    | .marker i st1 =>
      let u := st1.passMarker e i
      some ⟨{ u with st := u.st.toReply }, s⟩
    | .fire items =>
      let a := items.headD (voidItem 2 false none)
      let (acts, dFault) := e.acts (if uPmode e.w = 0 then none else items.getLast?)
      let st1 := { (st.pop e.ports).begin e with withheld := none }
      let st1 := { st1 with core := { st1.core with count := st1.core.count + 1 } }
      let (err, org) := errorOf items
      let fault := if !acts then none else if a.isFault then some a else dFault
      let va := leNat (wordsToBytes a.words)
      let failed (s : State) (c : Nat) : Option MStep := m.finish s st1 { faultItem 2 c 0 with tag := elemTag false true err, origin := org }
      if !acts then m.finish s st1 (voidItem 2 err org)
      else
        match fault with
        | some f => m.finish s st1 (faultOut 2 f items)
        | none =>
          if a.isVoid then m.finish s st1 (voidItem 2 err org)
          else if 2 ^ 52 ≤ va then failed s 4
          else
            match st.withheld with
            | some { cause := some c, .. } => failed s c
            | some _ => none
            | none =>
              let g := m.agent s
              let (walk, _, s1) := s.leafFor g va .read
              match walk with
              | .leaf l => m.finish s1 st1 { words := [0#32, 0#32], tag := elemTag false false err, base := some (baseOf va va g.ctx l), origin := org }
              | .fault .notPresent =>
                let (tag, s2) := m.fault s1 0 va 0
                some ⟨{ st := { st with withheld := some { tag := some tag, va := va, write := false, cause := none } } }, s2⟩
              | .fault x => failed s1 (faultCause x)
              | .uncorrectable table => failed (((s1.eccMet table 2048).markPoisoned table).logPoison g.part g.ctx m.gid m.uid st.round table) 5

/-! ### All memory units -/

/-- One firing of a unit of opcodes 0xA0 to 0xA8; none when it cannot fire. A FIFO-mode load is free-running: it fires by
FIFO_MODE_LOAD. -/
def MEnv.step (m : MEnv) (s : State) (st : UnitSt) : Option MStep :=
  let e := m.e; let w := e.w; let op := uOp w
  if op = 0xA5 then m.xlatStep s st
  else if op = 0xA6 || ((op = 0xA0 || op = 0xA1) && memGlobal w) then m.globalStep s st
  else
    match s.run m.gid, m.place s with
    | some r, some p =>
      if op = 0xA0 then
        if agMode p.word = 1 then none
        else
          match inputlessStep e st (fun _ => none) with
          | some u => if st.mayReply e then some ⟨{ u with st := u.st.toReply }, s⟩ else none
          | none =>
            let due := match e.puncts[st.puncts]? with
              | some q => decide (st.fired < q.after)
              | none => true
            if due && st.fired < min e.issued st.asked && st.round < e.limit then m.scratchLoad s st p r else none
      else if op = 0xA1 then (if agMode p.word = 1 then m.fifoStore s st p else m.scratchStore s st p r)
      else if op = 0xA2 then m.ownerStep s st p
      else if op = 0xA3 then m.indexedRead s st p (bitsOf (uImm w) 12 8 + 1) (bitOf (uImm w) 13)
      else if op = 0xA4 then m.indexedWrite s st p (bitsOf (uImm w) 12 8 + 1)
      else if op = 0xA7 then m.indexedRead s st p 1 false
      else if op = 0xA8 then m.indexedWrite s st p 1
      else none
    | _, _ => none

/-- n bytes of a base's page from a physical address: the bytes, the uncorrectable error that they met, and whether a block of them
is malformed. -/
def State.pageRead (s : State) (b : Base) (a n : Nat) : List Byte × Option MemErr × Bool × State :=
  let l : Leaf := ⟨0, b.leaf, b.frame, b.size⟩
  match s.leafRead l (a - b.frame) n with
  | some (bs, true) =>
    let (er, s1) := s.leafErr l (a - b.frame) n
    (bs, some er, false, s1)
  | some (bs, false) => (bs, none, false, s)
  | none => (s.physBytes a n, none, true, s)

/-- What reading a request's bytes finds: the bytes, the first uncorrectable error that they met, and whether a block of them is
malformed. -/
def State.requestBytes (s : State) (mt : Nat) (q : MemReq) : List Byte × Option MemErr × Bool × State :=
  let n := 4 * q.words
  if q.scratch then
    let bad := s.padBad mt q.address n
    (s.padBytes mt q.address n, if bad then some padErr else none, false, if bad then s.padMet mt q.address n else s)
  else
    match q.frame with
    | none => (s.physBytes q.address n, none, false, s)
    | some b =>
      match q.more with
      | none => s.pageRead b q.address n
      | some (k, c) =>
        let (bs, er, mal, s1) := s.pageRead b q.address k
        let (bs2, er2, mal2, s2) := s1.pageRead c c.frame (n - k)
        (bs ++ bs2, er.orElse (fun _ => er2), mal || mal2, s2)

/-- The ranges of physical addresses or of a scratchpad that a request reads. -/
def MemReq.ranges (q : MemReq) : List (Nat × Nat) :=
  match q.more with
  | some (k, c) => [(q.address, k), (c.frame, 4 * q.words - k)]
  | none => [(q.address, 4 * q.words)]

/-- The bytes that a request reads: memory as it stands, under the port's own earlier stores of the round (R145); the uncorrectable
error that they met, and whether a block of them is malformed. -/
def MEnv.readData (m : MEnv) (s : State) (mt : Nat) (q : MemReq) : List Byte × Option MemErr × Bool × State :=
  let (bytes, er, malformed, s1) := s.requestBytes mt q
  ((q.ranges.foldl (fun (acc : List Byte × List Byte) x =>
    (acc.1 ++ m.merged s1 q.round q.scratch mt x.1 (acc.2.take x.2), acc.2.drop x.2)) ([], bytes)).1, er, malformed, s1)

/-- A reply lands (R145, R303, R331): the bytes as memory and the port's own earlier stores of the round have them. Every line
that it reads enters the round's signature (R154). -/
def MEnv.reply (m : MEnv) (s : State) (st : UnitSt) : Option (UnitSt × State) :=
  match st.requests with
  | [] => none
  | q :: qs =>
    let mt := (m.mtile).getD 0
    let (data, er, malformed, s1) := m.readData s mt q
    let s2 := m.sign s1 q.round mt (dedup (q.ranges.flatMap (fun x => signLines q.scratch mt x.1 x.2)))
    let s2 := if q.scratch || (match q.frame with
      | some b => leafMtype b.leaf != 0
      | none => true) then s2 else q.ranges.foldl (fun s x => s.touchL2 x.1 x.2) s2
    let words := bytesToWords q.words data
    let (idx, s3) := match er with
      | some x => m.logRead s2 { st with seq := q.seq * max q.copies 1 } q.copy x
      | none => (0#32, s2)
    let bad := er.isSome
    let err := q.error || bad
    let per := q.words / (max q.copies 1)
    let chunk := chunks per words
    let items : List Item := (chunk.zip (List.range chunk.length)).map (fun x =>
      let at_ := q.address + 4 * per * x.2
      let org := if bad then
          some { (m.origin { st with seq := q.seq * max q.copies 1 + x.2 } q.copy q.scratch at_ per idx) with
            round := q.round, base := q.frame, more := q.more }
        else q.origin
      if malformed then { faultItem per 3 q.offset.toNat with tag := elemTag false true err, origin := org }
      else
        let i : Item := { words := x.1, tag := elemTag false false err, origin := org }
        if q.scratch && !err then
          i.readAs ((s.padTaint mt at_ (4 * per)).map (fun o => { o with tokenLocal := false, record := 0xFFFF_FFFF#32 })) else i)
    let stops := if q.stopAfter then [stopItem 1] else []
    some ({ st with requests := qs, reply := st.reply ++ items ++ stops }, s3)

end Sys2Proof.Machine
end

