-- ==== Sys2Proof/Machine/Fabric.lean ====
section
/-! DEFINITION. Sys2Proof/Machine/Fabric.lean: strands, the units of their blocks, exit tables (R87 to R92, R480), streams
(R107, R317), and where a phase begins (R254, R255). -/

namespace Sys2Proof.Machine

/-! ### Blocks and units -/

/-- The block that a strand runs: the graph, the tile and strand, the context, the key under which its units are kept
(its block index, or 64 + context for an image that is no block of the strand), and the image. -/
structure RCtx where
  gid : Word
  t : Fin 192
  k : Fin 8
  c : Fin 16
  key : Nat
  image : Image

/-- The key of a context for a strand (R251, R480). -/
def Strand.keyOf (st : Strand) (c : Fin 16) (x : Ctx) : Nat :=
  match x.block with
  | some (j, b) => if j == st.ordinal then b else 64 + c.val
  | none => 64 + c.val

/-- A context of a tile as a block of a strand. -/
def State.ctxBlock (s : State) (t : Fin 192) (k : Fin 8) (c : Fin 16) : Option RCtx :=
  let x := (s.tile t).ctxs[c]
  match x.image, s.runOfTile t.val with
  | some i, some r => some ⟨r.gid, t, k, c, (s.strand t k).keyOf c x, i⟩
  | _, _ => none

/-- The block that is active for a strand. -/
def State.rctx (s : State) (t : Fin 192) (k : Fin 8) : Option RCtx :=
  match (s.strand t k).active with
  | none => none
  | some c => s.ctxBlock t k c

/-- The units of a block of a strand. -/
def Strand.block (st : Strand) (key : Nat) : List UnitSt :=
  match st.units.find? (fun x => x.1 == key) with
  | some x => x.2
  | none => []

/-- The strand with a block's units. -/
def Strand.setBlock (st : Strand) (key : Nat) (us : List UnitSt) : Strand :=
  { st with units := (st.units.filter (fun x => x.1 != key)) ++ [(key, us)] }

/-- A unit of a block. -/
def State.unitAt (s : State) (x : RCtx) (u : Nat) : UnitSt := ((s.strand x.t x.k).block x.key).getD u {}

/-- The state with a unit changed. -/
def State.modUnit (s : State) (x : RCtx) (u : Nat) (f : UnitSt → UnitSt) : State :=
  s.modStrand x.t x.k (fun st => st.setBlock x.key (modifyAt (st.block x.key) u f))

/-- The state with a phase changed. -/
def State.modPhase (s : State) (x : RCtx) (f : Phase → Phase) : State :=
  s.modStrand x.t x.k (fun st => { st with phase := st.phase.map f })

/-- What a unit of the active block sees as it fires (R152: it fires for rounds below the limit only). -/
def State.uenv (s : State) (x : RCtx) (u : Nat) : UEnv :=
  let st := s.strand x.t x.k
  let (seed, limit) := match s.run x.gid with
    | some r => (r.launch.seed, r.oldest + r.depth)
    | none => (0#64, 0)
  match st.phase with
  | some p => ⟨x.image, u, st.ordinal, seed, p.advances, limit, p.args, p.trips, p.segs, p.issued, p.puncts⟩
  | none => ⟨x.image, u, st.ordinal, seed, 0, limit, st.args, [], [], 0, []⟩

/-- A memory unit's surroundings. -/
def State.menv (s : State) (x : RCtx) (u : Nat) : MEnv := ⟨x.gid, x.t, x.k, x.key, s.uenv x u⟩

/-- The identifier of a copy of a unit (R21, R304). -/
def RCtx.copyId (x : RCtx) (u copy : Nat) : Word :=
  collarId x.t.val (((x.image.places u).getD []).getD copy (bwPhys (x.image.bind u)))

/-- Words of items. -/
def itemWords (is : List Item) : Nat := (is.map (fun i => i.words.length)).foldl (· + ·) 0

/-- The group of each word of some items, none for a word that is stored plain (R418). -/
def packsOf (is : List Item) : List (Option (Nat × Nat)) :=
  is.flatMap (fun i => if i.packs.isEmpty then i.words.map (fun _ => none) else i.packs)

/-- The slots that an elastic buffer's items take: one per plain token, and those of each compressed group until its last token has left
the stage in which it is expanded (R75, R418). -/
def slotsTaken (is : List Item) : Nat :=
  if is.all (fun i => i.packs.isEmpty) then itemWords is
  else
    let ps := packsOf is
    ps.countP Option.isNone + ((dedup (ps.filterMap id)).map (fun g => g.2)).foldl (· + ·) 0

/-- The groups of a run of words behind the head: 32 plain data words with tag 0 in a row become a group where that takes fewer slots,
numbered on from id; run holds the words of the next group counted so far (R418). -/
def packWords : Nat → List Word → List (Word × Byte × Option (Nat × Nat)) → List (Option (Nat × Nat))
  | _, run, [] => run.map (fun _ => none)
  | id, run, (w, t, g) :: r =>
    if t ≠ 0#8 || g.isSome then run.map (fun _ => none) ++ g :: packWords id [] r
    else if run.length < 31 then packWords id (run ++ [w]) r
    else
      let slots := ceilDiv (bdcEncode (run ++ [w])).length 40
      if slots < 32 then List.replicate 32 (some (id, slots)) ++ packWords (id + 1) [] r
      else List.replicate 32 none ++ packWords id [] r

/-- Items with the groups that their words have been given, word by word. -/
def givePacks : List Item → List (Option (Nat × Nat)) → List Item
  | [], _ => []
  | i :: is, ps => { i with packs := ps.take i.words.length } :: givePacks is (ps.drop i.words.length)

/-- An elastic buffer after a token has entered it: from an occupancy of cthresh on it compresses the groups that stand behind its head
(R418). A group once formed stays as it is, so that no slot counted free is taken back. -/
def packQueue (cthresh : Nat) (is : List Item) : List Item :=
  if cthresh = 0 || slotsTaken is < cthresh then is
  else
    let words := is.flatMap (fun i => i.words.map (fun w => (w, i.tag)))
    let ps := packsOf is
    let next := (ps.filterMap id).foldl (fun n g => max n (g.1 + 1)) 0
    let all := (words.zip ps).map (fun x => (x.1.1, x.1.2, x.2))
    givePacks is (ps.take 1 ++ packWords next [] (all.drop 1))

/-- Whether the load whose AG word a unit names is in FIFO mode (R303, R466). -/
def Run.fifoUnit (r : Run) (i : Image) (u : Nat) : Bool :=
  let w := i.unit u
  uOp w == 0xA0 && !memGlobal w && (match r.graph.ags[uImm w % 256]? with
    | some ag => agMode ag == 1
    | none => false)

/-- The units whose outputs are gated boundary inputs from sources and FIFO-mode loads (R83, R303). -/
def State.supplierUnits (s : State) (x : RCtx) : List Nat :=
  match s.run x.gid with
  | some r => (List.range x.image.count).filter (fun u => uOp (x.image.unit u) == 0x88 || r.fifoUnit x.image u)
  | none => []

/-- The units that fire once per issued iteration, without an input port (R303, R478). -/
def State.inputless (s : State) (x : RCtx) : List Nat :=
  match s.run x.gid with
  | some r => (List.range x.image.count).filter (fun u =>
      let w := x.image.unit u
      uOp w == 0x8B || uOp w == 0x8C || (uOp w == 0xA0 && !memGlobal w && !r.fifoUnit x.image u))
  | none => []

/-- The leading boundary input: the first gated-port word with direction 0 that names a source or a FIFO-mode load. In a region
with an open dimension that is the first of all (R83, R199); in any other the words stand in any order, and the issue stage
takes the arriving markers there (R478). -/
def State.leadUnit (s : State) (x : RCtx) : Option Nat :=
  let sup := s.supplierUnits x
  ((x.image.gports.filter (fun w => !gpOut w && sup.contains (gpUnit w))).head?).map gpUnit

/-- Whether a port takes its tokens by a rule of its own that the data decide, and not a fixed number of elements per iteration: the
inputs of merge and amerge, the segments and counts of repeat, the scales of dq, the bases of a global port, and those of the matrix
units (R291, R309, R312, R322, R325, R334; log entry 70). -/
def freePort (w : DWord) (port : Nat) : Bool :=
  let op := uOp w
  op == 0x84 || op == 0x8E || (op == 0x81) || (op == 0x42 && port == 1) || (0xC0 ≤ op && op ≤ 0xC3)
    || (port == 0 && (op == 0xA6 || ((op == 0xA0 || op == 0xA1) && memGlobal w)))

/-- Elements that a port takes for one iteration: one for each copy (R77), and for scatter data those of each copy's element (R327). -/
def portTakes (w : DWord) (port : Nat) : Nat :=
  let len := bitsOf (uImm w) 12 8 + 1
  uRep w * (if uOp w = 0xA4 && port = 1 then (if (uFmt w).words = 2 then max 1 (len / 2) else len) else 1)

/-- Whether a port discards the stops that come to it: the counts of repeat (R309) and the bases of a global port (R325, R330). -/
def discardsStops (w : DWord) (port : Nat) : Bool :=
  (uOp w == 0x81 && port == 1) || (port == 0 && freePort w 0 && (uOp w == 0xA6 || uOp w == 0xA0 || uOp w == 0xA1))

/-- Whether a unit feeds no port that takes its tokens by a rule of its own, so that it gives its elements by the iteration. -/
def Image.byIteration (m : Image) (u : Nat) : Bool := m.edges.all (fun e => e.src != u || !freePort (m.unit e.dst) e.port)

/-- Whether a unit feeds only ports that discard stops, where no stop of the region's dimensions is needed. -/
def Image.stopless (m : Image) (u : Nat) : Bool := m.edges.all (fun e => e.src != u || discardsStops (m.unit e.dst) e.port)

/-- Whether every gated boundary input from a source or a FIFO-mode load gives one element of each copy per iteration, those apart
whose stops are discarded. Then the stops that the region's dimensions yield (R82, R83) follow the elements of each completing
iteration on those inputs, and so reach every boundary output behind that iteration's data. -/
def State.paced (s : State) (x : RCtx) : Bool :=
  (s.supplierUnits x).all (fun u => x.image.byIteration u || x.image.stopless u)

/-- The image that a block of a strand has run from: a context's that holds it, or the graph's own (R251, R480). -/
def State.keyBlock (s : State) (t : Fin 192) (k : Fin 8) (key : Nat) : Option RCtx :=
  let st := s.strand t k
  match (List.finRange 16).find? (fun c => let y := (s.tile t).ctxs[c]; y.image.isSome && st.keyOf c y == key) with
  | some c => s.ctxBlock t k c
  | none =>
    match s.runOfTile t.val with
    | some r => (r.graph.imageAt st.ordinal key).map (fun i => ⟨r.gid, t, k, 0, key, i⟩)
    | none => none

/-- Where a strand ordinal of a graph runs. -/
def State.strandPlace (s : State) (r : Run) (ordinal : Nat) : Option (Fin 192 × Fin 8) :=
  (r.tiles.flatMap (fun x => (List.finRange 8).map (fun k => (tileOf x.2, k)))).find? (fun p =>
    (s.strand p.1 p.2).used && (s.strand p.1 p.2).ordinal == ordinal)

/-- The compute tiles and strands of a graph's load that are in use. -/
def State.strandsOf (s : State) (r : Run) : List (Fin 192 × Fin 8) :=
  (r.tiles.flatMap (fun x => (List.finRange 8).map (fun k => (tileOf x.2, k)))).filter (fun p => (s.strand p.1 p.2).used)

/-! ### Exit tables (R88 to R92, R480) -/

/-- A descriptor of an exit table. -/
structure ExitDesc where
  base : Nat
  capacity : Nat
  head : Nat
  tail : Nat
  skipped : Nat
  deriving DecidableEq, Repr

/-- Entries that wait. -/
def ExitDesc.waiting (d : ExitDesc) : Nat := (d.tail + 2 ^ 32 - d.head) % 2 ^ 32

/-- The scratch-window address of a block's descriptor. -/
def descAddr (table b : Nat) : DWord := BitVec.ofNat 64 (table + 32 * b)

/-- A block's descriptor; none where it is malformed or outside the window (R88, log entry 21). -/
def State.exitDesc (s : State) (t : Fin 192) (table b : Nat) : Option ExitDesc :=
  match s.scratchPlace t.val (descAddr table b) 32 with
  | none => none
  | some (m, a) =>
    let v := leNat (s.padBytes m a 32)
    let cap := bitsOf v 63 32; let base := bitsOf v 31 0
    if bitsOf v 255 160 ≠ 0 || base % 4 ≠ 0 || cap = 0 || 2 ^ Nat.log2 cap ≠ cap || 2 ^ 24 < cap then none
    else some ⟨base, cap, bitsOf v 95 64, bitsOf v 127 96, bitsOf v 159 128⟩

/-- A word of a descriptor written: 2 head, 3 tail, 4 skipped. -/
def State.setDesc (s : State) (t : Fin 192) (table b word v : Nat) : State :=
  match s.scratchPlace t.val (descAddr table b) 32 with
  | none => s
  | some (m, a) => s.padWrite m (a + 4 * word) (leBytes 4 v)

/-- Where entry n of a queue lies: base is an offset in the window that the table lies in. -/
def State.queuePlace (s : State) (t : Fin 192) (table : Nat) (d : ExitDesc) (n : Nat) : Option (Nat × Nat) :=
  s.scratchPlace t.val (BitVec.ofNat 64 (table / 2 ^ 21 * 2 ^ 21 + d.base + 4 * (n % d.capacity))) 4

/-- The block that an exit of the active block leads to (R89, R480). DESIGN CHOICE (log entry 84): an image that software has rewritten in a
context may use an exit for which the block table holds 0xFF; it leads to block 0. -/
def Strand.exitDest (st : Strand) (key e : Nat) : Nat :=
  if key < 64 then
    let d := ((st.blockTable.getD key []).getD e 0xFF#8).toNat
    if d = 0xFF then 0 else d
  else 0

/-- Whether an exit's queue has a free entry (R87). -/
def State.exitRoom (s : State) (x : RCtx) (e : Nat) : Bool :=
  let st := s.strand x.t x.k
  match s.exitDesc x.t st.exitTable (st.exitDest x.key e) with
  | some d => decide (d.waiting < d.capacity)
  | none => true

/-- A payload appended (R87, R318); u's count of appends serves an abort. -/
def State.exitAppend (s : State) (x : RCtx) (u e : Nat) (v : Word) : State :=
  let st := s.strand x.t x.k
  let b := st.exitDest x.key e
  match s.exitDesc x.t st.exitTable b with
  | none => s
  | some d =>
    let s1 := match s.queuePlace x.t st.exitTable d d.tail with
      | some (m, a) => s.padWrite m a (leBytes 4 v.toNat)
      | none => s
    let s2 := s1.setDesc x.t st.exitTable b 3 ((d.tail + 1) % 2 ^ 32)
    let s3 := s2.modUnit x u (fun y => { y with core := { y.core with count := y.core.count + 1 } })
    s3.modPhase x (fun p => { p with exits := p.exits ||| BitVec.ofNat 8 (2 ^ e) })

/-- The choice of R91 among the waiting blocks of a strand. -/
def pickBlock (ds : List (Nat × ExitDesc)) : Option (Nat × ExitDesc) :=
  let waiting := ds.filter (fun x => 0 < x.2.waiting)
  if waiting.any (fun x => 1024 ≤ x.2.skipped) then maxBy (fun x => x.2.skipped) waiting
  else maxBy (fun x => x.2.waiting) waiting

/-! ### Streams (R107, R317) -/

/-- A stream of a graph. -/
def Run.stream (r : Run) (n : Nat) : Option Stream := r.streams.find? (fun x => x.number == n)

/-- The state with a stream changed. -/
def State.modStream (s : State) (g : Word) (n : Nat) (f : Stream → Stream) : State :=
  s.modRun g (fun r => { r with streams := r.streams.map (fun x => if x.number == n then f x else x) })

/-- Whether a stream joins two fabric loads (R107). -/
def Run.crosses (r : Run) (x : Stream) : Bool :=
  match r.graph.strands[x.sink]?, r.graph.strands[x.source]? with
  | some a, some b => a.load != b.load
  | _, _ => false

/-- The source unit of a block for a stream. -/
def Image.streamSource (i : Image) (n : Nat) : Option Nat :=
  (List.range i.count).find? (fun u => uOp (i.unit u) == 0x88 && uImm (i.unit u) % 4 == 1 && bitsOf (uImm (i.unit u)) 9 2 == n)

/-- What stands in a source's buffer and in the supply before it, which are one elastic edge, once tokens have entered the supply (R418):
the new contents of both. -/
def packSupply (cthresh : Nat) (reply items : List Item) : List Item × List Item :=
  let all := packQueue cthresh (reply ++ items)
  (all.take reply.length, all.drop reply.length)

/-- The tokens that a source's elastic edge holds: its physical depth, and at least its declared slots (R74, R198). -/
def sourceDepth (i : Image) (u : Nat) : Nat :=
  max (bwDepth (i.bind u)) (max 1 (consSlots (uCons (i.unit u) 0)))

/-- Tokens that the FIFO of a stream between two loads holds while the later load is still to be placed: what an AG word can give
one (R107, R115, log entry 68). -/
def crossDepth : Nat := 2 ^ 19

/-- The slots of a stream and those that its tokens take. A stream between loads fills its FIFO and then stalls its producer while its
destination is still to be placed, and discards once that has exited (R107). -/
def State.streamSpace (s : State) (r : Run) (n : Nat) : Nat × Nat :=
  match r.stream n with
  | none => (0, 0)
  | some x =>
    if x.exited then (2 ^ 32, 0)
    else if r.crosses x then (max crossDepth x.slots, itemWords x.items)
    else
      match (s.strandPlace r x.source).bind (fun p => s.rctx p.1 p.2) with
      | none => (max 1 x.slots, itemWords x.items)
      | some c =>
        match c.image.streamSource n with
        | none => (max 1 x.slots, itemWords x.items)
        | some u => (max x.slots (sourceDepth c.image u), slotsTaken ((s.unitAt c u).reply ++ x.items))

/-- Free slots of a stream, in tokens, for one transfer, which an empty edge always holds (R74). -/
def State.streamRoom (s : State) (r : Run) (n transfer : Nat) : Nat :=
  match r.stream n with
  | none => 0
  | some _ => max (s.streamSpace r n).1 transfer - (s.streamSpace r n).2

/-- Whether a stream holds no token. -/
def State.streamEmpty (s : State) (r : Run) (n : Nat) : Bool := (s.streamSpace r n).2 == 0

/-- A token written to a stream (R107, R317): a stream whose destination has exited discards and counts it. -/
def State.streamPut (s : State) (x : RCtx) (n : Nat) (i : Item) : State :=
  match (s.run x.gid).bind (fun r => r.stream n) with
  | none => s
  | some y =>
    if y.exited then
      let s1 := s.modStream x.gid n (fun z => { z with
        discarded := z.discarded + i.words.length, ended := z.ended || (i.isMarker && tagSub i.tag == 2) })
      if i.isMarker && tagSub i.tag == 0 then
        (s1.modStrand x.t x.k (fun st => { st with sinkClosed := true })).modRun x.gid (fun r => { r with flags := r.flags ||| flagDiscard })
      else s1
    else
      let s1 := s.modStream x.gid n (fun z => { z with
        items := z.items ++ [{ i with due := 0, packs := [] }]
        wrote := if i.isMarker && tagSub i.tag == 0 then i.word.toNat + 1 else z.wrote
        ended := z.ended || (i.isMarker && tagSub i.tag == 2) })
      match (s1.run x.gid).bind (fun r => (s1.strandPlace r y.source).bind (fun p => s1.rctx p.1 p.2)) with
      | none => s1
      | some c =>
        match c.image.streamSource n with
        | none => s1
        | some u =>
          let thresh := bwThresh (c.image.bind u)
          if thresh = 0 then s1
          else
            let (reply, items) := packSupply thresh (s1.unitAt c u).reply (y.items ++ [{ i with due := 0, packs := [] }])
            (s1.modUnit c u (fun v => { v with reply := reply })).modStream x.gid n (fun z => { z with items := items })

/-! ### Units of a block as a phase begins -/

/-- A unit of a block that the strand has not run before (R94, R95, R314, R437). -/
def freshUnit (r : Run) (ordinal : Nat) (x : RCtx) (round u : Nat) : UnitSt :=
  let w := x.image.unit u
  let ports := x.image.connected u
  -- on an edge of joined bundles the tokens of consecutive entries form them (R68, R437)
  let toks (p : Nat) : List Item :=
    let size := ((x.image.edges.find? (fun e => e.dst == u && e.port == p)).bind (x.image.edgeWords r.graph.streamSizes)).getD 1
    (chunks size ((r.graph.inits.filter (fun t =>
      t.strand == ordinal && t.block == x.key && t.unit == u && t.port == p)).map (fun t => t.payload))).map (fun ws => { words := ws, tag := 0#8 })
  { ports := ([0, 1, 2, 3] : List Nat).map toks
    nextRound := ([0, 1, 2, 3] : List Nat).map (fun p =>
      if ports.contains p || (p == 0 && (ports.isEmpty || uOp w == 0x8B || uOp w == 0x8C || (uOp w == 0xA0 && !memGlobal w))) then some round
      else none)
    core := { copies := List.replicate (uRep w) {}, armIndex := [none, none, none, none], count := if uOp w == 0x87 then r.first else 0 } }

/-- The round that a strand's edges stand in: the latest that any of its units expects, or the load's first. -/
def Strand.roundNow (st : Strand) (first : Nat) : Nat :=
  (st.units.flatMap (fun x => x.2.flatMap (fun u => u.nextRound.filterMap id))).foldl max first

/-- A unit as a new phase of its block begins. A round that has begun since the block last ran is a new one for it: its copies take
their seeds again and its flags are clear (R39, R56, R282). A global port pops a base at its first firing (R325). -/
def UnitSt.rephase (u : UnitSt) (w : DWord) (round : Nat) : UnitSt :=
  let supplier := uOp w == 0x88 || uOp w == 0xA0
  let global := uOp w == 0xA6 || ((uOp w == 0xA0 || uOp w == 0xA1) && memGlobal w)
  let core := if supplier then { u.core with count := 0 } else u.core
  let core := if global then { core with refresh := true } else core
  let late := decide (u.round < round)
  let v : UnitSt := { u with
    fired := 0, asked := 0, reconf := false, core := core, calm := true
    inRound := if late then 0 else u.inRound
    seq := if late then 0 else u.seq
    nextRound := u.nextRound.map (fun n => n.map (fun m => max m round)) }
  if v.kept.any (fun x => x.1 == round) then v else v.keep round

/-- A phase of the active block begins (R254, R255): the arguments become the strand's. -/
def State.beginPhase (s : State) (t : Fin 192) (k : Fin 8) (f : Fire) : State :=
  match s.rctx t k with
  | none => s
  | some x =>
    match s.run x.gid with
    | none => s
    | some r =>
      let st := s.strand t k
      let n := st.roundNow r.first
      let us := match st.units.find? (fun y => y.1 == x.key) with
        | some y => y.2
        | none => (List.range x.image.count).map (freshUnit r st.ordinal x n)
      let us1 := (us.zip (List.range us.length)).map (fun y => y.1.rephase (x.image.unit y.2) n)
      let flags := us.foldl (fun (acc : Byte) y => if y.round < n then acc ||| y.flags else acc) 0#8
      let behind := (minBy id ((us.filter (fun y => y.round < n && decide (y.flags ≠ 0#8))).map UnitSt.round)).getD n
      let s := if flags = 0#8 then s else s.modRun x.gid (fun y => y.modRound behind (fun z => { z with flags := z.flags ||| flags }))
      let head := match f.pick with
        | some (b, _) => (match s.exitDesc t st.exitTable b with
          | some d => d.head
          | none => 0)
        | none => 0
      let zeros := f.trips.map (fun _ => 0)
      let old := match st.phase with
        | some p => if p.key = x.key then p.puncts else []
        | none => []
      let gone := if old.isEmpty then 0 else (minBy id ((s.inputless x).map (fun u => (us.getD u {}).puncts))).getD old.length
      let kept := old.drop gone
      let us2 := us1.map (fun u => { u with
        puncts := if old.isEmpty then 0 else u.puncts - gone, stops := kept.countP (fun p => p.item.isStop) })
      let ph : Phase :=
        { key := x.key, trips := f.trips, index := zeros, current := zeros, segs := [], issued := 0, exhausted := false, slot := 0, advances := 0
          marks := [⟨n, zeros, zeros, 0, false, old.length - gone, 0⟩], args := f.args, pick := f.pick, pickHead := head, pickRead := 0
          pickStop := false, puncts := kept.map (fun p => { p with after := 0 }), flush := true, blocked := false, eog := false, exits := 0#8, ended := false }
      s.modStrand t k (fun y => { (y.setBlock x.key us2) with state := .run, args := f.args, phase := some ph })

/-- The trip counts of a block's header, register counts read from the executing sequencer; the dimension of the first
register above 0x00FF_FFFF otherwise (R81, R254). -/
def readTrips (i : Image) (q : Seq) : List Nat ⊕ Nat :=
  let vals := (List.range i.dims).map (fun j =>
    if dimIsReg (i.dim j) then (q.rd (BitVec.ofNat 5 (i.dim j))).toNat else i.dim j % 2 ^ 24)
  match (List.range i.dims).find? (fun j => 0x00FF_FFFF < vals.getD j 0) with
  | some j => .inr j
  | none => .inl vals

/-! ### Leaving a block -/

/-- Tokens that the sources of a block hold, unread, go back to where the next block's sources take them from: streams,
injection ports and FIFOs (R68 to R76: no edge loses a token). -/
def State.returnTokens (s : State) (x : RCtx) : State :=
  (List.range x.image.count).foldl (fun s u =>
    let w := x.image.unit u
    let y := s.unitAt x u
    if y.reply.isEmpty then s
    else if uOp w = 0x88 then
      let kind := uImm w % 4
      let s1 := if kind = 1 then
          s.modStream x.gid (bitsOf (uImm w) 9 2) (fun z => { z with items := y.reply ++ z.items })
        else if kind = 0 then
          s.modRun x.gid (fun r => { r with ports := r.ports.map (fun p =>
            if p.tile == x.t.val && p.strand == x.k.val && p.unit == u then { p with items := y.reply ++ p.items } else p) })
        else s
      s1.modUnit x u (fun y => { y with reply := [] })
    else
      match (s.menv x u).place s with
      | some p =>
        if agMode p.word = 1 then
          (s.modRun x.gid (fun r => { r with fifos := r.fifos.map (fun f => if isFifoOf p f then { f with items := y.reply.map (fun i => { i with packs := [] }) ++ f.items } else f) })).modUnit
            x u (fun y => { y with reply := [] })
        else s
      | none => s) s

/-- A strand made active in a context, its old active context becoming the unarmed shadow (R253, R257). -/
def State.switchTo (s : State) (t : Fin 192) (k : Fin 8) (c : Fin 16) : State :=
  let s1 := match s.rctx t k with
    | some x => s.returnTokens x
    | none => s
  s1.modStrand t k (fun st => { st with
    active := some c
    shadow := match st.active with
      | some a => .unarmed a
      | none => .none })

end Sys2Proof.Machine
end

