-- ==== Sys2Proof/Machine/Rounds.lean ====
section
/-! DEFINITION. Sys2Proof/Machine/Rounds.lean: timestamps (R140, R141), the records of check and vote units (R340, R372,
R373), aborts and rollbacks (R155 to R157, R264, R375 to R379), commit and overflow (R144 to R154), and the launches
that a commit appends (R268). -/

namespace Sys2Proof.Machine

/-! ### Timestamps -/

/-- Round n's marker is given a timestamp (R140); one that does not increase, or differs from one already given, freezes
the load (R141). -/
def State.noteTimestamp (s : State) (g : Word) (n : Nat) (ts : Word) : State :=
  match s.run g with
  | none => s
  | some r =>
    match (r.round n).timestamp with
    | some t => if t = ts then s else s.timestampFault g n
    | none =>
      let s1 := s.modRun g (fun x => x.modRound n (fun y => { y with timestamp := some ts }))
      let prev := if n = 0 then none else (r.round (n - 1)).timestamp
      match prev with
      | some p => if ts.toNat ≤ p.toNat then s1.timestampFault g n else s1
      | none => s1

/-- A marker that a unit generates takes tsbase + n (R140). -/
def State.noteGenerated (s : State) (g : Word) (n : Nat) : State :=
  match s.run g with
  | some r => s.noteTimestamp g n (r.launch.tsbase + BitVec.ofNat 32 n)
  | none => s

/-! ### Check and vote units (R340, R372, R373) -/

/-- The identifier of the copy of a side of a check or vote unit at a position. -/
def RCtx.sideId (x : RCtx) (u side position : Nat) : Word :=
  match x.image.edges.find? (fun e => e.dst == u && e.port == side) with
  | some e => x.copyId e.src position
  | none => noUnit

/-- A mismatch or a vote without a majority at a check or vote unit: logged with its comparison point (R386), the copies of
every side at each differing position eclipsed, the graph killed (R372). -/
def State.checkKill (s : State) (x : RCtx) (u kind sides point : Nat) (positions : List Nat) : State :=
  let ids := positions.flatMap (fun p => (List.range sides).map (fun k => x.sideId u k p))
  s.killLogged x.gid 2
    { kind := kind, action := 5, unit := ids.getD 0 noUnit, round := BitVec.ofNat 32 (s.unitAt x u).round
      syndrome := (ids.getD 1 noUnit).toNat + point * 2 ^ 32 } ids

/-- A corrected minority (R373): a second one of the same unit within 10^9 cycles schedules its eclipse. -/
def State.checkMinority (s : State) (x : RCtx) (u side point position : Nat) : State :=
  match s.run x.gid with
  | none => s
  | some r =>
    let id := x.sideId u side position
    let now := s.tileCycles x.t.val
    let second := match s.minorities.find? (fun y => y.1 = id) with
      | some y => decide (now - y.2 < 10 ^ 9)
      | none => false
    let n := (s.unitAt x u).round
    let (_, s1) := s.logError (partOf r.part)
      { kind := 3, action := 1, graph := r.gid, unit := id, ctx := r.ctx, round := BitVec.ofNat 32 n
        timestamp := r.timestamp n, eclipse := if s.eclipsed id then 3 else if second then 2 else 0
        syndrome := id.toNat + point * 2 ^ 32 + (if second then 2 else 1) * 2 ^ 40 }
    let s2 := { s1 with minorities := (id, now) :: s1.minorities.filter (fun y => decide (y.1 ≠ id)) }
    if second then s2.modRun r.gid (fun y => { y with eclipseAtEnd := id :: y.eclipseAtEnd }) else s2

/-- The sticky flags of the sides compared, copy by copy, at an end-of-round marker (R281, R282, R340): those that agree go to the
round's flag byte. A side that has reported none has those of side a. -/
def State.checkFlags (s : State) (x : RCtx) (u n : Nat) : State :=
  match s.run x.gid with
  | none => s
  | some r =>
    let ordinal := (s.strand x.t x.k).ordinal
    let copies := List.range (uRep (x.image.unit u))
    let told (v : Nat) : Option (List Byte) := ((r.round n).unitFlags.find? (fun y => y.1 == ordinal && y.2.1 == v)).map (fun y =>
      copies.map (fun c => y.2.2.getD c 0#8))
    let sides := x.image.sides u
    let first := ((sides.head?).bind told).getD (copies.map (fun _ => 0#8))
    let fs := sides.map (fun v => (told v).getD first)
    let differ (a b : List Byte) : List Nat := copies.filter (fun c => a.getD c 0#8 != b.getD c 0#8)
    let s1 := s.modRun x.gid (fun y => y.modRound n (fun z => { z with
      unitFlags := z.unitFlags.filter (fun w => !(w.1 == ordinal && sides.contains w.2.1)) }))
    let report (s : State) (f : List Byte) : State := s.modRun x.gid (fun y => y.modRound n (fun z => { z with
      flags := f.foldl (fun acc b => acc ||| b) z.flags }))
    let odd (s : State) (side : Nat) (a b : List Byte) : State := (differ a b).foldl (fun s c => s.checkMinority x u side 2 c) s
    match fs with
    | [a, b] => if a = b then report s1 a else s1.checkKill x u 2 2 2 (differ a b)
    | [a, b, c] =>
      if a = b then odd (report s1 a) 2 a c
      else if a = c then odd (report s1 a) 1 a b
      else if b = c then odd (report s1 b) 0 b a
      else s1.checkKill x u 4 3 2 (sortBy id (dedup (differ a b ++ differ a c)))
    | _ => s1

/-! ### Aborts (R155) -/

/-- What is left of an edge whose next marker carries k when every token of round n and later is discarded. -/
def cutItems (n : Nat) : Nat → List Item → List Item
  | _, [] => []
  | k, i :: is =>
    if n ≤ k then []
    else if i.isMarker && tagSub i.tag == 0 then i :: cutItems n (i.word.toNat + 1) is
    else i :: cutItems n k is

/-- End-of-round markers among items. -/
def countMarkers (is : List Item) : Nat := (is.filter (fun i => i.isMarker && tagSub i.tag == 0)).length

/-- The round of the next item that leaves a unit's reply buffer: what its consumer has passed, and what waits there. -/
def replyRound (i : Image) (us : List UnitSt) (u : Nat) : Nat :=
  let c := uCons (i.unit u) 0
  let v := us.getD (consUnit c) {}
  match v.nextRound.getD (consPort c) none with
  | some k => k + countMarkers (v.ports.getD (consPort c) [])
  | none => 0

/-- A unit taken back to the start of round n. us are the block's units as they stood. -/
def abortUnit (i : Image) (us : List UnitSt) (n u : Nat) (st : UnitSt) : UnitSt :=
  let behind := st.round < n
  let core := if behind then st.core else
    match st.kept.find? (fun x => x.1 == n) with
    | some x => x.2
    | none => st.core
  { st with
    ports := (st.ports.zip st.nextRound).map (fun x => match x.2 with
      | some k => cutItems n k x.1
      | none => x.1)
    reply := cutItems n (replyRound i us u) st.reply
    requests := st.requests.filter (fun q => q.round < n)
    hold := if behind then st.hold else []
    out := if behind then st.out else []
    flags := if behind then st.flags else 0#8
    copyFlags := if behind then st.copyFlags else []
    core := core
    kept := st.kept.filter (fun x => x.1 ≤ n)
    nextRound := st.nextRound.map (fun k => k.map (fun m => min m n))
    inRound := if behind then st.inRound else 0
    seq := if behind then st.seq else 0
    withheld := if behind then st.withheld else none
    storeWait := if behind then st.storeWait else false
    eog := st.eog && behind }

/-- A phase taken back to the start of round n, where it has passed it (R155); an ended phase runs again. -/
def abortPhase (n : Nat) (p : Phase) : Phase :=
  match p.marks.find? (fun m => m.round == n) with
  | none => { p with ended := p.ended && p.marks.any (fun m => m.round < n) && !p.marks.any (fun m => n < m.round) }
  | some m =>
    { p with
      index := m.index, current := m.current, segs := p.segs.filter (fun y => y.1 ≤ m.issued), issued := m.issued, exhausted := m.exhausted
      puncts := p.puncts.take m.puncts, pickRead := m.pickRead, pickStop := false
      marks := p.marks.filter (fun y => y.round ≤ n), flush := true, eog := false, ended := false }

/-- The exit queues of a strand give back what its exit units appended from round n on (R318). -/
def State.abortExits (s : State) (x : RCtx) (n : Nat) : State :=
  (List.range x.image.count).foldl (fun s u =>
    let w := x.image.unit u
    let y := s.unitAt x u
    if uOp w = 0x8A && n ≤ y.round then
      let before := match y.kept.find? (fun z => z.1 == n) with
        | some z => z.2.count
        | none => y.core.count
      let st := s.strand x.t x.k
      let b := st.exitDest x.key (uImm w % 8)
      match s.exitDesc x.t st.exitTable b with
      | some d => s.setDesc x.t st.exitTable b 3 ((d.tail + 2 ^ 32 - (y.core.count - before)) % 2 ^ 32)
      | none => s
    else s) s

/-- A block of a strand that is not its active one, taken back to the start of round n (R40, R155, R318). -/
def State.abortBlock (s : State) (n : Nat) (p : Fin 192 × Fin 8) (key : Nat) : State :=
  match s.keyBlock p.1 p.2 key with
  | none => s
  | some x =>
    (s.abortExits x n).modStrand p.1 p.2 (fun st =>
      let us := st.block key
      st.setBlock key ((us.zip (List.range us.length)).map (fun y => abortUnit x.image us n y.2 y.1)))

/-- A strand taken back to the start of round n: every block that it has run, and the phase of the active one. -/
def State.abortStrand (s : State) (n : Nat) (p : Fin 192 × Fin 8) : State :=
  match s.rctx p.1 p.2 with
  | none => (s.strand p.1 p.2).units.foldl (fun s u => s.abortBlock n p u.1) s
  | some x =>
    let s0 := ((s.strand p.1 p.2).units.filter (fun u => u.1 != x.key)).foldl (fun s u => s.abortBlock n p u.1) s
    let s1 := s0.abortExits x n
    s1.modStrand p.1 p.2 (fun st =>
      let us := st.block x.key
      let us1 := (us.zip (List.range us.length)).map (fun y => abortUnit x.image us n y.2 y.1)
      let ph := st.phase.map (abortPhase n)
      let marked : Option PhaseMark := match st.phase with
        | some q => q.marks.find? (fun m => m.round == n)
        | none => none
      let us2 := match marked with
        | some m => (us1.zip (List.range us1.length)).map (fun y =>
            if (s.inputless x).contains y.2 then { y.1 with fired := m.issued, asked := m.issued, puncts := m.puncts }
            else { y.1 with stops := ((match st.phase with
              | some q => q.puncts.take m.puncts
              | none => []).countP (fun (z : Punct) => z.item.isStop)), given := 0, calm := true })
        | none => us1
      let state := match st.phase, ph with
        | some a, some b => if a.ended && !b.ended && decide (st.state = .done) then .run else st.state
        | _, _ => st.state
      let reopened := match st.phase, ph with
        | some a, some b => a.ended && !b.ended
        | _, _ => false
      { (st.setBlock x.key us2) with phase := ph, state := state, roundCount := min st.roundCount n, closed := st.closed && !reopened })

/-- A stream when every token of round n and later is discarded: a load that reads it from another takes again what it
had taken (R155). -/
def abortStream (r : Run) (n : Nat) (x : Stream) : Stream :=
  let sinkHere := match r.graph.strands[x.sink]? with
    | some e => e.load == r.load
    | none => true
  let sourceHere := match r.graph.strands[x.source]? with
    | some e => e.load == r.load
    | none => true
  if sinkHere then
    { x with items := cutItems n (x.wrote - countMarkers x.items) x.items, wrote := min x.wrote n, read := min x.read n, ended := false }
  else if sourceHere then
    { x with items := (x.sent.filter (fun y => n ≤ y.1)).map (fun y => y.2) ++ x.items
             sent := x.sent.filter (fun y => y.1 < n), read := min x.read n }
  else x

/-- An injection port when its rounds from n on are discarded (R264); whether it now refuses, for the first time or for a lower
round. A port that refuses stands at the round that it refuses from: an earlier abort has taken what followed. -/
def abortPort (n : Nat) (p : Port) : Port × Bool :=
  let (stands, begun) := match p.refuses with
    | some m => (m, false)
    | none => (p.round, decide (0 < p.seq) || p.closed)
  if p.used && (decide (n < stands) || (n == stands && begun)) then
    ({ p with items := cutItems n (stands - countMarkers p.items) p.items, closed := false, refuses := some n }, true)
  else (p, false)

/-- What stands between mxa and mxd, before round n: k is the round of the item at the head (R338). -/
def cutStaged (n : Nat) : Nat → List (Swap ⊕ Item) → List (Swap ⊕ Item)
  | _, [] => []
  | k, x :: xs =>
    if n ≤ k then []
    else
      match x with
      | .inl w => if n ≤ w.round then [] else x :: cutStaged n k xs
      | .inr i => x :: cutStaged n (if i.isMarker && tagSub i.tag == 0 then i.word.toNat + 1 else k) xs

/-- The round that the mxd unit of a tile stands in. -/
def State.drainRound (s : State) (t : Fin 192) : Nat :=
  ((List.finRange 8).findSome? (fun k => (s.rctx t k).bind (fun x =>
    (x.image.withOp 0xC1).head?.map (fun u => (s.unitAt x u).round)))).getD 0

/-- The matrix core at the start of round n (R338): every block of the aborted rounds is gone, no block is open and every bank that no
earlier block still drains from is free. What mxd, which stands in round at_, has not drained of the rounds before stays. -/
def abortCore (n at_ : Nat) (c : MatrixCore) : MatrixCore :=
  let block := match c.kept.find? (fun x => x.1 == n) with
    | some x => x.2
    | none => c.block
  let earlier (w : Swap) : Bool := decide (w.round < n)
  let staged := cutStaged n at_ c.staged
  let drain := match c.drain with
    | some d => if earlier d.swap then some d else none
    | none => none
  let holds (odd : Bool) : Bool := drain.any (fun d => d.swap.bank == odd) || staged.any (fun y => match y with
    | .inl w => w.bank == odd
    | .inr _ => false)
  { block := block, inits := block, kept := c.kept.filter (fun x => x.1 ≤ n), peErr := c.peErr, staged := staged, drain := drain
    ping := if holds false then c.ping else {}
    pong := if holds true then c.pong else {}
    swapPending := staged.any (fun y => y.isLeft)
    latchA := c.latchA, latchB := c.latchB }

/-- Round n and every later round in flight aborted (R155): buffered stores and signatures discarded, units and phases
restored, timestamps kept, since every injection of a round's marker carries the same one (R140), sources to begin again at sequence number 0; a sequencer that injected into one takes cause 0x09. -/
def State.abort (s : State) (g : Word) (n : Nat) : State :=
  match s.run g with
  | none => s
  | some r =>
    let s1 := (s.strandsOf r).foldl (fun s p => s.abortStrand n p) s
    let s2 := r.tiles.foldl (fun s x => s.modTile (tileOf x.2) (fun t =>
      if t.core.kept.any (fun y => n ≤ y.1) then { t with core := abortCore n (s.drainRound (tileOf x.2)) t.core } else t)) s1
    let ports := r.ports.map (abortPort n)
    let tiles := dedup ((ports.filter (fun x => x.2)).map (fun x => x.1.tile))
    let s3 := s2.modRun g (fun x => { x with
      stores := x.stores.filter (fun b => b.round < n)
      replays := x.replays.filter (fun y => y.origin.round < n)
      ports := ports.map (fun y => y.1)
      streams := x.streams.map (abortStream r n)
      fifos := x.fifos.map (fun f =>
        let items := cutItems n (x.oldest) f.items
        { f with items := items, written := f.written - (f.count - (items.map (fun i => i.words.length)).foldl (· + ·) 0) })
      sinks := []
      places := x.places.map (fun p => match p.kept.find? (fun y => y.1 == n) with
        | some y => { p with step := y.2.1, passes := y.2.2.1, perBuf := y.2.2.2, pending := [], spoilt := [], kept := p.kept.filter (fun z => z.1 ≤ n) }
        | none => p)
      rounds := x.rounds.map (fun y => if n ≤ y.number then { number := y.number, timestamp := y.timestamp, retried := y.retried } else y) })
    tiles.foldl (fun s t => s.holdTrap (tileOf t) 9 (BitVec.ofNat 64 n)) s3

/-! ### Rollback of a tagged token (R157, R378, R379) -/

/-- The first retry of a token's source and sequence number in a round: the unit that its record named, and the record (R379). -/
def RoundInfo.firstRetry (i : RoundInfo) (o : Origin) : Option (Word × Word) :=
  (i.retried.find? (fun x => x.1 == o.strand && x.2.1 == o.unit && x.2.2.1 == o.seq && decide (x.2.2.2.1 = o.uid))).map (fun x => x.2.2.2)

/-- Whether a source and sequence number have been retried in a round (R379). -/
def RoundInfo.wasRetried (i : RoundInfo) (o : Origin) : Bool := (i.firstRetry o).isSome

/-- The kill of R379: kind 0x06, with the kind and index of the first record; the unit that it named is eclipsed where the retry
has failed. -/
def State.escalate (s : State) (g : Word) (o : Origin) (eclipse : Bool) (retry : Nat) : State :=
  let (unit, first) := ((s.run g).bind (fun r => (r.round o.round).firstRetry o)).getD (o.uid, o.record)
  s.killLogged g 3
    { kind := 6, action := 4, unit := unit, round := BitVec.ofNat 32 o.round
      stream := if unit = noUnit then noUnit else BitVec.ofNat 32 (o.strand * 65536 + o.unit), seq := BitVec.ofNat 32 o.seq
      syndrome := 5 + first.toNat * 2 ^ 32, retry := retry } (if eclipse then [unit] else [])

/-- A tagged token whose rollback grows to its round (R157, R378): one abort; a second tag on the same source and sequence
number, an overflowed round of which a store has reached memory and an irrevocable round are kills. An error without a record has its own
written first. store is that of R386. -/
def State.rollBack (s : State) (g : Word) (o : Origin) (store : Nat) : State :=
  match s.run g with
  | none => s
  | some r =>
    if r.faulted then s
    else
      let info := r.round o.round
      -- an error of a commit-buffer entry names no source, so that a second one is no second tag on a token (R374, R379)
      let named := decide (o.uid ≠ noUnit)
      let retry := info.retriesOf o.strand o.unit o.seq
      let (rec_, s1) := if o.record = 0xFFFF_FFFF#32 then
          let (syndrome, s0) := s.drawSyndrome store
          s0.logError (partOf r.part)
            { kind := 5, action := 3, graph := g, unit := o.uid, ctx := r.ctx, round := BitVec.ofNat 32 o.round
              timestamp := r.timestamp o.round, stream := if o.uid = noUnit then noUnit else BitVec.ofNat 32 (o.strand * 65536 + o.unit)
              seq := BitVec.ofNat 32 o.seq, syndrome := syndrome, retry := if named then retry else 0 }
        else (o.record, s)
      if named && info.wasRetried o then s1.escalate g o true 1
      else if info.irrevocable || !info.wrote.isEmpty then s1.escalate g { o with record := rec_ } false 0
      else
        let s2 := if named then
            s1.modRun g (fun x => x.modRound o.round (fun y => { y with retried := y.retried ++ [(o.strand, o.unit, o.seq, o.uid, rec_)] }))
          else s1
        s2.abort g o.round

/-! ### Launches appended (R268, R343) -/

/-- The capacity of a queue. -/
def Queue.capacity (q : Queue) : Nat := 2 ^ field q.cfg 4 0

/-- Whether a queue is enabled. -/
def Queue.enabled (q : Queue) : Bool := bitOf q.cfg.toNat 6

/-- Whether a queue is device-owned. -/
def Queue.deviceOwned (q : Queue) : Bool := bitOf q.cfg.toNat 5

/-- The context of a queue. -/
def Queue.ctx (q : Queue) : Half := q.cfg.extractLsb' 8 16

/-- Records of committed launches appended to their queues in order, each while its queue has room; fuel is their
number. -/
def State.flushAppends (s : State) (p : Fin 16) : Nat → State
  | 0 => s
  | fuel + 1 =>
    let x := s.part p
    match x.appends.find? (fun a => decide ((x.queues[Fin.ofNat 64 a.1].tail - x.queues[Fin.ofNat 64 a.1].head).toNat < x.queues[Fin.ofNat 64 a.1].capacity)
        && (x.appends.find? (fun b => b.1 == a.1)) == some a) with
    | none => s
    | some a =>
      let q := x.queues[Fin.ofNat 64 a.1]
      let g : Agent := ⟨s.homeDie p, p, q.ctx, false⟩
      let bytes := leBytes 4 q.tail.toNat ++ a.2.drop 4
      let s1 := (s.virtPut g noUnit (q.base.toNat + 64 * (q.tail.toNat % q.capacity)) bytes).2
      let s2 := s1.modPart p (fun y => { y with appends := y.appends.erase a })
      State.flushAppends (s2.modQueue p (Fin.ofNat 64 a.1) (fun y => { y with tail := y.tail + 1#32 })) p fuel

/-! ### Commit (R146 to R149) -/

/-- A round's stores in the order in which they are written: by port, the highest last, and within a port as issued
(R144). -/
def Run.commitOrder (r : Run) (n : Nat) : List BufStore := sortBy (fun b => b.port.toNat) (r.stores.filter (fun b => b.round == n))

/-- The units of a block that a round's marker reaches: those with an input, or that fire per iteration, and that no
round unit makes the markers of (R97, R314). -/
def RCtx.countedUnits (x : RCtx) : List Nat :=
  let rounds := x.image.withOp 0x87
  (List.range x.image.count).filter (fun u =>
    let w := x.image.unit u
    uOp w != 0x88 && (rounds.contains u || !rounds.any (fun v => u != v && x.image.reaches v x.image.count [u])))

/-- Whether every unit of a strand's active block has passed round n's marker on every input, and whether there is any. A
strand that has not run yet has not passed it, where its block has an input for it to pass (R146, R166). -/
def State.strandPassed (s : State) (n : Nat) (p : Fin 192 × Fin 8) : Bool × Bool :=
  match (match s.rctx p.1 p.2 with
    | some x => some x
    | none => s.keyBlock p.1 p.2 0) with
  | none => (true, false)
  | some x =>
    let us := (s.strand p.1 p.2).block x.key
    if us.isEmpty then (x.countedUnits.all (fun u => (x.image.connected u).isEmpty), false)
    else
      let counted := x.countedUnits.filter (fun u => ((us.getD u {}).nextRound.any Option.isSome))
      (counted.all (fun u => (us.getD u {}).nextRound.all (fun k => match k with
        | some m => decide (n < m)
        | none => true)), !counted.isEmpty)

/-- Whether the oldest uncommitted round can commit (R146, R157, R166, R141). -/
def State.mayCommit (s : State) (r : Run) : Bool :=
  let n := r.oldest
  let info := r.round n
  let ps := (s.strandsOf r).map (s.strandPassed n)
  ps.all (fun x => x.1) && ps.any (fun x => x.2)
    && (!info.overflowed || info.writing) && info.tags.isEmpty
    && !(r.stores.any (fun b => b.round == n && b.origin.isSome))
    && (match r.freeze with
      | some .kill => false
      | some .timestamp => r.finishing
      | _ => true)

/-- The address and the agent of a round-completion word. -/
def State.roundAgent (s : State) (r : Run) : Agent := ⟨s.homeDie (partOf r.part), partOf r.part, r.ctx, false⟩

/-- Whether a commit's writes are withheld: a line of the round, or the round-completion word, lies in a page that moves or is
replicated (R138, R139). -/
def State.commitHeld (s : State) (r : Run) : Bool :=
  (r.stores.any (fun b => b.round == r.oldest && !b.scratch && s.heldPhys b.address b.bytes.length))
    || (r.launch.args != 0#64 && s.heldWrite (s.roundAgent r) r.launch.args.toNat)

/-- The collapses that a withheld commit starts. -/
def State.holdCommit (s : State) (r : Run) : State :=
  let s1 := (r.stores.filter (fun b => b.round == r.oldest && !b.scratch)).foldl (fun s b => s.holdPhys b.address b.bytes.length) s
  if r.launch.args = 0#64 then s1 else s1.holdWrite (s1.roundAgent r) r.launch.args.toNat

/-- The round-completion word written with a number (R147, R456); whether the write went through. -/
def State.writeRoundWord (s : State) (r : Run) (v : Nat) : Bool × State :=
  if r.launch.args = 0#64 then (true, s)
  else s.virtPut (s.roundAgent r) r.gid r.launch.args.toNat (leBytes 4 v)

/-- The oldest uncommitted round commits: its lines in one go, the completion word, its launches; later rounds whose
signatures its lines hit, those included that an overflowed round has written, are aborted (R146, R147, R154, R268). DESIGN CHOICE (log
entry 85): the commit is one step, so that no agent sees a part of it, where R147 lets one see any subset; and a round-completion word
whose write faults is dropped without a report. -/
def State.commit (s : State) (r : Run) : State :=
  let n := r.oldest
  let info := r.round n
  match info.bad with
  | some false =>
    let s0 := s.modRun r.gid (fun x => x.modRound n (fun y => { y with bad := none }))
    s0.rollBack r.gid ⟨0, 0, 0, 0, noUnit, 0, n, false, 0, 0, 0, 0xFFFF_FFFF#32, false, none, none, none, none⟩ 4
  | some true =>
    let (syndrome, s1) := s.drawSyndrome 4
    s1.killLogged r.gid 3 { kind := 5, action := 4, unit := noUnit, round := BitVec.ofNat 32 n, syndrome := syndrome } []
  | none =>
    let stores := r.commitOrder n
    let s1 := stores.foldl (fun s b => s.storeNow b) s
    let lines := dedup ((stores.map BufStore.signLine ++ info.wrote).map Config.signatureHash)
    let hit := minBy id (((r.rounds.filter (fun x => n < x.number)).filter (fun x =>
      x.reads.any (fun y => lines.contains (Config.signatureHash y.2)))).map (fun x => x.number))
    let s2 := (s1.writeRoundWord r (n + 1)).2
    let mine := r.launches.filter (fun l => l.round == n)
    let s3 := s2.modRun r.gid (fun x => { x with
      oldest := n + 1
      lastCommitted := some n
      stores := x.stores.filter (fun b => b.round != n)
      launches := x.launches.filter (fun l => l.round != n)
      streams := x.streams.map (fun y => { y with sent := y.sent.filter (fun z => n < z.1) })
      flags := if info.reported then x.flags ||| info.flags else x.flags })
    let p := partOf r.part
    let s4 := s3.modPart p (fun x => { x with appends := x.appends ++ mine.map (fun l => (l.queue, l.bytes)) })
    let s5 := s4.flushAppends p (s4.part p).appends.length
    match hit with
    | some m => s5.abort r.gid m
    | none => s5

/-- ROUND_COMMIT (R146): the oldest uncommitted round of a graph commits once it may; it waits for a page of its lines that moves. -/
def execRoundCommit (g : Word) (s : State) : Host.Outcome State Fault Refusal :=
  match s.run g with
  | none => .next s
  | some r => .next (if !s.mayCommit r then s else if s.commitHeld r then s.holdCommit r else s.commit r)

/-- ROUND_OVERFLOW (R150): an overflowed round that is the oldest writes its buffered lines, and writes every later store
of the round as it issues; a tagged datum waits for its replacement (R375). -/
def execRoundOverflow (g : Word) (m : Fin 192) (s : State) : Host.Outcome State Fault Refusal :=
  match s.run g with
  | none => .next s
  | some r =>
    let n := r.oldest
    let info := r.round n
    let atTile := info.overTile == some m.val || decide (4096 ≤ (r.linesOf n m.val).length) || decide (4096 ≤ s.linesUsed m.val)
    if info.overflowed && !info.writing && atTile && r.works then
      if s.commitHeld r then .next (s.holdCommit r) else
      let clean := (r.commitOrder n).filter (fun b => b.origin.isNone)
      let s1 := clean.foldl (fun s b => s.storeNow b) s
      .next (s1.modRun g (fun x => { x.modRound n (fun y => { y with writing := true, wrote := y.wrote ++ clean.map BufStore.signLine }) with
        stores := x.stores.filter (fun b => b.round != n || b.origin.isSome) }))
    else .next s

end Sys2Proof.Machine
end

