-- ==== Sys2Proof/Machine/Region.lean ====
section
/-! DEFINITION. Sys2Proof/Machine/Region.lean: one ac cycle of a region (R69 to R72, R81 to R84, R96 to R99, R478), phase
ends and switches (R255, R257), sources and the replies of memory units (R303, R315, R466). -/

namespace Sys2Proof.Machine

/-! ### What a firing asks of the machine -/

/-- A terminal sink's token (R316). -/
def State.sinkToken (s : State) (x : RCtx) (u : Nat) (i : Item) : State :=
  match s.run x.gid with
  | none => s
  | some r =>
    if i.isMarker then
      if tagSub i.tag = 0 then
        let n := i.word.toNat
        s.modRun x.gid (fun y => { y.modRound n (fun z => { z with reported := true }) with flags := y.flags ||| (y.round n).flags })
      else
        let key := ((s.strand x.t x.k).ordinal, x.key, u)
        s.modRun x.gid (fun y => { y with sinks := if y.sinks.contains key then y.sinks else y.sinks ++ [key] })
    else if i.isFault && r.faultSunk.isNone then
      let n := (s.unitAt x u).round
      let (idx, s1) := s.logError (partOf r.part)
        { kind := 10, action := 6, graph := r.gid, unit := x.copyId u 0, ctx := r.ctx, round := BitVec.ofNat 32 n
          timestamp := r.timestamp n, syndrome := i.word.toNat }
      s1.modRun x.gid (fun y => { y with faultSunk := some idx })
    else s

/-- One effect of a firing. -/
def State.applyEff (x : RCtx) (u : Nat) (s : State) (e : Eff) : State :=
  match e with
  | .broken => s.punctuationFault x.gid (s.unitAt x u).round
  | .exit n v => s.exitAppend x u n v
  | .exitError i => (match i.origin with
    | some o => s.rollBack x.gid o 3
    | none => s)
  | .terminal i => s.sinkToken x u i
  | .streamPut n i => s.streamPut x n i
  | .flags n f cs =>
    if x.image.checked u then
      s.modRun x.gid (fun r => r.modRound n (fun y => { y with unitFlags := y.unitFlags ++ [((s.strand x.t x.k).ordinal, u, cs)] }))
    else s.modRun x.gid (fun r => r.modRound n (fun y => { y with flags := y.flags ||| f }))
  | .generated n =>
    let s1 := s.modPhase x (fun p => { p with marks := p.marks.filter (fun m => m.round != n + 1) ++
      [⟨n + 1, p.index, p.current, p.issued, p.exhausted, p.puncts.length, p.pickRead⟩] })
    s1.noteGenerated x.gid n
  | .minority side point position => s.checkMinority x u side point position
  | .mismatch point positions => s.checkKill x u 2 2 point positions
  | .noMajority point positions => s.checkKill x u 4 3 point positions
  | .checkFlags n => s.checkFlags x u n

/-- Whether a unit writes a boundary output of its region. -/
def boundaryOutput (op : Nat) : Bool :=
  op == 0x89 || op == 0x8A || op == 0xA1 || op == 0xA2 || op == 0xA4 || op == 0xA8

/-- Whether a unit is where a tagged token's path ends (R376). -/
def endsPath (w : DWord) : Bool :=
  let op := uOp w
  (op == 0x89 && uImm w % 4 == 0) || op == 0xA1 || op == 0xA2 || op == 0xA4 || op == 0xA8

/-- The items that a firing has taken from its ports, in order. -/
def takenItems (before after : UnitSt) : List (Nat × Item) :=
  ([0, 1, 2, 3] : List Nat).flatMap (fun p =>
    let b := before.ports.getD p []; let a := after.ports.getD p []
    (b.take (b.length - a.length)).map (fun i => (p, i)))

/-- How many items a firing has taken from each port. -/
def takenCounts (before after : UnitSt) : List (Nat × Nat) :=
  ([0, 1, 2, 3] : List Nat).map (fun p => (p, (before.ports.getD p []).length - (after.ports.getD p []).length))

/-- Where the tagged items among some came from. -/
def tagOrigins (taken : List (Nat × Item)) : List Origin := dedup (taken.filterMap (fun y => if y.2.isError then y.2.origin else none))

/-- Each tagged token that its final consumer has taken waits for its replacement (R375, R377): the consumer keeps what it
took, and the round does not commit meanwhile. -/
def State.noteTagged (s : State) (x : RCtx) (u : Nat) (before : UnitSt) (target : Option (Nat × Nat)) : State :=
  let taken := takenItems before (s.unitAt x u)
  if !endsPath (x.image.unit u) then s
  else
    ((tagOrigins taken).filter (fun o => o.tokenLocal)).foldl (fun s o =>
      s.modRun x.gid (fun r => { r.modRound before.round (fun z => { z with tags := z.tags.erase o ++ [o] }) with
        replays := r.replays ++ [⟨o, x.t.val, x.k.val, x.key, u, taken, target, before.seq⟩] })) s

/-- Where a tile-store writer's next datum goes. -/
def State.storeTarget (s : State) (x : RCtx) (u : Nat) : Option (Nat × Nat) :=
  let m := s.menv x u
  match s.run x.gid, m.place s with
  | some r, some p =>
    if uOp (x.image.unit u) == 0xA1 && agTransform p.word == 0
    then some (p.mtile, s.windowByte x.gid p.mtile (r.placeWord p (s.unitAt x u).round)) else none
  | _, _ => none

/-- A firing's consequences: its effects, tags, placements kept at a round's start (R155), and the closed outputs of R96. A tagged
token that no single token repairs rolls its round back (R378). -/
def State.afterFiring (s : State) (x : RCtx) (u : Nat) (before : UnitSt) (target : Option (Nat × Nat)) (effs : List Eff) : State :=
  let closed := (s.strand x.t x.k).closed && boundaryOutput (uOp (x.image.unit u))
  let lost := (tagOrigins (takenItems before (s.unitAt x u))).find? (fun o => !o.tokenLocal)
  if closed then s.punctuationFault x.gid before.round
  else if let some o := lost then s.rollBack x.gid o 3
  else
    let s1 := s.noteTagged x u before target
    let now := (s1.unitAt x u).round
    let s2 := if before.round < now then
        (s1.menv x u).modPlace s1 (fun p => { p with kept := p.kept.filter (fun y => y.1 != now) ++ [(now, p.step, p.passes, p.perBuf)] })
      else s1
    let s3 := s2.modRun x.gid (fun r => { r with lastFire := s2.ns })
    effs.foldl (State.applyEff x u) s3

/-- What a memory unit's new replies look like where the world has upset it. -/
def UnitSt.spoilReply (old new_ : UnitSt) : UnitSt :=
  if new_.upset.isEmpty && new_.dropped.isEmpty then new_
  else
    let kept := new_.reply.take old.reply.length
    match new_.reply.drop old.reply.length with
    | i :: rest =>
      let copy := match new_.upset, new_.dropped with
        | x :: _, _ => x.1
        | [], c :: _ => c
        | [], [] => 0
      let (j, st) := new_.disturb copy i
      { st with reply := kept ++ j :: rest }
    | [] => new_

/-- The spare copies of a memory unit follow it: each takes what it takes and receives every reply that it receives (R305). -/
def State.mirror (s : State) (x : RCtx) (u : Nat) (old : UnitSt) (taken : List (Nat × Nat)) : State :=
  let now := s.unitAt x u
  (x.image.sparesOf u).foldl (fun s v => s.modUnit x v (fun y =>
    { now with
      ports := (y.popMany taken).ports, reply := y.reply ++ now.reply.drop old.reply.length, out := y.out
      requests := [], withheld := none, storeWait := false, upset := y.upset, dropped := y.dropped })) s

/-- What follows a memory unit's new replies: its spare copies receive them too, or, where it has none, an upset of the unit
shows in them (R305, log entry 6). -/
def State.replied (s : State) (x : RCtx) (u : Nat) (old : UnitSt) (taken : List (Nat × Nat)) : State :=
  if guardedMem (uOp (x.image.unit u)) && (x.image.memGuard u).isSome then s.mirror x u old taken
  else s.modUnit x u (UnitSt.spoilReply old)

/-- A memory unit's firing carried out. -/
def State.fireMem (s : State) (x : RCtx) (u : Nat) (st : UnitSt) : Option State :=
  match (s.menv x u).step s st with
  | none => none
  | some r => some (((r.s.modUnit x u (fun _ => r.step.st)).afterFiring x u st (s.storeTarget x u) r.step.effs).replied x u st
      (takenCounts st r.step.st))

/-- A request as a chk.mem or vote.mem unit compares it (R340): what it reads, where it writes and the data, each with whether it is
void or a fault token and so writes nothing, what it answers at once, the address that it waits for, and an upset of the side's copy, which shows in it (log entry 6). -/
structure Request where
  reads : List MemReq
  writes : List (Bool × Nat × Nat)
  data : List (List Word × Byte)
  answers : List (List Word × Byte)
  waits : Option (Nat × Bool)
  bend : Word
  deriving DecidableEq, Repr

/-- The ports of a memory unit whose tokens are data that it writes. -/
def dataPorts (w : DWord) : List Nat :=
  let op := uOp w
  if op = 0xA1 then (if memGlobal w then [2] else [0]) else if op = 0xA2 then [0, 1] else if op = 0xA4 || op = 0xA8 then [1] else []

/-- The request that a step of a memory unit makes. -/
def State.requestOf (s : State) (x : RCtx) (u : Nat) (st : UnitSt) (r : MStep) (bend : Word) : Request :=
  let stores (z : State) : List BufStore := (z.run x.gid).elim [] (fun y => y.stores)
  let new := (stores r.s).drop (stores s).length
  let same := r.step.st.withheld == st.withheld && r.step.st.storeWait == st.storeWait
  { reads := (r.step.st.requests.drop st.requests.length).map (fun q => { q with origin := none, error := false, seq := 0 })
    writes := new.map (fun b => (b.scratch, b.address, b.bytes.length))
    data := ((takenItems st r.step.st).filter (fun y => (dataPorts (x.image.unit u)).contains y.1)).map (fun y => (y.2.words, y.2.tag &&& 0xC4#8))
    answers := (r.step.st.reply.drop st.reply.length).map (fun i => (i.words, i.tag))
    waits := if same then none else r.step.st.withheld.map (fun w => (w.va, w.write))
    bend := bend }

/-- The requests that unit u makes of the next n elements that stand on its ports in st, a side's copies being side; none for a
copy left out of the mask (R78, R340). -/
def State.requestsOf (s : State) (x : RCtx) (u : Nat) (side st : UnitSt) : Nat → List (Option Request)
  | 0 => []
  | n + 1 =>
    match (s.menv x u).step s st with
    | none => []
    | some r =>
      let taken := takenItems st r.step.st
      let held := taken.isEmpty && r.step.st.fired == st.fired
      if taken.any (fun y => !y.2.isElem) then []
      else
        let copy := st.core.deal
        let bend := ((side.upset.find? (fun y => y.1 == copy)).map (fun y => y.2)).getD 0#32
        let q := if side.dropped.contains copy then none else some (s.requestOf x u st r bend)
        if held then [q] else q :: State.requestsOf r.s x u side r.step.st n

/-- A side whose copy has made its request: the upset of that copy is past. -/
def UnitSt.requested (st : UnitSt) (copy : Nat) : UnitSt :=
  { st with upset := st.upset.filter (fun y => y.1 != copy), dropped := st.dropped.filter (fun c => c != copy) }

/-- The places at which two sides differ in their masks of active copies. -/
def requestMasks (a b : List (Option Request)) : List Nat :=
  (((a.zip b).zip (List.range a.length)).filter (fun z => z.1.1.isNone != z.1.2.isNone)).map (fun z => z.2)

/-- The places at which two sides differ in their masks or in a request. -/
def requestsDiffer (a b : List (Option Request)) : List Nat :=
  (((a.zip b).zip (List.range a.length)).filter (fun z => z.1.1 != z.1.2)).map (fun z => z.2)

/-- What the requests of the sides of a chk.mem or vote.mem come to: whose request issues, and which side the minority is; or
the places at which the sides differ, where masks differ those of the masks, and whether they do (R340, R372). -/
def guardVote (sides : List (List (Option Request))) : (Nat × Option Nat) ⊕ (List Nat × Bool) :=
  let first (l : List (Option Request)) : Option (Option Request) := l.head?
  let differ (pairs : List (List (Option Request) × List (Option Request))) : List Nat × Bool :=
    let masks := sortBy id (dedup (pairs.flatMap (fun y => requestMasks y.1 y.2)))
    if masks.isEmpty then (sortBy id (dedup (pairs.flatMap (fun y => requestsDiffer y.1 y.2))), false) else (masks, true)
  match sides with
  | [a, b] => if (requestsDiffer a b).isEmpty then .inl (0, none) else .inr (differ [(a, b)])
  | [a, b, c] =>
    if (requestsDiffer a b).isEmpty then .inl (0, if first a = first c then none else some 2)
    else if (requestsDiffer a c).isEmpty then .inl (0, if first a = first b then none else some 1)
    else if (requestsDiffer b c).isEmpty then (if first a = first b then .inl (0, none) else .inl (1, some 0))
    else .inr (differ [(a, b), (a, c)])
  | _ => .inl (0, none)

/-- A memory unit whose class is dual or triple: it fires once every copy has its request, the requests of the group are compared as
far as all sides have them, and the first of one side issues (R305, R340). Each side's copy makes its requests from its own ports. -/
def State.fireGuarded (s : State) (x : RCtx) (u g : Nat) : Option State :=
  let st := s.unitAt x u
  let sides := x.image.sides g
  let copy := st.core.deal
  let seen (v : Nat) : UnitSt := { st with ports := (s.unitAt x v).ports }
  let lists := sides.map (fun v => s.requestsOf x u (s.unitAt x v) (seen v) (uRep (x.image.unit u) - copy))
  let n := (minBy id (lists.map List.length)).getD 0
  if n = 0 then
    if lists.all List.isEmpty && sides.all (fun v => ((s.menv x u).step s (seen v)).isSome) then s.fireMem x u st else none
  else
    let s0 := sides.foldl (fun s v => s.modUnit x v (fun y => y.requested copy)) s
    match guardVote (lists.map (fun l => l.take n)) with
    | .inr (ps, masks) => some (s0.checkKill x g (if sides.length = 2 then 2 else 4) sides.length (if masks then 3 else 1) (ps.map (fun i => copy + i)))
    | .inl (lead, odd) =>
      let st0 := s0.unitAt x u
      let from_ := seen (sides.getD lead u)
      let counts := match (s.menv x u).step s from_ with
        | some r => takenCounts from_ r.step.st
        | none => []
      let s1 := if lead = 0 then s0.fireMem x u st0
        else s0.fireMem x u { st0 with ports := (st0.ports.zip (List.range 4)).map (fun y =>
          let k := (counts.lookup y.2).getD 0
          (from_.ports.getD y.2 []).take k ++ y.1.drop k) }
      let active (side : Nat) : Bool := (((lists.getD side []).headD none).isSome)
      s1.map (fun s2 => match odd with
        | some side => s2.checkMinority x g side (if active side = active lead then 1 else 3) copy
        | none => s2)

/-! ### Edges -/

/-- The tokens that an edge may hold when it is elastic, or staged by the matrix core (R74, R332); none where the region's
own registers carry it. -/
def State.edgeCap (s : State) (x : RCtx) (e : Edge) (transfer : Nat) : Option Nat :=
  let op := uOp (x.image.unit e.dst)
  let inits := match s.run x.gid with
    | some r => (r.graph.inits.filter (fun t => t.strand == (s.strand x.t x.k).ordinal && t.block == x.key)).map (fun t => (t.unit, t.port))
    | none => []
  if op = 0xC0 then some ((if e.port < 2 then 128 else 16) + max e.slots transfer)
  else if op = 0xC2 || op = 0xC3 then some (64 + max e.slots transfer)
  else if uOp (x.image.unit e.src) = 0xC1 || x.image.elastic inits e then
    some (max (max (bwDepth (x.image.bind e.dst)) e.slots) transfer)
  else none

/-- Whether an item finds room on an edge. -/
def State.edgeRoom (s : State) (x : RCtx) (e : Edge) (i : Item) : Bool :=
  match s.edgeCap x e i.words.length with
  | none => true
  | some cap => slotsTaken ((s.unitAt x e.dst).ports.getD e.port []) + i.words.length ≤ cap

/-- Whether the first token that a firing has formed for each of a unit's edges finds room there: a unit fires only then (R75). The
state is the one after the firing, which frees what the unit has taken. -/
def State.outRoom (s : State) (x : RCtx) (u : Nat) : Bool :=
  let st := s.unitAt x u
  (x.image.edges.filter (fun e => e.src == u)).all (fun e => match st.out.find? (fun y => y.1 == e.which) with
    | some y => s.edgeRoom x e y.2
    | none => true)

/-- One firing of a unit; none when it cannot fire. A unit that a reconfiguration marker has passed fires no more (R99),
one that finds no room for what it would emit, or whose last outputs still wait, holds (R75), a marker out of place is a
punctuation fault (R98), and a spare copy of a memory unit fires with that unit. -/
def State.fireOnce (s : State) (x : RCtx) (u : Nat) : Option State :=
  let op := uOp (x.image.unit u)
  let st := s.unitAt x u
  if op = 0x88 || 0xC0 ≤ op && op ≤ 0xC3 || st.reconf || !st.out.isEmpty then none
  else if st.badMarkers (s.uenv x u).adv then some (s.punctuationFault x.gid st.round)
  else if 0xA0 ≤ op && op ≤ 0xA8 then
    if x.image.spare u then none
    else
      match (if guardedMem op then x.image.memGuard u else none) with
      | some g => s.fireGuarded x u g
      | none => s.fireMem x u st
  else
    match unitStep (s.uenv x u) st with
    | none => none
    | some r =>
      let s1 := s.modUnit x u (fun _ => r.st.spoiled st.core.deal)
      if s1.outRoom x u then some (s1.afterFiring x u st none r.effs) else none

/-- An item put at the tail of an edge, to be seen from an advance onwards; an elastic edge compresses (R418). -/
def State.putEdge (s : State) (x : RCtx) (e : Edge) (i : Item) (due : Nat) : State :=
  let thresh := if 0xC0 ≤ uOp (x.image.unit e.dst) && uOp (x.image.unit e.dst) ≤ 0xC3 || (s.edgeCap x e 1).isNone then 0 else bwThresh (x.image.bind e.dst)
  s.modUnit x e.dst (fun v => { v with ports := modifyAt v.ports e.port (fun q => packQueue thresh (q ++ [{ i with due := due, packs := [] }])) })

/-- What a unit has formed goes onto its edges, in order on each (R75, R283). -/
def State.flushUnit (s : State) (x : RCtx) (u adv : Nat) : State :=
  let st := s.unitAt x u
  if st.out.isEmpty then s
  else
    let es := x.image.edges.filter (fun e => e.src == u)
    let lat := opLatency (x.image.unit u)
    let go (acc : State × List Nat × List (Nat × Item)) (y : Nat × Item) : State × List Nat × List (Nat × Item) :=
      let (s, blocked, keep) := acc
      match es.find? (fun e => e.which == y.1) with
      | none => acc
      | some e =>
        if blocked.contains y.1 || !s.edgeRoom x e y.2 then (s, y.1 :: blocked, keep ++ [y])
        else (s.putEdge x e y.2 (adv + lat), blocked, keep)
    let (s1, _, keep) := st.out.foldl go (s, [], [])
    s1.modUnit x u (fun v => { v with out := keep })

/-- The tokens that a gated output writes with its next one: itself, and the stops and markers that have come behind it (R70). -/
def UnitSt.writes (st : UnitSt) (adv : Nat) : Nat :=
  match st.ports.getD 0 [] with
  | [] => 0
  | i :: is => i.words.length + (is.takeWhile (fun j => !j.isElem && decide (j.due ≤ adv))).length

/-- Whether a sink, an exit or a FIFO-mode store finds its destination full (R70, R87, R120): it has fewer free slots than the
tokens to be written, or than all of its slots. -/
def State.fullOutput (s : State) (x : RCtx) (u adv : Nat) : Bool :=
  let w := x.image.unit u
  let st := s.unitAt x u
  match st.head adv 0 with
  | none => false
  | some i =>
    if uOp w = 0x89 && uImm w % 4 = 1 then
      match s.run x.gid with
      | some r =>
        let n := bitsOf (uImm w) 9 2
        let room := s.streamRoom r n i.words.length
        decide (room < i.words.length) || (decide (room < st.writes adv) && !s.streamEmpty r n)
      | none => false
    else if uOp w = 0x8A then i.isData && !i.isFault && !s.exitRoom x (uImm w % 8)
    else if uOp w = 0xA1 && !memGlobal w then
      let m := s.menv x u
      match m.place s with
      | some p => decide (agMode p.word = 1) && !m.fifoRoom s p i.words.length
      | none => false
    else false

/-- Up to n firings of a unit in one cycle (R77); none where one of them finds its gated output full, which stalls the cycle
(R70). -/
def State.fireUnit (s : State) (x : RCtx) (u adv : Nat) : Nat → Option State
  | 0 => some s
  | n + 1 =>
    match s.fireOnce x u with
    | none => some s
    | some s1 =>
      if s.fullOutput x u adv then none
      else
        match s1.run x.gid with
        | some r => if !r.works then some s1 else State.fireUnit (s1.flushUnit x u adv) x u adv n
        | none => some s1

/-! ### Gated inputs -/

/-- The elements that one read of a gated input takes for its consumers (R77, R327). -/
def RCtx.readWidth (x : RCtx) (u : Nat) : Nat :=
  ((x.image.edges.filter (fun e => e.src == u)).map (fun e => portTakes (x.image.unit e.dst) e.port)).foldl max 1

/-- Whether the consumers of a gated input have room for its next item. -/
def State.readRoom (s : State) (x : RCtx) (u : Nat) (i : Item) : Bool :=
  (x.image.edges.filter (fun e => e.src == u)).all (fun e =>
    match s.edgeCap x e i.words.length with
    | some _ => s.edgeRoom x e i
    | none =>
      let q := (s.unitAt x e.dst).ports.getD e.port []
      q.isEmpty || decide (itemWords q + i.words.length ≤ max (max (bwDepth (x.image.bind e.dst)) e.slots) (portTakes (x.image.unit e.dst) e.port * i.words.length)))

/-- The elements that a supplier has given, the group that a stop or a marker ends counting as a whole one (R77, R78). -/
def roundedUp (width count : Nat) : Nat := ceilDiv count width * width

/-- What reading an item changes in the unit that supplies it; a marker counts on the source's side (R97, R155). -/
def UnitSt.gave (st : UnitSt) (width : Nat) (i : Item) : UnitSt :=
  let st1 := { st with reply := st.reply.drop 1, given := 0 }
  let ended := { st1 with core := { st1.core with count := roundedUp width st1.core.count } }
  if i.isMarker then
    let st2 := { ended with puncts := st1.puncts + 1, reconf := st1.reconf || tagSub i.tag == 1, eog := st1.eog || tagSub i.tag == 2, calm := true }
    if tagSub i.tag = 0 then { st2 with nextRound := st2.nextRound.set 0 (some (i.word.toNat + 1)) }.keep (i.word.toNat + 1) else st2
  else if i.isElem then { st1 with core := { st1.core with count := st1.core.count + 1 }, calm := false }
  else ended

/-- The head of a gated input moved to its consumers. -/
def State.readItem (s : State) (x : RCtx) (u adv : Nat) (i : Item) : State :=
  let s1 := (x.image.edges.filter (fun e => e.src == u)).foldl (fun s e => s.putEdge x e i adv) s
  let supplier := uOp (x.image.unit u) == 0x88 || (s.supplierUnits x).contains u
  s1.modUnit x u (fun st => if supplier then st.gave (x.readWidth u) i else { st with reply := st.reply.drop 1 })

/-- The next stop of the region's dimensions that is to follow what a supplier has given (R82, R83); none while it has not given that
yet, or where its region's inputs are not paced. -/
def State.stopDue (s : State) (x : RCtx) (u : Nat) : Option Item :=
  match (s.strand x.t x.k).phase with
  | none => none
  | some p =>
    let st := s.unitAt x u
    match (p.puncts.filter (fun q => q.item.isStop))[st.stops]? with
    | none => none
    | some q => if q.after * x.readWidth u ≤ st.core.count && s.paced x && x.image.byIteration u then some q.item else none

/-- The stops that are due put behind what a supplier has given, as they find room; fuel bounds them. -/
def State.giveStops (s : State) (x : RCtx) (u adv : Nat) : Nat → State
  | 0 => s
  | fuel + 1 =>
    match s.stopDue x u with
    | none => s
    | some i =>
      if !s.readRoom x u i then s
      else
        let s1 := (x.image.edges.filter (fun e => e.src == u)).foldl (fun s e => s.putEdge x e i adv) s
        State.giveStops (s1.modUnit x u (fun st => { st with stops := st.stops + 1, given := tagLevel i.tag })) x u adv fuel

/-- What becomes of a stop that a supplier itself has, where the region's inputs are paced: it is the stop that the region has just
given there; or it stands within the iterations issued, or behind them all, and passes; or it waits to be told (log entry 69). -/
inductive OwnStop where
  | same
  | pass
  | wait
  deriving DecidableEq, Repr

/-- What becomes of a supplier's own stop. -/
def State.ownStop (s : State) (x : RCtx) (u : Nat) (i : Item) : OwnStop :=
  let st := s.unitAt x u
  if !s.paced x || !x.image.byIteration u then .pass
  else if (s.stopDue x u).isSome then .wait
  else if tagLevel i.tag ≤ st.given then .same
  else
    match (s.strand x.t x.k).phase with
    | none => .pass
    | some p =>
      let past := match s.leadUnit x with
        | some l => l == u || st.puncts < (s.unitAt x l).puncts || (s.unitAt x l).eog || (s.unitAt x l).reconf
        | none => false
      if roundedUp (x.readWidth u) st.core.count < p.issued * x.readWidth u || p.exhausted || p.ended || past then .pass else .wait

/-- A supplier's own stop read: it goes on, or has gone on as the region's. -/
def State.readStop (s : State) (x : RCtx) (u adv : Nat) (i : Item) : State :=
  if s.ownStop x u i = .same then s.modUnit x u (fun st => { st with reply := st.reply.drop 1, given := 0 })
  else s.readItem x u adv i

/-- What a cycle reads of a gated input that does not lead: up to budget elements, with the stops and markers among
them; a tagged token that no single token repairs rolls its round back (R378). Fuel bounds the items. -/
def State.readGate (s : State) (x : RCtx) (u adv budget : Nat) : Nat → State
  | 0 => s
  | fuel + 1 =>
    let st := s.unitAt x u
    match st.reply with
    | [] => s
    | i :: _ =>
      let supplier := (s.supplierUnits x).contains u
      if supplier && st.reconf then s
      else if i.isElem && budget = 0 then s
      else if !s.readRoom x u i then s
      else if supplier && (s.stopDue x u).isSome then s
      else if supplier && i.isStop then
        if s.ownStop x u i = .wait then s else State.readGate (s.readStop x u adv i) x u adv budget fuel
      else
        match (if i.isError then i.origin else none) with
        | some o =>
          if o.tokenLocal then State.readGate ((s.readItem x u adv i).giveStops x u adv 4) x u adv (budget - 1) fuel else s.rollBack x.gid o 3
        | none => State.readGate ((s.readItem x u adv i).giveStops x u adv 4) x u adv (if i.isElem then budget - 1 else budget) fuel

/-- How many more elements a gated input may give: those of issued iterations (R70, R303). -/
def State.readBudget (s : State) (x : RCtx) (u : Nat) : Nat :=
  let width := x.readWidth u
  if (s.supplierUnits x).contains u then
    match (s.strand x.t x.k).phase with
    | some p => if p.ended then 0 else min width (p.issued * width - (s.unitAt x u).core.count)
    | none => 0
  else width

/-! ### What is left to do (R72) -/

/-- Whether a port may hold a token that no issued iteration takes any more: what a cycle of edges brings back for the next one
(R102), and a base that no access needs (R325). -/
def Image.laterPort (i : Image) (u p : Nat) : Bool :=
  let w := i.unit u
  (p == 0 && ((uOp w == 0xA0 || uOp w == 0xA1) && memGlobal w || uOp w == 0xA6))
    || i.edges.any (fun e => e.dst == u && e.port == p && i.reaches e.src i.count [u])

/-- Whether a unit has nothing left to do: no token in its replies or requests, waiting for room, or held at a memory access, and
none on its inputs, but for elements on some of them (later) that stand for a next iteration, another input being empty. -/
def UnitSt.drained (st : UnitSt) (op : Nat) (supplier : Bool) (later connected : List Nat) : Bool :=
  let port (p : Nat) : List Item := st.ports.getD p []
  (connected.all (fun p => (port p).isEmpty)
      || (connected.any (fun p => (port p).isEmpty) && connected.all (fun p => (port p).isEmpty || (later.contains p && (port p).all Item.isElem))))
    && st.out.isEmpty && st.requests.isEmpty && st.withheld.isNone && !st.storeWait
    && (supplier || st.reply.isEmpty) && !(op == 0x81 && 0 < st.core.count)

/-- Whether a unit of a block has nothing left to do. -/
def State.unitDrained (s : State) (x : RCtx) (u : Nat) : Bool :=
  (s.unitAt x u).drained (uOp (x.image.unit u)) ((s.supplierUnits x).contains u)
    ((x.image.connected u).filter (x.image.laterPort u)) (x.image.connected u)

/-- Whether every unit of a block has fired for everything that has been issued. -/
def State.drained (s : State) (x : RCtx) : Bool :=
  (List.range x.image.count).all (s.unitDrained x)
    && (!(x.image.units.any (fun w => uOp w == 0xC0)) ||
      (let c := (s.tile x.t).core
       !c.opened && c.staged.isEmpty && c.drain.isNone && c.filled == 0))

/-- Whether every unit without an input has fired for every iteration issued and emitted its punctuation, and the region's stops
have followed what its paced inputs have given. -/
def State.caughtUp (s : State) (x : RCtx) (p : Phase) : Bool :=
  (s.inputless x).all (fun u =>
    let v := s.unitAt x u
    v.fired == p.issued && v.puncts == p.puncts.length && v.out.isEmpty)
  && (!s.paced x || ((s.supplierUnits x).filter x.image.byIteration).all (fun u => (s.unitAt x u).eog || p.puncts.countP (fun q => q.item.isStop) ≤ (s.unitAt x u).stops))

/-! ### The gate (R70, R71) -/

/-- The ports of a unit that take one element per iteration. -/
def RCtx.pacedPorts (x : RCtx) (u : Nat) : List Nat := (x.image.connected u).filter (fun p => !freePort (x.image.unit u) p)

/-- Whether another unit of the strand's block writes the store or the line buffer that a load reads. -/
def State.ownWriter (s : State) (x : RCtx) (u : Nat) : Bool :=
  match s.run x.gid, (s.menv x u).place s with
  | some r, some p => (match (r.storeGroup p).1 with
    | some w => w.tile == x.t.val && w.strand == (s.strand x.t x.k).ordinal && w.block == x.key
    | none => false)
  | _, _ => false

/-- Whether a gated input holds no token though its read belongs to an issued iteration (R70): of a source or a FIFO-mode load once it
has begun to give elements; of a memory unit that has been asked for one; of a load without an input that has iterations to fire
for. A read whose consumer takes tokens by a rule of its own is none of an iteration. Between a marker and the next element, and
before the first, the region first drains what it holds (R97); an input that another operand waits for is late even then (log entry
70). -/
def State.lateInput (s0 s : State) (x : RCtx) (u adv : Nat) : Bool :=
  let st := s.unitAt x u
  let es := (x.image.edges.filter (fun e => e.src == u)).filter (fun e => !freePort (x.image.unit e.dst) e.port)
  let supplier := (s.supplierUnits x).contains u
  let joined := es.any (fun e =>
    let v := s.unitAt x e.dst
    let others := (x.pacedPorts e.dst).filter (fun p => p != e.port)
    (v.ports.getD e.port []).isEmpty && (!supplier || !others.isEmpty) && others.all (fun p => match v.head adv p with
        | some i => i.isElem
        | none => false))
  st.reply.isEmpty && !es.isEmpty &&
    (if supplier then joined || (!st.reconf && !st.eog && 0 < s.readBudget x u && (!st.calm || s.drained x))
     else if (s.inputless x).contains u then decide ((s0.unitAt x u).fired < (s0.unitAt x u).asked) && !s.ownWriter x u
     else !st.requests.isEmpty && joined)

/-! ### The issue stage (R71, R81 to R83, R96, R478) -/

/-- Counters after one more iteration, dimension by dimension; and how many dimensions completed, innermost first. -/
def carryDims : List (Nat × Nat) → List Nat × Nat
  | [] => ([], 0)
  | (t, i) :: r =>
    if t = 0 || i + 1 < t then ((i + 1) :: r.map (fun x => x.2), 0)
    else
      let (ix, n) := carryDims r
      (0 :: ix, n + 1)

/-- Punctuation of the region appended, behind the iterations issued. -/
def Phase.addPunct (p : Phase) (i : Item) : Phase := { p with puncts := p.puncts ++ [⟨p.issued, i⟩] }

/-- The closing punctuation of R96 once the iteration space is exhausted; the round it closes, if any. -/
def State.closePhase (s : State) (x : RCtx) : State :=
  let st := s.strand x.t x.k
  let c := st.roundCount
  if x.image.rclose && 0xFFFF_FFFF ≤ c then s.punctuationFault x.gid c
  else
    let s1 := if x.image.rclose then
        ((s.modPhase x (fun p => p.addPunct (markerItem 0 (BitVec.ofNat 32 c)))).modStrand x.t x.k (fun y => { y with roundCount := c + 1 })).noteGenerated x.gid c
      else s
    if x.image.gclose then
      s1.modPhase x (fun p => p.addPunct (markerItem 2 (BitVec.ofNat 32 (s1.strand x.t x.k).roundCount - 1#32)))
    else s1

/-- An iteration issued (R71, R82). The stop of the dimensions that it completes follows its elements: on the units without an input
port (R478), and on the paced inputs, from where it reaches every boundary output behind the iteration's data. -/
def State.issueOne (s : State) (x : RCtx) : State :=
  match (s.strand x.t x.k).phase with
  | none => s
  | some p =>
    let (ix, n) := carryDims (p.trips.zip p.index)
    let done := decide (n = p.trips.length)
    let p1 := { p with current := p.index, index := ix, issued := p.issued + 1, flush := false, exhausted := done }
    let p2 := if 0 < n then p1.addPunct (stopItem n) else p1
    let s1 := s.modPhase x (fun _ => p2)
    if done then s1.closePhase x else s1

/-- A stop of level l on the leading input of an open space (R83): the level that goes on, and the phase after it. -/
def Phase.stopAt (p : Phase) (l : Nat) : Nat × Phase :=
  let l := min l p.trips.length
  let (ix, n) := carryDims ((p.trips.zip p.index).drop l)
  let level := l + n
  let now := List.replicate l 0 ++ ix
  (level, { p.addPunct (stopItem level) with
    index := now, segs := p.segs ++ [(p.issued, now)], flush := false, exhausted := decide (level = p.trips.length) })

/-- Whether a marker at the head of the leading input has arrived on every other source and FIFO-mode load (R478). -/
def State.markerArrived (s : State) (x : RCtx) (lead : Nat) : Bool :=
  let n := (s.unitAt x lead).puncts
  (s.supplierUnits x).all (fun u =>
    u == lead || n < (s.unitAt x u).puncts || (s.unitAt x u).reply.any Item.isMarker)

/-- The issue stage of a cycle with c = 0; none when the region stalls for its leading input. An input that gives its elements by a
rule of its own does not pace a counted space: its marker comes after the iterations of the phase (log entry 70). After a marker the
region does not stall while it drains (R97), and an element for which no place is left on an edge inside the region is no issued
iteration's yet (R75, log entry 70). -/
def State.issueStage (s : State) (x : RCtx) (p : Phase) : Option State :=
  let idle := p.exhausted || p.blocked || p.ended
  let openSpace := p.trips.any (· == 0)
  match (if openSpace || !(s.inputless x).isEmpty then s.leadUnit x else none) with
  | none => some (if idle then s else s.issueOne x)
  | some lead =>
    let st := s.unitAt x lead
    let patient := idle || p.eog || (p.flush && !(s.drained x && s.caughtUp x p))
    let width := x.readWidth lead
    let free := !openSpace && !x.image.byIteration lead
    let onward := if patient then s else s.issueOne x
    if st.reconf || (s.stopDue x lead).isSome then some s
    else
      match st.reply with
      | [] => if patient || free then some onward else none
      | i :: _ =>
        if i.isMarker then
          if !s.markerArrived x lead || (free && !idle) then (if patient || free then some onward else none)
          else
            let s1 := s.readItem x lead p.advances i
            some (s1.modPhase x (fun q =>
              let q1 := { q.addPunct { i with due := 0 } with
                flush := true, blocked := q.blocked || tagSub i.tag == 1, eog := q.eog || tagSub i.tag == 2 }
              if tagSub i.tag = 0 then
                { q1 with marks := q1.marks.filter (fun m => m.round != i.word.toNat + 1) ++
                  [⟨i.word.toNat + 1, q.index, q.current, q.issued, q.exhausted, q1.puncts.length, q.pickRead⟩] }
              else q1))
        else if i.isStop then
          if openSpace && !idle then
            let (level, p1) := p.stopAt (tagLevel i.tag)
            let s1 := if s.paced x && x.image.byIteration lead then s.modUnit x lead (fun y => y.gave width i) else s.readItem x lead p.advances (stopItem level)
            let s2 := (s1.modPhase x (fun _ => p1)).giveStops x lead p.advances 4
            some (if p1.exhausted then s2.closePhase x else s2)
          else some (s.readStop x lead p.advances i)
        else if free then some (if s.readRoom x lead i && 0 < s.readBudget x lead then onward.readItem x lead p.advances i else onward)
        else if !s.readRoom x lead i then some s
        else if st.core.count < p.issued * width then
          if p.ended then some s else some ((s.readItem x lead p.advances i).giveStops x lead p.advances 4)
        else if idle then some s
        else some (((s.readItem x lead p.advances i).issueOne x).giveStops x lead p.advances 4)

/-- The tagged token at the head of the leading input that no single token repairs (R378). -/
def State.leadLost (s : State) (x : RCtx) : Option Origin :=
  match s.leadUnit x with
  | none => none
  | some u => (((s.unitAt x u).reply.head?).bind (fun i => if i.isError then i.origin else none)).bind (fun o => if o.tokenLocal then none else some o)

/-! ### Phase ends and switches (R72, R255, R257) -/

/-- Whether the sources of a block have given what its iterations read, and hold no punctuation that belongs before the
phase end. Where none gives its elements by the iteration, the units without inputs or what one of them has given count (log
entry 70). -/
def State.sourcesDone (s : State) (x : RCtx) (p : Phase) : Bool :=
  let sup := s.supplierUnits x
  let fixed := sup.filter x.image.byIteration
  sup.isEmpty ||
    ((sup.all (fun u => (s.unitAt x u).eog)
        || (!fixed.isEmpty && fixed.all (fun u => (s.unitAt x u).eog || p.issued * x.readWidth u ≤ (s.unitAt x u).core.count))
        || (fixed.isEmpty && (!(s.inputless x).isEmpty || sup.any (fun u => p.issued ≤ (s.unitAt x u).core.count))))
      && sup.all (fun u => match (s.unitAt x u).reply with
        | i :: _ => i.isElem || (i.isMarker && !s.markerArrived x u)
        | [] => true))

/-- The status of a phase (R90, R107, R246) and the head of the queue that it consumed (R92). -/
def State.reportPhase (s : State) (x : RCtx) (p : Phase) : State :=
  let st := s.strand x.t x.k
  let s1 := match p.pick with
    | some (b, n) => (match s.exitDesc x.t st.exitTable b with
      | some _ => s.setDesc x.t st.exitTable b 2 ((p.pickHead + n) % 2 ^ 32)
      | none => s)
    | none => s
  s1.modStrand x.t x.k (fun y => { y with
    status := (BitVec.ofBool y.sinkClosed ++ p.exits : BitVec 9)
    sinkClosed := false
    closed := y.closed || x.image.gclose
    phase := some { p with ended := true } })

/-- The kill of a context whose store meets an error at a switch or a fire (R374): no eclipse, the sequencer named. -/
def State.contextError (s : State) (t : Fin 192) : State :=
  match s.runOfTile t.val with
  | none => s
  | some r =>
    let (syndrome, s1) := s.drawSyndrome 5
    s1.killLogged r.gid 3
      { kind := 5, action := 4, unit := seqId t.val, round := BitVec.ofNat 32 (r.currentRound t.val), syndrome := syndrome } []

/-- Whether a strand's block meets an error in its context store. -/
def State.badContext (s : State) (t : Fin 192) (c : Fin 16) : Bool := ((s.tile t).ctxs[c]).bad

/-- The phase end of R255: a pending swap switches, a pending fire begins its phase; else the state becomes done. -/
def State.phaseEnd (s : State) (x : RCtx) (p : Phase) : State :=
  let s1 := s.reportPhase x p
  let st := s1.strand x.t x.k
  if st.partPending then s1.modStrand x.t x.k (fun y => { y with state := .done })
  else
    let bad := match st.swapPending, st.shadow with
      | true, .armed c => s1.badContext x.t c
      | _, _ => st.firePending.isSome && s1.badContext x.t x.c
    if bad then s1.contextError x.t
    else
      let s2 := match st.swapPending, st.shadow with
        | true, .armed c => (s1.switchTo x.t x.k c).modStrand x.t x.k (fun y => { y with swapPending := false, state := .ready })
        | _, _ => s1.modStrand x.t x.k (fun y => { y with state := .done })
      match (s2.strand x.t x.k).firePending with
      | some f => (s2.modStrand x.t x.k (fun y => { y with firePending := none })).beginPhase x.t x.k f
      | none => s2

/-- The end of a phase, once it has come (R72). -/
def State.endIfDone (s : State) (x : RCtx) : State :=
  match (s.strand x.t x.k).phase with
  | none => s
  | some p =>
    if !p.ended && p.exhausted && s.caughtUp x p && s.drained x && s.sourcesDone x p then s.phaseEnd x p else s

/-! ### One cycle (R69) -/

/-- Whether a load's units fire: not once the load is to freeze (R73, R141), nor before the pages of its buffers have moved
(R137). -/
def State.running (s : State) (g : Word) : Bool :=
  match s.run g with
  | some r => r.works && !s.pagesMove g
  | none => false

/-- Whether a unit is a load without an input port (R303). -/
def State.asks (s : State) (x : RCtx) (u : Nat) : Bool := uOp (x.image.unit u) == 0xA0 && (s.inputless x).contains u

/-- The slot of a load without an input port has come: it fires for the next issued iteration (R71); its access may take until later. -/
def State.askLoad (s : State) (x : RCtx) (u : Nat) : State :=
  if s.asks x u then
    s.modUnit x u (fun y => { y with asked := match (s.strand x.t x.k).phase with
      | some p => min p.issued (y.asked + 1)
      | none => y.asked })
  else s

/-- The units whose slot is c fire, in index order: no firing sees another of its own cycle (R69), nor a kill or a fault that another has
met in it (R388). None where a full gated output stalls the cycle (R70). -/
def State.fireSlot (s : State) (x : RCtx) (slot adv : Nat) : Option State :=
  if !s.running x.gid then some s
  else
    (List.range x.image.count).foldl (fun acc u => acc.bind (fun s =>
      if (s.run x.gid).isSome && bwSlot (x.image.bind u) == slot then (s.askLoad x u).fireUnit x u adv (uRep (x.image.unit u)) else some s)) (some s)

/-- The gated inputs whose slot is c are read. -/
def State.readSlot (s : State) (x : RCtx) (slot adv : Nat) (lead : Option Nat) : State :=
  x.image.gports.foldl (fun s w =>
    let u := gpUnit w
    if !gpOut w && gpSlot w == slot && s.running x.gid then
      let s1 := if (s.supplierUnits x).contains u then s.giveStops x u adv 4 else s
      if lead != some u then s1.readGate x u adv (s1.readBudget x u) 64 else s1
    else s) s

/-- What goes on while a region stalls: the accesses of firings that have been made, which a withheld token, a full commit buffer or a
buffer not yet filled holds back (R119, R134, R151), and whose replies are what the gate waits for (R70, R303). No unit fires. -/
def State.serveWaiting (s : State) (x : RCtx) : State :=
  (List.range x.image.count).foldl (fun s u =>
    let st := s.unitAt x u
    let asked := s.asks x u && decide (st.fired < st.asked)
    if s.running x.gid && (st.withheld.isSome || st.storeWait || asked) then (s.fireOnce x u).getD s else s) s

/-- A cycle of a region that is in run, or whose phase has ended and still passes punctuation. It advances, or stalls for a gated
input or output (R69, R70). -/
def State.advance (s : State) (x : RCtx) (p : Phase) : State :=
  let slot := p.slot; let adv := p.advances
  let openSpace := p.trips.any (· == 0)
  let lead := if openSpace || !(s.inputless x).isEmpty then s.leadUnit x else none
  match (if slot = 0 && lead.isSome && !p.ended then s.leadLost x else none) with
  | some o => s.rollBack x.gid o 3
  | none =>
    match (if slot = 0 then s.issueStage x p else some s) with
    | none => s.serveWaiting x
    | some s1 =>
      if x.image.gports.any (fun w => gpSlot w == slot && (if gpOut w then s1.fullOutput x (gpUnit w) adv
          else State.lateInput s s1 x (gpUnit w) adv)) then s.serveWaiting x
      else
        match (s1.readSlot x slot adv lead).fireSlot x slot adv with
        | none => s.serveWaiting x
        | some s3 =>
          let s4 := (List.range x.image.count).foldl (fun s u => s.flushUnit x u adv) s3
          if s4.running x.gid then
            (s4.modPhase x (fun q => { q with slot := (q.slot + 1) % bII x.image.bindHeader, advances := q.advances + 1 })).endIfDone x
          else s4

/-- REGION_ADVANCE (R69). -/
def execRegionAdvance (t : Fin 192) (k : Fin 8) (s : State) : Host.Outcome State Fault Refusal :=
  let st := s.strand t k
  match s.rctx t k, st.phase with
  | some x, some p =>
    if s.running x.gid && (decide (st.state = .run) || (decide (st.state = .done) && p.ended)) then .next (s.advance x p)
    else .next s
  | _, _ => .next s

/-- Whether every engine job bound to a strand has drained (R171). -/
def State.enginesDrained (s : State) (t : Fin 192) (k : Fin 8) : Bool :=
  !s.jobs.any (fun j => j.tile == t.val && j.strand == k.val)

/-- CONTEXT_SWITCH (R99, R100, R257): the reconfiguration marker has passed every unit, every edge has drained, and so
has every engine; the old block's phase ends and the new context's begins. -/
def execContextSwitch (t : Fin 192) (k : Fin 8) (s : State) : Host.Outcome State Fault Refusal :=
  let st := s.strand t k
  match s.rctx t k, st.phase, st.shadow with
  | some x, some p, .armed c =>
    let passed := (List.range x.image.count).all (fun u =>
      let y := s.unitAt x u
      y.reconf || (x.image.connected u).isEmpty && !(s.inputless x).contains u && !((s.supplierUnits x).contains u))
    -- the marker waits until every replacement has reached its consumer (R388)
    let replaced := match s.run x.gid with
      | some r => !r.replays.any (fun y => y.tile == t.val && y.strand == k.val)
      | none => true
    if s.running x.gid && st.partPending && passed && replaced && s.drained x && s.enginesDrained t k then
      if s.badContext t c then .next (s.contextError t)
      else
        let s1 := if p.ended then s else s.reportPhase x p
        let s2 := (s1.switchTo t k c).modStrand t k (fun y => { y with partPending := false, firePending := none })
        let f : Fire := match st.firePending with
          | some f => { f with args := st.args }
          | none => ⟨[], st.args, none⟩
        .next (s2.beginPhase t k f)
    else .next s
  | _, _, _ => .next s

/-! ### Free-running producers and replies (R303, R315, R466) -/

/-- Free slots of a source's or a FIFO-mode load's edge, in tokens, for one transfer, which an empty edge always holds (R74, R75). -/
def supplyRoom (i : Image) (u : Nat) (st : UnitSt) (transfer : Nat) : Nat :=
  max (sourceDepth i u) transfer - slotsTaken st.reply

/-- A token that a source takes from its kind's supply, and the state without it (R315). -/
def State.supply (s : State) (x : RCtx) (u : Nat) : Option (Item × State) :=
  let w := x.image.unit u
  let kind := uImm w % 4
  match s.run x.gid with
  | none => none
  | some r =>
    if kind = 0 then
      match r.ports.find? (fun p => p.tile == x.t.val && p.strand == x.k.val && p.unit == u) with
      | some p =>
        (match p.items with
        | i :: is => some (i, s.modRun x.gid (fun y => { y with ports := y.ports.map (fun q =>
            if q.tile == p.tile && q.strand == p.strand && q.unit == p.unit then { q with items := is } else q) }))
        | [] => none)
      | none => none
    else if kind = 1 then
      match r.stream (bitsOf (uImm w) 9 2) with
      | some y =>
        (match y.items with
        | i :: is =>
          let next := if i.isMarker && tagSub i.tag == 0 then i.word.toNat + 1 else y.read
          some (i, s.modStream x.gid y.number (fun z => { z with
            items := is, read := next, sent := if r.crosses y then z.sent ++ [(y.read, i)] else [] }))
        | [] => none)
      | none => none
    else
      match (s.strand x.t x.k).phase with
      | none => none
      | some p =>
        if p.ended || p.pickStop then none
        else
          match p.pick with
          | some (b, n) =>
            if p.pickRead < n then
              let st := s.strand x.t x.k
              let v := match s.exitDesc x.t st.exitTable b with
                | some d => (match s.queuePlace x.t st.exitTable d (p.pickHead + p.pickRead) with
                  | some (m, a) => BitVec.ofNat 32 (leNat (s.padBytes m a 4))
                  | none => 0#32)
                | none => 0#32
              some ({ words := [v], tag := 0#8 }, s.modPhase x (fun q => { q with pickRead := q.pickRead + 1 }))
            else some (stopItem 4, s.modPhase x (fun q => { q with pickStop := true }))
          | none => some (stopItem 4, s.modPhase x (fun q => { q with pickStop := true }))

/-- U_SOURCE (R315): a source emits its next token whenever its edge has room (R303). -/
def execUSource (t : Fin 192) (k : Fin 8) (u : BitVec 7) (s : State) : Host.Outcome State Fault Refusal :=
  match s.rctx t k with
  | none => .next s
  | some x =>
    let n := u.toNat
    if s.running x.gid && n < ((s.strand t k).block x.key).length && uOp (x.image.unit n) == 0x88 then
      match s.supply x n with
      | some (i, s1) =>
        if i.words.length ≤ supplyRoom x.image n (s.unitAt x n) i.words.length then
          .next (s1.modUnit x n (fun y => { y with reply := packQueue (bwThresh (x.image.bind n)) (y.reply ++ [i]) }))
        else .next s
      | none => .next s
    else .next s

/-- The oldest item of a FIFO as its load reads it: the words in the scratchpad's slots, those in the spill area, and the tag of an
error among them (R331, R466). -/
def MEnv.fifoHead (m : MEnv) (s : State) (st : UnitSt) (f : Fifo) (i : Item) : Item × State :=
  let n := i.words.length
  let words := (i.words.zip (List.range n)).map (fun x =>
    if x.2 < f.extent then BitVec.ofNat 32 (leNat (s.padBytes f.mtile (s.fifoByte m.gid f x.2) 4)) else x.1)
  if i.isElem && 0 < f.extent then
    let (tag, s1) := m.readTag s st f.mtile (s.fifoByte m.gid f 0) ((List.range (min n f.extent)).map (s.fifoByte m.gid f))
    (Item.readAs { i with words := words } (tag.map (fun o => { o with slot := some (f.written - f.count) })), s1)
  else ({ i with words := words }, s)

/-- What a FIFO-mode load makes of its next item where it has a predicate (R79, R80, R84, R97): none while its predicate input has not
come, or has punctuation to wait for; else whether the unit acts, what it emits of the item, if anything, and the unit, whose predicate
input it has taken. Of two stops the lower is taken alone, so the item may stay. -/
def fifoPredicate (e : UEnv) (st : UnitSt) (i : Item) : Option (Bool × Option Item × Bool × UnitSt) :=
  let back (y : UnitSt) : UnitSt := { y with ports := st.ports.set 3 (y.ports.getD 3 []), nextRound := st.nextRound.set 3 (y.nextRound.getD 3 none) }
  match ({ st with ports := st.ports.set 0 [{ i with due := 0 }] }).align { e with limit := st.round + 1 } [0, 3] with
  | .fire items => some ((e.acts items[1]?).1 && !(items.getD 1 i).isFault, some (e.predicate st i), true, st.pop [3])
  | .stop 0 y => some (true, none, (y.ports.getD 0 []).isEmpty, back y)
  | .stop l y => some (true, some (stopItem l), (y.ports.getD 0 []).isEmpty, back y)
  | .marker j y => some (true, some j, true, back y)
  | _ => none

/-- FIFO_MODE_LOAD (R466): the oldest token or bundle of the FIFO goes to the load's edge whenever that has room; what was in the
spill area takes the slots that it frees (R120). A load that its predicate disables takes the token, reads nothing and emits a void
token (R80). -/
def execFifoModeLoad (t : Fin 192) (k : Fin 8) (u : BitVec 7) (s : State) : Host.Outcome State Fault Refusal :=
  match s.rctx t k with
  | none => .next s
  | some x =>
    let n := u.toNat
    let m := s.menv x n
    let st := s.unitAt x n
    match s.run x.gid, m.place s with
    | some r, some p =>
      if s.running x.gid && n < ((s.strand t k).block x.key).length && r.fifoUnit x.image n && !x.image.spare n then
        match r.fifos.find? (isFifoOf p) with
        | some f =>
          (match f.items with
          | i :: is =>
            match (if supplyRoom x.image n st i.words.length < i.words.length then none
                else if uPmode m.e.w = 0 then some (true, some i, true, st) else fifoPredicate m.e st i) with
            | none => .next s
            | some (acts, out, takes, st1) =>
              let (j, s1) := match out with
                | some o =>
                  if acts && o.isElem then (let (k, s1) := m.fifoHead s st f i; (some (if uPmode m.e.w = 0 then k else m.e.predicate st k), s1))
                  else (some o, s)
                | none => (none, s)
              let f1 := { f with items := is }
              let s2 := if takes then (m.modFifo s1 p (fun _ => f1)).fifoLay m.gid f1 (f.extent - i.words.length) f1.count else s1
              let seq := match j with
                | some o => if o.isElem then st.seq + 1 else if o.isMarker then 0 else st.seq
                | none => st.seq
              .next ((s2.modUnit x n (fun _ => { st1 with
                reply := packQueue (bwThresh (x.image.bind n)) (st1.reply ++ j.toList), seq := seq })).replied x n st [])
          | [] => .next s)
        | none => .next s
      else .next s
    | _, _ => .next s

/-- Whether replies land: a load that is asked to freeze still takes what is outstanding (R396). -/
def State.landing (s : State) (g : Word) : Bool :=
  match s.run g with
  | some r => !r.frozen
  | none => false

/-- MEMORY_REPLY (R145, R303, R331): the oldest request of a memory unit is answered. -/
def execMemoryReply (t : Fin 192) (k : Fin 8) (u : BitVec 7) (s : State) : Host.Outcome State Fault Refusal :=
  match s.rctx t k with
  | none => .next s
  | some x =>
    let n := u.toNat
    if s.landing x.gid && n < x.image.count then
      match (s.menv x n).reply s (s.unitAt x n) with
      | some (st, s1) => .next ((s1.modUnit x n (fun _ => st)).replied x n (s.unitAt x n) [])
      | none => .next s
    else .next s

/-- RETRANSLATION_REPLY (R132, R329): the port's new base, the cause of the fault that its offset yields, or a page-fault
request where the entry is not present. The xlat that the port's base came from serves it in arrival order among its own inputs, and
behind a walk that it withholds (R341). A prefetch withholds nothing: its access is dropped (R330). -/
def execRetranslationReply (t : Fin 192) (k : Fin 8) (u : BitVec 7) (s : State) : Host.Outcome State Fault Refusal :=
  match s.rctx t k with
  | none => .next s
  | some x =>
    let n := u.toNat
    let st := s.unitAt x n
    let waits := match x.image.baseSource x.image.count n with
      | some v => (s.unitAt x v).withheld.isSome || decide ((s.unitAt x v).core.count < st.behind)
      | none => false
    match (if s.running x.gid && !waits then st.withheld else none) with
    | some { tag := none, va := va, write := write, cause := none } =>
      let m := s.menv x n
      let g := m.agent s
      let (walk, _, s1) := s.leafFor g va .read
      let failed (s : State) (c : Nat) : State := s.modUnit x n (fun y => { y with withheld := some ⟨none, va, write, some c⟩ })
      (match walk with
      | .leaf l => .next (s1.modUnit x n (fun y => { y with
          withheld := none
          core := { y.core with sticky := match y.core.sticky with
            | .base b _ => .base (baseOf b.va va g.ctx l) false
            | other => other } }))
      | .fault .notPresent =>
        if uOp (x.image.unit n) = 0xA6 then .next (failed s1 3)
        else
          let (tag, s2) := m.fault s1 st.core.deal va (if write then 1 else 0)
          .next (s2.modUnit x n (fun y => { y with withheld := some ⟨some tag, va, write, none⟩ }))
      | .fault e => .next (failed s1 (faultCause e))
      | .uncorrectable table =>
        .next (failed (((s1.eccMet table 2048).markPoisoned table).logPoison g.part g.ctx m.gid (m.copyUid st.core.deal) st.round table) 5))
    | _ => .next s

/-- WITHHELD_STORE_RELEASE (R151): a store that waits for a commit-buffer entry issues once there is one, or once its
round is the oldest and overflows. -/
def execWithheldStoreRelease (t : Fin 192) (k : Fin 8) (u : BitVec 7) (s : State) : Host.Outcome State Fault Refusal :=
  match s.rctx t k with
  | none => .next s
  | some x =>
    let n := u.toNat
    if s.running x.gid && n < x.image.count && (s.unitAt x n).storeWait then
      match s.fireOnce x n with
      | some s1 => .next s1
      | none => .next s
    else .next s

/-! ### Single-token re-injection (R377) -/

/-- What a replacement becomes on its way from a unit to the consumer that keeps it: each token-local unit fires for it
alone, its other inputs being constants (R376, R377). Fuel bounds the path. -/
def replayPath (x : RCtx) (env : Nat → UEnv) (target : Nat) (seq : Nat) : Nat → Nat → Nat → Item → Option (Nat × Item)
  | 0, _, _, _ => none
  | fuel + 1, u, port, i =>
    if u = target then some (port, i)
    else
      let e := env u
      let both := uOp (x.image.unit u) == 0xD0 || uOp (x.image.unit u) == 0xD1
      let ports := ([0, 1, 2, 3] : List Nat).map (fun p =>
        if p == port || both then [i]
        else match x.image.edges.find? (fun y => y.dst == u && y.port == p) with
          | some y => [{ words := constWords (x.image.unit y.src) e.args, tag := 0#8 : Item }]
          | none => [])
      -- one replacement is the whole of its group
      let st : UnitSt := { ports := ports, seq := seq, inRound := 1
                           core := { copies := List.replicate (uRep (x.image.unit u)) {}, deal := uRep (x.image.unit u) - 1 }
                           nextRound := ([0, 1, 2, 3] : List Nat).map (fun p => if (x.image.connected u).contains p then some 0 else none) }
      match unitStep { e with limit := 1 } st with
      | none => none
      | some r =>
        (x.image.edges.filter (fun y => y.src == u)).foldl (fun acc y =>
          match acc with
          | some z => some z
          | none =>
            match r.st.out.find? (fun o => o.1 == y.which) with
            | some o => replayPath x env target seq fuel y.dst y.port o.2
            | none => none) none

/-- The replacement's bytes put into the stores that hold the tagged datum, in their order: an access over two lines or pages is
two of them or more. -/
def replaceStores (o : Origin) (port : Word) : List Byte → List BufStore → List BufStore
  | _, [] => []
  | bs, b :: r =>
    if b.origin = some o && b.port = port then
      { b with bytes := bs.take b.bytes.length, origin := none } :: replaceStores o port (bs.drop b.bytes.length) r
    else b :: replaceStores o port bs r

/-- The final consumer takes the replacement (R377): a terminal sink counts it, an owner applies it, a store replaces the
datum that it buffered or wrote, or that stands in its pass. -/
def State.takeReplacement (s : State) (x : RCtx) (y : Replay) (port : Nat) (i : Item) : State :=
  let op := uOp (x.image.unit y.unit)
  let bytes := wordsToBytes i.words
  let m := s.menv x y.unit
  let st := s.unitAt x y.unit
  if op = 0x89 then s
  else if op = 0xA2 then
    let ports := ([0, 1, 2, 3] : List Nat).map (fun p =>
      if p == port then [i] else match y.items.find? (fun z => z.1 == p) with
        | some z => [z.2]
        | none => [])
    match m.place s with
    | some p =>
      (match ({ m with e := { m.e with limit := st.round + 1 } }).ownerStep s { st with ports := ports, reply := [], requests := [], seq := y.seq } p with
      | some r => r.s.modUnit x y.unit (fun v => { v with applied := r.step.st.applied })
      | none => s)
    | none => s
  else
    match y.target, m.place s with
    | some (mt, a), _ => s.padWrite mt a bytes
    | none, some p =>
      if op = 0xA1 then
        let toks := p.pending.map (fun z => if z.origin = some y.origin then { i with due := 0 } else z)
        if toks.length = agWriteTokens p.word && toks.all (fun z => z.origin.isNone) then
          let (st1, s1) := m.endPass s st p toks
          s1.modUnit x y.unit (fun _ => st1)
        else m.modPlace s (fun q => { q with pending := toks })
      else s.modRun x.gid (fun r => { r with stores := replaceStores y.origin m.uid bytes r.stores })
    | none, none => s.modRun x.gid (fun r => { r with stores := replaceStores y.origin m.uid bytes r.stores })

/-- What the source of a tagged token reads again (R377): the words, or that the read met an error once more. A load whose pass a
transform makes reads the token of that pass, its generator taking no step (log entry 86). A FIFO's slot that a later token has taken
holds the element no more, so no read is made. -/
def State.readAgain (s : State) (m : MEnv) (o : Origin) : Option (List Word × Bool × State) :=
  match o.pass, o.slot, m.place s with
  | some (buf, t), _, some p =>
    let tok := agReadToken p.word (s.windowWord m.gid p.mtile) buf ((m.other s o.unit).rng 0) t
    let ws := tok.reads.map (s.windowByte m.gid p.mtile)
    some (tok.words, decide (tok.kind = 2) || ws.any (fun w => s.padBad p.mtile w 4), ws.foldl (fun s w => s.padMet p.mtile w 4) s)
  | some _, _, none => none
  | none, some n, p =>
    match p.bind (m.fifo s) with
    | some f => if n + f.extent < f.written + o.words then none else some (again s)
    | none => none
  | none, none, _ => some (again s)
where
  again (s : State) : List Word × Bool × State :=
    let q : MemReq := { scratch := o.scratch, address := o.address, words := o.words, frame := o.base, offset := 0#32, seq := o.seq
                        round := o.round, copies := 1, stopAfter := false, error := false, origin := none, more := o.more }
    let (data, er, _, s1) := m.readData s o.mtile q
    (bytesToWords o.words data, er.isSome, s1)

/-- TOKEN_REINJECTION (R376, R377, R379): a tagged token that waits at its final consumers is read again by its source and
replaced at each of them; a second error on it is a kill. Where no replacement reaches one of them, the round is rolled back
(R378). -/
def execTokenReinjection (g : BitVec 32) (n : BitVec 16) (s : State) : Host.Outcome State Fault Refusal :=
  match s.run g with
  | none => .next s
  | some r =>
    match (if r.works then r.replays[n.toNat]? else none) with
    | none => .next s
    | some y =>
      match s.keyBlock (tileOf y.tile) (Fin.ofNat 8 y.strand) y.key with
      | none => .next s
      | some x =>
        let o := y.origin
        match s.readAgain (s.menv x o.unit) o with
        | none => .next (s.rollBack g { o with record := 0xFFFF_FFFF#32 } 0)
        | some (words, bad, s0) =>
          if bad || (r.round o.round).wasRetried o then .next (s0.escalate g o true ((r.round o.round).retriesOf o.strand o.unit o.seq))
          else
            let i : Item := { words := words, tag := 0#8 }
            let starts := x.image.edges.filter (fun e => e.src == o.unit)
            let mine := r.replays.filter (fun v => v.origin == o)
            let found (v : Replay) : Option (Nat × Item) := starts.foldl (fun acc e => match acc with
              | some z => some z
              | none => replayPath x (s0.uenv x) v.unit o.seq (x.image.count + 1) e.dst e.port i) none
            if mine.any (fun v => (found v).isNone) then .next (s0.rollBack g { o with record := 0xFFFF_FFFF#32 } 0)
            else
              let s1 := mine.foldl (fun s v => match found v with
                | some (port, j) => s.takeReplacement x v port j
                | none => s) s0
              .next (s1.modRun g (fun z => { z.modRound o.round (fun w => { w with
                  tags := w.tags.erase o
                  retried := w.retried ++ [(o.strand, o.unit, o.seq, o.uid, o.record)] }) with
                replays := z.replays.filter (fun v => v.origin != o)
                stores := z.stores.map (fun b => if b.origin = some o then { b with origin := none } else b) }))

end Sys2Proof.Machine
end

