-- ==== Sys2Proof/Machine/SeqCommon.lean ====
section
/-! DEFINITION. Sys2Proof/Machine/SeqCommon.lean: the shape that the sequencer's instructions share (R181, R220, R221,
R249): the illegal-instruction trap, the protected effect, the stall. -/

namespace Sys2Proof.Machine

/-- The instruction word, as sy.tval holds it (R181). -/
def wordTval (i : Instr) : DWord := ((encodeSeq i).getD 0#32).setWidth 64

/-- The illegal-instruction trap, sy.tval the instruction word (R181). -/
def State.illegal (s : State) (i : Instr) : State := s.trapMe 1 (wordTval i)

/-- An instruction under its protection class: its effect, or the trap of R181 where its fields break R181, which the
comparison precedes (R222). The comparison point is that of R386. -/
def seqInstr (i : Instr) (p : BitVec 2) (point : Nat) (f : DWord → State → State) (s : State) :
    Host.Outcome State Fault Refusal :=
  .next (s.guarded p point (fun e s => if i.wf then f e s else s.illegal i))

/-- The error that reaches a predicate or a decision: its low bit. -/
def errBit (e : DWord) : Bool := e.getLsbD 0

/-- The error that reaches a pc, whose bits [1:0] stay 0 (R178). -/
def errPc (e : DWord) : DWord := e &&& 0xFFFF_FFFF_FFFF_FFFC#64

/-- wr(d, v), then pc + 4 (R220). -/
def State.writeBack (s : State) (d : BitVec 5) (v : DWord) : State := s.modMe (fun q => (q.wr d v).advance)

/-- A predicate written, then pc + 4. -/
def State.writePred (s : State) (d : BitVec 3) (v : Bool) : State := s.modMe (fun q => (q.wrPred d v).advance)

/-- An instruction of majors 0x00 to 0x0F that writes a scalar register: v is computed from the state before. -/
def regInstr (i : Instr) (p : BitVec 2) (d : BitVec 5) (v : DWord) (s : State) : Host.Outcome State Fault Refusal :=
  seqInstr i p 4 (fun e s => s.writeBack d (v ^^^ e)) s

/-- An instruction that writes a predicate. -/
def predInstr (i : Instr) (p : BitVec 2) (d : BitVec 3) (v : Bool) (s : State) : Host.Outcome State Fault Refusal :=
  seqInstr i p 4 (fun e s => s.writePred d (v ^^ errBit e)) s

/-- The executing sequencer stalls in an instruction, which has had no effect (R249). -/
def State.stallMe (s : State) (i : Instr) (k : StallKind) : State :=
  let since := match s.me.stall with
    | some x => x.since
    | none => s.tileCycles s.cur.val
  s.modMe (fun q => { q with stall := some ⟨i, k, since⟩ })

/-- A stalled instruction that completes. -/
def Seq.resume (q : Seq) : Seq := { q with stall := none }

/-- The executing sequencer goes on after an instruction that may have stalled. -/
def State.nextMe (s : State) : State := s.modMe (fun q => q.advance.resume)

/-- The configuration-load-error trap: sy.tval := 0^32 ++ reason ++ x ++ code (R203, R248). -/
def State.cfgError (s : State) (reason x code : Nat) : State :=
  s.trapMe 8 (BitVec.ofNat 64 (reason % 256 * 2 ^ 24 + x % 256 * 2 ^ 16 + code % 65536))

/-- Whether the graph of a tile stands killed. -/
def State.killedAt (s : State) (t : Fin 192) : Bool :=
  match s.runOfTile t.val with
  | some r => decide (r.freeze = some .kill)
  | none => false

/-- The step trap (R189, R393): it follows each completed user instruction that did not trap, sy.epc the next
instruction. One that killed its graph had no effect, and no trap is taken (R221, R389). -/
def State.singleStep (before after : State) (t : Fin 192) : State :=
  let q := before.seq t; let x := after.seq t
  if !q.sv && q.step && !x.sv && x.stall.isNone && decide (x.mode = .running) && !after.killedAt t then after.trapAt t 5 x.pc 0x20000#64
  else after

/-- An instruction's outcome with its step trap. -/
def stepped (before : State) (t : Fin 192) : Host.Outcome State Fault Refusal → Host.Outcome State Fault Refusal
  | .next s => .next (before.singleStep s t)
  | .fault r => .fault r
  | .refused r => .refused r

end Sys2Proof.Machine
end

