-- ==== Sys2Proof/Machine/SeqCfg.lean ====
section
/-! DEFINITION. Sys2Proof/Machine/SeqCfg.lean: the configuration instructions (R246 to R258). -/

namespace Sys2Proof.Machine

/-- A configuration instruction: its effect under its protection class (R250); its execution is a block boundary
(R404). -/
def cfgInstr (i : Instr) (p : BitVec 2) (f : DWord → State → State) (s : State) : Host.Outcome State Fault Refusal :=
  seqInstr i p 5 (fun e s => f e (s.modMe Seq.boundary)) s

/-- A strand of the executing sequencer's tile. -/
def State.myStrand (s : State) (k : Fin 8) : Strand := s.strand s.cur k

/-- A context of the executing sequencer's tile. -/
def State.myCtx (s : State) (c : Fin 16) : Ctx := (s.tile s.cur).ctxs[c]

/-- Whether a context is busy: active for a strand, or a strand's armed shadow (R247). -/
def Tile.busy (t : Tile) (c : Fin 16) : Bool :=
  t.strands.any (fun st => decide (st.active = some c) || decide (st.shadow = .armed c))

/-- Whether a strand has work pending (R246). -/
def Strand.pending (st : Strand) : Bool := st.swapPending || st.partPending || st.firePending.isSome

/-- Whether a strand is in run or has work pending (R256). -/
def Strand.occupied (st : Strand) : Bool := decide (st.state = .run) || st.pending

/-- Whether a strand's region is that of a context's image (R247). -/
def Strand.sameRegion (st : Strand) (i : Image) : Bool := bRegion st.region == i.region

/-! ### cfg.load (R251) -/

/-- What fetching an image gives: its bytes, or the trap of R222 rows 2 to 9. -/
inductive ImageFetch where
  | ok (bs : List Byte)
  | trap (code : Nat) (tval : DWord)

/-- A word of an image fetched: a user-mode access, with exec required (R133). -/
def State.imageWord (s : State) (va : Nat) : ImageFetch × State :=
  let addr : DWord := BitVec.ofNat 64 va
  if field addr 63 52 ≠ 0 then (.trap 3 addr, s)
  else
    match s.virtRead s.meUserAgent va 4 .exec with
    | (.ok bs, s1) => (.ok bs, s1)
    | (.uncorrectable e, s1) => (.trap 3 addr, s1.logConsumed s.cur.val e)
    | (.fault x, s1) => (.trap (xfaultTrap x) addr, s1)
    | (.poison table, s1) => (.trap 4 addr, s1.poisonedByMe table)

/-- Words of an image fetched in order, after what has been fetched already. -/
def State.imageWords (s : State) (va : Nat) (acc : List Byte) : Nat → ImageFetch × State
  | 0 => (.ok acc, s)
  | n + 1 =>
    match s.imageWord va with
    | (.ok bs, s1) => State.imageWords s1 (va + 4) (acc ++ bs) n
    | (.trap code tval, s1) => (.trap code tval, s1)

/-- The image at an address: the header, then the length that it implies. -/
def State.fetchImage (s : State) (va : Nat) : ImageFetch × State :=
  match s.imageWords va [] 4 with
  | (.trap c t, s1) => (.trap c t, s1)
  | (.ok h, s1) =>
    let head := blockBytes (leNat h)
    match s1.imageWords (va + 16) h (head / 4) with
    | (.trap c t, s2) => (.trap c t, s2)
    | (.ok bs, s2) =>
      let rest := bindBytes (headerUnits (leNat h)) (recNat bs head 16)
      s2.imageWords (va + head + 16) bs (rest / 4)

/-- The graph block whose native image lies at an address, by strand ordinal and block index (R251, R441); a portable graph without a
native image area has none in memory. -/
def Run.blockAt (r : Run) (va : Nat) : Option (Nat × Nat) :=
  if !r.graph.native && r.graph.nia = 0 then none
  else (r.graph.images.find? (fun x => x.1 == va)).map (fun x => (x.2.1, x.2.2))

/-- The load error code of an image that the executing sequencer loads: its region is judged against the fabric load's other regions on
the tile, those that it does not itself describe (R61, R247, R480). -/
def State.imageCode (s : State) (i : Image) (block : Option (Nat × Nat)) : Option Nat :=
  match s.runOfTile s.cur.val with
  | none => i.loadCode [] [] [] (fun _ => none)
  | some r =>
    let inits := match block with
      | some (j, b) => (r.graph.inits.filter (fun t => t.strand == j && t.block == b)).map (fun t => (t.unit, t.port))
      | none => []
    let fifo := (List.range i.count).filter (fun u => r.fifoUnit i u)
    let others := (((s.tile s.cur).strands.toList).filter (fun st => st.used && !st.sameRegion i)).map (fun st => st.region)
    lowestCode ((i.loadCode inits fifo others r.graph.streamSizes).toList
      ++ reject (privateBad r.graph i) 0x020B
      ++ reject (s.imageEclipsed s.cur.val i || i.faceless s.cur.val) 0x0306)

/-- The unit states that strands keep for the image that a context held, where it was no block of theirs. -/
def Tile.dropImage (t : Tile) (c : Fin 16) : Tile :=
  { t with strands := t.strands.map (fun (st : Strand) => { st with units := st.units.filter (fun x => x.1 != 64 + c.val) }) }

/-- A context set (R251). -/
def State.setMyCtx (s : State) (c : Fin 16) (x : Ctx) : State :=
  s.modTile s.cur (fun t => { t.dropImage c with ctxs := t.ctxs.set c x })

/-- cfg.load (R251). One whose image is long in coming stalls, its context holding no image meanwhile, and an asynchronous
trap can be taken then (R249, log entry 77). -/
def execCfgLoad (p : BitVec 2) (a : BitVec 5) (c : BitVec 4) (s : State) : Host.Outcome State Fault Refusal :=
  cfgInstr (.cfgLoad p a c) p (fun e s =>
    let va := s.me.rd a ^^^ e
    let x := ctxOf c
    if va.toNat % 16 ≠ 0 then s.trapMe 2 va
    else if (s.tile s.cur).busy x then s.cfgError 2 x.val 0
    else if s.me.slow then ((s.setMyCtx x {}).modMe (fun q => { q with slow := false })).stallMe (.cfgLoad p a c) .retry
    else
      match s.fetchImage va.toNat with
      | (.trap code tval, s1) => (s1.setMyCtx x {}).trapMe code tval
      | (.ok bs, s1) =>
        let i := imageOf bs
        let block := (s1.runOfTile s.cur.val).bind (fun r => r.blockAt va.toNat)
        match s1.imageCode i block with
        | some code => (s1.setMyCtx x {}).cfgError 1 x.val code
        | none => (s1.setMyCtx x { image := some i, block := block }).nextMe) s

/-! ### cfg.arm and cfg.swap (R252, R253) -/

/-- A context released from every strand that holds it as its unarmed shadow (R252). -/
def Strand.release (st : Strand) (c : Fin 16) : Strand :=
  if st.shadow = .unarmed c then { st with shadow := .none } else st

/-- Why cfg.arm cannot proceed: the lowest reason, what it names. -/
def State.armReason (s : State) (k : Fin 8) (c : Fin 16) : Option (Nat × Nat) :=
  let st := s.myStrand k
  if (s.tile s.cur).busy c then some (2, c.val)
  else
    match (s.myCtx c).image with
    | none => some (3, c.val)
    | some i =>
      if !st.used || st.swapPending || st.partPending then some (4, k.val)
      else if !st.sameRegion i then some (7, c.val)
      else none

/-- cfg.arm (R252). -/
def execCfgArm (p : BitVec 2) (k : BitVec 3) (c : BitVec 4) (s : State) : Host.Outcome State Fault Refusal :=
  cfgInstr (.cfgArm p k c) p (fun _ s =>
    let x := ctxOf c; let n := strandOf k
    match s.armReason n x with
    | some (reason, who) => s.cfgError reason who 0
    | none =>
      let s1 := s.modTile s.cur (fun t => { t with strands := t.strands.map (fun st => st.release x) })
      (s1.modStrand s.cur n (fun st => { st with shadow := .armed x })).nextMe) s

/-- cfg.swap (R253). Outside run no pending work forbids it (log entry 22). -/
def execCfgSwap (p : BitVec 2) (k : BitVec 3) (s : State) : Host.Outcome State Fault Refusal :=
  cfgInstr (.cfgSwap p k) p (fun _ s =>
    let n := strandOf k
    let st := s.myStrand n
    match st.shadow with
    | .armed c =>
      if !st.used || (decide (st.state = .run) && (st.swapPending || st.partPending)) then s.cfgError 4 n.val 0
      else if st.state = .run then (s.modStrand s.cur n (fun y => { y with swapPending := true })).nextMe
      else if s.badContext s.cur c then (s.contextError s.cur).nextMe
      else ((s.switchTo s.cur n c).modStrand s.cur n (fun y => { y with state := .ready })).nextMe
    | _ => s.cfgError 4 n.val 0) s

/-! ### cfg.fire (R254) -/

/-- The context that a strand's next phase runs in (R254). -/
def Strand.nextCtx (st : Strand) : Option (Fin 16) :=
  if st.swapPending then
    match st.shadow with
    | .armed c => some c
    | _ => st.active
  else st.active

/-- The blocks whose descriptors cfg.fire checks: those that the block's exits name, and the picked block. -/
def State.firedBlocks (st : Strand) (x : RCtx) : List Nat :=
  dedup ((List.range x.image.exits).map (fun e => st.exitDest x.key e) ++
    (match st.pick with
      | some (b, _) => [b]
      | none => []))

/-- cfg.fire (R254). -/
def execCfgFire (p : BitVec 2) (a b : BitVec 5) (k : BitVec 3) (s : State) : Host.Outcome State Fault Refusal :=
  cfgInstr (.cfgFire p a b k) p (fun e s =>
    let n := strandOf k
    let st := s.myStrand n
    if !st.used || decide (st.state = .empty) || st.partPending || st.firePending.isSome then s.cfgError 4 n.val 0
    else
      match st.nextCtx.bind (fun c => s.ctxBlock s.cur n c) with
      | none => s.cfgError 4 n.val 0
      | some x =>
        match readTrips x.image s.me with
        | .inr dim => s.cfgError 5 n.val dim
        | .inl trips =>
          match (State.firedBlocks st x).find? (fun d => (s.exitDesc s.cur st.exitTable d).isNone) with
          | some d => s.cfgError 6 n.val d
          | none =>
            let f : Fire := ⟨trips, (s.me.rd a ^^^ e, s.me.rd b), st.pick⟩
            let s1 := s.modStrand s.cur n (fun y => { y with pick := none })
            if st.state = .run then (s1.modStrand s.cur n (fun y => { y with firePending := some f })).nextMe
            else if s.badContext s.cur x.c then (s.contextError s.cur).nextMe
            else (s1.beginPhase s.cur n f).nextMe) s

/-! ### cfg.part (R257) -/

/-- The reconfiguration marker of a context (R65, R257). -/
def partMarker (c : Fin 16) : Item := markerItem 1 (BitVec.ofNat 32 (c.val * 2 ^ 24))

/-- The marker at the tail of the edge that enters a gated boundary input from a source unit or a FIFO-mode load: behind
every token that waits for that edge (log entry 23). -/
def State.placePart (x : RCtx) (c : Fin 16) (s : State) (u : Nat) : State :=
  let w := x.image.unit u
  let m := partMarker c
  let kind := uImm w % 4
  if uOp w = 0x88 && kind = 1 then
    s.modStream x.gid (bitsOf (uImm w) 9 2) (fun z => { z with items := z.items ++ [m] })
  else if uOp w = 0x88 && kind = 0 && (match s.run x.gid with
      | some r => r.ports.any (fun q => q.tile == x.t.val && q.strand == x.k.val && q.unit == u)
      | none => false) then
    s.modRun x.gid (fun r => { r with ports := r.ports.map (fun q =>
      if q.tile == x.t.val && q.strand == x.k.val && q.unit == u then { q with items := q.items ++ [m] } else q) })
  else s.modUnit x u (fun y => { y with reply := y.reply ++ [m] })

/-- The markers of cfg.part; a region with no such input takes the marker at its issue stage. -/
def State.injectPart (s : State) (x : RCtx) (c : Fin 16) : State :=
  let sup := s.supplierUnits x
  if sup.isEmpty then s.modPhase x (fun p => { p.addPunct (partMarker c) with blocked := true })
  else sup.foldl (State.placePart x c) s

/-- cfg.part (R257). -/
def execCfgPart (p : BitVec 2) (k : BitVec 3) (c : BitVec 4) (s : State) : Host.Outcome State Fault Refusal :=
  cfgInstr (.cfgPart p k c) p (fun _ s =>
    let n := strandOf k; let y := ctxOf c
    let st := s.myStrand n
    match (s.myCtx y).image with
    | none => s.cfgError 3 y.val 0
    | some i =>
      if !st.used || decide (st.state ≠ .run) || st.pending || decide (st.shadow ≠ .armed y) then s.cfgError 4 n.val 0
      else
        match readTrips i s.me with
        | .inr dim => s.cfgError 5 n.val dim
        | .inl trips =>
          if !st.sameRegion i then s.cfgError 7 y.val 0
          else
            match s.rctx s.cur n with
            | none => s.cfgError 4 n.val 0
            | some x =>
              ((s.injectPart x y).modStrand s.cur n (fun z => { z with
                partPending := true, firePending := some ⟨trips, z.args, none⟩ })).nextMe) s

/-! ### cfg.wait, cfg.exit, cfg.pick, cfg.drain (R256, R258) -/

/-- How long cfg.wait, cfg.exit and cfg.pick stall: until the strand is not in run and has nothing pending, or, where a
partial reconfiguration was pending, until its switch (R256). -/
def State.strandWait (s : State) (k : Fin 8) : Option StallKind :=
  let st := s.myStrand k
  match s.me.stall with
  | some ⟨_, .switch, _⟩ => if st.partPending then some .switch else none
  | _ => if st.partPending then some .switch else if st.occupied then some .retry else none

/-- An instruction that waits for a strand and then acts. -/
def waitInstr (i : Instr) (p : BitVec 2) (k : BitVec 3) (f : DWord → State → State) (s : State) : Host.Outcome State Fault Refusal :=
  cfgInstr i p (fun e s =>
    if !(s.myStrand (strandOf k)).used then s.cfgError 4 (strandOf k).val 0
    else
      match s.strandWait (strandOf k) with
      | some w => s.stallMe i w
      | none => f e s) s

/-- cfg.wait (R256). -/
def execCfgWait (p : BitVec 2) (k : BitVec 3) (s : State) : Host.Outcome State Fault Refusal :=
  waitInstr (.cfgWait p k) p k (fun _ s => s.nextMe) s

/-- cfg.exit (R256). -/
def execCfgExit (p : BitVec 2) (a : BitVec 5) (k : BitVec 3) (s : State) : Host.Outcome State Fault Refusal :=
  waitInstr (.cfgExit p a k) p k (fun e s =>
    let v := (s.myStrand (strandOf k)).status.setWidth 64 ^^^ e
    s.guardedValue p (fun e s => s.modMe (fun q => (q.wr a (v ^^^ e)).advance.resume))) s

/-- The exit table of a strand, block by block; the first malformed descriptor otherwise. -/
def State.exitTable (s : State) (t : Fin 192) (st : Strand) : List (Nat × ExitDesc) ⊕ Nat :=
  match (List.range st.blocks).find? (fun b => (s.exitDesc t st.exitTable b).isNone) with
  | some b => .inr b
  | none => .inl ((List.range st.blocks).filterMap (fun b => (s.exitDesc t st.exitTable b).map (fun d => (b, d))))

/-- The skipped counts after a choice (R91). -/
def State.noteSkips (s : State) (t : Fin 192) (table : Nat) (ds : List (Nat × ExitDesc)) (chosen : Option Nat) : State :=
  ds.foldl (fun s x =>
    let v := if chosen = some x.1 || x.2.waiting = 0 then 0 else (x.2.skipped + 1) % 2 ^ 32
    s.setDesc t table x.1 4 v) s

/-- cfg.pick (R91, R256). -/
def execCfgPick (p : BitVec 2) (a : BitVec 5) (k : BitVec 3) (s : State) : Host.Outcome State Fault Refusal :=
  waitInstr (.cfgPick p a k) p k (fun e s =>
    let n := strandOf k
    let st := s.myStrand n
    match s.exitTable s.cur st with
    | .inr b => s.cfgError 6 n.val b
    | .inl ds =>
      let c := pickBlock ds
      let s1 := s.noteSkips s.cur st.exitTable ds (c.map (fun x => x.1))
      let v : DWord := (match c with
        | some (b, _) => BitVec.ofNat 64 b
        | none => 0xFFFF_FFFF_FFFF_FFFF#64) ^^^ e
      (s1.modStrand s.cur n (fun y => { y with pick := c.map (fun x => (x.1, x.2.waiting)) })).guardedValue p
        (fun e s => s.modMe (fun q => (q.wr a (v ^^^ e)).advance.resume))) s

/-- cfg.drain (R258). -/
def execCfgDrain (p : BitVec 2) (k : BitVec 3) (s : State) : Host.Outcome State Fault Refusal :=
  cfgInstr (.cfgDrain p k) p (fun _ s =>
    let n := strandOf k
    if !(s.myStrand n).used then s.cfgError 4 n.val 0
    else if s.enginesDrained s.cur n then s.nextMe
    else s.stallMe (.cfgDrain p k) .retry) s

end Sys2Proof.Machine
end

