-- ==== Sys2Proof/Machine/SeqMem.lean ====
section
/-! DEFINITION. Sys2Proof/Machine/SeqMem.lean: loads, stores, atomics and fences (R236 to R244). The model performs the
direct accesses of a sequencer one at a time in program order, so an order or a scope adds nothing (log entry 10). -/

namespace Sys2Proof.Machine

/-- Whether a direct access has no path over the links (R462). -/
def State.noPath (s : State) (sp : Space) (addr : DWord) (acc : Access) : Bool :=
  decide (sp = .global) && field addr 63 52 == 0 && s.cutOff s.meAgent addr.toNat acc

/-- The load of the executing sequencer killed because its traffic has no path, without eclipse (R462). -/
def State.killCutOff (s : State) : State := s.kill (s.gidOfTile s.cur.val) 0x12 0#8

/-- A load: the address is compared before the request leaves, and the extended value at writeback; or the trap is taken
(R221, R239, R241). g is the sign field. -/
def loadInstr (i : Instr) (p : BitVec 2) (d : BitVec 5) (sp : Option Space) (addr : DWord) (n : Nat) (g : BitVec 1) (s : State) :
    Host.Outcome State Fault Refusal :=
  seqInstr i p 5 (fun e s =>
    match sp with
    | none => s.illegal i
    | some sp =>
      if (addr ^^^ e).toNat % n ≠ 0 then s.trapMe 2 (addr ^^^ e)
      else if s.noPath sp (addr ^^^ e) .read then s.killCutOff
      else
        match s.seqLoad sp (addr ^^^ e) n with
        | (.trap code tval, s1) => s1.trapMe code tval
        | (.ok v, s1) => s1.guardedValue p (fun e s => s.writeBack d (extendLoad g n v ^^^ e))) s

/-- Whether a direct write is withheld at a page that moves (R138): the instruction
stalls until the move completes. -/
def State.storeHeld (s : State) (sp : Space) (addr : DWord) : Bool := decide (sp = .global) && s.heldWrite s.meAgent addr.toNat

/-- A store (R240, R241). -/
def storeInstr (i : Instr) (p : BitVec 2) (sp : Option Space) (addr : DWord) (n : Nat) (v : DWord) (s : State) :
    Host.Outcome State Fault Refusal :=
  seqInstr i p 5 (fun e s =>
    match sp with
    | none => s.illegal i
    | some sp =>
      if (addr ^^^ e).toNat % n ≠ 0 then s.trapMe 2 (addr ^^^ e)
      else if s.noPath sp (addr ^^^ e) .write then s.killCutOff
      else if s.storeHeld sp (addr ^^^ e) then (s.holdWrite s.meAgent (addr ^^^ e).toNat).stallMe i .retry
      else
        match s.seqStore sp (addr ^^^ e) n (v.toNat % 2 ^ (8 * n)) with
        | (.trap code tval, s1) => s1.trapMe code tval
        | (.ok _, s1) => s1.nextMe) s

/-- ld (R236, R239). -/
def execLd (p : BitVec 2) (d b : BitVec 5) (z : BitVec 2) (g : BitVec 1) (sp : BitVec 2) (o : BitVec 9) (s : State) :
    Host.Outcome State Fault Refusal :=
  loadInstr (.ld p d b z g sp o) p d (spaceOf sp) (meAddress (s.me.rd b) z o) (meBytes z) g s

/-- st (R236, R240). -/
def execSt (p : BitVec 2) (d b : BitVec 5) (z : BitVec 2) (sp : BitVec 2) (o : BitVec 9) (s : State) :
    Host.Outcome State Fault Refusal :=
  storeInstr (.st p d b z sp o) p (spaceOf sp) (meAddress (s.me.rd b) z o) (meBytes z) (s.me.rd d) s

/-- ld with order (R241): global space, zero-extended. -/
def execLdOrdered (p : BitVec 2) (d a : BitVec 5) (o sc z : BitVec 2) (s : State) : Host.Outcome State Fault Refusal :=
  loadInstr (.ldOrdered p d a o sc z) p d (some .global) (s.me.rd a) (amBytes z) 0#1 s

/-- st with order (R241). -/
def execStOrdered (p : BitVec 2) (a v : BitVec 5) (o sc z : BitVec 2) (s : State) : Host.Outcome State Fault Refusal :=
  storeInstr (.stOrdered p a v o sc z) p (some .global) (s.me.rd a) (amBytes z) (s.me.rd v) s

/-- Whether the sequencer's current round is the oldest uncommitted round (R164). -/
def State.roundReady (s : State) : Bool :=
  match s.runOfTile s.cur.val with
  | some r => r.currentRound s.cur.val ≤ r.oldest
  | none => true

/-- The current round is no longer open to abort once an amo or ev.add has been performed in it (R157, R164). -/
def State.makeIrrevocable (s : State) : State :=
  match s.runOfTile s.cur.val with
  | some r => s.modRun r.gid (fun x => x.modRound (r.currentRound s.cur.val) (fun y => { y with irrevocable := true }))
  | none => s

/-- An atomic (R164, R242, R270): rows 5 to 8 of R222, the wait for the round, then one indivisible event; finish is
applied to the old value. -/
def atomicInstr (i : Instr) (p : BitVec 2) (addr : DWord) (n : Nat) (f : Nat → Option Nat) (finish : Nat → Seq → Seq) (s : State) :
    Host.Outcome State Fault Refusal :=
  seqInstr i p 5 (fun e s =>
    match s.atomicCheck (addr ^^^ e) n with
    | (some (code, tval), s1) => s1.trapMe code tval
    | (none, s1) =>
      if s1.noPath .global (addr ^^^ e) .write then s1.killCutOff
      else if s1.heldWrite s1.meAgent (addr ^^^ e).toNat then (s1.holdWrite s1.meAgent (addr ^^^ e).toNat).stallMe i .retry
      else if s1.roundReady then
        match s1.atomicDo (addr ^^^ e) n f with
        | (.trap code tval, s2) => s2.trapMe code tval
        | (.ok old, s2) => s2.makeIrrevocable.modMe (fun q => (finish old q).advance.resume)
      else s1.stallMe i .round) s

/-- amo.add: memory := old + value; d := old. -/
def execAmoAdd (p : BitVec 2) (d a v : BitVec 5) (o sc z : BitVec 2) (s : State) : Host.Outcome State Fault Refusal :=
  let n := amBytes z
  let value := (s.me.rd v).toNat
  atomicInstr (.amoAdd p d a v o sc z) p (s.me.rd a) n (fun old => some ((old + value) % 2 ^ (8 * n)))
    (fun old q => q.wr d (BitVec.ofNat 64 old)) s

/-- amo.swap: memory := value; d := old. -/
def execAmoSwap (p : BitVec 2) (d a v : BitVec 5) (o sc z : BitVec 2) (s : State) : Host.Outcome State Fault Refusal :=
  let n := amBytes z
  let value := (s.me.rd v).toNat
  atomicInstr (.amoSwap p d a v o sc z) p (s.me.rd a) n (fun _ => some (value % 2 ^ (8 * n)))
    (fun old q => q.wr d (BitVec.ofNat 64 old)) s

/-- amo.cas: memory := value if old = d; d := old. A failed cas writes no memory. -/
def execAmoCas (p : BitVec 2) (d a v : BitVec 5) (o sc z : BitVec 2) (s : State) : Host.Outcome State Fault Refusal :=
  let n := amBytes z
  let value := (s.me.rd v).toNat
  let expected := (s.me.rd d).toNat % 2 ^ (8 * n)
  atomicInstr (.amoCas p d a v o sc z) p (s.me.rd a) n (fun old => if old = expected then some (value % 2 ^ (8 * n)) else none)
    (fun old q => q.wr d (BitVec.ofNat 64 old)) s

/-- fence (R161, R244). -/
def execFence (p : BitVec 2) (o sc : BitVec 2) (s : State) : Host.Outcome State Fault Refusal :=
  seqInstr (.fence p o sc) p 5 (fun _ s => s.modMe Seq.advance) s

end Sys2Proof.Machine
end

