-- ==== Sys2Proof/Machine/Engine.lean ====
section
/-! DEFINITION. Sys2Proof/Machine/Engine.lean: engine jobs: cards and their checks (R266, R267, R426 to R433), the jobs
themselves (R427 to R434). A job's data moves in the step that completes it (log entry 24). -/

namespace Sys2Proof.Machine

/-! ### Cards (R426, R428, R429, R432) -/

/-- A field of a card. -/
def cardNat (card : List Byte) (lo n : Nat) : Nat := recNat card lo n

/-- Whether n bytes at a card's address lie in its space (R426): bit 63 names a scratch-window address. -/
def State.cardRange (s : State) (t : Nat) (addr n : Nat) : Bool :=
  if bitOf addr 63 then bitsOf addr 62 23 == 0 && (s.scratchPlace t (BitVec.ofNat 64 (addr % 2 ^ 63)) n).isSome
  else addr + n ≤ 2 ^ 52

/-- The memory tile whose window holds the card at a scratch-window address. -/
def State.cardTile (s : State) (t : Nat) (addr : DWord) : Option Nat := (s.scratchPlace t addr 64).map (fun x => x.1)

/-- The AG word of an xfm card. -/
def cardAg (card : List Byte) : BitVec 256 := BitVec.ofNat 256 (cardNat card 32 32)

/-- An open stream of a graph on a die. -/
def State.vstream (s : State) (die : Nat) (g : Word) (id : Nat) : Option VStream :=
  s.vstreams.find? (fun x => x.die == die && x.graph = g && x.id == id)

/-- Whether a stream is about to close: a queued card closes it (R432). -/
def closing (card : List Byte) : Bool := bitOf (cardNat card 29 1) 2

/-- The first failing row of R428, for the instruction with a sub-operation; t the issuing tile, m the memory tile that
holds the card. -/
def State.cardCode (s : State) (g : Word) (t m sub : Nat) (c : List Byte) : Option Nat :=
  let f := cardNat c
  let range (a n : Nat) : Bool := s.cardRange t a n
  -- dcmp and vdec name virtual addresses (R429, R432)
  let global (a n : Nat) : Bool := a + n ≤ 2 ^ 52
  let reserved := f 1 3 != 0 ||
    (match sub with
      | 0 => f 36 28 != 0
      | 1 => f 41 23 != 0
      | 2 => bitsOf (f 29 1) 7 3 != 0
      | _ => bitsOf (f 16 1) 7 4 != 0 || f 17 7 != 0 || bitsOf (f 24 4) 31 19 != 0 || f 28 4 != 0 || agReservedSet (cardAg c))
  let w := cardAg c
  let size := match s.window g m with
    | some x => x.size
    | none => 0
  let overrun := agMode w == 0 && agTransform w ≤ 7 && size < 4 * (f 24 4 % 2 ^ 19) + 4 * (agReadTokens w * agTokenWords w)
  let limits := match sub with
    | 0 => f 32 4 == 0 || !range (f 16 8) (f 32 4) || !range (f 24 8) (f 32 4)
    | 1 => f 32 4 == 0 || f 36 4 == 0 || !global (f 16 8) (f 32 4) || !global (f 24 8) (f 36 4)
    | 2 =>
      let flush := bitOf (f 29 1) 1
      (f 24 4 == 0) != flush || f 44 4 % 64 != 0 || (!flush && !global (f 16 8) (f 24 4)) || !global (f 32 8) (f 40 4) || !global (f 48 8) 1
    | _ => agWindowBad w size || agArrayBad w size || overrun || ((agTransform w == 0 || agTransform w == 1 || agTransform w == 4) && agAffineBad w)
  let options := match sub with
    | 0 => false
    | 1 => 2 < f 40 1
    | 2 => 1 < f 28 1
    | _ => agWrite w || agMode w != 0 || agReservedBad w || agTransformBad w size
  let agBusy := sub == 3 && (!((s.agNumbers m).drop (s.placedAgs m)).contains (f 16 1 % 16)
    || s.jobs.any (fun j => decide (j.engine = .xfm (tileOf m) (Fin.ofNat 16 (f 16 1))) && j.started))
  let known := (s.vstream (dieOf t) g (f 30 2)).isSome
  let stream := sub == 2 && known == bitOf (f 29 1) 0
  if f 0 1 ≠ sub + 1 then some 1
  else if reserved then some 2
  else if f 8 8 % 16 ≠ 0 || !range (f 8 8) 16 then some 3
  else if limits then some 4
  else if options then some 5
  else if agBusy then some 6
  else if stream then some 7
  else none

/-! ### Queueing (R266, R267) -/

/-- Jobs queued on an engine, the running one among them. -/
def State.queued (s : State) (e : EngineName) : Nat := (s.jobs.filter (fun j => decide (j.engine = e))).length

/-- The engine that a job goes to; none while every eligible queue is full (R267). -/
def State.chooseEngine (s : State) (g : Word) (t m sub : Nat) (c : List Byte) : Option EngineName :=
  let die := dieOf t
  let d : Fin 4 := Fin.ofNat 4 die
  match sub with
  | 0 => if s.queued (.copy (tileOf m)) < 8 then some (.copy (tileOf m)) else none
  | 1 => ((List.finRange 4).map (fun n => EngineName.dcmp d n)).find? (fun e => decide (s.queued e < 8))
  | 2 =>
    match s.vstream die g (cardNat c 30 2) with
    | some v => (let e : EngineName := .vdec d (Fin.ofNat 16 v.engine); if s.queued e < 4 then some e else none)
    | none => ((List.finRange 16).map (fun n => EngineName.vdec d n)).find? (fun e => decide (s.queued e < 4))
  | _ =>
    let e : EngineName := .xfm (tileOf m) (Fin.ofNat 16 (cardNat c 16 1))
    if s.queued e < 8 then some e else none

/-- A video engine's number. -/
def engineIndex : EngineName → Nat
  | .copy _ => 0
  | .dcmp _ n => n.val
  | .vdec _ n => n.val
  | .xfm _ n => n.val

/-- The stream that a first card opens (R432). -/
def State.openStream (s : State) (g : Word) (t sub : Nat) (e : EngineName) (c : List Byte) : State :=
  if sub = 2 && bitOf (cardNat c 29 1) 0 then
    { s with vstreams := s.vstreams ++ [⟨dieOf t, engineIndex e, cardNat c 30 2, g, cardNat c 28 1, [], []⟩] }
  else s

/-- A job queued with its card, on an engine that serves the memory tile; while every eligible queue is full the instruction stalls, and
keeps the card, which is read once (R266, R267). -/
def State.queueJob (s : State) (i : Instr) (sub : Nat) (k : BitVec 3) (m : Nat) (card : List Byte) : State :=
  let t := s.cur.val
  let n := strandOf k
  let g := s.gidOfTile t
  match s.chooseEngine g t m sub card with
  | none => s.stallMe i (.kept m card)
  | some eng =>
    let job : Job := ⟨eng, g, t, n.val, (s.myStrand n).active, card, false, none⟩
    { s.openStream g t sub eng card with jobs := s.jobs ++ [job] }.nextMe

/-- eng.copy, eng.dcmp, eng.vdec and eng.xfm (R266). -/
def engInstr (i : Instr) (p : BitVec 2) (sub : Nat) (a : BitVec 5) (k : BitVec 3) (s : State) : Host.Outcome State Fault Refusal :=
  seqInstr i p 5 (fun e s =>
    let addr := s.me.rd a ^^^ e
    let n := strandOf k
    let t := s.cur.val
    if addr.toNat % 64 ≠ 0 then s.trapMe 2 addr
    else
      match s.cardTile t addr with
      | none => s.trapMe 3 addr
      | some m =>
        if (s.myStrand n).state = .empty then s.cfgError 4 n.val 0
        else
          match s.seqLoad .scratch addr 64 with
          | (.trap code tval, s1) => s1.trapMe code tval
          | (.ok v, s1) =>
            let card := leBytes 64 v
            match s1.cardCode (s1.gidOfTile t) t m sub card with
            | some code => s1.cfgError 0xB n.val code
            | none => s1.queueJob i sub k m card) s

/-- eng.copy. -/
def execEngCopy (p : BitVec 2) (a : BitVec 5) (k : BitVec 3) (s : State) : Host.Outcome State Fault Refusal :=
  engInstr (.engCopy p a k) p 0 a k s

/-- eng.dcmp. -/
def execEngDcmp (p : BitVec 2) (a : BitVec 5) (k : BitVec 3) (s : State) : Host.Outcome State Fault Refusal :=
  engInstr (.engDcmp p a k) p 1 a k s

/-- eng.vdec. -/
def execEngVdec (p : BitVec 2) (a : BitVec 5) (k : BitVec 3) (s : State) : Host.Outcome State Fault Refusal :=
  engInstr (.engVdec p a k) p 2 a k s

/-- eng.xfm. -/
def execEngXfm (p : BitVec 2) (a : BitVec 5) (k : BitVec 3) (s : State) : Host.Outcome State Fault Refusal :=
  engInstr (.engXfm p a k) p 3 a k s

/-! ### A job's accesses (R133, R426, R434) -/

/-- How an access of a job ends. -/
inductive JobAccess where
  | ok
  | refused
  | uncorrectable
  | withhold (va : Nat) (write : Bool)
  deriving DecidableEq, Repr

/-- Whose access a job makes: a user-mode access in the graph's context. -/
def State.jobAgent (s : State) (j : Job) : Agent :=
  match s.run j.graph with
  | some r => ⟨dieOf j.tile, partOf r.part, r.ctx, true⟩
  | none => ⟨dieOf j.tile, 0, 0#16, true⟩

/-- The round that a record of a job names: the current round of the sequencer that issued it. -/
def State.jobRound (s : State) (j : Job) : Nat :=
  match s.run j.graph with
  | some r => r.currentRound j.tile
  | none => 0

/-- The record of an uncorrectable error that an engine reads (R427): it names the issuing sequencer. Its action is 0, logged only
(log entry 80). -/
def State.logJobError (s : State) (j : Job) (e : MemErr) : State :=
  match s.run j.graph with
  | none => s
  | some r =>
    let (syndrome, s1) := s.errSyndrome e
    (s1.logError (partOf r.part)
      { kind := 5, action := 0, graph := r.gid, unit := seqId j.tile, ctx := r.ctx, round := BitVec.ofNat 32 (s.jobRound j)
        timestamp := r.timestamp (s.jobRound j), address := e.address, syndrome := syndrome }).2

/-- A fault of a job's translation: a not-present page is withheld unless its request has been resolved as invalid. -/
def Job.faultEnd (j : Job) (va : Nat) (write : Bool) (x : XFault) : JobAccess :=
  match x, j.withheld with
  | .notPresent, some w => if w.cause.isSome && w.va / 4096 == va / 4096 then .refused else .withhold va write
  | .notPresent, none => .withhold va write
  | _, _ => .refused

/-- One byte read for a job. -/
def State.jobByte (s : State) (j : Job) (addr : Nat) : JobAccess × Byte × State :=
  if bitOf addr 63 then
    match s.scratchPlace j.tile (BitVec.ofNat 64 (addr % 2 ^ 63)) 1 with
    | none => (.refused, 0#8, s)
    | some (m, a) =>
      if s.padBad m a 1 then (.uncorrectable, 0#8, (s.padMet m a 1).logJobError j padErr)
      else (.ok, (s.padBytes m a 1).headD 0#8, s)
  else
    match s.virtRead (s.jobAgent j) addr 1 .read with
    | (.ok bs, s1) => (.ok, bs.headD 0#8, s1)
    | (.uncorrectable e, s1) => (.uncorrectable, 0#8, s1.logJobError j e)
    | (.fault x, s1) => (j.faultEnd addr false x, 0#8, s1)
    | (.poison table, s1) =>
      let g := s1.jobAgent j
      (.refused, 0#8, s1.logPoison g.part g.ctx j.graph (seqId j.tile) (s1.jobRound j) table)

/-- Bytes read for a job from an address up: those before the first that fails, and how it failed. -/
def State.jobRead (s : State) (j : Job) : Nat → Nat → JobAccess × List Byte × State
  | _, 0 => (.ok, [], s)
  | addr, n + 1 =>
    match s.jobByte j addr with
    | (.ok, b, s1) =>
      let (e, bs, s2) := State.jobRead s1 j (addr + 1) n
      (e, b :: bs, s2)
    | (e, _, s1) => (e, [], s1)

/-- One byte written for a job. -/
def State.jobPut (s : State) (j : Job) (addr : Nat) (b : Byte) : JobAccess × State :=
  if bitOf addr 63 then
    match s.scratchPlace j.tile (BitVec.ofNat 64 (addr % 2 ^ 63)) 1 with
    | none => (.refused, s)
    | some (m, a) => (.ok, s.padWrite m a [b])
  else
    match s.virtWrite (s.jobAgent j) addr [b] with
    | (.ok _, s1) => (.ok, s1)
    | (.fault x, s1) => (j.faultEnd addr true x, s1)
    | (.poison table, s1) =>
      let g := s1.jobAgent j
      (.refused, s1.logPoison g.part g.ctx j.graph (seqId j.tile) (s1.jobRound j) table)

/-- Bytes written for a job, counted. -/
def State.jobWrite (s : State) (j : Job) (addr : Nat) : Nat → List Byte → JobAccess × Nat × State
  | n, [] => (.ok, n, s)
  | n, b :: bs =>
    match s.jobPut j (addr + n) b with
    | (.ok, s1) => State.jobWrite s1 j addr (n + 1) bs
    | (e, s1) => (e, n, s1)

/-- Whether source byte i of a copy lies among the destination bytes already written: those before byte i, or those behind it where
the copy goes down (R430). -/
def copyOverwritten (src dst i : Nat) (down : Bool) : Bool := if down then dst + i < src + i else dst ≤ src + i && src < dst

/-- The writes of a copy, each byte with its index: where the ranges overlap, a byte already overwritten, which lies within n bytes of the
destination, gives either value (R430). k counts the bytes written. -/
def State.jobCopy (s : State) (j : Job) (src dst n : Nat) (down : Bool) : Nat → List (Nat × Byte) → JobAccess × Nat × State
  | k, [] => (.ok, k, s)
  | k, (i, b) :: bs =>
    let (v, s0) := if copyOverwritten src dst i down && src + i < dst + n && dst ≤ src + i then
        (let (take, s1) := s.choose
         if take then (match s1.jobByte j (src + i) with
           | (.ok, c, s2) => (c, s2)
           | (_, _, s2) => (b, s2)) else (b, s1))
      else (b, s)
    match s0.jobPut j (dst + i) v with
    | (.ok, s1) => State.jobCopy s1 j src dst n down (k + 1) bs
    | (e, s1) => (e, k, s1)

/-! ### Jobs (R427 to R433) -/

/-- How a job's work ends: with a status, a count and whether vdec wrote a picture; or withheld at a page. -/
inductive JobEnd where
  | done (status count : Nat) (picture : Bool)
  | withhold (va : Nat) (write : Bool)
  deriving DecidableEq, Repr

/-- The end that an access gives a job after n bytes. -/
def jobEndOf (e : JobAccess) (ok n : Nat) : JobEnd :=
  match e with
  | .ok => .done ok n false
  | .refused => .done 1 n false
  | .uncorrectable => .done 2 n false
  | .withhold va w => .withhold va w

/-- A copy (R430). Where its ranges overlap, it goes up or down. -/
def State.runCopy (s : State) (j : Job) : JobEnd × State :=
  let src := cardNat j.card 16 8; let dst := cardNat j.card 24 8
  let (e, bs, s1) := s.jobRead j src (cardNat j.card 32 4)
  match e with
  | .withhold va w => (.withhold va w, s1)
  | e =>
    let n := bs.length
    let meets := decide (dst < src ∧ src < dst + n)
    let (down, s1) := if meets then s1.choose else (false, s1)
    let xs := (List.range n).zip bs
    let (e2, n, s2) := s1.jobCopy j src dst n down 0 (if down then xs.reverse else xs)
    (match e2 with
    | .ok => (jobEndOf e 0 n, s2)
    | e2 => (jobEndOf e2 0 n, s2))

/-- A decompression (R431). -/
def State.runDcmp (s : State) (j : Job) : JobEnd × State :=
  let (e, bs, s1) := s.jobRead j (cardNat j.card 16 8) (cardNat j.card 32 4)
  match e with
  | .ok =>
    let cap := cardNat j.card 36 4
    let (out, status) := match cardNat j.card 40 1 with
      | 0 => lz4Block bs cap
      | 1 => inflate bs false cap
      | _ => inflate bs true cap
    let (e2, n, s2) := s1.jobWrite j (cardNat j.card 24 8) 0 out
    (jobEndOf e2 status n, s2)
  | e => (jobEndOf e 0 0, s1)

/-- The last n tokens of a pass of a job's AG word: the words of those before its first fault or error, and that token's status with
the failing words that it reads, none for a malformed block (R427, R430). -/
def State.xfmTokens (s : State) (g : Word) (m : Nat) (w : BitVec 256) : Nat → Word → List Word × Nat × List Nat
  | 0, _ => ([], 0, [])
  | n + 1, rng =>
    let tok := agReadToken w (s.windowWord g m) 0 rng (agReadTokens w - (n + 1))
    let bad := (tok.reads.map (s.windowByte g m)).filter (fun a => s.padBad m a 4)
    if !bad.isEmpty || tok.kind = 2 then ([], 2, bad)
    else if tok.kind = 1 then ([], 1, [])
    else
      let (ws, st, met) := State.xfmTokens s g m w n tok.rng
      (tok.words ++ ws, st, met)

/-- An AG transform (R430): one pass of the card's word. The words before a token that faults or reads an error stay written.
DESIGN CHOICE (log entry 76): under .rs a format conversion draws from a generator of the pass's own, which starts at a free
word and ends with the pass. -/
def State.runXfm (s : State) (j : Job) (m : Nat) : JobEnd × State :=
  let w := cardAg j.card
  let (ws, st, met) := s.xfmTokens j.graph m w (agReadTokens w) (Config.freeWord s.free)
  let s1 := ({ s with free := s.free + 1 } : State).padWrite m (s.windowByte j.graph m (cardNat j.card 24 4 % 2 ^ 19)) (wordsToBytes ws)
  (.done st (4 * ws.length) false,
    if st = 2 then (met.foldl (fun s a => s.padMet m a 4) s1).logJobError j (if met.isEmpty then ⟨0, 0, true⟩ else padErr) else s1)

/-! ### Video jobs (R432, R433) -/

/-- Ha: a picture's height rounded up to a multiple of 64. -/
def paddedHeight (h : Nat) : Nat := ceilDiv h 64 * 64

/-- Bytes of a sample as it is written: NV12 for eight-bit streams, P010 for ten-bit ones. -/
def sampleBytes (codec : Nat) (ins : List (List Byte)) : Nat := if Config.streamTenBit codec ins then 2 else 1

/-- A sample as it is written: a byte, or ten bits at the top of a little-endian half-word. -/
def sampleAs (codec : Nat) (ins : List (List Byte)) (v : BitVec 10) : List Byte :=
  if Config.streamTenBit codec ins then leBytes 2 (v.toNat * 64) else [v.setWidth 8]

/-- The rows of the picture that a card writes, each with its address: luma rows a pitch apart, and from luma + pitch × Ha the rows of
chroma pairs. -/
def pictureRows (codec : Nat) (ins : List (List Byte)) (refs : List Byte) (luma pitch : Nat) : List (Nat × List Byte) :=
  let (w, h) := Config.writtenSize codec ins
  let sample (p : Fin 3) (y x : Nat) : List Byte := sampleAs codec ins (Config.pictureSample codec ins refs p y x)
  (List.range h).map (fun y => (luma + pitch * y, (List.range w).flatMap (sample 0 y)))
    ++ (List.range (ceilDiv h 2)).map (fun y => (luma + pitch * (paddedHeight h + y),
      (List.range (ceilDiv w 2)).flatMap (fun x => sample 1 y x ++ sample 2 y x)))

/-- The status of a vdec card by what its stream is: a stream error, a feature or a size that the engines do not decode, a reference store
or a pitch that is too small. The contents of the reference store have no part in it. -/
def pictureStatus (codec : Nat) (ins : List (List Byte)) (pitch refsize : Nat) : Nat :=
  let (w, h) := Config.streamSize codec ins
  let (ww, hh) := Config.writtenSize codec ins
  let frames := if codec = 0 then 17 else 10
  if (Config.streamVerdict codec ins).val = 1 then 5
  else if (Config.streamVerdict codec ins).val = 2 || 8192 < w || 4352 < h then 6
  else if 2 * refsize < frames * pitch * paddedHeight hh * 3 || pitch < ww * sampleBytes codec ins then 7
  else 0

/-- The inputs of a card's stream with its own, as far as they can be read; a flush card has none. -/
def State.vdecInputs (s : State) (j : Job) : List (List Byte) :=
  let c := cardNat j.card
  match s.vstream (dieOf j.tile) j.graph (c 30 2) with
  | none => []
  | some v => v.inputs ++ [if bitOf (c 29 1) 1 then [] else (s.jobRead j (c 16 8) (c 24 4)).2.1]

/-- Whether a picture waits to be written when a card ends: only an input makes one. -/
def pictureWaits (codec : Nat) (ins : List (List Byte)) : Bool := ins.any (fun x => !x.isEmpty) && Config.pictureReady codec ins

/-- Rows written for a job, in order, up to the first that fails. -/
def State.jobRows (s : State) (j : Job) : List (Nat × List Byte) → JobAccess × State
  | [] => (.ok, s)
  | (a, bs) :: rs =>
    match s.jobWrite j a 0 bs with
    | (.ok, _, s1) => State.jobRows s1 j rs
    | (e, _, s1) => (e, s1)

/-- A stream after a card: closed with it, whether or not it failed, or with the card's input and tag (R432). -/
def State.cardDone (s : State) (j : Job) (v : VStream) (ins : List (List Byte)) : State :=
  let others := s.vstreams.filter (fun x => decide (x ≠ v))
  { s with vstreams := if closing j.card then others
      else others ++ [{ v with inputs := ins, tags := v.tags ++ [BitVec.ofNat 64 (cardNat j.card 56 8)] }] }

/-- A video job (R432, R433): the samples are free (Config), and so is what the engine leaves in its reference store. A flush card
with no picture waiting has status 0 (R435). -/
def State.runVdec (s : State) (j : Job) : JobEnd × State :=
  let c := cardNat j.card
  let flush := bitOf (c 29 1) 1
  match s.vstream (dieOf j.tile) j.graph (c 30 2) with
  | none => (.done 5 0 false, s)
  | some v =>
    let (e, bs, s1) := if flush then (.ok, [], s) else s.jobRead j (c 16 8) (c 24 4)
    match e with
    | .ok =>
      let ins := v.inputs ++ [bs]; let tags := v.tags ++ [BitVec.ofNat 64 (c 56 8)]
      let (e2, refs, s2) := s1.jobRead j (c 32 8) (c 40 4)
      let s2 := s2.cardDone j v ins
      let waits := pictureWaits v.codec ins
      let status := if flush && !waits then 0 else pictureStatus v.codec ins (c 44 4) (c 40 4)
      if status ≠ 0 then (.done status 0 false, s2)
      else
        match e2 with
        | .ok =>
          let (fresh, s3) := s2.drawBytes refs.length
          let (e3, _, s4) := if flush then (.ok, 0, s3) else s3.jobWrite j (c 32 8) 0 fresh
          let (e4, s5) := if waits then s4.jobRows j (pictureRows v.codec ins refs (c 48 8) (c 44 4)) else (.ok, s4)
          let tag := (tags.getD (Config.pictureInput v.codec ins % tags.length) 0#64).toNat
          (match e3, e4 with
          | .ok, .ok => (.done 0 (if waits then tag else 0) waits, s5)
          | .ok, e4 => (jobEndOf e4 0 0, s5)
          | e3, _ => (jobEndOf e3 0 0, s5))
        | e2 => (jobEndOf e2 0 0, s2)
    | e => (jobEndOf e 0 0, if closing j.card then s1.cardDone j v v.inputs else s1)

/-- A job's work. -/
def State.runJob (s : State) (j : Job) : JobEnd × State :=
  match j.engine with
  | .copy _ => s.runCopy j
  | .dcmp _ _ => s.runDcmp j
  | .vdec _ _ => s.runVdec j
  | .xfm m _ => s.runXfm j m.val

/-- The completion record (R427): status and count, the value last; a completion address whose page refuses the write
loses the record (log entry 24). -/
def State.jobRecord (s : State) (j : Job) (status count : Nat) (picture : Bool) : JobAccess × State :=
  let done := cardNat j.card 8 8
  let body := leBytes 4 (status + (if picture then 256 else 0)) ++ leBytes 8 count
  let (e, _, s1) := s.jobWrite j (done + 4) 0 body
  match e with
  | .ok =>
    let (e2, _, s2) := s1.jobWrite j done 0 (leBytes 4 (cardNat j.card 4 4))
    (e2, s2)
  | e => (e, s1)

/-- A job changed. -/
def State.modJob (s : State) (j : Job) (f : Job → Job) : State := { s with jobs := modifyFirst s.jobs (fun x => x == j) f }

/-- A job withheld at a not-present page (R434): its request names the issuing sequencer. -/
def State.withholdJob (s : State) (j : Job) (va : Nat) (write : Bool) : State :=
  let g := s.jobAgent j
  let (tag, s1) := s.pageFault g.part va g.ctx (if write then 1 else 0) (seqId j.tile) j.graph
  s1.modJob j (fun x => { x with withheld := some ⟨some tag, va, write, none⟩ })

/-- Whether a job's load runs (R396, R434). -/
def State.jobRuns (s : State) (j : Job) : Bool :=
  match s.run j.graph with
  | some r => r.works
  | none => false

/-- ENGINE_JOB_START (R267): the oldest queued job of an idle engine starts. -/
def execEngineJobStart (e : EngineName) (s : State) : Host.Outcome State Fault Refusal :=
  if s.jobs.any (fun j => decide (j.engine = e) && j.started) then .next s
  else
    match s.jobs.find? (fun j => decide (j.engine = e) && s.jobRuns j) with
    | none => .next s
    | some j => .next (s.modJob j (fun x => { x with started := true }))

/-- The ranges that a job reads, and those that it writes, in global memory. -/
def State.jobRanges (s : State) (j : Job) : List (Nat × Nat) × List (Nat × Nat) :=
  let c := cardNat j.card
  let global (l : List (Nat × Nat)) : List (Nat × Nat) := l.filter (fun x => !bitOf x.1 63)
  match j.engine with
  | .copy _ => (global [(c 16 8, c 32 4)], global [(c 24 8, c 32 4), (c 8 8, 16)])
  | .dcmp _ _ => ([(c 16 8, c 32 4)], global [(c 24 8, c 36 4), (c 8 8, 16)])
  | .vdec _ _ =>
    let ins := s.vdecInputs j
    let rows := match s.vstream (dieOf j.tile) j.graph (c 30 2) with
      | some v => if pictureWaits v.codec ins then (pictureRows v.codec ins [] (c 48 8) (c 44 4)).map (fun r => (r.1, r.2.length)) else []
      | none => []
    ([(c 16 8, c 24 4), (c 32 8, c 40 4)], global ([(c 32 8, c 40 4), (c 8 8, 16)] ++ rows))
  | .xfm _ _ => ([], global [(c 8 8, 16)])

/-- The first address of a range, or of a page of it, at which a job's write is withheld by a page move (R138, R435). -/
def State.jobHeld (s : State) (j : Job) : Option Nat :=
  let g := s.jobAgent j
  (s.jobRanges j).2.foldl (fun found x => match found with
    | some a => some a
    | none => ((x.1 :: s.moves.map (fun m => m.va) ++ s.hot.map (fun h => h.va)).filter (fun a => x.1 ≤ a && a < x.1 + x.2)).find? (s.heldWrite g)) none

/-- A job's 64-byte accesses to hot pages counted (R139). -/
def State.countJob (s : State) (j : Job) (ranges : List (Nat × Nat) × List (Nat × Nat)) : State :=
  let g := s.jobAgent j
  let s1 := ranges.1.foldl (fun (s : State) x => s.countRange g x.1 x.2 .read) s
  ranges.2.foldl (fun (s : State) x => s.countRange g x.1 x.2 .write) s1

/-- ENGINE_JOB_COMPLETE (R427): the running job of an engine ends, or is withheld at a page (R434), or until a page that it
writes has moved (R435). -/
def execEngineJobComplete (e : EngineName) (s : State) : Host.Outcome State Fault Refusal :=
  match s.jobs.find? (fun j => decide (j.engine = e) && j.started && s.jobRuns j) with
  | none => .next s
  | some j =>
    let waits := match j.withheld with
      | some w => w.tag.isSome && w.cause.isNone
      | none => false
    if waits then .next s
    else if (s.jobHeld j).isSome then .next (s.holdWrite (s.jobAgent j) ((s.jobHeld j).getD 0))
    else
      match s.runJob j with
      | (.withhold va w, _) => .next (s.withholdJob j va w)
      | (.done status count pic, s1) =>
        match s1.jobRecord j status count pic with
        | (.withhold va w, _) => .next (s.withholdJob j va w)
        | (_, s2) => .next ({ s2 with jobs := s2.jobs.erase j }.countJob j (s.jobRanges j))

end Sys2Proof.Machine
end

