-- ==== Sys2Proof/Machine/Launch.lean ====
section
/-! DEFINITION. Sys2Proof/Machine/Launch.lean: dispatch and relaunch (R95, R345 to R352, R360, R441 to R444, R456, R464): reading
and binding a graph object, placing a fabric load, consuming a record. -/

namespace Sys2Proof.Machine

/-! ### Launch records (R344) -/

/-- A launch record out of its 64 bytes. -/
def launchRec (bs : List Byte) : LaunchRec where
  seq := BitVec.ofNat 32 (recNat bs 0 4)
  priority := BitVec.ofNat 8 (recNat bs 4 1)
  flags := BitVec.ofNat 8 (recNat bs 5 1)
  demand := BitVec.ofNat 16 (recNat bs 6 2)
  graph := BitVec.ofNat 64 (recNat bs 8 8)
  args := BitVec.ofNat 64 (recNat bs 16 8)
  seed := BitVec.ofNat 64 (recNat bs 24 8)
  tsbase := BitVec.ofNat 32 (recNat bs 32 4)
  deadline := BitVec.ofNat 32 (recNat bs 36 4)
  ev0 := BitVec.ofNat 64 (recNat bs 40 8)
  ev1 := BitVec.ofNat 64 (recNat bs 48 8)
  th0 := BitVec.ofNat 32 (recNat bs 56 4)
  th1 := BitVec.ofNat 32 (recNat bs 60 4)

/-- The 64 bytes of a launch record. -/
def LaunchRec.bytes (r : LaunchRec) : List Byte :=
  leBytes 4 r.seq.toNat ++ leBytes 1 r.priority.toNat ++ leBytes 1 r.flags.toNat ++ leBytes 2 r.demand.toNat
    ++ leBytes 8 r.graph.toNat ++ leBytes 8 r.args.toNat ++ leBytes 8 r.seed.toNat ++ leBytes 4 r.tsbase.toNat
    ++ leBytes 4 r.deadline.toNat ++ leBytes 8 r.ev0.toNat ++ leBytes 8 r.ev1.toNat ++ leBytes 4 r.th0.toNat ++ leBytes 4 r.th1.toNat

/-- A graph ID (R347). -/
def graphId (p queue : Nat) (seq : Word) : Word := BitVec.ofNat 32 (p * 2 ^ 28 + queue * 2 ^ 22 + seq.toNat % 2 ^ 22)

/-! ### Reading and binding an object -/

/-- What reading an object gives: it cannot be read, the lowest load error code of its bytes with them, or its bytes. -/
inductive ObjectRead where
  | unreadable
  | code (n : Nat) (o : List Byte)
  | ok (o : List Byte)

/-- The dispatch unit as it reads and writes for a graph: in the queue's context, not in user mode. -/
def State.unitAgent (s : State) (p : Fin 16) (ctx : Half) : Agent := ⟨s.homeDie p, p, ctx, false⟩

/-- A graph object read and checked (R346, R448). -/
def State.readObject (s : State) (p : Fin 16) (ctx : Half) (va : Nat) : ObjectRead × State :=
  let g := s.unitAgent p ctx
  if va % 64 ≠ 0 then (.unreadable, s)
  else
    match s.virtGet g noUnit va 64 with
    | (none, s1) => (.unreadable, s1)
    | (some h, s1) =>
      let length := recNat h 24 8
      if recNat h 0 4 ≠ 0x52504441 || 1 < recNat h 4 2 || length < 64 then (.code 0x0101 h, s1)
      else
        match s1.virtGet g noUnit va length with
        | (none, s2) => (.unreadable, s2)
        | (some o, s2) =>
          match lowestCode (objectCodes o length va (s2.part p).emask) with
          | some c => (.code c o, s2)
          | none => (.ok o, s2)

/-- What binding an object at an origin gives: the placement is not feasible, a load error code, or the graph with its
images and their bytes. -/
inductive Bound where
  | infeasible
  | code (n : Nat)
  | ok (g : Graph) (x : Placed) (images : List (List Byte))

/-- The sides of a compute tile that face a memory tile (R443). -/
def sideSignature (t : Nat) : BitVec 4 :=
  BitVec.ofNat 4 ((List.range 4).foldl (fun acc k => if (facing t k).isSome then acc + 2 ^ k else acc) 0)

/-- The key of a translation (R444): the digest of the portable object, the part revision, the side signature, the eclipsed-unit set and
the partition's emulation mask. -/
def translationKey (o : List Byte) (sides : List (BitVec 4)) (avoid : List Word) (mask : List Half) : List Byte :=
  (Config.sha512 o).toList ++ leBytes 4 Config.partRevision.toNat ++ sides.map (fun t => t.setWidth 8)
    ++ avoid.flatMap (fun u => leBytes 4 u.toNat) ++ (sortBy BitVec.toNat (dedup mask)).flatMap (fun e => leBytes 2 e.toNat)

/-- The images of an object at an origin: its own, those that the translation cache holds, or new ones (R442, R444). -/
def State.imagesFor (s : State) (o : List Byte) (va : Nat) (sides : List (BitVec 4)) (avoid : List Word) (mask : List Half) : List (List Byte) :=
  let fresh := imagesOf o va sides avoid (emulatedOf o mask)
  if isNative o then fresh
  else
    match s.xlcache.find? (fun e => decide (e.key = translationKey o sides avoid mask)) with
    | some e => e.images
    | none => fresh

/-- How a translation fails: 0 it does not, 3 where a class has too few units, 2 where it has for the units but not for their spares
(R371, R448), and beyond what can be counted as the part says. -/
def translationEnd (o : List Byte) (bare : Graph) (x : Placed) (sides : List (BitVec 4)) (avoid : List Word) (emulated : List Half) : Nat :=
  if isNative o then 0
  else if classShort bare x avoid false then 3
  else if classShort bare x avoid true then 2
  else (Config.translationFails o sides avoid emulated).val

/-- An object bound and judged at an origin for its fabric load (R349, R442, R443, R476). avoid is the eclipsed-unit set
of relaunch_degraded. -/
def State.bindAt (s : State) (p : Fin 16) (o : List Byte) (va : Nat) (avoid : List Word) (origin load : Nat) : Bound :=
  let emulated := emulatedOf o (s.part p).emask
  let bare := graphOf o va [] emulated
  match placeAt bare origin with
  | none => .infeasible
  | some x =>
    let sides := x.tiles.map (fun t => sideSignature t.2)
    let images := s.imagesFor o va sides avoid (s.part p).emask
    let g := graphOf o va images emulated
    let full := relocated o va
    let blocks := (allBlocks (isNative o) (graphBytes o)).map (nativeBlock (graphBytes full))
    let fails := translationEnd o (graphOf o va blocks emulated) x sides avoid emulated
    if fails ≠ 0 then (if s.feasible p bare x then .code (0x0303 + fails) else .infeasible)
    else if !s.feasible p g x then .infeasible
    else
      match lowestCode (s.placementCodes g x) with
      | some c => .code c
      | none => if s.channelsFree g load x.tiles then .ok g x images else .infeasible

/-- The code that is reported for an object with a load error: the lowest, those of its placement at an origin among them (R448). -/
def State.loadCode (s : State) (p : Fin 16) (o : List Byte) (va : Nat) (avoid : List Word) (origin load code : Nat) : Nat :=
  if code ≤ 0x0303 then code
  else
    match s.bindAt p o va avoid origin load with
    | .code c => min c code
    | _ => code

/-- Whether an object does not state its footprint's compute tiles as its record's demand does (R346). -/
def demandBad (o : List Byte) (r : LaunchRec) : Bool := gNc (graphBytes o) != r.demand.toNat

/-- The entry of a translation in the cache (R444). -/
def cacheEntry (o : List Byte) (x : Placed) (avoid : List Word) (mask : List Half) (images : List (List Byte)) : XlEntry :=
  ⟨translationKey o (x.tiles.map (fun t => sideSignature t.2)) avoid mask, o.length + (images.map List.length).foldl (· + ·) 0, images⟩

/-- Entries kept, most recently used first, while they fit (R444). -/
def keepFitting : Nat → List XlEntry → List XlEntry
  | _, [] => []
  | room, e :: es => if e.size ≤ room then e :: keepFitting (room - e.size) es else []

/-- The translation cache after a translation (R444): 64 MiB, the least recently used entry evicted. -/
def State.cacheTranslation (s : State) (e : XlEntry) : State :=
  { s with xlcache := keepFitting (64 * 2 ^ 20) (e :: s.xlcache.filter (fun x => decide (x.key ≠ e.key))) }

/-- The native image areas of a portable object with their images; none where it names no area (R438, R441). -/
def imageAreas (g : Graph) (images : List (List Byte)) : List (Nat × List Byte) :=
  if g.native || g.nia = 0 then [] else (List.range images.length).map (fun b => (g.nia + 4096 * b, images.getD b []))

/-- The native images of a portable object written to its native image area (R441); whether every write went through. -/
def State.writeImages (s : State) (g : Agent) : List (Nat × List Byte) → Bool × State
  | [] => (true, s)
  | x :: xs =>
    match s.virtPut g noUnit x.1 x.2 with
    | (true, s1) => State.writeImages s1 g xs
    | (false, s1) => (false, s1)

/-- One field of an object resolved in memory (R218); whether its write went through. -/
def State.relocate (s : State) (g : Agent) (o : List Byte) (va : Nat) (r : Nat × Reloc) : Bool × State :=
  match relocValue o va r with
  | none => (true, s)
  | some (bytes, _, _) =>
    let a := relocAddress o va r
    s.virtPut g noUnit a (((relocated o va).drop (a - va)).take bytes)

/-- Every relocation of an object resolved in memory. -/
def State.relocateAll (s : State) (g : Agent) (o : List Byte) (va : Nat) : List (Nat × Reloc) → Bool × State
  | [] => (true, s)
  | r :: rs =>
    match s.relocate g o va r with
    | (true, s1) => State.relocateAll s1 g o va rs
    | (false, s1) => (false, s1)

/-! ### Placing a fabric load (R351 steps 2 and 4 to 6, R352, R464) -/

/-- Whether the loader runs a load at D = 1 (R153). DESIGN CHOICE (log entry 89): an indexed window with private = 1 counts as a tile store
with private = 1 and lets the load keep its depth. -/
def State.singleDepth (s : State) (g : Graph) (load : Nat) : Bool :=
  let mine := g.blockList.filter (fun b => match g.strands[b.strand]? with
    | some e => e.load == load
    | none => false)
  s.harebell || mine.any (fun b => b.image.serial || !(b.image.withOp 0xA2).isEmpty
    || (List.range b.image.count).any (fun u => match g.agWord (b.image.unit u) with
      | some w => agMode w != 0 || !agPrivate w
      | none => false))

/-- The strand-table entries of a load on a tile of the footprint, with their ordinals. -/
def Graph.entriesOn (g : Graph) (load foot : Nat) : List (Nat × StrandEntry) :=
  ((List.range g.strands.length).zip g.strands).filter (fun x => x.2.load == load && x.2.tile == foot)

/-- A strand as a load is placed (R246). -/
def strandOfEntry (j : Nat) (e : StrandEntry) (first : Nat) : Strand :=
  { used := true, ordinal := j, exitTable := e.exitTable, blocks := e.blocks, blockTable := e.blockTable
    region := e.region ++ 0#64, roundCount := first }

/-- What local RAM holds at the start of a load (R351 step 4). -/
def startRam (r : Run) : Memory :=
  let base := Memory.writeN [] 0 (r.launch.bytes ++ leBytes 4 r.gid.toNat ++ leBytes 4 r.first ++ leBytes 4 r.load ++ leBytes 4 r.origin.toNat)
  r.graph.data.foldl (fun m d => if d.1 + d.2.length ≤ 65536 then Memory.writeN m d.1 d.2 else m) base

/-- A sequencer as a load starts it (R187, R351 step 6); a load without an entry has no sequencer, which so has ended its
part. -/
def startSeq (r : Run) (q : Seq) : Seq :=
  let entry := r.graph.entries.getD r.load none
  { Seq.reset with
    pc := BitVec.ofNat 64 (entry.getD 0 / 4 * 4), ctx := r.ctx, ram := startRam r, mode := if entry.isSome then .running else .ended
    il1 := q.il1, aluErr := q.aluErr, lateErr := q.lateErr, slow := q.slow, minority := q.minority, shoots := q.shoots }

/-- A compute tile as a load is placed on it: block 0 of the k-th strand in context k. -/
def startTile (r : Run) (foot : Nat) (t : Tile) : Tile :=
  let es := r.graph.entriesOn r.load foot
  { seq := startSeq r t.seq
    ctxs := Vector.ofFn (fun c => match es[c.val]? with
      | some (j, _) => { image := r.graph.imageAt j 0, block := some (j, 0) }
      | none => {})
    strands := Vector.ofFn (fun k => match es[k.val]? with
      | some (j, e) => strandOfEntry j e r.first
      | none => {})
    core := { kept := [(r.first, 0)], peErr := t.core.peErr } }

/-- The placements of AG words that a load makes (R476). -/
def startPlaces (g : Graph) (load : Nat) (x : Placed) : List Place :=
  (agPlaces g x).filterMap (fun a => match (if a.load = load then a.mtile else none) with
    | some m => some {
        mtile := m, tile := a.tile, strand := a.strand, block := a.block, unit := a.unit, word := a.word
        step := 0, passes := 0, kept := [], pending := [], perBuf := [], indexed := indexedOp a.op }
    | none => none)

/-- The FIFOs of a graph (R466), each with the fabric load that its reader belongs to (R107). -/
def startFifos (g : Graph) (x : Placed) : List Fifo :=
  let l := agPlaces g x
  l.filterMap (fun a => match a.mtile with
    | some m =>
      if agMode a.word = 1 && agWrite a.word then
        some { mtile := m, base := agBase a.word, extent := agExtent a.word, spill := agSpill a.word, items := [], written := 0
               reader := match l.find? (fun b => a.groups b && !agWrite b.word) with
                 | some b => b.load
                 | none => a.load }
      else none
    | none => none)

/-- The streams of a graph (R317, R440). -/
def startStreams (g : Graph) (first : Nat) : List Stream :=
  g.streams.map (fun e => ⟨e.number, e.sink, e.source, e.slots, [], [], first, first, false, false, 0⟩)

/-- Where a graph's footprint lies, out of its origin. -/
def Run.placed (r : Run) : Option Placed := (originTile r.origin.toNat).bind (fun o => placeAt r.graph o)

/-- The tile of each M-class unit of a load, in bind-section order (R137). -/
def Graph.memoryUnits (g : Graph) (load : Nat) (tiles : List (Nat × Nat)) : List Nat :=
  g.blockList.flatMap (fun b =>
    match g.strands[b.strand]? with
    | none => []
    | some e =>
      match (if e.load = load then tiles.find? (fun x => x.1 == e.tile) else none) with
      | none => []
      | some t => ((List.range b.image.count).filter (fun u => decide (opClass (uOp (b.image.unit u)) = some .m))).map (fun _ => t.2))

/-- The round before a load's first, as far as a later marker's timestamp is held against it (R95, R140). -/
def carriedRounds (r : Run) : List RoundInfo :=
  (r.rounds.filter (fun i => i.number + 1 == r.first)).map (fun i => { number := i.number, timestamp := i.timestamp })

/-- The fabric load of a graph placed whole on its tiles: steps 4 to 6 of R351, and R137. -/
def State.placeLoad (s : State) (g : Word) : State :=
  match s.run g with
  | none => s
  | some r =>
    match r.placed with
    | none => s
    | some x =>
      let depth := if s.singleDepth r.graph r.load then 1 else r.graph.depth
      let s1 := s.modRun g (fun y => { y with
        oldest := y.first, depth := depth, rounds := carriedRounds y, stores := [], ports := [], places := startPlaces r.graph r.load x
        sinks := [], launches := [], freeze := none, frozen := false, fault := none, replays := []
        lastFire := s.ns
        streams := y.streams.map (fun z => { z with wrote := max z.wrote r.first, read := max z.read r.first, sent := [] }) })
      let s2 := r.tiles.foldl (fun s t => s.modTile (tileOf t.2) (startTile { r with depth := depth } t.1)) s1
      ((r.graph.memoryUnits r.load r.tiles).foldl (fun (acc : List Nat × State) t =>
        acc.2.bindPages ⟨dieOf t, partOf r.part, r.ctx, false⟩ (computeX t) g acc.1) ([], s2)).2

/-- Windows allocated on the memory tiles of a footprint (R112). -/
def State.allocate (s : State) (g : Word) (ms : List (Nat × Nat × Nat)) : State :=
  ms.foldl (fun s m => match windowBase (s.mtile m.2.1).windows m.2.2 with
    | some b => s.modMTile m.2.1 (fun t => { t with windows := t.windows ++ [⟨g, b, m.2.2⟩] })
    | none => s) s

/-- A graph ends at once where its record or its word is bad (R456). -/
def State.endAtOnce (s : State) (g : Word) : State :=
  match s.run g with
  | none => s
  | some r => s.completeRun r 0x10 0#8

/-- A run started: its tiles held, its windows allocated, its word written, its load placed (R351 steps 2 to 6). -/
def State.startRun (s : State) (r : Run) (x : Placed) : State :=
  let s1 := { s with runs := s.runs ++ [r] }.allocate r.gid x.mtiles
  if r.launch.args.toNat % 4 ≠ 0 then s1.endAtOnce r.gid
  else
    match s1.writeRoundWord r r.first with
    | (false, s2) => s2.endAtOnce r.gid
    | (true, s2) => s2.placeLoad r.gid

/-- The lowest free running slot of a partition. -/
def State.freeSlot (s : State) (p : Fin 16) : Nat :=
  ((List.range 32).find? (fun k => !(s.slotsUsed p).contains k)).getD 0

/-- A run of a bound graph from a first round on. -/
def newRun (p : Fin 16) (slot queue : Nat) (gid : Word) (ctx : Half) (rec_ : LaunchRec) (relaunches load first : Nat)
    (last : Option Nat) (g : Graph) (x : Placed) (now : Nat) : Run where
  part := p.val
  slot := slot
  gid := gid
  queue := queue
  ctx := ctx
  launch := rec_
  origin := BitVec.ofNat 32 (originOf x.origin)
  relaunches := relaunches
  graph := g
  native := g.native
  load := load
  tiles := x.tiles
  first := first
  oldest := first
  depth := g.depth
  lastCommitted := last
  rounds := []
  stores := []
  ports := []
  streams := startStreams g first
  places := []
  fifos := startFifos g x
  sinks := []
  flags := 0#8
  suspect := noUnit
  log := 0xFFFF_FFFF#32
  startNs := now
  quantumNs := now
  lastFire := now
  launches := []
  freeze := none
  frozen := false
  fault := none
  faultSunk := none
  replays := []
  hostKilled := false
  eclipseAtEnd := []

/-! ### Consuming a record (R346) -/

/-- A queue's head consumed: it advances by one, and the head shadow, when set, receives it. -/
def State.consume (s : State) (p : Fin 16) (q : Fin 64) : State :=
  let x := (s.part p).queues[q]
  let s1 := s.modQueue p q (fun y => { y with head := y.head + 1#32, eligible := none, deadlineSent := false })
  if x.shadow = 0#64 then s1
  else (s1.virtPut (s1.unitAgent p x.ctx) noUnit x.shadow.toNat (leBytes 8 (x.head + 1#32).toNat)).2

/-- A record consumed with a failed check: its completion record, and no tiles (R346). log is 0x8000_0000 + code for a
load error (R448). -/
def State.failRecord (s : State) (p : Fin 16) (q : Fin 64) (rec_ : LaunchRec) (status : Nat) (log : Word) : State :=
  let s1 := s.consume p q
  let bytes := completionBytes (graphId p.val q.val rec_.seq) status 0 rec_.seq 0xFFFF_FFFF#32 noUnit log s1.ns
  let (held, s2) := s1.putCompletion p bytes
  if held then s2.modPart p (fun x => { x with heldTiles := x.heldTiles ++ [(graphId p.val q.val rec_.seq, [])] }) else s2

/-- The log field of a load error. -/
def loadLog (code : Nat) : Word := BitVec.ofNat 32 (0x8000_0000 + code)

/-- A dispatch of an eligible head at a compute tile (R346, R351): none where the decision is rejected; the answer says
whether it was carried out. A load error comes before a footprint that differs from the record's demand (R346). DESIGN CHOICE
(log entry 72): where a relocated field cannot be written, the object counts as one that cannot be read. -/
def State.dispatch (s : State) (p : Fin 16) (q : Fin 64) (origin : Nat) : Option (Bool × State) :=
  let x := (s.part p).queues[q]
  match x.eligible with
  | none => none
  | some (rec_, _) =>
    let va := rec_.graph.toNat
    match s.readObject p x.ctx va with
    | (.unreadable, s1) => some (false, s1.failRecord p q rec_ 0x0F 0xFFFF_FFFF#32)
    | (.code c o, s1) => some (false, s1.failRecord p q rec_ 0x0F (loadLog (s1.loadCode p o va [] origin 0 c)))
    | (.ok o, s1) =>
      let mismatch := some (false, s1.failRecord p q rec_ 0x10 0xFFFF_FFFF#32)
      match s1.bindAt p o va [] origin 0 with
      | .code c => some (false, s1.failRecord p q rec_ 0x0F (loadLog c))
      | .infeasible => if demandBad o rec_ then mismatch else none
      | .ok g pl images =>
        if demandBad o rec_ then mismatch
        else
          let agent := s1.unitAgent p x.ctx
          let s2 := if g.native then s1 else s1.cacheTranslation (cacheEntry o pl [] (s1.part p).emask images)
          match s2.writeImages agent (imageAreas g images) with
          | (false, s3) => some (false, s3.failRecord p q rec_ 0x0F 0xFFFF_FFFF#32)
          | (true, s3) =>
            match s3.relocateAll agent o va (relocsOf o) with
            | (false, s4) => some (false, s4.failRecord p q rec_ 0x0F 0xFFFF_FFFF#32)
            | (true, s4) =>
              let gid := graphId p.val q.val rec_.seq
              let s5 := s4.consume p q
              let r := newRun p (s5.freeSlot p) q.val gid x.ctx rec_ 0 0 0 none g pl s5.ns
              some (true, s5.startRun r pl)

/-! ### Relaunch (R359, R360) -/

/-- The tiles, windows and jobs of a graph freed while the graph stays known (R352): the eclipses that wait for the end of
its load take effect (R373). -/
def State.release (s : State) (r : Run) : State :=
  let s1 := r.tiles.foldl (fun acc x => acc.modTile (tileOf x.2) (fun t => { t with seq := t.seq.boundary.idle, strands := Vector.replicate 8 {} })) s
  let s2 := { s1 with
    mtiles := s1.mtiles.map (fun (m : MTile) => { m with windows := m.windows.filter (fun w => decide (w.graph ≠ r.gid)) })
    jobs := s1.jobs.filter (fun j => decide (j.graph ≠ r.gid)) }
  (s2.addEclipses r.eclipseAtEnd).modRun r.gid (fun y => { y with tiles := [], eclipseAtEnd := [] })

/-- A relaunch that ends in a load error: the graph completes with its tiles freed, as any graph (R354, R448). -/
def State.relaunchFailed (s : State) (r : Run) (log : Word) : State :=
  { s with runs := s.runs ++ [r] }.completeRun { r with log := log } 0x0F 0#8

/-- A graph dispatched again at a compute tile (R360), its accesses that wait discarded with the rest: none where the decision
is rejected. -/
def State.relaunch (s : State) (r : Run) (degraded : Bool) (origin : Nat) : Option State :=
  let p := partOf r.part
  let s0 := ((s.release r).dropRun r.gid).modPart p (fun x => { x with faults := x.faults.filter (fun f => decide (f.graph ≠ r.gid)) })
  let va := r.launch.graph.toNat
  let avoid := if degraded then sortBy BitVec.toNat (dedup s0.eclipse) else []
  match s0.readObject p r.ctx va with
  | (.unreadable, s1) => some (s1.relaunchFailed r r.log)
  | (.code c o, s1) => some (s1.relaunchFailed r (loadLog (s1.loadCode p o va avoid origin r.load c)))
  | (.ok o, s1) =>
    if degraded && isNative o then none
    else
      match s1.bindAt p o va avoid origin r.load with
      | .infeasible => none
      | .code c => some (s1.relaunchFailed r (loadLog c))
      | .ok g pl images =>
        let agent := s1.unitAgent p r.ctx
        let s2 := if g.native then s1 else s1.cacheTranslation (cacheEntry o pl avoid (s1.part p).emask images)
        let (written, s3) := s2.writeImages agent (imageAreas g images)
        let (resolved, s4) := s3.relocateAll agent o va (relocsOf o)
        let first := match r.lastCommitted with
          | some n => n + 1
          | none => 0
        let fresh := newRun p (s4.freeSlot p) r.queue r.gid r.ctx r.launch (r.relaunches + 1) r.load first r.lastCommitted g pl s4.ns
        let run := { fresh with suspect := r.suspect, log := r.log, flags := r.flags }
        some (if written && resolved then s4.startRun run pl else s4.relaunchFailed r r.log)

end Sys2Proof.Machine
end

