-- ==== Sys2Proof/Machine/Save.lean ====
section
/-! DEFINITION. Sys2Proof/Machine/Save.lean: freezes (R396, R397, R73), the context scan and its record (R398 to R400), the
page-fault limit (R134, R136), and restore (R401). -/

namespace Sys2Proof.Config

/-- The tile that a save record gives where software has changed its payload: R401 restores it as it is read, and the
payload's format is the part's own (log entry 2). -/
opaque restoredTile : (record : List Byte) → (foot : Nat) → Machine.Tile

/-- A byte of a scratchpad window that such a record gives. -/
opaque restoredByte : (record : List Byte) → (foot : Nat) → (offset : Nat) → Byte

/-- What the sections of types 0x07 to 0x09 of such a record give: the AG positions, the FIFOs, the rounds, the buffered stores, the
pending launches and the paused jobs. -/
opaque restoredPlaces : (record : List Byte) → List Machine.Place
opaque restoredFifos : (record : List Byte) → List Machine.Fifo
opaque restoredRounds : (record : List Byte) → List Machine.RoundInfo
opaque restoredStores : (record : List Byte) → List Machine.BufStore
opaque restoredLaunches : (record : List Byte) → List Machine.PendingLaunch
opaque restoredJobs : (record : List Byte) → List Machine.Job

end Sys2Proof.Config

namespace Sys2Proof.Machine

/-! ### Freeze (R396, R397) -/

/-- Whether a strand's active block waits for a memory reply. -/
def State.awaitsReply (s : State) (p : Fin 192 × Fin 8) : Bool :=
  match s.rctx p.1 p.2 with
  | some x => ((s.strand p.1 p.2).block x.key).any (fun u => !u.requests.isEmpty)
  | none => false

/-- A frozen tile's sequencer: the freeze is a block boundary (R404, R405), and the watchdog counts restart (R392). -/
def State.freezeTile (s : State) (t : Nat) : State :=
  let now := s.tileCycles t
  s.modSeq (tileOf t) (fun q => { q.boundary with
    svSince := now, stall := q.stall.map (fun x => { x with since := now }) })

/-- Whether a unit of a strand has an access outstanding, withheld accesses and stores among them (R103, R151). -/
def State.strandBusy (s : State) (p : Fin 192 × Fin 8) : Bool :=
  (s.strand p.1 p.2).units.any (fun u => u.2.any (fun y => !y.requests.isEmpty || y.withheld.isSome || y.storeWait))

/-- Whether an instruction writes memory directly. -/
def writesMemory : Instr → Bool
  | .st _ _ _ _ _ _ | .stOrdered _ _ _ _ _ _ | .amoAdd _ _ _ _ _ _ _ | .amoSwap _ _ _ _ _ _ _ | .amoCas _ _ _ _ _ _ _ => true
  | .evAdd .. => true
  | _ => false

/-- Whether a sequencer waits with a store, an atomic or the routine of a misaligned access withheld at a page that moves, which
makes the access outstanding (R138). -/
def Seq.storeOutstanding (q : Seq) : Bool :=
  (q.sv && decide (q.cause = 2#64)) || (match q.stall with
    | some x => decide (x.kind = .retry) && writesMemory x.instr
    | none => false)

/-- Whether a load stands still: no unit has fired for 65,536 cycles, and nothing of it is outstanding (R103), the moves of its
buffers' pages among that (R137). -/
def State.standsStill (s : State) (r : Run) : Bool :=
  r.tiles.all (fun t => decide (65536 ≤ s.cyclesSince (islandOf t.2) r.lastFire))
    && !(s.strandsOf r).any s.strandBusy
    && !r.tiles.any (fun t => (s.seq (tileOf t.2)).storeOutstanding)
    && !(s.part (partOf r.part)).faults.any (fun f => decide (f.graph = r.gid))
    && !s.jobs.any (fun j => decide (j.graph = r.gid)) && !s.pagesMove r.gid

/-- A timestamp fault goes to on_fault when its load has frozen (R141). -/
def State.deliverTimestamp (s : State) (g : Word) : State :=
  match s.run g with
  | some r => (match r.freeze, r.fault with
    | some .timestamp, some f => s.deliverFault (partOf r.part) { f with lastRound := r.lastRoundWord }
    | _, _ => s)
  | none => s

/-- FREEZE (R396): a load that is asked to freeze is frozen once every outstanding reply has landed; a load that is killed
then frees its tiles (R352, R397); one with a timestamp fault first commits the earlier rounds, unless it stands still
without that (R141, log entry 59). -/
def execFreeze (g : BitVec 32) (s : State) : Host.Outcome State Fault Refusal :=
  match s.run g with
  | none => .next s
  | some r =>
    if r.freeze.isNone || r.frozen || (s.strandsOf r).any s.awaitsReply || (r.finishing && !s.standsStill r) then .next s
    else
      let s1 := r.tiles.foldl (fun s t => s.freezeTile t.2) s
      let s2 := s1.modRun g (fun y => { y with frozen := true, lastFire := s.ns })
      .next (if r.freeze = some .kill then (s2.release r).trigger (partOf r.part) .dispatch 0x02 0xFFFF_FFFF#32
        else s2.deliverTimestamp g)

/-! ### The save area (R398, R400) -/

/-- Rs: the bytes of one of the 32 records of a partition's save area. -/
def Part.recordRoom (x : Part) : Nat := x.saveSize / 32 / 4096 * 4096

/-- B: what a load's record may take. -/
def Run.saveBound (r : Run) : Nat :=
  4 * 1024 + 256 * 1024 * r.graph.compute.length + ((r.graph.memory.map (fun m => m.size + 320 * 1024)).foldl (· + ·) 0)

/-- Whether a load's record fits the save area of its partition. -/
def State.saveFits (s : State) (r : Run) : Bool :=
  let x := s.part (partOf r.part)
  decide (x.saveSize ≠ 0) && decide (r.saveBound ≤ x.recordRoom)

/-! ### The save record (R398, R399) -/

/-- The section types and footprint indices of a load's record (log entry 30). -/
def saveSections (r : Run) : List (Nat × Nat) :=
  (List.range r.graph.compute.length).flatMap (fun i => [(1, i), (2, i), (3, i), (4, i), (5, i)])
    ++ (List.range r.graph.memory.length).flatMap (fun i => [(6, i), (7, i), (8, i)]) ++ [(9, 0)]

/-- n free lengths within a budget. -/
def saveLengths : Nat → Nat → Nat → List Nat
  | _, _, 0 => []
  | free, budget, n + 1 =>
    let len := Config.freeNat free % (budget + 1)
    len :: saveLengths (free + 1) (budget - len) n

/-- The directory of a record: sections with their lengths, from an offset on. -/
def saveDirectory : Nat → List ((Nat × Nat) × Nat) → List Byte
  | _, [] => []
  | at_, (x, len) :: rest =>
    leBytes 1 x.1 ++ leBytes 1 0 ++ leBytes 2 x.2 ++ leBytes 4 len ++ leBytes 8 at_ ++ saveDirectory (at_ + len) rest

/-- The header of a record. -/
def saveHeader (r : Run) (sections total time reason : Nat) : List Byte :=
  leBytes 4 1 ++ leBytes 4 r.gid.toNat ++ leBytes 4 r.load ++ leBytes 4 r.origin.toNat ++ leBytes 4 sections ++ leBytes 4 r.oldest
    ++ leBytes 8 time ++ leBytes 8 total ++ leBytes 1 reason ++ List.replicate 23 0#8

/-- A load's record, its payload free within the bound, and the state after the draws. -/
def State.saveRecord (s : State) (r : Run) (reason : Nat) : List Byte × State :=
  let xs := saveSections r
  let fixed := 64 + 16 * xs.length
  let lens := saveLengths s.free (r.saveBound - fixed) xs.length
  let payload := lens.foldl (· + ·) 0
  let (bytes, s1) := { s with free := s.free + xs.length }.drawBytes payload
  (saveHeader r xs.length (fixed + payload) r.lastFire reason ++ saveDirectory fixed (xs.zip lens) ++ bytes, s1)

/-- The part of a scratchpad that a window holds, by offset. -/
def windowMemory (m : MTile) (base size : Nat) : Memory :=
  (m.bytes.filter (fun c => base ≤ c.1 && c.1 < base + size)).map (fun c => (c.1 - base, c.2))

/-- The windows of a graph as a record keeps them. -/
def State.windowsOf (s : State) (r : Run) : List (Nat × Nat × Memory) :=
  match r.placed with
  | none => []
  | some x => x.mtiles.filterMap (fun m => (s.window r.gid m.2.1).map (fun w => (m.1, w.base, windowMemory (s.mtile m.2.1) w.base w.size)))

/-- A frozen load saved: its record written, its slot, tiles and windows freed, and the graph in the resume queue
(R353, R397). -/
def State.saveLoad (s : State) (r : Run) (reason : Nat) : State :=
  let p := partOf r.part
  let x := s.part p
  let at_ := x.saveBase + x.recordRoom * r.slot
  let (rec_, s1) := s.saveRecord r reason
  let v : Saved :=
    { run := { r with eclipseAtEnd := [] }, tiles := r.tiles.map (fun t => (t.1, s.tile (tileOf t.2))), windows := s.windowsOf r
      jobs := s.jobs.filter (fun j => decide (j.graph = r.gid)), address := at_, record := rec_ }
  let s2 := s1.physWrite false at_ rec_
  let s3 := ({ s2 with saved := s2.saved ++ [v] }.release r).dropRun r.gid
  let resumable := reason == 1 || !x.faults.any (fun f => decide (f.graph = r.gid))
  let s4 := s3.modPart p (fun y => { y with resume := y.resume ++ [⟨r.gid, resumable, s.ns / 1024⟩] })
  let s5 := s4.trigger p .dispatch 0x02 0xFFFF_FFFF#32
  if resumable then s5.trigger p .dispatch 0x04 64#32 else s5

/-- CONTEXT_SCAN (R397): a load frozen for a pre-emption or a page fault is saved. DESIGN CHOICE (log entry 47): while the resume
queue holds its 64 graphs (R353) the load stays frozen, and its save waits. -/
def execContextScan (g : BitVec 32) (s : State) : Host.Outcome State Fault Refusal :=
  match s.run g with
  | none => .next s
  | some r =>
    if !r.frozen || decide (64 ≤ (s.part (partOf r.part)).resume.length) then .next s
    else
      match r.freeze with
      | some .preempt => .next (s.saveLoad r 1)
      | some .pageFault => .next (s.saveLoad r 2)
      | _ => .next s

/-- The earliest unresolved request of a graph. -/
def State.earliestFault (s : State) (r : Run) : Option Nat :=
  minBy id (((s.part (partOf r.part)).faults.filter (fun f => decide (f.graph = r.gid))).map (fun f => f.time))

/-- Whether the 100 µs of a load's earliest unresolved request have passed, counted from the restore where that is later. -/
def State.faultLate (s : State) (r : Run) : Bool :=
  match s.earliestFault r with
  | none => false
  | some t => decide (max t r.startNs + 100000 ≤ s.ns)

/-- What the limit does to a load. -/
def State.faultLimit (s : State) (r : Run) : State :=
  if !s.faultLate r then s
  else
    match r.freeze with
    | none => if s.saveFits r then s.requestFreeze r.gid .pageFault else s.kill r.gid 0x13 0#8
    | some .preempt => s.modRun r.gid (fun y => { y with freeze := some .pageFault })
    | _ => s

/-- PAGE_FAULT_LIMIT (R134 stage 2, R136): 100 µs after the earliest unresolved request, counted from the restore where that
is later, the load freezes to be saved, or is killed where its record does not fit (R400); a pre-emption on its way
becomes one save with reason 2 (R405). -/
def execPageFaultLimit (g : BitVec 32) (s : State) : Host.Outcome State Fault Refusal :=
  match s.run g with
  | none => .next s
  | some r => .next (s.faultLimit r)

/-! ### Restore (R401): what a load's places become at another origin -/

/-- Where the tiles and windows of a load go: compute tiles, and memory tiles with their window's base, old and new; and what becomes of
a translated base, and of the page that an error-tagged token was read from. -/
structure Shift where
  tiles : List (Nat × Nat)
  mtiles : List (Nat × Nat × Nat × Nat)
  base : Base → Base
  page : Base → Base

/-- A compute tile. -/
def Shift.tile (x : Shift) (t : Nat) : Nat := ((x.tiles.find? (fun y => y.1 == t)).map (fun y => y.2)).getD t

/-- A memory tile. -/
def Shift.mtile (x : Shift) (m : Nat) : Nat := ((x.mtiles.find? (fun y => y.1 == m)).map (fun y => y.2.1)).getD m

/-- A scratchpad address of a memory tile. -/
def Shift.pad (x : Shift) (m a : Nat) : Nat :=
  match x.mtiles.find? (fun y => y.1 == m) with
  | some y => a - y.2.2.1 + y.2.2.2
  | none => a

/-- A unit identifier of a tile of the load (R21, R22). -/
def Shift.uid (x : Shift) (w : Word) : Word :=
  let i := field w 29 23
  if 96 ≤ i then w
  else
    let n := field w 31 30 * 48 + i / 2
    if isComputeIndex i then let t := x.tile n; unitId (dieOf t) (computeIndex t) (field w 22 20) (field w 19 0)
    else let m := x.mtile n; unitId (dieOf m) (memoryIndex m) (field w 22 20) (field w 19 0)

/-- A base translated again from the virtual address that it holds (R131, R401). One that a walk now gives no leaf for has the outcome
of R326 at the port that holds it or that it reaches, which asks for that address again. -/
def State.baseAgain (s : State) (g : Agent) (b : Base) : Base :=
  match s.walk g b.va with
  | .leaf l => b.moved b.va (l.frame + b.va % pageBytes l.size) l
  | _ => b.forget

/-- The page that an error-tagged token was read from, where it lies now. -/
def State.pageAgain (s : State) (g : Agent) (b : Base) : Base :=
  match s.walk g b.page with
  | .leaf l => if l.size = b.size then b.moved b.page l.frame l else b
  | _ => b

/-- An error tag's origin. -/
def Shift.origin (x : Shift) (o : Origin) : Origin :=
  { o with
    tile := x.tile o.tile, uid := x.uid o.uid, mtile := x.mtile o.mtile
    address := if o.scratch then x.pad o.mtile o.address else match o.base with
      | some b => o.address - b.frame + (x.page b).frame
      | none => o.address
    base := o.base.map x.page, more := o.more.map (fun y => (y.1, x.page y.2)) }

/-- An item on an edge. -/
def Shift.item (x : Shift) (i : Item) : Item := { i with base := i.base.map x.base, origin := i.origin.map x.origin }

/-- A unit's core. -/
def Shift.core (x : Shift) (c : UnitCore) : UnitCore :=
  { c with
    groupFault := c.groupFault.map x.item, segment := c.segment.map x.item, scale := c.scale.map x.item
    sticky := match c.sticky with
      | .fault i => .fault (x.item i)
      | .base b _ => .base (x.base b) false
      | other => other }

/-- An access withheld walks again. -/
def Withheld.again (w : Withheld) : Withheld := { w with tag := none }

/-- What a unit's queues hold. -/
def Shift.queues (x : Shift) (u : UnitSt) : UnitSt :=
  { u with
    ports := u.ports.map (fun q => q.map x.item), reply := u.reply.map x.item
    hold := u.hold.map (fun h => (h.1, x.item h.2)), out := u.out.map (fun h => (h.1, x.item h.2)) }

/-- A unit. -/
def Shift.unit (x : Shift) (u : UnitSt) : UnitSt :=
  { x.queues u with
    core := x.core u.core, kept := u.kept.map (fun k => (k.1, x.core k.2)), withheld := u.withheld.map Withheld.again }

/-- A bank of the matrix core. -/
def Shift.bank (x : Shift) (b : Bank) : Bank := { b with fault := b.fault.map x.item, origin := b.origin.map x.origin }

/-- A tile's fabric. -/
def Shift.fabric (x : Shift) (t : Tile) : Tile :=
  { t with
    strands := t.strands.map (fun st => { st with units := st.units.map (fun u => (u.1, u.2.map x.unit)) })
    core := { t.core with
      ping := x.bank t.core.ping, pong := x.bank t.core.pong
      staged := t.core.staged.map (fun y => match y with
        | .inl w => .inl w
        | .inr i => .inr (x.item i)) } }

/-- A line as a read signature names it (R154): one of a scratchpad moves with its window. -/
def Shift.line (x : Shift) (mt line : Nat) : Nat × Nat :=
  if 2 ^ 46 ≤ line then
    let m := (line - 2 ^ 46) / 2 ^ 15
    (x.mtile mt, 2 ^ 46 + x.mtile m * 2 ^ 15 + x.pad m ((line - 2 ^ 46) % 2 ^ 15 * 64) / 64)
  else (x.mtile mt, line)

/-- A round. -/
def Shift.round (x : Shift) (i : RoundInfo) : RoundInfo :=
  { i with
    tags := i.tags.map x.origin, reads := i.reads.map (fun y => x.line y.1 y.2)
    retried := i.retried.map (fun y => (y.1, y.2.1, y.2.2.1, x.uid y.2.2.2.1, y.2.2.2.2)) }

/-- A buffered store. -/
def Shift.store (x : Shift) (b : BufStore) : BufStore :=
  { b with
    mtile := x.mtile b.mtile, address := if b.scratch then x.pad b.mtile b.address else b.address
    port := x.uid b.port, origin := b.origin.map x.origin }

/-- A token that waits for its replacement. -/
def Shift.replay (x : Shift) (y : Replay) : Replay :=
  { y with
    origin := x.origin y.origin, tile := x.tile y.tile, items := y.items.map (fun i => (i.1, x.item i.2))
    target := y.target.map (fun a => (x.mtile a.1, x.pad a.1 a.2)) }

/-- A graph's run. -/
def Shift.run (x : Shift) (r : Run) : Run :=
  { r with
    rounds := r.rounds.map x.round, stores := r.stores.map x.store
    ports := r.ports.map (fun p => { p with tile := x.tile p.tile, items := p.items.map x.item })
    streams := r.streams.map (fun y => { y with items := y.items.map x.item, sent := y.sent.map (fun z => (z.1, x.item z.2)) })
    places := r.places.map (fun p => { p with tile := x.tile p.tile, mtile := x.mtile p.mtile, pending := p.pending.map x.item })
    fifos := r.fifos.map (fun f => { f with mtile := x.mtile f.mtile, items := f.items.map x.item })
    launches := r.launches.map (fun l => { l with tile := x.tile l.tile })
    replays := r.replays.map x.replay }

/-- A job. -/
def Shift.job (x : Shift) (j : Job) : Job :=
  let t := x.tile j.tile
  { j with
    tile := t, withheld := j.withheld.map Withheld.again
    engine := match j.engine with
      | .copy m => .copy (tileOf (x.mtile m.val))
      | .xfm m ag => .xfm (tileOf (x.mtile m.val)) ag
      | .dcmp _ n => .dcmp (Fin.ofNat 4 (dieOf t)) n
      | .vdec _ n => .vdec (Fin.ofNat 4 (dieOf t)) n }

/-- A restored sequencer: it takes cause 0x0A (R390, R401), its watchdog counts restart, a sleep for a page ends in
another walk (R136). -/
def Seq.restored (q : Seq) (cycles : Nat) (il1 : List L1Line) (tval : DWord) : Seq :=
  { q with
    il1 := il1, shoots := [], sleeping := none, svSince := cycles, stall := q.stall.map (fun x => { x with since := cycles })
    held := if q.mode = .running then q.held ++ [(10, tval)] else q.held }

/-- The bytes of a window put back. -/
def State.putWindow (s : State) (m base size : Nat) (bytes : Memory) : State :=
  s.modMTile m (fun t =>
    let rest := t.bytes.filter (fun c => !(base ≤ c.1 && c.1 < base + size))
    { t with bytes := bytes.foldl (fun acc c => acc.write (base + c.1) c.2) rest })

/-- A window's bytes as a changed record gives them. -/
def freeWindow (rec_ : List Byte) (foot size : Nat) : Memory :=
  (List.range size).foldl (fun acc i => acc.write i (Config.restoredByte rec_ foot i)) []

/-- Whether a record as memory holds it names the graph and load that resume. -/
def recordNames (rec_ : List Byte) (r : Run) : Bool :=
  recNat rec_ 0 4 == 1 && recNat rec_ 4 4 == r.gid.toNat && recNat rec_ 8 4 == r.load

/-- A saved load placed again (R401): its state written back, every base to be translated again, its counts restarted; a
record that does not name it, or that cannot be read, kills the graph. -/
def State.restoreAt (s : State) (p : Fin 16) (v : Saved) (x : Placed) : State :=
  let r := v.run
  let g := r.gid
  let slot := s.freeSlot p
  let n := v.record.length
  let bad := s.physBad v.address n
  let rec_ := s.physBytes v.address n
  let same := decide (rec_ = v.record)
  let s1 := { s with saved := s.saved.filter (fun y => decide (y.run.gid ≠ g)) }.modPart p (fun y => { y with
    resume := y.resume.filter (fun e => decide (e.graph ≠ g)), faults := y.faults.filter (fun f => decide (f.graph ≠ g)) })
  let s2 := s1.allocate g x.mtiles
  let newBase (m : Nat) : Nat := ((s2.window g m).map (fun w => w.base)).getD 0
  let oldTiles := match r.placed with
    | some y => y
    | none => x
  let move : Shift :=
    { tiles := (oldTiles.tiles.zip x.tiles).map (fun y => (y.1.2, y.2.2))
      mtiles := (oldTiles.mtiles.zip x.mtiles).map (fun y =>
        (y.1.2.1, y.2.2.1, ((v.windows.find? (fun w => w.1 == y.1.1)).map (fun w => w.2.1)).getD 0, newBase y.2.2.1))
      base := s.baseAgain ⟨dieOf x.origin, p, r.ctx, true⟩
      page := s.pageAgain ⟨dieOf x.origin, p, r.ctx, true⟩ }
  let dies := dieOf oldTiles.origin ^^^ dieOf x.origin
  let origin := BitVec.ofNat 32 (originOf x.origin)
  let moved := move.run r
  let held := if same then moved else { moved with
    places := Config.restoredPlaces rec_, fifos := Config.restoredFifos rec_, rounds := Config.restoredRounds rec_
    stores := Config.restoredStores rec_, launches := Config.restoredLaunches rec_ }
  let jobs := if same then v.jobs.map move.job else (Config.restoredJobs rec_).map (fun j => { j with graph := g })
  let run := { held with
    slot := slot, origin := origin, tiles := x.tiles, startNs := s.ns, quantumNs := s.ns, lastFire := s.ns, freeze := none, frozen := false }
  let s3 := { s2 with
    runs := s2.runs ++ [run], jobs := s2.jobs ++ jobs
    vstreams := s2.vstreams.map (fun y => if y.graph = g then { y with die := y.die ^^^ dies } else y) }
  let tval := BitVec.ofNat 64 (r.origin.toNat % 65536 * 65536 + originOf x.origin)
  let s4 := x.tiles.foldl (fun s t =>
    let saved := ((v.tiles.find? (fun y => y.1 == t.1)).map (fun y => y.2)).getD Tile.reset
    let content := if same then saved else Config.restoredTile rec_ t.1
    let now := s.tileCycles t.2
    s.modTile (tileOf t.2) (fun here => { move.fabric content with seq := content.seq.restored now here.seq.il1 tval })) s3
  let s5 := x.mtiles.foldl (fun s m =>
    let bytes := if same then ((v.windows.find? (fun w => w.1 == m.1)).map (fun w => w.2.2)).getD [] else freeWindow rec_ m.1 m.2.2
    s.putWindow m.2.1 (newBase m.2.1) m.2.2 bytes) s4
  if bad then
    let (syndrome, s6) := (s5.eccMet v.address n).errSyndrome (s.memErr v.address n false)
    s6.killLogged g 0x0E
      { kind := 5, action := 4, unit := noUnit, round := BitVec.ofNat 32 r.oldest, syndrome := syndrome, address := v.address } []
  else if !recordNames rec_ r then s5.kill g 0x0E 0#8
  else s5

/-- The head of a resume queue: the oldest entry that is resumable (R353), with what was saved of it. -/
def State.resumeHead (s : State) (p : Fin 16) : Option (ResumeEntry × Saved) :=
  match (s.part p).resume.find? (fun e => e.resumable) with
  | none => none
  | some e => (s.saved.find? (fun v => decide (v.run.gid = e.graph))).map (fun v => (e, v))

/-- A dispatch of the resume queue's head at a compute tile: none where the decision is rejected (R349, R357). -/
def State.resumeAt (s : State) (p : Fin 16) (origin : Nat) : Option State :=
  match s.resumeHead p with
  | none => none
  | some (_, v) =>
    match placeAt v.run.graph origin with
    | none => none
    | some x =>
      if s.feasible p v.run.graph x && s.channelsFree v.run.graph v.run.load x.tiles && (s.placementCodes v.run.graph x).isEmpty
      then some (s.restoreAt p v x) else none

end Sys2Proof.Machine
end

