-- ==== Sys2Proof/Machine/Schedule.lean ====
section
/-! DEFINITION. Sys2Proof/Machine/Schedule.lean: launch queues (R342, R343, R345, R346), hooks and their views (R354 to R356,
R366), decisions (R357 to R360), the fallback (R361, R362), almanac swaps (R364). -/

namespace Sys2Proof.Machine

/-! ### Queue registers (R342, R343) -/

/-- A host write to QTAIL (R343). -/
def State.writeTail (s : State) (p : Fin 16) (q : Fin 64) (v : Word) : State :=
  s.modQueue p q (fun x =>
    if !x.deviceOwned && serialAfter v x.tail then { x with tail := v }
    else { x with stale := if x.stale = 0xFFFF_FFFF#32 then x.stale else x.stale + 1#32 })

/-- QTAIL_WRITE (R343). -/
def execQtailWrite (p : Fin 16) (q : Fin 64) (v : BitVec 32) (s : State) : Host.Outcome State Fault Refusal :=
  .next (if (s.part p).formed then s.writeTail p q v else s)

/-- A write to QHEAD, while the queue is disabled, sets head and tail (R342); the record that was copied is then no head record any
more (log entry 32). -/
def State.writeHead (s : State) (p : Fin 16) (q : Fin 64) (v : Word) : State :=
  s.modQueue p q (fun x => if x.enabled then x else { x with head := v, tail := v, eligible := none, deadlineSent := false })

/-- QHEAD_WRITE (R342). -/
def execQheadWrite (p : Fin 16) (q : Fin 64) (v : BitVec 32) (s : State) : Host.Outcome State Fault Refusal :=
  .next (if (s.part p).formed then s.writeHead p q v else s)

/-- QSTALE_CLEAR (R342): a write of 0. -/
def execQstaleClear (p : Fin 16) (q : Fin 64) (s : State) : Host.Outcome State Fault Refusal :=
  .next (if (s.part p).formed then s.modQueue p q (fun x => { x with stale := 0#32 }) else s)

/-- Whether QBASE and QCFG keep the map of R342: the base below 2^52 and aligned to the capacity, the capacity's logarithm
at most 16, reserved bits 0. -/
def queueCfgOk (base cfg : DWord) : Bool :=
  let k := field cfg 4 0
  decide (k ≤ 16) && field base 63 52 == 0 && base.toNat % (64 * 2 ^ k) == 0 && !bitOf cfg.toNat 7 && field cfg 63 24 == 0

/-- The bytes that a read of a queue's register block gives at an offset (R342): QTAIL, QHEAD, QSTALE, and 0 where the block is
reserved; none in a register that the map gives no read. -/
def Queue.readByte (x : Queue) (o : Nat) : Option Byte :=
  let at_ (w : Word) (base : Nat) : Option Byte := (leBytes 4 w.toNat)[o - base]?
  if 0x10 ≤ o && o < 0x14 then at_ x.tail 0x10
  else if 0x14 ≤ o && o < 0x18 then at_ x.head 0x14
  else if 0x18 ≤ o && o < 0x1C then at_ x.stale 0x18
  else if (0x1C ≤ o && o < 0x20) || (0x28 ≤ o && o < 0x40) then some 0#8
  else none

/-- A write to QCFG (R342): enable is always written, the other bits while disabled; the copy of an eligible head stays (R345). -/
def State.writeQueueCfg (s : State) (p : Fin 16) (q : Fin 64) (v : DWord) : State :=
  let x := (s.part p).queues[q]
  let on := bitOf v.toNat 6
  let off := v &&& 0xFFFF_FFFF_FFFF_FFBF#64
  if x.enabled then
    (if on then s else s.modQueue p q (fun y => { y with cfg := y.cfg &&& 0xFFFF_FFFF_FFFF_FFBF#64 }))
  else if !on then s.modQueue p q (fun y => { y with cfg := off })
  else if queueCfgOk x.base v then s.modQueue p q (fun y => { y with cfg := v })
  else (s.modQueue p q (fun y => { y with cfg := off })).modPart p (fun y => { y with pqerr := y.pqerr ||| (1#64 <<< q.val) })

/-- QUEUE_ENABLE (R342): a QCFG write that sets enable. -/
def execQueueEnable (p : Fin 16) (q : Fin 64) (v : BitVec 64) (s : State) : Host.Outcome State Fault Refusal :=
  .next (if (s.part p).formed && bitOf v.toNat 6 then s.writeQueueCfg p q v else s)

/-! ### Eligibility (R345, R346) -/

/-- A prerequisite as a head's check finds it: met or not, or a record error. -/
inductive Prereq where
  | met
  | unmet
  | bad
  deriving DecidableEq, Repr

/-- One prerequisite of a record. -/
def State.prereq (s : State) (g : Agent) (valid : Bool) (ev : DWord) (th : Word) : Prereq × State :=
  if !valid then (.met, s)
  else if ev.toNat % 8 ≠ 0 || field ev 63 52 ≠ 0 then (.bad, s)
  else
    match s.virtRead g ev.toNat 8 .read with
    | (.ok bs, s1) => (if serialAtLeast (BitVec.ofNat 32 (leNat bs)) th then .met else .unmet, s1)
    | (.poison table, s1) => (.bad, s1.logPoison g.part g.ctx noUnit noUnit 0 table)
    | (_, s1) => (.bad, s1)

/-- The address of a queue's head record. -/
def Queue.headAddr (x : Queue) : Nat := x.base.toNat + 64 * (x.head.toNat % x.capacity)

/-- Whether a queue's head may become eligible: it is enabled, and its tail lies ahead. -/
def Queue.headWaits (x : Queue) : Bool := x.enabled && x.eligible.isNone && serialAfter x.tail x.head

/-- A head read and checked (R345, R346): it becomes eligible, with its triggers, or is consumed as a record error, or
waits on. While completion records wait, no record is consumed (R454). -/
def State.readHead (s : State) (p : Fin 16) (q : Fin 64) : State :=
  let x := (s.part p).queues[q]
  if !x.headWaits then s
  else
    let g := s.unitAgent p x.ctx
    match s.virtRead g x.headAddr 64 .read with
    | (.ok bs, s1) =>
      let r := launchRec bs
      if r.seq ≠ x.head then s1
      else
        let hold := !(s.part p).waiting.isEmpty
        let fail (s : State) : State := if hold then s else s.failRecord p q r 0x10 0xFFFF_FFFF#32
        if field r.flags 7 2 ≠ 0 || r.demand = 0#16 || 192 < r.demand.toNat then fail s1
        else
          let (a, s2) := s1.prereq g (bitOf r.flags.toNat 0) r.ev0 r.th0
          let (b, s3) := s2.prereq g (bitOf r.flags.toNat 1) r.ev1 r.th1
          if a = .bad || b = .bad then fail s3
          else if a = .met && b = .met then
            let s4 := s3.modQueue p q (fun y => { y with eligible := some (r, s.ns / 1024), deadlineSent := false })
            let subject := BitVec.ofNat 32 q.val
            (s4.trigger p .preempt 0x11 subject).trigger p .dispatch 0x01 subject
          else s3
    | (.poison table, s1) => s1.logPoison g.part g.ctx noUnit noUnit 0 table
    | (_, s1) => s1

/-- HEAD_ELIGIBLE (R345). -/
def execHeadEligible (p : Fin 16) (q : Fin 64) (s : State) : Host.Outcome State Fault Refusal :=
  .next (if (s.part p).formed then s.readHead p q else s)

/-- HEAD_REREAD (R345): the re-read of a waiting head every 1,024 ns. -/
def execHeadReread (p : Fin 16) (q : Fin 64) (s : State) : Host.Outcome State Fault Refusal :=
  .next (if (s.part p).formed && s.ns % 1024 == 0 then s.readHead p q else s)

/-- Whether a line is that of a queue's head slot or of one of its counters. -/
def State.watchesLine (s : State) (p : Fin 16) (q : Fin 64) (line : Nat) : Bool :=
  let x := (s.part p).queues[q]
  let g := s.unitAgent p x.ctx
  let lineOf (va : Nat) : Option Nat := match s.walk g va with
    | .leaf l => some ((l.frame + va % pageBytes l.size) / 64)
    | _ => none
  let counters := match lineOf x.headAddr with
    | some n =>
      let r := launchRec (s.physBytes (64 * n) 64)
      (if bitOf r.flags.toNat 0 then [r.ev0.toNat] else []) ++ (if bitOf r.flags.toNat 1 then [r.ev1.toNat] else [])
    | none => []
  x.headWaits && (x.headAddr :: counters).any (fun va => decide (lineOf va = some line))

/-- OBSERVED_LINE_WRITE (R345): a write to a line that waiting heads watch makes the dispatch unit read them again. -/
def execObservedLineWrite (a : BitVec 52) (s : State) : Host.Outcome State Fault Refusal :=
  let heads := (List.finRange 16).flatMap (fun p => (List.finRange 64).map (fun q => (p, q)))
  .next (heads.foldl (fun acc x => if (s.part x.1).formed && s.watchesLine x.1 x.2 (a.toNat / 64) then acc.readHead x.1 x.2 else acc) s)

/-! ### Views (R356, R366) -/

/-- A queue's head as a view shows it. -/
def Queue.view (x : Queue) : Option HeadView :=
  x.eligible.map (fun e => ⟨BitVec.ofNat 32 e.1.priority.toNat, e.1.deadline, BitVec.ofNat 32 e.1.demand.toNat, e.2, e.1.seq, false⟩)

/-- The resume queue's head as a view shows it. -/
def State.resumeView (s : State) (p : Fin 16) : Option HeadView :=
  (s.resumeHead p).map (fun e =>
    let r := e.2.run.launch
    ⟨BitVec.ofNat 32 r.priority.toNat, r.deadline, BitVec.ofNat 32 r.demand.toNat, e.1.since, r.seq, true⟩)

/-- The state of a running slot: 0 running, 1 withholding, 2 freezing or saving. -/
def State.runStateOf (s : State) (r : Run) : Nat :=
  if r.freeze.isSome then 2 else if (s.earliestFault r).isSome then 1 else 0

/-- A running slot as a view shows it. -/
def State.runView (s : State) (p : Fin 16) (slot : Nat) : Option RunView :=
  (s.runs.find? (fun r => r.part == p.val && r.slot == slot)).map (fun r =>
    ⟨r.gid, BitVec.ofNat 32 r.launch.priority.toNat, r.launch.deadline, r.origin, BitVec.ofNat 32 r.launch.demand.toNat,
      r.startNs / 1024, s.runStateOf r⟩)

/-- The views of a partition as an invocation begins. -/
def State.snapshot (s : State) (p : Fin 16) : Snapshot :=
  let x := s.part p
  { depths := x.queues.toList.map (fun q => q.tail - q.head) ++ [BitVec.ofNat 32 x.resume.length]
    heads := x.queues.toList.map Queue.view ++ [s.resumeView p]
    free := mapOf (s.tileFree p)
    quota := [BitVec.ofNat 32 x.tileQuota, BitVec.ofNat 32 (s.tilesHeld p), BitVec.ofNat 32 (min x.slotQuota 32),
      BitVec.ofNat 32 (s.slotsUsed p).length, x.margin, BitVec.ofNat 32 p.val, x.rejected]
    eclCore := mapOf (fun t => s.coreEclipsed t || s.seqEclipsed t)
    eclSeq := mapOf s.seqEclipsed
    runs := (List.range 32).map (s.runView p)
    now := s.ns / 1024
    overruns := x.overruns
    generation := x.generation
    invocations := x.invocations }

/-! ### Decisions (R357 to R360) -/

/-- A decision rejected (R357): counted, and applied as none, or as kill_report in on_fault. -/
def State.rejectDecision (s : State) (p : Fin 16) (fault : Option FaultRec) : State :=
  let s1 := s.modPart p (fun x => { x with rejected := x.rejected + 1#32 })
  match fault with
  | some f => s1.killReport f
  | none => s1

/-- A dispatch carried out triggers the next on_dispatch (R354). -/
def State.dispatched (s : State) (p : Fin 16) : State := s.trigger p .dispatch 0x05 0xFFFF_FFFF#32

/-- The dispatch decision (R357). -/
def State.decideDispatch (s : State) (p : Fin 16) (a6 : Word) : State :=
  let queue := field a6 6 0
  let die := field a6 9 8; let ordinal := field a6 15 10
  if bitOf a6.toNat 7 || field a6 31 16 ≠ 0 || 64 < queue || 48 ≤ ordinal then s.rejectDecision p none
  else
    let origin := die * 48 + ordinal
    if queue = 64 then
      match s.resumeAt p origin with
      | some s1 => s1.dispatched p
      | none => s.rejectDecision p none
    else
      match s.dispatch p (Fin.ofNat 64 queue) origin with
      | some (true, s1) => s1.dispatched p
      | some (false, s1) => s1
      | none => s.rejectDecision p none

/-- The preempt decision (R357, R358, R400): the victim's load is asked to freeze for a save. -/
def State.decidePreempt (s : State) (p : Fin 16) (a6 : Word) : State :=
  if field a6 31 5 ≠ 0 then s.rejectDecision p none
  else
    match s.runs.find? (fun r => r.part == p.val && r.slot == field a6 4 0) with
    | none => s.rejectDecision p none
    | some r => if r.freeze.isNone && s.saveFits r then s.requestFreeze r.gid .preempt else s.rejectDecision p none

/-- The graph of a fault as a relaunch finds it, and the state in which it is dispatched again: running, or saved, whose save is
then discarded. -/
def State.relaunchable (s : State) (g : Word) : Option (Run × State) :=
  match s.run g with
  | some r => some (r, s)
  | none => (s.saved.find? (fun x => decide (x.run.gid = g))).map (fun v =>
      ({ v.run with tiles := [] }, { s with saved := s.saved.filter (fun y => decide (y.run.gid ≠ g)) }.modPart (partOf v.run.part)
        (fun x => { x with resume := x.resume.filter (fun e => decide (e.graph ≠ g)) })))

/-- A relaunch decision (R359, R360): it acts as kill_report on a graph that has completed, that the host has killed, or
whose count is 15. -/
def State.decideRelaunch (s : State) (p : Fin 16) (f : FaultRec) (degraded : Bool) (a6 : Word) : State :=
  match s.relaunchable f.graph with
  | none => s.killReport f
  | some (r, s0) =>
    if f.kind = 10 || r.hostKilled || 15 ≤ r.relaunches then s.killReport f
    else
      match originTile a6.toNat with
      | none => s.rejectDecision p (some f)
      | some o =>
        match s0.relaunch r degraded o with
        | some s1 => s1
        | none => s.rejectDecision p (some f)

/-- A decision applied (R357); on_fault's for a graph that the host has killed acts as kill_report (R475). None leaves the graph of a
fault frozen, with no fault that stands against it any more (log entry 46). -/
def State.applyDecision (s : State) (p : Fin 16) (t : Trigger) (a7 a6 : Word) : State :=
  let byHost := match t.fault.bind (fun f => s.run f.graph) with
    | some r => r.hostKilled
    | none => false
  match t.hook, t.fault, (if byHost then 0x10 else a7.toNat) with
  | _, some f, 0 => s.modRun f.graph (fun r => { r with fault := none })
  | _, none, 0 => s
  | .dispatch, _, 1 => s.decideDispatch p a6
  | .preempt, _, 2 => s.decidePreempt p a6
  | .fault, some f, 0x10 => s.killReport f
  | .fault, some f, 0x11 => s.decideRelaunch p f false a6
  | .fault, some f, 0x12 => s.decideRelaunch p f true a6
  | .fault, some f, 0x13 => (s.killReport f).modPart p (fun x => { x with held := true })
  | _, f, _ => s.rejectDecision p f

/-! ### The fallback (R362) -/

/-- The candidates of the fallback's dispatch, best first: priority, then age, then queue number. -/
def State.candidates (s : State) (p : Fin 16) : List (Nat × HeadView) :=
  let x := s.part p
  let heads := (List.range 65).zip (x.queues.toList.map Queue.view ++ [s.resumeView p])
  let live := heads.filterMap (fun h => h.2.map (fun v => (h.1, v)))
  sortBy (fun h => 255 - h.2.priority.toNat) (sortBy (fun h => h.2.since) live)

/-- The first origin, by package ordinal, at which a head can be placed, and what placing it gives. -/
def State.firstFit (s : State) (p : Fin 16) (queue : Nat) : List Nat → Option (Bool × State)
  | [] => none
  | o :: os =>
    let r := if queue = 64 then (s.resumeAt p o).map (fun s1 => (true, s1)) else s.dispatch p (Fin.ofNat 64 queue) o
    match r with
    | some x => some x
    | none => State.firstFit s p queue os

/-- The fallback's on_dispatch. -/
def State.fallbackDispatch (s : State) (p : Fin 16) : State :=
  match (s.candidates p).head? with
  | none => s
  | some (queue, _) =>
    match s.firstFit p queue (List.range 192) with
    | some (true, s1) => s1.dispatched p
    | some (false, s1) => s1
    | none => s

/-- The fallback's decision; its dispatch is deferred while completion records wait (R454). -/
def State.fallback (s : State) (p : Fin 16) (t : Trigger) : State :=
  match t.hook, t.fault with
  | .dispatch, _ => if (s.part p).waiting.isEmpty then s.fallbackDispatch p else s.modPart p (fun x => { x with deferredFallback := true })
  | .fault, some f => s.killReport f
  | _, _ => s

/-! ### Invocations (R355, R361) -/

/-- The pending invocation that runs next (R355): faults in delivery order, then on_preempt, then on_dispatch; none of the
last two while the partition is held, and no on_dispatch while completion records wait (R454). -/
def State.nextTrigger (s : State) (p : Fin 16) : Option Trigger :=
  let x := s.part p
  match x.pending.find? (fun t => decide (t.hook = .fault)) with
  | some t => some t
  | none =>
    if x.held then none
    else
      match x.pending.find? (fun t => decide (t.hook = .preempt)) with
      | some t => some t
      | none => if x.waiting.isEmpty && x.deferred.isNone && !x.deferredFallback then x.pending.find? (fun t => decide (t.hook = .dispatch)) else none

/-- Whether the graph of a fault has come to rest: it is frozen, saved where it was on its way to a save, or gone (R359,
R367). -/
def State.faultReady (s : State) (t : Trigger) : Bool :=
  match t.fault with
  | some f => (match s.run f.graph with
    | some r => r.freeze.isNone || (r.frozen && r.freeze ≠ some .preempt && r.freeze ≠ some .pageFault)
    | none => true)
  | none => true

/-- The entry of a hook. -/
def Almanac.entry (a : Almanac) : Hook → Nat
  | .dispatch => a.onDispatch
  | .preempt => a.onPreempt
  | .fault => a.onFault

/-- Whether a partition has an invocation that could begin: a swap that waits goes first (R364). -/
def State.mayInvoke (s : State) (p : Fin 16) : Bool :=
  let x := s.part p
  x.formed && x.inv.isNone && x.swapRequest.isNone && (match s.nextTrigger p with
    | some t => s.faultReady t
    | none => false)

/-- Whether a partition is the next, in round-robin order, of those that its home die's dispatch unit serves and that have an
invocation that could begin (R355). -/
def State.servesNext (s : State) (p : Fin 16) : Bool :=
  let d := s.homeDie p
  let last := s.served[Fin.ofNat 4 d]
  let rank (q : Fin 16) : Nat := (q.val + 15 - last) % 16
  (List.finRange 16).all (fun q => q == p || s.homeDie q != d || !s.mayInvoke q || decide (rank p < rank q))

/-- A partition served by its home die's dispatch unit. -/
def State.serve (s : State) (p : Fin 16) : State := { s with served := s.served.set (Fin.ofNat 4 (s.homeDie p)) p.val }

/-- What rdflt and rdinv report to a hook that begins now: the last round that the graph has committed by then, and its running slot, or
none when it holds none any more (R354, R356, R366). -/
def State.refreshFault (s : State) (t : Trigger) : Trigger :=
  match t.fault with
  | none => t
  | some f =>
    match s.run f.graph with
    | some r => { t with subject := BitVec.ofNat 32 r.slot, fault := some { f with lastRound := r.lastRoundWord } }
    | none => { t with subject := 0xFFFF_FFFF#32 }

/-- ALMANAC_INVOCATION (R355, R356, R362): the next hook of a partition starts in its turn, or is decided by the fallback where no
almanac is loaded or the fallback is sticky. -/
def execAlmanacInvocation (p : Fin 16) (s0 : State) : Host.Outcome State Fault Refusal :=
  if !s0.mayInvoke p || !s0.servesNext p then .next s0
  else
    let x := s0.part p
    match s0.nextTrigger p with
    | none => .next s0
    | some t0 =>
        let t := s0.refreshFault t0
        let view := s0.snapshot p
        let s1 := (s0.serve p).modPart p (fun y => { y with pending := y.pending.erase t0, invocations := y.invocations + 1#32 })
        match (if x.stickyFallback then none else x.almanac) with
        | none => .next (s1.fallback p t)
        | some a => .next (s1.modPart p (fun y => { y with
            inv := some ⟨t, view, Vector.replicate 8 0#32, a.entry t.hook, [], [], 0⟩ }))

/-- Persistent words written, oldest write first. -/
def putWords (w : Vector Word 16) : List (Nat × Word) → Vector Word 16
  | [] => w
  | (i, v) :: rest => putWords (w.set (Fin.ofNat 16 i) v) rest

/-- ALM_END (R357, R361, R365): the invocation ends; its wrp writes take effect, the overrun count is 0 again, and its
decision is applied, or deferred while completion records wait (R454). -/
def execAlmEnd (s : State) : Host.Outcome State Fault Refusal :=
  let p := s.curPart
  match s.invocation with
  | none => .next s
  | some v =>
    let s1 := s.modPart p (fun x => { x with inv := none, overruns := 0, persist := putWords x.persist v.writes })
    let a7 := v.rd 7#3; let a6 := v.rd 6#3
    if decide (v.trigger.hook = .dispatch) && !(s1.part p).waiting.isEmpty then
      .next (s1.modPart p (fun x => { x with deferred := some (a7, a6) }))
    else .next (s1.applyDecision p v.trigger a7 a6)

/-- An overrun (R361, R362): the invocation is discarded, the third in a row makes the fallback sticky, and the fallback
decides. -/
def State.overrun (s : State) (p : Fin 16) : State :=
  match (s.part p).inv with
  | none => s
  | some v =>
    let s1 := s.modPart p (fun x => { x with
      inv := none, overruns := x.overruns + 1, stickyFallback := x.stickyFallback || decide (3 ≤ x.overruns + 1) })
    s1.fallback p v.trigger

/-- Whether a partition's invocation has used up its budget. -/
def State.overrunning (s : State) (p : Fin 16) : Bool :=
  match (s.part p).inv with
  | some v => decide (4096 ≤ v.cycles)
  | none => false

/-- INVOCATION_OVERRUN (R361): 4,096 cycles without end. -/
def execInvocationOverrun (p : Fin 16) (s : State) : Host.Outcome State Fault Refusal :=
  .next (if s.overrunning p then s.overrun p else s)

/-- ALMANAC_SWAP (R364): a requested swap takes effect when no invocation runs. -/
def execAlmanacSwap (p : Fin 16) (s : State) : Host.Outcome State Fault Refusal :=
  let x := s.part p
  match x.swapRequest, x.inv with
  | some keep, none =>
    let s1 := s.modPart p (fun y => { y with
      almanac := y.shadow, shadow := none, swapRequest := none, overruns := 0, stickyFallback := false
      generation := y.generation + 1#32, persist := if keep then y.persist else Vector.replicate 16 0#32 })
    .next (s1.trigger p .dispatch 0x03 0xFFFF_FFFF#32)
  | _, _ => .next s

/-! ### Timed triggers (R354) -/

/-- QUANTUM_EXPIRY (R354): 2 ms since a graph's dispatch, its resume or its last quantum trigger. -/
def execQuantumExpiry (p : Fin 16) (r : Fin 32) (s : State) : Host.Outcome State Fault Refusal :=
  match s.runs.find? (fun x => x.part == p.val && x.slot == r.val) with
  | none => .next s
  | some x =>
    if x.freeze.isNone && x.quantumNs + 2000000 ≤ s.ns then
      .next ((s.modRun x.gid (fun y => { y with quantumNs := s.ns })).trigger p .preempt 0x12 (BitVec.ofNat 32 r.val))
    else .next s

/-- DEADLINE_TRIGGER (R354): device time reaches an eligible head's deadline minus the partition's margin. -/
def execDeadlineTrigger (p : Fin 16) (q : Fin 64) (s : State) : Host.Outcome State Fault Refusal :=
  let x := (s.part p).queues[q]
  match x.eligible with
  | none => .next s
  | some (r, _) =>
    if !x.deadlineSent && decide (r.deadline ≠ 0#32) && serialAtLeast (BitVec.ofNat 32 s.dispatchTime) (r.deadline - (s.part p).margin) then
      .next ((s.modQueue p q (fun y => { y with deadlineSent := true })).trigger p .preempt 0x13 (BitVec.ofNat 32 q.val))
    else .next s

end Sys2Proof.Machine
end

