-- ==== Sys2Proof/Machine/Fetch.lean ====
section
/-! DEFINITION. Sys2Proof/Machine/Fetch.lean: fetching an instruction word (R133, R222 rows 1 to 3, R240, R273, R393,
R403, R479). -/

namespace Sys2Proof.Machine

/-- What a fetch gives: the word, or the trap of rows 1 to 3 of R222. -/
inductive FetchEnd where
  | word (w : Word)
  | trap (code : Nat) (tval : DWord)
  deriving DecidableEq, Repr

/-- Whether a breakpoint register matches an address under a context (R393). -/
def brkMatches (b : DWord) (pc : DWord) (ctx : Half) : Bool :=
  bitOf b.toNat 0 && field pc 51 48 == 0 && field pc 47 2 == field b 47 2 && (bitOf b.toNat 1 || field b 63 48 == ctx.toNat)

/-- The lowest breakpoint register that matches the executing sequencer's next instruction (row 1 of R222); firmware is
fetched outside every context, and matches none (R479). -/
def Seq.brkHit (q : Seq) : Option (Fin 8) :=
  if q.sv || q.noBrk then none else (List.finRange 8).find? (fun k => brkMatches q.brk[k] q.pc q.ctx)

/-- A word as memory holds it now, fetched through the executing sequencer's context (rows 2 and 3). An uncorrectable
error is taken as the access fault of row 9 for a load (R243, log entry 26). -/
def State.fetchFresh (s : State) : FetchEnd × State :=
  let pc := s.me.pc
  if field pc 63 52 ≠ 0 then (.trap 3 pc, s)
  else
    match s.virtRead s.meAgent pc.toNat 4 .exec with
    | (.ok bs, s1) => (.word (BitVec.ofNat 32 (leNat bs)), s1)
    | (.uncorrectable e, s1) => (.trap 3 pc, s1.logConsumed s.cur.val e)
    | (.fault x, s1) => (.trap (xfaultTrap x) pc, s1)
    | (.poison table, s1) => (.trap 4 pc, s1.poisonedByMe table)

/-- Whether a line is the one of a partition that holds a sequencer's pc. -/
def L1Line.holds (w : L1Line) (q : Seq) (part : Nat) : Bool :=
  w.part == part && decide (w.ctx = q.ctx) && w.va == q.pc.toNat / 256 * 256

/-- The line of the instruction L1 that holds a sequencer's pc, of a partition. -/
def Seq.il1Word (q : Seq) (part : Nat) : Option L1Line := q.il1.find? (fun w => w.holds q part)

/-- The word of a line at a sequencer's pc. -/
def L1Line.wordAt (w : L1Line) (q : Seq) : Word := w.words.getD (q.pc.toNat % 256 / 4) 0#32

/-- The line of a fetched word brought into the instruction L1, through the leaf that the fetch was allowed by and its die now caches
(R403); the L1 holds 128 lines (R11): the one brought in first goes (log entry 67). A line that meets an error elsewhere is not kept. -/
def State.fillL1 (s : State) (w : Word) : State :=
  let q := s.me
  let va := q.pc.toNat / 256 * 256
  let part := (s.partOfTile s.cur.val).val
  match (s.cached s.meAgent q.pc.toNat).map TlbEntry.asLeaf with
  | some l =>
    (match s.leafRead l va 256 with
    | some (bs, false) => s.modMe (fun x => { x with
        il1 := (⟨part, x.ctx, va, l.frame + va % pageBytes l.size, (bytesToWords 64 bs).set (q.pc.toNat % 256 / 4) w, false⟩
          :: x.il1.filter (fun y => !y.holds x part)).take 128 })
    | _ => s)
  | none => s

/-- The next instruction word of the executing sequencer: firmware without translation (R479), else the word that its L1
holds or, where memory now holds another, either (R240, R273, R403). -/
def State.fetch (s : State) : FetchEnd × State :=
  let q := s.me
  if q.sv then (.word (BitVec.ofNat 32 (leNat (s.fwmem.readN q.pc.toNat 4))), s)
  else
    match q.il1Word (s.partOfTile s.cur.val).val with
    | none =>
      match s.fetchFresh with
      | (.word w, s1) => (.word w, s1.fillL1 w)
      | r => r
    | some held =>
      match s.fetchFresh with
      | (.word w, s1) =>
        if w = held.wordAt q then (.word w, s1)
        else
          let (old, s2) := s1.choose
          if old then (.word (held.wordAt q), s2) else (.word w, s2.fillL1 w)
      | (.trap code tval, s1) =>
        let (old, s2) := s.choose
        if old then (.word (held.wordAt q), s2) else (.trap code tval, { s1 with free := s1.free + 1 })

/-- The instruction that a word is (R181). -/
def decodeFetched (w : Word) : Option Instr :=
  match decodeSeq w with
  | .ok i => some i
  | .error _ => none

end Sys2Proof.Machine
end

