-- ==== Sys2Proof/Machine/World.lean ====
section
/-! DEFINITION. Sys2Proof/Machine/World.lean: what the world does to the machine between its steps: errors (R374, log entry
6), root entries and firmware images (log entries 7, 9), debuggers (R402), host-side writes (R450). -/

namespace Sys2Proof.Machine

/-- A token at the head of a port whose parity fails: it takes the error tag at its consumer (R374). -/
def State.spoilToken (s : State) (x : RCtx) (u port : Nat) : State :=
  let ordinal := (s.strand x.t x.k).ordinal
  s.modUnit x u (fun y => { y with ports := modifyAt y.ports port (fun q => modifyAt q 0 (fun i =>
    if i.isElem then
      { i with
        tag := i.tag ||| 0x08#8
        origin := some ⟨x.t.val, ordinal, x.key, u, x.copyId u 0, y.seq, y.round, false, 0, 0, 0, 0xFFFF_FFFF#32, false, none, none, none, none⟩ }
    else i)) })

/-- A line of the instruction L1 that fails is discarded, to be fetched again, and logged as corrected (R374). -/
def State.spoilInstr (s : State) (t : Fin 192) : State :=
  let q := s.seq t
  match q.il1Word (s.partOfTile t.val).val with
  | none => s
  | some w =>
    let s1 := s.modSeq t (fun x => { x with il1 := x.il1.filter (fun y => y.pa != w.pa) })
    let (syndrome, s2) := s1.drawSyndrome 6
    let (n, ts) := match s.runOfTile t.val with
      | some r => (r.currentRound t.val, r.timestamp (r.currentRound t.val))
      | none => (0, 0#32)
    (s2.logError (s2.partOfTile t.val)
      { kind := 5, action := 1, graph := s2.gidOfTile t.val, unit := seqId t, ctx := q.ctx, round := BitVec.ofNat 32 n, timestamp := ts
        address := w.pa, syndrome := syndrome }).2

/-- A turn of the world. A context is given a level-4 table on a 2 KiB boundary, one of up to 64 that a partition holds (R124); the HDM
decoder maps whole 256 MiB granules of HBM (R449, R451). -/
def State.world (s : State) : World → State
  | .badLine l => { s with ecc := l :: s.ecc }
  | .badScratch m l => s.modMTile m.val (fun x => { x with badLines := l :: x.badLines })
  | .upsetAlu t alu x => s.modSeq t (fun q => { q with aluErr := q.aluErr.set alu x })
  | .upsetResult t alu x => s.modSeq t (fun q => { q with lateErr := q.lateErr.set alu x })
  | .slowImage t => s.modSeq t (fun q => { q with slow := true })
  | .upsetPe t pe v => s.modTile t (fun x => { x with core := { x.core with peErr := x.core.peErr ++ [(pe, v)] } })
  | .upsetUnit t k u copy v =>
    match s.rctx t k with
    | some x => s.modUnit x u (fun y => { y with upset := (copy, v) :: y.upset })
    | none => s
  | .upsetMask t k u copy =>
    match s.rctx t k with
    | some x => s.modUnit x u (fun y => { y with dropped := copy :: y.dropped })
    | none => s
  | .badL2 l => { s with l2ecc := l :: s.l2ecc }
  | .upsetFlags t k u copy v =>
    match s.rctx t k with
    | some x => s.modUnit x u (fun y =>
        { y with flags := y.flags ^^^ v, copyFlags := modifyAt (y.setFlag copy 0#8).copyFlags copy (fun f => f ^^^ v) })
    | none => s
  | .root p ctx table => s.modPart p (fun x =>
      let others := x.roots.filter (fun y => decide (y.1 ≠ ctx))
      if table % 2048 = 0 && others.length < 64 then { x with roots := (ctx, table) :: others } else x)
  | .firmware d image => { s with firmware := s.firmware.set d image }
  | .debugger ctx attached => { s with debuggers := if attached then ctx :: s.debuggers.filter (· ≠ ctx) else s.debuggers.filter (· ≠ ctx) }
  | .hostByte a b => if inHost a then { s with mem := s.mem.write a b } else s
  | .hdm base size =>
    if base % 2 ^ 28 = 0 && size % 2 ^ 28 = 0 && base + size ≤ hbmEnd then { s with hdmBase := base, hdmSize := size } else s
  | .badCtx t c => s.modCtx t c (fun x => { x with bad := true })
  | .badToken t k u port =>
    match s.rctx t k with
    | some x => s.spoilToken x u port
    | none => s
  | .badStore g round during => s.modRun g (fun r => r.modRound round (fun y => { y with bad := some during }))
  | .badInstr t => s.spoilInstr t
  | .slowCommand => { s with slowCommand := true }
  | .evict p ctx va frame => s.beginEvict ⟨s.homeDie p, p, ctx, false⟩ va frame

end Sys2Proof.Machine
end

