-- ==== Sys2Proof/Machine/Host.lean ====
section
/-! DEFINITION. Sys2Proof/Machine/Host.lean: rings and what waits for them (R452 to R455), shootdowns (R404, R459), reads of
PSTATUS, the memory window and CXL.mem (R450, R451, R175), repaired tables (R130). -/

namespace Sys2Proof.Machine

/-! ### The control window's accesses (R452) -/

/-- Whether the device has enumerated: die 0 has loaded its firmware (R471). -/
def State.enumerated (s : State) : Bool := decide (s.fwfail[0] = 0#4)

/-- Whether an access of n bytes at an offset is one of the control window's: aligned, of 4 or 8 bytes. -/
def windowAccess (o n : Nat) : Bool := (n == 4 || n == 8) && o % n == 0

/-- The outcome of a register access: done, or Unsupported Request (log entry 3). -/
def State.accessDone (s : State) (ok : Bool) : State := { s with unsupported := !ok }

/-- The part of a 64-bit register that an access at a byte offset reads. -/
def readPart (v : DWord) (o n : Nat) : BitVec 512 := BitVec.ofNat 512 (v.toNat / 2 ^ (8 * o) % 2 ^ (8 * n))

/-- A 64-bit register after a write of n bytes at a byte offset. -/
def writePart (old : DWord) (o n : Nat) (v : DWord) : DWord :=
  let m := (2 ^ (8 * n) - 1) * 2 ^ (8 * o)
  BitVec.ofNat 64 ((old &&& ~~~(BitVec.ofNat 64 m)).toNat + v.toNat % 2 ^ (8 * n) * 2 ^ (8 * o))

/-- PSTATUS (R452). -/
def State.pstatus (s : State) (p : Fin 16) : DWord :=
  let x := s.part p
  let b (c : Bool) (n : Nat) : Nat := if c then 2 ^ n else 0
  BitVec.ofNat 64 (b x.held 0 + b x.almanac.isSome 1 + b x.stickyFallback 2 + b s.harebell 3 + b x.shootOverflow 4 + b x.shootError 5)

/-- A read of n bytes of PSTATUS at a byte offset of it: bits [5:4] are cleared by a read of them. -/
def State.readPstatus (s : State) (p : Fin 16) (o n : Nat) : State :=
  let v := if (s.part p).formed then s.pstatus p else 0#64
  let s1 := { s.accessDone true with reply := some (readPart v o n, false) }
  if o = 0 then s1.modPart p (fun x => { x with shootOverflow := false, shootError := false }) else s1

/-- PSTATUS_READ (R452). -/
def execPstatusRead (p : Fin 16) (o : BitVec 3) (n : BitVec 4) (s : State) : Host.Outcome State Fault Refusal :=
  .next (if windowAccess o.toNat n.toNat && s.enumerated then s.readPstatus p o.toNat n.toNat else s.accessDone false)

/-- A write of 1 to bits of PQERR clears them. -/
def State.clearPqerr (s : State) (p : Fin 16) (o n : Nat) (v : DWord) : State :=
  s.modPart p (fun x => { x with pqerr := x.pqerr &&& ~~~(writePart 0#64 o n v) })

/-- PQERR_CLEAR (R452). -/
def execPqerrClear (p : Fin 16) (o : BitVec 3) (n : BitVec 4) (v : BitVec 64) (s : State) : Host.Outcome State Fault Refusal :=
  .next (if windowAccess o.toNat n.toNat && s.enumerated then (s.accessDone true).clearPqerr p o.toNat n.toNat v else s.accessDone false)

/-! ### Rings (R453, R454) -/

/-- A host write to a ring's head. -/
def State.writeRingHead (s : State) (p : Fin 16) (n : RingName) (v : Word) : State :=
  let r := (s.part p).ring n
  if (v - r.head).toNat ≤ (r.tail - r.head).toNat then
    let s1 := s.modPart p (fun x => x.setRing n { r with head := v })
    s1.postFaults p (s1.part p).faults.length
  else s

/-- RING_HEAD_WRITE (R453): a head beyond the tail is ignored; requests that wait are written while there is room (R454). -/
def execRingHeadWrite (p : Fin 16) (r : RingName) (v : BitVec 32) (s : State) : Host.Outcome State Fault Refusal :=
  .next (if (s.part p).formed then s.writeRingHead p r v else s)

/-- Whether a ring's base and capacity are valid (R452, R453). -/
def ringCfgOk (base cfg : DWord) : Bool :=
  let k := field cfg 4 0
  base.toNat % 4096 == 0 && decide (4 ≤ k) && decide (k ≤ 16)

/-- A write to a ring's configuration: enable is always written, the other bits while disabled. -/
def State.writeRingCfg (s : State) (p : Fin 16) (n : RingName) (v : DWord) : State :=
  let r := (s.part p).ring n
  let on := bitOf v.toNat 5
  if r.enabled then (if on then s else s.modPart p (fun x => x.setRing n { r with enabled := false }))
  else
    let s1 := s.modPart p (fun x => x.setRing n { r with cfg := v &&& 0xFFFF_FFFF_FFFF_FFDF#64, enabled := on && ringCfgOk r.base v })
    s1.postFaults p (s1.part p).faults.length

/-- RING_ENABLE (R453): a configuration write that sets enable. -/
def execRingEnable (p : Fin 16) (r : RingName) (v : BitVec 64) (s : State) : Host.Outcome State Fault Refusal :=
  .next (if (s.part p).formed && bitOf v.toNat 5 then s.writeRingCfg p r v else s)

/-- RING_RECORD_RELEASE (R454): completion records that wait are written while the ring has room; tiles held for a 65th
record are freed, and a decision that was deferred is applied once none waits. -/
def execRingRecordRelease (p : Fin 16) (s : State) : Host.Outcome State Fault Refusal :=
  let before := (s.part p).heldTiles.length
  let s1 := s.releaseCompletions p (s.part p).waiting.length
  let s2 := if (s1.part p).heldTiles.length < before then s1.trigger p .dispatch 0x02 0xFFFF_FFFF#32 else s1
  let x := s2.part p
  match x.waiting, x.deferred, x.deferredFallback with
  | [], some (a7, a6), _ =>
    .next ((s2.modPart p (fun x => { x with deferred := none })).applyDecision p ⟨.dispatch, 0, 0#32, none⟩ a7 a6)
  | [], none, true => .next ((s2.modPart p (fun x => { x with deferredFallback := false })).fallbackDispatch p)
  | _, _, _ => .next s2

/-- MSIX_TIMER (R453): 1 µs since the last message, with entries since. -/
def execMsixTimer (p : Fin 16) (r : RingName) (s : State) : Host.Outcome State Fault Refusal :=
  let x := (s.part p).ring r
  .next (if 0 < x.sinceMsg && x.lastMsg + 1000 ≤ s.ns then s.ringMessage p r else s)

/-! ### Page-fault resolutions (R134, R353, R455) -/

/-- A withheld access whose request has been resolved: it walks again, or yields a fault token of cause 0x03. -/
def Withheld.resolve (w : Withheld) (tag : Word) (invalid : Bool) : Withheld :=
  if w.tag = some tag then { w with tag := none, cause := if invalid then some 3 else none } else w

/-- A tile with a request resolved; slept is how many cycles a sequencer has slept for it until now, which do not count towards the
limit of R392. -/
def Tile.resolve (t : Tile) (tag : Word) (invalid : Bool) (slept now : Nat) : Tile :=
  { t with
    seq := if t.seq.sleeping = some tag then { t.seq with sleeping := none, svSince := min (t.seq.svSince + slept) now } else t.seq
    strands := t.strands.map (fun st => { st with
      units := st.units.map (fun u => (u.1, u.2.map (fun y => { y with withheld := y.withheld.map (fun w => w.resolve tag invalid) }))) }) }

/-- A job with a request resolved. -/
def Job.resolve (j : Job) (tag : Word) (invalid : Bool) : Job := { j with withheld := j.withheld.map (fun w => w.resolve tag invalid) }

/-- A saved load with a request resolved: restored, its accesses walk again (R136). -/
def Saved.resolve (y : Saved) (tag : Word) : Saved :=
  { y with tiles := y.tiles.map (fun t => (t.1, t.2.resolve tag false 0 0)), jobs := y.jobs.map (fun j => j.resolve tag false) }

/-- The resume queue once a graph has no request left (R353). -/
def State.nowResumable (s : State) (p : Fin 16) (g : Word) : State :=
  let x := s.part p
  if x.resume.any (fun e => decide (e.graph = g) && !e.resumable) && !x.faults.any (fun f => decide (f.graph = g)) then
    (s.modPart p (fun y => { y with resume := y.resume.map (fun e => if e.graph = g then { e with resumable := true, since := s.ns / 1024 } else e) })).trigger
      p .dispatch 0x04 64#32
  else s

/-- A write to FRRESOLVE (R452, R455). One at or after the 100 µs limit of its load does not stop the drain, and the access walks
again once it is restored (R136). -/
def State.resolveFault (s : State) (p : Fin 16) (v : DWord) : State :=
  let tag : Word := v.setWidth 32
  if field v 63 33 ≠ 0 then s
  else
    match (s.part p).faults.find? (fun f => decide (f.tag = tag)) with
    | none => s
    | some f =>
      let late := match s.run f.graph with
        | some r => s.faultLate r
        | none => false
      let invalid := bitOf v.toNat 32 && !late
      let s0 := match s.run f.graph with
        | some r => s.faultLimit r
        | none => s
      let s1 := s0.modPart p (fun x => { x with faults := x.faults.erase f })
      let s2 : State := match s1.run f.graph with
        | some r => r.tiles.foldl (fun (acc : State) t => acc.modTile (tileOf t.2) (fun y =>
          y.resolve tag invalid (s1.cyclesSince (islandOf t.2) f.time) (s1.tileCycles t.2))) s1
        | none => s1
      let s3 : State := { s2 with
        jobs := s2.jobs.map (fun j => if j.graph = f.graph then j.resolve tag invalid else j)
        saved := s2.saved.map (fun y => if y.run.gid = f.graph then y.resolve tag else y) }
      s3.nowResumable p f.graph

/-- FRRESOLVE (R455). -/
def execFrresolve (p : Fin 16) (v : BitVec 64) (s : State) : Host.Outcome State Fault Refusal :=
  .next (if (s.part p).formed then s.resolveFault p v else s)

/-! ### Shootdowns (R129, R404, R459) -/

/-- Whether a page named by a command meets another. -/
def Shoot.meets (x : Shoot) (va size : Nat) : Bool :=
  let a := pageBase x.va x.size
  decide (va < a + pageBytes x.size) && decide (a < va + pageBytes size)

/-- A fetch shootdown reaches a sequencer: one that has stopped is at a block boundary (R404, R405). -/
def Seq.reachShoot (q : Seq) (x : Shoot) (cycles : Nat) (stopped : Bool) : Seq :=
  let q1 := { q with shoots := q.shoots ++ [(x, cycles)] }
  if stopped || decide (q.mode ≠ .running) then q1.boundary else q1

/-- A fetch shootdown reaches every sequencer of the partition that runs in its context. -/
def State.reachAll (s : State) (p : Fin 16) (x : Shoot) : State :=
  (s.runs.filter (fun r => r.part == p.val && decide (r.ctx = x.ctx))).foldl (fun s r =>
    r.tiles.foldl (fun s t => s.modSeq (tileOf t.2) (fun q => q.reachShoot x (s.tileCycles t.2) r.frozen)) s) s

/-- A shootdown command issued (R459): kind 0 translation, 1 fetch, 2 both. -/
def State.issueShoot (s : State) (p : Fin 16) (kind : Nat) (ctx : Half) (k : Nat) : State :=
  let y := s.part p
  if 16 ≤ y.shoots.length then s.modPart p (fun z => { z with shootOverflow := true })
  else
    let n := y.shootNext + 1#32
    let x : Shoot := ⟨n, kind, k, ctx, y.shootVa.toNat, s.ns⟩
    let s1 := s.modPart p (fun z => { z with shoots := z.shoots ++ [x], shootNext := n })
    if kind = 0 then s1 else s1.reachAll p x

/-- SHOOT_TRANSLATION (R459): kind 0. -/
def execShootTranslation (p : Fin 16) (ctx : BitVec 16) (k : BitVec 3) (s : State) : Host.Outcome State Fault Refusal :=
  .next (if (s.part p).formed then s.issueShoot p 0 ctx k.toNat else s)

/-- SHOOT_FETCH (R459): kind 1. -/
def execShootFetch (p : Fin 16) (ctx : BitVec 16) (k : BitVec 3) (s : State) : Host.Outcome State Fault Refusal :=
  .next (if (s.part p).formed then s.issueShoot p 1 ctx k.toNat else s)

/-- SHOOT_BOTH (R459): kind 2. -/
def execShootBoth (p : Fin 16) (ctx : BitVec 16) (k : BitVec 3) (s : State) : Host.Outcome State Fault Refusal :=
  .next (if (s.part p).formed then s.issueShoot p 2 ctx k.toNat else s)

/-- A base that a condition names translates again at its next use, for the address used. -/
def UnitSt.stale (u : UnitSt) (bad : Base → Bool) : UnitSt :=
  let item (i : Item) : Item := { i with base := i.base.map (fun b => if bad b then { b with page := 2 ^ 61 } else b) }
  let core (c : UnitCore) : UnitCore := { c with
    segment := c.segment.map item
    sticky := match c.sticky with
      | .base b old => .base b (old || bad b)
      | other => other }
  { u with
    ports := u.ports.map (fun q => q.map item), reply := u.reply.map item, out := u.out.map (fun o => (o.1, item o.2))
    hold := u.hold.map (fun o => (o.1, item o.2))
    core := core u.core, kept := u.kept.map (fun k => (k.1, core k.2)) }

/-- Every base of a context's page on the tiles of a partition stale (R459). -/
def State.staleBases (s : State) (p : Fin 16) (ctx : Half) (bad : Base → Bool) : State :=
  (s.runs.filter (fun r => r.part == p.val && decide (r.ctx = ctx))).foldl (fun s r =>
    r.tiles.foldl (fun s t => s.modTile (tileOf t.2) (fun y => { y with
      strands := y.strands.map (fun st => { st with units := st.units.map (fun u => (u.1, u.2.map (fun z => z.stale bad))) }) })) s) s

/-- Every line of a page of a partition's context gone from the instruction L1s (R403, R404): those of sequencers that no longer hold a
load, and what one has fetched again through an old leaf since its block boundary. -/
def State.dropLines (s : State) (p : Fin 16) (x : Shoot) : State :=
  { s with tiles := s.tiles.map (fun (t : Tile) => { t with seq := { t.seq with
      il1 := t.seq.il1.filter (fun w => !(w.part == p.val && decide (w.ctx = x.ctx) && x.meets w.va 0)) } }) }

/-- Every cached translation of a page of a partition's context gone. -/
def State.dropPage (s : State) (p : Fin 16) (x : Shoot) : State :=
  let s1 := { s with tlb := s.tlb.filter (fun e => !(e.part == p.val && decide (e.ctx = x.ctx) && x.meets e.va e.size)) }
  s1.staleBases p x.ctx (fun b => x.meets b.page b.size)

/-- SHOOTDOWN_COMPLETE (R459): the oldest command completes, a fetch shootdown once every sequencer it reached has met a
block boundary. -/
def execShootdownComplete (p : Fin 16) (s : State) : Host.Outcome State Fault Refusal :=
  match (s.part p).shoots with
  | [] => .next s
  | x :: rest =>
    let waits := s.tiles.toList.any (fun t => t.seq.shoots.any (fun y => decide (y.1 = x)))
    if x.kind ≠ 0 && waits then .next s
    else
      let s1 := if x.kind = 0 then s else s.dropLines p x
      .next ((s1.dropPage p x).modPart p (fun y => { y with shoots := rest, shootDone := x.number }))

/-! ### Memory from outside (R130, R175, R450, R451) -/

/-- HOST_MEMORY_WRITE (R450, R413): up to 8 bytes of HBM, stored uncompressed. -/
def execHostMemoryWrite (o : BitVec 39) (n : BitVec 4) (v : BitVec 64) (s : State) : Host.Outcome State Fault Refusal :=
  let k := n.toNat
  .next (if s.enumerated && 1 ≤ k && k ≤ 8 && o.toNat + k ≤ hbmEnd then (s.physWrite false o.toNat (leBytes k v.toNat)).touchL2 o.toNat k else s)

/-- HOST_MEMORY_READ (R450): the bytes, poisoned where they are uncorrectable, which management logs. -/
def execHostMemoryRead (o : BitVec 39) (n : BitVec 4) (s : State) : Host.Outcome State Fault Refusal :=
  let k := n.toNat
  if s.enumerated && 1 ≤ k && k ≤ 8 && o.toNat + k ≤ hbmEnd then
    let v := BitVec.ofNat 512 (leNat (s.physBytes o.toNat k))
    if s.physBad o.toNat k then
      let (syndrome, s1) := (s.eccMet o.toNat k).errSyndrome (s.memErr o.toNat k false)
      .next { s1.logManagement { kind := 5, action := 0, address := o.toNat, syndrome := syndrome } with reply := some (v, true) }
    else .next { s.touchL2 o.toNat k with reply := some (v, false) }
  else .next s

/-- CXL_MEM_ACCESS (R175, R451): a 64-byte line of HDM-DB memory, read, or written after every device copy of it is
invalidated; no agent answers at an address that the HDM decoder does not map. A device that has not enumerated is not there to be
accessed (R471). -/
def execCxlMemAccess (wr : Bool) (a : BitVec 52) (v : BitVec 512) (s : State) : Host.Outcome State Fault Refusal :=
  let line := a.toNat / 64
  if !s.enumerated then .next s
  else if !(s.hdmBase ≤ 64 * line && 64 * line + 64 ≤ s.hdmBase + s.hdmSize && inHbm (64 * line + 63)) then .fault (.unmappedCxl a.toNat)
  else if wr then
    .next ({ s with l2 := s.l2.filter (· ≠ line), xcache := s.xcache.filter (· ≠ line) }.physWrite false (64 * line) (leBytes 64 v.toNat))
  else
    let bad := s.physBad (64 * line) 64
    let s1 := if bad then s.eccMet (64 * line) 64 else s
    .next { s1 with reply := some (BitVec.ofNat 512 (leNat (s.physBytes (64 * line) 64)), bad) }

/-- TABLE_POISON_CLEAR (R130): the mark of the 2 KiB table that holds an address is cleared. -/
def execTablePoisonClear (a : BitVec 52) (s : State) : Host.Outcome State Fault Refusal :=
  .next { s with poisoned := s.poisoned.filter (· ≠ a.toNat / 2048 * 2048) }

end Sys2Proof.Machine
end

