-- ==== Sys2Proof/Machine/LoadEnd.lean ====
section
/-! DEFINITION. Sys2Proof/Machine/LoadEnd.lean: the end of a fabric load (R95, R101, R107, R171, R176, R316, R352), the
quiescence detector and the transit sweep (R103 to R106, R465). -/

namespace Sys2Proof.Machine

/-! ### Sinks and rounds (R101) -/

/-- The sinks of a block of a load, by its strand's ordinal and its key, with whether each has seen the end-of-graph marker. -/
def Run.blockSinks (r : Run) (ordinal key : Nat) (i : Image) : List Bool :=
  (i.withOp 0x89).map (fun u =>
    let imm := uImm (i.unit u)
    if imm % 4 = 1 then (match r.stream (bitsOf imm 9 2) with
      | some y => y.ended
      | none => false)
    else r.sinks.contains (ordinal, key, u))

/-- The sinks of a strand's active block where a cfg.load brought that block from outside the graph (R251). -/
def State.strandSinks (s : State) (r : Run) (p : Fin 192 × Fin 8) : List Bool :=
  match s.rctx p.1 p.2 with
  | none => []
  | some x => if x.key < 64 then [] else r.blockSinks (s.strand p.1 p.2).ordinal x.key x.image

/-- The sinks of the blocks of a load, whether a strand has activated them or not. -/
def Run.graphSinks (r : Run) : List Bool :=
  r.graph.blockList.flatMap (fun b => match r.graph.strands[b.strand]? with
    | some e => if e.load = r.load then r.blockSinks b.strand b.block b.image else []
    | none => [])

/-- Every sink of a load. -/
def State.sinksOf (s : State) (r : Run) : List Bool := r.graphSinks ++ (s.strandsOf r).flatMap (s.strandSinks r)

/-- Whether a round that the load has begun is not committed: a marker of it has been injected, or passed by a unit
(log entry 12). -/
def State.roundOpen (s : State) (r : Run) : Bool :=
  r.ports.any (fun p => r.oldest < p.round)
    || (s.strandsOf r).any (fun p =>
      let st := s.strand p.1 p.2
      decide (r.oldest < st.roundCount) || st.units.any (fun u => u.2.any (fun y => y.nextRound.any (fun k => match k with
        | some m => decide (r.oldest < m)
        | none => false))))

/-- Whether a load has ended (R101). -/
def State.loadEnded (s : State) (r : Run) : Bool :=
  r.freeze.isNone && r.tiles.all (fun t => decide ((s.seq (tileOf t.2)).mode = .ended))
    && !s.roundOpen r && !s.jobs.any (fun j => decide (j.graph = r.gid)) && r.replays.isEmpty
    && (let l := s.sinksOf r
        if l.isEmpty then (s.strandsOf r).all (fun p => decide ((s.strand p.1 p.2).state ≠ .run)) else l.all id)

/-- A graph completes (R101, R316, R387): with a fault token at a sink its status says so, and the fault then goes to
on_fault. -/
def State.finishGraph (s : State) (r : Run) : State :=
  match r.faultSunk with
  | none => s.completeRun r 0 0#8
  | some idx =>
    let f := r.faultRec 10 1 noUnit idx (BitVec.ofNat 32 r.oldest) false 0#8
    (s.completeRun r 1 0#8).deliverFault (partOf r.part) f

/-- Streams whose destination has ended with its load discard what still comes (R107). -/
def Run.exitStreams (r : Run) : List Stream :=
  r.streams.map (fun y => match r.graph.strands[y.source]? with
    | some e => if e.load = r.load then { y with exited := true } else y
    | none => y)

/-- FIFOs whose reader's load has ended discard what still comes (R107). -/
def Run.exitFifos (r : Run) : List Fifo := r.fifos.map (fun f => if f.reader = r.load then { f with exited := true } else f)

/-- The AG placements of a load on a memory tile (R476). -/
def Run.placesNext (r : Run) (load : Nat) : List Place :=
  match r.placed with
  | some x => startPlaces r.graph load x
  | none => []

/-- Whether the next load of a graph can be placed: every route holds a channel on every hop (R122), and every placement has
an address generator (R476), beside the other graphs. -/
def State.nextFits (s : State) (r : Run) : Bool :=
  let rest := { s with runs := s.runs.filter (fun y => decide (y.gid ≠ r.gid)) }
  let mine := r.placesNext (r.load + 1)
  rest.channelsFree r.graph (r.load + 1) r.tiles
    && mine.all (fun p => decide (mine.countP (fun q => q.mtile == p.mtile) + rest.placedAgs p.mtile ≤ s.agsOf p.mtile))

/-- A load's end: the next load is placed (R352), with its first round by R95, or the graph completes. -/
def State.endLoad (s : State) (r : Run) : State :=
  if r.load + 1 < r.graph.loads then
    let first := match r.lastCommitted with
      | some n => max r.first (n + 1)
      | none => r.first
    let s1 := (s.addEclipses r.eclipseAtEnd).modRun r.gid (fun y => { y with
      load := r.load + 1, first := first, streams := r.exitStreams, fifos := r.exitFifos, eclipseAtEnd := [] })
    s1.placeLoad r.gid
  else s.finishGraph r

/-- FABRIC_LOAD_END (R101): a load whose end conditions hold ends; where another load of its graph follows and cannot hold its
channels or address generators, that load stays queued, and the ended one keeps its place until it can (R122). -/
def execFabricLoadEnd (g : BitVec 32) (s : State) : Host.Outcome State Fault Refusal :=
  match s.run g with
  | none => .next s
  | some r => .next (if s.loadEnded r && (decide (r.graph.loads ≤ r.load + 1) || s.nextFits r) then s.endLoad r else s)

/-! ### Quiescence (R103) -/

/-- Whether a sequencer sleeps in wait.addr. -/
def Seq.sleeps (q : Seq) : Bool :=
  match q.stall with
  | some x => (match x.kind with
    | .sleep _ _ => true
    | _ => false)
  | none => false

/-- Whether a load's quiescence detector trips. -/
def State.quiescent (s : State) (r : Run) : Bool :=
  r.freeze.isNone
    && s.standsStill r
    && r.tiles.all (fun t => !(s.seq (tileOf t.2)).sleeps)
    && (s.sinksOf r).any (fun b => !b)

/-! ### The transit sweep (R104 to R106, R465) -/

/-- An entry of the report (R106). -/
structure SweepEntry where
  unit : Word
  kind : Nat
  held : Nat
  needed : Nat
  dest : Word
  occupancy : Nat
  depth : Nat

/-- The 16 bytes of an entry. -/
def SweepEntry.bytes (e : SweepEntry) : List Byte :=
  leBytes 4 e.unit.toNat ++ leBytes 1 e.kind ++ leBytes 1 e.held ++ leBytes 1 e.needed ++ leBytes 1 0 ++ leBytes 4 e.dest.toNat
    ++ leBytes 2 e.occupancy ++ leBytes 2 e.depth

/-- A mask of ports. -/
def portMask (ps : List Nat) : Nat := ps.foldl (fun acc p => acc + 2 ^ p) 0

/-- The edge into a port of a unit. -/
def Image.edgeTo (i : Image) (u port : Nat) : Option Edge := i.edges.find? (fun e => e.dst == u && e.port == port)

/-- Whether a port of a unit holds a token, on its edge or in the gated input that feeds it. -/
def State.portHolds (s : State) (x : RCtx) (u port : Nat) : Bool :=
  !((s.unitAt x u).ports.getD port []).isEmpty || (match x.image.edgeTo u port with
    | some e => !(s.unitAt x e.src).reply.isEmpty
    | none => false)

/-- The ports of a unit that gated boundary inputs feed. -/
def RCtx.gatedPorts (x : RCtx) (u : Nat) : List Nat :=
  (x.image.connected u).filter (fun p => match x.image.edgeTo u p with
    | some e => x.image.gports.any (fun w => !gpOut w && gpUnit w == e.src)
    | none => false)

/-- The entry of a partial join at the gate. -/
def State.joinEntry (s : State) (x : RCtx) (u : Nat) : List SweepEntry :=
  let gated := x.gatedPorts u
  let held := gated.filter (s.portHolds x u)
  if held.isEmpty || held.length == gated.length then []
  else
    let ports := x.image.connected u
    [⟨x.copyId u 0, 1, portMask (ports.filter (s.portHolds x u)), portMask ports, noUnit, 0, 0⟩]

/-- The number of the AG that serves a placement: its place among those of its memory tile (R476, log entry 31). -/
def State.agNumber (s : State) (r : Run) (p : Place) : Nat :=
  let all := s.runs.flatMap (fun x => (x.places.filter (fun q => q.mtile == p.mtile)).map (fun q => (x.gid, q)))
  let n := (all.takeWhile (fun q => q != (r.gid, p))).length
  (s.agNumbers p.mtile).getD n (n % 16)

/-- The edge without room that blocks a unit, with the token for it: the first that it has formed, or would form by firing
(R75). -/
def State.blockedEdge (s : State) (x : RCtx) (u : Nat) : Option (Edge × Item) :=
  let op := uOp (x.image.unit u)
  let st := s.unitAt x u
  let s1 := if !st.out.isEmpty || st.reconf || (0xA0 ≤ op && op ≤ 0xA8) || (0xC0 ≤ op && op ≤ 0xC3) || op = 0x88 then s
    else match unitStep (s.uenv x u) st with
      | some r => s.modUnit x u (fun _ => r.st)
      | none => s
  (x.image.edges.filter (fun e => e.src == u)).findSome? (fun e => match (s1.unitAt x u).out.find? (fun y => y.1 == e.which) with
    | some y => if s1.edgeRoom x e y.2 then none else some (e, y.2)
    | none => none)

/-- The depth field of an entry is 16 bits wide: a larger buffer's depth and occupancy read 0xFFFF (log entry 68). -/
def field16 (n : Nat) : Nat := min n 0xFFFF

/-- The full destination that a unit writes, with the port at which the token waits, and the destination's occupancy and depth. An exit
queue lies in scratchpad and no unit holds it (log entry 31). -/
def State.fullDest (s : State) (r : Run) (x : RCtx) (u : Nat) : Option (List Nat × Word × Nat × Nat) :=
  let w := x.image.unit u
  let st := s.unitAt x u
  if uOp w = 0x8A then
    let strand := s.strand x.t x.k
    match st.ports.getD 0 [], s.exitDesc x.t strand.exitTable (strand.exitDest x.key (uImm w % 8)) with
    | i :: _, some d =>
      if i.isData && !i.isFault && decide (d.capacity ≤ d.waiting) then some ([0], noUnit, d.waiting, d.capacity) else none
    | _, _ => none
  else if uOp w = 0x89 && uImm w % 4 = 1 then
    let n := bitsOf (uImm w) 9 2
    match st.ports.getD 0 [], r.stream n with
    | i :: _, some y =>
      if s.streamRoom r n i.words.length < i.words.length then
        let used := itemWords y.items
        match (s.strandPlace r y.source).bind (fun p => s.rctx p.1 p.2) with
        | some c => (match c.image.streamSource n with
          | some v =>
            let held := used + itemWords (s.unitAt c v).reply
            some ([0], c.copyId v 0, held, max (max y.slots (sourceDepth c.image v)) i.words.length)
          | none => some ([0], noUnit, used, max (max 1 y.slots) i.words.length))
        | none => some ([0], noUnit, used,
            if r.crosses y then max crossDepth y.slots else max (max 1 y.slots) i.words.length)
      else none
    | _, _ => none
  else if uOp w = 0xA1 && !memGlobal w then
    let m := s.menv x u
    match m.place s, st.ports.getD 0 [] with
    | some p, i :: _ =>
      if agMode p.word = 1 && !m.fifoRoom s p i.words.length then
        (r.fifos.find? (isFifoOf p)).map (fun f => ([0], agId p.mtile (s.agNumber r p), f.count, f.extent))
      else none
    | _, _ => none
  else
    match s.blockedEdge x u with
    | some (e, i) => some ((x.image.connected u).filter (s.portHolds x u), x.copyId e.dst 0,
        itemWords ((s.unitAt x e.dst).ports.getD e.port []), (s.edgeCap x e i.words.length).getD 0)
    | none => none

/-- The entry of a unit that a full destination blocks. -/
def State.fullEntry (s : State) (r : Run) (x : RCtx) (u : Nat) : List SweepEntry :=
  match s.fullDest r x u with
  | none => []
  | some (held, d, n, depth) =>
    let mask := portMask held
    [⟨x.copyId u 0, 2, mask, mask, d, field16 n, field16 depth⟩]

/-- Every entry of a load, in the order of R106. -/
def State.sweep (s : State) (r : Run) : List SweepEntry :=
  sortBy (fun e => e.unit.toNat * 4 + e.kind) ((s.strandsOf r).flatMap (fun p =>
    match s.rctx p.1 p.2 with
    | none => []
    | some x => (List.range x.image.count).flatMap (fun u => s.joinEntry x u ++ s.fullEntry r x u)))

/-- A report (R105). -/
def sweepReport (es : List SweepEntry) (all time : Nat) (r : Run) : List Byte :=
  leBytes 4 es.length ++ leBytes 4 (if es.length < all then 1 else 0) ++ leBytes 8 time ++ leBytes 4 r.gid.toNat ++ leBytes 4 r.load
    ++ leBytes 4 65536 ++ leBytes 4 0 ++ es.flatMap SweepEntry.bytes

/-- The report written to the diagnostic buffer where it is set up (R104, R452); the entries written and the address. DESIGN CHOICE
(log entry 73): with no report written, the count is that of the entries found. -/
def State.writeReport (s : State) (r : Run) : Nat × Nat × State :=
  let x := s.part (partOf r.part)
  let es := s.sweep r
  let room := if x.diagBase.toNat = 0 || x.diagSize.toNat < 32 then none else some (min 1024 ((x.diagSize.toNat - 32) / 16))
  match room with
  | none => (es.length, 0, s)
  | some n =>
    let out := es.take n
    match s.virtPut (s.sysAgent (partOf r.part)) r.gid x.diagBase.toNat (sweepReport out es.length s.ns r) with
    | (true, s1) => (out.length, x.diagBase.toNat, s1)
    | (false, s1) => (out.length, 0, s1)

/-- QUIESCENCE_TRIP (R103, R104): the load freezes, the sweep reports, kind 0x08 is logged, and the fault goes to on_fault
with status deadlock. -/
def execQuiescenceTrip (g : BitVec 32) (s : State) : Host.Outcome State Fault Refusal :=
  match s.run g with
  | none => .next s
  | some r =>
    if !s.quiescent r then .next s
    else
      let (n, at_, s1) := s.writeReport r
      let round := BitVec.ofNat 32 r.oldest
      let (idx, s2) := s1.logError (partOf r.part)
        { kind := 8, action := 7, graph := g, ctx := r.ctx, round := round, timestamp := r.timestamp r.oldest, syndrome := n, address := at_ }
      .next (s2.freezeFault g .quiescence 8 4 idx round)

end Sys2Proof.Machine
end

