-- ==== Sys2Proof/Machine/Moves.lean ====
section
/-! DEFINITION. Sys2Proof/Machine/Moves.lean: page moves (R137, R138, R414) and the placement unit's epochs (R139). -/

namespace Sys2Proof.Machine

/-! ### Copying a page (R414) -/

/-- Bytes of a block that its tag occupies (R410). -/
def tagBytes (t : BitVec 4) : Nat := if 8 ≤ t.toNat then 256 else 32 * t.toNat

/-- Whether a byte of the page at a base lies in a sector that its block's tag occupies. -/
def State.occupied (s : State) (base o : Nat) : Bool := o % 256 < tagBytes (s.tag ((base + o) / 256))

/-- A page of n bytes copied within device memory: each block's tag, and only the sectors it occupies. -/
def State.copyBlocks (s : State) (source dest n : Nat) : State :=
  let old := s.mem.filter (fun c => !(dest ≤ c.1 && c.1 < dest + n && s.occupied source (c.1 - dest)))
  let cells := s.mem.filter (fun c => source ≤ c.1 && c.1 < source + n && s.occupied source (c.1 - source))
  let oldTags := s.tags.filter (fun t => !(dest / 256 ≤ t.1 && t.1 < (dest + n) / 256))
  let newTags := s.tags.filter (fun t => source / 256 ≤ t.1 && t.1 < (source + n) / 256)
  { s with
    mem := cells.foldl (fun (m : Memory) c => m.write (c.1 - source + dest) c.2) old
    tags := newTags.foldl (fun (m : Sparse (BitVec 4)) t => m.set (t.1 - source / 256 + dest / 256) t.2) oldTags }

/-- A page of n bytes that arrives from host memory: raw, every tag 0x8. -/
def State.copyIn (s : State) (source dest n : Nat) : State :=
  let cells := s.mem.filter (fun c => source ≤ c.1 && c.1 < source + n)
  { s with
    mem := cells.foldl (fun (m : Memory) c => m.write (c.1 - source + dest) c.2) (s.mem.filter (fun c => !(dest ≤ c.1 && c.1 < dest + n)))
    tags := s.tags.filter (fun t => !(dest / 256 ≤ t.1 && t.1 < (dest + n) / 256)) }

/-- A page copied to host memory: every block expanded; what no read can expand goes as it is stored. -/
def State.copyOut (s : State) (l : Leaf) (dest : Nat) : State :=
  let n := pageBytes l.size
  let bs := match s.leafRead l 0 n with
    | some (bs, _) => bs
    | none => s.physBytes l.frame n
  s.physWrite false dest bs

/-- A page copied to a frame. -/
def State.copyPage (s : State) (l : Leaf) (dest : Nat) : State :=
  if !inHbm dest then s.copyOut l dest
  else if inHbm l.frame then s.copyBlocks l.frame dest (pageBytes l.size)
  else s.copyIn l.frame dest (pageBytes l.size)

/-! ### The end of a move (R138) -/

/-- An address of a page that has moved. -/
def Move.redirect (m : Move) (a : Nat) : Nat :=
  if m.source ≤ a && a < m.source + pageBytes m.size then a - m.source + m.dest else a

/-- The page that a request holds, after a remap. -/
def Base.redirect (m : Move) (b : Base) : Base := { b with frame := m.redirect b.frame }

/-- What a remap changes in tokens: the page that an error-tagged one was read from (R377). -/
def Move.shift (m : Move) : Shift := { tiles := [], mtiles := [], base := id, page := Base.redirect m }

/-- A unit's outstanding requests and its tokens after a remap. -/
def UnitSt.redirect (m : Move) (u : UnitSt) : UnitSt :=
  { m.shift.queues u with requests := u.requests.map (fun q => if q.scratch then q else { q with
    address := m.redirect q.address, frame := q.frame.map (Base.redirect m), more := q.more.map (fun y => (y.1, Base.redirect m y.2)) }) }

/-- A graph's buffered stores and the tokens that it keeps after a remap. -/
def Run.redirect (m : Move) (r : Run) : Run :=
  let r := m.shift.run r
  { r with stores := r.stores.map (fun b => if b.scratch then b else { b with address := m.redirect b.address }) }

/-- The buffered stores, tokens and outstanding requests of the partition's loads after a remap, the saved ones among them. -/
def State.redirect (s : State) (m : Move) : State :=
  let mine := s.runs.filter (fun r => r.part == m.part)
  let s1 := { s with
    runs := s.runs.map (fun r => if r.part == m.part then r.redirect m else r)
    saved := s.saved.map (fun v => if v.run.part == m.part then { v with run := v.run.redirect m } else v) }
  mine.foldl (fun (s : State) r => r.tiles.foldl (fun (s : State) t => s.modTile (tileOf t.2) (fun y => { y with
    strands := y.strands.map (fun st => { st with units := st.units.map (fun u => (u.1, u.2.map (fun z => z.redirect m))) }) })) s) s1

/-- A leaf entry that names another frame; one of host memory is stored plain, comp 0b00 (R414). -/
def reframe (e : DWord) (frame : Nat) : DWord :=
  (e &&& (if inHbm frame then 0xFF00_0000_0000_FFFF#64 else 0xFF00_0000_0000_F3FF#64)) ||| BitVec.ofNat 64 (frame / 4096 * 65536)

/-- The leaf of a page rewritten for another frame, every entry of a group (R126). -/
def State.remap (s : State) (l : Leaf) (frame : Nat) : State :=
  (List.range (if bitOf l.entry.toNat 8 then 16 else 1)).foldl (fun (s : State) i =>
    let at_ := l.entryAt + 8 * i
    s.physWrite false at_ (leBytes 8 (reframe (BitVec.ofNat 64 (leNat (s.physBytes at_ 8))) frame).toNat)) s

/-- The hot page of a move changed. -/
def State.modHot (s : State) (m : Move) (f : HotPage → HotPage) : State :=
  { s with hot := s.hot.map (fun h => if h.part == m.part && decide (h.ctx = m.ctx) && h.va == m.va then f h else h) }

/-- Every cached translation of a page that has moved shot down (R138). -/
def State.shootMoved (s : State) (m : Move) : State := s.dropPage (partOf m.part) ⟨0#32, 0, m.size, m.ctx, m.va, s.ns⟩

/-- A migration's end: the page is copied, its leaf names the new frame, and every cached translation of it is shot down. -/
def State.finishMigrate (s : State) (m : Move) : State :=
  match s.walk ⟨s.homeDie (partOf m.part), partOf m.part, m.ctx, false⟩ m.va with
  | .leaf l =>
    if l.frame == m.source && l.size == m.size then
      let s1 := (s.copyPage l m.dest).remap l m.dest
      let s2 := (s1.shootMoved m).redirect m
      let s3 := s2.modHot m (fun h => { h with frame := m.dest, home := m.dest / 2 ^ 37 })
      { s3 with hot := s3.hot.filter (fun h => inHbm h.frame) }
    else s
  | _ => s

/-- PAGE_MOVE (R138): the n-th move in progress completes; its writers then go on. -/
def execPageMove (n : BitVec 16) (s : State) : Host.Outcome State Fault Refusal :=
  match s.moves[n.toNat]? with
  | none => .next s
  | some m =>
    let s1 : State := { s with moves := s.moves.erase m }
    match m.kind with
    | .migrate => .next (s1.finishMigrate m)
    | .replicate =>
      .next (((s1.copyBlocks m.source m.dest (pageBytes m.size)).shootMoved m).modHot m (fun h => { h with replicas := h.replicas ++ [m.dest / 2 ^ 37] }))
    | .collapse => .next ((s1.shootMoved m).modHot m (fun h => { h with replicas := [] }))

/-! ### Epochs (R139) -/

/-- The die that a page's counts choose: c[d] above 64 × P and enough frames free, the largest n[d], the lowest die first.
The mean depth of the link queue and whether d has the frames are open (log entry 33). -/
def State.chooseDie (s : State) (h : HotPage) : Option Nat × State :=
  let eligible (d : Nat) : Bool :=
    let n := h.counts.getD d 0
    let q := Config.freeNat (s.free + d)
    d != h.home && decide (512 * 16 ^ h.size < n * (16 + q)) && Config.freeBool (s.free + d)
  (maxBy (fun d => 4 * h.counts.getD d 0 + (3 - d)) ((List.range 4).filter eligible), { s with free := s.free + 4 })

/-- A page evaluated: a move may begin; a replica that the die already holds stays. -/
def State.evaluatePage (s : State) (h : HotPage) : State :=
  match s.chooseDie h with
  | (none, s1) => s1
  | (some d, s1) =>
    let n := h.counts.getD d 0
    let kind : Option MoveKind :=
      if h.writes = 0 then some .replicate
      else if 2 * h.counts.getD h.home 0 < n then some .migrate else none
    match kind with
    | none => s1
    | some k =>
      let busy := s1.moves.any (fun m => m.part == h.part && decide (m.ctx = h.ctx) && m.va == h.va)
      if busy || (if k == .migrate then !h.replicas.isEmpty else h.replicas.contains d) then s1
      else
        match s1.drawFrame (d * 2 ^ 37) (2 ^ 37) h.size with
        | (none, s2) => s2
        | (some dest, s2) => { s2 with moves := s2.moves ++ [⟨h.part, h.ctx, h.va, h.size, h.frame, dest, k, none⟩] }

/-- Whether a page that the placement unit counts is still hot, in the frame that it knows. -/
def State.stillHot (s : State) (h : HotPage) : Bool :=
  match s.walk ⟨h.home % 4, partOf h.part, h.ctx, false⟩ h.va with
  | .leaf l => leafHot l.entry && l.frame == h.frame && l.size == h.size
  | _ => false

/-- PLACEMENT_EPOCH (R139): at the end of a 1 ms epoch a die evaluates its hot pages, then halves their counts. -/
def execPlacementEpoch (d : Fin 4) (s : State) : Host.Outcome State Fault Refusal :=
  if s.ns / 1000000 ≤ s.epochs[d] then .next s
  else
    let s0 : State := { s with hot := s.hot.filter (fun h => h.home != d.val || s.stillHot h) }
    let s1 := (s0.hot.filter (fun h => h.home == d.val)).foldl (fun (s : State) h => s.evaluatePage h) s0
    .next { s1 with
      epochs := s1.epochs.set d (s.ns / 1000000)
      hot := s1.hot.map (fun h => if h.home == d.val then { h with counts := h.counts.map (· / 2), writes := h.writes / 2 } else h) }

end Sys2Proof.Machine
end

