-- ==== Sys2Proof/Machine/Verifier.lean ====
section
/-! DEFINITION. Sys2Proof/Machine/Verifier.lean: the almanac's verifier (R363), over the header and the code words of an
image. -/

namespace Sys2Proof.Machine

/-! ### The linear reading of the code: where words and loops start -/

/-- The opcode of an almanac code word (R201). -/
def almOp (w : Half) : Nat := field w 15 10

/-- The word offsets at which instructions start. -/
def almStarts : Nat → List Half → List Nat
  | _, [] => []
  | pc, w :: rest =>
    if almanacExt w then
      match rest with
      | [] => [pc]
      | _ :: more => pc :: almStarts (pc + 2) more
    else pc :: almStarts (pc + 1) rest

/-- What the decoder says of the word at an offset, as a code of R363: a reserved field before a missing extension word. -/
def almWordCode (code : List Half) (pc : Nat) : Option Nat :=
  match decodeAlm (code.drop pc ++ [0#16]) with
  | .ok (_, n) => if n ≤ (code.drop pc).length then none else some 4
  | .error .reservedOpcode => some 2
  | .error _ => some 3

/-- Loops as the code nests them: the loop.n and the endl of each, and whether every one of them matches, nested at most
2 deep; opened holds those still open, innermost first. -/
def almLoops (code : List Half) : List Nat → List Nat → List (Nat × Nat) × Bool
  | [], opened => ([], opened.isEmpty)
  | pc :: rest, opened =>
    match (code[pc]?).map almOp with
    | some 0x1B => let r := almLoops code rest (pc :: opened); (r.1, r.2 && decide (opened.length < 2))
    | some 0x1C =>
      match opened with
      | [] => ((almLoops code rest []).1, false)
      | l :: ls => let r := almLoops code rest ls; ((l, pc) :: r.1, r.2)
    | _ => almLoops code rest opened

/-- Whether a word lies in a loop's body. -/
def inBody (l : Nat × Nat) (pc : Nat) : Bool := l.1 < pc && pc ≤ l.2

/-! ### Paths (codes 0x05 and 0x06) -/

/-- The target of a branch word. -/
def almTarget (pc : Nat) (w : Half) : Nat := pc + 1 + (field w 9 7 * 16 + field w 3 0)

/-- The words that a path may reach next from a word, and those of them that a branch reaches. -/
def almNext (code : List Half) (loops : List (Nat × Nat)) (pc : Nat) : List Nat × List Nat :=
  match code[pc]? with
  | none => ([], [])
  | some w =>
    match almOp w with
    | 0x00 => ([], [])
    | 0x18 => ([pc + 1, almTarget pc w], [almTarget pc w])
    | 0x19 => ([pc + 1, almTarget pc w], [almTarget pc w])
    | 0x1A => ([almTarget pc w], [almTarget pc w])
    | 0x1C => ((pc + 1) :: (loops.filter (fun l => l.2 == pc)).map (fun l => l.1 + 1), [])
    | _ => ([pc + (if almanacExt w then 2 else 1)], [])

/-- The codes that the paths from a list of words raise: a path that reaches word n, a target on an extension word, a branch
from outside a loop's body into it. Fuel bounds the words visited. -/
def almPaths (code : List Half) (starts : List Nat) (loops : List (Nat × Nat)) : Nat → List Nat → List Nat → List Nat
  | 0, _, _ => []
  | _ + 1, [], _ => []
  | fuel + 1, pc :: todo, seen =>
    if seen.contains pc then almPaths code starts loops fuel todo seen
    else
      let r := almNext code loops pc
      let off := r.1.any (fun t => !starts.contains t)
      let into := r.2.any (fun t => loops.any (fun l => inBody l t && !inBody l pc))
      (if off then [5] else []) ++ (if into then [6] else [])
        ++ almPaths code starts loops fuel (r.1.filter starts.contains ++ todo) (pc :: seen)

/-- The words that paths from a list of words reach without going past one word. Fuel bounds the words visited. -/
def almReached (code : List Half) (loops : List (Nat × Nat)) (past : Nat) : Nat → List Nat → List Nat → List Nat
  | 0, _, seen => seen
  | _ + 1, [], seen => seen
  | fuel + 1, pc :: todo, seen =>
    if seen.contains pc then almReached code loops past fuel todo seen
    else almReached code loops past fuel ((if pc = past then [] else (almNext code loops pc).1) ++ todo) (pc :: seen)

/-- Whether a path from an entry inside a loop's body reaches the loop's endl, which then has no open loop.n. -/
def entryUnopened (code : List Half) (loops : List (Nat × Nat)) (e : Nat) : Bool :=
  loops.any (fun l => inBody l e && (almReached code loops l.1 (4 * code.length + 4) [e] []).contains l.2)

/-! ### Lengths (code 0x07) -/

/-- The steps that may follow a step: the word, with the open loops and the iterations each has left. -/
def almAfter (code : List Half) (x : Nat × List (Nat × Nat × Nat)) : List (Nat × List (Nat × Nat × Nat)) :=
  let (pc, loops) := x
  let leave (t : Nat) : Nat × List (Nat × Nat × Nat) := (t, loops.filter (fun l => l.1 ≤ t && t < l.2.1))
  match code[pc]? with
  | none => []
  | some w =>
    match almOp w with
    | 0x00 => []
    | 0x18 => [(pc + 1, loops), leave (almTarget pc w)]
    | 0x19 => [(pc + 1, loops), leave (almTarget pc w)]
    | 0x1A => [leave (almTarget pc w)]
    | 0x1B => [(pc + 1, (pc + 1, afterEndl code code.length (pc + 1) 0, field w 3 0) :: loops)]
    | 0x1C =>
      match loops with
      | (start, after, n + 1) :: ls => [(start, (start, after, n) :: ls)]
      | _ :: ls => [(pc + 1, ls)]
      | [] => [(pc + 1, [])]
    | _ => [(pc + (if almanacExt w then 2 else 1), loops)]

/-- Whether some path from one of these steps takes more than a number of steps. -/
def almLonger (code : List Half) : Nat → List (Nat × List (Nat × Nat × Nat)) → Bool
  | 0, xs => !xs.isEmpty
  | n + 1, xs => almLonger code n (dedup (xs.flatMap (almAfter code)))

/-! ### The verifier -/

/-- The header of an image: n and the three entries. -/
def almHeader (img : List Byte) : Nat × Nat × Nat × Nat := (recNat img 0 2, recNat img 2 2, recNat img 4 2, recNat img 6 2)

/-- The code words of an image. -/
def almWords (img : List Byte) : List Half :=
  (List.range (recNat img 0 2)).map (fun i => BitVec.ofNat 16 (recNat img (16 + 2 * i) 2))

/-- The code of R363: the first of the table that applies, 0 for an accepted image. An image shorter than its n words is
rejected as n out of range. -/
def verifyAlmanac (img : List Byte) : Nat :=
  let (n, a, b, c) := almHeader img
  let code := almWords img
  let starts := almStarts 0 code
  let entries := [a, b, c]
  if img.length < 16 || n < 1 || 1024 < n || img.length < 16 + 2 * n || recNat img 8 8 ≠ 0 || entries.any (fun e => !starts.contains e) then 1
  else
    let words := starts.filterMap (almWordCode code)
    let (loops, matched) := almLoops code starts []
    let nested := if matched && !entries.any (entryUnopened code loops) then [] else [6]
    let paths := almPaths code starts loops (4 * n + 4) entries []
    match minBy id (words ++ nested ++ paths) with
    | some x => x
    | none => if almLonger code 256 (entries.map (fun e => (e, []))) then 7 else 0

/-- The almanac that an accepted image is. -/
def almanacOf (img : List Byte) : Almanac :=
  let (_, a, b, c) := almHeader img
  ⟨a, b, c, almWords img⟩

end Sys2Proof.Machine
end

