-- ==== Sys2Proof/Machine/Manage.lean ====
section
/-! DEFINITION. Sys2Proof/Machine/Manage.lean: management commands (R468, R469, R473 to R475). A command completes in the step
that starts it, or, where the world makes it slow, in a later one (log entry 34); its arguments are MARG0 to MARG5. -/

namespace Sys2Proof.Machine

/-! ### Completion (R473) -/

/-- How a command ends: its status, its detail, and the data that MRES then holds. -/
structure Ended where
  status : Nat
  detail : Nat := 0
  data : DWord := 0#64
  deriving DecidableEq, Repr

/-- A command's end in MSTAT and MRES. -/
def State.completeCommand (s : State) (tag : Half) (e : Ended) : State :=
  { s with mstat := BitVec.ofNat 64 (tag.toNat + 65536 * e.status + 2 ^ 32 * e.detail), mres := e.data }

/-- The busy bit of MSTAT. -/
def busyBit : DWord := 0x8000_0000_0000_0000#64

/-- The management cores busy with a command, by the value of MCMD that started it. -/
def State.busyWith (s : State) (v : DWord) : State := { s with busy := some v, mstat := s.mstat ||| busyBit }

/-- A command carried out, unless the device is decommissioned (R468). None reaches a device that has not enumerated (R471), or one
that is busy with another (R473). -/
def State.command (s : State) (tag : Half) (f : State → Ended × State) : Host.Outcome State Fault Refusal :=
  if !s.enumerated || s.busy.isSome then .next s
  else if s.lifecycle = 3#2 then .next (s.completeCommand tag ⟨4, 0, 0#64⟩)
  else let (e, s1) := f s; .next (s1.completeCommand tag e)

/-- Done. -/
def cmdDone : Ended := ⟨0, 0, 0#64⟩
/-- A status and no more. -/
def refuse (status : Nat) : Ended := ⟨status, 0, 0#64⟩

/-- A partition number of an argument. -/
def partArg (v : DWord) : Option (Fin 16) := if h : v.toNat < 16 then some ⟨v.toNat, h⟩ else none

/-- A command on a formed partition that MARG0 names. -/
def State.onPart (s : State) (f : Fin 16 → Ended × State) : Ended × State :=
  match partArg s.marg[0] with
  | none => (refuse 1, s)
  | some p => if (s.part p).formed then f p else (refuse 1, s)

/-! ### The eclipse map (R381) -/

/-- The package ordinal of the pair that a tile index names. -/
def ordinalOf (die index : Nat) : Nat := die * 48 + index / 2

/-- Whether a running graph holds a unit: the compute tile that has it, or the memory tile. -/
def State.unitHeld (s : State) (u : Word) : Bool :=
  let n := ordinalOf (field u 31 30) (field u 29 23)
  match field u 22 20 with
  | 3 => !(s.mtile n).windows.isEmpty
  | 5 => !(s.mtile n).windows.isEmpty
  | 6 => false
  | 7 => false
  | _ => (s.runOfTile n).isSome

/-- ECLCLR (R474). -/
def execEclclr (tag : BitVec 16) (s : State) : Host.Outcome State Fault Refusal :=
  s.command tag (fun s =>
    let u : Word := s.marg[0].setWidth 32
    if field s.marg[0] 63 32 ≠ 0 || !unitIdOk u then (refuse 1, s)
    else if s.unitHeld u then (refuse 2, s)
    else (cmdDone, { s with eclipse := s.eclipse.filter (· ≠ eclipseKey u) }))

/-! ### Almanacs (R363, R364) -/

/-- ALMSTAGE (R474): the image is read from the host's memory and verified; a rejected one leaves the shadow slot empty. -/
def execAlmstage (tag : BitVec 16) (s : State) : Host.Outcome State Fault Refusal :=
  s.command tag (fun s => s.onPart (fun p =>
    let bus := s.marg[1].toNat; let n := s.marg[2].toNat
    if hostBase < bus + min n 2064 then (refuse 1, s)
    else
      let img := s.physBytes (hostBase + bus) (min n 2064)
      match verifyAlmanac img with
      | 0 => (cmdDone, s.modPart p (fun x => { x with shadow := some (almanacOf img) }))
      | code => (⟨5, code, 0#64⟩, s.modPart p (fun x => { x with shadow := none }))))

/-- ALMSWAP (R474, R364): the swap is requested. -/
def execAlmswap (tag : BitVec 16) (s : State) : Host.Outcome State Fault Refusal :=
  s.command tag (fun s => s.onPart (fun p =>
    if (s.part p).shadow.isNone then (refuse 4, s)
    else (cmdDone, s.modPart p (fun x => { x with swapRequest := some (bitOf s.marg[1].toNat 0) }))))

/-! ### Graphs and partitions -/

/-- PRELEASE (R474, R359): the hold ends, which triggers on_dispatch with code 0x06 (R354). -/
def execPrelease (tag : BitVec 16) (s : State) : Host.Outcome State Fault Refusal :=
  s.command tag (fun s => s.onPart (fun p =>
    if !(s.part p).held then (refuse 4, s)
    else (cmdDone, (s.modPart p (fun x => { x with held := false })).trigger p .dispatch 0x06 0xFFFF_FFFF#32)))

/-- GKILL (R474, R475): killed by the host, without eclipse. -/
def execGkill (tag : BitVec 16) (s : State) : Host.Outcome State Fault Refusal :=
  s.command tag (fun s =>
    let g : Word := s.marg[0].setWidth 32
    if field s.marg[0] 63 32 ≠ 0 || (s.run g).isNone then (refuse 1, s)
    else (cmdDone, (s.modRun g (fun r => { r with hostKilled := true })).kill g 0x11 0#8))

/-- EMASK (R474, R447): the part's erratum table holds one erratum with an emulation (R477). -/
def execEmask (tag : BitVec 16) (s : State) : Host.Outcome State Fault Refusal :=
  s.command tag (fun s => s.onPart (fun p =>
    let e : Half := s.marg[1].setWidth 16
    if e ≠ partErratum then (refuse 1, s)
    else
      (cmdDone, s.modPart p (fun x =>
        let others := x.emask.filter (· ≠ e)
        { x with emask := if bitOf s.marg[1].toNat 16 then e :: others else others }))))

/-- PARTSET (R474): the partition is formed, with its pairs of one die. -/
def execPartset (tag : BitVec 16) (s : State) : Host.Outcome State Fault Refusal :=
  s.command tag (fun s =>
    match partArg s.marg[0] with
    | none => (refuse 1, s)
    | some p =>
      let d : Fin 4 := Fin.ofNat 4 (field s.marg[1] 1 0)
      let mask : BitVec 48 := s.marg[2].setWidth 48
      let taken := (List.finRange 16).any (fun q => decide (q ≠ p) && decide ((s.part q).pairs[d] &&& mask ≠ 0#48))
      if taken || s.runs.any (fun r => r.part == p.val) then (refuse 2, s)
      else if s.harebell && decide (p ≠ 0) then (refuse 4, s)
      else
        (cmdDone, s.modPart p (fun x => { x with
          formed := true, pairs := x.pairs.set d mask, tileQuota := field s.marg[3] 7 0, slotQuota := field s.marg[3] 15 8
          margin := BitVec.ofNat 32 (field s.marg[3] 47 16) })))

/-- Whether a save of a partition is in progress (R398). -/
def State.saving (s : State) (p : Fin 16) : Bool :=
  s.runs.any (fun r => r.part == p.val && (decide (r.freeze = some .preempt) || decide (r.freeze = some .pageFault)))

/-- SAVEAREA (R474, R398). -/
def execSavearea (tag : BitVec 16) (s : State) : Host.Outcome State Fault Refusal :=
  s.command tag (fun s => s.onPart (fun p =>
    let base := s.marg[1].toNat; let n := s.marg[2].toNat
    if base % 4096 ≠ 0 || hbmEnd < base + n then (refuse 1, s)
    else if s.saving p then (refuse 2, s)
    else (cmdDone, s.modPart p (fun x => { x with saveBase := base, saveSize := n }))))

/-! ### The device -/

/-- STRPAIR (R474, R461): a channel of an off-package port is paired with a stream; a die has the ports 0 to 2 (R14, R22). -/
def execStrpair (tag : BitVec 16) (s : State) : Host.Outcome State Fault Refusal :=
  s.command tag (fun s =>
    let channel := field s.marg[0] 7 0
    if field s.marg[0] 3 2 = 3 then (refuse 1, s)
    else (cmdDone, { s with strPairs := (channel, s.marg[1].toNat) :: s.strPairs.filter (fun x => x.1 != channel) }))

/-- CAPSET (R474, R470). -/
def execCapset (tag : BitVec 16) (s : State) : Host.Outcome State Fault Refusal :=
  s.command tag (fun s =>
    let w := s.marg[0].toNat
    if w < 1200 || 3000 < w then (refuse 1, s) else (cmdDone, { s with cap := w }))

/-- A ring emptied. -/
def Ring.empty (r : Ring) : Ring := { r with head := r.tail, sinceMsg := 0 }

/-- A partition after a wipe: its almanac, its rings and its save area hold nothing (R469, R475). -/
def Part.wipe (x : Part) : Part :=
  { x with
    queues := x.queues.map (fun q => { q with eligible := none })
    cr := x.cr.empty, fr := x.fr.empty, el := x.el.empty
    waiting := [], heldTiles := [], appends := [], faults := []
    almanac := none, shadow := none, swapRequest := none, pending := [], inv := none, deferred := none, deferredFallback := false,
    resume := [] }

/-- A compute tile after a wipe: its context store and instruction L1 are empty (R469). -/
def Tile.wipe (t : Tile) : Tile :=
  { t with
    seq := { t.seq.idle with il1 := [] }
    ctxs := Vector.replicate 16 {}
    strands := Vector.replicate 8 {}
    core := {} }

/-- A wipe (R469): every HBM and scratchpad byte 0, every block tag 0x8, every context store, commit buffer, cache, TLB,
translation cache, save area and ring empty. The eclipse map, the life-cycle state and the rollback counter survive. -/
def State.wipe (s : State) : State :=
  { s with
    mem := s.mem.filter (fun c => !inHbm c.1)
    tags := [], ecc := s.ecc.filter (fun l => !inHbm (64 * l)), poisoned := [], tlb := [], l2 := [], l2ecc := [], xcache := []
    tiles := s.tiles.map Tile.wipe
    mtiles := Vector.replicate 192 {}
    parts := s.parts.map Part.wipe
    runs := [], saved := [], jobs := [], vstreams := [], hot := [], moves := [], xlcache := [] }

/-- The almanac's pending swaps complete (R475). -/
def State.completeSwaps (s : State) : State :=
  (List.finRange 16).foldl (fun (s : State) p =>
    match (s.part p).swapRequest with
    | none => s
    | some _ => match execAlmanacSwap p (s.modPart p (fun x => { x with inv := none })) with
      | .next s1 => s1
      | _ => s) s

/-- LCSTEP (R468, R469, R474, R475): every running graph ends as killed by the host, the swaps that wait complete, and the
device is wiped in its next state. -/
def execLcstep (tag : BitVec 16) (s : State) : Host.Outcome State Fault Refusal :=
  s.command tag (fun s =>
    let s1 := s.runs.foldl (fun (s : State) r => s.completeRun r.discard 0x11 0#8) s
    (cmdDone, { s1.completeSwaps.wipe with lifecycle := s.lifecycle + 1#2 }))

/-! ### Debug access to memory (R395, R402) -/

/-- The partition that holds an address context. -/
def State.partOfCtx (s : State) (ctx : Half) : Option (Fin 16) := (List.finRange 16).find? (fun p => (s.rootOf p ctx).isSome)

/-- The context that a DBGACC command names. -/
def State.debugCtx (s : State) : Half := BitVec.ofNat 16 (field s.marg[0] 31 16)

/-- The debug port as an agent in a context (R133: not a user-mode access). -/
def State.debugAgent (s : State) : Option Agent := (s.partOfCtx s.debugCtx).map (fun p => ⟨s.homeDie p, p, s.debugCtx, false⟩)

/-- Whether a table maps a byte range of frames executable. -/
def State.mapsExec (s : State) (lo hi : Nat) : Nat → List Nat → Bool
  | _, [] => false
  | table, level :: levels =>
    (List.range 256).any (fun i =>
      let e := s.entry table i
      bitOf e.toNat 0 &&
        (if bitOf e.toNat 1 then
          let frame := field e 55 16 * 4096
          bitOf e.toNat 4 && decide (frame < hi) && decide (lo < frame + pageBytes (2 * level + (if bitOf e.toNat 8 then 1 else 0)))
        else State.mapsExec s lo hi (field e 55 15 * 2048) levels))

/-- Whether any other context of the partition maps a frame with exec = 1 (R395). -/
def State.sharedExec (s : State) (g : Agent) (l : Leaf) : Bool :=
  (s.part g.part).roots.any (fun r => decide (r.1 ≠ g.ctx) && s.mapsExec l.frame (l.frame + pageBytes l.size) r.2 [4, 3, 2, 1, 0])

/-- DBGACC, op 0 (R474): 8 bytes read; an address that cannot be read is an invalid argument. -/
def execDbgaccRead (tag : BitVec 16) (s : State) : Host.Outcome State Fault Refusal :=
  s.command tag (fun s =>
    match s.debugAgent with
    | none => (refuse 1, s)
    | some g =>
      if 2 ^ 52 < s.marg[1].toNat + 8 then (refuse 1, s)
      else
        match s.virtGet g noUnit s.marg[1].toNat 8 with
        | (some bs, s1) => (⟨0, 0, BitVec.ofNat 64 (leNat bs)⟩, s1)
        | (none, s1) => (refuse 1, s1))

/-- Whether the page at an address has a frame that another context maps executable (R395). -/
def State.sharedAt (s : State) (g : Agent) (va : Nat) : Bool :=
  match s.walk g va with
  | .leaf l => s.sharedExec g l
  | _ => false

/-- Whether the 8 bytes that a debugger writes are withheld: a page of theirs moves, or is replicated (R138, R139). -/
def State.debugHeldWrite (s : State) : Bool :=
  let va := s.marg[1].toNat
  match s.debugAgent with
  | none => false
  | some g => va + 8 ≤ 2 ^ 52 && !s.sharedAt g va && !s.sharedAt g (va + 7) && (s.heldWrite g va || s.heldWrite g (va + 7))

/-- The collapses that a withheld write of a debugger starts. -/
def State.holdDebugWrite (s : State) : State :=
  match s.debugAgent with
  | none => s
  | some g => (s.holdWrite g s.marg[1].toNat).holdWrite g (s.marg[1].toNat + 7)

/-- DBGACC, op 1 (R474, R395): 8 bytes written, refused where any other context maps a target frame executable. While a page of theirs
moves, the command stays busy (R138, R473). -/
def execDbgaccWrite (tag : BitVec 16) (s : State) : Host.Outcome State Fault Refusal :=
  if s.enumerated && s.busy.isNone && s.lifecycle != 3#2 && s.debugHeldWrite then
    .next (s.holdDebugWrite.busyWith (BitVec.ofNat 64 (0x0C + 65536 * tag.toNat)))
  else s.command tag (fun s =>
    match s.debugAgent with
    | none => (refuse 1, s)
    | some g =>
      let va := s.marg[1].toNat
      if 2 ^ 52 < va + 8 then (refuse 1, s)
      else
        if s.sharedAt g va || s.sharedAt g (va + 7) then (refuse 3, s)
        else
          match s.virtPut g noUnit va (leBytes 8 s.marg[2].toNat) with
          | (true, s1) => (cmdDone, s1)
          | (false, s1) => (refuse 1, s1))

/-- A load in a debug hold goes on (R402): the sequencer whose routine waits in it returns by eret. -/
def State.releaseHold (s : State) (r : Run) : State :=
  let s1 := s.modRun r.gid (fun x => { x with freeze := none, frozen := false, lastFire := s.ns })
  r.tiles.foldl (fun (s : State) t =>
    s.modSeq (tileOf t.2) (fun q => if q.holding then { q.eret with holding := false } else q)) s1

/-- DBGACC, op 2 (R474, R402): every held load of the context goes on. -/
def execDbgaccRelease (tag : BitVec 16) (s : State) : Host.Outcome State Fault Refusal :=
  s.command tag (fun s =>
    match s.runs.filter (fun r => decide (r.ctx = s.debugCtx) && decide (r.freeze = some .debug)) with
    | [] => (refuse 4, s)
    | held => (cmdDone, held.foldl (fun (s : State) r => s.releaseHold r) s))

end Sys2Proof.Machine
end

