-- ==== Sys2Proof/Machine/Matrix.lean ====
section
/-! DEFINITION. Sys2Proof/Machine/Matrix.lean: the matrix core (R46 to R53, R332 to R338): mxa, mxd, mxz and mxs. -/

namespace Sys2Proof.Machine

/-! ### One group of one PE (R47 to R49) -/

/-- K-group n of a pair of formats (R47). -/
def kGroup (a b : Fmt) : Nat :=
  if a = .e2m1 && b = .e2m1 then 16 else if a = .bf16 || a = .f16 then 4 else 8

/-- The exact group sum of a floating pair (R48): a and b are the encoded elements, sa and sb their scales. In the second firing of a
group the elements of A stand shifted left one bit (R53). -/
def groupSum (fa fb : Fmt) (a b : List Nat) (sa sb shift : Nat) : Val :=
  if sa = 255 || sb = 255 then .nan
  else
    match (a.zip b).map (fun x => ((fa.decode x.1).scale shift).mul (fb.decode x.2)) with
    | [] => .fin false 0 0
    | p :: ps => (ps.foldl Val.add p).scale ((sa : Int) - 127 + ((sb : Int) - 127))

/-- The group sum of INT8 (R49), the elements of A shifted as in groupSum. -/
def intSum (a b : List Nat) (shift : Nat) : Int := ((a.zip b).map (fun x => sextNat x.1 8 * 2 ^ shift * sextNat x.2 8)).foldl (· + ·) 0

/-- What R53 requires of the second group sum: twice a finite first one, the same infinity, or NaN. -/
def parallaxOk (first second : Val) : Bool :=
  match first with
  | .nan => second.isNan
  | .inf n => decide (second = .inf n)
  | .fin .. => (second.add (first.scale 1).neg).isZero

/-- Whether the two firings of a group disagree where a disturbance is added to the second (R53, log entry 6): x is its amount, an
integer for INT8 and an FP32 number otherwise. Undisturbed, the second sum is what the table requires. -/
def parallaxMismatch (fa fb : Fmt) (a b : List Nat) (sa sb : Nat) (x : Word) : Bool :=
  if fa = .i8 then decide (intSum a b 1 + x.toInt ≠ 2 * intSum a b 0)
  else !parallaxOk (groupSum fa fb a b sa sb 0) ((groupSum fa fb a b sa sb 1).add (Fmt.decode .f32 x.toNat))

/-- An accumulator after a group sum: its value, and whether it clamped (R48, R49). -/
def accumulate (fa fb : Fmt) (acc : BitVec 48) (a b : List Nat) (sa sb : Nat) : BitVec 48 × Bool :=
  if fa = .i8 then
    let v := sextNat acc.toNat 32 + intSum a b 0
    let c := clampInt v (-(2 ^ 31)) (2 ^ 31 - 1)
    (BitVec.ofNat 48 (intBits 32 c), decide (c ≠ v))
  else (BitVec.ofNat 48 (Fmt.rne .acc48 ((Fmt.decode .acc48 acc.toNat).add (groupSum fa fb a b sa sb 0))), false)

/-! ### Wavefronts (R333, R334) -/

/-- Elements up to a limit at the head of a port, and whether a stop or a marker follows them. -/
def scanPort : Nat → List Item → List Item × Bool
  | _, [] => ([], false)
  | 0, i :: _ => ([], !i.isElem)
  | n + 1, i :: is => if i.isElem then (let (xs, p) := scanPort n is; (i :: xs, p)) else ([], true)

/-- The 64-bit value of a row or column in 16 bundles (R333); missing rows and void words are zero (R335). -/
def rowValue (bundles : List Item) (row : Nat) : Nat :=
  match bundles[row / 4]? with
  | none => 0
  | some i =>
    if i.isVoid then 0
    else (i.words.getD (2 * (row % 4)) 0#32).toNat + (i.words.getD (2 * (row % 4) + 1) 0#32).toNat * 2 ^ 32

/-- The n elements of a 64-bit row value. -/
def rowElems (f : Fmt) (n v : Nat) : List Nat := (List.range n).map (fun k => bitsOf v (f.width * k + f.width - 1) (f.width * k))

/-- The 64 scales in 16 tokens; missing and void tokens count as 0x7F (R335). -/
def scalesOf (tokens : List Item) : List Byte :=
  (List.range 64).map (fun r =>
    match tokens[r / 4]? with
    | none => 0x7F#8
    | some i => if i.isVoid then 0x7F#8 else BitVec.ofNat 8 (bitsOf i.word.toNat (8 * (r % 4) + 7) (8 * (r % 4))))

/-- The elements of A for row r, or of B for column r, of a wavefront (R333). -/
def waveElems (f : Fmt) (n : Nat) (items : List Item) (r : Nat) : List Nat := rowElems f n (rowValue items r)

/-- The PEs whose two firings disagree in a wavefront, lowest first (R53). -/
def mismatches (fa fb : Fmt) (a b : List Item) (sa sb : List Byte) (errs : List (Fin 4096 × Word)) : List Nat :=
  let n := kGroup fa fb
  sortBy id (dedup ((errs.filter (fun x => parallaxMismatch fa fb (waveElems fa n a (x.1.val / 64)) (waveElems fb n b (x.1.val % 64))
    (sa.getD (x.1.val / 64) 0x7F#8).toNat (sb.getD (x.1.val % 64) 0x7F#8).toNat x.2)).map (fun x => x.1.val)))

/-- A bank after one wavefront: every PE adds its group sum, those that mismatch excepted (R53). -/
def Bank.wave (k : Bank) (fa fb : Fmt) (a b : List Item) (sa sb : List Byte) (bad : List Nat) : Bank :=
  let n := kGroup fa fb
  let rows := (List.range 64).map (waveElems fa n a)
  let cols := (List.range 64).map (waveElems fb n b)
  let out := (List.range 4096).map (fun pe =>
    let acc := k.values.get pe 0#48
    if bad.contains pe then (pe, acc, false)
    else
      let (v, c) := accumulate fa fb acc (rows.getD (pe / 64) []) (cols.getD (pe % 64) [])
        (sa.getD (pe / 64) 0x7F#8).toNat (sb.getD (pe % 64) 0x7F#8).toNat
      (pe, v, c))
  { k with
    values := (out.filter (fun x => decide (x.2.1 ≠ 0#48))).map (fun x => (x.1, x.2.1))
    sat := k.sat || out.any (fun x => x.2.2) }

/-- The fault token and the error tag that a bank takes from items (R335): the first received stays. -/
def Bank.touch (k : Bank) (items : List Item) : Bank :=
  let (e, o) := errorOf items
  { k with
    fault := match k.fault with
      | some f => some f
      | none => items.find? Item.isFault
    tainted := k.tainted || e
    origin := match k.origin with
      | some x => some x
      | none => o }

/-! ### The core -/

/-- A bank: ping for even blocks, pong for odd ones (R337). -/
def MatrixCore.bank (c : MatrixCore) (odd : Bool) : Bank := if odd then c.pong else c.ping

/-- The core with a bank changed. -/
def MatrixCore.modBank (c : MatrixCore) (odd : Bool) (f : Bank → Bank) : MatrixCore :=
  if odd then { c with pong := f c.pong } else { c with ping := f c.ping }

/-- The bank of a block. -/
def oddBlock (j : Nat) : Bool := j % 2 == 1

/-- The state with a tile's matrix core changed. -/
def State.modCore (s : State) (t : Fin 192) (f : MatrixCore → MatrixCore) : State := s.modTile t (fun x => { x with core := f x.core })

/-- The first unit of a block with an opcode. -/
def RCtx.unitOf (x : RCtx) (op : Nat) : Option Nat := (List.range x.image.count).find? (fun u => uOp (x.image.unit u) == op)

/-- A firing of the core counts as one of the load (R103). -/
def State.coreFired (s : State) (x : RCtx) : State := s.modRun x.gid (fun r => { r with lastFire := s.ns })

/-- A matrix unit's surroundings: what stands staged in the core is seen at once (R332). -/
def State.coreEnv (s : State) (x : RCtx) (u : Nat) : UEnv := { s.uenv x u with adv := 2 ^ 64 }

/-- A marker that a matrix unit takes and does not send on by an edge of its own. -/
def UnitSt.takeQuiet (st : UnitSt) (e : UEnv) (i : Item) : UStep :=
  let r := st.passMarker e i
  { r with st := { r.st with out := [] } }

/-! ### Initialisation (R337) -/

/-- The value that mxs gives an accumulator. -/
def initialValue (f : Fmt) (i : Item) : BitVec 48 :=
  if i.isVoid || i.isFault then 0#48
  else if f = .i32 then i.word.setWidth 48
  else BitVec.ofNat 48 (Fmt.rne .acc48 (Fmt.decode .f32 i.word.toNat))

/-- A bank made ready for the next block to be initialised. -/
def MatrixCore.readyNext (c : MatrixCore) (f : Bank → Bank) : MatrixCore :=
  { c.modBank (oddBlock c.inits) (fun k => { f k with state := .ready }) with inits := c.inits + 1, filled := 0 }

/-- One token of mxz or mxs taken, or a stop or marker (R337); none when nothing can be taken. -/
def State.initToken (s : State) (x : RCtx) (u : Nat) : Option State :=
  let e := s.coreEnv x u
  let st := s.unitAt x u
  let core := (s.tile x.t).core
  let odd := oddBlock core.inits
  match st.align e [0] with
  | .wait => none
  | .broken => some (s.punctuationFault x.gid st.round)
  | .stop _ st1 => some (s.modUnit x u (fun _ => st1))
  | .marker i st1 =>
    if core.filled ≠ 0 then some (s.punctuationFault x.gid st.round)
    else
      let r := st1.takeQuiet e i
      some (r.effs.foldl (State.applyEff x u) (s.modUnit x u (fun _ => r.st)))
  | .fire items =>
    if (core.bank odd).state ≠ .free then none
    else
      let i := items.headD (voidItem 1 false none)
      let s1 := (s.modUnit x u (fun _ => (st.pop [0]).begin e)).coreFired x
      if uOp e.w = 0xC2 then
        let keep := i.isData && !i.isFault && i.word.getLsbD 0 && decide ((core.bank odd).round = some st.round)
        some (s1.modCore x.t (fun c => c.readyNext (fun k => (if keep then k else { k with values := [] }).touch items)))
      else
        let v := initialValue (uFmt e.w) i
        some (s1.modCore x.t (fun c =>
          let c1 := c.modBank odd (fun k =>
            let base := if c.filled = 0 then ([] : Sparse (BitVec 48)) else k.values
            ({ k with values := if v = 0#48 then base else base ++ [(c.filled, v)] }).touch items)
          if c.filled = 4095 then c1.readyNext (fun k => k) else { c1 with filled := c.filled + 1 }))

/-- Tokens of an initialising unit taken one after another; fuel bounds them. -/
def State.initTokens (s : State) (x : RCtx) (u : Nat) : Nat → State
  | 0 => s
  | fuel + 1 =>
    match s.initToken x u with
    | none => s
    | some s1 => if s1.running x.gid then State.initTokens s1 x u fuel else s1

/-- Banks that are free made ready for their next block, as far as their values have come (R337). -/
def State.initBanks (s : State) (x : RCtx) : State :=
  match (match x.unitOf 0xC2 with
    | some u => some u
    | none => x.unitOf 0xC3) with
  | some u => s.initTokens x u (((s.unitAt x u).ports.getD 0 []).length + 1)
  | none =>
    let go (c : MatrixCore) : MatrixCore :=
      if (c.bank (oddBlock c.inits)).state = .free then c.readyNext (fun k => { k with values := [] }) else c
    s.modCore x.t (fun c => go (go c))

/-! ### mxa (R334, R335) -/

/-- Whether everything that feeds mxa has ended with the phase (R335: a phase end closes an open block). -/
def State.feedersDone (s : State) (x : RCtx) (u : Nat) : Bool :=
  match (s.strand x.t x.k).phase with
  | none => false
  | some p =>
    let sup := (s.supplierUnits x).filter (fun v => x.image.reaches u x.image.count [v])
    p.exhausted && s.caughtUp x p && s.sourcesDone x p
      && (sup.isEmpty || sup.any (fun v => (s.unitAt x v).eog || p.issued ≤ (s.unitAt x v).core.count))
      && (List.range x.image.count).all (fun v =>
        v == u || !x.image.reaches u x.image.count [v]
          || s.unitDrained x v)

/-- The open block closed: its swap token goes towards mxd, and the next block begins (R335). -/
def MatrixCore.close (c : MatrixCore) (level : Option Nat) (round : Nat) : MatrixCore :=
  { c.modBank (oddBlock c.block) (fun k => { k with state := .closed }) with
    staged := c.staged ++ [.inl ⟨oddBlock c.block, level, round⟩]
    swapPending := true, opened := false, group := 0, block := c.block + 1, blockInRound := c.blockInRound + 1 }

/-- Whether mxa may fire for its block: mxd has taken the last swap token, and the bank is initialised. -/
def MatrixCore.mayWork (c : MatrixCore) : Bool := !c.swapPending && decide ((c.bank (oddBlock c.block)).state = .ready)

/-- One wavefront (R334), which the latches then hold (R8); the parallax check kills the graph: each PE that mismatches has its record, the
lowest being the one suspected (R53, R372, R388). -/
def State.wavefront (s : State) (x : RCtx) (u : Nat) (a b c d : List Item) (fresh : Bool) : State :=
  let e := s.coreEnv x u
  let w := e.w
  let st := s.unitAt x u
  let core := (s.tile x.t).core
  let sa := if !fresh then core.scaleA else if bitOf (uImm w) 4 then scalesOf c else List.replicate 64 0x7F#8
  let sb := if !fresh then core.scaleB else if bitOf (uImm w) 5 then scalesOf d else List.replicate 64 0x7F#8
  let bad := mismatches (uFmt w) (fmtOf (uImm w % 16)) a b sa sb core.peErr
  let take (n : Nat) (q : List Item) : List Item := q.drop n
  let ports := [take a.length (st.ports.getD 0 []), take b.length (st.ports.getD 1 []), take c.length (st.ports.getD 2 []), take d.length (st.ports.getD 3 [])]
  let s1 := (s.modUnit x u (fun _ => { st with ports := ports }.begin e)).coreFired x
  let s2 := s1.modCore x.t (fun k =>
    { k.modBank (oddBlock k.block) (fun y => (y.wave (uFmt w) (fmtOf (uImm w % 16)) a b sa sb bad).touch (a ++ b ++ c ++ d)) with
      scaleA := sa, scaleB := sb, opened := true, group := k.group + 1, peErr := []
      latchA := (List.range 64).map (fun r => BitVec.ofNat 64 (rowValue a r))
      latchB := (List.range 64).map (fun r => BitVec.ofNat 64 (rowValue b r)) })
  bad.foldl (fun s pe => s.killLogged x.gid 2
    { kind := 1, action := 5, unit := peId x.t.val pe, round := BitVec.ofNat 32 st.round
      syndrome := core.group % 65536 + core.blockInRound % 65536 * 65536 } [peId x.t.val pe]) s2

/-- One step of mxa: a wavefront, or the close of a block at a stop, a marker or the end of the phase (R335); none when
it can do neither. -/
def State.mxaStep (s : State) (x : RCtx) (u : Nat) : Option State :=
  let e := s.coreEnv x u
  let st := s.unitAt x u
  let w := e.w
  let core := (s.tile x.t).core
  let ended := s.feedersDone x u
  let ports := x.image.connected u
  let fresh := decide (core.group * kGroup (uFmt w) (fmtOf (uImm w % 16)) % 32 = 0)
  let (a, pa) := scanPort 16 (st.ports.getD 0 [])
  let (b, pb) := scanPort 16 (st.ports.getD 1 [])
  let (c, pc) := if fresh && ports.contains 2 then scanPort 16 (st.ports.getD 2 []) else ([], true)
  let (d, pd) := if fresh && ports.contains 3 then scanPort 16 (st.ports.getD 3 []) else ([], true)
  -- a marker out of place is a fault whatever the other ports hold (R98)
  if st.badMarkers e.adv then some (s.punctuationFault x.gid st.round)
  else if !a.isEmpty || !b.isEmpty then
    let full := (a.length == 16 || pa || ended) && (b.length == 16 || pb || ended) && (c.length == 16 || pc || ended) && (d.length == 16 || pd || ended)
    if full && core.mayWork && decide (st.round < e.limit) then some (s.wavefront x u a b c d fresh) else none
  else
    match st.align e ports with
    | .broken => some (s.punctuationFault x.gid st.round)
    | .stop level st1 =>
      -- the lower of two stops is taken, and the port with the higher waits (R84)
      if level = 0 then some (s.modUnit x u (fun _ => st1))
      else if core.mayWork then some ((s.modUnit x u (fun _ => st1)).modCore x.t (fun k => k.close (some level) st.round)) else none
    | .marker i st1 =>
      if core.opened && !core.mayWork then none
      else
        let r := st1.takeQuiet e i
        let s1 := r.effs.foldl (State.applyEff x u) (s.modUnit x u (fun _ => r.st))
        some (s1.modCore x.t (fun k =>
          let k1 := if k.opened then k.close none st.round else k
          let k2 := { k1 with staged := k1.staged ++ [.inr { i with due := 0 }] }
          if tagSub i.tag = 0 then
            { k2 with blockInRound := 0, kept := k2.kept.filter (fun y => y.1 != i.word.toNat + 1) ++ [(i.word.toNat + 1, k2.block)] }
          else k2))
    | _ =>
      let left := ports.any (fun p => (st.ports.getD p []).any Item.isElem)
      if ended && core.opened && core.mayWork && !left then some (s.modCore x.t (fun k => k.close none st.round)) else none

/-- Whether a strand's region works: its phase runs, or has ended and still passes punctuation. -/
def State.regionWorks (s : State) (x : RCtx) : Bool :=
  let st := s.strand x.t x.k
  match st.phase with
  | some p => s.running x.gid && (decide (st.state = .run) || (decide (st.state = .done) && p.ended))
  | none => false

/-- U_MXA (R334). -/
def execUMxa (t : Fin 192) (k : Fin 8) (s : State) : Host.Outcome State Fault Refusal :=
  match s.rctx t k with
  | none => .next s
  | some x =>
    match x.unitOf 0xC0 with
    | none => .next s
    | some u =>
      if s.regionWorks x then
        let s1 := s.initBanks x
        if s1.running x.gid then .next ((s1.mxaStep x u).getD s1) else .next s1
      else .next s

/-! ### mxd (R336) -/

/-- The value that the drain emits for an accumulator (R50), and the generator after it. -/
def drainValue (w : DWord) (acc : BitVec 48) (g : Word) : Word × Word :=
  if uFmt w = .i32 then (acc.setWidth 32, g)
  else
    let (v, g1) := cvtElem .acc48 .f32 (uImm w % 8) false acc.toNat g
    (BitVec.ofNat 32 v, g1)

/-- The token of an accumulator, and the unit after it. -/
def drainToken (e : UEnv) (k : Bank) (st : UnitSt) (pe : Nat) : UnitSt :=
  let (v, g) := drainValue e.w (k.values.get pe 0#48) (st.rng 0)
  let st1 := st.modCopy 0 (fun c => { c with rng := g })
  let i : Item := match k.fault with
    | some f => { words := [f.word], tag := elemTag false true k.tainted, origin := k.origin }
    | none => { words := [v], tag := elemTag false false k.tainted, origin := k.origin }
  st1.emit e i

/-- A row drained, and after the last row the closing stop, the flag and the bank (R336). -/
def State.drainRow (s : State) (x : RCtx) (u : Nat) (d : Drain) : State :=
  let e := s.coreEnv x u
  let core := (s.tile x.t).core
  let k := core.bank d.swap.bank
  let stops := bitsOf (uImm e.w) 5 4
  let s := s.coreFired x
  let st0 := (s.unitAt x u).begin e
  let st1 := (List.range 64).foldl (fun st c => drainToken e k st (64 * d.row + c)) st0
  let st2 := if stops = 2 then st1.emit e (stopItem 1) else st1
  if d.row < 63 then
    (s.modUnit x u (fun _ => st2)).modCore x.t (fun c => { c with drain := some { d with row := d.row + 1 } })
  else
    let st3 := match d.swap.level with
      | none => st2
      | some l => if stops = 1 then st2.emit e (stopItem l) else if stops = 2 then st2.emit e (stopItem (min (l + 1) 4)) else st2
    let st4 := if k.sat then st3.setFlag 0 flagMsat else st3
    (s.modUnit x u (fun _ => st4)).modCore x.t (fun c =>
      { c.modBank d.swap.bank (fun y =>
          { y with state := .free, sat := false, fault := none, tainted := false, origin := none, round := some d.swap.round }) with
        drain := none })

/-- Whether the bank that a swap makes active is initialised (R336, R337). The unit that gives the banks their values has none for a
block that its round, or the phase, no longer has: no swap waits for that (log entry 71). -/
def State.bankReady (s : State) (x : RCtx) (w : Swap) : Bool :=
  decide (((s.tile x.t).core.bank (!w.bank)).state = .ready) ||
    (match (match x.unitOf 0xC2 with
      | some u => some u
      | none => x.unitOf 0xC3) with
    | some u => decide (w.round < (s.unitAt x u).round) || (s.feedersDone x u && s.unitDrained x u) || (match (s.unitAt x u).ports.getD 0 [] with
        | i :: _ => i.isMarker
        | [] => false)
    | none => true)

/-- One step of mxd: a row, a swap, or a marker (R336); none when it can do nothing. The next row waits until the last one
has left (R75). -/
def State.mxdStep (s : State) (x : RCtx) (u : Nat) : Option State :=
  let core := (s.tile x.t).core
  let st := s.unitAt x u
  if !st.out.isEmpty then none
  else
    match core.drain with
    | some d => some (s.drainRow x u d)
    | none =>
      match core.staged with
      | [] => none
      | .inl w :: rest =>
        if !s.bankReady x w then none
        else some (s.modCore x.t (fun c =>
          { c.modBank w.bank (fun y => { y with state := .draining }) with staged := rest, swapPending := false, drain := some ⟨0, w⟩ }))
      | .inr i :: rest =>
        let e := s.coreEnv x u
        let s1 := s.modCore x.t (fun c => { c with staged := rest })
        match ({ st with ports := st.ports.set 0 [i] }).align e [0] with
        | .marker j st1 =>
          let r := st1.passMarker e j
          some (r.effs.foldl (State.applyEff x u) (s1.modUnit x u (fun _ => r.st)))
        | _ => some (s1.punctuationFault x.gid st.round)

/-- U_MXD (R336), with the initialisation of the next block's bank (R337). -/
def execUMxd (t : Fin 192) (k : Fin 8) (s : State) : Host.Outcome State Fault Refusal :=
  match s.rctx t k with
  | none => .next s
  | some x =>
    match x.unitOf 0xC1 with
    | none => .next s
    | some u =>
      if s.regionWorks x then
        let s1 := (s.mxdStep x u).getD s
        .next (if s1.running x.gid then s1.initBanks x else s1)
      else .next s

end Sys2Proof.Machine
end

