-- ==== Sys2Proof/Machine/Registers.lean ====
section
/-! DEFINITION. Sys2Proof/Machine/Registers.lean: reads of the control window and writes to it (R342, R452, R453, R459, R473). -/

namespace Sys2Proof.Machine

/-! ### Device registers (R473, R474) -/

/-- A DBGACC command, by its op (R474). -/
def State.debugCommand (s : State) (tag : Half) : Host.Outcome State Fault Refusal :=
  match field s.marg[0] 1 0 with
  | 0 => execDbgaccRead tag s
  | 1 => execDbgaccWrite tag s
  | 2 => execDbgaccRelease tag s
  | _ => s.command tag (fun s => (refuse 1, s))

/-- A write to MCMD starts the command; reserved bits or an opcode not listed end it with status 0x0001. -/
def State.startCommand (s : State) (v : DWord) : Host.Outcome State Fault Refusal :=
  let tag : Half := BitVec.ofNat 16 (field v 31 16)
  if field v 15 8 ≠ 0 || field v 63 32 ≠ 0 then s.command tag (fun s => (refuse 1, s))
  else
    match field v 7 0 with
    | 0x01 => execEclclr tag s
    | 0x02 => execAlmstage tag s
    | 0x03 => execAlmswap tag s
    | 0x04 => execPrelease tag s
    | 0x05 => execGkill tag s
    | 0x06 => execEmask tag s
    | 0x07 => execPartset tag s
    | 0x08 => execSavearea tag s
    | 0x09 => execStrpair tag s
    | 0x0A => execCapset tag s
    | 0x0B => execLcstep tag s
    | 0x0C => s.debugCommand tag
    | _ => s.command tag (fun s => (refuse 1, s))

/-- The command that the management cores are busy with completes (R473). -/
def State.finishCommand (s : State) : Host.Outcome State Fault Refusal :=
  match s.busy with
  | none => .next s
  | some v => { s with busy := none, mstat := s.mstat &&& ~~~busyBit }.startCommand v

/-- A write of n bytes to a device register. While a command is busy, MCMD and MARG0 to MARG5 ignore writes (R473); whether a command is
still busy after the step that starts it is the world's choice (log entry 34). -/
def State.writeDevice (s : State) (o n : Nat) (v : DWord) : Host.Outcome State Fault Refusal :=
  if s.busy.isSome then .next s
  else if o = 0x100 then
    if s.slowCommand then .next (({ s with slowCommand := false } : State).busyWith (writePart 0#64 0 n v))
    else s.startCommand (writePart 0#64 0 n v)
  else if 0x108 ≤ o && o < 0x138 then
    let k : Fin 6 := Fin.ofNat 6 ((o - 0x108) / 8)
    .next { s with marg := s.marg.set k (writePart s.marg[k] (o % 8) n v) }
  else .next s

/-! ### Queue registers (R342) -/

/-- A write of n bytes to a register of a queue's block. -/
def State.writeQueueReg (s : State) (p : Fin 16) (q : Fin 64) (o n : Nat) (v : DWord) : State :=
  let x := (s.part p).queues[q]
  let low := o % 8 == 0; let high := o % 8 == 4 || n == 8
  match o / 8 with
  | 0 => if x.enabled then s else s.modQueue p q (fun y => { y with base := writePart y.base (o % 8) n v })
  | 1 => s.writeQueueCfg p q (writePart x.cfg (o % 8) n v)
  | 2 =>
    let s1 := if low then s.writeTail p q (v.setWidth 32) else s
    if high then s1.writeHead p q (if low then (v >>> 32).setWidth 32 else v.setWidth 32) else s1
  | 3 => if low && decide ((v.setWidth 32 : Word) = 0#32) then s.modQueue p q (fun y => { y with stale := 0#32 }) else s
  | 4 => if x.enabled then s else s.modQueue p q (fun y => { y with shadow := writePart y.shadow (o % 8) n v })
  | _ => s

/-! ### Partition registers (R452, R453, R455, R459) -/

/-- A write of n bytes to one of a ring's registers: base, configuration, tail and head in turn. -/
def State.writeRingReg (s : State) (p : Fin 16) (r : RingName) (o n : Nat) (v : DWord) : State :=
  let x := (s.part p).ring r
  match o / 8 with
  | 0 => if x.enabled then s else s.modPart p (fun y => y.setRing r { x with base := writePart x.base (o % 8) n v })
  | 1 =>
    let old := x.cfg ||| (if x.enabled then 0x20#64 else 0#64)
    s.writeRingCfg p r (writePart old (o % 8) n v)
  | _ =>
    if o % 8 == 4 then s.writeRingHead p r (v.setWidth 32)
    else if n == 8 then s.writeRingHead p r ((v >>> 32).setWidth 32)
    else s

/-- A write to SHOOT (R459). -/
def State.writeShoot (s : State) (p : Fin 16) (v : DWord) : State :=
  if field v 1 0 = 3 || field v 15 5 ≠ 0 || field v 63 32 ≠ 0 then s.modPart p (fun x => { x with shootError := true })
  else s.issueShoot p (field v 1 0) (BitVec.ofNat 16 (field v 31 16)) (field v 4 2)

/-- A write of n bytes to a partition register, by its offset from P + 0x1000. -/
def State.writePartReg (s : State) (p : Fin 16) (o n : Nat) (v : DWord) : State :=
  if 0x20 ≤ o && o < 0x38 then s.writeRingReg p .completion (o - 0x20) n v
  else if 0x40 ≤ o && o < 0x58 then s.writeRingReg p .pageFault (o - 0x40) n v
  else if 0x60 ≤ o && o < 0x78 then s.writeRingReg p .errorLog (o - 0x60) n v
  else
    match o / 8 * 8 with
    | 0x08 => s.clearPqerr p (o % 8) n v
    | 0x10 =>
      if s.runs.any (fun r => r.part == p.val) then s
      else s.modPart p (fun x => { x with sysctx := (writePart (x.sysctx.setWidth 64) (o % 8) n v).setWidth 16 })
    | 0x58 => if n = 8 then s.resolveFault p v else s
    | 0x80 => s.modPart p (fun x => { x with diagBase := writePart x.diagBase (o % 8) n v })
    | 0x88 => s.modPart p (fun x => { x with diagSize := writePart x.diagSize (o % 8) n v })
    | 0x90 => s.modPart p (fun x => { x with shootVa := writePart x.shootVa (o % 8) n v })
    | 0x98 => if n = 8 then s.writeShoot p v else s
    | _ => s

/-- REGISTER_WRITE (R452): an aligned write of 4 or 8 bytes to the control window; any other is an Unsupported Request, as is
each while the device has not enumerated (R471).
The registers of a partition that is not formed, and reserved offsets, ignore writes. -/
def execRegisterWrite (o : BitVec 21) (n : BitVec 4) (v : BitVec 64) (s : State) : Host.Outcome State Fault Refusal :=
  let a := o.toNat
  if !windowAccess a n.toNat || !s.enumerated then .next (s.accessDone false)
  else
    let s0 := s.accessDone true
    if a < 0x10000 then s0.writeDevice a n.toNat v
    else
      match partArg (BitVec.ofNat 64 (a / 0x10000 - 1)) with
      | none => .next s0
      | some p =>
        let b := a % 0x10000
        if !(s.part p).formed then .next s0
        else if b < 0x1000 then .next (s0.writeQueueReg p (Fin.ofNat 64 (b / 64)) (b % 64) n.toNat v)
        else if b < 0x1100 then .next (s0.writePartReg p (b - 0x1000) n.toNat v)
        else .next s0

/-! ### Reads (R342, R452, R453, R473) -/

/-- Two 32-bit registers that share 8 bytes, the lower one first. -/
def twoRegs (low high : Word) : DWord := high ++ low

/-- DSTATUS (R473): the code is that of the lowest-numbered die whose firmware failed. -/
def State.dstatus (s : State) : DWord :=
  let codes := s.fwfail.toList.map (fun c => c.toNat)
  let first := (codes.find? (fun c => decide (c ≠ 0))).getD 0
  let mask := (List.range 4).foldl (fun m d => m + (if codes.getD d 0 = 0 then 0 else 2 ^ d)) 0
  BitVec.ofNat 64 ((if s.ready then 1 else 0) + (if s.harebell then 2 else 0) + 4 * s.lifecycle.toNat + 16 * first + 256 * mask)

/-- A register of a queue's block by its number, none where the map gives it no read (log entry 3). -/
def Queue.register (x : Queue) : Nat → Option DWord
  | 0 | 1 | 4 => none
  | 2 => some (twoRegs x.tail x.head)
  | 3 => some (twoRegs x.stale 0#32)
  | _ => some 0#64

/-- A ring's registers by number: base, configuration, tail and head. -/
def Ring.register (x : Ring) : Nat → Option DWord
  | 0 | 1 => none
  | _ => some (twoRegs x.tail x.head)

/-- A partition register by its offset from P + 0x1000. -/
def Part.register (x : Part) (o : Nat) : Option DWord :=
  if 0x20 ≤ o && o < 0x38 then x.cr.register ((o - 0x20) / 8)
  else if 0x40 ≤ o && o < 0x58 then x.fr.register ((o - 0x40) / 8)
  else if 0x60 ≤ o && o < 0x78 then x.el.register ((o - 0x60) / 8)
  else if o = 0x08 then some x.pqerr
  else if o = 0xA0 then some (x.shootDone.setWidth 64)
  else if o = 0x10 || o = 0x58 || o = 0x80 || o = 0x88 || o = 0x90 || o = 0x98 then none
  else some 0#64

/-- A device register by its offset. -/
def State.deviceRegister (s : State) (o : Nat) : Option DWord :=
  if o = 0 then some s.dstatus
  else if o = 0x140 then some s.mstat
  else if o = 0x148 then some s.mres
  else if 0x100 ≤ o && o < 0x138 then none
  else some 0#64

/-- The 8 bytes of the control window at an aligned offset; none for a register whose map lists no read. The registers of a
partition that is not formed, and reserved offsets, read 0. -/
def State.windowRegister (s : State) (a : Nat) : Option DWord :=
  if a < 0x10000 then s.deviceRegister a
  else
    match partArg (BitVec.ofNat 64 (a / 0x10000 - 1)) with
    | none => some 0#64
    | some p =>
      let b := a % 0x10000
      if !(s.part p).formed then some 0#64
      else if b < 0x1000 then (s.part p).queues[Fin.ofNat 64 (b / 64)].register (b % 64 / 8)
      else (s.part p).register (b - 0x1000)

/-- A read of n bytes of the control window at an offset (R452). A register whose map lists only a write yields a free value (log
entry 3). -/
def State.readWindow (s : State) (o n : Nat) : State :=
  if !windowAccess o n || !s.enumerated then s.accessDone false
  else
    match partArg (BitVec.ofNat 64 (o / 0x10000 - 1)), decide (0x10000 ≤ o && o % 0x10000 / 8 * 8 = 0x1000) with
    | some p, true => s.readPstatus p (o % 8) n
    | _, _ =>
      let v := (s.windowRegister (o / 8 * 8)).getD (Config.freeDWord s.free)
      { s.accessDone true with reply := some (readPart v (o % 8) n, false), free := s.free + 1 }

end Sys2Proof.Machine
end

