-- ==== Sys2Proof/Machine/SeqSystem.lean ====
section
/-! DEFINITION. Sys2Proof/Machine/SeqSystem.lean: the system instructions (R271 to R274) and the system registers
(R188, R189). -/

namespace Sys2Proof.Machine

/-- trap (R271). -/
def execTrap (p : BitVec 2) (i : BitVec 16) (s : State) : Host.Outcome State Fault Refusal :=
  seqInstr (.trap p i) p 4 (fun _ s => s.trapMe 6 (zextImm i)) s

/-- brk (R271). -/
def execBrk (p : BitVec 2) (i : BitVec 16) (s : State) : Host.Outcome State Fault Refusal :=
  seqInstr (.brk p i) p 4 (fun _ s => s.trapMe 5 (zextImm i)) s

/-- eret (R272): supervisor only. -/
def execEret (p : BitVec 2) (s : State) : Host.Outcome State Fault Refusal :=
  seqInstr (.eret p) p 4 (fun _ s => if s.me.sv then s.modMe Seq.eret else s.illegal (.eret p)) s

/-- ifence (R273): words that this sequencer has stored to since they were fetched are fetched again. -/
def execIfence (p : BitVec 2) (s : State) : Host.Outcome State Fault Refusal :=
  seqInstr (.ifence p) p 4 (fun _ s => s.modMe (fun q => { q with il1 := q.il1.filter (fun w => !w.own) }.advance)) s

/-- A system register of R188. -/
inductive SysReg where
  | status | epc | cause | tval | vbase | scratch | cycle | time | tile | part | ctx
  | brk (n : Fin 8)
  deriving DecidableEq, Repr

/-- The register that a number names (R188). -/
def sysRegOf (n : Nat) : Option SysReg :=
  match n with
  | 0 => some .status
  | 1 => some .epc
  | 2 => some .cause
  | 3 => some .tval
  | 4 => some .vbase
  | 5 => some .scratch
  | 6 => some .cycle
  | 7 => some .time
  | 8 => some .tile
  | 9 => some .part
  | 10 => some .ctx
  | n => if 0x10 ≤ n && n ≤ 0x17 then some (.brk (Fin.ofNat 8 (n - 0x10))) else none

/-- Whether a register is read at user privilege (R188). -/
def SysReg.userRead : SysReg → Bool
  | .cycle => true
  | .time => true
  | .tile => true
  | .part => true
  | .ctx => true
  | _ => false

/-- Whether a register is written at supervisor privilege; the others are read-only (R188). -/
def SysReg.writable : SysReg → Bool
  | .cycle => false
  | .time => false
  | .tile => false
  | .part => false
  | _ => true

/-- What a system register of a tile's sequencer reads (R188, R189). -/
def State.sysRead (s : State) (t : Fin 192) (r : SysReg) : DWord :=
  let q := s.seq t
  match r with
  | .status => q.status
  | .epc => q.epc
  | .cause => q.cause
  | .tval => q.tval
  | .vbase => q.vbase
  | .scratch => q.scratch
  | .cycle => BitVec.ofNat 64 (s.tileCycles t.val)
  | .time => BitVec.ofNat 64 s.ns
  | .tile => (seqId t.val).setWidth 64
  | .part => BitVec.ofNat 64 (s.partOfTile t.val).val
  | .ctx => q.ctx.setWidth 64
  | .brk n => q.brk[n]

/-- A system register written (R188, R189, R274): reserved bits ignore the write. -/
def Seq.sysWrite (q : Seq) (r : SysReg) (v : DWord) : Seq :=
  match r with
  | .status => { q with status := statusOf (v.getLsbD 2) (v.getLsbD 1) (v.getLsbD 0) }
  | .epc => { q with epc := v &&& 0xFFFF_FFFF_FFFF_FFFC#64 }
  | .cause => { q with cause := v }
  | .tval => { q with tval := v }
  | .vbase => { q with vbase := v &&& 0xFFFF_FFFF_FFFF_FF00#64 }
  | .scratch => { q with scratch := v }
  | .cycle => q
  | .time => q
  | .tile => q
  | .part => q
  | .ctx => { q with ctx := v.setWidth 16 }
  | .brk n => { q with brk := q.brk.set n v }

/-- mfsy (R274): a reserved number, or an S-only register at user privilege, is illegal. -/
def execMfsy (p : BitVec 2) (d : BitVec 5) (i : BitVec 14) (s : State) : Host.Outcome State Fault Refusal :=
  seqInstr (.mfsy p d i) p 4 (fun e s =>
    match sysRegOf i.toNat with
    | none => s.illegal (.mfsy p d i)
    | some r =>
      if s.me.sv || r.userRead then s.writeBack d (s.sysRead s.cur r ^^^ e) else s.illegal (.mfsy p d i)) s

/-- mtsy (R274): S-only; a read-only register is illegal. -/
def execMtsy (p : BitVec 2) (a : BitVec 5) (i : BitVec 14) (s : State) : Host.Outcome State Fault Refusal :=
  seqInstr (.mtsy p a i) p 4 (fun e s =>
    match sysRegOf i.toNat with
    | none => s.illegal (.mtsy p a i)
    | some r =>
      if s.me.sv && r.writable then s.modMe (fun q => (q.sysWrite r (q.rd a ^^^ e)).advance) else s.illegal (.mtsy p a i)) s

end Sys2Proof.Machine
end

