-- ==== Sys2Proof/Machine/Platform.lean ====
section
/-! DEFINITION. Sys2Proof/Machine/Platform.lean: bring-up and power (R467, R469 to R471), attestation (R472), links (R462), the debug
port's registers (R402). -/

namespace Sys2Proof.Machine

/-! ### Bring-up (R467, R469, R471) -/

/-- The failure code of a firmware image under a rollback counter, 0 for one that loads (R471). Where several apply, the
store is read before the header, and the header before the signature and the version (log entry 35). -/
def FirmwareImage.code (f : FirmwareImage) (rollback : Half) : BitVec 4 :=
  if !f.readable then 4#4
  else if !f.wellFormed then 3#4
  else if !f.verifies then 1#4
  else if f.version.toNat < rollback.toNat then 2#4
  else 0#4

/-- The dies' images verified in die order: the codes, and the rollback counter that the loaded images leave. -/
def loadFirmware : List FirmwareImage → Half → List (BitVec 4) × Half
  | [], rollback => ([], rollback)
  | f :: fs, rollback =>
    let code := f.code rollback
    let r := loadFirmware fs (if code = 0#4 then f.version else rollback)
    (code :: r.1, r.2)

/-- RESET (R467): firmware is verified, the dies are wiped, the links train, and the device enumerates, if die 0 has its
firmware, in harebell mode. The eclipse map, the life-cycle state and the rollback counter stay; so do host memory and
what the model keeps of the world. -/
def execReset (s : State) : Host.Outcome State Fault Refusal :=
  let (codes, rollback) := loadFirmware s.firmware.toList s.rollback
  let up := decide (codes.headD 0#4 = 0#4)
  .next { State.reset with
    agenda := s.agenda
    free := s.free
    mem := s.mem.filter (fun c => !inHbm c.1)
    ecc := s.ecc.filter (fun l => !inHbm (64 * l))
    parts := (Vector.replicate 16 (Part.reset false)).set 0 (Part.reset up)
    eclipse := s.eclipse
    lifecycle := s.lifecycle
    rollback := rollback
    firmware := s.firmware
    fwfail := Vector.ofFn (fun d => codes.getD d.val 0#4)
    harebell := up
    debuggers := s.debuggers }

/-- Whether an island has joined, or its tile has been eclipsed (R467). -/
def State.islandDone (s : State) (island : Nat) : Bool :=
  s.joined.contains island ||
    (let n := island / 128 * 48 + island % 128 / 2
     if isComputeIndex (island % 128) then s.seqEclipsed n else s.mtileEclipsed n)

/-- Harebell mode ends when every island of every die with firmware has joined or been eclipsed. -/
def State.endHarebell (s : State) : State :=
  let all := (List.finRange 4).all (fun d => decide (s.fwfail[d] ≠ 0#4) || (List.range 96).all (fun i => s.islandDone (d.val * 128 + i)))
  if s.harebell && all then { s with harebell := false, ready := true } else s

/-- TILE_JOIN (R467): a tile island passes self-test and joins, or fails it, and the tile is eclipsed as its sequencer or as
bank 0. -/
def execTileJoin (i : Fin 512) (pass : Bool) (s : State) : Host.Outcome State Fault Refusal :=
  let die := i.val / 128; let index := i.val % 128
  if 96 ≤ index || !s.harebell || decide (s.fwfail[Fin.ofNat 4 die] ≠ 0#4) || s.joined.contains i.val then .next s
  else if pass then .next { s with joined := i.val :: s.joined }.endHarebell
  else .next (s.addEclipse (unitId die index (if isComputeIndex index then 4 else 5) 0)).endHarebell

/-! ### Power (R18, R470) -/

/-- An island at another frequency from now on. -/
def State.setClock (s : State) (island k : Nat) : State :=
  let c := s.clock island
  { s with clocks := s.clocks.set island ⟨k, s.ns, c.basePhase + (s.ns - c.baseNs) * 13 * c.k, (c.k, c.baseNs, c.basePhase) :: c.past⟩ }

/-- POWER_WINDOW (R470): the management cores choose k from 8 to 16 per island; in harebell mode every tile island stays
at 650 MHz (R467). -/
def execPowerWindow (ks : List (Fin 512 × BitVec 5)) (s : State) : Host.Outcome State Fault Refusal :=
  .next (ks.foldl (fun (s : State) x =>
    let k := x.2.toNat
    if k < 8 || 16 < k || s.harebell && x.1.val % 128 < 96 then s else s.setClock x.1.val k) s)

/-! ### Links (R461, R462) -/

/-- A link as a die sees it, changed. -/
def State.modLink (s : State) (d l : Nat) (f : LinkSt → LinkSt) : State :=
  { s with links := s.links.set (8 * d + l) (f (s.link d l)) }

/-- The record of a link event, in the management log. -/
def State.logLink (s : State) (d l event eclipse : Nat) : State :=
  let x := s.link d l
  s.logManagement { kind := 9, action := 0, unit := linkId d l, eclipse := eclipse
                    syndrome := event + x.lanes % 256 * 256 + x.replays % 65536 * 65536 }

/-- LINK_CRC_REPLAY (R462): the flit is sent again, in order; the record of a replay threshold follows when the count has
reached it, which no rule states (log entry 36). -/
def execLinkCrcReplay (d : Fin 4) (l : Fin 5) (s : State) : Host.Outcome State Fault Refusal :=
  if (s.link d.val l.val).down then .next s
  else
    let (reached, s1) := (s.modLink d.val l.val (fun x => { x with replays := x.replays + 1 })).choose
    .next (if reached then s1.logLink d.val l.val 1 0 else s1)

/-- LINK_RETRAIN (R462): a lane has failed, and the link retrains with the lanes that are left. -/
def execLinkRetrain (d : Fin 4) (l : Fin 5) (lanes : BitVec 8) (s : State) : Host.Outcome State Fault Refusal :=
  if (s.link d.val l.val).down then .next s
  else
    let narrower := decide (lanes.toNat < (s.link d.val l.val).lanes)
    let s1 := (s.modLink d.val l.val (fun x => { x with lanes := lanes.toNat })).logLink d.val l.val 2 0
    .next (if narrower then s1.logLink d.val l.val 3 0 else s1)

/-- The crossings of a load's mesh routes. -/
def Run.crossings (r : Run) : List (Nat × Nat) := (loadHops r.graph r.load r.tiles).2

/-- Whether a load has a request that no path takes to its memory. -/
def State.asksPathless (s : State) (r : Run) : Bool :=
  r.tiles.any (fun t => (s.tile (tileOf t.2)).strands.toList.any (fun st => st.units.any (fun b => b.2.any (fun u =>
    u.requests.any (fun q => !q.scratch && !s.reaches (dieOf t.2) (servingDie q.address))))))

/-- The loads whose mesh routes have lost their path, or that ask for memory with none, killed without eclipse. before is the state in
which the link still carried traffic: a stream whose path is what it was keeps its channels, and the others take, load by load,
channels of the longer path that none holds. -/
def State.killPathless (s before : State) : State :=
  let live := s.runs.filter (fun r => !r.faulted && !s.asksPathless r)
  let (same, other) := live.partition (fun r => decide (s.linkChannels r.crossings = before.linkChannels r.crossings))
  let held := same.flatMap (fun r => (s.linkChannels r.crossings).getD [])
  let (lost, _) := other.foldl (fun acc r =>
    match s.linkChannels r.crossings with
    | none => (acc.1 ++ [r.gid], acc.2)
    | some ls => if ls.all (fun l => (acc.2 ++ ls).count l ≤ 256) then (acc.1, acc.2 ++ ls) else (acc.1 ++ [r.gid], acc.2)) (([] : List Word), held)
  (((s.runs.filter s.asksPathless).map (fun r => r.gid)) ++ lost).foldl (fun s g => s.kill g 0x12 0#8) s

/-- LINK_DOWN (R462, R380): the link is eclipsed and carries nothing; what used it goes the other way round, and loads left
without a path are killed. -/
def execLinkDown (d : Fin 4) (l : Fin 5) (s : State) : Host.Outcome State Fault Refusal :=
  if (s.link d.val l.val).down then .next s
  else
    let was := s.eclipseByte (linkId d.val l.val)
    let s1 := (s.modLink d.val l.val (fun x => { x with down := true })).logLink d.val l.val 4 was
    let s2 := s1.addEclipse (linkId d.val l.val)
    if l.val < 2 then
      let s3 := if (s2.linkPath d.val l.val).isSome then s2.logLink d.val l.val 6 0 else s2
      .next (s3.killPathless s)
    else .next s2

/-- An item error-tagged at its consumer: no single read repairs it (R374, R376). -/
def Item.undelivered (i : Item) (o : Origin) : Item :=
  if i.isElem then { i with tag := i.tag ||| 0x08#8, origin := some (i.origin.getD o) } else i

/-- The last item of a queue changed. -/
def modifyLast {α : Type} (l : List α) (f : α → α) : List α := modifyAt l (l.length - 1) f

/-- The ports of a unit whose tokens cross a link: those of edges with a mesh route over it. -/
def State.portsOver (s : State) (x : RCtx) (die l u : Nat) : List Nat :=
  (x.image.meshRoutes.filter (fun ws => (routeWalk x.t.val x.image ws).2.any (fun c => pathTakes die l ((s.linkPath c.1 c.2).getD [])))).flatMap
    (fun ws => let w := ws.headD 0#64
      (x.image.edges.filter (fun e => e.src == field w 9 3 && e.which == field w 2 2 && e.dst == u)).map (fun e => e.port))

/-- Whether the tokens of a stream source come over a link: its sinks' strand runs on another die, across it. -/
def State.sourceOver (s : State) (x : RCtx) (die l u : Nat) : Bool :=
  let w := x.image.unit u
  uOp w == 0x88 && uImm w % 4 == 1 &&
    (match s.run x.gid with
    | none => false
    | some r => match (r.stream (bitsOf (uImm w) 9 2)).bind (fun y => s.strandPlace r y.sink) with
      | some p => pathTakes die l (s.diePath (dieOf p.1.val) (dieOf x.t.val))
      | none => false)

/-- FLIT_UNDELIVERED (R462): the tokens and the reply that a flit of a link carried to a unit are error-tagged: of each port that is
fed over the link the last token, and the reply of the last request that crosses it. -/
def execFlitUndelivered (d : Fin 4) (l : Fin 5) (t : Fin 192) (k : Fin 8) (u : BitVec 7) (s : State) : Host.Outcome State Fault Refusal :=
  let s1 := s.logLink d.val l.val 5 0
  match s1.rctx t k with
  | none => .next s1
  | some x =>
    let ordinal := (s1.strand t k).ordinal
    .next (s1.modUnit x u.toNat (fun y =>
      let o : Origin := ⟨t.val, ordinal, x.key, u.toNat, x.copyId u.toNat 0, y.seq, y.round, false, 0, 0, 0, 0xFFFF_FFFF#32, false, none, none, none, none⟩
      let fed := s1.portsOver x d.val l.val u.toNat
      let crosses (q : MemReq) : Bool := !q.scratch && pathTakes d.val l.val (s1.diePath (dieOf t.val) (servingDie q.address))
      let ahead := y.requests.reverse.takeWhile (fun q => !crosses q)
      { y with
        ports := (y.ports.zip (List.range 4)).map (fun q => if fed.contains q.2 then modifyLast q.1 (fun i => i.undelivered o) else q.1)
        reply := if s1.sourceOver x d.val l.val u.toNat then modifyLast y.reply (fun i => i.undelivered o) else y.reply
        requests := if ahead.length < y.requests.length
          then modifyAt y.requests (y.requests.length - 1 - ahead.length) (fun q => { q with error := true, origin := some (q.origin.getD o) })
          else y.requests }))

/-! ### The debug port (R402) -/

/-- Whether the load of a tile stands in a debug hold. -/
def State.debugHeld (s : State) (t : Nat) : Bool :=
  match s.runOfTile t with
  | some r => decide (r.freeze = some .debug) && r.frozen
  | none => false

/-- What the debug port reads of a sequencer; a system number that names no register reads 0. -/
def State.debugRead (s : State) (t : Fin 192) (r : DebugReg) : DWord :=
  let q := s.seq t
  match r with
  | .scalar n => q.rd n
  | .pred n => if q.pred n then 1#64 else 0#64
  | .system n => match sysRegOf n.toNat with
    | some x => s.sysRead t x
    | none => 0#64
  | .pc => q.pc
  | .ram d => BitVec.ofNat 64 (leNat (q.ram.readN (8 * d.toNat) 8))

/-- What the debug port writes. -/
def Seq.debugWrite (q : Seq) (r : DebugReg) (v : DWord) : Seq :=
  match r with
  | .scalar n => q.wr n v
  | .pred n => q.wrPred n (v.getLsbD 0)
  | .system n => match sysRegOf n.toNat with
    | some x => q.sysWrite x v
    | none => q
  | .pc => { q with pc := v &&& 0xFFFF_FFFF_FFFF_FFFC#64 }
  | .ram d => { q with ram := q.ram.writeN (8 * d.toNat) (leBytes 8 v.toNat) }

/-- DEBUG_PORT_REGISTER_ACCESS (R402): only while a debug hold lasts. -/
def execDebugPortRegisterAccess (t : Fin 192) (r : DebugReg) (v : Option (BitVec 64)) (s : State) : Host.Outcome State Fault Refusal :=
  if !s.debugHeld t.val then .next s
  else
    match v with
    | none => .next { s with reply := some ((s.debugRead t r).setWidth 512, false) }
    | some x => .next (s.modSeq t (fun q => q.debugWrite r x))

/-! ### Attestation (R472) -/

/-- A response of the SPDM responder: its bytes are SPDM's own, a function of the request and of what it reports. -/
def State.spdmAnswer (s : State) (request : Nat) (operands : List Nat) : State :=
  { s with spdm := s.spdm ++ [Config.spdmBody request operands] }

/-- A request to the responder, which none reaches before the device has enumerated (R471). -/
def State.spdmRequest (s : State) (f : State → State) : Host.Outcome State Fault Refusal := .next (if s.enumerated then f s else s)

/-- A request that SPDM takes once versions and algorithms are agreed; another gets SPDM's error response (log entry 37). -/
def State.spdmAgreed (s : State) (request : Nat) (operands : List Nat) : State :=
  if s.spdmVersion && s.spdmAlgs then s.spdmAnswer request operands else s.spdmAnswer 0x7F [request]

/-- GET_VERSION (R472): a new connection begins. -/
def execGetVersion (s : State) : Host.Outcome State Fault Refusal :=
  s.spdmRequest (fun s => { s.spdmAnswer 0x84 [] with spdmVersion := true, spdmAlgs := false })

/-- GET_CAPABILITIES (R472). -/
def execGetCapabilities (s : State) : Host.Outcome State Fault Refusal :=
  s.spdmRequest (fun s => if s.spdmVersion then s.spdmAnswer 0xE1 [] else s.spdmAnswer 0x7F [0xE1])

/-- SHA-512 among the hash algorithms that a requester offers, by SPDM's own numbering of its bits (log entry 58). -/
def spdmSha512 : BitVec 32 := 4#32
/-- ECDSA P-521 among the signature algorithms. -/
def spdmP521 : BitVec 32 := 0x100#32

/-- NEGOTIATE_ALGORITHMS (R472): of what is offered the responder selects SHA-512 and ECDSA P-521, its only algorithms; with either
missing none are agreed. -/
def execNegotiateAlgorithms (hash asym : BitVec 32) (s : State) : Host.Outcome State Fault Refusal :=
  s.spdmRequest (fun s =>
    let h := hash &&& spdmSha512; let a := asym &&& spdmP521
    if s.spdmVersion then { s.spdmAnswer 0xE3 [h.toNat, a.toNat] with spdmAlgs := decide (h ≠ 0#32) && decide (a ≠ 0#32) }
    else s.spdmAnswer 0x7F [0xE3])

/-- GET_DIGESTS (R472). -/
def execGetDigests (s : State) : Host.Outcome State Fault Refusal := s.spdmRequest (fun s => s.spdmAgreed 0x81 [])

/-- GET_CERTIFICATE (R472). -/
def execGetCertificate (slot : BitVec 4) (o n : BitVec 16) (s : State) : Host.Outcome State Fault Refusal :=
  s.spdmRequest (fun s => s.spdmAgreed 0x82 [slot.toNat, o.toNat, n.toNat])

/-- The measurements of R472, by index: the ROM, each die's management firmware in die order, the Adepor translator, the life cycle and
the rollback counter, the eclipse map. What is measured of a ROM, a firmware image and the translator is a digest of theirs. -/
def State.measurement (s : State) : Nat → List Nat
  | 1 => [Config.romDigest]
  | 2 => s.firmware.toList.map (fun f => Config.firmwareDigest f.version)
  | 3 => [Config.translatorDigest]
  | 4 => [s.lifecycle.toNat, s.rollback.toNat]
  | 5 => s.eclipse.map (fun u => u.toNat)
  | _ => []

/-- One measurement as it is reported: its index, how many values it has, and they. -/
def State.measuredAt (s : State) (i : Nat) : List Nat := i :: (s.measurement i).length :: s.measurement i

/-- All five. -/
def State.measured (s : State) : List Nat := [1, 2, 3, 4, 5].flatMap s.measuredAt

/-- What a measurement operation reports, by SPDM's own codes (log entry 58): 0 how many there are, 0xFF all, else the one with that
index; none for an index that no measurement has. -/
def State.measuredBy (s : State) (op : Nat) : Option (List Nat) :=
  if op = 0 then some [5] else if op = 0xFF then some s.measured else if op ≤ 5 then some (s.measuredAt op) else none

/-- CHALLENGE (R472): signed with the identity key. -/
def execChallenge (slot : BitVec 4) (nonce : BitVec 256) (s : State) : Host.Outcome State Fault Refusal :=
  s.spdmRequest (fun s => s.spdmAgreed 0x83 ([slot.toNat, nonce.toNat] ++ s.measured))

/-- GET_MEASUREMENTS (R472). -/
def execGetMeasurements (op : BitVec 8) (nonce : BitVec 256) (s : State) : Host.Outcome State Fault Refusal :=
  s.spdmRequest (fun s => match s.measuredBy op.toNat with
    | some values => s.spdmAgreed 0xE0 ([op.toNat, nonce.toNat] ++ values)
    | none => s.spdmAnswer 0x7F [0xE0])

end Sys2Proof.Machine
end

