-- ==== Sys2Proof/Machine/SeqArith.lean ====
section
/-! DEFINITION. Sys2Proof/Machine/SeqArith.lean: the integer and logical operations of major 0x00 (R224, R225). -/

namespace Sys2Proof.Machine

/-- An operation of R225 on x and y, its result cut to the width. -/
def aluInt (f : Int → Int → Int) (w : BitVec 2) (a b : DWord) : DWord := widthResult w (f (operand w a) (operand w b))

/-- A bitwise operation of R225 on the low W bits. -/
def aluBits (f : DWord → DWord → DWord) (w : BitVec 2) (a b : DWord) : DWord := widthResult w (zext (f a b))

/-- The quotient of R225: all ones for division by zero, lo for the overflowing signed division. -/
def divResult (w : BitVec 2) (x y : Int) : Int :=
  if y = 0 then -1
  else if widthSigned w && decide (x = widthLo w) && decide (y = -1) then widthLo w
  else Int.tdiv x y

/-- The remainder of R225: x for division by zero, 0 for the overflowing signed division. -/
def remResult (w : BitVec 2) (x y : Int) : Int :=
  if y = 0 then x
  else if widthSigned w && decide (x = widthLo w) && decide (y = -1) then 0
  else x - y * Int.tdiv x y

/-- add: v := x + y. -/
def execAdd (p : BitVec 2) (d a b : BitVec 5) (w : BitVec 2) (s : State) : Host.Outcome State Fault Refusal :=
  regInstr (.add p d a b w) p d (aluInt (· + ·) w (s.me.rd a) (s.me.rd b)) s

/-- sub: v := x − y. -/
def execSub (p : BitVec 2) (d a b : BitVec 5) (w : BitVec 2) (s : State) : Host.Outcome State Fault Refusal :=
  regInstr (.sub p d a b w) p d (aluInt (· - ·) w (s.me.rd a) (s.me.rd b)) s

/-- mul: the low W bits of x × y. -/
def execMul (p : BitVec 2) (d a b : BitVec 5) (w : BitVec 2) (s : State) : Host.Outcome State Fault Refusal :=
  regInstr (.mul p d a b w) p d (aluInt (· * ·) w (s.me.rd a) (s.me.rd b)) s

/-- mulh: floor(x × y ÷ 2^W). -/
def execMulh (p : BitVec 2) (d a b : BitVec 5) (w : BitVec 2) (s : State) : Host.Outcome State Fault Refusal :=
  regInstr (.mulh p d a b w) p d (aluInt (fun x y => (x * y) / (2 ^ widthBits w : Nat)) w (s.me.rd a) (s.me.rd b)) s

/-- div. -/
def execDiv (p : BitVec 2) (d a b : BitVec 5) (w : BitVec 2) (s : State) : Host.Outcome State Fault Refusal :=
  regInstr (.div p d a b w) p d (aluInt (divResult w) w (s.me.rd a) (s.me.rd b)) s

/-- rem. -/
def execRem (p : BitVec 2) (d a b : BitVec 5) (w : BitVec 2) (s : State) : Host.Outcome State Fault Refusal :=
  regInstr (.rem p d a b w) p d (aluInt (remResult w) w (s.me.rd a) (s.me.rd b)) s

/-- min: x if x ≤ y else y. -/
def execMin (p : BitVec 2) (d a b : BitVec 5) (w : BitVec 2) (s : State) : Host.Outcome State Fault Refusal :=
  regInstr (.min p d a b w) p d (aluInt (fun x y => if x ≤ y then x else y) w (s.me.rd a) (s.me.rd b)) s

/-- max: x if x ≥ y else y. -/
def execMax (p : BitVec 2) (d a b : BitVec 5) (w : BitVec 2) (s : State) : Host.Outcome State Fault Refusal :=
  regInstr (.max p d a b w) p d (aluInt (fun x y => if y ≤ x then x else y) w (s.me.rd a) (s.me.rd b)) s

/-- adds: x + y clamped to the width's range. -/
def execAdds (p : BitVec 2) (d a b : BitVec 5) (w : BitVec 2) (s : State) : Host.Outcome State Fault Refusal :=
  regInstr (.adds p d a b w) p d (aluInt (fun x y => clampInt (x + y) (widthLo w) (widthHi w)) w (s.me.rd a) (s.me.rd b)) s

/-- subs: x − y clamped to the width's range. -/
def execSubs (p : BitVec 2) (d a b : BitVec 5) (w : BitVec 2) (s : State) : Host.Outcome State Fault Refusal :=
  regInstr (.subs p d a b w) p d (aluInt (fun x y => clampInt (x - y) (widthLo w) (widthHi w)) w (s.me.rd a) (s.me.rd b)) s

/-- and. -/
def execAnd (p : BitVec 2) (d a b : BitVec 5) (w : BitVec 2) (s : State) : Host.Outcome State Fault Refusal :=
  regInstr (.and p d a b w) p d (aluBits (· &&& ·) w (s.me.rd a) (s.me.rd b)) s

/-- or. -/
def execOr (p : BitVec 2) (d a b : BitVec 5) (w : BitVec 2) (s : State) : Host.Outcome State Fault Refusal :=
  regInstr (.or p d a b w) p d (aluBits (· ||| ·) w (s.me.rd a) (s.me.rd b)) s

/-- xor. -/
def execXor (p : BitVec 2) (d a b : BitVec 5) (w : BitVec 2) (s : State) : Host.Outcome State Fault Refusal :=
  regInstr (.xor p d a b w) p d (aluBits (· ^^^ ·) w (s.me.rd a) (s.me.rd b)) s

/-- andn: a and not b. -/
def execAndn (p : BitVec 2) (d a b : BitVec 5) (w : BitVec 2) (s : State) : Host.Outcome State Fault Refusal :=
  regInstr (.andn p d a b w) p d (aluBits (fun x y => x &&& ~~~y) w (s.me.rd a) (s.me.rd b)) s

/-- shl: x × 2^n. -/
def execShl (p : BitVec 2) (d a b : BitVec 5) (w : BitVec 2) (s : State) : Host.Outcome State Fault Refusal :=
  regInstr (.shl p d a b w) p d (widthResult w (operand w (s.me.rd a) * (2 ^ shiftCount w (s.me.rd b) : Nat))) s

/-- shr: floor(x ÷ 2^n), arithmetic where the width is signed. -/
def execShr (p : BitVec 2) (d a b : BitVec 5) (w : BitVec 2) (s : State) : Host.Outcome State Fault Refusal :=
  regInstr (.shr p d a b w) p d (widthResult w (operand w (s.me.rd a) / (2 ^ shiftCount w (s.me.rd b) : Nat))) s

/-- clz: leading zeros of the low W bits, W if they are all 0. -/
def execClz (p : BitVec 2) (d a : BitVec 5) (w : BitVec 2) (s : State) : Host.Outcome State Fault Refusal :=
  regInstr (.clz p d a w) p d (widthResult w (leadingZeros (widthBits w) (s.me.rd a).toNat : Nat)) s

/-- ctz: trailing zeros. -/
def execCtz (p : BitVec 2) (d a : BitVec 5) (w : BitVec 2) (s : State) : Host.Outcome State Fault Refusal :=
  regInstr (.ctz p d a w) p d (widthResult w (trailingZeros (widthBits w) (s.me.rd a).toNat : Nat)) s

/-- popc: ones. -/
def execPopc (p : BitVec 2) (d a : BitVec 5) (w : BitVec 2) (s : State) : Host.Outcome State Fault Refusal :=
  regInstr (.popc p d a w) p d (widthResult w (popCount (widthBits w) (s.me.rd a).toNat : Nat)) s

end Sys2Proof.Machine
end

