-- ==== Sys2Proof/Machine/SeqBranch.lean ====
section
/-! DEFINITION. Sys2Proof/Machine/SeqBranch.lean: branches, jumps and calls (R232 to R235). -/

namespace Sys2Proof.Machine

/-- A branch to a target when its condition holds, else to pc + 4 (R220, R232, R233). -/
def branchInstr (i : Instr) (p : BitVec 2) (taken : Bool) (target : DWord) (s : State) : Host.Outcome State Fault Refusal :=
  let next := if taken then target else s.me.pc + 4#64
  seqInstr i p 4 (fun e s => s.modMe (fun q => { q with pc := next ^^^ errPc e })) s

/-- beq. -/
def execBeq (p : BitVec 2) (a b : BitVec 5) (o : BitVec 14) (s : State) : Host.Outcome State Fault Refusal :=
  branchInstr (.beq p a b o) p (branchCondition .eq (s.me.rd a) (s.me.rd b)) (branchTarget s.me.pc o) s

/-- bne. -/
def execBne (p : BitVec 2) (a b : BitVec 5) (o : BitVec 14) (s : State) : Host.Outcome State Fault Refusal :=
  branchInstr (.bne p a b o) p (branchCondition .ne (s.me.rd a) (s.me.rd b)) (branchTarget s.me.pc o) s

/-- blt, signed. -/
def execBlt (p : BitVec 2) (a b : BitVec 5) (o : BitVec 14) (s : State) : Host.Outcome State Fault Refusal :=
  branchInstr (.blt p a b o) p (branchCondition .lt (s.me.rd a) (s.me.rd b)) (branchTarget s.me.pc o) s

/-- bge, signed. -/
def execBge (p : BitVec 2) (a b : BitVec 5) (o : BitVec 14) (s : State) : Host.Outcome State Fault Refusal :=
  branchInstr (.bge p a b o) p (branchCondition .ge (s.me.rd a) (s.me.rd b)) (branchTarget s.me.pc o) s

/-- bp: branches when the predicate is true. -/
def execBp (p : BitVec 2) (c : BitVec 3) (o : BitVec 20) (s : State) : Host.Outcome State Fault Refusal :=
  branchInstr (.bp p c o) p (s.me.pred c) (branchTarget s.me.pc o) s

/-- bnp: branches when the predicate is false. -/
def execBnp (p : BitVec 2) (c : BitVec 3) (o : BitVec 20) (s : State) : Host.Outcome State Fault Refusal :=
  branchInstr (.bnp p c o) p (!s.me.pred c) (branchTarget s.me.pc o) s

/-- j. -/
def execJ (p : BitVec 2) (o : BitVec 24) (s : State) : Host.Outcome State Fault Refusal :=
  branchInstr (.j p o) p true (branchTarget s.me.pc o) s

/-- call: wr(31, pc + 4), then as j. -/
def execCall (p : BitVec 2) (o : BitVec 24) (s : State) : Host.Outcome State Fault Refusal :=
  let link := s.me.pc + 4#64
  let target := branchTarget s.me.pc o
  seqInstr (.call p o) p 4 (fun e s => s.modMe (fun q => { q.wr 31#5 (link ^^^ e) with pc := target ^^^ errPc e })) s

/-- callr: a target with bits [1:0] non-zero takes the misaligned-access trap, pc and d unchanged; else d := pc + 4 and
the jump. The target is computed before d is written. -/
def execCallr (p : BitVec 2) (d a : BitVec 5) (i : BitVec 14) (s : State) : Host.Outcome State Fault Refusal :=
  let link := s.me.pc + 4#64
  let target := s.me.rd a + sextImm i
  seqInstr (.callr p d a i) p 4 (fun e s =>
    if target.extractLsb' 0 2 ≠ 0#2 then s.trapMe 2 target
    else s.modMe (fun q => { q.wr d (link ^^^ e) with pc := target ^^^ errPc e })) s

end Sys2Proof.Machine
end

