-- ==== Sys2Proof/Machine/SeqImm.lean ====
section
/-! DEFINITION. Sys2Proof/Machine/SeqImm.lean: immediate and upper-immediate forms (R230, R231). -/

namespace Sys2Proof.Machine

/-- addi. -/
def execAddi (p : BitVec 2) (d a : BitVec 5) (i : BitVec 14) (s : State) : Host.Outcome State Fault Refusal :=
  regInstr (.addi p d a i) p d (s.me.rd a + sextImm i) s

/-- andi. -/
def execAndi (p : BitVec 2) (d a : BitVec 5) (i : BitVec 14) (s : State) : Host.Outcome State Fault Refusal :=
  regInstr (.andi p d a i) p d (s.me.rd a &&& zextImm i) s

/-- ori. -/
def execOri (p : BitVec 2) (d a : BitVec 5) (i : BitVec 14) (s : State) : Host.Outcome State Fault Refusal :=
  regInstr (.ori p d a i) p d (s.me.rd a ||| zextImm i) s

/-- xori. -/
def execXori (p : BitVec 2) (d a : BitVec 5) (i : BitVec 14) (s : State) : Host.Outcome State Fault Refusal :=
  regInstr (.xori p d a i) p d (s.me.rd a ^^^ zextImm i) s

/-- shli. -/
def execShli (p : BitVec 2) (d a : BitVec 5) (n : BitVec 6) (s : State) : Host.Outcome State Fault Refusal :=
  regInstr (.shli p d a n) p d (s.me.rd a <<< n.toNat) s

/-- shrli. -/
def execShrli (p : BitVec 2) (d a : BitVec 5) (n : BitVec 6) (s : State) : Host.Outcome State Fault Refusal :=
  regInstr (.shrli p d a n) p d (s.me.rd a >>> n.toNat) s

/-- shrai. -/
def execShrai (p : BitVec 2) (d a : BitVec 5) (n : BitVec 6) (s : State) : Host.Outcome State Fault Refusal :=
  regInstr (.shrai p d a n) p d ((s.me.rd a).sshiftRight n.toNat) s

/-- lui. -/
def execLui (p : BitVec 2) (d : BitVec 5) (i : BitVec 19) (s : State) : Host.Outcome State Fault Refusal :=
  regInstr (.lui p d i) p d (luValue i) s

/-- lpc: pc is the address of the lpc itself. -/
def execLpc (p : BitVec 2) (d : BitVec 5) (i : BitVec 19) (s : State) : Host.Outcome State Fault Refusal :=
  regInstr (.lpc p d i) p d (s.me.pc + luValue i) s

end Sys2Proof.Machine
end

