-- ==== Sys2Proof/Machine/SeqPred.lean ====
section
/-! DEFINITION. Sys2Proof/Machine/SeqPred.lean: compares, predicate logic and select (R226 to R229). -/

namespace Sys2Proof.Machine

/-- cmp.eq. -/
def execCmpEq (p : BitVec 2) (d : BitVec 3) (a b : BitVec 5) (w : BitVec 2) (s : State) : Host.Outcome State Fault Refusal :=
  predInstr (.cmpEq p d a b w) p d (condition .eq w (s.me.rd a) (s.me.rd b)) s

/-- cmp.ne. -/
def execCmpNe (p : BitVec 2) (d : BitVec 3) (a b : BitVec 5) (w : BitVec 2) (s : State) : Host.Outcome State Fault Refusal :=
  predInstr (.cmpNe p d a b w) p d (condition .ne w (s.me.rd a) (s.me.rd b)) s

/-- cmp.lt. -/
def execCmpLt (p : BitVec 2) (d : BitVec 3) (a b : BitVec 5) (w : BitVec 2) (s : State) : Host.Outcome State Fault Refusal :=
  predInstr (.cmpLt p d a b w) p d (condition .lt w (s.me.rd a) (s.me.rd b)) s

/-- cmp.ge. -/
def execCmpGe (p : BitVec 2) (d : BitVec 3) (a b : BitVec 5) (w : BitVec 2) (s : State) : Host.Outcome State Fault Refusal :=
  predInstr (.cmpGe p d a b w) p d (condition .ge w (s.me.rd a) (s.me.rd b)) s

/-- pand. -/
def execPand (p : BitVec 2) (d a b : BitVec 3) (s : State) : Host.Outcome State Fault Refusal :=
  predInstr (.pand p d a b) p d (s.me.pred a && s.me.pred b) s

/-- por. -/
def execPor (p : BitVec 2) (d a b : BitVec 3) (s : State) : Host.Outcome State Fault Refusal :=
  predInstr (.por p d a b) p d (s.me.pred a || s.me.pred b) s

/-- pxor. -/
def execPxor (p : BitVec 2) (d a b : BitVec 3) (s : State) : Host.Outcome State Fault Refusal :=
  predInstr (.pxor p d a b) p d (s.me.pred a ^^ s.me.pred b) s

/-- pandn: q and not r. -/
def execPandn (p : BitVec 2) (d a b : BitVec 3) (s : State) : Host.Outcome State Fault Refusal :=
  predInstr (.pandn p d a b) p d (s.me.pred a && !s.me.pred b) s

/-- p7 ++ … ++ p0 (R227). -/
def Seq.predByte (q : Seq) : Nat :=
  (List.range 8).foldl (fun acc i => acc + (if q.pred (BitVec.ofNat 3 i) then 2 ^ i else 0)) 0

/-- pget: the eight predicates as a byte; bit 0 is always 1. -/
def execPget (p : BitVec 2) (d : BitVec 5) (s : State) : Host.Outcome State Fault Refusal :=
  regInstr (.pget p d) p d (BitVec.ofNat 64 s.me.predByte) s

/-- p1 to p7 set from bits [7:1] of a value. -/
def Seq.setPreds (q : Seq) (v : DWord) : Seq :=
  [1, 2, 3, 4, 5, 6, 7].foldl (fun q i => q.wrPred (BitVec.ofNat 3 i) (v.getLsbD i)) q

/-- pset: p1 to p7 from a[1] to a[7]. -/
def execPset (p : BitVec 2) (a : BitVec 5) (s : State) : Host.Outcome State Fault Refusal :=
  let v := s.me.rd a
  seqInstr (.pset p a) p 4 (fun e s => s.modMe (fun q => (q.setPreds (v ^^^ e)).advance)) s

/-- sel: a if the predicate holds, else b (R228). -/
def execSel (p : BitVec 2) (d a b : BitVec 5) (q : BitVec 3) (s : State) : Host.Outcome State Fault Refusal :=
  regInstr (.sel p d a b q) p d (if s.me.pred q then s.me.rd a else s.me.rd b) s

/-- cmpi.eq (R229). -/
def execCmpiEq (p : BitVec 2) (d : BitVec 3) (a : BitVec 5) (i : BitVec 14) (s : State) : Host.Outcome State Fault Refusal :=
  predInstr (.cmpiEq p d a i) p d (immEq (s.me.rd a) i) s

/-- cmpi.lt (R229). -/
def execCmpiLt (p : BitVec 2) (d : BitVec 3) (a : BitVec 5) (i : BitVec 14) (s : State) : Host.Outcome State Fault Refusal :=
  predInstr (.cmpiLt p d a i) p d (immLt (s.me.rd a) i) s

/-- cmpi.ltu (R229). -/
def execCmpiLtu (p : BitVec 2) (d : BitVec 3) (a : BitVec 5) (i : BitVec 14) (s : State) : Host.Outcome State Fault Refusal :=
  predInstr (.cmpiLtu p d a i) p d (immLtu (s.me.rd a) i) s

end Sys2Proof.Machine
end

