-- ==== Sys2Proof/Machine/SeqToken.lean ====
section
/-! DEFINITION. Sys2Proof/Machine/SeqToken.lean: token and round injection (R259 to R265) and launches (R268). -/

namespace Sys2Proof.Machine

/-! ### Injection ports (R259, R260) -/

/-- The injection port that a value names: the block, the source unit and the port as it stands; none where the value is
not valid (R259). A port that has not been used yet stands at the first round of its load (R260). -/
def State.injPort (s : State) (v : DWord) : Option (RCtx × Nat × Run × Port) :=
  if field v 63 10 ≠ 0 then none
  else
    let k : Fin 8 := Fin.ofNat 8 (field v 9 7)
    let u := field v 6 0
    match s.rctx s.cur k with
    | none => none
    | some x =>
      let w := x.image.unit u
      match s.run x.gid with
      | none => none
      | some r =>
        if u < x.image.count && uOp w == 0x88 && uImm w % 4 == 0 then
          let fresh : Port :=
            { tile := s.cur.val, strand := k.val, unit := u, round := r.first, seq := 0, used := false, closed := false, refuses := none, items := [] }
          some (x, u, r, (r.ports.find? (fun p => p.tile == s.cur.val && p.strand == k.val && p.unit == u)).getD fresh)
        else none

/-- The state with an injection port set. -/
def State.setPort (s : State) (g : Word) (p : Port) : State :=
  s.modRun g (fun r => { r with
    ports := (r.ports.filter (fun q => !(q.tile == p.tile && q.strand == p.strand && q.unit == p.unit))) ++ [p] })

/-- Whether a port's edge has a free slot (R260). -/
def State.portRoom (s : State) (x : RCtx) (u : Nat) (p : Port) : Bool :=
  slotsTaken ((s.unitAt x u).reply ++ p.items) < sourceDepth x.image u

/-- An injection through the port that rd(b) names: the checks every injection makes, then f with the port. -/
def portInstr (i : Instr) (p : BitVec 2) (b : BitVec 5) (f : DWord → RCtx → Nat → Run → Port → State → State) (s : State) :
    Host.Outcome State Fault Refusal :=
  seqInstr i p 5 (fun e s =>
    match s.injPort (s.me.rd b) with
    | none => s.cfgError 8 0xFF 0
    | some (x, u, r, q) => f e x u r q s) s

/-- An item appended to a port's edge, which then compresses (R418), or a stall while the edge has no free slot (R260). -/
def State.inject (s : State) (i : Instr) (x : RCtx) (u : Nat) (q : Port) (item : Item) (next : Port) : State :=
  if s.portRoom x u q then
    let (reply, items) := packSupply (bwThresh (x.image.bind u)) (s.unitAt x u).reply (q.items ++ [item])
    ((s.modUnit x u (fun v => { v with reply := reply })).setPort x.gid { next with used := true, items := items }).nextMe
  else s.stallMe i .retry

/-- Where a token that software tags with an error comes from: the source unit of its port; its rollback grows to its
round (R265). -/
def State.portOrigin (s : State) (x : RCtx) (u : Nat) (q : Port) : Origin :=
  ⟨s.cur.val, (s.strand x.t x.k).ordinal, x.key, u, x.copyId u 0, q.seq, q.round, false, 0, 0, 0, 0xFFFF_FFFF#32, false, none, none, none, none⟩

/-- tok.put (R261). -/
def execTokPut (p : BitVec 2) (a b : BitVec 5) (t : BitVec 7) (s : State) : Host.Outcome State Fault Refusal :=
  portInstr (.tokPut p a b t) p b (fun e x u _ q s =>
    let v := s.me.rd a ^^^ e
    let tag : Byte := t.setWidth 8
    let cause := field v 31 24
    if q.closed || q.refuses.isSome then s.cfgError 9 0xFF 0
    else if tag.getLsbD 2 && (cause = 0 || 7 < cause) then s.cfgError 0xA 0xFF 0
    else
      let payload : Word := if tag.getLsbD 6 then 0#32 else v.setWidth 32
      let item : Item := { words := [payload], tag := tag }
      let item := if item.isError then { item with origin := some (s.portOrigin x u q) } else item
      s.inject (.tokPut p a b t) x u q item { q with seq := q.seq + 1 }) s

/-- rnd.end (R262): the marker, then its timestamp is judged (R140, R141). A port that would emit a marker for round 0xFFFF_FFFF stops
the load instead (R94). -/
def execRndEnd (p : BitVec 2) (a b : BitVec 5) (s : State) : Host.Outcome State Fault Refusal :=
  portInstr (.rndEnd p a b) p b (fun e x u _ q s =>
    let ts : Word := (s.me.rd a ^^^ e).setWidth 32
    if q.closed || q.refuses.isSome then s.cfgError 9 0xFF 0
    else if 0xFFFF_FFFF ≤ q.round && s.portRoom x u q then s.punctuationFault x.gid q.round
    else
      let s1 := s.inject (.rndEnd p a b) x u q (markerItem 0 (BitVec.ofNat 32 q.round)) { q with round := q.round + 1, seq := 0 }
      if s1.me.stall.isSome then s1 else s1.noteTimestamp x.gid q.round ts) s

/-- rnd.graph (R263). -/
def execRndGraph (p : BitVec 2) (b : BitVec 5) (s : State) : Host.Outcome State Fault Refusal :=
  portInstr (.rndGraph p b) p b (fun _ x u _ q s =>
    if q.closed || q.refuses.isSome || q.seq ≠ 0 then s.cfgError 9 0xFF 0
    else s.inject (.rndGraph p b) x u q (markerItem 2 (BitVec.ofNat 32 q.round - 1#32)) { q with closed := true }) s

/-- rnd.redo (R264). -/
def execRndRedo (p : BitVec 2) (a b : BitVec 5) (s : State) : Host.Outcome State Fault Refusal :=
  portInstr (.rndRedo p a b) p b (fun e x _ _ q s =>
    let v := field (s.me.rd a ^^^ e) 31 0
    if q.refuses = some v then (s.setPort x.gid { q with round := v, seq := 0, refuses := none }).nextMe
    else s.cfgError 9 0xFF 0) s

/-! ### Launches (R268) -/

/-- Whether a queue number takes launches: the partition has enabled the queue and it is device-owned (R268, R343). -/
def State.queueLaunches (s : State) (p : Fin 16) (n : Nat) : Bool :=
  n < 64 && ((s.part p).queues[Fin.ofNat 64 n]).enabled && ((s.part p).queues[Fin.ofNat 64 n]).deviceOwned

/-- A launch record held pending for the sequencer's current round; the ninth stalls, and keeps the record, which is read
once (R268). -/
def State.pend (s : State) (i : Instr) (queue : Nat) (bytes : List Byte) : State :=
  match s.runOfTile s.cur.val with
  | none => s.nextMe
  | some r =>
    if 8 ≤ (r.launches.filter (fun l => l.tile == s.cur.val)).length then s.stallMe i (.kept queue bytes)
    else (s.modRun r.gid (fun x => { x with launches := x.launches ++ [⟨s.cur.val, r.currentRound s.cur.val, queue, bytes⟩] })).nextMe

/-- launch (R268). -/
def execLaunch (p : BitVec 2) (a b : BitVec 5) (s : State) : Host.Outcome State Fault Refusal :=
  seqInstr (.launch p a b) p 5 (fun e s =>
    let va := s.me.rd a ^^^ e
    let q := (s.me.rd b).toNat
    if va.toNat % 64 ≠ 0 then s.trapMe 2 va
    else if !s.queueLaunches (s.partOfTile s.cur.val) q then s.cfgError 0xC 0xFF q
    else
      match s.seqLoad .global va 64 with
      | (.trap code tval, s1) => s1.trapMe code tval
      | (.ok v, s1) => s1.pend (.launch p a b) q (leBytes 64 v)) s

end Sys2Proof.Machine
end

