-- ==== Sys2Proof/Machine/SeqWait.lean ====
section
/-! DEFINITION. Sys2Proof/Machine/SeqWait.lean: waiting and events (R164, R249, R269, R270). -/

namespace Sys2Proof.Machine

/-- The executing sequencer sleeps on the line that holds an address, or polls it where the page is uncached host memory
(R269). -/
def State.sleepMe (s : State) (i : Instr) (sp : Space) (addr : DWord) : State :=
  let uncached := match sp with
    | .global => (match s.pageKind addr with
      | some (m, host) => m == 1 && host
      | none => false)
    | _ => false
  s.modMe (fun q => { q with stall := some ⟨i, .sleep (addr.toNat / 64) uncached, s.tileCycles s.cur.val⟩ })

/-- wait.addr and wait.addr.n64 (R269): n bytes are read; the wait is over, or the sequencer sleeps. -/
def waitAddrInstr (i : Instr) (p : BitVec 2) (n : Nat) (a b : BitVec 5) (g c : BitVec 2) (s : State) :
    Host.Outcome State Fault Refusal :=
  seqInstr i p 5 (fun e s =>
    let addr := s.me.rd a ^^^ e
    match spaceOf g with
    | none => s.illegal i
    | some sp =>
      if addr.toNat % n ≠ 0 then s.trapMe 2 addr
      else if s.noPath sp addr .read then s.killCutOff
      else
        match s.seqLoad sp addr n with
        | (.trap code tval, s1) => s1.trapMe code tval
        | (.ok v, s1) =>
          if waitDone c n v (s.me.rd b).toNat then s1.nextMe else s1.sleepMe i sp addr) s

/-- wait.addr, a word (R269). -/
def execWaitAddr (p : BitVec 2) (a b : BitVec 5) (o sc g c : BitVec 2) (s : State) : Host.Outcome State Fault Refusal :=
  waitAddrInstr (.waitAddr p a b o sc g c) p 4 a b g c s

/-- wait.addr.n64, a dword (R269). -/
def execWaitAddrN64 (p : BitVec 2) (a b : BitVec 5) (o sc g c : BitVec 2) (s : State) : Host.Outcome State Fault Refusal :=
  waitAddrInstr (.waitAddrN64 p a b o sc g c) p 8 a b g c s

/-- ev.add (R270). -/
def execEvAdd (p : BitVec 2) (a b : BitVec 5) (sc : BitVec 2) (s : State) : Host.Outcome State Fault Refusal :=
  let inc := (s.me.rd b).toNat
  atomicInstr (.evAdd p a b sc) p (s.me.rd a) 8 (fun old => some ((old + inc) % 2 ^ 64)) (fun _ q => q) s

/-! ### The ends of stalls -/

/-- A stalled instruction of a kind, where its sequencer can go on with it: it runs and its load is not frozen. -/
def State.stalledAs (s : State) (t : Fin 192) (kind : StallKind → Bool) : Option Stall :=
  let q := s.seq t
  if decide (q.mode = .running) && q.sleeping.isNone && !s.tileFrozen t.val then
    match q.stall with
    | some x => if kind x.kind then some x else none
    | none => none
  else none

/-- Whether a sequencer's next event is an asynchronous trap: it is taken before a waiting amo is performed (R177, R223,
R245). -/
def State.trapFirst (s : State) (t : Fin 192) : Bool := !(s.seq t).sv && !(s.seq t).held.isEmpty

/-- AMO_PERFORM (R164): a waiting amo or ev.add executes once its round is the oldest uncommitted round. -/
def execAmoPerform (t : Fin 192) (s : State) : Host.Outcome State Fault Refusal :=
  let s1 := { s with cur := t }
  match s.stalledAs t (fun k => decide (k = .round)) with
  | none => .next s
  | some x =>
    if !s1.roundReady || s.trapFirst t then .next s
    else
      stepped s t <| match x.instr with
      | .amoAdd p d a v o sc z => execAmoAdd p d a v o sc z s1
      | .amoSwap p d a v o sc z => execAmoSwap p d a v o sc z s1
      | .amoCas p d a v o sc z => execAmoCas p d a v o sc z s1
      | .evAdd p a b sc => execEvAdd p a b sc s1
      | _ => .next s

/-- The re-read of a sleeping wait. -/
def State.rereadWait (s : State) (t : Fin 192) (x : Stall) : Host.Outcome State Fault Refusal :=
  stepped s t <| match x.instr with
  | .waitAddr p a b o sc g c => execWaitAddr p a b o sc g c { s with cur := t }
  | .waitAddrN64 p a b o sc g c => execWaitAddrN64 p a b o sc g c { s with cur := t }
  | _ => .next s

/-- WAIT_ADDR_WAKE (R269): a write to the watched line, or a spurious wake: the sleeper reads again. -/
def execWaitAddrWake (t : Fin 192) (s : State) : Host.Outcome State Fault Refusal :=
  match s.stalledAs t (fun k => match k with
      | .sleep _ uncached => !uncached
      | _ => false) with
  | none => .next s
  | some x => s.rereadWait t x

/-- WAIT_ADDR_POLL (R269): a wait on an uncached host page reads again every 1,024 ac cycles. -/
def execWaitAddrPoll (t : Fin 192) (s : State) : Host.Outcome State Fault Refusal :=
  match s.stalledAs t (fun k => match k with
      | .sleep _ uncached => uncached
      | _ => false) with
  | none => .next s
  | some x => if x.since + 1024 ≤ s.tileCycles t.val then s.rereadWait t x else .next s

end Sys2Proof.Machine
end

