-- ==== Sys2Proof/Machine/SeqStall.lean ====
section
/-! DEFINITION. Sys2Proof/Machine/SeqStall.lean: the end of a stall that waits for room, for a strand, for engines or for
a pending launch (R138, R249, R256, R258, R260, R266, R268). -/

namespace Sys2Proof.Machine

/-- A stalled instruction that has read its card or its launch record, and keeps it (R266, R268). -/
def State.goOn (s : State) (i : Instr) (m : Nat) (bytes : List Byte) : State :=
  match i with
  | .engCopy _ _ k => s.queueJob i 0 k m bytes
  | .engDcmp _ _ k => s.queueJob i 1 k m bytes
  | .engVdec _ _ k => s.queueJob i 2 k m bytes
  | .engXfm _ _ k => s.queueJob i 3 k m bytes
  | .launch _ _ _ => s.pend i m bytes
  | _ => s

/-- An instruction whose access waits for its round (R164): a trap that can be taken comes first (R177). -/
def waitsForRound : Instr → Bool
  | .amoAdd _ _ _ _ _ _ _ => true
  | .amoSwap _ _ _ _ _ _ _ => true
  | .amoCas _ _ _ _ _ _ _ => true
  | .evAdd _ _ _ _ => true
  | _ => false

/-- STALL_RELEASE (R249): the stalled instruction executes from its start, or from the card that it keeps, and completes or
stalls on. -/
def execStallRelease (t : Fin 192) (s : State) : Host.Outcome State Fault Refusal :=
  match s.stalledAs t (fun k => match k with
      | .retry => true
      | .switch => true
      | .kept _ _ => true
      | _ => false) with
  | none => .next s
  | some ⟨i, .kept m bytes, _⟩ => stepped s t (.next (({ s with cur := t } : State).goOn i m bytes))
  | some x =>
    let s1 := { s with cur := t }
    if waitsForRound x.instr && s.trapFirst t then .next s
    else stepped s t <| match x.instr with
    | .cfgLoad p a c => execCfgLoad p a c s1
    | .cfgWait p k => execCfgWait p k s1
    | .cfgExit p a k => execCfgExit p a k s1
    | .cfgPick p a k => execCfgPick p a k s1
    | .cfgDrain p k => execCfgDrain p k s1
    | .tokPut p a b g => execTokPut p a b g s1
    | .rndEnd p a b => execRndEnd p a b s1
    | .rndGraph p b => execRndGraph p b s1
    | .engCopy p a k => execEngCopy p a k s1
    | .engDcmp p a k => execEngDcmp p a k s1
    | .engVdec p a k => execEngVdec p a k s1
    | .engXfm p a k => execEngXfm p a k s1
    | .launch p a b => execLaunch p a b s1
    | .st p d b z sp o => execSt p d b z sp o s1
    | .stOrdered p a v o sc z => execStOrdered p a v o sc z s1
    | .amoAdd p d a v o sc z => execAmoAdd p d a v o sc z s1
    | .amoSwap p d a v o sc z => execAmoSwap p d a v o sc z s1
    | .amoCas p d a v o sc z => execAmoCas p d a v o sc z s1
    | .evAdd p a b sc => execEvAdd p a b sc s1
    | _ => .next s

end Sys2Proof.Machine
end

