-- ==== Sys2Proof/Machine/Supervisor.lean ====
section
/-! DEFINITION. Sys2Proof/Machine/Supervisor.lean: the firmware's supervisor routines (R391, R479), each as one step
(log entry 7), asynchronous traps (R390), the watchdogs (R392), forced block boundaries (R404). -/

namespace Sys2Proof.Machine

/-! ### Statuses (R457) -/

/-- killed: illegal instruction. -/
def stIllegal : Nat := 0x0007
/-- killed: access fault. -/
def stAccess : Nat := 0x0008
/-- killed: breakpoint. -/
def stBreakpoint : Nat := 0x0009
/-- killed: trap. -/
def stTrap : Nat := 0x000A
/-- killed: configuration. -/
def stConfig : Nat := 0x000B
/-- killed: round abort. -/
def stAbort : Nat := 0x000C
/-- killed: watchdog. -/
def stWatchdog : Nat := 0x000D

/-! ### The routines -/

/-- The graph of the executing sequencer killed with a status (R391). -/
def State.killMine (s : State) (status : Nat) (flags : Byte) : State :=
  match s.runOfTile s.cur.val with
  | some r => s.kill r.gid status flags
  | none => s

/-- Returns to the instruction after sy.epc. -/
def Seq.skipRet (q : Seq) : Seq := { q with epc := q.epc + 4#64 }.eret

/-- The access that the routine of cause 0x02 emulates (R238): the space, the bytes, the data to store or the register
to load with its sign. -/
structure Emulated where
  space : Space
  bytes : Nat
  store : Option DWord
  dest : BitVec 5
  sign : BitVec 1

/-- What an instruction's misaligned access is, where the routine emulates it: ME and ordered loads and stores. -/
def emulated (q : Seq) : Instr → Option Emulated
  | .ld _ d _ z g sp _ => (spaceOf sp).map (fun x => ⟨x, meBytes z, none, d, g⟩)
  | .st _ d _ z sp _ => (spaceOf sp).map (fun x => ⟨x, meBytes z, some (q.rd d), 0#5, 0#1⟩)
  | .ldOrdered _ d _ _ _ z => some ⟨.global, amBytes z, none, d, 0#1⟩
  | .stOrdered _ _ v _ _ z => some ⟨.global, amBytes z, some (q.rd v), 0#5, 0#1⟩
  | _ => none

/-- Bytes loaded one at a time in ascending order (R169, R238): the value, or the first byte's fault. -/
def State.emulateLoad (s : State) (sp : Space) (addr : DWord) : Nat → SeqEnd × State
  | 0 => (.ok 0, s)
  | n + 1 =>
    match s.seqReadBytes s.meUserAgent sp addr 1 with
    | (.ok b, s1) =>
      (match State.emulateLoad s1 sp (addr + 1#64) n with
      | (.ok v, s2) => (.ok (b + 256 * v), s2)
      | r => r)
    | r => r

/-- Whether a page that an emulated store writes is moving, or replicated and first collapses (R138, R139). -/
def State.withholdsStore (s : State) (sp : Space) (addr : DWord) (n : Nat) : Bool :=
  decide (sp = .global) && field addr 63 52 == 0
    && (s.heldWrite s.meUserAgent addr.toNat || s.heldWrite s.meUserAgent (addr.toNat + n - 1))

/-- The collapse that a withheld emulated store starts; the routine is tried again at the sequencer's next turn. -/
def State.holdStore (s : State) (addr : DWord) (n : Nat) : State :=
  (s.holdWrite s.meUserAgent addr.toNat).holdWrite s.meUserAgent (addr.toNat + n - 1)

/-- Bytes stored one at a time in ascending order; those before a fault stay written. -/
def State.emulateStore (s : State) (sp : Space) (addr : DWord) (v : Nat) : Nat → SeqEnd × State
  | 0 => (.ok 0, s)
  | n + 1 =>
    match s.seqWriteBytes s.meUserAgent sp addr 1 (v % 256) with
    | (.ok _, s1) => State.emulateStore s1 sp (addr + 1#64) (v / 256) n
    | r => r

/-- The fault of an emulated byte reported (R238): the trap of that fault, sy.epc the instruction's address. -/
def State.reportByte (s : State) (code : Nat) (tval : DWord) : State :=
  let epc := s.me.epc
  (s.modMe Seq.eret).trapAt s.cur code epc tval

/-- The routine of cause 0x02, for the word that trapped. A store to a page that moves waits at its next byte (R138). -/
def State.routineMisaligned (s : State) : State :=
  match (s.me.word.bind decodeFetched).bind (emulated s.me) with
  | none => s.killMine stAccess 0#8
  | some e =>
    let addr := s.me.tval
    match e.store with
    | none =>
      (match s.emulateLoad e.space addr e.bytes with
      | (.ok v, s2) => s2.modMe (fun q => (q.wr e.dest (extendLoad e.sign e.bytes v)).skipRet)
      | (.trap code tval, s2) => s2.reportByte code tval)
    | some v =>
      if s.withholdsStore e.space addr e.bytes then s.holdStore addr e.bytes
      else
        (match s.emulateStore e.space addr v.toNat e.bytes with
        | (.ok _, s2) => s2.modMe Seq.skipRet
        | (.trap code tval, s2) => s2.reportByte code tval)

/-- What the faulting instruction's access is for, as a page-fault request says it (R135, R391): 2 when its own word
could not be fetched and for the image of a cfg.load, which R133 judges by exec, 1 for a store, 0 otherwise. -/
def accessKind (w : Option Word) : Nat :=
  match w with
  | none => 2
  | some w =>
    match decodeFetched w with
    | some (.cfgLoad _ _ _) => 2
    | some (.st _ _ _ _ _ _) => 1
    | some (.stOrdered _ _ _ _ _ _) => 1
    | some (.amoAdd _ _ _ _ _ _ _) => 1
    | some (.amoSwap _ _ _ _ _ _ _) => 1
    | some (.amoCas _ _ _ _ _ _ _) => 1
    | some (.evAdd _ _ _ _) => 1
    | _ => 0

/-- The routine of cause 0x04: a not-present entry is posted and slept for, one that has become valid is tried again,
and any other kills. -/
def State.routinePage (s : State) : State :=
  let va := s.me.tval.toNat
  match s.walk s.meUserAgent va with
  | .fault .notPresent =>
    let (tag, s1) := s.pageFault (s.partOfTile s.cur.val) va s.me.ctx (accessKind s.me.word) (seqId s.cur.val) (s.gidOfTile s.cur.val)
    s1.modMe (fun q => { q with sleeping := some tag })
  | .leaf _ => s.modMe Seq.eret
  | _ => s.killMine stAccess 0#8

/-- Whether a debug session is attached to the executing sequencer's graph (R391, R402). -/
def State.debugged (s : State) : Bool :=
  match s.runOfTile s.cur.val with
  | some r => s.debuggers.contains r.ctx
  | none => false

/-- The routine of cause 0x05: a debug hold, in which the sequencer stays at its vector, or a kill. A load that is already on its
way to another freeze goes there first. -/
def State.routineBreak (s : State) : State :=
  if s.debugged then
    match s.runOfTile s.cur.val with
    | some r => if r.freeze.isSome then s else (s.modMe (fun q => { q with holding := true })).requestFreeze r.gid .debug
    | none => s
  else s.killMine stBreakpoint 0#8

/-- The routine of cause 0x06: trap 0 at user privilege ends this sequencer's part of the load (R101, R271). -/
def State.routineTrap (s : State) : State :=
  let q := s.me
  if q.tval = 0#64 && !q.psv then s.modMe (fun x => { x.boundary with mode := .ended })
  else s.killMine stTrap (q.tval.setWidth 8)

/-- The routine of cause 0x09: the handler that local RAM names, or a kill. -/
def State.routineAbort (s : State) : State :=
  let q := s.me
  let handler := leNat (q.ram.readN 80 8)
  if handler ≠ 0 then
    s.modMe (fun x => { x with
      ram := (x.ram.writeN 88 (leBytes 8 x.epc.toNat)).writeN 96 (leBytes 4 (x.tval.toNat % 2 ^ 32))
      epc := BitVec.ofNat 64 handler &&& 0xFFFF_FFFF_FFFF_FFFC#64 }.eret)
  else s.killMine stAbort 0#8

/-- The supervisor routine of a cause (R391). -/
def State.routine (s : State) (code : Nat) : State :=
  match code with
  | 1 => s.killMine stIllegal 0#8
  | 2 => s.routineMisaligned
  | 3 => s.killMine stAccess 0#8
  | 4 => s.routinePage
  | 5 => s.routineBreak
  | 6 => s.routineTrap
  | 7 => s.modMe Seq.eret
  | 8 => s.killMine stConfig (BitVec.ofNat 8 (field s.me.tval 31 24))
  | 9 => s.routineAbort
  | 10 => s.modMe (fun q => { q with ram := q.ram.writeN 76 (leBytes 4 (field q.tval 15 0)) }.eret)
  | 11 => s.killMine stWatchdog 0#8
  | _ => s

/-- The cause whose routine the executing sequencer stands at: it is at supervisor privilege, at the vector entry of the
cause that it took. -/
def Seq.atVector (q : Seq) : Option Nat :=
  let code := q.cause.toNat
  if q.sv && 1 ≤ code && code ≤ 11 && decide (q.pc = q.vbase + BitVec.ofNat 64 (16 * code)) && decide (q.vbase = Config.trapVector)
  then some code else none

/-! ### Asynchronous traps and watchdogs -/

/-- Whether a sequencer executes: it runs, its load is not frozen, and it does not sleep for a page. -/
def State.executes (s : State) (t : Fin 192) : Bool :=
  let q := s.seq t
  decide (q.mode = .running) && q.sleeping.isNone && !s.tileFrozen t.val

/-- The held trap of the lowest code entered; sy.epc is the next instruction, or the stalled one (R390, R249). -/
def State.enterHeld (s : State) (t : Fin 192) : Option State :=
  let q := s.seq t
  match (if q.sv then none else lowestHeld q.held) with
  | none => none
  | some ((code, tval), rest) => some ((s.modSeq t (fun x => { x with held := rest })).trapAt t code q.pc tval)

/-- ASYNC_TRAP (R390): a held asynchronous trap is entered between instructions, or within a stalled one. -/
def execAsyncTrap (t : Fin 192) (s : State) : Host.Outcome State Fault Refusal :=
  .next (if s.executes t then (s.enterHeld t).getD s else s)

/-- Whether the watchdog counts a stalled instruction: those of R249 but for the waits (R392), and not a
writer that a page move withholds. -/
def watched : Instr → Bool
  | .waitAddr _ _ _ _ _ _ _ => false
  | .waitAddrN64 _ _ _ _ _ _ _ => false
  | .cfgWait _ _ => false
  | .cfgExit _ _ _ => false
  | .cfgPick _ _ _ => false
  | .amoAdd _ _ _ _ _ _ _ => false
  | .amoSwap _ _ _ _ _ _ _ => false
  | .amoCas _ _ _ _ _ _ _ => false
  | .st _ _ _ _ _ _ => false
  | .stOrdered _ _ _ _ _ _ => false
  | _ => true

/-- WATCHDOG (R392): 2^28 ac cycles of a stall at user privilege. -/
def execWatchdog (t : Fin 192) (s : State) : Host.Outcome State Fault Refusal :=
  let q := s.seq t
  match q.stall with
  | some x =>
    if s.executes t && !q.sv && watched x.instr && x.since + 2 ^ 28 ≤ s.tileCycles t.val then .next (s.trapAt t 11 q.pc 0#64) else .next s
  | none => .next s

/-- SUPERVISOR_WATCHDOG (R392): 2^20 consecutive ac cycles at supervisor privilege, sleep for a page apart. -/
def execSupervisorWatchdog (t : Fin 192) (s : State) : Host.Outcome State Fault Refusal :=
  let q := s.seq t
  if s.executes t && q.sv && q.svSince + 2 ^ 20 ≤ s.tileCycles t.val then .next ({ s with cur := t }.killMine stWatchdog 0#8) else .next s

/-- FORCED_BLOCK_BOUNDARY (R404): 65,536 ac cycles after a fetch shootdown reached a sequencer. -/
def execForcedBlockBoundary (t : Fin 192) (s : State) : Host.Outcome State Fault Refusal :=
  if (s.seq t).shoots.any (fun x => x.2 + 65536 ≤ s.tileCycles t.val) then .next (s.modSeq t Seq.boundary) else .next s

end Sys2Proof.Machine
end

