-- ==== Sys2Proof/Machine/Dispatch.lean ====
section
/-! DEFINITION. Sys2Proof/Machine/Dispatch.lean: one arm for each constructor of Instr. -/

namespace Sys2Proof.Machine

/-- What an instruction does. -/
def exec (i : Instr) (s : State) : Host.Outcome State Fault Refusal :=
  match i with
  | .add p d a b w => Sys2Proof.Machine.execAdd p d a b w s
  | .sub p d a b w => Sys2Proof.Machine.execSub p d a b w s
  | .mul p d a b w => Sys2Proof.Machine.execMul p d a b w s
  | .mulh p d a b w => Sys2Proof.Machine.execMulh p d a b w s
  | .div p d a b w => Sys2Proof.Machine.execDiv p d a b w s
  | .rem p d a b w => Sys2Proof.Machine.execRem p d a b w s
  | .min p d a b w => Sys2Proof.Machine.execMin p d a b w s
  | .max p d a b w => Sys2Proof.Machine.execMax p d a b w s
  | .adds p d a b w => Sys2Proof.Machine.execAdds p d a b w s
  | .subs p d a b w => Sys2Proof.Machine.execSubs p d a b w s
  | .and p d a b w => Sys2Proof.Machine.execAnd p d a b w s
  | .or p d a b w => Sys2Proof.Machine.execOr p d a b w s
  | .xor p d a b w => Sys2Proof.Machine.execXor p d a b w s
  | .andn p d a b w => Sys2Proof.Machine.execAndn p d a b w s
  | .shl p d a b w => Sys2Proof.Machine.execShl p d a b w s
  | .shr p d a b w => Sys2Proof.Machine.execShr p d a b w s
  | .clz p d a w => Sys2Proof.Machine.execClz p d a w s
  | .ctz p d a w => Sys2Proof.Machine.execCtz p d a w s
  | .popc p d a w => Sys2Proof.Machine.execPopc p d a w s
  | .cmpEq p d a b w => Sys2Proof.Machine.execCmpEq p d a b w s
  | .cmpNe p d a b w => Sys2Proof.Machine.execCmpNe p d a b w s
  | .cmpLt p d a b w => Sys2Proof.Machine.execCmpLt p d a b w s
  | .cmpGe p d a b w => Sys2Proof.Machine.execCmpGe p d a b w s
  | .pand p d a b => Sys2Proof.Machine.execPand p d a b s
  | .por p d a b => Sys2Proof.Machine.execPor p d a b s
  | .pxor p d a b => Sys2Proof.Machine.execPxor p d a b s
  | .pandn p d a b => Sys2Proof.Machine.execPandn p d a b s
  | .pget p d => Sys2Proof.Machine.execPget p d s
  | .pset p a => Sys2Proof.Machine.execPset p a s
  | .sel p d a b q => Sys2Proof.Machine.execSel p d a b q s
  | .addi p d a imm => Sys2Proof.Machine.execAddi p d a imm s
  | .andi p d a imm => Sys2Proof.Machine.execAndi p d a imm s
  | .ori p d a imm => Sys2Proof.Machine.execOri p d a imm s
  | .xori p d a imm => Sys2Proof.Machine.execXori p d a imm s
  | .shli p d a n => Sys2Proof.Machine.execShli p d a n s
  | .shrli p d a n => Sys2Proof.Machine.execShrli p d a n s
  | .shrai p d a n => Sys2Proof.Machine.execShrai p d a n s
  | .cmpiEq p d a imm => Sys2Proof.Machine.execCmpiEq p d a imm s
  | .cmpiLt p d a imm => Sys2Proof.Machine.execCmpiLt p d a imm s
  | .cmpiLtu p d a imm => Sys2Proof.Machine.execCmpiLtu p d a imm s
  | .lui p d imm => Sys2Proof.Machine.execLui p d imm s
  | .lpc p d imm => Sys2Proof.Machine.execLpc p d imm s
  | .beq p a b o => Sys2Proof.Machine.execBeq p a b o s
  | .bne p a b o => Sys2Proof.Machine.execBne p a b o s
  | .blt p a b o => Sys2Proof.Machine.execBlt p a b o s
  | .bge p a b o => Sys2Proof.Machine.execBge p a b o s
  | .bp p c o => Sys2Proof.Machine.execBp p c o s
  | .bnp p c o => Sys2Proof.Machine.execBnp p c o s
  | .j p o => Sys2Proof.Machine.execJ p o s
  | .call p o => Sys2Proof.Machine.execCall p o s
  | .callr p d a imm => Sys2Proof.Machine.execCallr p d a imm s
  | .ld p d b z g sc o => Sys2Proof.Machine.execLd p d b z g sc o s
  | .st p d b z sc o => Sys2Proof.Machine.execSt p d b z sc o s
  | .ldOrdered p d a o sc z => Sys2Proof.Machine.execLdOrdered p d a o sc z s
  | .stOrdered p a v o sc z => Sys2Proof.Machine.execStOrdered p a v o sc z s
  | .amoAdd p d a v o sc z => Sys2Proof.Machine.execAmoAdd p d a v o sc z s
  | .amoSwap p d a v o sc z => Sys2Proof.Machine.execAmoSwap p d a v o sc z s
  | .amoCas p d a v o sc z => Sys2Proof.Machine.execAmoCas p d a v o sc z s
  | .fence p o sc => Sys2Proof.Machine.execFence p o sc s
  | .cfgLoad p a c => Sys2Proof.Machine.execCfgLoad p a c s
  | .cfgPart p k c => Sys2Proof.Machine.execCfgPart p k c s
  | .cfgArm p k c => Sys2Proof.Machine.execCfgArm p k c s
  | .cfgFire p a b k => Sys2Proof.Machine.execCfgFire p a b k s
  | .cfgWait p k => Sys2Proof.Machine.execCfgWait p k s
  | .cfgExit p a k => Sys2Proof.Machine.execCfgExit p a k s
  | .cfgPick p a k => Sys2Proof.Machine.execCfgPick p a k s
  | .cfgDrain p k => Sys2Proof.Machine.execCfgDrain p k s
  | .cfgSwap p k => Sys2Proof.Machine.execCfgSwap p k s
  | .tokPut p a b t => Sys2Proof.Machine.execTokPut p a b t s
  | .rndEnd p a b => Sys2Proof.Machine.execRndEnd p a b s
  | .rndGraph p b => Sys2Proof.Machine.execRndGraph p b s
  | .rndRedo p a b => Sys2Proof.Machine.execRndRedo p a b s
  | .engCopy p a k => Sys2Proof.Machine.execEngCopy p a k s
  | .engDcmp p a k => Sys2Proof.Machine.execEngDcmp p a k s
  | .engVdec p a k => Sys2Proof.Machine.execEngVdec p a k s
  | .engXfm p a k => Sys2Proof.Machine.execEngXfm p a k s
  | .launch p a b => Sys2Proof.Machine.execLaunch p a b s
  | .waitAddr p a b o sc g c => Sys2Proof.Machine.execWaitAddr p a b o sc g c s
  | .waitAddrN64 p a b o sc g c => Sys2Proof.Machine.execWaitAddrN64 p a b o sc g c s
  | .evAdd p a b sc => Sys2Proof.Machine.execEvAdd p a b sc s
  | .trap p imm => Sys2Proof.Machine.execTrap p imm s
  | .brk p imm => Sys2Proof.Machine.execBrk p imm s
  | .eret p => Sys2Proof.Machine.execEret p s
  | .ifence p => Sys2Proof.Machine.execIfence p s
  | .mfsy p d imm => Sys2Proof.Machine.execMfsy p d imm s
  | .mtsy p a imm => Sys2Proof.Machine.execMtsy p a imm s
  | .almEnd => Sys2Proof.Machine.execAlmEnd s
  | .almAdd d a b => Sys2Proof.Machine.execAlmAdd d a b s
  | .almSub d a b => Sys2Proof.Machine.execAlmSub d a b s
  | .almAnd d a b => Sys2Proof.Machine.execAlmAnd d a b s
  | .almOr d a b => Sys2Proof.Machine.execAlmOr d a b s
  | .almXor d a b => Sys2Proof.Machine.execAlmXor d a b s
  | .almShl d a b => Sys2Proof.Machine.execAlmShl d a b s
  | .almShr d a b => Sys2Proof.Machine.execAlmShr d a b s
  | .almMin d a b => Sys2Proof.Machine.execAlmMin d a b s
  | .almMax d a b => Sys2Proof.Machine.execAlmMax d a b s
  | .almMul d a b => Sys2Proof.Machine.execAlmMul d a b s
  | .almAddi d a x => Sys2Proof.Machine.execAlmAddi d a x s
  | .almLi d x => Sys2Proof.Machine.execAlmLi d x s
  | .almLih d x => Sys2Proof.Machine.execAlmLih d x s
  | .almMov d a => Sys2Proof.Machine.execAlmMov d a s
  | .almSltu d a b => Sys2Proof.Machine.execAlmSltu d a b s
  | .almSlt d a b => Sys2Proof.Machine.execAlmSlt d a b s
  | .almSeq d a b => Sys2Proof.Machine.execAlmSeq d a b s
  | .almCsel d a b => Sys2Proof.Machine.execAlmCsel d a b s
  | .almBz o a => Sys2Proof.Machine.execAlmBz o a s
  | .almBnz o a => Sys2Proof.Machine.execAlmBnz o a s
  | .almJmp o => Sys2Proof.Machine.execAlmJmp o s
  | .almLoopN k => Sys2Proof.Machine.execAlmLoopN k s
  | .almEndl => Sys2Proof.Machine.execAlmEndl s
  | .almRdq d a => Sys2Proof.Machine.execAlmRdq d a s
  | .almRdh d a f => Sys2Proof.Machine.execAlmRdh d a f s
  | .almRdfree d a => Sys2Proof.Machine.execAlmRdfree d a s
  | .almRdquota d f => Sys2Proof.Machine.execAlmRdquota d f s
  | .almRdecl d a => Sys2Proof.Machine.execAlmRdecl d a s
  | .almRdflt d f => Sys2Proof.Machine.execAlmRdflt d f s
  | .almRdp d f => Sys2Proof.Machine.execAlmRdp d f s
  | .almWrp a f => Sys2Proof.Machine.execAlmWrp a f s
  | .almRdinv d f => Sys2Proof.Machine.execAlmRdinv d f s
  | .almPopc d a => Sys2Proof.Machine.execAlmPopc d a s
  | .almFfs d a => Sys2Proof.Machine.execAlmFfs d a s
  | .almRdrun d a f => Sys2Proof.Machine.execAlmRdrun d a f s
  | .uMxa t k => Sys2Proof.Machine.execUMxa t k s
  | .uMxd t k => Sys2Proof.Machine.execUMxd t k s
  | .uSource t k u => Sys2Proof.Machine.execUSource t k u s
  | .regionAdvance t k => Sys2Proof.Machine.execRegionAdvance t k s
  | .contextSwitch t k => Sys2Proof.Machine.execContextSwitch t k s
  | .roundCommit g => Sys2Proof.Machine.execRoundCommit g s
  | .roundOverflow g m => Sys2Proof.Machine.execRoundOverflow g m s
  | .withheldStoreRelease t k u => Sys2Proof.Machine.execWithheldStoreRelease t k u s
  | .amoPerform t => Sys2Proof.Machine.execAmoPerform t s
  | .stallRelease t => Sys2Proof.Machine.execStallRelease t s
  | .waitAddrWake t => Sys2Proof.Machine.execWaitAddrWake t s
  | .waitAddrPoll t => Sys2Proof.Machine.execWaitAddrPoll t s
  | .fabricLoadEnd g => Sys2Proof.Machine.execFabricLoadEnd g s
  | .quiescenceTrip g => Sys2Proof.Machine.execQuiescenceTrip g s
  | .freeze g => Sys2Proof.Machine.execFreeze g s
  | .contextScan g => Sys2Proof.Machine.execContextScan g s
  | .tokenReinjection g n => Sys2Proof.Machine.execTokenReinjection g n s
  | .pageFaultLimit g => Sys2Proof.Machine.execPageFaultLimit g s
  | .retranslationReply t k u => Sys2Proof.Machine.execRetranslationReply t k u s
  | .placementEpoch d => Sys2Proof.Machine.execPlacementEpoch d s
  | .pageMove n => Sys2Proof.Machine.execPageMove n s
  | .qtailWrite p q v => Sys2Proof.Machine.execQtailWrite p q v s
  | .qheadWrite p q v => Sys2Proof.Machine.execQheadWrite p q v s
  | .qstaleClear p q => Sys2Proof.Machine.execQstaleClear p q s
  | .queueEnable p q v => Sys2Proof.Machine.execQueueEnable p q v s
  | .headEligible p q => Sys2Proof.Machine.execHeadEligible p q s
  | .headReread p q => Sys2Proof.Machine.execHeadReread p q s
  | .almanacInvocation p => Sys2Proof.Machine.execAlmanacInvocation p s
  | .quantumExpiry p r => Sys2Proof.Machine.execQuantumExpiry p r s
  | .deadlineTrigger p q => Sys2Proof.Machine.execDeadlineTrigger p q s
  | .invocationOverrun p => Sys2Proof.Machine.execInvocationOverrun p s
  | .almanacSwap p => Sys2Proof.Machine.execAlmanacSwap p s
  | .asyncTrap t => Sys2Proof.Machine.execAsyncTrap t s
  | .watchdog t => Sys2Proof.Machine.execWatchdog t s
  | .supervisorWatchdog t => Sys2Proof.Machine.execSupervisorWatchdog t s
  | .forcedBlockBoundary t => Sys2Proof.Machine.execForcedBlockBoundary t s
  | .shootTranslation p ctx k => Sys2Proof.Machine.execShootTranslation p ctx k s
  | .shootFetch p ctx k => Sys2Proof.Machine.execShootFetch p ctx k s
  | .shootBoth p ctx k => Sys2Proof.Machine.execShootBoth p ctx k s
  | .shootdownComplete p => Sys2Proof.Machine.execShootdownComplete p s
  | .frresolve p v => Sys2Proof.Machine.execFrresolve p v s
  | .ringHeadWrite p r v => Sys2Proof.Machine.execRingHeadWrite p r v s
  | .ringEnable p r v => Sys2Proof.Machine.execRingEnable p r v s
  | .ringRecordRelease p => Sys2Proof.Machine.execRingRecordRelease p s
  | .msixTimer p r => Sys2Proof.Machine.execMsixTimer p r s
  | .pstatusRead p o n => Sys2Proof.Machine.execPstatusRead p o n s
  | .pqerrClear p o n v => Sys2Proof.Machine.execPqerrClear p o n v s
  | .registerWrite o n v => Sys2Proof.Machine.execRegisterWrite o n v s
  | .hostMemoryWrite o n v => Sys2Proof.Machine.execHostMemoryWrite o n v s
  | .hostMemoryRead o n => Sys2Proof.Machine.execHostMemoryRead o n s
  | .cxlMemAccess wr a v => Sys2Proof.Machine.execCxlMemAccess wr a v s
  | .engineJobStart e => Sys2Proof.Machine.execEngineJobStart e s
  | .engineJobComplete e => Sys2Proof.Machine.execEngineJobComplete e s
  | .eclclr tag => Sys2Proof.Machine.execEclclr tag s
  | .almstage tag => Sys2Proof.Machine.execAlmstage tag s
  | .almswap tag => Sys2Proof.Machine.execAlmswap tag s
  | .prelease tag => Sys2Proof.Machine.execPrelease tag s
  | .gkill tag => Sys2Proof.Machine.execGkill tag s
  | .emask tag => Sys2Proof.Machine.execEmask tag s
  | .partset tag => Sys2Proof.Machine.execPartset tag s
  | .savearea tag => Sys2Proof.Machine.execSavearea tag s
  | .strpair tag => Sys2Proof.Machine.execStrpair tag s
  | .capset tag => Sys2Proof.Machine.execCapset tag s
  | .lcstep tag => Sys2Proof.Machine.execLcstep tag s
  | .dbgaccRead tag => Sys2Proof.Machine.execDbgaccRead tag s
  | .dbgaccWrite tag => Sys2Proof.Machine.execDbgaccWrite tag s
  | .dbgaccRelease tag => Sys2Proof.Machine.execDbgaccRelease tag s
  | .getVersion => Sys2Proof.Machine.execGetVersion s
  | .getCapabilities => Sys2Proof.Machine.execGetCapabilities s
  | .negotiateAlgorithms hash asym => Sys2Proof.Machine.execNegotiateAlgorithms hash asym s
  | .getDigests => Sys2Proof.Machine.execGetDigests s
  | .getCertificate slot o n => Sys2Proof.Machine.execGetCertificate slot o n s
  | .challenge slot nonce => Sys2Proof.Machine.execChallenge slot nonce s
  | .getMeasurements op nonce => Sys2Proof.Machine.execGetMeasurements op nonce s
  | .reset => Sys2Proof.Machine.execReset s
  | .tileJoin island pass => Sys2Proof.Machine.execTileJoin island pass s
  | .powerWindow ks => Sys2Proof.Machine.execPowerWindow ks s
  | .linkCrcReplay d l => Sys2Proof.Machine.execLinkCrcReplay d l s
  | .linkRetrain d l lanes => Sys2Proof.Machine.execLinkRetrain d l lanes s
  | .linkDown d l => Sys2Proof.Machine.execLinkDown d l s
  | .flitUndelivered d l t k u => Sys2Proof.Machine.execFlitUndelivered d l t k u s
  | .fifoModeLoad t k u => Sys2Proof.Machine.execFifoModeLoad t k u s
  | .memoryReply t k u => Sys2Proof.Machine.execMemoryReply t k u s
  | .debugPortRegisterAccess t r v => Sys2Proof.Machine.execDebugPortRegisterAccess t r v s
  | .tablePoisonClear a => Sys2Proof.Machine.execTablePoisonClear a s
  | .observedLineWrite a => Sys2Proof.Machine.execObservedLineWrite a s

end Sys2Proof.Machine
end

