-- ==== Sys2Proof/Machine/Turns.lean ====
section
/-! DEFINITION. Sys2Proof/Machine/Turns.lean: what a turn of a sequencer and of an almanac invocation does (R222, R390, R391,
R393, R361), and where the words of the next instruction stand. -/

namespace Sys2Proof.Machine

/-! ### Turns -/

/-- Whether the executing sequencer's pc lies in sequencer code into which the translator put the emulation of the part's erratum
(R447, R477). -/
def State.inEmulated (s : State) : Bool :=
  match s.runOfTile s.cur.val with
  | none => false
  | some r => r.graph.emulated.any (fun x => decide (x.1 ≤ s.me.pc.toNat) && decide (s.me.pc.toNat < x.1 + x.2))

/-- What follows a completed instruction in such code: after mulh.i32 with d not s0 the inserted shli d, d, 32 and shrli d, d, 32, in
the class of the mulh.i32 (R477). They run in the same step and have no addresses of their own (log entry 82). -/
def emulation (before : State) (i : Instr) (o : Host.Outcome State Fault Refusal) : Host.Outcome State Fault Refusal :=
  match i, o with
  | .mulh p d _ _ w, .next s =>
    let next := before.me.pc + 4#64
    if w = 2#2 && d ≠ 0#5 && before.inEmulated && decide (s.me.pc = next) then
      (match execShli p d d 32#6 s with
      | .next s1 => (match execShrli p d d 32#6 s1 with
        | .next s2 => .next (s2.modMe (fun q => { q with pc := next }))
        | other => other)
      | other => other)
    else o
  | _, _ => o

/-- The instruction that a fetched word is, executed with its step trap; a word that is none is an illegal instruction, whose copies are
compared first under the dual and triple classes (R181, R222 row 4). The suppression of R394 ends with the fetch. -/
def runWord (t : Fin 192) (w : Word) (s : State) : Host.Outcome State Fault Refusal :=
  let s1 := s.modMe (fun q => { q with noBrk := false, word := some w })
  match decodeSeq w with
  | .ok i => stepped s1 t (emulation s1 i (exec i s1))
  | .error _ => .next (s1.guarded (w.extractLsb' 30 2) 4 (fun _ s => s.trapMe 1 (w.setWidth 64)))

/-- The executing sequencer's next instruction: rows 1 to 3 of R222, then the word. -/
def fetchAndRun (t : Fin 192) (s : State) : Host.Outcome State Fault Refusal :=
  match s.me.brkHit with
  | some k => .next (s.trapMe 5 (BitVec.ofNat 64 (0x10000 + k.val)))
  | none =>
    match s.fetch with
    | (.trap code tval, s1) => .next ((s1.modMe (fun q => { q with word := none })).trapMe code tval)
    | (.word w, s1) => runWord t w s1

/-- A turn of a sequencer: a held trap is entered first (R390), firmware's routines run as one step (log entry 7), and a
stalled instruction waits for its own event (R249). One that does not execute changes nothing. -/
def seqTurn (t : Fin 192) (s0 : State) : Host.Outcome State Fault Refusal :=
  let s : State := { s0 with cur := t }
  if !s.executes t then .next s0
  else
    match s.enterHeld t with
    | some s1 => .next s1
    | none =>
      if s.me.stall.isSome then .next s0
      else
        match s.me.atVector with
        | some code => .next (s.routine code)
        | none => fetchAndRun t s

/-- A turn of a partition's invocation (R361): the instruction at its word offset, or its overrun. -/
def almTurn (p : Fin 16) (s0 : State) : Host.Outcome State Fault Refusal :=
  let s : State := { s0 with curPart := p }
  match s.invocation with
  | none => .next s0
  | some v =>
    if s.overrunning p then .next (s.overrun p)
    else
      match decodeAlm (s.almCode.drop v.pc) with
      | .ok (i, _) => exec i s
      | .error _ => .next (s.overrun p)

/-- A step without an encoding, as a turn of its own; an instruction that has words runs only where they are fetched. -/
def actTurn (i : Instr) (s : State) : Host.Outcome State Fault Refusal :=
  match encode i with
  | .none => exec i s
  | _ => .next s

/-! ### Where the next instruction stands -/

/-- Where withFetchWord puts a sequencer's word. -/
def fetchAt : Nat := 0x20000

/-- The memory of a page that maps the low 64 GiB onto themselves, readable, writable and executable for the user, with a
word at fetchAt: a root table at 0x10000 and a level-3 table at 0x10800. -/
def State.mapLow (s : State) (w : Word) : State :=
  ((s.physWrite false 0x10000 (leBytes 8 0x108001)).physWrite false 0x10800 (leBytes 8 0xFF)).physWrite false fetchAt (leBytes 4 w.toNat)

/-- The graph of tile 0 freed of a freeze. -/
def State.thaw (s : State) : State :=
  { s with runs := s.runs.map (fun r => if r.tiles.any (fun x => x.2 == 0) then { r with freeze := none, frozen := false } else r) }

/-- A sequencer that executes the word at fetchAt next, in user mode, in context 1. -/
def Seq.atFetch (q : Seq) : Seq :=
  { q with
    pc := BitVec.ofNat 64 fetchAt, ctx := 1#16, status := 0#64, mode := .running, stall := none, sleeping := none, held := [], il1 := []
    brk := Vector.replicate 8 0#64 }

/-- A sequencer word where the next step fetches it: on tile 0. -/
def State.placeSeqWord (s : State) (w : Word) : State :=
  let s1 := { s.thaw with ecc := [], poisoned := [], tlb := [], agenda := [.seq 0] }
  let p := s1.partOfTile 0
  ((s1.mapLow w).modPart p (fun x => { x with roots := (1#16, 0x10000) :: x.roots.filter (fun y => decide (y.1 ≠ 1#16)) })).modSeq 0 Seq.atFetch

/-- What an almanac invocation finds before anything has been queued. -/
def Snapshot.blank : Snapshot where
  depths := []
  heads := []
  free := 0#192
  quota := []
  eclCore := 0#192
  eclSeq := 0#192
  runs := []
  now := 0
  overruns := 0
  generation := 0#32
  invocations := 0#32

/-- Almanac words where the next step runs them: an invocation of partition 0 at word 0 of an almanac that they are. -/
def State.placeAlmWords (s : State) (ws : List Half) : State :=
  { s.modPart 0 (fun x => { x with
      almanac := some ⟨0, 0, 0, ws⟩
      inv := some ⟨⟨.dispatch, 1, 0#32, none⟩, Snapshot.blank, Vector.replicate 8 0#32, 0, [], [], 0⟩ }) with
    agenda := [.alm 0] }

/-- The words of an instruction of nbits bits where the next step runs them (log entry 1). -/
def State.placeWords (s : State) (nbits w : Nat) : State :=
  if nbits ≤ 16 then s.placeAlmWords (tableHalves nbits w)
  else
    match decodeSeq (BitVec.ofNat 32 w), decodeAlm (tableHalves nbits w) with
    | .error _, .ok (_, 2) => s.placeAlmWords (tableHalves nbits w)
    | _, _ => s.placeSeqWord (BitVec.ofNat 32 w)

end Sys2Proof.Machine
end

