-- ==== Sys2Proof/Machine/Step.lean ====
section
/-! DEFINITION. Sys2Proof/Machine/Step.lean: one step: the turn at the head of the agenda (log entry 1). -/

namespace Sys2Proof.Machine

/-- One step: the first turn of the agenda; with nothing on it, a nanosecond of device time passes. -/
def step (s : State) : Host.Outcome State Fault Refusal :=
  match s.agenda with
  | [] => .next { s with ns := s.ns + 1 }
  | .seq t :: rest => seqTurn t { s with agenda := rest }
  | .alm p :: rest => almTurn p { s with agenda := rest }
  | .act i :: rest => actTurn i { s with agenda := rest }
  | .wait n :: rest => .next { s with agenda := rest, ns := s.ns + n }
  | .world w :: rest => .next (State.world { s with agenda := rest } w)
  | .read o n :: rest => .next (State.readWindow { s with agenda := rest } o n)
  | .finish :: rest => State.finishCommand { s with agenda := rest }

/-- The state with an instruction of nbits bits stored where the next step fetches it. -/
def State.withFetchWord (s : State) (nbits w : Nat) : State := s.placeWords nbits w

end Sys2Proof.Machine
end

