-- ==== Sys2Proof/Safety.lean ====
section
/-! DEFINITION. Sys2Proof/Safety.lean: what counts as a safe step, the invariants that claims use, and the words in which claims
say what an instruction changes and, by that, that it changes nothing else. -/

namespace Sys2Proof.Machine

/-! ### Steps and invariants -/

/-- A step goes on: it ends in neither a fault nor a refusal. -/
def SafeStep (s : State) : Prop := ∃ s', step s = .next s'

/-- Physical memory has its canonical form, and the life cycle has come at least to a state (R468: it moves forward only). -/
def State.Sound (l : Nat) (s : State) : Prop := s.mem.wf = true ∧ l ≤ s.lifecycle.toNat

/-! ### What an instruction changes -/

/-- No ALU of the executing sequencer is disturbed (log entry 6). -/
def Undisturbed (s : State) : Prop :=
  s.me.aluErr = Vector.replicate 3 0#64 ∧ s.me.lateErr = Vector.replicate 3 0#64

/-- The state with a value in register d of the executing sequencer, which goes on at the next word; register 0 discards
what is written to it. Nothing else differs. -/
def State.wrote (s : State) (d : BitVec 5) (v : DWord) : State :=
  s.modMe (fun q => { q with regs := if d = 0#5 then q.regs else q.regs.set d.toNat v d.isLt, pc := q.pc + 4#64 })

/-- The state with predicate d of the executing sequencer set, which goes on at the next word; predicate 0 discards what is
written to it. Nothing else differs. -/
def State.wrotePred (s : State) (d : BitVec 3) (v : Bool) : State :=
  s.modMe (fun q => { q with preds := if d = 0#3 then q.preds else q.preds.set d.toNat v d.isLt, pc := q.pc + 4#64 })

/-- The state with the executing sequencer at an address. Nothing else differs. -/
def State.jumped (s : State) (pc : DWord) : State := s.modMe (fun q => { q with pc := pc })

/-- The state with the executing sequencer at the next word, its stall ended. Nothing else differs. -/
def State.passed (s : State) : State := s.modMe (fun q => { q with pc := q.pc + 4#64, stall := none })

/-- W of a width code, in bits (R183). -/
def width (w : BitVec 2) : Nat := if w.toNat < 2 then 64 else 32

/-- A register value as a width code leaves it: .i32 sign-extended, .n32 zero-extended, 64 bits whole (R225). -/
def Extended (w : BitVec 2) (v : DWord) : Prop :=
  (w = 2#2 → v = (v.setWidth 32).signExtend 64) ∧ (w = 3#2 → v = (v.setWidth 32).setWidth 64)

/-- The integer that a width code reads from a register: its low W bits, signed for codes 0 and 2 (R183, R225). -/
def valueAt (w : BitVec 2) (v : DWord) : Int :=
  match w.toNat with
  | 0 => v.toInt
  | 1 => v.toNat
  | 2 => (v.setWidth 32).toInt
  | _ => (v.setWidth 32).toNat

/-- The least and the greatest integer of a width code (R225). -/
def leastAt (w : BitVec 2) : Int := if w.toNat % 2 = 1 then 0 else -(2 ^ (width w - 1) : Nat)
/-- The greatest. -/
def greatestAt (w : BitVec 2) : Int := if w.toNat % 2 = 1 then (2 ^ width w : Nat) - 1 else (2 ^ (width w - 1) : Nat) - 1

/-- An instruction completes with the low W bits of an integer in register d, extended as its width code says, and changes
nothing else but the pc (R225). -/
def Gives (i : Instr) (s : State) (d : BitVec 5) (w : BitVec 2) (r : Int) : Prop :=
  ∃ v, exec i s = .next (s.wrote d v) ∧ Extended w v ∧ ((2 ^ width w : Nat) : Int) ∣ valueAt w v - r

/-- The same with each of the low W bits given. -/
def GivesBits (i : Instr) (s : State) (d : BitVec 5) (w : BitVec 2) (bit : Nat → Bool) : Prop :=
  ∃ v, exec i s = .next (s.wrote d v) ∧ Extended w v ∧ ∀ k, k < width w → v.getLsbD k = bit k

/-- pc + 4 × offset, modulo 2^64 (R180, R232). -/
def targetOf (pc : DWord) (o : Int) : DWord := BitVec.ofInt 64 ((pc.toNat : Int) + 4 * o)

/-- The executing sequencer has entered a trap of a code from its instruction (R390): saved pc, cause, value and privilege,
supervisor privilege, the handler's address. Registers, predicates, the other system registers and the RAM are as before, its
instruction L1 holds no word that it did not hold, and nothing outside this sequencer has changed. -/
def Entered (s t : State) (code : Nat) (tval : DWord) : Prop :=
  t = s.modMe (fun _ => t.me)
  ∧ t.me.epc = s.me.pc ∧ t.me.cause = BitVec.ofNat 64 code ∧ t.me.tval = tval
  ∧ t.me.psv = s.me.sv ∧ t.me.sv = true ∧ t.me.step = s.me.step ∧ (∀ k, 3 ≤ k → t.me.status.getLsbD k = false)
  ∧ t.me.pc = s.me.vbase + BitVec.ofNat 64 (16 * code)
  ∧ t.me.regs = s.me.regs ∧ t.me.preds = s.me.preds ∧ t.me.vbase = s.me.vbase ∧ t.me.scratch = s.me.scratch
  ∧ t.me.ctx = s.me.ctx ∧ t.me.brk = s.me.brk ∧ t.me.ram = s.me.ram ∧ t.me.mode = s.me.mode ∧ t.me.held = s.me.held
  ∧ t.me.il1.Sublist s.me.il1

/-- An instruction takes a trap from the executing sequencer, with no other effect. -/
def Traps (i : Instr) (s : State) (code : Nat) (tval : DWord) : Prop := ∃ t, exec i s = .next t ∧ Entered s t code tval

/-- Byte k of a 64-bit value, the least significant first. -/
def byteAt (v : DWord) (k : Nat) : Byte := v.extractLsb' (8 * k) 8

/-- A 64-bit value holds n bytes, byte k being f k, zero-extended above them (R239). -/
def HoldsZext (v : DWord) (n : Nat) (f : Nat → Byte) : Prop := (∀ k, k < n → byteAt v k = f k) ∧ v.toNat < 2 ^ (8 * n)

/-- The same, sign-extended. -/
def HoldsSext (v : DWord) (n : Nat) (f : Nat → Byte) : Prop :=
  (∀ k, k < n → byteAt v k = f k) ∧ -(2 ^ (8 * n - 1) : Nat) ≤ v.toInt ∧ v.toInt < (2 ^ (8 * n - 1) : Nat)

/-- What a load's sign field asks for (R239). -/
def Holds (g : BitVec 1) (v : DWord) (n : Nat) (f : Nat → Byte) : Prop := if g = 1#1 then HoldsSext v n f else HoldsZext v n f

/-- The address of an ME operand: rd(base) + offset × size, modulo 2^64 (R236). -/
def addressOf (base : DWord) (o : BitVec 9) (n : Nat) : DWord := BitVec.ofInt 64 ((base.toNat : Int) + o.toInt * n)

/-- sy.tval of a configuration load error: 0^32 ++ reason ++ x ++ code (R203, R248). -/
def cfgTval (reason x code : Nat) : DWord := BitVec.ofNat 64 (reason * 2 ^ 24 + x * 2 ^ 16 + code)

/-- Every HBM block of 256 bytes is decodable (R411), and the tags are listed in rising order. -/
def State.Decodable (s : State) : Prop := (∀ b, (s.block b).isSome = true) ∧ s.tags.Pairwise (fun x y => x.1 < y.1)

/-- The state with its executing almanac invocation replaced. -/
def State.withInv (s : State) (v : Invocation) : State := s.modPart s.curPart (fun p => { p with inv := some v })

/-- An invocation that has written a register and gone on by n code words, in one cycle (R361, R365). -/
def Invocation.wrote (v : Invocation) (d : BitVec 3) (n : Nat) (r : Word) : Invocation :=
  { v with regs := v.regs.set d.toNat r d.isLt, pc := v.pc + n, cycles := v.cycles + 1 }

/-- A view read completes: the register written, one word on, after a cycle and as many more as its arbitration takes (R361). -/
def Views (i : Instr) (s : State) (v : Invocation) (d : BitVec 3) (r : Word) : Prop :=
  ∃ n, exec i s = .next (({ s with free := s.free + 1 } : State).withInv
    { v with regs := v.regs.set d.toNat r d.isLt, pc := v.pc + 1, cycles := v.cycles + 1 + n })

/-- The instructions that stall for room, for a strand, for engines, for a pending launch or for a page that moves, and execute again
when the stall ends (R249, R138). -/
def releasable : Instr → Bool
  | .cfgLoad _ _ _ => true
  | .cfgWait _ _ => true
  | .cfgExit _ _ _ => true
  | .cfgPick _ _ _ => true
  | .cfgDrain _ _ => true
  | .tokPut _ _ _ _ => true
  | .rndEnd _ _ _ => true
  | .rndGraph _ _ => true
  | .engCopy _ _ _ => true
  | .engDcmp _ _ _ => true
  | .engVdec _ _ _ => true
  | .engXfm _ _ _ => true
  | .launch _ _ _ => true
  | .st _ _ _ _ _ _ => true
  | .stOrdered _ _ _ _ _ _ => true
  | .amoAdd _ _ _ _ _ _ _ => true
  | .amoSwap _ _ _ _ _ _ _ => true
  | .amoCas _ _ _ _ _ _ _ => true
  | .evAdd _ _ _ _ => true
  | _ => false

/-- The instructions that wait for their round (R164). -/
def awaitsRound : Instr → Bool
  | .amoAdd _ _ _ _ _ _ _ => true
  | .amoSwap _ _ _ _ _ _ _ => true
  | .amoCas _ _ _ _ _ _ _ => true
  | .evAdd _ _ _ _ => true
  | _ => false

/-- The waits of R269. -/
def awaitsLine : Instr → Bool
  | .waitAddr _ _ _ _ _ _ _ => true
  | .waitAddrN64 _ _ _ _ _ _ _ => true
  | _ => false

/-- A step executes an instruction again from its start on a sequencer, with its step trap (R249, R393). -/
def ExecutesAgain (i j : Instr) (s : State) (t : Fin 192) : Prop :=
  ∃ u, exec j { s with cur := t } = .next u ∧ exec i s = .next (s.singleStep u t)

/-- A management command ends with a status, a detail and data in MSTAT and MRES, and otherwise leaves the state u (R473). -/
def Ends (i : Instr) (s : State) (tag : Half) (status detail : Nat) (data : DWord) (u : State) : Prop :=
  exec i s = .next { u with mstat := BitVec.ofNat 64 (tag.toNat + 2 ^ 16 * status + 2 ^ 32 * detail), mres := data }

end Sys2Proof.Machine
end

