-- ==== Sys2Proof/Certificates/Slice0/Obligations.lean ====
section
/-! DEFINITION. Sys2Proof/Certificates/Slice0/Obligations.lean: the statements for the provers. -/

open Sys2Proof Sys2Proof.Machine

/-! ### Encodings and steps -/

/-- R178 to R186: the decoder gives back every well-formed sequencer instruction from its word, with every operand, and every word that it
accepts is the word of the instruction that it gives, which is well-formed; so no two instructions share a word. -/
def Obligations.SequencerWordsRoundTrip : Prop :=
  (∀ (i : Instr) (w : Word), i.wf = true → encodeSeq i = some w → decodeSeq w = .ok i)
  ∧ ∀ (i : Instr) (w : Word), decodeSeq w = .ok i → encodeSeq i = some w ∧ i.wf = true

/-- R201, R202, R366: the same of the almanac, whose instructions take one or two code words; what stands after them does not matter. -/
def Obligations.AlmanacWordsRoundTrip : Prop :=
  (∀ (i : Instr) (ws rest : List Half), i.wf = true → encodeAlm i = some ws → decodeAlm (ws ++ rest) = .ok (i, ws.length))
  ∧ ∀ (i : Instr) (ws : List Half) (n : Nat), decodeAlm ws = .ok (i, n) →
      encodeAlm i = some (ws.take n) ∧ n ≤ ws.length ∧ i.wf = true

/-- R178 to R186, R201, R202: words of the encoding tables of the spec, written out bit by bit, decode to what they stand for. -/
def Obligations.WordsOfTheSpecDecode : Prop :=
  decodeSeq 0b00_000000_00011_00001_00010_10_0000000#32 = .ok (.add 0#2 3#5 1#5 2#5 2#2)
  ∧ decodeSeq 0b01_000001_00101_00001_00010_01_0000010#32 = .ok (.cmpLt 1#2 5#3 1#5 2#5 1#2)
  ∧ decodeSeq 0b00_000010_00111_00001_00010_000000_110#32 = .ok (.sel 0#2 7#5 1#5 2#5 6#3)
  ∧ decodeSeq 0b00_000100_00011_00001_11111111111111#32 = .ok (.addi 0#2 3#5 1#5 (-1#14))
  ∧ decodeSeq 0b00_001110_00100_1000000000000000001#32 = .ok (.lui 0#2 4#5 0x40001#19)
  ∧ decodeSeq 0b10_010100_011_1_00000000000000000101#32 = .ok (.bp 2#2 3#3 5#20)
  ∧ decodeSeq 0b00_011000_00010_00001_11_0_01_000000100#32 = .ok (.ld 0#2 2#5 1#5 3#2 0#1 1#2 4#9)
  ∧ decodeSeq 0b00_011100_00010_00001_00011_11_10_10_000#32 = .ok (.amoAdd 0#2 2#5 1#5 3#5 3#2 2#2 2#2)
  ∧ decodeSeq 0b00_100000_00001_00010_000011_0_101_0000#32 = .ok (.cfgFire 0#2 1#5 2#5 5#3)
  ∧ decodeSeq 0b00_101010_00001_00010_000000_01_00_01_10#32 = .ok (.waitAddr 0#2 1#5 2#5 1#2 0#2 1#2 2#2)
  ∧ decodeSeq 0b00_110000_0000000000000000_00000010#32 = .ok (.eret 0#2)
  ∧ decodeSeq 0b00_110001_00011_00000_00000000001000#32 = .ok (.mfsy 0#2 3#5 8#14)
  ∧ decodeSeq 0b11_000000_00011_00001_00010_10_0000000#32 = .error .reservedClass
  ∧ decodeSeq 0b00_000011_00000_00000_00000000000000#32 = .error .reservedMajor
  ∧ decodeAlm [0b000001_011_001_0010#16] = .ok (.almAdd 3#3 1#3 2#3, 1)
  ∧ decodeAlm [0b001011_011_001_0000#16, 0x8001#16] = .ok (.almAddi 3#3 1#3 0x8001#16, 2)
  ∧ decodeAlm [0b011000_101_001_0011#16] = .ok (.almBz 0b101_0011#7 1#3, 1)

/-- R181, R222, R240, R361, R477: a step at a user-mode sequencer whose turn it is, that runs with nothing held, stalled or matched by a
breakpoint register, reads the four bytes at its pc as its next instruction and does what that instruction does, with its step trap; a word
that is no instruction takes the illegal-instruction trap (code 1) with the word in sy.tval, no ALU being disturbed. In code that holds the
emulation of the part's erratum, mulh.i32 leaves its result zero-extended; that it and the two shifts inserted behind it run in one step with
one advance of the pc is the choice of the model (log entry 82). A step of an almanac invocation does what the instruction at
its word offset does, and a step of the other agents what they do (the agenda is the reading of the model, log entry 1). -/
def Obligations.AStepRunsTheDecodedInstruction : Prop :=
  (∀ (s : State) (t : Fin 192) (rest : List Turn), s.agenda = .seq t :: rest →
    let here : State := { s with agenda := rest, cur := t }
    here.executes t = true → here.me.sv = false → here.me.held = [] → here.me.stall = none → here.me.brkHit = none →
    here.me.pc.toNat < 2 ^ 52 → here.me.il1Word (here.partOfTile t.val).val = none →
    ∀ bs after, here.virtRead here.meAgent here.me.pc.toNat 4 .exec = (.ok bs, after) →
      let w : Word := BitVec.ofNat 32 (leNat bs)
      let u := (after.fillL1 w).modMe (fun q => { q with noBrk := false, word := some w })
      (∀ i, decodeSeq w = .ok i → i.wf = true ∧ (u.inEmulated = false ∨ (∀ p d a b, d ≠ 0#5 → i ≠ .mulh p d a b 2#2) → step s = (match exec i u with
        | .next v => .next (u.singleStep v t)
        | .fault f => .fault f
        | .refused f => .refused f)))
      ∧ (∀ p d a b v, decodeSeq w = .ok (.mulh p d a b 2#2) → u.inEmulated = true → d ≠ 0#5 → Undisturbed u →
          exec (.mulh p d a b 2#2) u = .next v → ∃ x, step s = .next (u.singleStep x t)
            ∧ x.me.rd d = ((v.me.rd d).setWidth 32).setWidth 64 ∧ x.me.pc = u.me.pc + 4#64)
      ∧ (∀ e, decodeSeq w = .error e → Undisturbed u → ∃ v, step s = .next v ∧ Entered u v 1 (w.setWidth 64)))
  ∧ (∀ (s : State) (p : Fin 16) (rest : List Turn) (v : Invocation), s.agenda = .alm p :: rest → (s.part p).inv = some v → v.cycles < 4096 →
      let here : State := { s with agenda := rest, curPart := p }
      (∀ i n, decodeAlm (here.almCode.drop v.pc) = .ok (i, n) → i.wf = true ∧ step s = exec i here))
  ∧ (∀ (s : State) (i : Instr) (rest : List Turn), s.agenda = .act i :: rest → encode i = .none → step s = exec i { s with agenda := rest })
  ∧ ∀ s : State, s.agenda = [] → step s = .next { s with ns := s.ns + 1 }

/-- R468, and the canonical form of memory: from every state, reachable or not, with memory in canonical form and a life cycle of at least l, a
step that goes on leaves memory in canonical form and a life cycle of at least l. -/
def Obligations.StepKeepsMemoryAndLifeCycleSound : Prop :=
  ∀ (l : Nat) (s s' : State), s.Sound l → step s = .next s' → s'.Sound l

/-- The state after reset is sound in that sense, at the life cycle that it has; that this is 0 is the choice of the model (log entry 4). -/
def Obligations.ResetIsSound : Prop := State.reset.Sound State.reset.lifecycle.toNat ∧ State.reset.lifecycle = 0#2

/-! ### The sequencer: integer operations -/

/-- R225, R220, R187: every integer operation of major 0x00 completes from every state whose ALUs are undisturbed, leaves its result
in d, s0 excepted, and changes nothing else but the pc; the counts are of leading and trailing zeros and of ones in the low W bits. -/
def Obligations.IntegerOperationsGiveTheirResult : Prop :=
  (∀ (s : State) (p w : BitVec 2) (d a b : BitVec 5), Undisturbed s → p ≠ 3#2 →
      let x := valueAt w (s.me.rd a)
      let y := valueAt w (s.me.rd b)
      let lo := leastAt w
      let hi := greatestAt w
      let n := (s.me.rd b).toNat % width w
      Gives (.add p d a b w) s d w (x + y)
      ∧ Gives (.sub p d a b w) s d w (x - y)
      ∧ Gives (.mul p d a b w) s d w (x * y)
      ∧ Gives (.mulh p d a b w) s d w (x * y / (2 ^ width w : Nat))
      ∧ Gives (.div p d a b w) s d w (if y = 0 then -1 else if lo < 0 ∧ x = lo ∧ y = -1 then lo else x.tdiv y)
      ∧ Gives (.rem p d a b w) s d w (if y = 0 then x else if lo < 0 ∧ x = lo ∧ y = -1 then 0 else x - y * x.tdiv y)
      ∧ Gives (.min p d a b w) s d w (if x ≤ y then x else y)
      ∧ Gives (.max p d a b w) s d w (if x ≥ y then x else y)
      ∧ Gives (.adds p d a b w) s d w (if x + y < lo then lo else if x + y > hi then hi else x + y)
      ∧ Gives (.subs p d a b w) s d w (if x - y < lo then lo else if x - y > hi then hi else x - y)
      ∧ Gives (.shl p d a b w) s d w (x * (2 ^ n : Nat))
      ∧ Gives (.shr p d a b w) s d w (x / (2 ^ n : Nat))
      ∧ GivesBits (.and p d a b w) s d w (fun k => (s.me.rd a).getLsbD k && (s.me.rd b).getLsbD k)
      ∧ GivesBits (.or p d a b w) s d w (fun k => (s.me.rd a).getLsbD k || (s.me.rd b).getLsbD k)
      ∧ GivesBits (.xor p d a b w) s d w (fun k => (s.me.rd a).getLsbD k != (s.me.rd b).getLsbD k)
      ∧ GivesBits (.andn p d a b w) s d w (fun k => (s.me.rd a).getLsbD k && !(s.me.rd b).getLsbD k))
  ∧ (∀ (s : State) (p w : BitVec 2) (d a : BitVec 5), Undisturbed s → p ≠ 3#2 →
      let W := width w
      let low := (s.me.rd a).toNat % 2 ^ W
      (∃ c, Gives (.clz p d a w) s d w (c : Nat) ∧ c ≤ W ∧ low < 2 ^ (W - c) ∧ (low ≠ 0 → 2 ^ (W - c) ≤ 2 * low) ∧ (low = 0 → c = W))
      ∧ (∃ c, Gives (.ctz p d a w) s d w (c : Nat) ∧ c ≤ W ∧ (∀ k, k < c → (s.me.rd a).getLsbD k = false) ∧
          (c < W → (s.me.rd a).getLsbD c = true))
      ∧ Gives (.popc p d a w) s d w (((List.range W).filter (fun k => (s.me.rd a).getLsbD k)).length : Nat))
  ∧ decodeSeq 0x0019_0B04#32 = .ok (.div 0#2 3#5 4#5 5#5 2#2)

/-- R226 to R229: the compares write one predicate and nothing else but the pc; predicate logic; the eight predicates read and set as a
byte, p0 true whatever pset reads; sel writes one of two registers, chosen by a predicate, with p0 always the first. -/
def Obligations.PredicatesAndSelectGiveTheirResult : Prop :=
  (∀ (s : State) (p w : BitVec 2) (d : BitVec 3) (a b : BitVec 5) (i : BitVec 14), Undisturbed s → p ≠ 3#2 →
      let x := valueAt w (s.me.rd a)
      let y := valueAt w (s.me.rd b)
      exec (.cmpEq p d a b w) s = .next (s.wrotePred d (decide (x = y)))
      ∧ exec (.cmpNe p d a b w) s = .next (s.wrotePred d (decide (x ≠ y)))
      ∧ exec (.cmpLt p d a b w) s = .next (s.wrotePred d (decide (x < y)))
      ∧ exec (.cmpGe p d a b w) s = .next (s.wrotePred d (decide (x ≥ y)))
      ∧ exec (.cmpiEq p d a i) s = .next (s.wrotePred d (decide (((s.me.rd a).toNat : Int) = i.toInt % 2 ^ 64)))
      ∧ exec (.cmpiLt p d a i) s = .next (s.wrotePred d (decide ((s.me.rd a).toInt < i.toInt)))
      ∧ exec (.cmpiLtu p d a i) s = .next (s.wrotePred d (decide (((s.me.rd a).toNat : Int) < i.toInt % 2 ^ 64))))
  ∧ (∀ (s : State) (p : BitVec 2) (d q r : BitVec 3) (x : BitVec 5), Undisturbed s → p ≠ 3#2 →
      exec (.pand p d q r) s = .next (s.wrotePred d (s.me.pred q && s.me.pred r))
      ∧ exec (.por p d q r) s = .next (s.wrotePred d (s.me.pred q || s.me.pred r))
      ∧ exec (.pxor p d q r) s = .next (s.wrotePred d (s.me.pred q != s.me.pred r))
      ∧ exec (.pandn p d q r) s = .next (s.wrotePred d (s.me.pred q && !s.me.pred r))
      ∧ (∃ v, exec (.pget p x) s = .next (s.wrote x v) ∧ v.toNat < 256 ∧ v.getLsbD 0 = true ∧
          ∀ k, k < 8 → v.getLsbD k = s.me.pred (BitVec.ofNat 3 k))
      ∧ (∃ t, exec (.pset p x) s = .next t ∧ t = s.modMe (fun m => { m with preds := t.me.preds, pc := m.pc + 4#64 }) ∧
          t.me.pred 0#3 = true ∧ ∀ k, 1 ≤ k → k < 8 → t.me.pred (BitVec.ofNat 3 k) = (s.me.rd x).getLsbD k))
  ∧ (∀ (s : State) (p : BitVec 2) (d a b : BitVec 5) (q : BitVec 3), Undisturbed s → p ≠ 3#2 →
      (s.me.pred q = true → exec (.sel p d a b q) s = .next (s.wrote d (s.me.rd a)))
      ∧ (s.me.pred q = false → exec (.sel p d a b q) s = .next (s.wrote d (s.me.rd b)))
      ∧ exec (.sel p d a b 0#3) s = .next (s.wrote d (s.me.rd a)))

/-- R230, R231: the immediate forms act on 64 bits; the immediate of addi is signed, those of andi, ori and xori are not; lui and lpc take
the sign-extended imm19 with 13 zeros below it, and pc is the address of the instruction itself. -/
def Obligations.ImmediateFormsGiveTheirResult : Prop :=
  (∀ (s : State) (p : BitVec 2) (d a : BitVec 5) (i : BitVec 14) (n : BitVec 6), Undisturbed s → p ≠ 3#2 →
      let x := s.me.rd a
      (∃ v, exec (.addi p d a i) s = .next (s.wrote d v) ∧ (v.toNat : Int) = ((x.toNat : Int) + i.toInt) % 2 ^ 64)
      ∧ (∃ v, exec (.andi p d a i) s = .next (s.wrote d v) ∧ ∀ k, k < 64 → v.getLsbD k = (x.getLsbD k && i.getLsbD k))
      ∧ (∃ v, exec (.ori p d a i) s = .next (s.wrote d v) ∧ ∀ k, k < 64 → v.getLsbD k = (x.getLsbD k || i.getLsbD k))
      ∧ (∃ v, exec (.xori p d a i) s = .next (s.wrote d v) ∧ ∀ k, k < 64 → v.getLsbD k = (x.getLsbD k != i.getLsbD k))
      ∧ (∃ v, exec (.shli p d a n) s = .next (s.wrote d v) ∧ v.toNat = x.toNat * 2 ^ n.toNat % 2 ^ 64)
      ∧ (∃ v, exec (.shrli p d a n) s = .next (s.wrote d v) ∧ v.toNat = x.toNat / 2 ^ n.toNat)
      ∧ (∃ v, exec (.shrai p d a n) s = .next (s.wrote d v) ∧ v.toInt = x.toInt / 2 ^ n.toNat))
  ∧ (∀ (s : State) (p : BitVec 2) (d : BitVec 5) (i : BitVec 19), Undisturbed s → p ≠ 3#2 →
      (∃ v, exec (.lui p d i) s = .next (s.wrote d v) ∧ v.toInt = 8192 * i.toInt)
      ∧ (∃ v, exec (.lpc p d i) s = .next (s.wrote d v) ∧ (v.toNat : Int) = ((s.me.pc.toNat : Int) + 8192 * i.toInt) % 2 ^ 64))

/-- R232, R233, R234: a branch goes to pc + 4 × offset when its condition holds and to pc + 4 otherwise, j always goes there;
blt and bge compare signed. Nothing but the pc changes. -/
def Obligations.BranchesGoWhereTheirConditionSays : Prop :=
  ∀ (s : State) (p : BitVec 2) (a b : BitVec 5) (c : BitVec 3) (o : BitVec 14) (o20 : BitVec 20) (o24 : BitVec 24),
    Undisturbed s → p ≠ 3#2 →
    let pc := s.me.pc
    let go (taken : Bool) (o : Int) := s.jumped (if taken then targetOf pc o else pc + 4#64)
    exec (.beq p a b o) s = .next (go (decide (s.me.rd a = s.me.rd b)) o.toInt)
    ∧ exec (.bne p a b o) s = .next (go (decide (s.me.rd a ≠ s.me.rd b)) o.toInt)
    ∧ exec (.blt p a b o) s = .next (go (decide ((s.me.rd a).toInt < (s.me.rd b).toInt)) o.toInt)
    ∧ exec (.bge p a b o) s = .next (go (decide ((s.me.rd b).toInt ≤ (s.me.rd a).toInt)) o.toInt)
    ∧ exec (.bp p c o20) s = .next (go (s.me.pred c) o20.toInt)
    ∧ exec (.bnp p c o20) s = .next (go (!s.me.pred c) o20.toInt)
    ∧ exec (.j p o24) s = .next (go true o24.toInt)
    ∧ (decodeSeq (p ++ 0x10#6 ++ a ++ b ++ o) = .ok (.beq p a b o) ∧ decodeSeq (p ++ 0x11#6 ++ a ++ b ++ o) = .ok (.bne p a b o)
      ∧ decodeSeq (p ++ 0x12#6 ++ a ++ b ++ o) = .ok (.blt p a b o) ∧ decodeSeq (p ++ 0x13#6 ++ a ++ b ++ o) = .ok (.bge p a b o)
      ∧ decodeSeq (p ++ 0x14#6 ++ c ++ 1#1 ++ o20) = .ok (.bp p c o20) ∧ decodeSeq (p ++ 0x14#6 ++ c ++ 0#1 ++ o20) = .ok (.bnp p c o20))

/-- R234: j jumps; call links in s31 and jumps; callr computes its target before it links, and a target that is no multiple of 4 takes
the misaligned-access trap (code 2) with the target in sy.tval, pc and d unchanged until the entry; ret is callr s0, s31, 0. -/
def Obligations.CallsLinkAndJump : Prop :=
  ∀ (s : State) (p : BitVec 2) (d a : BitVec 5) (i : BitVec 14) (o : BitVec 24), Undisturbed s → p ≠ 3#2 →
    let t : DWord := BitVec.ofInt 64 ((s.me.rd a).toNat + i.toInt)
    exec (.j p o) s = .next (s.jumped (targetOf s.me.pc o.toInt))
    ∧ exec (.call p o) s = .next ((s.wrote 31#5 (s.me.pc + 4#64)).jumped (targetOf s.me.pc o.toInt))
    ∧ (t.toNat % 4 = 0 → exec (.callr p d a i) s = .next ((s.wrote d (s.me.pc + 4#64)).jumped t))
    ∧ (t.toNat % 4 ≠ 0 → Traps (.callr p d a i) s 2 t)
    ∧ (decodeSeq (p ++ 0x15#6 ++ o) = .ok (.j p o) ∧ decodeSeq (p ++ 0x16#6 ++ o) = .ok (.call p o)
      ∧ decodeSeq (p ++ 0x17#6 ++ d ++ a ++ i) = .ok (.callr p d a i))

/-! ### The sequencer: traps and system registers -/

/-- R271, R390, R272: trap and brk enter their handlers (codes 6 and 5) with the immediate in sy.tval; eret restores the privilege and the pc that
the trap saved, and changes neither the registers nor the step bit; at user privilege it is an illegal instruction (code 1). -/
def Obligations.TrapsEnterAndReturn : Prop :=
  (∀ (s : State) (p : BitVec 2) (i : BitVec 16), Undisturbed s → p ≠ 3#2 →
      Traps (.trap p i) s 6 (BitVec.ofNat 64 i.toNat) ∧ Traps (.brk p i) s 5 (BitVec.ofNat 64 i.toNat))
  ∧ (∀ (s : State) (p : BitVec 2), Undisturbed s → p ≠ 3#2 →
      (s.me.sv = true → ∃ t, exec (.eret p) s = .next t ∧ t = s.modMe (fun _ => t.me) ∧ t.me.pc = s.me.epc
        ∧ t.me.sv = s.me.psv ∧ t.me.psv = s.me.psv ∧ t.me.step = s.me.step
        ∧ t.me.regs = s.me.regs ∧ t.me.preds = s.me.preds ∧ t.me.epc = s.me.epc ∧ t.me.cause = s.me.cause ∧ t.me.tval = s.me.tval
        ∧ t.me.vbase = s.me.vbase ∧ t.me.scratch = s.me.scratch ∧ t.me.ctx = s.me.ctx ∧ t.me.brk = s.me.brk ∧ t.me.ram = s.me.ram)
      ∧ (s.me.sv = false → ∃ v, Traps (.eret p) s 1 v ∧ encodeSeq (.eret p) = some (v.setWidth 32) ∧ v.toNat < 2 ^ 32))

/-- R188, R189, R274: what mfsy reads from each system register and what mtsy writes: sy.status keeps its three fields and its reserved bits
stay 0, sy.epc keeps bits [1:0] 0, sy.vbase bits [7:0], sy.ctx takes 16 bits; the user reads five of them, and every other read and every
write at user privilege is an illegal instruction (code 1). -/
def Obligations.SystemRegistersReadAndWrite : Prop :=
  (∀ (s : State) (p : BitVec 2) (d : BitVec 5), Undisturbed s → p ≠ 3#2 →
      let reads (n : BitVec 14) (v : DWord) : Prop := exec (.mfsy p d n) s = .next (s.wrote d v)
      let privileged (n : BitVec 14) (v : DWord) : Prop :=
        (s.me.sv = true → reads n v) ∧ (s.me.sv = false → ∃ w, Traps (.mfsy p d n) s 1 w ∧ encodeSeq (.mfsy p d n) = some (w.setWidth 32))
      privileged 0x000#14 s.me.status ∧ privileged 0x001#14 s.me.epc ∧ privileged 0x002#14 s.me.cause
      ∧ privileged 0x003#14 s.me.tval ∧ privileged 0x004#14 s.me.vbase ∧ privileged 0x005#14 s.me.scratch
      ∧ reads 0x006#14 (BitVec.ofNat 64 (s.tileCycles s.cur.val)) ∧ reads 0x007#14 (BitVec.ofNat 64 s.ns)
      ∧ reads 0x008#14 ((seqId s.cur.val).setWidth 64) ∧ reads 0x009#14 (BitVec.ofNat 64 (s.partOfTile s.cur.val).val)
      ∧ reads 0x00A#14 (s.me.ctx.setWidth 64)
      ∧ ∀ k : Fin 8, privileged (BitVec.ofNat 14 (0x10 + k.val)) s.me.brk[k])
  ∧ (∀ (s : State) (p : BitVec 2) (a : BitVec 5), Undisturbed s → p ≠ 3#2 →
      let v := s.me.rd a
      let writes (n : BitVec 14) (f : Seq → Seq) : Prop :=
        (s.me.sv = true → exec (.mtsy p a n) s = .next (s.modMe (fun q => { f q with pc := q.pc + 4#64 })))
        ∧ (s.me.sv = false → ∃ w, Traps (.mtsy p a n) s 1 w ∧ encodeSeq (.mtsy p a n) = some (w.setWidth 32))
      writes 0x000#14 (fun q => { q with status := v &&& 7#64 })
      ∧ writes 0x001#14 (fun q => { q with epc := v &&& ~~~3#64 })
      ∧ writes 0x002#14 (fun q => { q with cause := v })
      ∧ writes 0x003#14 (fun q => { q with tval := v })
      ∧ writes 0x004#14 (fun q => { q with vbase := v &&& ~~~0xFF#64 })
      ∧ writes 0x005#14 (fun q => { q with scratch := v })
      ∧ writes 0x00A#14 (fun q => { q with ctx := v.setWidth 16 })
      ∧ ∀ k : Fin 8, writes (BitVec.ofNat 14 (0x10 + k.val)) (fun q => { q with brk := q.brk.set k v }))

/-- R181, R188: every sequencer instruction with a field that is reserved or breaks its table, the protection class 0b11 among them, is an
illegal instruction (code 1) with its word in sy.tval, at either privilege; so is mfsy of a system register that is not there, and mtsy of
such a one or of one that it cannot write. -/
def Obligations.ReservedFieldsAreIllegal : Prop :=
  (∀ (s : State) (i : Instr) (w : Word), Undisturbed s → encodeSeq i = some w → i.wf = false → Traps i s 1 (w.setWidth 64))
  ∧ (∀ (s : State) (i : Instr) (w : Word), Undisturbed s → encodeSeq i = some w → w.extractLsb' 30 2 = 3#2 → Traps i s 1 (w.setWidth 64))
  ∧ ∀ (s : State) (p : BitVec 2) (d a : BitVec 5) (n : BitVec 14), Undisturbed s →
      (0x00A < n.toNat → n.toNat < 0x010 ∨ 0x017 < n.toNat → ∃ w, encodeSeq (.mfsy p d n) = some w ∧ Traps (.mfsy p d n) s 1 (w.setWidth 64))
      ∧ (n = 6#14 ∨ n = 7#14 ∨ n = 8#14 ∨ n = 9#14 ∨ (0x00A < n.toNat ∧ (n.toNat < 0x010 ∨ 0x017 < n.toNat)) →
          ∃ w, encodeSeq (.mtsy p a n) = some w ∧ Traps (.mtsy p a n) s 1 (w.setWidth 64))

/-! ### The sequencer: memory -/

/-- R236, R239, R240, R113, R222 row 5: ld and st on local RAM and on a scratch window: the bytes loaded and stored and no others, the least
significant byte at the lowest address; a misaligned address traps with code 2, one beyond 64 KiB of RAM or with no place in a window with
code 3 (a side on which the graph has no window is one without a place: the model's choice, log entry 43), and so does a load whose data are
uncorrectable (R243, row 9), which is logged. -/
def Obligations.RamAndScratchLoadsAndStores : Prop :=
  (∀ (s : State) (p : BitVec 2) (d b : BitVec 5) (z : BitVec 2) (g : BitVec 1) (o : BitVec 9), Undisturbed s → p ≠ 3#2 →
      ¬ (g = 1#1 ∧ z = 3#2) →
      let n := 2 ^ z.toNat
      let a := addressOf (s.me.rd b) o n
      (a.toNat % n ≠ 0 → Traps (.ld p d b z g 2#2 o) s 2 a ∧ Traps (.st p d b z 2#2 o) s 2 a)
      ∧ (a.toNat % n = 0 → 2 ^ 16 < a.toNat + n → Traps (.ld p d b z g 2#2 o) s 3 a ∧ Traps (.st p d b z 2#2 o) s 3 a)
      ∧ (a.toNat % n = 0 → a.toNat + n ≤ 2 ^ 16 →
          (∃ v, exec (.ld p d b z g 2#2 o) s = .next (s.wrote d v) ∧ Holds g v n (fun k => s.me.ram.read (a.toNat + k)))
          ∧ (∃ t, exec (.st p d b z 2#2 o) s = .next t
              ∧ t = s.modMe (fun q => { q with ram := t.me.ram, pc := q.pc + 4#64, stall := none })
              ∧ (s.me.ram.wf = true → t.me.ram.wf = true
                  ∧ (∀ k, k < n → t.me.ram.read (a.toNat + k) = byteAt (s.me.rd d) k)
                  ∧ ∀ x, x < a.toNat ∨ a.toNat + n ≤ x → t.me.ram.read x = s.me.ram.read x))))
  ∧ (∀ (s : State) (p : BitVec 2) (d b : BitVec 5) (z : BitVec 2) (g : BitVec 1) (o : BitVec 9), Undisturbed s → p ≠ 3#2 →
      ¬ (g = 1#1 ∧ z = 3#2) →
      let n := 2 ^ z.toNat
      let a := addressOf (s.me.rd b) o n
      a.toNat % n = 0 →
      (s.scratchPlace s.cur.val a n = none → Traps (.ld p d b z g 1#2 o) s 3 a ∧ Traps (.st p d b z 1#2 o) s 3 a)
      ∧ (∀ m x, s.scratchPlace s.cur.val a n = some (m, x) →
          (s.padBad m x n = false → ∃ v, exec (.ld p d b z g 1#2 o) s = .next (s.wrote d v)
            ∧ Holds g v n (fun k => (s.mtile m).bytes.read (x + k)))
          ∧ (s.padBad m x n = true → ∃ t, exec (.ld p d b z g 1#2 o) s = .next t
            ∧ Entered ((s.padMet m x n).logConsumed s.cur.val padErr) t 3 a ∧ t.me.regs = s.me.regs)
          ∧ (∃ t, exec (.st p d b z 1#2 o) s = .next t
              ∧ t = (s.modMTile m (fun y => { y with
                  bytes := (t.mtile m).bytes, tainted := y.tainted.filter (fun z => decide (z.1 + 4 ≤ x) || decide (x + n ≤ z.1)) })).passed
              ∧ ((s.mtile m).bytes.wf = true → (t.mtile m).bytes.wf = true
                  ∧ (∀ k, k < n → (t.mtile m).bytes.read (x + k) = byteAt (s.me.rd d) k)
                  ∧ ∀ y, y < x ∨ x + n ≤ y → (t.mtile m).bytes.read y = (s.mtile m).bytes.read y))))

/-- R124, R128, R133, R134: a translation with no cached leaf: the leaf that the walk finds, refused to an access that its
permission bits do not allow, else with accessed (and, for a write, dirty) set in its entry in memory and in the cached leaf; a
walk that ends in a fault gives that fault and changes nothing. -/
def Obligations.TranslationChecksAndMarksTheLeaf : Prop :=
  ∀ (s : State) (g : Agent) (va : Nat) (acc : Access), s.cached g va = none →
    (∀ x, s.walk g va = .fault x → s.translate g va acc = (.fault x, s))
    ∧ (∀ l, s.walk g va = .leaf l →
        let allowed := (g.user = true → l.entry.getLsbD 5 = true)
          ∧ match acc with
            | .read => l.entry.getLsbD 2 = true
            | .write => l.entry.getLsbD 3 = true ∧ leafComp l.entry ≠ 2
            | .exec => l.entry.getLsbD 4 = true
        let e := if acc = .write then l.entry ||| 0xC0#64 else l.entry ||| 0x40#64
        (¬ allowed → s.translate g va acc = (.fault .denied, s))
        ∧ (allowed → ∃ t, s.translate g va acc = (.ok (l.frame + va % pageBytes l.size) { l with entry := e }, t)
            ∧ t.tlb.head? = some ⟨g.die, g.part.val, g.ctx, pageBase va l.size, l.size, e⟩
            ∧ (s.tag (l.entryAt / 256) = 0x8#4 →
                t = { s with mem := if e = l.entry then s.mem else s.mem.write l.entryAt (e.setWidth 8), tlb := t.tlb })))

/-- R412, R406: bytes written to physical memory read back, through a leaf with compression or without, and no other byte of
memory changes, as long as every block is decodable, which it then stays. -/
def Obligations.PhysicalWritesReadBackAndChangeNothingElse : Prop :=
  ∀ (s : State) (comp : Bool) (a : Nat) (bs : List Byte), s.mem.wf = true → s.Decodable →
    let t := s.physWrite comp a bs
    t.mem.wf = true ∧ t.Decodable
    ∧ (∀ k, k < bs.length → t.physByte (a + k) = bs.getD k 0#8)
    ∧ (∀ x, x < a ∨ a + bs.length ≤ x → t.physByte x = s.physByte x)
    ∧ t = { s with mem := t.mem, tags := t.tags }

/-- R236 to R241, R222 row 6, R462: loads from global space, unordered and ordered: the bytes that the read of the translated
page gives; an address beyond 52 bits is an access fault (code 3), a page that is not present or malformed, or a table that is poisoned, a
page fault (code 4), a permission refused and data that are uncorrectable (R243, row 9, which is logged) an access fault (code 3). -/
def Obligations.GlobalLoadsReadTheirPage : Prop :=
  ∀ (s : State) (p : BitVec 2) (d b : BitVec 5) (z : BitVec 2) (g : BitVec 1) (off : BitVec 9) (o sc zo : BitVec 2),
    Undisturbed s → p ≠ 3#2 → ¬ (g = 1#1 ∧ z = 3#2) → (o = 0#2 ∨ o = 1#2) → (zo = 2#2 ∨ zo = 3#2) →
    let plain (i : Instr) (a : DWord) (n : Nat) (sign : BitVec 1) : Prop :=
      (a.toNat % n ≠ 0 → Traps i s 2 a)
      ∧ (a.toNat % n = 0 → s.noPath .global a .read = false →
          (2 ^ 52 ≤ a.toNat → Traps i s 3 a)
          ∧ (a.toNat < 2 ^ 52 →
              (∀ bs t, s.virtRead s.meAgent a.toNat n .read = (.ok bs, t) → ∃ v,
                exec i s = .next ((t.countHot s.meAgent a.toNat .read).wrote d v)
                ∧ Holds sign v bs.length (fun k => bs.getD k 0#8))
              ∧ (∀ x, s.virtRead s.meAgent a.toNat n .read = (.fault x, s) →
                  Traps i s (if x = .noContext ∨ x = .denied then 3 else 4) a)
              ∧ (∀ e t, s.virtRead s.meAgent a.toNat n .read = (.uncorrectable e, t) → ∃ v, exec i s = .next v
                  ∧ Entered (t.logConsumed s.cur.val e) v 3 a ∧ v.me.regs = s.me.regs)
              ∧ (∀ table t, s.virtRead s.meAgent a.toNat n .read = (.poison table, t) → ∃ v, exec i s = .next v
                  ∧ Entered (t.poisonedByMe table) v 4 a ∧ v.me.regs = s.me.regs)))
      ∧ (a.toNat % n = 0 → s.noPath .global a .read = true → exec i s = .next (s.kill (s.gidOfTile s.cur.val) 0x12 0#8))
    plain (.ld p d b z g 0#2 off) (addressOf (s.me.rd b) off (2 ^ z.toNat)) (2 ^ z.toNat) g
    ∧ plain (.ldOrdered p d b o sc zo) (s.me.rd b) (if zo = 2#2 then 4 else 8) 0#1

/-- R240, R241, R138: stores to global space, unordered and ordered: the page's translation as a write, then the bytes of the
register at the physical address, their lines in the L2 of the die that has them, the words of the instruction L1 that they reach marked as the sequencer's own; a page that is
moving withholds the store, which stalls without effect. -/
def Obligations.GlobalStoresWriteTheirPage : Prop :=
  ∀ (s : State) (p : BitVec 2) (v b : BitVec 5) (z : BitVec 2) (off : BitVec 9) (o sc zo : BitVec 2),
    Undisturbed s → p ≠ 3#2 → (o = 0#2 ∨ o = 2#2) → (zo = 2#2 ∨ zo = 3#2) →
    let plain (i : Instr) (a : DWord) (n : Nat) : Prop :=
      (a.toNat % n ≠ 0 → Traps i s 2 a)
      ∧ (s.noPath .global a .write = false → s.storeHeld .global a = false →
        (a.toNat % n = 0 → 2 ^ 52 ≤ a.toNat → Traps i s 3 a)
        ∧ (a.toNat % n = 0 → a.toNat < 2 ^ 52 →
          (∀ pa l t, s.translate s.meAgent a.toNat .write = (.ok pa l, t) →
            let bytes := (List.range n).map (byteAt (s.me.rd v))
            exec i s = .next ((((((t.physWrite (decide (leafComp l.entry = 1)) pa bytes).touchL2 pa n).modMe
              (fun q => { q with il1 := markOwn pa n q.il1 })).countHot s.meAgent a.toNat .write)).passed))
          ∧ (∀ x, s.translate s.meAgent a.toNat .write = (.fault x, s) →
              Traps i s (if x = .noContext ∨ x = .denied then 3 else 4) a)))
    plain (.st p v b z 0#2 off) (addressOf (s.me.rd b) off (2 ^ z.toNat)) (2 ^ z.toNat)
    ∧ plain (.stOrdered p b v o sc zo) (s.me.rd b) (if zo = 2#2 then 4 else 8)
    ∧ ((s.me.rd b).toNat % 8 = 0 → s.noPath .global (s.me.rd b) .write = false → s.storeHeld .global (s.me.rd b) = true →
        ∃ t, exec (.stOrdered p b v o sc zo) s = .next t ∧ t.me.stall.isSome = true ∧ t.mem = s.mem ∧ t.me.regs = s.me.regs)

/-- R242, R270, R164, R165, R243, R222 row 5: the atomics: when the access is allowed, the page is not moving and the round of the sequencer is the oldest
uncommitted one, the old value is read, the new one written (by cas only if the old value is the expected one), and d takes the old value
zero-extended; ev.add writes no register. An old value that is uncorrectable traps with code 3 and is logged. A misaligned address traps with
code 2; with its round not yet the oldest an atomic stalls without an effect of its own: the state t in which it waits may already have accessed
and dirty set in the leaf in memory, which is the choice of the model (log entry 79). -/
def Obligations.AtomicsReadAndWriteAtOnce : Prop :=
  (∀ (s t u : State) (p : BitVec 2) (d a v : BitVec 5) (o sc z : BitVec 2) (pa : Nat) (l l' : Leaf), Undisturbed s → p ≠ 3#2 →
      let addr := s.me.rd a
      let agent := s.meAgent
      let run (i : Instr) (n : Nat) (new : Nat → Option Nat) (finish : Nat → Seq → Seq) : Prop :=
        addr.toNat % n = 0 → addr.toNat < 2 ^ 52 → s.translate agent addr.toNat .write = (.ok pa l, t) →
        ¬ (leafMtype l.entry = 1 ∧ hostBase ≤ l.frame) → t.noPath .global addr .write = false → t.heldWrite agent addr.toNat = false →
        t.roundReady = true → t.translate agent addr.toNat .write = (.ok pa l', u) →
        let old := leNat (u.physBytes pa n)
        let after := match new old with
          | none => u.touchL2 pa n
          | some x => ((((u.physWrite (decide (leafComp l'.entry = 1)) pa (leBytes n x)).touchL2 pa n).modMe
              (fun q => { q with il1 := markOwn pa n q.il1 })).countHot agent addr.toNat .write)
        (u.physBad pa n = false →
          exec i s = .next (after.makeIrrevocable.modMe (fun q => { finish old q with pc := q.pc + 4#64, stall := none })))
        ∧ (u.physBad pa n = true → ∃ v, exec i s = .next v
          ∧ Entered ((u.eccMet pa n).logConsumed s.cur.val (u.memErr pa n false)) v 3 addr ∧ v.me.regs = s.me.regs)
      let into (old : Nat) (q : Seq) : Seq := q.wr d (BitVec.ofNat 64 old)
      let x := (s.me.rd v).toNat
      (z = 2#2 ∨ z = 3#2 →
        let n := if z = 2#2 then 4 else 8
        run (.amoAdd p d a v o sc z) n (fun old => some ((old + x) % 2 ^ (8 * n))) into
        ∧ run (.amoSwap p d a v o sc z) n (fun _ => some (x % 2 ^ (8 * n))) into
        ∧ run (.amoCas p d a v o sc z) n (fun old => if old = (s.me.rd d).toNat % 2 ^ (8 * n) then some (x % 2 ^ (8 * n)) else none) into)
      ∧ run (.evAdd p a v sc) 8 (fun old => some ((old + x) % 2 ^ 64)) (fun _ q => q))
  ∧ (∀ (s : State) (p : BitVec 2) (d a v : BitVec 5) (o sc z : BitVec 2), Undisturbed s → p ≠ 3#2 → (z = 2#2 ∨ z = 3#2) →
      let addr := s.me.rd a
      let n := if z = 2#2 then 4 else 8
      (addr.toNat % n ≠ 0 → Traps (.amoAdd p d a v o sc z) s 2 addr ∧ Traps (.amoSwap p d a v o sc z) s 2 addr
        ∧ Traps (.amoCas p d a v o sc z) s 2 addr)
      ∧ (addr.toNat % 8 ≠ 0 → Traps (.evAdd p a v sc) s 2 addr)
      ∧ (let waits (i : Instr) (n : Nat) : Prop :=
          ∀ t, s.atomicCheck addr n = (none, t) → t.noPath .global addr .write = false → t.heldWrite s.meAgent addr.toNat = false →
            t.roundReady = false → ∃ u, exec i s = .next u
              ∧ u = t.modMe (fun q => { q with stall := u.me.stall }) ∧ u.me.stall.isSome = true
         waits (.amoAdd p d a v o sc z) n ∧ waits (.amoSwap p d a v o sc z) n ∧ waits (.amoCas p d a v o sc z) n ∧ waits (.evAdd p a v sc) 8))

/-- R161, R244, R273, R269, R185: a fence only goes on, and one without an order is an illegal instruction; ifence drops the words of the instruction
L1 that the sequencer has stored to; wait.addr reads a word (wait.addr.n64 a dword) and goes on when the condition holds of it: equal, not
equal, at least, or at least in 32-bit serial order; otherwise it sleeps on the line, its register and memory effects none. -/
def Obligations.FencesAndWaitsGoOn : Prop :=
  (∀ (s : State) (p o sc : BitVec 2), Undisturbed s → p ≠ 3#2 →
      (o ≠ 0#2 → exec (.fence p o sc) s = .next (s.jumped (s.me.pc + 4#64)))
      ∧ (o = 0#2 → ∃ v, Traps (.fence p o sc) s 1 v)
      ∧ exec (.ifence p) s = .next (s.modMe (fun q => { q with il1 := q.il1.filter (fun w => !w.own), pc := q.pc + 4#64 })))
  ∧ (∀ (s : State) (p : BitVec 2) (a b : BitVec 5) (o sc g c : BitVec 2), Undisturbed s → p ≠ 3#2 → (o = 0#2 ∨ o = 1#2) →
      (g = 0#2 ∨ g = 1#2) →
      let addr := s.me.rd a
      let space : Space := if g = 0#2 then .global else .scratch
      let y := (s.me.rd b).toNat
      let ends (n v : Nat) : Prop :=
        (c = 0#2 ∧ v = y % 2 ^ (8 * n)) ∨ (c = 1#2 ∧ v ≠ y % 2 ^ (8 * n)) ∨ (c = 2#2 ∧ y % 2 ^ (8 * n) ≤ v)
          ∨ (c = 3#2 ∧ (v + 2 ^ 32 - y % 2 ^ 32) % 2 ^ 32 < 2 ^ 31)
      let waits (i : Instr) (n : Nat) : Prop :=
        ∀ v t, s.noPath space addr .read = false → s.seqLoad space addr n = (.ok v, t) →
          (ends n v → exec i s = .next t.passed)
          ∧ (¬ ends n v → ∃ k u, exec i s = .next (t.modMe (fun q => { q with stall := some ⟨i, .sleep (addr.toNat / 64) k, u⟩ })))
      waits (.waitAddr p a b o sc g c) 4
      ∧ (c ≠ 3#2 → waits (.waitAddrN64 p a b o sc g c) 8)
      ∧ (addr.toNat % 4 ≠ 0 → Traps (.waitAddr p a b o sc g c) s 2 addr)
      ∧ (c ≠ 3#2 → addr.toNat % 8 ≠ 0 → Traps (.waitAddrN64 p a b o sc g c) s 2 addr))

/-! ### The sequencer: configuration, tokens, engines, launches -/

/-- R251, R249: cfg.load puts the image it fetched into its context with the block that it is; a misaligned address traps (code 2), a
busy context keeps its image and traps with reason 2, and an image that a check refuses leaves the context with no image and traps
with reason 1 and the check's code, as a fetch that faults does with that fault's own trap; while its image is long in coming it stalls, the context holding no image (when that is, is the world's
choice, log entry 77). -/
def Obligations.ConfigurationLoadPlacesACheckedImage : Prop :=
  ∀ (s : State) (p : BitVec 2) (a : BitVec 5) (c : BitVec 4), Undisturbed s → p ≠ 3#2 →
    let va := (s.me.rd a).toNat
    let s0 := s.modMe Seq.boundary
    let i : Instr := .cfgLoad p a c
    (va % 16 ≠ 0 → Traps i s 2 (s.me.rd a))
    ∧ (va % 16 = 0 → (s.tile s.cur).busy c.toFin = true → Traps i s 8 (cfgTval 2 c.toNat 0))
    ∧ (va % 16 = 0 → (s.tile s.cur).busy c.toFin = false → s.me.slow = true → ∃ u, exec i s = .next u ∧ u.me.stall.isSome = true
        ∧ u.me.pc = s.me.pc ∧ u.me.regs = s.me.regs ∧ u.mem = s.mem
        ∧ ∀ k : Fin 16, (u.tile s.cur).ctxs[k] = if k = c.toFin then {} else (s.tile s.cur).ctxs[k])
    ∧ (va % 16 = 0 → (s.tile s.cur).busy c.toFin = false → s.me.slow = false → ∀ bs t, s0.fetchImage va = (.ok bs, t) →
        let image := imageOf bs
        let block := (t.runOfTile s.cur.val).bind (fun r => r.blockAt va)
        (t.imageCode image block = none → ∃ u, exec i s = .next u
          ∧ u = (t.setMyCtx c.toFin { image := some image, block := block }).passed
          ∧ ∀ k : Fin 16, (u.tile s.cur).ctxs[k] = if k = c.toFin then { image := some image, block := block } else (t.tile s.cur).ctxs[k])
        ∧ (∀ code, code < 65536 → t.imageCode image block = some code → ∃ u, exec i s = .next u
          ∧ Entered (t.setMyCtx c.toFin {}) u 8 (cfgTval 1 c.toNat code)))
    ∧ (va % 16 = 0 → (s.tile s.cur).busy c.toFin = false → s.me.slow = false → ∀ code tval t, s0.fetchImage va = (.trap code tval, t) →
        ∃ u, exec i s = .next u ∧ Entered (t.setMyCtx c.toFin {}) u code tval ∧ (u.tile s.cur).ctxs[c.toFin] = {})

/-- R252, R247: cfg.arm makes a context the strand's armed shadow and releases it from any strand that held it unarmed; the reasons
2, 3, 4 and 7, the lowest first, forbid it. -/
def Obligations.ArmMakesTheContextAShadow : Prop :=
  ∀ (s : State) (p : BitVec 2) (k : BitVec 3) (c : BitVec 4), Undisturbed s → p ≠ 3#2 →
    let st := (s.tile s.cur).strands[k.toFin]
    let x := (s.tile s.cur).ctxs[c.toFin]
    let busy := ∃ j : Fin 8, (s.tile s.cur).strands[j].active = some c.toFin ∨ (s.tile s.cur).strands[j].shadow = .armed c.toFin
    let i : Instr := .cfgArm p k c
    (busy → Traps i s 8 (cfgTval 2 c.toNat 0))
    ∧ (¬ busy → x.image = none → Traps i s 8 (cfgTval 3 c.toNat 0))
    ∧ (∀ im, ¬ busy → x.image = some im →
        (st.used = false ∨ st.swapPending = true ∨ st.partPending = true → Traps i s 8 (cfgTval 4 k.toNat 0))
        ∧ (st.used = true → st.swapPending = false → st.partPending = false →
            (bRegion st.region ≠ im.region → Traps i s 8 (cfgTval 7 c.toNat 0))
            ∧ (bRegion st.region = im.region → ∃ t, exec i s = .next t
                ∧ t = (s.modMe Seq.boundary).modTile s.cur (fun y => { y with strands := (t.tile s.cur).strands, seq := y.seq.advance.resume })
                ∧ ∀ j : Fin 8, (t.tile s.cur).strands[j] =
                    let old := (s.tile s.cur).strands[j]
                    if j = k.toFin then { old with shadow := .armed c.toFin }
                    else if old.shadow = .unarmed c.toFin then { old with shadow := .none } else old)))

/-- R253, R246: cfg.swap: in run the swap becomes pending; otherwise the armed context becomes active at once and the strand ready, and
the old active context its unarmed shadow, or none from empty; with no armed shadow, or a swap or part pending in run, reason 4, and so
on a strand that the load does not use. -/
def Obligations.SwapMakesTheShadowActive : Prop :=
  ∀ (s : State) (p : BitVec 2) (k : BitVec 3), Undisturbed s → p ≠ 3#2 →
    let st := (s.tile s.cur).strands[k.toFin]
    let s0 := s.modMe Seq.boundary
    let i : Instr := .cfgSwap p k
    ((∀ c, st.shadow ≠ .armed c) → Traps i s 8 (cfgTval 4 k.toNat 0))
    ∧ (st.used = false → Traps i s 8 (cfgTval 4 k.toNat 0))
    ∧ (∀ c, st.shadow = .armed c → st.used = true →
        (st.state = .run → st.swapPending = true ∨ st.partPending = true → Traps i s 8 (cfgTval 4 k.toNat 0))
        ∧ (st.state = .run → st.swapPending = false → st.partPending = false →
            exec i s = .next (s0.modStrand s.cur k.toFin (fun y => { y with swapPending := true })).passed)
        ∧ (st.state ≠ .run → s0.badContext s.cur c = false → ∃ t, exec i s = .next t
            ∧ (t.tile s.cur).strands[k.toFin].active = some c
            ∧ (t.tile s.cur).strands[k.toFin].state = .ready
            ∧ (t.tile s.cur).strands[k.toFin].shadow = (match st.active with
                | some old => .unarmed old
                | none => .none)
            ∧ (t.tile s.cur).strands[k.toFin].status = st.status
            ∧ (∀ j : Fin 8, j ≠ k.toFin → (t.tile s.cur).strands[j] = (s.tile s.cur).strands[j])
            ∧ (t.tile s.cur).ctxs = (s.tile s.cur).ctxs
            ∧ t.me.regs = s.me.regs ∧ t.me.preds = s.me.preds ∧ t.me.pc = s.me.pc + 4#64 ∧ t.mem = s.mem))

/-- R254, R255, R81: cfg.fire: in run the phase becomes pending with its trip counts and arguments, otherwise it begins, and the recorded pick is
spent; a strand that is empty or already has a phase or a partial reconfiguration pending gives reason 4, a register trip count above 0xFFFFFF
reason 5, a malformed exit descriptor reason 6 (one in no window of the strand is malformed: the model's choice, log entry 21). A phase that begins puts its strand in run with the arguments, trip counts and pick of the
fire, no iteration issued, and changes no register, no memory and no other strand. -/
def Obligations.FireStartsOrQueuesAPhase : Prop :=
  (∀ (s : State) (p : BitVec 2) (a b : BitVec 5) (k : BitVec 3), Undisturbed s → p ≠ 3#2 →
      let n := k.toFin
      let st := (s.tile s.cur).strands[n]
      let s0 := s.modMe Seq.boundary
      let i : Instr := .cfgFire p a b k
      (st.used = false ∨ st.state = .empty ∨ st.partPending = true ∨ st.firePending.isSome = true → Traps i s 8 (cfgTval 4 k.toNat 0))
      ∧ (st.used = true → st.state ≠ .empty → st.partPending = false → st.firePending = none → ∀ c x,
          (st.nextCtx = some c) → s0.ctxBlock s.cur n c = some x →
          (∀ dim, dim < 65536 → readTrips x.image s.me = .inr dim → Traps i s 8 (cfgTval 5 k.toNat dim))
          ∧ (∀ trips, readTrips x.image s.me = .inl trips →
              (∀ d, d < 65536 → (State.firedBlocks st x).find? (fun y => (s0.exitDesc s.cur st.exitTable y).isNone) = some d →
                Traps i s 8 (cfgTval 6 k.toNat d))
              ∧ ((∀ y ∈ State.firedBlocks st x, (s0.exitDesc s.cur st.exitTable y).isSome = true) →
                  let f : Fire := ⟨trips, (s.me.rd a, s.me.rd b), st.pick⟩
                  let s1 := s0.modStrand s.cur n (fun y => { y with pick := none })
                  (st.state = .run → exec i s = .next (s1.modStrand s.cur n (fun y => { y with firePending := some f })).passed)
                  ∧ (st.state ≠ .run → s.badContext s.cur x.c = false → exec i s = .next (s1.beginPhase s.cur n f).passed)))))
  ∧ (∀ (s : State) (t : Fin 192) (k : Fin 8) (f : Fire) (x : RCtx) (r : Run), s.rctx t k = some x → s.run x.gid = some r →
      let u := s.beginPhase t k f
      (u.strand t k).state = .run
      ∧ (∃ ph, (u.strand t k).phase = some ph ∧ ph.trips = f.trips ∧ ph.args = f.args ∧ ph.pick = f.pick ∧ ph.issued = 0 ∧ ph.ended = false)
      ∧ (∀ j : Fin 8, j ≠ k → u.strand t j = s.strand t j)
      ∧ (∀ y : Fin 192, u.seq y = s.seq y ∧ (u.tile y).ctxs = (s.tile y).ctxs)
      ∧ u.mem = s.mem ∧ u.mtiles = s.mtiles ∧ u.parts = s.parts)

/-- R257: cfg.part leaves a partial reconfiguration pending, with the fire that follows it, once its marker is placed at the region's
inputs; it needs the strand in run with nothing pending and the context its armed shadow (reason 4), an image there (reason 3), trip
counts in range (reason 5) and the same region (reason 7). -/
def Obligations.PartialReconfigurationBecomesPending : Prop :=
  ∀ (s : State) (p : BitVec 2) (k : BitVec 3) (c : BitVec 4), Undisturbed s → p ≠ 3#2 →
    let n := k.toFin
    let st := (s.tile s.cur).strands[n]
    let s0 := s.modMe Seq.boundary
    let i : Instr := .cfgPart p k c
    (((s.tile s.cur).ctxs[c.toFin]).image = none → Traps i s 8 (cfgTval 3 c.toNat 0))
    ∧ (∀ im, ((s.tile s.cur).ctxs[c.toFin]).image = some im →
        (st.used = false ∨ st.state ≠ .run ∨ st.swapPending = true ∨ st.partPending = true ∨ st.firePending.isSome = true
          ∨ st.shadow ≠ .armed c.toFin → Traps i s 8 (cfgTval 4 k.toNat 0))
        ∧ (st.used = true → st.state = .run → st.swapPending = false → st.partPending = false → st.firePending = none →
            st.shadow = .armed c.toFin →
            (∀ dim, dim < 65536 → readTrips im s.me = .inr dim → Traps i s 8 (cfgTval 5 k.toNat dim))
            ∧ (∀ trips, readTrips im s.me = .inl trips →
                (bRegion st.region ≠ im.region → Traps i s 8 (cfgTval 7 c.toNat 0))
                ∧ (∀ x, bRegion st.region = im.region → s0.rctx s.cur n = some x → ∃ t, exec i s = .next t
                    ∧ t = ((s0.injectPart x c.toFin).modStrand s.cur n (fun z => { z with
                        partPending := true, firePending := some ⟨trips, z.args, none⟩ })).passed
                    ∧ (t.tile s.cur).strands[n].partPending = true ∧ (t.tile s.cur).strands[n].state = .run
                    ∧ t.me.pc = s.me.pc + 4#64 ∧ t.me.regs = s.me.regs))))

/-- R256, R258, R91: cfg.wait, cfg.exit, cfg.pick and cfg.drain on a strand that is not in run and has nothing pending: wait and drain only go on
(drain once the engine jobs of the strand are done), exit reads the nine status bits of the last phase, pick gives a waiting block, the one
skipped longest when any waiting block has been skipped 1,024 times, else the one with the most waiting, and the lowest block index among
equals; on an unused strand reason 4, and while the strand runs they stall without effect. -/
def Obligations.StrandWaitsAndPicks : Prop :=
  (∀ (s : State) (p : BitVec 2) (a : BitVec 5) (k : BitVec 3), Undisturbed s → p ≠ 3#2 →
      let n := k.toFin
      let st := (s.tile s.cur).strands[n]
      let s0 := s.modMe Seq.boundary
      (st.used = false → Traps (.cfgWait p k) s 8 (cfgTval 4 k.toNat 0) ∧ Traps (.cfgExit p a k) s 8 (cfgTval 4 k.toNat 0)
        ∧ Traps (.cfgPick p a k) s 8 (cfgTval 4 k.toNat 0) ∧ Traps (.cfgDrain p k) s 8 (cfgTval 4 k.toNat 0))
      ∧ (st.used = true → st.state ≠ .run → st.swapPending = false → st.partPending = false → st.firePending = none →
          exec (.cfgWait p k) s = .next s0.passed
          ∧ exec (.cfgExit p a k) s = .next ((s0.wrote a (st.status.setWidth 64)).modMe Seq.resume)
          ∧ (∀ ds, s0.exitTable s.cur st = .inl ds → ∃ t v, exec (.cfgPick p a k) s = .next t
              ∧ t.me.regs = (s.wrote a v).me.regs ∧ t.me.pc = s.me.pc + 4#64 ∧ t.mem = s.mem
              ∧ (pickBlock ds = none → v = 0xFFFF_FFFF_FFFF_FFFF#64 ∧ (t.tile s.cur).strands[n].pick = none)
              ∧ (∀ b d, pickBlock ds = some (b, d) → v = BitVec.ofNat 64 b ∧ (t.tile s.cur).strands[n].pick = some (b, d.waiting))))
      ∧ (st.used = true → s0.enginesDrained s.cur n = true → exec (.cfgDrain p k) s = .next s0.passed)
      ∧ (st.used = true → s0.enginesDrained s.cur n = false → ∃ t, exec (.cfgDrain p k) s = .next t
          ∧ t = s0.modMe (fun q => { q with stall := t.me.stall }) ∧ t.me.stall.isSome = true)
      ∧ (st.used = true → st.state = .run → s.me.stall = none → ∃ t, exec (.cfgWait p k) s = .next t
          ∧ t = s0.modMe (fun q => { q with stall := t.me.stall }) ∧ t.me.stall.isSome = true))
  ∧ (∀ ds : List (Nat × ExitDesc), ds.Pairwise (fun x y => x.1 < y.1) →
      (pickBlock ds = none ↔ ∀ x ∈ ds, x.2.waiting = 0)
      ∧ ∀ b d, pickBlock ds = some (b, d) → (b, d) ∈ ds ∧ d.waiting ≠ 0
          ∧ ((∃ x ∈ ds, x.2.waiting ≠ 0 ∧ 1024 ≤ x.2.skipped) →
              ∀ x ∈ ds, x.2.waiting ≠ 0 → x.2.skipped < d.skipped ∨ (x.2.skipped = d.skipped ∧ b ≤ x.1))
          ∧ ((∀ x ∈ ds, x.2.waiting ≠ 0 → x.2.skipped < 1024) →
              ∀ x ∈ ds, x.2.waiting < d.waiting ∨ (x.2.waiting = d.waiting ∧ b ≤ x.1)))

/-- R259 to R264: token and round injection through a valid port whose round is open: the token or the marker goes to the tail of the
port's edge, which compresses as R418 says, the counts advance as the rules say, nothing else changes but the pc and the round's timestamp; a
value that names no port
gives reason 8, a closed or refusing port reason 9, a fault token with a bad cause reason 0xA, and no free slot a stall; a marker for round
0xFFFF_FFFF is not emitted and is a punctuation fault. -/
def Obligations.InjectionsAppendToTheirPort : Prop :=
  ∀ (s : State) (p : BitVec 2) (a b : BitVec 5) (tag : BitVec 7), Undisturbed s → p ≠ 3#2 → tokTagOk tag = true →
    let put (x : RCtx) (u : Nat) (q : Port) (item : Item) (next : Port) : State :=
      let edge := packSupply (bwThresh (x.image.bind u)) (s.unitAt x u).reply (q.items ++ [item])
      (s.modUnit x u (fun y => { y with reply := edge.1 })).setPort x.gid { next with used := true, items := edge.2 }
    (s.injPort (s.me.rd b) = none →
      Traps (.tokPut p a b tag) s 8 (cfgTval 8 0xFF 0) ∧ Traps (.rndEnd p a b) s 8 (cfgTval 8 0xFF 0)
      ∧ Traps (.rndGraph p b) s 8 (cfgTval 8 0xFF 0) ∧ Traps (.rndRedo p a b) s 8 (cfgTval 8 0xFF 0))
    ∧ (∀ x u r q, s.injPort (s.me.rd b) = some (x, u, r, q) →
        let v := s.me.rd a
        (q.closed = true ∨ q.refuses.isSome = true →
          Traps (.tokPut p a b tag) s 8 (cfgTval 9 0xFF 0) ∧ Traps (.rndEnd p a b) s 8 (cfgTval 9 0xFF 0)
          ∧ Traps (.rndGraph p b) s 8 (cfgTval 9 0xFF 0))
        ∧ (q.closed = false → q.refuses = none →
            (tag.getLsbD 2 = true → field v 31 24 = 0 ∨ 7 < field v 31 24 → Traps (.tokPut p a b tag) s 8 (cfgTval 0xA 0xFF 0))
            ∧ (tag.getLsbD 2 = false ∨ (1 ≤ field v 31 24 ∧ field v 31 24 ≤ 7) → s.portRoom x u q = true → ∃ item : Item,
                exec (.tokPut p a b tag) s = .next (put x u q item { q with seq := q.seq + 1 }).passed
                ∧ item.words = [if tag.getLsbD 6 then 0#32 else v.setWidth 32] ∧ item.tag = tag.setWidth 8)
            ∧ (s.portRoom x u q = true → 0xFFFF_FFFF ≤ q.round → exec (.rndEnd p a b) s = .next (s.punctuationFault x.gid q.round))
            ∧ (s.portRoom x u q = true → s.me.stall = none → q.round < 0xFFFF_FFFF → exec (.rndEnd p a b) s = .next
                ((put x u q (markerItem 0 (BitVec.ofNat 32 q.round)) { q with round := q.round + 1, seq := 0 }).passed.noteTimestamp
                  x.gid q.round (v.setWidth 32)))
            ∧ (q.seq ≠ 0 → Traps (.rndGraph p b) s 8 (cfgTval 9 0xFF 0))
            ∧ (q.seq = 0 → s.portRoom x u q = true → exec (.rndGraph p b) s = .next
                (put x u q (markerItem 2 (BitVec.ofNat 32 q.round - 1#32)) { q with closed := true }).passed)
            ∧ (s.portRoom x u q = false → ∃ t, exec (.rndEnd p a b) s = .next t
                ∧ t = s.modMe (fun m => { m with stall := t.me.stall }) ∧ t.me.stall.isSome = true))
        ∧ (q.refuses = some (field v 31 0) → exec (.rndRedo p a b) s = .next
            (s.setPort x.gid { q with round := field v 31 0, seq := 0, refuses := none }).passed)
        ∧ (q.refuses ≠ some (field v 31 0) → Traps (.rndRedo p a b) s 8 (cfgTval 9 0xFF 0)))

/-- R266, R267: the engine instructions queue the job of the 64-byte card at their scratch address on the engine that takes it; a
misaligned card traps (code 2), one outside a window is an access fault (code 3), a strand that is empty gives reason 4, a card that
a check refuses reason 0xB with the check's code, and full queues stall. -/
def Obligations.EngineInstructionsQueueTheirJob : Prop :=
  ∀ (s : State) (p : BitVec 2) (a : BitVec 5) (k : BitVec 3), Undisturbed s → p ≠ 3#2 →
    let addr := s.me.rd a
    let t := s.cur.val
    let queues (i : Instr) (sub : Nat) : Prop :=
      (addr.toNat % 64 ≠ 0 → Traps i s 2 addr)
      ∧ (addr.toNat % 64 = 0 → s.cardTile t addr = none → Traps i s 3 addr)
      ∧ (∀ m, addr.toNat % 64 = 0 → s.cardTile t addr = some m →
          (((s.tile s.cur).strands[k.toFin]).state = .empty → Traps i s 8 (cfgTval 4 k.toNat 0))
          ∧ (((s.tile s.cur).strands[k.toFin]).state ≠ .empty → ∀ v, s.seqLoad .scratch addr 64 = (.ok v, s) →
              let card := leBytes 64 v
              let g := s.gidOfTile t
              (∀ code, code < 65536 → s.cardCode g t m sub card = some code → Traps i s 8 (cfgTval 0xB k.toNat code))
              ∧ (s.cardCode g t m sub card = none →
                  (∀ e, s.chooseEngine g t m sub card = some e → exec i s = .next
                    ({ s.openStream g t sub e card with
                        jobs := s.jobs ++ [⟨e, g, t, k.toNat, ((s.tile s.cur).strands[k.toFin]).active, card, false, none⟩] } : State).passed)
                  ∧ (s.chooseEngine g t m sub card = none → ∃ u, exec i s = .next u
                      ∧ u = s.modMe (fun q => { q with stall := u.me.stall }) ∧ u.me.stall.isSome = true))))
    queues (.engCopy p a k) 0 ∧ queues (.engDcmp p a k) 1 ∧ queues (.engVdec p a k) 2 ∧ queues (.engXfm p a k) 3

/-- R268: launch holds its 64-byte record pending for the sequencer's current round; a misaligned record traps (code 2), a queue that is
not an enabled device-owned one gives reason 0xC with its number, and a ninth pending launch stalls. -/
def Obligations.LaunchHoldsItsRecordForTheRound : Prop :=
  ∀ (s : State) (p : BitVec 2) (a b : BitVec 5), Undisturbed s → p ≠ 3#2 →
    let va := s.me.rd a
    let q := (s.me.rd b).toNat
    let i : Instr := .launch p a b
    (va.toNat % 64 ≠ 0 → Traps i s 2 va)
    ∧ (va.toNat % 64 = 0 → q < 65536 → s.queueLaunches (s.partOfTile s.cur.val) q = false → Traps i s 8 (cfgTval 0xC 0xFF q))
    ∧ (va.toNat % 64 = 0 → s.queueLaunches (s.partOfTile s.cur.val) q = true → ∀ v t, s.seqLoad .global va 64 = (.ok v, t) →
        ∀ r, t.runOfTile s.cur.val = some r →
          ((r.launches.filter (fun l => l.tile == s.cur.val)).length < 8 → exec i s = .next
            (t.modRun r.gid (fun x => { x with
              launches := x.launches ++ [⟨s.cur.val, r.currentRound s.cur.val, q, leBytes 64 v⟩] })).passed)
          ∧ (8 ≤ (r.launches.filter (fun l => l.tile == s.cur.val)).length → ∃ u, exec i s = .next u
              ∧ u = t.modMe (fun m => { m with stall := u.me.stall }) ∧ u.me.stall.isSome = true))

/-! ### Rounds, loads, regions, units -/

/-- R144, R146, R147, R150, R157, R166, R138: the oldest uncommitted round commits, once it may, by writing its buffered stores, those of
the highest port last, and the round-completion word, and the next round is then the oldest (in one step, as the model chooses, log entry 85);
while a page that it writes moves it waits, and writes nothing; a round with a tagged token in it, one that has
overflowed and not begun to write, and the rounds of a killed graph do not commit; an overflowed oldest round writes what it has buffered,
but for a tagged datum. -/
def Obligations.RoundsCommitInOrder : Prop :=
  ∀ (s : State) (g : Word) (r : Run) (m : Fin 192), s.run g = some r →
    let n := r.oldest
    let info := r.round n
    let stored := (r.commitOrder n).foldl (fun z b => z.storeNow b) s
    ((∀ b, b ∈ r.commitOrder n ↔ b ∈ r.stores ∧ b.round = n) ∧ (r.commitOrder n).Pairwise (fun a b => a.port.toNat ≤ b.port.toNat))
    ∧ (∀ w, stored.writeRoundWord r (n + 1) = (true, w) → s.mayCommit r = true → s.commitHeld r = false → info.bad = none → (∀ l ∈ r.launches, l.round ≠ n) → (w.part (partOf r.part)).appends = [] →
        (∀ x ∈ r.rounds, n < x.number → x.reads = []) →
        exec (.roundCommit g) s = .next (w.modRun g (fun x => { x with
          oldest := n + 1, lastCommitted := some n
          stores := x.stores.filter (fun b => b.round != n)
          launches := x.launches.filter (fun l => l.round != n)
          streams := x.streams.map (fun y => { y with sent := y.sent.filter (fun z => n < z.1) })
          flags := if info.reported then x.flags ||| info.flags else x.flags })))
    ∧ (s.mayCommit r = true → s.commitHeld r = true → ∃ t, exec (.roundCommit g) s = .next t ∧ t.mem = s.mem ∧ t.mtiles = s.mtiles ∧ t.runs = s.runs)
    ∧ (r.launch.args = 0#64 → s.writeRoundWord r (n + 1) = (true, s))
    ∧ (info.tags ≠ [] ∨ (info.overflowed = true ∧ info.writing = false) ∨ r.freeze = some .kill
        ∨ (∃ b ∈ r.stores, b.round = n ∧ b.origin.isSome = true) → exec (.roundCommit g) s = .next s)
    ∧ (info.overflowed = true → info.writing = false → r.works = true → s.commitHeld r = false → info.overTile = some m.val ∨ 4096 ≤ (r.linesOf n m.val).length →
        let clean := ((r.commitOrder n).filter (fun b => b.origin.isNone)).foldl (fun z b => z.storeNow b) s
        ∃ t y, exec (.roundOverflow g m) s = .next t ∧ t.mem = clean.mem ∧ t.tags = clean.tags ∧ t.mtiles = clean.mtiles
          ∧ t.run g = some y ∧ (y.round n).writing = true ∧ y.oldest = n
          ∧ ∀ b, b ∈ y.stores ↔ b ∈ r.stores ∧ (b.round ≠ n ∨ b.origin.isSome = true))
    ∧ (info.overflowed = false ∨ info.writing = true ∨ r.works = false → exec (.roundOverflow g m) s = .next s)

/-- R396, R397, R398, R134, R136, R101, R103, R104, R353: a load that is asked to freeze is frozen once no reply is outstanding, its rounds and
stores kept, or its tiles freed when it is killed; with fewer than 64 graphs in the resume queue, a load frozen for a pre-emption or a page fault is saved whole and waits for resumption; 100 µs
after its earliest unresolved page fault a load freezes to be saved, or is killed with status 0x13 where its record does not fit; a load whose
end conditions hold completes with status 0; one that has stood still for 65,536 cycles freezes and is reported with status 4. -/
def Obligations.LoadsFreezeSaveAndEnd : Prop :=
  ∀ (s : State) (g : Word) (r : Run), s.run g = some r →
    let p := partOf r.part
    (∀ k, r.freeze = some k → r.frozen = false → r.finishing = false → (∀ y ∈ s.strandsOf r, s.awaitsReply y = false) →
        ∃ t y, exec (.freeze g) s = .next t ∧ t.mem = s.mem ∧ t.run g = some y
          ∧ (k ≠ .kill → y = { r with frozen := true, lastFire := s.ns })
          ∧ (k = .kill → y.tiles = [] ∧ ∀ z ∈ r.tiles, (t.seq (tileOf z.2)).mode = .idle
              ∧ ∀ j : Fin 8, (t.strand (tileOf z.2) j).state = .empty))
    ∧ (r.freeze = none ∨ r.frozen = true → exec (.freeze g) s = .next s)
    ∧ (∀ k, r.freeze = some k → r.frozen = true → k = .preempt ∨ k = .pageFault → (s.part p).resume.length < 64 →
        ∃ t v, exec (.contextScan g) s = .next t ∧ t.run g = none ∧ t.saved = s.saved ++ [v]
          ∧ v.run = { r with eclipseAtEnd := [] } ∧ v.tiles = r.tiles.map (fun y => (y.1, s.tile (tileOf y.2)))
          ∧ (t.part p).resume = (s.part p).resume ++
              [⟨g, decide (k = .preempt ∨ ∀ f ∈ (s.part p).faults, f.graph ≠ g), s.ns / 1024⟩]
          ∧ ∀ y ∈ r.tiles, (t.seq (tileOf y.2)).mode = .idle)
    ∧ (r.frozen = false → exec (.contextScan g) s = .next s)
    ∧ (∀ f ∈ (s.part p).faults, f.graph = g → (∀ x ∈ (s.part p).faults, x.graph = g → f.time ≤ x.time) →
        (s.ns < max f.time r.startNs + 100000 → exec (.pageFaultLimit g) s = .next s)
        ∧ (max f.time r.startNs + 100000 ≤ s.ns →
            (r.freeze = none → s.saveFits r = true → exec (.pageFaultLimit g) s =
              .next (s.modRun g (fun y => { y with freeze := some .pageFault, frozen := false })))
            ∧ (r.freeze = none → s.saveFits r = false → exec (.pageFaultLimit g) s = .next (s.kill g 0x13 0#8))
            ∧ (r.freeze = some .preempt → exec (.pageFaultLimit g) s =
              .next (s.modRun g (fun y => { y with freeze := some .pageFault })))))
    ∧ (s.loadEnded r = true → r.graph.loads ≤ r.load + 1 → r.faultSunk = none →
        ∃ t, exec (.fabricLoadEnd g) s = .next t ∧ t = s.completeRun r 0 0#8 ∧ t.run g = none
          ∧ ∀ y ∈ r.tiles, (t.seq (tileOf y.2)).mode = .idle)
    ∧ (r.freeze ≠ none ∨ (∃ y ∈ r.tiles, (s.seq (tileOf y.2)).mode ≠ .ended) ∨ (∃ j ∈ s.jobs, j.graph = g) →
        exec (.fabricLoadEnd g) s = .next s)
    ∧ (s.quiescent r = true → r.fault = none → (s.part p).diagBase = 0#64 →
        ((s.part p).pending.filter (fun x => decide (x.hook = .fault))).length < 64 →
        ∃ t y f, exec (.quiescenceTrip g) s = .next t ∧ t.run g = some y ∧ y.freeze = some .quiescence ∧ y.fault = some f ∧ f.status = 4#16
          ∧ f.graph = g ∧ y.stores = r.stores ∧ (t.part p).pending = (s.part p).pending ++ [⟨.fault, 0x21, f.slot, some f⟩])
    ∧ (r.freeze ≠ none ∨ (∃ y ∈ r.tiles, s.cyclesSince (islandOf y.2) r.lastFire < 65536) ∨ (∃ j ∈ s.jobs, j.graph = g)
        ∨ (∀ b ∈ s.sinksOf r, b = true) → exec (.quiescenceTrip g) s = .next s)

/-- R69, R71, R82: one cycle of a region in which no unit and no gated input has the slot only moves to the next slot, modulo the initiation
interval; at slot 0 of a closed space that nothing paces it issues an iteration, and the counters of the dimensions count as the digits of
one number, the innermost first. A region whose load is frozen does nothing. -/
def Obligations.RegionsAdvance : Prop :=
  (∀ ds : List (Nat × Nat), (∀ d ∈ ds, d.2 < d.1) →
    let rank (ix : List Nat) : Nat := (ds.zip ix).foldr (fun y acc => y.2 + y.1.1 * acc) 0
    let (ix, n) := carryDims ds
    n ≤ ds.length ∧ ix.length = ds.length
    ∧ (n < ds.length → rank ix = rank (ds.map (fun d => d.2)) + 1)
    ∧ (n = ds.length → (∀ i ∈ ix, i = 0) ∧ ∀ d ∈ ds, d.2 + 1 = d.1))
  ∧ ∀ (s : State) (t : Fin 192) (k : Fin 8) (x : RCtx) (p : Phase), s.rctx t k = some x → (s.strand t k).phase = some p →
    (s.running x.gid = false → exec (.regionAdvance t k) s = .next s)
    ∧ (s.running x.gid = true → (s.strand t k).state = .run → p.exhausted = false → p.ended = false →
        (∀ w ∈ x.image.gports, gpSlot w ≠ p.slot) →
        (∀ u, u < x.image.count → bwSlot (x.image.bind u) ≠ p.slot ∧ (s.unitAt x u).out = []) →
        let next := (p.slot + 1) % bII x.image.bindHeader
        (p.slot ≠ 0 → exec (.regionAdvance t k) s =
          .next (s.modPhase x (fun q => { q with slot := next, advances := q.advances + 1 })))
        ∧ (p.slot = 0 → p.blocked = false → s.inputless x = [] → (∀ n ∈ p.trips, n ≠ 0) →
            (carryDims (p.trips.zip p.index)).2 < p.trips.length →
            ∃ v q, exec (.regionAdvance t k) s = .next v ∧ (v.strand t k).phase = some q
              ∧ q.issued = p.issued + 1 ∧ q.current = p.index ∧ q.index = (carryDims (p.trips.zip p.index)).1
              ∧ q.exhausted = false ∧ q.slot = next ∧ q.advances = p.advances + 1 ∧ v.mem = s.mem))

/-- R99, R100, R257, R388, R334, R336: a context switch takes place once the reconfiguration marker has passed every unit, every replacement has
reached its consumer, every edge has drained and so has every engine: the new context is active and nothing is pending; mxa adds the products of a wavefront to every accumulator of its
bank; mxd takes a swap token, whose bank it then drains row by row. -/
def Obligations.ContextsSwitchAndTheMatrixCoreWorks : Prop :=
  ∀ (s : State) (t : Fin 192) (k : Fin 8) (x : RCtx) (p : Phase), s.rctx t k = some x → (s.strand t k).phase = some p →
    let core := (s.tile t).core
    (∀ c, (s.strand t k).shadow = .armed c → s.running x.gid = true →
        ((s.strand t k).partPending = true → (∀ u, u < x.image.count → (s.unitAt x u).reconf = true) → s.drained x = true →
          (∀ r, s.run x.gid = some r → ∀ y ∈ r.replays, ¬ (y.tile = t.val ∧ y.strand = k.val)) →
          (∀ j ∈ s.jobs, ¬ (j.tile = t.val ∧ j.strand = k.val)) → s.badContext t c = false →
          ∃ v, exec (.contextSwitch t k) s = .next v ∧ (v.strand t k).active = some c ∧ (v.strand t k).partPending = false
            ∧ (v.strand t k).firePending = none ∧ v.mem = s.mem ∧ (∀ y : Fin 192, v.seq y = s.seq y))
        ∧ ((s.strand t k).partPending = false ∨ (∃ j ∈ s.jobs, j.tile = t.val ∧ j.strand = k.val)
            ∨ (∃ r y, s.run x.gid = some r ∧ y ∈ r.replays ∧ y.tile = t.val ∧ y.strand = k.val) →
          exec (.contextSwitch t k) s = .next s))
    ∧ (∀ u, x.unitOf 0xC0 = some u → s.regionWorks x = true → x.unitOf 0xC2 = none → x.unitOf 0xC3 = none →
        let w := x.image.unit u
        let st := s.unitAt x u
        let fa := uFmt w
        let fb := fmtOf (uImm w % 16)
        core.swapPending = false → core.peErr = [] → core.group = 0 → (core.bank (oddBlock core.block)).state = .ready →
        u < ((s.strand t k).block x.key).length → st.round < (s.coreEnv x u).limit →
        ¬ 2 ∈ x.image.connected u → ¬ 3 ∈ x.image.connected u → bitOf (uImm w) 4 = false → bitOf (uImm w) 5 = false →
        ∀ a b ra rb, a.length = 16 → b.length = 16 → (∀ i ∈ a ++ b, i.isElem = true) →
          st.ports.getD 0 [] = a ++ ra → st.ports.getD 1 [] = b ++ rb → st.ports.getD 2 [] = [] → st.ports.getD 3 [] = [] →
          ∃ v, exec (.uMxa t k) s = .next v ∧ (v.unitAt x u).ports.getD 0 [] = ra ∧ (v.unitAt x u).ports.getD 1 [] = rb
            ∧ (v.tile t).core.block = core.block ∧ (v.tile t).core.group = 1 ∧ (v.tile t).core.opened = true
            ∧ ∀ pe, pe < 4096 → ((v.tile t).core.bank (oddBlock core.block)).values.get pe 0#48 =
                (accumulate fa fb ((core.bank (oddBlock core.block)).values.get pe 0#48) (rowElems fa (kGroup fa fb) (rowValue a (pe / 64)))
                  (rowElems fb (kGroup fa fb) (rowValue b (pe % 64))) 127 127).1)
    ∧ (∀ u, x.unitOf 0xC1 = some u → s.regionWorks x = true → x.unitOf 0xC2 = none → x.unitOf 0xC3 = none → (s.unitAt x u).out = [] →
        (∀ w rest, core.drain = none → core.staged = .inl w :: rest → ∃ v, exec (.uMxd t k) s = .next v
          ∧ (v.tile t).core.drain = some ⟨0, w⟩ ∧ (v.tile t).core.staged = rest ∧ (v.tile t).core.swapPending = false
          ∧ ((v.tile t).core.bank w.bank).state = .draining ∧ v.mem = s.mem)
        ∧ (∀ d, core.drain = some d → d.row < 63 → ∃ v, exec (.uMxd t k) s = .next v
          ∧ (v.tile t).core.drain = some { d with row := d.row + 1 } ∧ v.mem = s.mem))

/-- R303, R315, R331, R466, R120, R132, R329, R330, R151, R377, R379: in a load that works, a source, a FIFO-mode load and a memory unit give their
next token or bundle: the head of the injection port and of the FIFO as soon as it fits, the FIFO's words from their scratchpad slots and, beyond
those, as the spill area has them, and the words that a scratchpad request names; the reply to a withheld translation, which waits behind its xlat,
gives the unit its page, its fault, or a page-fault request, which a prefetch never posts; a withheld store issues when it may; a tagged
token that is read again without error is replaced at every consumer, once, and a second error on it is a kill. -/
def Obligations.SuppliersRepliesAndReplacements : Prop :=
  (∀ (s : State) (t : Fin 192) (k : Fin 8) (u : BitVec 7) (x : RCtx) (r : Run), s.rctx t k = some x → s.run x.gid = some r →
    s.running x.gid = true → u.toNat < x.image.count → u.toNat < ((s.strand t k).block x.key).length →
    let n := u.toNat
    let st := s.unitAt x n
    let w := x.image.unit n
    (uOp w = 0x88 → uImm w % 4 = 0 → ∀ q i rest,
        r.ports.find? (fun y => y.tile == t.val && y.strand == k.val && y.unit == n) = some q → q.items = i :: rest →
        (i.words.length ≤ supplyRoom x.image n st i.words.length → ∃ v y, exec (.uSource t k u) s = .next v ∧ (v.unitAt x n).reply = packQueue (bwThresh (x.image.bind n)) (st.reply ++ [i])
          ∧ v.run x.gid = some y ∧ (∀ z ∈ y.ports, z.tile = t.val → z.strand = k.val → z.unit = n → z.items = rest) ∧ v.mem = s.mem)
        ∧ (supplyRoom x.image n st i.words.length < i.words.length → exec (.uSource t k u) s = .next s))
    ∧ (∀ pl f i rest, (s.menv x n).place s = some pl → r.fifoUnit x.image n = true → x.image.spare n = false → st.upset = [] → st.dropped = [] →
        uPmode w = 0 →
        r.fifos.find? (isFifoOf pl) = some f → f.items = i :: rest →
        (i.words.length ≤ supplyRoom x.image n st i.words.length →
          (∀ k, k < min i.words.length f.extent → s.padBad f.mtile (s.fifoByte x.gid f k) 4 = false) → ∃ v y j, exec (.fifoModeLoad t k u) s = .next v
          ∧ (v.unitAt x n).reply = packQueue (bwThresh (x.image.bind n)) (st.reply ++ [j]) ∧ v.run x.gid = some y ∧ (∀ z ∈ y.fifos, isFifoOf pl z = true → z.items = rest)
          ∧ j.words.length = i.words.length
          ∧ (∀ w, w < i.words.length → j.words.getD w 0#32 =
              if w < f.extent then BitVec.ofNat 32 (leNat (s.padBytes f.mtile (s.fifoByte x.gid f w) 4)) else i.words.getD w 0#32)
          ∧ v.mem = s.mem)
        ∧ (supplyRoom x.image n st i.words.length < i.words.length → exec (.fifoModeLoad t k u) s = .next s))
    ∧ (∀ q qs, st.requests = q :: qs → r.stores = [] → q.scratch = true → q.more = none → q.copies ≤ 1 → 0 < q.words → q.stopAfter = false →
        st.upset = [] → st.dropped = [] →
        s.padBad (((s.menv x n).mtile).getD 0) q.address (4 * q.words) = false →
        ∃ v i, exec (.memoryReply t k u) s = .next v ∧ (v.unitAt x n).requests = qs ∧ (v.unitAt x n).reply = st.reply ++ [i]
          ∧ i.words = bytesToWords q.words (s.padBytes (((s.menv x n).mtile).getD 0) q.address (4 * q.words)) ∧ v.mem = s.mem)
    ∧ (st.requests = [] → exec (.memoryReply t k u) s = .next s)
    ∧ (∀ va wr, st.withheld = some ⟨none, va, wr, none⟩ →
        (∀ y, x.image.baseSource x.image.count n = some y → (s.unitAt x y).withheld = none ∧ st.behind ≤ (s.unitAt x y).core.count) →
        (∀ l b s1, s.leafFor ((s.menv x n).agent s) va .read = (.leaf l, b, s1) →
          ∃ v, exec (.retranslationReply t k u) s = .next v ∧ (v.unitAt x n).withheld = none ∧ v.mem = s.mem)
        ∧ (∀ b s1, s.leafFor ((s.menv x n).agent s) va .read = (.fault .notPresent, b, s1) →
          (uOp w ≠ 0xA6 → ∃ v tag, exec (.retranslationReply t k u) s = .next v ∧ (v.unitAt x n).withheld = some ⟨some tag, va, wr, none⟩)
          ∧ (uOp w = 0xA6 → ∃ v, exec (.retranslationReply t k u) s = .next v ∧ v.mem = s.mem
              ∧ ∀ p : Fin 16, (v.part p).faults = (s.part p).faults))
        ∧ (∀ e b s1, e ≠ .notPresent → s.leafFor ((s.menv x n).agent s) va .read = (.fault e, b, s1) →
          ∃ v, exec (.retranslationReply t k u) s = .next v ∧ (v.unitAt x n).withheld = some ⟨none, va, wr, some (faultCause e)⟩
            ∧ v.mem = s.mem))
    ∧ ((∃ y, x.image.baseSource x.image.count n = some y ∧ ((s.unitAt x y).withheld.isSome = true ∨ (s.unitAt x y).core.count < st.behind)) →
        exec (.retranslationReply t k u) s = .next s)
    ∧ (st.storeWait = true → (∀ v, s.fireOnce x n = some v → exec (.withheldStoreRelease t k u) s = .next v)
        ∧ (s.fireOnce x n = none → exec (.withheldStoreRelease t k u) s = .next s))
    ∧ (st.storeWait = false → exec (.withheldStoreRelease t k u) s = .next s))
  ∧ ∀ (s : State) (g : Word) (n : BitVec 16) (r : Run) (y : Replay) (x : RCtx), s.run g = some r → r.works = true → r.replays[n.toNat]? = some y →
      s.keyBlock (tileOf y.tile) (Fin.ofNat 8 y.strand) y.key = some x →
      let o := y.origin
      ((r.round o.round).wasRetried o = false →
        (∀ z ∈ r.replays, z.origin = o → uOp (x.image.unit z.unit) ≠ 0xA2 ∧ ∃ e ∈ x.image.edges, e.src = o.unit ∧ e.dst = z.unit) →
        o.pass = none → o.slot = none → o.scratch = true → s.padBad o.mtile o.address (4 * o.words) = false →
        ∃ v z, exec (.tokenReinjection g n) s = .next v ∧ v.run g = some z ∧ (∀ w ∈ z.replays, w.origin ≠ o)
          ∧ (z.round o.round).wasRetried o = true ∧ (∀ b ∈ z.stores, b.origin ≠ some o) ∧ v.mem = s.mem)
      ∧ (((r.round o.round).wasRetried o = true ∨ s.padBad o.mtile o.address (4 * o.words) = true) →
        o.pass = none → o.slot = none → o.scratch = true →
        exec (.tokenReinjection g n) s = .next ((if s.padBad o.mtile o.address (4 * o.words) = true then
          s.padMet o.mtile o.address (4 * o.words) else s).escalate g o true ((r.round o.round).retriesOf o.strand o.unit o.seq)))

/-- R139, R138, R414, R267, R427, R430: at the end of an epoch a die halves the counts of its hot pages, those that are hot no more being
dropped; a replica holds the bytes of its page and nothing else changes, and a collapsed page has none; a migrated page is at its new frame
(which frame a move takes is open, log entry 33; the data move in the step that completes it, log entry 24); the oldest queued job of an idle engine starts; a
copy within scratch windows moves its bytes, and its completion record holds value, status 0 and the count. -/
def Obligations.PagesMoveAndEnginesWork : Prop :=
  (∀ (s : State) (d : Fin 4),
    (s.ns / 1000000 ≤ s.epochs[d] → exec (.placementEpoch d) s = .next s)
    ∧ (s.epochs[d] < s.ns / 1000000 → ∃ v, exec (.placementEpoch d) s = .next v ∧ v.epochs = s.epochs.set d (s.ns / 1000000)
        ∧ v.hot = (s.hot.filter (fun h => h.home != d.val || s.stillHot h)).map (fun h => if h.home = d.val then { h with counts := h.counts.map (· / 2), writes := h.writes / 2 } else h)
        ∧ v.mem = s.mem ∧ s.moves <+: v.moves))
  ∧ (∀ (s : State) (n : BitVec 16) (m : Move), s.moves[n.toNat]? = some m →
    let size := pageBytes m.size
    let same (h : HotPage) : Prop := h.part = m.part ∧ h.ctx = m.ctx ∧ h.va = m.va
    (m.kind = .collapse → ∃ v, exec (.pageMove n) s = .next v ∧ v.moves = s.moves.erase m ∧ v.mem = s.mem ∧ v.tags = s.tags
      ∧ ∀ h ∈ v.hot, same h → h.replicas = [])
    ∧ (s.mem.wf = true → s.Decodable → m.source % size = 0 → m.dest % size = 0 → m.source ≠ m.dest → m.source + size ≤ 2 ^ 39 →
        m.dest + size ≤ 2 ^ 39 →
        (m.kind = .replicate → ∃ v, exec (.pageMove n) s = .next v ∧ v.moves = s.moves.erase m
          ∧ (∀ o, o < size → v.physByte (m.dest + o) = s.physByte (m.source + o))
          ∧ (∀ a, a < m.dest ∨ m.dest + size ≤ a → v.physByte a = s.physByte a))
        ∧ (∀ l, m.kind = .migrate → s.walk ⟨s.homeDie (partOf m.part), partOf m.part, m.ctx, false⟩ m.va = .leaf l → l.frame = m.source → l.size = m.size →
            l.entry.getLsbD 8 = false → l.entryAt % 8 = 0 → l.entryAt + 8 ≤ m.source ∨ m.source + size ≤ l.entryAt →
            l.entryAt + 8 ≤ m.dest ∨ m.dest + size ≤ l.entryAt →
            ∃ v, exec (.pageMove n) s = .next v ∧ v.moves = s.moves.erase m
              ∧ (∀ o, o < size → v.physByte (m.dest + o) = s.physByte (m.source + o))
              ∧ (let e : DWord := BitVec.ofNat 64 (leNat (v.physBytes l.entryAt 8))
                 let e0 : DWord := BitVec.ofNat 64 (leNat (s.physBytes l.entryAt 8))
                 e.extractLsb' 16 40 = BitVec.ofNat 40 (m.dest / 4096) ∧ e.extractLsb' 0 16 = e0.extractLsb' 0 16
                   ∧ e.extractLsb' 56 8 = e0.extractLsb' 56 8)
              ∧ (∀ a, (a < m.dest ∨ m.dest + size ≤ a) → (a < l.entryAt ∨ l.entryAt + 8 ≤ a) → v.physByte a = s.physByte a))))
  ∧ ∀ (s : State) (e : EngineName),
    (∀ before j after, s.jobs = before ++ j :: after → j.engine = e → (∀ y ∈ s.jobs, y.engine = e → y.started = false) → s.jobRuns j = true →
        (∀ y ∈ before, y.engine = e → s.jobRuns y = false) →
        exec (.engineJobStart e) s = .next { s with jobs := before ++ { j with started := true } :: after })
    ∧ ((∃ y ∈ s.jobs, y.engine = e ∧ y.started = true) → exec (.engineJobStart e) s = .next s)
    ∧ ((∀ y ∈ s.jobs, y.engine = e → y.started = false) → exec (.engineJobComplete e) s = .next s)
    ∧ (∀ j (c : Fin 192), s.jobs.find? (fun y => decide (y.engine = e) && y.started && s.jobRuns y) = some j → j.withheld = none → e = .copy c →
        ∀ (src dst done n m1 m2 m3 a b d : Nat), src + n ≤ 2 ^ 63 → dst + n ≤ 2 ^ 63 → done + 16 ≤ 2 ^ 63 →
          cardNat j.card 16 8 = 2 ^ 63 + src → cardNat j.card 24 8 = 2 ^ 63 + dst → cardNat j.card 8 8 = 2 ^ 63 + done → cardNat j.card 32 4 = n →
          (∀ i, i < n → s.scratchPlace j.tile (BitVec.ofNat 64 (src + i)) 1 = some (m1, a + i) ∧ s.padBad m1 (a + i) 1 = false
            ∧ s.scratchPlace j.tile (BitVec.ofNat 64 (dst + i)) 1 = some (m2, b + i)) →
          (∀ i, i < 16 → s.scratchPlace j.tile (BitVec.ofNat 64 (done + i)) 1 = some (m3, d + i)) →
          (src + n ≤ dst ∨ dst + n ≤ src) → (m1 ≠ m2 ∨ a + n ≤ b ∨ b + n ≤ a) → (m2 ≠ m3 ∨ b + n ≤ d ∨ d + 16 ≤ b) →
          m1 < 192 → m2 < 192 → m3 < 192 → (∀ m, (s.mtile m).bytes.wf = true) →
          ∃ v, exec (.engineJobComplete e) s = .next v ∧ v.jobs = s.jobs.erase j ∧ v.mem = s.mem
            ∧ (∀ i, i < n → (v.mtile m2).bytes.read (b + i) = (s.mtile m1).bytes.read (a + i))
            ∧ leNat ((v.mtile m3).bytes.readN d 4) = cardNat j.card 4 4
            ∧ leNat ((v.mtile m3).bytes.readN (d + 4) 4) = 0 ∧ leNat ((v.mtile m3).bytes.readN (d + 8) 8) = n)

/-! ### Protection classes -/

/-- R221, R250, R370, R372, R373, R389: what a disturbed ALU does to an instruction of each class. A single one does not see ALUs 1 and 2, and a
dual one does not see ALU 2. Where the two ALUs of a dual one differ, or no two of the three of a triple one agree, the instruction has no effect
and its graph is killed; where one of the three is the minority, the instruction has its effect and the minority is told to the sequencer (cause
7). A reply that the two ALUs of a dual load receive differently is such a mismatch at writeback. The killed graph has the sequencer as its
suspect, which is eclipsed, status 2 and no uncommitted store; no trap is taken. That an upset of an ALU is a value that its results carry is
the choice of the model (log entry 6). -/
def Obligations.ProtectionClassesCompareTheAlus : Prop :=
  (∀ (s : State) (i : Instr) (w : Word), encodeSeq i = some w →
    let e := s.me.aluErr
    let u := s.modMe (fun q => { q with aluErr := Vector.replicate 3 0#64 })
    let c := w.extractLsb' 30 2
    (c = 0#2 → e[0] = 0#64 → exec i s = exec i u)
    ∧ (c = 1#2 → e[0] = 0#64 → e[1] = 0#64 → exec i s = exec i u)
    ∧ (c = 1#2 → e[0] ≠ e[1] → ∃ point, (point = 4 ∨ point = 5) ∧ exec i s = .next (u.seqMismatch 2 point))
    ∧ (c = 2#2 → e[0] ≠ e[1] → e[0] ≠ e[2] → e[1] ≠ e[2] → ∃ point, (point = 4 ∨ point = 5) ∧ exec i s = .next (u.seqMismatch 4 point))
    ∧ (∀ k : Fin 3, c = 2#2 → e[k] ≠ 0#64 → (∀ j : Fin 3, j ≠ k → e[j] = 0#64) →
        ∃ point v, (point = 4 ∨ point = 5) ∧ exec i u = .next v ∧ exec i s = .next (v.seqMinority point)))
  ∧ (∀ (s : State) (d b : BitVec 5) (o sc : BitVec 2) (v : Nat) (t : State), s.me.aluErr = Vector.replicate 3 0#64 →
      t.me.lateErr[0] ≠ t.me.lateErr[1] → (s.me.rd b).toNat % 8 = 0 → s.noPath .global (s.me.rd b) .read = false → o = 0#2 ∨ o = 1#2 →
      s.seqLoad .global (s.me.rd b) 8 = (.ok v, t) →
      exec (.ldOrdered 1#2 d b o sc 3#2) s = .next ((t.modMe (fun q => { q with lateErr := Vector.replicate 3 0#64 })).seqMismatch 2 4))
  ∧ ∀ (s : State) (kind point : Nat) (r : Run), s.runOfTile s.cur.val = some r → s.run r.gid = some r →
      let id := seqId s.cur.val
      let p := partOf r.part
      let t := s.seqMismatch kind point
      let m := s.seqMinority point
      (r.faulted = false → ((s.part p).pending.filter (fun x => decide (x.hook = .fault))).length < 64 →
        t.me.regs = s.me.regs ∧ t.me.preds = s.me.preds ∧ t.me.pc = s.me.pc ∧ t.me.held = s.me.held ∧ t.eclipsed id = true
        ∧ ∃ y f, t.run r.gid = some y ∧ y.freeze = some .kill ∧ y.frozen = false ∧ y.suspect = id ∧ y.stores = [] ∧ y.fault = some f
          ∧ f.kind = kind ∧ f.status = 2#16 ∧ (t.part p).pending = (s.part p).pending ++ [⟨.fault, 0x21, f.slot, some f⟩])
      ∧ m.me.regs = s.me.regs ∧ m.me.preds = s.me.preds ∧ m.me.pc = s.me.pc
      ∧ m.me.held = s.me.held ++ [(7, ((s.part p).el.tail).setWidth 64)]

/-! ### The almanac -/

/-- R365: the almanac's arithmetic: each instruction writes one register of the running invocation, modulo 2^32, takes one cycle and
goes on by its code words; nothing else changes. And its control flow: a branch goes to the word after it plus off7 when its condition holds,
ending the loops whose body it leaves; loop.n opens a loop that runs k + 1 times, and endl goes back to its body while iterations remain. -/
def Obligations.AlmanacArithmeticAndControlFlow : Prop :=
  (∀ (s : State) (v : Invocation) (d a b : BitVec 3) (x : BitVec 16), s.invocation = some v →
    let A := v.regs[a.toFin]
    let B := v.regs[b.toFin]
    let D := v.regs[d.toFin]
    let gives (i : Instr) (n : Nat) (ok : Word → Prop) : Prop := ∃ r, exec i s = .next (s.withInv (v.wrote d n r)) ∧ ok r
    let is (k : Nat) (r : Word) : Prop := r.toNat = k % 2 ^ 32
    gives (.almAdd d a b) 1 (is (A.toNat + B.toNat))
    ∧ gives (.almSub d a b) 1 (is (A.toNat + 2 ^ 32 - B.toNat))
    ∧ gives (.almAnd d a b) 1 (fun r => ∀ k, k < 32 → r.getLsbD k = (A.getLsbD k && B.getLsbD k))
    ∧ gives (.almOr d a b) 1 (fun r => ∀ k, k < 32 → r.getLsbD k = (A.getLsbD k || B.getLsbD k))
    ∧ gives (.almXor d a b) 1 (fun r => ∀ k, k < 32 → r.getLsbD k = (A.getLsbD k != B.getLsbD k))
    ∧ gives (.almShl d a b) 1 (is (A.toNat * 2 ^ (B.toNat % 32)))
    ∧ gives (.almShr d a b) 1 (is (A.toNat / 2 ^ (B.toNat % 32)))
    ∧ gives (.almMin d a b) 1 (is (min A.toNat B.toNat))
    ∧ gives (.almMax d a b) 1 (is (max A.toNat B.toNat))
    ∧ gives (.almMul d a b) 1 (is (A.toNat * B.toNat))
    ∧ gives (.almAddi d a x) 2 (fun r => (r.toNat : Int) = ((A.toNat : Int) + x.toInt) % 2 ^ 32)
    ∧ gives (.almLi d x) 2 (fun r => r.toInt = x.toInt)
    ∧ gives (.almLih d x) 2 (is (x.toNat * 2 ^ 16 + D.toNat % 2 ^ 16))
    ∧ gives (.almMov d a) 1 (fun r => r = A)
    ∧ gives (.almSltu d a b) 1 (is (if A.toNat < B.toNat then 1 else 0))
    ∧ gives (.almSlt d a b) 1 (is (if A.toInt < B.toInt then 1 else 0))
    ∧ gives (.almSeq d a b) 1 (is (if A = B then 1 else 0))
    ∧ gives (.almCsel d a b) 1 (fun r => r = if D = 0#32 then B else A)
    ∧ gives (.almPopc d a) 1 (is (((List.range 32).filter (fun k => A.getLsbD k)).length))
    ∧ gives (.almFfs d a) 1 (fun r => r.toNat ≤ 32 ∧ (∀ k, k < r.toNat → A.getLsbD k = false) ∧ (r.toNat < 32 → A.getLsbD r.toNat = true)))
  ∧ ∀ (s : State) (v : Invocation) (a : BitVec 3) (o : BitVec 7) (k : BitVec 4), s.invocation = some v →
    let next : Invocation := { v with pc := v.pc + 1, cycles := v.cycles + 1 }
    let target := v.pc + 1 + o.toNat
    let taken : Invocation :=
      { v with pc := target, cycles := v.cycles + 1, loops := v.loops.filter (fun l => decide (l.1 ≤ target ∧ target < l.2.1)) }
    exec (.almBz o a) s = .next (s.withInv (if v.regs[a.toFin] = 0#32 then taken else next))
    ∧ exec (.almBnz o a) s = .next (s.withInv (if v.regs[a.toFin] = 0#32 then next else taken))
    ∧ exec (.almJmp o) s = .next (s.withInv taken)
    ∧ (∃ after, exec (.almLoopN k) s = .next (s.withInv { next with loops := (v.pc + 1, after, k.toNat) :: v.loops }))
    ∧ (∀ start after n rest, v.loops = (start, after, n) :: rest →
        exec .almEndl s = .next (s.withInv (if n = 0 then { next with loops := rest }
          else { next with pc := start, loops := (start, after, n - 1) :: rest })))
    ∧ (v.loops = [] → exec .almEndl s = .next (s.withInv next))

/-- R356, R365, R366: the view reads answer from the views that the invocation began with: queue depths, head records, free and eclipsed
tiles, the partition's numbers, the fault delivered, the persistent words as the last end left them, the invocation and the running
slots; 0 where there is none. wrp is only noted. -/
def Obligations.AlmanacViewsReadTheSnapshot : Prop :=
  ∀ (s : State) (v : Invocation) (d a : BitVec 3) (f : BitVec 4), s.invocation = some v →
    let n := (v.regs[a.toFin]).toNat
    Views (.almRdq d a) s v d (v.view.depths.getD n 0#32)
    ∧ (f.toNat ≤ 6 → Views (.almRdh d a f) s v d (match v.view.heads[n]? with
        | some (some h) => ([1#32, h.priority, h.deadline, h.demand, BitVec.ofNat 32 (min (v.view.now - h.since) (2 ^ 32 - 1)), h.seq,
            if h.resume then 1#32 else 0#32]).getD f.toNat 0#32
        | _ => 0#32))
    ∧ Views (.almRdfree d a) s v d (if n ≤ 5 then BitVec.ofNat 32 (v.view.free.toNat / 2 ^ (32 * n)) else 0#32)
    ∧ (f.toNat ≤ 6 → Views (.almRdquota d f) s v d (v.view.quota.getD f.toNat 0#32))
    ∧ Views (.almRdecl d a) s v d (if n ≤ 5 then BitVec.ofNat 32 (v.view.eclCore.toNat / 2 ^ (32 * n))
        else if n ≤ 11 then BitVec.ofNat 32 (v.view.eclSeq.toNat / 2 ^ (32 * (n - 6))) else 0#32)
    ∧ Views (.almRdflt d f) s v d (match v.trigger.fault with
        | some x => ([BitVec.ofNat 32 x.kind, x.status.setWidth 32, x.graph, BitVec.ofNat 32 (x.queue + x.load * 65536), x.suspect,
            x.ctx.setWidth 32, x.lastRound, x.round, x.timestamp, BitVec.ofNat 32 x.relaunches, x.origin, x.demand, x.priority, x.deadline,
            x.log, if x.eclipsed then 1#32 else 0#32]).getD f.toNat 0#32
        | none => 0#32)
    ∧ Views (.almRdp d f) s v d ((s.part s.curPart).persist[f.toFin])
    ∧ (f.toNat ≤ 6 → Views (.almRdinv d f) s v d ([BitVec.ofNat 32 (match v.trigger.hook with
        | .dispatch => 0
        | .preempt => 1
        | .fault => 2), BitVec.ofNat 32 v.trigger.code, v.trigger.subject, BitVec.ofNat 32 v.view.now, BitVec.ofNat 32 v.view.overruns,
          v.view.generation, v.view.invocations].getD f.toNat 0#32))
    ∧ (f.toNat ≤ 7 → Views (.almRdrun d a f) s v d (match v.view.runs[n]? with
        | some (some r) => ([1#32, r.graph, r.priority, r.deadline, r.origin, r.demand, BitVec.ofNat 32 (v.view.now - r.since),
            BitVec.ofNat 32 r.state]).getD f.toNat 0#32
        | _ => 0#32))
    ∧ exec (.almWrp a f) s = .next (s.withInv
        { v with pc := v.pc + 1, cycles := v.cycles + 1, writes := v.writes ++ [(f.toNat, v.regs[a.toFin])] })

/-- R357, R361, R362, R454: end closes the invocation: its persistent writes take effect, the overrun count is 0 again, and its decision
is applied, but for an on_dispatch decision while completion records wait, which is deferred. A decision of 0 changes nothing more. -/
def Obligations.AlmanacEndAppliesItsWritesAndDecision : Prop :=
  ∀ (s : State) (v : Invocation), s.invocation = some v →
    let p := s.curPart
    let closed := s.modPart p (fun x => { x with inv := none, overruns := 0, persist := putWords x.persist v.writes })
    let a7 := v.regs[7]
    let a6 := v.regs[6]
    (v.trigger.hook = .dispatch → (s.part p).waiting ≠ [] →
      exec .almEnd s = .next (closed.modPart p (fun x => { x with deferred := some (a7, a6) })))
    ∧ (v.trigger.hook ≠ .dispatch ∨ (s.part p).waiting = [] → exec .almEnd s = .next (closed.applyDecision p v.trigger a7 a6))
    ∧ (a7 = 0#32 → v.trigger.fault = none → closed.applyDecision p v.trigger a7 a6 = closed)
    ∧ (∀ i : Fin 16, (closed.part p).persist[i] =
        ((v.writes.filter (fun w => decide (w.1 % 16 = i.val))).getLast?.map (fun w => w.2)).getD ((s.part p).persist[i]))

/-! ### Launch queues and hooks -/

/-- R342, R343, R345: the queue registers: a tail ahead of the old one by 1 to 2^31 − 1 is taken on a host-owned queue and any other
write counted as stale, saturating; a head is written, with the tail, only while the queue is disabled; the stale count clears; enabling
a queue with a valid configuration writes it, with an invalid one sets its PQERR bit and leaves it disabled. That a partition that has not
been formed ignores them (log entry 41), and that a head written drops what was read of the old head record (log entry 32), are the choice of
the model. -/
def Obligations.QueueRegistersTakeTheirWrites : Prop :=
  ∀ (s : State) (p : Fin 16) (q : Fin 64) (v : Word) (c : DWord),
    let x := (s.part p).queues[q]
    ((s.part p).formed = true →
      (x.deviceOwned = false → 0 < (v - x.tail).toNat → (v - x.tail).toNat < 2 ^ 31 →
        exec (.qtailWrite p q v) s = .next (s.modQueue p q (fun y => { y with tail := v })))
      ∧ (x.deviceOwned = true ∨ v = x.tail ∨ 2 ^ 31 ≤ (v - x.tail).toNat →
        exec (.qtailWrite p q v) s = .next (s.modQueue p q (fun y => { y with stale := BitVec.ofNat 32 (min (y.stale.toNat + 1) (2 ^ 32 - 1)) })))
      ∧ (x.enabled = false →
        exec (.qheadWrite p q v) s = .next (s.modQueue p q (fun y => { y with head := v, tail := v, eligible := none, deadlineSent := false })))
      ∧ (x.enabled = true → exec (.qheadWrite p q v) s = .next s)
      ∧ exec (.qstaleClear p q) s = .next (s.modQueue p q (fun y => { y with stale := 0#32 }))
      ∧ (x.enabled = false → c.getLsbD 6 = true → queueCfgOk x.base c = true →
          exec (.queueEnable p q c) s = .next (s.modQueue p q (fun y => { y with cfg := c })))
      ∧ (x.enabled = false → c.getLsbD 6 = true → queueCfgOk x.base c = false → ∃ t, exec (.queueEnable p q c) s = .next t
          ∧ (t.part p).pqerr = (s.part p).pqerr ||| (1#64 <<< q.val) ∧ ((t.part p).queues[q]).enabled = false
          ∧ t = (s.modQueue p q (fun _ => (t.part p).queues[q])).modPart p (fun y => { y with pqerr := (t.part p).pqerr }))
      ∧ (x.enabled = true → c.getLsbD 6 = true → exec (.queueEnable p q c) s = .next s))
    ∧ ((s.part p).formed = false → exec (.qtailWrite p q v) s = .next s ∧ exec (.qheadWrite p q v) s = .next s
        ∧ exec (.qstaleClear p q) s = .next s ∧ exec (.queueEnable p q c) s = .next s)

/-- R345, R346: the head of an enabled queue whose tail lies ahead, read whole with its own sequence number, no reserved flag, a demand of
1 to 192 tiles and its prerequisites met, becomes eligible at the dispatch time with its two triggers; a record with a bad demand or
reserved flags is consumed with status 0x10; the re-read does the same every 1,024 ns, and a write to a line that only one waiting head
watches reads that head. -/
def Obligations.HeadsBecomeEligible : Prop :=
  ∀ (s t : State) (p : Fin 16) (q : Fin 64) (bs : List Byte) (a : BitVec 52),
    let x := (s.part p).queues[q]
    let g := s.unitAgent p x.ctx
    let r := launchRec bs
    ((s.part p).formed = true → x.headWaits = true → s.virtRead g x.headAddr 64 .read = (.ok bs, t) → r.seq = x.head →
      (field r.flags 7 2 = 0 → 1 ≤ r.demand.toNat → r.demand.toNat ≤ 192 →
        ∀ u w, t.prereq g (r.flags.getLsbD 0) r.ev0 r.th0 = (.met, u) → u.prereq g (r.flags.getLsbD 1) r.ev1 r.th1 = (.met, w) →
          let done := ((w.modQueue p q (fun y => { y with eligible := some (r, s.ns / 1024), deadlineSent := false })).trigger p .preempt 0x11
            (BitVec.ofNat 32 q.val)).trigger p .dispatch 0x01 (BitVec.ofNat 32 q.val)
          exec (.headEligible p q) s = .next done ∧ (s.ns % 1024 = 0 → exec (.headReread p q) s = .next done))
      ∧ (field r.flags 7 2 ≠ 0 ∨ r.demand = 0#16 ∨ 192 < r.demand.toNat → (s.part p).waiting = [] →
          exec (.headEligible p q) s = .next (t.failRecord p q r 0x10 0xFFFF_FFFF#32)))
    ∧ ((∀ y : Fin 16, ∀ z : Fin 64, ((s.part y).formed = true ∧ s.watchesLine y z (a.toNat / 64) = true) ↔ (y = p ∧ z = q)) →
        exec (.observedLineWrite a) s = .next (s.readHead p q))

/-- R354, R355: a trigger is added to the pending ones of a partition unless one that it coalesces with waits; 2 ms of device time after the
dispatch, resume or last quantum of a graph its slot triggers on_preempt with code 0x12, and not before; an eligible head triggers it once with
code 0x13 when its deadline less the margin of the partition is reached. That a coalesced trigger leaves the code and subject of the first is a
reading (log entry 20). -/
def Obligations.TriggersCoalesceAndFireInTime : Prop :=
  (∀ (s : State) (p : Fin 16) (code : Nat) (subject : Word),
      let x := s.part p
      ((∃ y ∈ x.pending, y.hook = .dispatch) → s.trigger p .dispatch code subject = s)
      ∧ ((∀ y ∈ x.pending, y.hook ≠ .dispatch) →
          s.trigger p .dispatch code subject = s.modPart p (fun z => { z with pending := z.pending ++ [⟨.dispatch, code, subject, none⟩] }))
      ∧ ((∃ y ∈ x.pending, y.hook = .preempt ∧ y.code = code ∧ y.subject = subject) → s.trigger p .preempt code subject = s)
      ∧ ((∀ y ∈ x.pending, ¬ (y.hook = .preempt ∧ y.code = code ∧ y.subject = subject)) →
          s.trigger p .preempt code subject = s.modPart p (fun z => { z with pending := z.pending ++ [⟨.preempt, code, subject, none⟩] })))
  ∧ (∀ (s : State) (p : Fin 16) (k : Fin 32) (q : Fin 64),
      (∀ r, s.runs.find? (fun x => x.part == p.val && x.slot == k.val) = some r → r.freeze = none →
        (r.quantumNs + 2000000 ≤ s.ns → exec (.quantumExpiry p k) s =
          .next ((s.modRun r.gid (fun y => { y with quantumNs := s.ns })).trigger p .preempt 0x12 (BitVec.ofNat 32 k.val)))
        ∧ (s.ns < r.quantumNs + 2000000 → exec (.quantumExpiry p k) s = .next s))
      ∧ (∀ r n, ((s.part p).queues[q]).eligible = some (r, n) → ((s.part p).queues[q]).deadlineSent = false → r.deadline ≠ 0#32 →
          ((BitVec.ofNat 32 (s.ns / 1024) - (r.deadline - (s.part p).margin)).toNat < 2 ^ 31 → exec (.deadlineTrigger p q) s =
            .next ((s.modQueue p q (fun y => { y with deadlineSent := true })).trigger p .preempt 0x13 (BitVec.ofNat 32 q.val)))
          ∧ (2 ^ 31 ≤ (BitVec.ofNat 32 (s.ns / 1024) - (r.deadline - (s.part p).margin)).toNat → exec (.deadlineTrigger p q) s = .next s)))

/-- R355, R356, R361, R362, R364: the pending invocation of the partition whose turn it is starts at its hook's entry with registers 0 and the
partition's views as they stand, a fault's last committed round among them, or is decided by the fallback where no almanac is loaded or it is sticky; at 4,096 cycles it is discarded, the fallback decides, and the
third overrun in a row makes the fallback sticky; a swap waits for the running invocation and then takes the staged almanac, the
persistent words kept or set to 0, and triggers on_dispatch with code 3. The turn of a partition among those that wait is a reading (log entry 49). -/
def Obligations.InvocationsStartOverrunAndSwap : Prop :=
  ∀ (s : State) (p : Fin 16),
    let x := s.part p
    let die := Fin.ofNat 4 (s.homeDie p)
    let rank (q : Fin 16) : Nat := (q.val + 15 - s.served[die]) % 16
    (s.servesNext p = true ↔ ∀ q, q ≠ p → s.homeDie q = s.homeDie p → s.mayInvoke q = true → rank p < rank q)
    ∧ (s.servesNext p = false → exec (.almanacInvocation p) s = .next s)
    ∧ (x.formed = true → x.inv = none → x.swapRequest = none → ∀ t, s.nextTrigger p = some t → s.faultReady t = true → s.servesNext p = true →
      let now : Trigger := { t with fault := t.fault.map (fun f => match s.run f.graph with
        | some r => { f with lastRound := r.lastRoundWord }
        | none => f) }
      let s1 := ({ s with served := s.served.set die p.val } : State).modPart p (fun y => { y with
        pending := y.pending.erase t, invocations := y.invocations + 1#32 })
      (∀ a, x.stickyFallback = false → x.almanac = some a → exec (.almanacInvocation p) s = .next
        (s1.modPart p (fun y => { y with inv := some ⟨now, s.snapshot p, Vector.replicate 8 0#32, (match t.hook with
          | .dispatch => a.onDispatch
          | .preempt => a.onPreempt
          | .fault => a.onFault), [], [], 0⟩ })))
      ∧ (x.stickyFallback = true ∨ x.almanac = none → exec (.almanacInvocation p) s = .next (s1.fallback p now)))
    ∧ (∀ v, x.inv = some v →
        (4096 ≤ v.cycles → exec (.invocationOverrun p) s = .next ((s.modPart p (fun y => { y with
          inv := none, overruns := y.overruns + 1, stickyFallback := y.stickyFallback || decide (3 ≤ y.overruns + 1) })).fallback p v.trigger))
        ∧ (v.cycles < 4096 → exec (.invocationOverrun p) s = .next s)
        ∧ exec (.almanacSwap p) s = .next s)
    ∧ (∀ keep, x.inv = none → x.swapRequest = some keep → exec (.almanacSwap p) s = .next ((s.modPart p (fun y => { y with
        almanac := y.shadow, shadow := none, swapRequest := none, overruns := 0, stickyFallback := false, generation := y.generation + 1#32
        persist := if keep then y.persist else Vector.replicate 16 0#32 })).trigger p .dispatch 0x03 0xFFFF_FFFF#32))

/-! ### The sequencer's events -/

/-- R249, R164, R177, R245, R266, R268, R269: a stalled instruction executes again from its start when its stall ends: an atomic or ev.add once its
round is the oldest uncommitted one and no asynchronous trap is to be taken first, a sleeping wait at a wake, or, on an uncached host page,
after 1,024 cycles, every other at its release, where an engine instruction goes on with the card that it has read, and launch with its record. -/
def Obligations.StalledInstructionsExecuteAgain : Prop :=
  ∀ (s : State) (t : Fin 192) (i : Instr) (since : Nat), (s.seq t).mode = .running → (s.seq t).sleeping = none →
    s.tileFrozen t.val = false →
    let here : State := { s with cur := t }
    let trapFirst := (s.seq t).sv = false ∧ (s.seq t).held ≠ []
    (∀ k, k = .retry ∨ k = .switch → (s.seq t).stall = some ⟨i, k, since⟩ → releasable i = true → awaitsRound i = false ∨ ¬ trapFirst →
      ExecutesAgain (.stallRelease t) i s t)
    ∧ (∀ m card n p a k, (n, i) ∈ [(0, Instr.engCopy p a k), (1, .engDcmp p a k), (2, .engVdec p a k), (3, .engXfm p a k)] →
        (s.seq t).stall = some ⟨i, .kept m card, since⟩ → ∀ e, here.chooseEngine (here.gidOfTile t.val) t.val m n card = some e →
        exec (.stallRelease t) s = .next (s.singleStep ({ here.openStream (here.gidOfTile t.val) t.val n e card with
          jobs := s.jobs ++ [⟨e, here.gidOfTile t.val, t.val, k.toNat, ((s.tile t).strands[k.toFin]).active, card, false, none⟩] } : State).passed t))
    ∧ (∀ q bytes p a b, i = .launch p a b → (s.seq t).stall = some ⟨i, .kept q bytes, since⟩ → ∀ r, s.runOfTile t.val = some r →
        (r.launches.filter (fun l => l.tile == t.val)).length < 8 →
        exec (.stallRelease t) s = .next (s.singleStep (here.modRun r.gid (fun x => { x with
          launches := x.launches ++ [⟨t.val, r.currentRound t.val, q, bytes⟩] })).passed t))
    ∧ ((s.seq t).stall = some ⟨i, .round, since⟩ → awaitsRound i = true →
        (here.roundReady = true → ¬ trapFirst → ExecutesAgain (.amoPerform t) i s t)
        ∧ (here.roundReady = false ∨ trapFirst → exec (.amoPerform t) s = .next s))
    ∧ (∀ line, (s.seq t).stall = some ⟨i, .sleep line false, since⟩ → awaitsLine i = true → ExecutesAgain (.waitAddrWake t) i s t)
    ∧ (∀ line, (s.seq t).stall = some ⟨i, .sleep line true, since⟩ → awaitsLine i = true →
        (since + 1024 ≤ s.tileCycles t.val → ExecutesAgain (.waitAddrPoll t) i s t)
        ∧ (s.tileCycles t.val < since + 1024 → exec (.waitAddrPoll t) s = .next s))

/-- R390, R392, R404: a held trap of the lowest code is entered at user privilege, with sy.epc the instruction that would have executed
next, and at supervisor privilege none is; the watchdog traps (code 11) a watched instruction that has stalled 2^28 cycles at user
privilege; 2^20 cycles at supervisor privilege kill the graph with status 0x0D; a fetch shootdown that has waited 65,536 cycles forces a
block boundary. -/
def Obligations.AsynchronousTrapsAndWatchdogs : Prop :=
  ∀ (s : State) (t : Fin 192), s.executes t = true →
    let q := s.seq t
    (q.sv = true ∨ q.held = [] → exec (.asyncTrap t) s = .next s)
    ∧ (q.sv = false → ∀ code v, (code, v) ∈ q.held → (∀ x ∈ q.held, code < x.1 ∨ x = (code, v)) →
        exec (.asyncTrap t) s = .next ((s.modSeq t (fun x => { x with held := q.held.erase (code, v) })).trapAt t code q.pc v))
    ∧ (∀ i k since, q.stall = some ⟨i, k, since⟩ →
        (q.sv = false → watched i = true → since + 2 ^ 28 ≤ s.tileCycles t.val → exec (.watchdog t) s = .next (s.trapAt t 11 q.pc 0#64))
        ∧ (q.sv = true ∨ watched i = false ∨ s.tileCycles t.val < since + 2 ^ 28 → exec (.watchdog t) s = .next s))
    ∧ (q.sv = true → q.svSince + 2 ^ 20 ≤ s.tileCycles t.val → ∀ r, s.runOfTile t.val = some r →
        exec (.supervisorWatchdog t) s = .next (({ s with cur := t } : State).kill r.gid 0x0D 0#8))
    ∧ (q.sv = false ∨ s.tileCycles t.val < q.svSince + 2 ^ 20 → exec (.supervisorWatchdog t) s = .next s)
    ∧ ((∃ x ∈ q.shoots, x.2 + 65536 ≤ s.tileCycles t.val) → exec (.forcedBlockBoundary t) s = .next (s.modSeq t Seq.boundary))
    ∧ ((∀ x ∈ q.shoots, s.tileCycles t.val < x.2 + 65536) → exec (.forcedBlockBoundary t) s = .next s)

/-- R129, R404, R459: a shootdown command takes the next number and waits, fetch shootdowns at every sequencer of the partition that runs
in the context; a seventeenth sets the overflow bit and is lost; commands complete in order, a fetch shootdown once no sequencer waits for
its block boundary, and the cached leaves of the page that the command names are then gone, of no other context. -/
def Obligations.ShootdownsQueueAndComplete : Prop :=
  ∀ (s : State) (p : Fin 16) (ctx : Half) (k : BitVec 3),
    let y := s.part p
    let cmd (kind : Nat) : Shoot := ⟨y.shootNext + 1#32, kind, k.toNat, ctx, y.shootVa.toNat, s.ns⟩
    let queued (kind : Nat) : State :=
      s.modPart p (fun z => { z with shoots := z.shoots ++ [cmd kind], shootNext := z.shootNext + 1#32 })
    (y.formed = true → y.shoots.length < 16 →
      exec (.shootTranslation p ctx k) s = .next (queued 0)
      ∧ exec (.shootFetch p ctx k) s = .next ((queued 1).reachAll p (cmd 1))
      ∧ exec (.shootBoth p ctx k) s = .next ((queued 2).reachAll p (cmd 2)))
    ∧ (y.formed = true → 16 ≤ y.shoots.length →
        let lost := s.modPart p (fun z => { z with shootOverflow := true })
        exec (.shootTranslation p ctx k) s = .next lost ∧ exec (.shootFetch p ctx k) s = .next lost
        ∧ exec (.shootBoth p ctx k) s = .next lost)
    ∧ (∀ x rest, y.shoots = x :: rest →
        ((x.kind = 0 ∨ ∀ t : Fin 192, ∀ w ∈ (s.seq t).shoots, w.1 ≠ x) → ∃ u, exec (.shootdownComplete p) s = .next u
          ∧ (u.part p).shoots = rest ∧ (u.part p).shootDone = x.number ∧ u.mem = s.mem
          ∧ (∀ e, e ∈ u.tlb ↔ e ∈ s.tlb ∧ ¬ (e.part = p.val ∧ e.ctx = x.ctx ∧ x.meets e.va e.size = true)))
        ∧ (x.kind ≠ 0 → (∃ t : Fin 192, ∃ w ∈ (s.seq t).shoots, w.1 = x) → exec (.shootdownComplete p) s = .next s))

/-! ### The host interface -/

/-- R452: PSTATUS reads its six bits, and reading it at bit 0 clears the two shootdown bits; PQERR bits are cleared by writing 1 to them;
an access that is not 4 or 8 aligned bytes, or that comes before the device has enumerated (log entry 40), is an unsupported request and changes
nothing. -/
def Obligations.StatusRegistersReadAndClear : Prop :=
  ∀ (s : State) (p : Fin 16) (o : BitVec 3) (n : BitVec 4) (v : DWord),
    let x := s.part p
    let bit (c : Bool) (k : Nat) : Nat := if c then 2 ^ k else 0
    let status := bit x.held 0 + bit x.almanac.isSome 1 + bit x.stickyFallback 2 + bit s.harebell 3 + bit x.shootOverflow 4
      + bit x.shootError 5
    (s.enumerated = true → (n = 4#4 ∧ (o = 0#3 ∨ o = 4#3)) ∨ (n = 8#4 ∧ o = 0#3) →
      (x.formed = true → exec (.pstatusRead p o n) s = .next
        (let t : State := { s with
            unsupported := false, reply := some (BitVec.ofNat 512 (status / 2 ^ (8 * o.toNat) % 2 ^ (8 * n.toNat)), false) }
         if o = 0#3 then t.modPart p (fun z => { z with shootOverflow := false, shootError := false }) else t))
      ∧ (∃ w : DWord, exec (.pqerrClear p o n v) s = .next
            (({ s with unsupported := false } : State).modPart p (fun z => { z with pqerr := z.pqerr &&& ~~~w }))
          ∧ ∀ k, k < 64 → w.getLsbD k = (decide (8 * o.toNat ≤ k ∧ k < 8 * o.toNat + 8 * n.toNat) && v.getLsbD (k - 8 * o.toNat))))
    ∧ (s.enumerated = false ∨ ¬ ((n = 4#4 ∧ (o = 0#3 ∨ o = 4#3)) ∨ (n = 8#4 ∧ o = 0#3)) →
        exec (.pstatusRead p o n) s = .next { s with unsupported := true }
        ∧ exec (.pqerrClear p o n v) s = .next { s with unsupported := true })

/-- R453, R454: a ring's head moves within its unconsumed entries and a head beyond the tail is ignored; enabling takes effect when base
and capacity are valid; the message that a ring owes, enabled or not, is sent 1 µs after the last; completion records that wait go out in order while the
ring has room. -/
def Obligations.RingsFollowTheirRegisters : Prop :=
  ∀ (s : State) (p : Fin 16) (n : RingName) (v : Word) (c : DWord),
    let r := (s.part p).ring n
    ((s.part p).formed = true →
      ((r.tail - r.head).toNat < (v - r.head).toNat → exec (.ringHeadWrite p n v) s = .next s)
      ∧ ((v - r.head).toNat ≤ (r.tail - r.head).toNat → (s.part p).faults = [] →
          exec (.ringHeadWrite p n v) s = .next (s.modPart p (fun x => x.setRing n { r with head := v })))
      ∧ (c.getLsbD 5 = true → r.enabled = false → (s.part p).faults = [] →
          exec (.ringEnable p n c) s = .next (s.modPart p (fun x => x.setRing n { r with
            cfg := c &&& ~~~0x20#64
            enabled := decide (r.base.toNat % 4096 = 0 ∧ 4 ≤ c.toNat % 32 ∧ c.toNat % 32 ≤ 16) })))
      ∧ (c.getLsbD 5 = true → r.enabled = true → exec (.ringEnable p n c) s = .next s))
    ∧ (0 < r.sinceMsg → r.lastMsg + 1000 ≤ s.ns → exec (.msixTimer p n) s = .next
        { s.modPart p (fun x => x.setRing n { r with sinceMsg := 0, lastMsg := s.ns }) with msix := field r.cfg 26 16 :: s.msix })
    ∧ (r.sinceMsg = 0 ∨ s.ns < r.lastMsg + 1000 → exec (.msixTimer p n) s = .next s)
    ∧ (∀ b, (s.part p).waiting = [b] → (s.part p).cr.enabled = true → (s.part p).cr.full = false → (s.part p).heldTiles = [] →
        (s.part p).deferred = none → (s.part p).deferredFallback = false → exec (.ringRecordRelease p) s =
          .next ((s.modPart p (fun x => { x with waiting := [] })).ringPut p .completion b))
    ∧ ((s.part p).waiting ≠ [] → (s.part p).cr.enabled = false ∨ (s.part p).cr.full = true → exec (.ringRecordRelease p) s = .next s)

/-- R134, R136, R353, R455: a resolution with a tag that is unresolved ends that request alone: the accesses withheld under it walk again, or end
in a fault of cause 3 when it is declared invalid, and a sequencer that sleeps for it wakes; one at or after the 100 µs limit of its load does not
stop the drain, and its accesses walk again; a tag that is not unresolved, and a value with reserved bits, change nothing. -/
def Obligations.PageFaultResolutionsEndTheirRequest : Prop :=
  ∀ (s : State) (p : Fin 16) (v : DWord), (s.part p).formed = true →
    let tag : Word := v.setWidth 32
    (field v 63 33 ≠ 0 ∨ (∀ f ∈ (s.part p).faults, f.tag ≠ tag) → exec (.frresolve p v) s = .next s)
    ∧ (field v 63 33 = 0 → ∀ f, (s.part p).faults.find? (fun x => decide (x.tag = tag)) = some f →
        let held (z : State) (y : Nat) (k : Fin 8) (b u : Nat) : Option Withheld :=
          (((z.tile (tileOf y)).strands[k].block b)[u]?).bind (fun (x : UnitSt) => x.withheld)
        let ends (invalid : Bool) (t : State) : Prop :=
          (t.part p).faults = (s.part p).faults.erase f ∧ t.mem = s.mem
          ∧ (∀ r, s.run f.graph = some r → ∀ y ∈ r.tiles,
              (∀ (k : Fin 8) (b u : Nat), held t y.2 k b u = (held s y.2 k b u).map (fun w =>
                if w.tag = some tag then { w with tag := none, cause := if invalid then some 3 else none } else w))
              ∧ (t.seq (tileOf y.2)).sleeping =
                  if (s.seq (tileOf y.2)).sleeping = some tag then none else (s.seq (tileOf y.2)).sleeping)
          ∧ (∀ x : Fin 192, (∀ r, s.run f.graph = some r → ∀ y ∈ r.tiles, tileOf y.2 ≠ x) → t.tile x = s.tile x)
        ((∀ r, s.run f.graph = some r → s.faultLate r = false) → ∃ t, exec (.frresolve p v) s = .next t ∧ ends (v.getLsbD 32) t)
        ∧ (∀ r, s.run f.graph = some r → s.faultLate r = true → r.freeze = none → s.saveFits r = true →
            ∃ t y, exec (.frresolve p v) s = .next t ∧ ends false t ∧ t.run f.graph = some y ∧ y.freeze = some .pageFault ∧ y.frozen = false))

/-- R450, R413, R451, R175, R130, R471: memory from outside, on a device that has enumerated: 1 to 8 bytes of HBM written or read, a 64-byte line of HDM memory read or written,
bytes found uncorrectable answered poisoned; a write drops the device's copies of its line; a table's poison mark is cleared by address.
An address that the HDM decoder does not map is answered by no one. An access of HBM brings its lines into L2 (log entry 67), and one that comes
before the device has enumerated does nothing. -/
def Obligations.OutsideMemoryAccesses : Prop :=
  ∀ (s : State) (o : BitVec 39) (n : BitVec 4) (v : DWord) (a : BitVec 52) (w : BitVec 512),
    let k := n.toNat
    (s.enumerated = true → 1 ≤ k → k ≤ 8 → o.toNat + k ≤ 2 ^ 39 →
      exec (.hostMemoryWrite o n v) s = .next (s.physWrite false o.toNat ((List.range k).map (byteAt v)) |>.touchL2 o.toNat k)
      ∧ (s.physBad o.toNat k = false → exec (.hostMemoryRead o n) s =
          .next { s.touchL2 o.toNat k with reply := some (BitVec.ofNat 512 (leNat (s.physBytes o.toNat k)), false) })
      ∧ (s.physBad o.toNat k = true → ∃ t, exec (.hostMemoryRead o n) s = .next t
          ∧ t.reply = some (BitVec.ofNat 512 (leNat (s.physBytes o.toNat k)), true) ∧ t.mlog.length = s.mlog.length + 1 ∧ t.mem = s.mem))
    ∧ (let base := a.toNat / 64 * 64
       (s.enumerated = true → s.hdmBase ≤ base → base + 64 ≤ s.hdmBase + s.hdmSize → base + 64 ≤ 2 ^ 39 →
         exec (.cxlMemAccess true a w) s = .next (({ s with
           l2 := s.l2.filter (fun x => decide (x ≠ a.toNat / 64)), xcache := s.xcache.filter (fun x => decide (x ≠ a.toNat / 64)) } : State).physWrite
             false base (leBytes 64 w.toNat))
         ∧ (s.physBad base 64 = false → exec (.cxlMemAccess false a w) s =
             .next { s with reply := some (BitVec.ofNat 512 (leNat (s.physBytes base 64)), false) }))
       ∧ (s.enumerated = true → base < s.hdmBase ∨ s.hdmBase + s.hdmSize < base + 64 → ∀ wr, exec (.cxlMemAccess wr a w) s = .fault (.unmappedCxl a.toNat)))
    ∧ (s.enumerated = false → exec (.hostMemoryWrite o n v) s = .next s ∧ exec (.hostMemoryRead o n) s = .next s
        ∧ ∀ wr, exec (.cxlMemAccess wr a w) s = .next s)
    ∧ exec (.tablePoisonClear a) s = .next { s with poisoned := s.poisoned.filter (fun x => decide (x ≠ a.toNat / 2048 * 2048)) }

/-! ### Management -/

/-- R474, R364, R359, R398, R447: the commands on a partition, on a device that has enumerated, is not busy with a command and is not
decommissioned: each takes its effect on the formed partition that MARG0 names, or ends with the status of its refusal and no effect. That a
partition that is not formed is an invalid argument is the choice of the model (log entry 92), as is the step in which a command ends (log
entry 34). -/
def Obligations.PartitionCommandsTakeEffectOrRefuse : Prop :=
  ∀ (s : State) (tag : Half) (p : Fin 16), s.enumerated = true → s.busy = none → s.lifecycle ≠ 3#2 → (s.marg[0]).toNat = p.val →
    let x := s.part p
    let a1 := s.marg[1]
    let a2 := s.marg[2]
    (x.formed = false → Ends (.almstage tag) s tag 1 0 0#64 s ∧ Ends (.almswap tag) s tag 1 0 0#64 s ∧ Ends (.prelease tag) s tag 1 0 0#64 s
      ∧ Ends (.emask tag) s tag 1 0 0#64 s ∧ Ends (.savearea tag) s tag 1 0 0#64 s)
    ∧ (x.formed = true →
        (a1.toNat + min a2.toNat 2064 ≤ 2 ^ 51 →
          let img := s.physBytes (2 ^ 51 + a1.toNat) (min a2.toNat 2064)
          (verifyAlmanac img = 0 →
            Ends (.almstage tag) s tag 0 0 0#64 (s.modPart p (fun y => { y with shadow := some (almanacOf img) })))
          ∧ (verifyAlmanac img ≠ 0 →
            Ends (.almstage tag) s tag 5 (verifyAlmanac img) 0#64 (s.modPart p (fun y => { y with shadow := none }))))
        ∧ (x.shadow = none → Ends (.almswap tag) s tag 4 0 0#64 s)
        ∧ (x.shadow ≠ none → Ends (.almswap tag) s tag 0 0 0#64 (s.modPart p (fun y => { y with swapRequest := some (a1.getLsbD 0) })))
        ∧ (x.held = false → Ends (.prelease tag) s tag 4 0 0#64 s)
        ∧ (x.held = true → Ends (.prelease tag) s tag 0 0 0#64
            ((s.modPart p (fun y => { y with held := false })).trigger p .dispatch 0x06 0xFFFF_FFFF#32))
        ∧ (a1.setWidth 16 ≠ partErratum → Ends (.emask tag) s tag 1 0 0#64 s)
        ∧ (a1.setWidth 16 = partErratum → ∃ u, Ends (.emask tag) s tag 0 0 0#64 u
            ∧ u = s.modPart p (fun y => { y with emask := (u.part p).emask })
            ∧ ∀ e, e ∈ (u.part p).emask ↔ if e = partErratum then a1.getLsbD 16 = true else e ∈ x.emask)
        ∧ (a1.toNat % 4096 ≠ 0 ∨ 2 ^ 39 < a1.toNat + a2.toNat → Ends (.savearea tag) s tag 1 0 0#64 s)
        ∧ (a1.toNat % 4096 = 0 → a1.toNat + a2.toNat ≤ 2 ^ 39 → s.saving p = true → Ends (.savearea tag) s tag 2 0 0#64 s)
        ∧ (a1.toNat % 4096 = 0 → a1.toNat + a2.toNat ≤ 2 ^ 39 → s.saving p = false →
            Ends (.savearea tag) s tag 0 0 0#64 (s.modPart p (fun y => { y with saveBase := a1.toNat, saveSize := a2.toNat }))))

/-- R474, R381, R470, R461, R468: the commands on the device: an eclipse entry removed unless a running graph holds the unit, a graph
killed by the host, a partition formed from pairs that no other holds, a channel paired, a power cap set, and the step of the life cycle,
which moves it on by one; each refused with its status and no effect otherwise. The step in which a command ends is the choice of the model (log
entry 34). -/
def Obligations.DeviceCommandsTakeEffectOrRefuse : Prop :=
  ∀ (s : State) (tag : Half), s.enumerated = true → s.busy = none → s.lifecycle ≠ 3#2 →
    let a0 := s.marg[0]
    let u : Word := a0.setWidth 32
    (2 ^ 32 ≤ a0.toNat ∨ unitIdOk u = false → Ends (.eclclr tag) s tag 1 0 0#64 s)
    ∧ (a0.toNat < 2 ^ 32 → unitIdOk u = true → s.unitHeld u = true → Ends (.eclclr tag) s tag 2 0 0#64 s)
    ∧ (a0.toNat < 2 ^ 32 → unitIdOk u = true → s.unitHeld u = false →
        Ends (.eclclr tag) s tag 0 0 0#64 { s with eclipse := s.eclipse.filter (fun e => decide (e ≠ eclipseKey u)) })
    ∧ (2 ^ 32 ≤ a0.toNat ∨ s.run u = none → Ends (.gkill tag) s tag 1 0 0#64 s)
    ∧ (a0.toNat < 2 ^ 32 → s.run u ≠ none →
        Ends (.gkill tag) s tag 0 0 0#64 ((s.modRun u (fun r => { r with hostKilled := true })).kill u 0x11 0#8))
    ∧ (16 ≤ a0.toNat → Ends (.partset tag) s tag 1 0 0#64 s)
    ∧ (∀ p : Fin 16, a0.toNat = p.val →
        let d : Fin 4 := Fin.ofNat 4 ((s.marg[1]).toNat % 4)
        let mask : BitVec 48 := (s.marg[2]).setWidth 48
        let inUse := (∃ q : Fin 16, q ≠ p ∧ (s.part q).pairs[d] &&& mask ≠ 0#48) ∨ (∃ r ∈ s.runs, r.part = p.val)
        (inUse → Ends (.partset tag) s tag 2 0 0#64 s)
        ∧ (¬ inUse → s.harebell = true → p ≠ 0 → Ends (.partset tag) s tag 4 0 0#64 s)
        ∧ (¬ inUse → s.harebell = false ∨ p = 0 → Ends (.partset tag) s tag 0 0 0#64 (s.modPart p (fun x => { x with
            formed := true, pairs := x.pairs.set d mask, tileQuota := field s.marg[3] 7 0, slotQuota := field s.marg[3] 15 8
            margin := BitVec.ofNat 32 (field s.marg[3] 47 16) }))))
    ∧ (a0.toNat / 4 % 4 = 3 → Ends (.strpair tag) s tag 1 0 0#64 s)
    ∧ (a0.toNat / 4 % 4 ≠ 3 → ∃ t, Ends (.strpair tag) s tag 0 0 0#64 t ∧ t = { s with strPairs := t.strPairs }
        ∧ t.strPairs.head? = some (a0.toNat % 256, (s.marg[1]).toNat))
    ∧ (a0.toNat < 1200 ∨ 3000 < a0.toNat → Ends (.capset tag) s tag 1 0 0#64 s)
    ∧ (1200 ≤ a0.toNat → a0.toNat ≤ 3000 → Ends (.capset tag) s tag 0 0 0#64 { s with cap := a0.toNat })
    ∧ (∃ t, Ends (.lcstep tag) s tag 0 0 0#64 t ∧ t.lifecycle.toNat = s.lifecycle.toNat + 1 ∧ t.runs = [] ∧ t.saved = []
        ∧ (∀ y, y < 2 ^ 39 → t.physByte y = 0#8 ∧ t.tag (y / 256) = 0x8#4)
        ∧ t.eclipse = (s.runs.foldl (fun (z : State) r => z.addEclipses r.eclipseAtEnd) s).eclipse ∧ t.rollback = s.rollback)

/-- R474, R395, R402, R468, R471, R473, R138: the accesses of the debugger: 8 bytes read or written in the context that MARG0 names, a write refused
where another context of the partition maps the frame executable, and withheld, the command busy, while a page of it moves; and the loads
that stand in a debug hold released; a decommissioned device refuses every command with status 4, and none has an effect; none reaches a device
that has not enumerated or is busy with another. The step in which a command ends is the choice of the model (log entry 34). -/
def Obligations.DebugCommandsReachTheirContext : Prop :=
  (∀ (s : State) (tag : Half), s.enumerated = true → s.busy = none → s.lifecycle ≠ 3#2 →
      let va := (s.marg[1]).toNat
      (s.debugHeldWrite = true → exec (.dbgaccWrite tag) s = .next (s.holdDebugWrite.busyWith (BitVec.ofNat 64 (0x0C + 65536 * tag.toNat))))
      ∧ (s.debugAgent = none → Ends (.dbgaccRead tag) s tag 1 0 0#64 s ∧ Ends (.dbgaccWrite tag) s tag 1 0 0#64 s)
      ∧ (∀ g, s.debugAgent = some g →
          (2 ^ 52 < va + 8 → Ends (.dbgaccRead tag) s tag 1 0 0#64 s ∧ Ends (.dbgaccWrite tag) s tag 1 0 0#64 s)
          ∧ (va + 8 ≤ 2 ^ 52 →
              (∀ bs t, s.virtGet g noUnit va 8 = (some bs, t) → Ends (.dbgaccRead tag) s tag 0 0 (BitVec.ofNat 64 (leNat bs)) t)
              ∧ (∀ t, s.virtGet g noUnit va 8 = (none, t) → Ends (.dbgaccRead tag) s tag 1 0 0#64 t)
              ∧ ((∃ a l, (a = va ∨ a = va + 7) ∧ s.walk g a = .leaf l ∧ s.sharedExec g l = true) → Ends (.dbgaccWrite tag) s tag 3 0 0#64 s)
              ∧ ((∀ a l, a = va ∨ a = va + 7 → s.walk g a = .leaf l → s.sharedExec g l = false) → s.debugHeldWrite = false →
                  (∀ t, s.virtPut g noUnit va (leBytes 8 (s.marg[2]).toNat) = (true, t) → Ends (.dbgaccWrite tag) s tag 0 0 0#64 t)
                  ∧ (∀ t, s.virtPut g noUnit va (leBytes 8 (s.marg[2]).toNat) = (false, t) → Ends (.dbgaccWrite tag) s tag 1 0 0#64 t))))
      ∧ (let held := s.runs.filter (fun r => decide (r.ctx = s.debugCtx) && decide (r.freeze = some .debug))
         (held = [] → Ends (.dbgaccRelease tag) s tag 4 0 0#64 s)
         ∧ (held ≠ [] → Ends (.dbgaccRelease tag) s tag 0 0 0#64 (held.foldl (fun (z : State) r => z.releaseHold r) s))))
  ∧ (∀ (s : State) (tag : Half), ∀ i ∈ [Instr.eclclr tag, .almstage tag, .almswap tag, .prelease tag, .gkill tag, .emask tag, .partset tag, .savearea tag, .strpair tag,
        .capset tag, .lcstep tag, .dbgaccRead tag, .dbgaccWrite tag, .dbgaccRelease tag],
      (s.enumerated = true → s.busy = none → s.lifecycle = 3#2 → Ends i s tag 4 0 0#64 s)
      ∧ (s.enumerated = false ∨ s.busy.isSome = true → exec i s = .next s))

/-- R452, R473, R342: a write to the control window, aligned, of 4 or 8 bytes, on a device that has enumerated: an argument register, the
command register, a queue's base while the queue is disabled, PSYSCTX while no graph runs in the partition; while a command is busy the
command and argument registers ignore it. That the registers of a partition that is not formed ignore it (log entry 41), and that a command which
the world makes slow stays busy behind the write that starts it (log entry 34), are the choice of the model; reserved offsets ignore it. Any other
access is an unsupported request (log entry 40 says so of one before the device has enumerated). -/
def Obligations.RegisterWritesReachTheirRegister : Prop :=
  ∀ (s : State) (o : BitVec 21) (n : BitVec 4) (v : DWord),
    let done : State := { s with unsupported := false }
    let a := o.toNat
    (¬ ((n = 4#4 ∨ n = 8#4) ∧ a % n.toNat = 0) ∨ s.enumerated = false → exec (.registerWrite o n v) s = .next { s with unsupported := true })
    ∧ (s.enumerated = true →
        (∀ k : Fin 6, n = 8#4 → a = 0x108 + 8 * k.val → exec (.registerWrite o n v) s =
          .next (if s.busy.isSome then done else { done with marg := s.marg.set k v }))
        ∧ (n = 8#4 → a = 0x100 → s.busy.isSome = true → exec (.registerWrite o n v) s = .next done)
        ∧ (n = 8#4 → a = 0x100 → s.busy = none → s.slowCommand = true →
            exec (.registerWrite o n v) s = .next (({ done with slowCommand := false } : State).busyWith v))
        ∧ (n = 8#4 → a = 0x100 → s.busy = none → s.slowCommand = false → field v 63 32 = 0 → field v 15 8 = 0 →
            let tag : Half := BitVec.ofNat 16 (field v 31 16)
            (field v 7 0 = 0x05 → exec (.registerWrite o n v) s = exec (.gkill tag) done)
            ∧ (field v 7 0 = 0x01 → exec (.registerWrite o n v) s = exec (.eclclr tag) done)
            ∧ (field v 7 0 = 0 ∨ 0x0C < field v 7 0 → s.lifecycle ≠ 3#2 → exec (.registerWrite o n v) s =
                .next { done with mstat := BitVec.ofNat 64 (tag.toNat + 65536), mres := 0#64 }))
        ∧ (∀ (p : Fin 16) (q : Fin 64), n = 8#4 → a = 0x10000 * (p.val + 1) + 0x40 * q.val → (s.part p).formed = true →
            exec (.registerWrite o n v) s = .next (if ((s.part p).queues[q]).enabled then done
              else done.modQueue p q (fun y => { y with base := v })))
        ∧ (∀ p : Fin 16, n = 8#4 → a = 0x10000 * (p.val + 1) + 0x1010 → (s.part p).formed = true → (∀ r ∈ s.runs, r.part ≠ p.val) →
            exec (.registerWrite o n v) s = .next (done.modPart p (fun y => { y with sysctx := v.setWidth 16 })))
        ∧ (∀ p : Fin 16, n = 8#4 → a % 8 = 0 → a / 0x10000 = p.val + 1 → (s.part p).formed = false →
            exec (.registerWrite o n v) s = .next done)
        ∧ (n = 8#4 → a % 8 = 0 → 0x138 ≤ a → a < 0x10000 → exec (.registerWrite o n v) s = .next done))

/-! ### Bring-up, power, links, attestation, the debug port -/

/-- R467, R469, R468, R471: reset leaves memory wiped with every block tag 8, no graph, every tile as it is after reset, and the device in harebell
mode with only partition 0 when the firmware of die 0 loads (which of two failures of one image is reported is open, log entry 35); the eclipse map and the life cycle survive, and the rollback counter does not fall.
The state after reset: memory and registers 0, at user privilege, no strand and no context in use, no graph, harebell mode, only partition 0
(the values that the spec does not state are the choice of the model, log entry 4). -/
def Obligations.ResetWipesAndKeepsWhatSurvives : Prop :=
  (∀ s : State, ∃ t, exec .reset s = .next t
      ∧ (∀ a, a < 2 ^ 39 → t.physByte a = 0#8 ∧ t.tag (a / 256) = 0x8#4)
      ∧ (∀ y : Fin 192, t.tile y = Tile.reset ∧ t.mtile y.val = {})
      ∧ t.runs = [] ∧ t.saved = [] ∧ t.jobs = [] ∧ t.tlb = [] ∧ t.poisoned = []
      ∧ t.eclipse = s.eclipse ∧ t.lifecycle = s.lifecycle ∧ s.rollback.toNat ≤ t.rollback.toNat
      ∧ ((s.firmware[0]).readable = true → (s.firmware[0]).wellFormed = true → (s.firmware[0]).verifies = true →
          s.rollback.toNat ≤ (s.firmware[0]).version.toNat →
          t.fwfail[0] = 0#4 ∧ t.harebell = true ∧ (s.firmware[0]).version.toNat ≤ t.rollback.toNat
          ∧ ∀ p : Fin 16, (t.part p).formed = true ↔ p = 0)
      ∧ ((s.firmware[0]).readable = true → (s.firmware[0]).wellFormed = true → (s.firmware[0]).verifies = false → t.fwfail[0] = 1#4))
  ∧ (let s := State.reset
    (∀ a, s.physByte a = 0#8)
    ∧ (∀ t : Fin 192, (∀ n, (s.seq t).rd n = 0#64) ∧ (∀ n, n ≠ 0#3 → (s.seq t).pred n = false) ∧ (s.seq t).mode = .idle
        ∧ (∀ k : Fin 8, (s.strand t k).state = .empty) ∧ (∀ c : Fin 16, ((s.tile t).ctxs[c]).image = none))
    ∧ s.runs = [] ∧ s.eclipse = [] ∧ s.harebell = true ∧ s.ready = false
    ∧ (∀ p : Fin 16, (s.part p).formed = decide (p = 0)))

/-- R467, R380, R470: in harebell mode a tile island of a die with firmware that has not joined joins or, failing its self-test, eclipses its
sequencer or bank 0, and any other island does neither; harebell mode ends when every tile island of the dies with firmware has done either; the
management cores set an island to k sixteenths of 1.3 GHz for k from 8 to 16, no tile island in harebell mode, one after another, and the
cycles counted so far stand. -/
def Obligations.TilesJoinAndIslandsTakeTheirFrequency : Prop :=
  ∀ (s : State) (i : Fin 512) (k : BitVec 5),
    (i.val % 128 < 96 → s.harebell = true → s.fwfail[Fin.ofNat 4 (i.val / 128)] = 0#4 → i.val ∉ s.joined →
      exec (.tileJoin i true) s = .next { s with joined := i.val :: s.joined }.endHarebell
      ∧ exec (.tileJoin i false) s = .next (s.addEclipse (unitId (i.val / 128) (i.val % 128)
          (if isComputeIndex (i.val % 128) then 4 else 5) 0)).endHarebell)
    ∧ (96 ≤ i.val % 128 ∨ s.harebell = false ∨ s.fwfail[Fin.ofNat 4 (i.val / 128)] ≠ 0#4 ∨ i.val ∈ s.joined →
        ∀ pass, exec (.tileJoin i pass) s = .next s)
    ∧ (let all := ∀ d : Fin 4, s.fwfail[d] ≠ 0#4 ∨ ∀ n, n < 96 → s.islandDone (d.val * 128 + n) = true
       (s.harebell = true → all → s.endHarebell = { s with harebell := false, ready := true })
       ∧ (s.harebell = false ∨ ¬ all → s.endHarebell = s))
    ∧ (8 ≤ k.toNat → k.toNat ≤ 16 → s.harebell = false ∨ 96 ≤ i.val % 128 →
        exec (.powerWindow [(i, k)]) s = .next (s.setClock i.val k.toNat)
        ∧ (s.clocks.Pairwise (fun x y => x.1 < y.1) → (s.clock i.val).baseNs ≤ s.ns →
            (s.setClock i.val k.toNat).cycles i.val = s.cycles i.val ∧ ((s.setClock i.val k.toNat).clock i.val).k = k.toNat))
    ∧ (k.toNat < 8 ∨ 16 < k.toNat ∨ (s.harebell = true ∧ i.val % 128 < 96) → exec (.powerWindow [(i, k)]) s = .next s)
    ∧ exec (.powerWindow []) s = .next s
    ∧ ∀ x xs u, exec (.powerWindow [x]) s = .next u → exec (.powerWindow (x :: xs)) s = exec (.powerWindow xs) u

/-- R462, R380, R374: the link events: a replay is counted; a retrain sets the lanes and is logged; a link that goes down is marked down, logged and
eclipsed, an on-package one carries nothing from then on, its traffic goes the other way round where that has a path, which is logged, and
the loads left without a path are killed; a flit that is not delivered is logged and error-tags the last token of each port of a unit that is fed
over the link, and of no other port. A link that is down does not replay, retrain or go down again. -/
def Obligations.LinkEventsAreLoggedAndEclipse : Prop :=
  ∀ (s : State) (d : Fin 4) (l : Fin 5) (lanes : BitVec 8) (t : Fin 192) (k : Fin 8) (u : BitVec 7),
    s.links.Pairwise (fun x y => x.1 < y.1) →
    let x := s.link d.val l.val
    (x.down = true → exec (.linkCrcReplay d l) s = .next s ∧ exec (.linkRetrain d l lanes) s = .next s ∧ exec (.linkDown d l) s = .next s)
    ∧ (x.down = false →
        (∃ y, exec (.linkCrcReplay d l) s = .next y ∧ (y.link d.val l.val).replays = x.replays + 1 ∧ s.mlog <+: y.mlog ∧ y.mem = s.mem
            ∧ y.runs = s.runs)
        ∧ (∃ y, exec (.linkRetrain d l lanes) s = .next y ∧ (y.link d.val l.val).lanes = lanes.toNat ∧ s.mlog.length < y.mlog.length
            ∧ y.mem = s.mem ∧ y.runs = s.runs)
        ∧ (2 ≤ l.val → ∃ y, exec (.linkDown d l) s = .next y ∧ (y.link d.val l.val).down = true ∧ y.eclipsed (linkId d.val l.val) = true
            ∧ y.mlog.length = s.mlog.length + 1 ∧ y.mem = s.mem ∧ y.runs = s.runs)
        ∧ (l.val < 2 → ∃ y : State,
            exec (.linkDown d l) s = .next ((if (y.linkPath d.val l.val).isSome then y.logLink d.val l.val 6 0 else y).killPathless s)
            ∧ (y.link d.val l.val).down = true ∧ y.eclipsed (linkId d.val l.val) = true ∧ y.linkUp d.val l.val = false
            ∧ y.mlog.length = s.mlog.length + 1 ∧ y.mem = s.mem ∧ y.runs = s.runs))
    ∧ (∃ y, exec (.flitUndelivered d l t k u) s = .next y ∧ y.mlog.length = s.mlog.length + 1 ∧ y.mem = s.mem
        ∧ (∀ z, s.rctx t k = some z → u.toNat < ((s.strand t k).block z.key).length → (s.unitAt z u.toNat).ports.length = 4 →
            let fed := s.portsOver z d.val l.val u.toNat
            ∀ q, q < 4 → (q ∈ fed → ∀ item, ((y.unitAt z u.toNat).ports.getD q []).getLast? = some item → item.isElem = true → item.tag.getLsbD 3 = true)
              ∧ (q ∉ fed → (y.unitAt z u.toNat).ports.getD q [] = (s.unitAt z u.toNat).ports.getD q [])))

/-- R402: the debug port reads and writes a sequencer's registers, predicates, system registers, pc and RAM while its load stands in a debug
hold, s0 still 0, p0 still true and the pc aligned; without a hold it changes nothing. -/
def Obligations.TheDebugPortReachesAHeldSequencer : Prop :=
  ∀ (s : State) (t : Fin 192) (n : BitVec 5) (m : BitVec 3) (sys : BitVec 14) (d : BitVec 13) (v : DWord),
    (s.debugHeld t.val = false → ∀ r w, exec (.debugPortRegisterAccess t r w) s = .next s)
    ∧ (s.debugHeld t.val = true →
        exec (.debugPortRegisterAccess t (.scalar n) none) s = .next { s with reply := some (((s.seq t).rd n).setWidth 512, false) }
        ∧ exec (.debugPortRegisterAccess t .pc none) s = .next { s with reply := some (((s.seq t).pc).setWidth 512, false) }
        ∧ exec (.debugPortRegisterAccess t (.pred m) none) s =
            .next { s with reply := some (if (s.seq t).pred m then 1#512 else 0#512, false) }
        ∧ (∃ x : DWord, exec (.debugPortRegisterAccess t (.ram d) none) s = .next { s with reply := some (x.setWidth 512, false) }
            ∧ ∀ k, k < 8 → byteAt x k = (s.seq t).ram.read (8 * d.toNat + k))
        ∧ (∀ r, sysRegOf sys.toNat = some r →
            exec (.debugPortRegisterAccess t (.system sys) none) s = .next { s with reply := some ((s.sysRead t r).setWidth 512, false) }
            ∧ exec (.debugPortRegisterAccess t (.system sys) (some v)) s = .next (s.modSeq t (fun q => q.sysWrite r v)))
        ∧ exec (.debugPortRegisterAccess t (.scalar n) (some v)) s = .next (s.modSeq t (fun q => q.wr n v))
        ∧ exec (.debugPortRegisterAccess t (.pred m) (some v)) s = .next (s.modSeq t (fun q => q.wrPred m (v.getLsbD 0)))
        ∧ (∃ y : State, exec (.debugPortRegisterAccess t .pc (some v)) s = .next y ∧ y = s.modSeq t (fun q => { q with pc := (y.seq t).pc })
            ∧ (y.seq t).pc.toNat % 4 = 0 ∧ (y.seq t).pc.toNat / 4 = v.toNat / 4)
        ∧ (∃ y : State, exec (.debugPortRegisterAccess t (.scalar 0#5) (some v)) s = .next y ∧ (y.seq t).rd 0#5 = 0#64)
        ∧ (∃ y : State, exec (.debugPortRegisterAccess t (.ram d) (some v)) s = .next y ∧ y = s.modSeq t (fun q => { q with ram := (y.seq t).ram })
            ∧ ((s.seq t).ram.wf = true → ∀ a, (y.seq t).ram.read a =
                if 8 * d.toNat ≤ a ∧ a < 8 * d.toNat + 8 then byteAt v (a - 8 * d.toNat) else (s.seq t).ram.read a)))

/-- R472: the SPDM responder answers its seven requests, each with the response to it, and nothing of the machine changes but the connection: a
version request opens it, capabilities and algorithms follow once it is open, of which it selects SHA-512 and ECDSA P-521 alone, and the others
are answered once versions and algorithms are agreed. The measurements are, by index, 1 the ROM, 2 the firmware of each die in order, 3 the
translator, 4 the life cycle and the rollback counter, 5 the eclipse map, and a request names one or all. The request and operation codes
(log entry 58), and that an error response (0x7F) answers a request before that and changes nothing else, are the model's (log entry 37). Before
the device has enumerated nothing answers (R471). -/
def Obligations.TheResponderAnswersEachRequest : Prop :=
  ∀ (s : State) (h a : BitVec 32) (slot : BitVec 4) (o n : BitVec 16) (op : BitVec 8) (nonce : BitVec 256),
    let answers (i : Instr) (request : Nat) (operands : List Nat) (version algs : Bool) : Prop :=
      exec i s = .next { s with spdm := s.spdm ++ [Config.spdmBody request operands], spdmVersion := version, spdmAlgs := algs }
    let refuses (i : Instr) (request : Nat) : Prop := answers i 0x7F [request] s.spdmVersion s.spdmAlgs
    let digest (d : Fin 4) : Nat := Config.firmwareDigest (s.firmware[d]).version
    let m1 := [1, 1, Config.romDigest]
    let m2 := [2, 4, digest 0, digest 1, digest 2, digest 3]
    let m3 := [3, 1, Config.translatorDigest]
    let m4 := [4, 2, s.lifecycle.toNat, s.rollback.toNat]
    let m5 := [5, s.eclipse.length] ++ s.eclipse.map (fun u => u.toNat)
    let measured := m1 ++ m2 ++ m3 ++ m4 ++ m5
    let offered := h &&& 4#32
    let signed := a &&& 0x100#32
    let measures (values : List Nat) : Prop := answers (.getMeasurements op nonce) 0xE0 ([op.toNat, nonce.toNat] ++ values) true true
    (s.enumerated = true →
    answers .getVersion 0x84 [] true false
    ∧ (s.spdmVersion = true → answers .getCapabilities 0xE1 [] true s.spdmAlgs
        ∧ answers (.negotiateAlgorithms h a) 0xE3 [offered.toNat, signed.toNat] true (decide (offered ≠ 0#32) && decide (signed ≠ 0#32)))
    ∧ (s.spdmVersion = false → refuses .getCapabilities 0xE1 ∧ refuses (.negotiateAlgorithms h a) 0xE3)
    ∧ (s.spdmVersion = true → s.spdmAlgs = true → answers .getDigests 0x81 [] true true
        ∧ answers (.getCertificate slot o n) 0x82 [slot.toNat, o.toNat, n.toNat] true true
        ∧ answers (.challenge slot nonce) 0x83 ([slot.toNat, nonce.toNat] ++ measured) true true
        ∧ (op.toNat = 0 → measures [5]) ∧ (op.toNat = 0xFF → measures measured) ∧ (op.toNat = 1 → measures m1) ∧ (op.toNat = 2 → measures m2)
        ∧ (op.toNat = 3 → measures m3) ∧ (op.toNat = 4 → measures m4) ∧ (op.toNat = 5 → measures m5))
    ∧ (5 < op.toNat → op.toNat ≠ 0xFF → refuses (.getMeasurements op nonce) 0xE0)
    ∧ (s.spdmVersion = false ∨ s.spdmAlgs = false → refuses .getDigests 0x81 ∧ refuses (.getCertificate slot o n) 0x82
        ∧ refuses (.challenge slot nonce) 0x83 ∧ refuses (.getMeasurements op nonce) 0xE0))
    ∧ (s.enumerated = false → ∀ i ∈ [Instr.getVersion, .getCapabilities, .negotiateAlgorithms h a, .getDigests, .getCertificate slot o n,
        .challenge slot nonce, .getMeasurements op nonce], exec i s = .next s)
end

