-- ==== Sys2Proof/Laws/State.lean ====
section
/-! SUPPORT. Sys2Proof/Laws/State.lean: what each named update of a state leaves as it was, field by field, and what reading back
what it wrote gives. -/

namespace Sys2Proof.Machine

/-! ### State.modTile changes tiles only -/

@[simp] theorem State.modTile_agenda (s : State) (t : Fin 192) (f : Tile → Tile) : (s.modTile t f).agenda = s.agenda := rfl
@[simp] theorem State.modTile_cur (s : State) (t : Fin 192) (f : Tile → Tile) : (s.modTile t f).cur = s.cur := rfl
@[simp] theorem State.modTile_curPart (s : State) (t : Fin 192) (f : Tile → Tile) : (s.modTile t f).curPart = s.curPart := rfl
@[simp] theorem State.modTile_free (s : State) (t : Fin 192) (f : Tile → Tile) : (s.modTile t f).free = s.free := rfl
@[simp] theorem State.modTile_unsupported (s : State) (t : Fin 192) (f : Tile → Tile) : (s.modTile t f).unsupported = s.unsupported := rfl
@[simp] theorem State.modTile_ns (s : State) (t : Fin 192) (f : Tile → Tile) : (s.modTile t f).ns = s.ns := rfl
@[simp] theorem State.modTile_mem (s : State) (t : Fin 192) (f : Tile → Tile) : (s.modTile t f).mem = s.mem := rfl
@[simp] theorem State.modTile_tags (s : State) (t : Fin 192) (f : Tile → Tile) : (s.modTile t f).tags = s.tags := rfl
@[simp] theorem State.modTile_ecc (s : State) (t : Fin 192) (f : Tile → Tile) : (s.modTile t f).ecc = s.ecc := rfl
@[simp] theorem State.modTile_l2ecc (s : State) (t : Fin 192) (f : Tile → Tile) : (s.modTile t f).l2ecc = s.l2ecc := rfl
@[simp] theorem State.modTile_poisoned (s : State) (t : Fin 192) (f : Tile → Tile) : (s.modTile t f).poisoned = s.poisoned := rfl
@[simp] theorem State.modTile_unlogged (s : State) (t : Fin 192) (f : Tile → Tile) : (s.modTile t f).unlogged = s.unlogged := rfl
@[simp] theorem State.modTile_tlb (s : State) (t : Fin 192) (f : Tile → Tile) : (s.modTile t f).tlb = s.tlb := rfl
@[simp] theorem State.modTile_l2 (s : State) (t : Fin 192) (f : Tile → Tile) : (s.modTile t f).l2 = s.l2 := rfl
@[simp] theorem State.modTile_xcache (s : State) (t : Fin 192) (f : Tile → Tile) : (s.modTile t f).xcache = s.xcache := rfl
@[simp] theorem State.modTile_mtiles (s : State) (t : Fin 192) (f : Tile → Tile) : (s.modTile t f).mtiles = s.mtiles := rfl
@[simp] theorem State.modTile_parts (s : State) (t : Fin 192) (f : Tile → Tile) : (s.modTile t f).parts = s.parts := rfl
@[simp] theorem State.modTile_runs (s : State) (t : Fin 192) (f : Tile → Tile) : (s.modTile t f).runs = s.runs := rfl
@[simp] theorem State.modTile_saved (s : State) (t : Fin 192) (f : Tile → Tile) : (s.modTile t f).saved = s.saved := rfl
@[simp] theorem State.modTile_jobs (s : State) (t : Fin 192) (f : Tile → Tile) : (s.modTile t f).jobs = s.jobs := rfl
@[simp] theorem State.modTile_vstreams (s : State) (t : Fin 192) (f : Tile → Tile) : (s.modTile t f).vstreams = s.vstreams := rfl
@[simp] theorem State.modTile_hot (s : State) (t : Fin 192) (f : Tile → Tile) : (s.modTile t f).hot = s.hot := rfl
@[simp] theorem State.modTile_epochs (s : State) (t : Fin 192) (f : Tile → Tile) : (s.modTile t f).epochs = s.epochs := rfl
@[simp] theorem State.modTile_served (s : State) (t : Fin 192) (f : Tile → Tile) : (s.modTile t f).served = s.served := rfl
@[simp] theorem State.modTile_moves (s : State) (t : Fin 192) (f : Tile → Tile) : (s.modTile t f).moves = s.moves := rfl
@[simp] theorem State.modTile_eclipse (s : State) (t : Fin 192) (f : Tile → Tile) : (s.modTile t f).eclipse = s.eclipse := rfl
@[simp] theorem State.modTile_lifecycle (s : State) (t : Fin 192) (f : Tile → Tile) : (s.modTile t f).lifecycle = s.lifecycle := rfl
@[simp] theorem State.modTile_rollback (s : State) (t : Fin 192) (f : Tile → Tile) : (s.modTile t f).rollback = s.rollback := rfl
@[simp] theorem State.modTile_firmware (s : State) (t : Fin 192) (f : Tile → Tile) : (s.modTile t f).firmware = s.firmware := rfl
@[simp] theorem State.modTile_fwfail (s : State) (t : Fin 192) (f : Tile → Tile) : (s.modTile t f).fwfail = s.fwfail := rfl
@[simp] theorem State.modTile_ready (s : State) (t : Fin 192) (f : Tile → Tile) : (s.modTile t f).ready = s.ready := rfl
@[simp] theorem State.modTile_harebell (s : State) (t : Fin 192) (f : Tile → Tile) : (s.modTile t f).harebell = s.harebell := rfl
@[simp] theorem State.modTile_joined (s : State) (t : Fin 192) (f : Tile → Tile) : (s.modTile t f).joined = s.joined := rfl
@[simp] theorem State.modTile_cap (s : State) (t : Fin 192) (f : Tile → Tile) : (s.modTile t f).cap = s.cap := rfl
@[simp] theorem State.modTile_clocks (s : State) (t : Fin 192) (f : Tile → Tile) : (s.modTile t f).clocks = s.clocks := rfl
@[simp] theorem State.modTile_marg (s : State) (t : Fin 192) (f : Tile → Tile) : (s.modTile t f).marg = s.marg := rfl
@[simp] theorem State.modTile_mstat (s : State) (t : Fin 192) (f : Tile → Tile) : (s.modTile t f).mstat = s.mstat := rfl
@[simp] theorem State.modTile_mres (s : State) (t : Fin 192) (f : Tile → Tile) : (s.modTile t f).mres = s.mres := rfl
@[simp] theorem State.modTile_slowCommand (s : State) (t : Fin 192) (f : Tile → Tile) : (s.modTile t f).slowCommand = s.slowCommand := rfl
@[simp] theorem State.modTile_busy (s : State) (t : Fin 192) (f : Tile → Tile) : (s.modTile t f).busy = s.busy := rfl
@[simp] theorem State.modTile_mlog (s : State) (t : Fin 192) (f : Tile → Tile) : (s.modTile t f).mlog = s.mlog := rfl
@[simp] theorem State.modTile_links (s : State) (t : Fin 192) (f : Tile → Tile) : (s.modTile t f).links = s.links := rfl
@[simp] theorem State.modTile_strPairs (s : State) (t : Fin 192) (f : Tile → Tile) : (s.modTile t f).strPairs = s.strPairs := rfl
@[simp] theorem State.modTile_hdmBase (s : State) (t : Fin 192) (f : Tile → Tile) : (s.modTile t f).hdmBase = s.hdmBase := rfl
@[simp] theorem State.modTile_hdmSize (s : State) (t : Fin 192) (f : Tile → Tile) : (s.modTile t f).hdmSize = s.hdmSize := rfl
@[simp] theorem State.modTile_msix (s : State) (t : Fin 192) (f : Tile → Tile) : (s.modTile t f).msix = s.msix := rfl
@[simp] theorem State.modTile_reply (s : State) (t : Fin 192) (f : Tile → Tile) : (s.modTile t f).reply = s.reply := rfl
@[simp] theorem State.modTile_spdm (s : State) (t : Fin 192) (f : Tile → Tile) : (s.modTile t f).spdm = s.spdm := rfl
@[simp] theorem State.modTile_spdmVersion (s : State) (t : Fin 192) (f : Tile → Tile) : (s.modTile t f).spdmVersion = s.spdmVersion := rfl
@[simp] theorem State.modTile_spdmAlgs (s : State) (t : Fin 192) (f : Tile → Tile) : (s.modTile t f).spdmAlgs = s.spdmAlgs := rfl
@[simp] theorem State.modTile_debuggers (s : State) (t : Fin 192) (f : Tile → Tile) : (s.modTile t f).debuggers = s.debuggers := rfl
@[simp] theorem State.modTile_fwmem (s : State) (t : Fin 192) (f : Tile → Tile) : (s.modTile t f).fwmem = s.fwmem := rfl
@[simp] theorem State.modTile_xlcache (s : State) (t : Fin 192) (f : Tile → Tile) : (s.modTile t f).xlcache = s.xlcache := rfl
@[simp] theorem State.modTile_minorities (s : State) (t : Fin 192) (f : Tile → Tile) : (s.modTile t f).minorities = s.minorities := rfl

/-! ### State.modSeq changes tiles only -/

@[simp] theorem State.modSeq_agenda (s : State) (t : Fin 192) (f : Seq → Seq) : (s.modSeq t f).agenda = s.agenda := rfl
@[simp] theorem State.modSeq_cur (s : State) (t : Fin 192) (f : Seq → Seq) : (s.modSeq t f).cur = s.cur := rfl
@[simp] theorem State.modSeq_curPart (s : State) (t : Fin 192) (f : Seq → Seq) : (s.modSeq t f).curPart = s.curPart := rfl
@[simp] theorem State.modSeq_free (s : State) (t : Fin 192) (f : Seq → Seq) : (s.modSeq t f).free = s.free := rfl
@[simp] theorem State.modSeq_unsupported (s : State) (t : Fin 192) (f : Seq → Seq) : (s.modSeq t f).unsupported = s.unsupported := rfl
@[simp] theorem State.modSeq_ns (s : State) (t : Fin 192) (f : Seq → Seq) : (s.modSeq t f).ns = s.ns := rfl
@[simp] theorem State.modSeq_mem (s : State) (t : Fin 192) (f : Seq → Seq) : (s.modSeq t f).mem = s.mem := rfl
@[simp] theorem State.modSeq_tags (s : State) (t : Fin 192) (f : Seq → Seq) : (s.modSeq t f).tags = s.tags := rfl
@[simp] theorem State.modSeq_ecc (s : State) (t : Fin 192) (f : Seq → Seq) : (s.modSeq t f).ecc = s.ecc := rfl
@[simp] theorem State.modSeq_l2ecc (s : State) (t : Fin 192) (f : Seq → Seq) : (s.modSeq t f).l2ecc = s.l2ecc := rfl
@[simp] theorem State.modSeq_poisoned (s : State) (t : Fin 192) (f : Seq → Seq) : (s.modSeq t f).poisoned = s.poisoned := rfl
@[simp] theorem State.modSeq_unlogged (s : State) (t : Fin 192) (f : Seq → Seq) : (s.modSeq t f).unlogged = s.unlogged := rfl
@[simp] theorem State.modSeq_tlb (s : State) (t : Fin 192) (f : Seq → Seq) : (s.modSeq t f).tlb = s.tlb := rfl
@[simp] theorem State.modSeq_l2 (s : State) (t : Fin 192) (f : Seq → Seq) : (s.modSeq t f).l2 = s.l2 := rfl
@[simp] theorem State.modSeq_xcache (s : State) (t : Fin 192) (f : Seq → Seq) : (s.modSeq t f).xcache = s.xcache := rfl
@[simp] theorem State.modSeq_mtiles (s : State) (t : Fin 192) (f : Seq → Seq) : (s.modSeq t f).mtiles = s.mtiles := rfl
@[simp] theorem State.modSeq_parts (s : State) (t : Fin 192) (f : Seq → Seq) : (s.modSeq t f).parts = s.parts := rfl
@[simp] theorem State.modSeq_runs (s : State) (t : Fin 192) (f : Seq → Seq) : (s.modSeq t f).runs = s.runs := rfl
@[simp] theorem State.modSeq_saved (s : State) (t : Fin 192) (f : Seq → Seq) : (s.modSeq t f).saved = s.saved := rfl
@[simp] theorem State.modSeq_jobs (s : State) (t : Fin 192) (f : Seq → Seq) : (s.modSeq t f).jobs = s.jobs := rfl
@[simp] theorem State.modSeq_vstreams (s : State) (t : Fin 192) (f : Seq → Seq) : (s.modSeq t f).vstreams = s.vstreams := rfl
@[simp] theorem State.modSeq_hot (s : State) (t : Fin 192) (f : Seq → Seq) : (s.modSeq t f).hot = s.hot := rfl
@[simp] theorem State.modSeq_epochs (s : State) (t : Fin 192) (f : Seq → Seq) : (s.modSeq t f).epochs = s.epochs := rfl
@[simp] theorem State.modSeq_served (s : State) (t : Fin 192) (f : Seq → Seq) : (s.modSeq t f).served = s.served := rfl
@[simp] theorem State.modSeq_moves (s : State) (t : Fin 192) (f : Seq → Seq) : (s.modSeq t f).moves = s.moves := rfl
@[simp] theorem State.modSeq_eclipse (s : State) (t : Fin 192) (f : Seq → Seq) : (s.modSeq t f).eclipse = s.eclipse := rfl
@[simp] theorem State.modSeq_lifecycle (s : State) (t : Fin 192) (f : Seq → Seq) : (s.modSeq t f).lifecycle = s.lifecycle := rfl
@[simp] theorem State.modSeq_rollback (s : State) (t : Fin 192) (f : Seq → Seq) : (s.modSeq t f).rollback = s.rollback := rfl
@[simp] theorem State.modSeq_firmware (s : State) (t : Fin 192) (f : Seq → Seq) : (s.modSeq t f).firmware = s.firmware := rfl
@[simp] theorem State.modSeq_fwfail (s : State) (t : Fin 192) (f : Seq → Seq) : (s.modSeq t f).fwfail = s.fwfail := rfl
@[simp] theorem State.modSeq_ready (s : State) (t : Fin 192) (f : Seq → Seq) : (s.modSeq t f).ready = s.ready := rfl
@[simp] theorem State.modSeq_harebell (s : State) (t : Fin 192) (f : Seq → Seq) : (s.modSeq t f).harebell = s.harebell := rfl
@[simp] theorem State.modSeq_joined (s : State) (t : Fin 192) (f : Seq → Seq) : (s.modSeq t f).joined = s.joined := rfl
@[simp] theorem State.modSeq_cap (s : State) (t : Fin 192) (f : Seq → Seq) : (s.modSeq t f).cap = s.cap := rfl
@[simp] theorem State.modSeq_clocks (s : State) (t : Fin 192) (f : Seq → Seq) : (s.modSeq t f).clocks = s.clocks := rfl
@[simp] theorem State.modSeq_marg (s : State) (t : Fin 192) (f : Seq → Seq) : (s.modSeq t f).marg = s.marg := rfl
@[simp] theorem State.modSeq_mstat (s : State) (t : Fin 192) (f : Seq → Seq) : (s.modSeq t f).mstat = s.mstat := rfl
@[simp] theorem State.modSeq_mres (s : State) (t : Fin 192) (f : Seq → Seq) : (s.modSeq t f).mres = s.mres := rfl
@[simp] theorem State.modSeq_slowCommand (s : State) (t : Fin 192) (f : Seq → Seq) : (s.modSeq t f).slowCommand = s.slowCommand := rfl
@[simp] theorem State.modSeq_busy (s : State) (t : Fin 192) (f : Seq → Seq) : (s.modSeq t f).busy = s.busy := rfl
@[simp] theorem State.modSeq_mlog (s : State) (t : Fin 192) (f : Seq → Seq) : (s.modSeq t f).mlog = s.mlog := rfl
@[simp] theorem State.modSeq_links (s : State) (t : Fin 192) (f : Seq → Seq) : (s.modSeq t f).links = s.links := rfl
@[simp] theorem State.modSeq_strPairs (s : State) (t : Fin 192) (f : Seq → Seq) : (s.modSeq t f).strPairs = s.strPairs := rfl
@[simp] theorem State.modSeq_hdmBase (s : State) (t : Fin 192) (f : Seq → Seq) : (s.modSeq t f).hdmBase = s.hdmBase := rfl
@[simp] theorem State.modSeq_hdmSize (s : State) (t : Fin 192) (f : Seq → Seq) : (s.modSeq t f).hdmSize = s.hdmSize := rfl
@[simp] theorem State.modSeq_msix (s : State) (t : Fin 192) (f : Seq → Seq) : (s.modSeq t f).msix = s.msix := rfl
@[simp] theorem State.modSeq_reply (s : State) (t : Fin 192) (f : Seq → Seq) : (s.modSeq t f).reply = s.reply := rfl
@[simp] theorem State.modSeq_spdm (s : State) (t : Fin 192) (f : Seq → Seq) : (s.modSeq t f).spdm = s.spdm := rfl
@[simp] theorem State.modSeq_spdmVersion (s : State) (t : Fin 192) (f : Seq → Seq) : (s.modSeq t f).spdmVersion = s.spdmVersion := rfl
@[simp] theorem State.modSeq_spdmAlgs (s : State) (t : Fin 192) (f : Seq → Seq) : (s.modSeq t f).spdmAlgs = s.spdmAlgs := rfl
@[simp] theorem State.modSeq_debuggers (s : State) (t : Fin 192) (f : Seq → Seq) : (s.modSeq t f).debuggers = s.debuggers := rfl
@[simp] theorem State.modSeq_fwmem (s : State) (t : Fin 192) (f : Seq → Seq) : (s.modSeq t f).fwmem = s.fwmem := rfl
@[simp] theorem State.modSeq_xlcache (s : State) (t : Fin 192) (f : Seq → Seq) : (s.modSeq t f).xlcache = s.xlcache := rfl
@[simp] theorem State.modSeq_minorities (s : State) (t : Fin 192) (f : Seq → Seq) : (s.modSeq t f).minorities = s.minorities := rfl

/-! ### State.modMe changes tiles only -/

@[simp] theorem State.modMe_agenda (s : State) (f : Seq → Seq) : (s.modMe f).agenda = s.agenda := rfl
@[simp] theorem State.modMe_cur (s : State) (f : Seq → Seq) : (s.modMe f).cur = s.cur := rfl
@[simp] theorem State.modMe_curPart (s : State) (f : Seq → Seq) : (s.modMe f).curPart = s.curPart := rfl
@[simp] theorem State.modMe_free (s : State) (f : Seq → Seq) : (s.modMe f).free = s.free := rfl
@[simp] theorem State.modMe_unsupported (s : State) (f : Seq → Seq) : (s.modMe f).unsupported = s.unsupported := rfl
@[simp] theorem State.modMe_ns (s : State) (f : Seq → Seq) : (s.modMe f).ns = s.ns := rfl
@[simp] theorem State.modMe_mem (s : State) (f : Seq → Seq) : (s.modMe f).mem = s.mem := rfl
@[simp] theorem State.modMe_tags (s : State) (f : Seq → Seq) : (s.modMe f).tags = s.tags := rfl
@[simp] theorem State.modMe_ecc (s : State) (f : Seq → Seq) : (s.modMe f).ecc = s.ecc := rfl
@[simp] theorem State.modMe_l2ecc (s : State) (f : Seq → Seq) : (s.modMe f).l2ecc = s.l2ecc := rfl
@[simp] theorem State.modMe_poisoned (s : State) (f : Seq → Seq) : (s.modMe f).poisoned = s.poisoned := rfl
@[simp] theorem State.modMe_unlogged (s : State) (f : Seq → Seq) : (s.modMe f).unlogged = s.unlogged := rfl
@[simp] theorem State.modMe_tlb (s : State) (f : Seq → Seq) : (s.modMe f).tlb = s.tlb := rfl
@[simp] theorem State.modMe_l2 (s : State) (f : Seq → Seq) : (s.modMe f).l2 = s.l2 := rfl
@[simp] theorem State.modMe_xcache (s : State) (f : Seq → Seq) : (s.modMe f).xcache = s.xcache := rfl
@[simp] theorem State.modMe_mtiles (s : State) (f : Seq → Seq) : (s.modMe f).mtiles = s.mtiles := rfl
@[simp] theorem State.modMe_parts (s : State) (f : Seq → Seq) : (s.modMe f).parts = s.parts := rfl
@[simp] theorem State.modMe_runs (s : State) (f : Seq → Seq) : (s.modMe f).runs = s.runs := rfl
@[simp] theorem State.modMe_saved (s : State) (f : Seq → Seq) : (s.modMe f).saved = s.saved := rfl
@[simp] theorem State.modMe_jobs (s : State) (f : Seq → Seq) : (s.modMe f).jobs = s.jobs := rfl
@[simp] theorem State.modMe_vstreams (s : State) (f : Seq → Seq) : (s.modMe f).vstreams = s.vstreams := rfl
@[simp] theorem State.modMe_hot (s : State) (f : Seq → Seq) : (s.modMe f).hot = s.hot := rfl
@[simp] theorem State.modMe_epochs (s : State) (f : Seq → Seq) : (s.modMe f).epochs = s.epochs := rfl
@[simp] theorem State.modMe_served (s : State) (f : Seq → Seq) : (s.modMe f).served = s.served := rfl
@[simp] theorem State.modMe_moves (s : State) (f : Seq → Seq) : (s.modMe f).moves = s.moves := rfl
@[simp] theorem State.modMe_eclipse (s : State) (f : Seq → Seq) : (s.modMe f).eclipse = s.eclipse := rfl
@[simp] theorem State.modMe_lifecycle (s : State) (f : Seq → Seq) : (s.modMe f).lifecycle = s.lifecycle := rfl
@[simp] theorem State.modMe_rollback (s : State) (f : Seq → Seq) : (s.modMe f).rollback = s.rollback := rfl
@[simp] theorem State.modMe_firmware (s : State) (f : Seq → Seq) : (s.modMe f).firmware = s.firmware := rfl
@[simp] theorem State.modMe_fwfail (s : State) (f : Seq → Seq) : (s.modMe f).fwfail = s.fwfail := rfl
@[simp] theorem State.modMe_ready (s : State) (f : Seq → Seq) : (s.modMe f).ready = s.ready := rfl
@[simp] theorem State.modMe_harebell (s : State) (f : Seq → Seq) : (s.modMe f).harebell = s.harebell := rfl
@[simp] theorem State.modMe_joined (s : State) (f : Seq → Seq) : (s.modMe f).joined = s.joined := rfl
@[simp] theorem State.modMe_cap (s : State) (f : Seq → Seq) : (s.modMe f).cap = s.cap := rfl
@[simp] theorem State.modMe_clocks (s : State) (f : Seq → Seq) : (s.modMe f).clocks = s.clocks := rfl
@[simp] theorem State.modMe_marg (s : State) (f : Seq → Seq) : (s.modMe f).marg = s.marg := rfl
@[simp] theorem State.modMe_mstat (s : State) (f : Seq → Seq) : (s.modMe f).mstat = s.mstat := rfl
@[simp] theorem State.modMe_mres (s : State) (f : Seq → Seq) : (s.modMe f).mres = s.mres := rfl
@[simp] theorem State.modMe_slowCommand (s : State) (f : Seq → Seq) : (s.modMe f).slowCommand = s.slowCommand := rfl
@[simp] theorem State.modMe_busy (s : State) (f : Seq → Seq) : (s.modMe f).busy = s.busy := rfl
@[simp] theorem State.modMe_mlog (s : State) (f : Seq → Seq) : (s.modMe f).mlog = s.mlog := rfl
@[simp] theorem State.modMe_links (s : State) (f : Seq → Seq) : (s.modMe f).links = s.links := rfl
@[simp] theorem State.modMe_strPairs (s : State) (f : Seq → Seq) : (s.modMe f).strPairs = s.strPairs := rfl
@[simp] theorem State.modMe_hdmBase (s : State) (f : Seq → Seq) : (s.modMe f).hdmBase = s.hdmBase := rfl
@[simp] theorem State.modMe_hdmSize (s : State) (f : Seq → Seq) : (s.modMe f).hdmSize = s.hdmSize := rfl
@[simp] theorem State.modMe_msix (s : State) (f : Seq → Seq) : (s.modMe f).msix = s.msix := rfl
@[simp] theorem State.modMe_reply (s : State) (f : Seq → Seq) : (s.modMe f).reply = s.reply := rfl
@[simp] theorem State.modMe_spdm (s : State) (f : Seq → Seq) : (s.modMe f).spdm = s.spdm := rfl
@[simp] theorem State.modMe_spdmVersion (s : State) (f : Seq → Seq) : (s.modMe f).spdmVersion = s.spdmVersion := rfl
@[simp] theorem State.modMe_spdmAlgs (s : State) (f : Seq → Seq) : (s.modMe f).spdmAlgs = s.spdmAlgs := rfl
@[simp] theorem State.modMe_debuggers (s : State) (f : Seq → Seq) : (s.modMe f).debuggers = s.debuggers := rfl
@[simp] theorem State.modMe_fwmem (s : State) (f : Seq → Seq) : (s.modMe f).fwmem = s.fwmem := rfl
@[simp] theorem State.modMe_xlcache (s : State) (f : Seq → Seq) : (s.modMe f).xlcache = s.xlcache := rfl
@[simp] theorem State.modMe_minorities (s : State) (f : Seq → Seq) : (s.modMe f).minorities = s.minorities := rfl

/-! ### State.modStrand changes tiles only -/

@[simp] theorem State.modStrand_agenda (s : State) (t : Fin 192) (k : Fin 8) (f : Strand → Strand) : (s.modStrand t k f).agenda = s.agenda := rfl
@[simp] theorem State.modStrand_cur (s : State) (t : Fin 192) (k : Fin 8) (f : Strand → Strand) : (s.modStrand t k f).cur = s.cur := rfl
@[simp] theorem State.modStrand_curPart (s : State) (t : Fin 192) (k : Fin 8) (f : Strand → Strand) : (s.modStrand t k f).curPart = s.curPart := rfl
@[simp] theorem State.modStrand_free (s : State) (t : Fin 192) (k : Fin 8) (f : Strand → Strand) : (s.modStrand t k f).free = s.free := rfl
@[simp] theorem State.modStrand_unsupported (s : State) (t : Fin 192) (k : Fin 8) (f : Strand → Strand) : (s.modStrand t k f).unsupported = s.unsupported := rfl
@[simp] theorem State.modStrand_ns (s : State) (t : Fin 192) (k : Fin 8) (f : Strand → Strand) : (s.modStrand t k f).ns = s.ns := rfl
@[simp] theorem State.modStrand_mem (s : State) (t : Fin 192) (k : Fin 8) (f : Strand → Strand) : (s.modStrand t k f).mem = s.mem := rfl
@[simp] theorem State.modStrand_tags (s : State) (t : Fin 192) (k : Fin 8) (f : Strand → Strand) : (s.modStrand t k f).tags = s.tags := rfl
@[simp] theorem State.modStrand_ecc (s : State) (t : Fin 192) (k : Fin 8) (f : Strand → Strand) : (s.modStrand t k f).ecc = s.ecc := rfl
@[simp] theorem State.modStrand_l2ecc (s : State) (t : Fin 192) (k : Fin 8) (f : Strand → Strand) : (s.modStrand t k f).l2ecc = s.l2ecc := rfl
@[simp] theorem State.modStrand_poisoned (s : State) (t : Fin 192) (k : Fin 8) (f : Strand → Strand) : (s.modStrand t k f).poisoned = s.poisoned := rfl
@[simp] theorem State.modStrand_unlogged (s : State) (t : Fin 192) (k : Fin 8) (f : Strand → Strand) : (s.modStrand t k f).unlogged = s.unlogged := rfl
@[simp] theorem State.modStrand_tlb (s : State) (t : Fin 192) (k : Fin 8) (f : Strand → Strand) : (s.modStrand t k f).tlb = s.tlb := rfl
@[simp] theorem State.modStrand_l2 (s : State) (t : Fin 192) (k : Fin 8) (f : Strand → Strand) : (s.modStrand t k f).l2 = s.l2 := rfl
@[simp] theorem State.modStrand_xcache (s : State) (t : Fin 192) (k : Fin 8) (f : Strand → Strand) : (s.modStrand t k f).xcache = s.xcache := rfl
@[simp] theorem State.modStrand_mtiles (s : State) (t : Fin 192) (k : Fin 8) (f : Strand → Strand) : (s.modStrand t k f).mtiles = s.mtiles := rfl
@[simp] theorem State.modStrand_parts (s : State) (t : Fin 192) (k : Fin 8) (f : Strand → Strand) : (s.modStrand t k f).parts = s.parts := rfl
@[simp] theorem State.modStrand_runs (s : State) (t : Fin 192) (k : Fin 8) (f : Strand → Strand) : (s.modStrand t k f).runs = s.runs := rfl
@[simp] theorem State.modStrand_saved (s : State) (t : Fin 192) (k : Fin 8) (f : Strand → Strand) : (s.modStrand t k f).saved = s.saved := rfl
@[simp] theorem State.modStrand_jobs (s : State) (t : Fin 192) (k : Fin 8) (f : Strand → Strand) : (s.modStrand t k f).jobs = s.jobs := rfl
@[simp] theorem State.modStrand_vstreams (s : State) (t : Fin 192) (k : Fin 8) (f : Strand → Strand) : (s.modStrand t k f).vstreams = s.vstreams := rfl
@[simp] theorem State.modStrand_hot (s : State) (t : Fin 192) (k : Fin 8) (f : Strand → Strand) : (s.modStrand t k f).hot = s.hot := rfl
@[simp] theorem State.modStrand_epochs (s : State) (t : Fin 192) (k : Fin 8) (f : Strand → Strand) : (s.modStrand t k f).epochs = s.epochs := rfl
@[simp] theorem State.modStrand_served (s : State) (t : Fin 192) (k : Fin 8) (f : Strand → Strand) : (s.modStrand t k f).served = s.served := rfl
@[simp] theorem State.modStrand_moves (s : State) (t : Fin 192) (k : Fin 8) (f : Strand → Strand) : (s.modStrand t k f).moves = s.moves := rfl
@[simp] theorem State.modStrand_eclipse (s : State) (t : Fin 192) (k : Fin 8) (f : Strand → Strand) : (s.modStrand t k f).eclipse = s.eclipse := rfl
@[simp] theorem State.modStrand_lifecycle (s : State) (t : Fin 192) (k : Fin 8) (f : Strand → Strand) : (s.modStrand t k f).lifecycle = s.lifecycle := rfl
@[simp] theorem State.modStrand_rollback (s : State) (t : Fin 192) (k : Fin 8) (f : Strand → Strand) : (s.modStrand t k f).rollback = s.rollback := rfl
@[simp] theorem State.modStrand_firmware (s : State) (t : Fin 192) (k : Fin 8) (f : Strand → Strand) : (s.modStrand t k f).firmware = s.firmware := rfl
@[simp] theorem State.modStrand_fwfail (s : State) (t : Fin 192) (k : Fin 8) (f : Strand → Strand) : (s.modStrand t k f).fwfail = s.fwfail := rfl
@[simp] theorem State.modStrand_ready (s : State) (t : Fin 192) (k : Fin 8) (f : Strand → Strand) : (s.modStrand t k f).ready = s.ready := rfl
@[simp] theorem State.modStrand_harebell (s : State) (t : Fin 192) (k : Fin 8) (f : Strand → Strand) : (s.modStrand t k f).harebell = s.harebell := rfl
@[simp] theorem State.modStrand_joined (s : State) (t : Fin 192) (k : Fin 8) (f : Strand → Strand) : (s.modStrand t k f).joined = s.joined := rfl
@[simp] theorem State.modStrand_cap (s : State) (t : Fin 192) (k : Fin 8) (f : Strand → Strand) : (s.modStrand t k f).cap = s.cap := rfl
@[simp] theorem State.modStrand_clocks (s : State) (t : Fin 192) (k : Fin 8) (f : Strand → Strand) : (s.modStrand t k f).clocks = s.clocks := rfl
@[simp] theorem State.modStrand_marg (s : State) (t : Fin 192) (k : Fin 8) (f : Strand → Strand) : (s.modStrand t k f).marg = s.marg := rfl
@[simp] theorem State.modStrand_mstat (s : State) (t : Fin 192) (k : Fin 8) (f : Strand → Strand) : (s.modStrand t k f).mstat = s.mstat := rfl
@[simp] theorem State.modStrand_mres (s : State) (t : Fin 192) (k : Fin 8) (f : Strand → Strand) : (s.modStrand t k f).mres = s.mres := rfl
@[simp] theorem State.modStrand_slowCommand (s : State) (t : Fin 192) (k : Fin 8) (f : Strand → Strand) : (s.modStrand t k f).slowCommand = s.slowCommand := rfl
@[simp] theorem State.modStrand_busy (s : State) (t : Fin 192) (k : Fin 8) (f : Strand → Strand) : (s.modStrand t k f).busy = s.busy := rfl
@[simp] theorem State.modStrand_mlog (s : State) (t : Fin 192) (k : Fin 8) (f : Strand → Strand) : (s.modStrand t k f).mlog = s.mlog := rfl
@[simp] theorem State.modStrand_links (s : State) (t : Fin 192) (k : Fin 8) (f : Strand → Strand) : (s.modStrand t k f).links = s.links := rfl
@[simp] theorem State.modStrand_strPairs (s : State) (t : Fin 192) (k : Fin 8) (f : Strand → Strand) : (s.modStrand t k f).strPairs = s.strPairs := rfl
@[simp] theorem State.modStrand_hdmBase (s : State) (t : Fin 192) (k : Fin 8) (f : Strand → Strand) : (s.modStrand t k f).hdmBase = s.hdmBase := rfl
@[simp] theorem State.modStrand_hdmSize (s : State) (t : Fin 192) (k : Fin 8) (f : Strand → Strand) : (s.modStrand t k f).hdmSize = s.hdmSize := rfl
@[simp] theorem State.modStrand_msix (s : State) (t : Fin 192) (k : Fin 8) (f : Strand → Strand) : (s.modStrand t k f).msix = s.msix := rfl
@[simp] theorem State.modStrand_reply (s : State) (t : Fin 192) (k : Fin 8) (f : Strand → Strand) : (s.modStrand t k f).reply = s.reply := rfl
@[simp] theorem State.modStrand_spdm (s : State) (t : Fin 192) (k : Fin 8) (f : Strand → Strand) : (s.modStrand t k f).spdm = s.spdm := rfl
@[simp] theorem State.modStrand_spdmVersion (s : State) (t : Fin 192) (k : Fin 8) (f : Strand → Strand) : (s.modStrand t k f).spdmVersion = s.spdmVersion := rfl
@[simp] theorem State.modStrand_spdmAlgs (s : State) (t : Fin 192) (k : Fin 8) (f : Strand → Strand) : (s.modStrand t k f).spdmAlgs = s.spdmAlgs := rfl
@[simp] theorem State.modStrand_debuggers (s : State) (t : Fin 192) (k : Fin 8) (f : Strand → Strand) : (s.modStrand t k f).debuggers = s.debuggers := rfl
@[simp] theorem State.modStrand_fwmem (s : State) (t : Fin 192) (k : Fin 8) (f : Strand → Strand) : (s.modStrand t k f).fwmem = s.fwmem := rfl
@[simp] theorem State.modStrand_xlcache (s : State) (t : Fin 192) (k : Fin 8) (f : Strand → Strand) : (s.modStrand t k f).xlcache = s.xlcache := rfl
@[simp] theorem State.modStrand_minorities (s : State) (t : Fin 192) (k : Fin 8) (f : Strand → Strand) : (s.modStrand t k f).minorities = s.minorities := rfl

/-! ### State.modCtx changes tiles only -/

@[simp] theorem State.modCtx_agenda (s : State) (t : Fin 192) (c : Fin 16) (f : Ctx → Ctx) : (s.modCtx t c f).agenda = s.agenda := rfl
@[simp] theorem State.modCtx_cur (s : State) (t : Fin 192) (c : Fin 16) (f : Ctx → Ctx) : (s.modCtx t c f).cur = s.cur := rfl
@[simp] theorem State.modCtx_curPart (s : State) (t : Fin 192) (c : Fin 16) (f : Ctx → Ctx) : (s.modCtx t c f).curPart = s.curPart := rfl
@[simp] theorem State.modCtx_free (s : State) (t : Fin 192) (c : Fin 16) (f : Ctx → Ctx) : (s.modCtx t c f).free = s.free := rfl
@[simp] theorem State.modCtx_unsupported (s : State) (t : Fin 192) (c : Fin 16) (f : Ctx → Ctx) : (s.modCtx t c f).unsupported = s.unsupported := rfl
@[simp] theorem State.modCtx_ns (s : State) (t : Fin 192) (c : Fin 16) (f : Ctx → Ctx) : (s.modCtx t c f).ns = s.ns := rfl
@[simp] theorem State.modCtx_mem (s : State) (t : Fin 192) (c : Fin 16) (f : Ctx → Ctx) : (s.modCtx t c f).mem = s.mem := rfl
@[simp] theorem State.modCtx_tags (s : State) (t : Fin 192) (c : Fin 16) (f : Ctx → Ctx) : (s.modCtx t c f).tags = s.tags := rfl
@[simp] theorem State.modCtx_ecc (s : State) (t : Fin 192) (c : Fin 16) (f : Ctx → Ctx) : (s.modCtx t c f).ecc = s.ecc := rfl
@[simp] theorem State.modCtx_l2ecc (s : State) (t : Fin 192) (c : Fin 16) (f : Ctx → Ctx) : (s.modCtx t c f).l2ecc = s.l2ecc := rfl
@[simp] theorem State.modCtx_poisoned (s : State) (t : Fin 192) (c : Fin 16) (f : Ctx → Ctx) : (s.modCtx t c f).poisoned = s.poisoned := rfl
@[simp] theorem State.modCtx_unlogged (s : State) (t : Fin 192) (c : Fin 16) (f : Ctx → Ctx) : (s.modCtx t c f).unlogged = s.unlogged := rfl
@[simp] theorem State.modCtx_tlb (s : State) (t : Fin 192) (c : Fin 16) (f : Ctx → Ctx) : (s.modCtx t c f).tlb = s.tlb := rfl
@[simp] theorem State.modCtx_l2 (s : State) (t : Fin 192) (c : Fin 16) (f : Ctx → Ctx) : (s.modCtx t c f).l2 = s.l2 := rfl
@[simp] theorem State.modCtx_xcache (s : State) (t : Fin 192) (c : Fin 16) (f : Ctx → Ctx) : (s.modCtx t c f).xcache = s.xcache := rfl
@[simp] theorem State.modCtx_mtiles (s : State) (t : Fin 192) (c : Fin 16) (f : Ctx → Ctx) : (s.modCtx t c f).mtiles = s.mtiles := rfl
@[simp] theorem State.modCtx_parts (s : State) (t : Fin 192) (c : Fin 16) (f : Ctx → Ctx) : (s.modCtx t c f).parts = s.parts := rfl
@[simp] theorem State.modCtx_runs (s : State) (t : Fin 192) (c : Fin 16) (f : Ctx → Ctx) : (s.modCtx t c f).runs = s.runs := rfl
@[simp] theorem State.modCtx_saved (s : State) (t : Fin 192) (c : Fin 16) (f : Ctx → Ctx) : (s.modCtx t c f).saved = s.saved := rfl
@[simp] theorem State.modCtx_jobs (s : State) (t : Fin 192) (c : Fin 16) (f : Ctx → Ctx) : (s.modCtx t c f).jobs = s.jobs := rfl
@[simp] theorem State.modCtx_vstreams (s : State) (t : Fin 192) (c : Fin 16) (f : Ctx → Ctx) : (s.modCtx t c f).vstreams = s.vstreams := rfl
@[simp] theorem State.modCtx_hot (s : State) (t : Fin 192) (c : Fin 16) (f : Ctx → Ctx) : (s.modCtx t c f).hot = s.hot := rfl
@[simp] theorem State.modCtx_epochs (s : State) (t : Fin 192) (c : Fin 16) (f : Ctx → Ctx) : (s.modCtx t c f).epochs = s.epochs := rfl
@[simp] theorem State.modCtx_served (s : State) (t : Fin 192) (c : Fin 16) (f : Ctx → Ctx) : (s.modCtx t c f).served = s.served := rfl
@[simp] theorem State.modCtx_moves (s : State) (t : Fin 192) (c : Fin 16) (f : Ctx → Ctx) : (s.modCtx t c f).moves = s.moves := rfl
@[simp] theorem State.modCtx_eclipse (s : State) (t : Fin 192) (c : Fin 16) (f : Ctx → Ctx) : (s.modCtx t c f).eclipse = s.eclipse := rfl
@[simp] theorem State.modCtx_lifecycle (s : State) (t : Fin 192) (c : Fin 16) (f : Ctx → Ctx) : (s.modCtx t c f).lifecycle = s.lifecycle := rfl
@[simp] theorem State.modCtx_rollback (s : State) (t : Fin 192) (c : Fin 16) (f : Ctx → Ctx) : (s.modCtx t c f).rollback = s.rollback := rfl
@[simp] theorem State.modCtx_firmware (s : State) (t : Fin 192) (c : Fin 16) (f : Ctx → Ctx) : (s.modCtx t c f).firmware = s.firmware := rfl
@[simp] theorem State.modCtx_fwfail (s : State) (t : Fin 192) (c : Fin 16) (f : Ctx → Ctx) : (s.modCtx t c f).fwfail = s.fwfail := rfl
@[simp] theorem State.modCtx_ready (s : State) (t : Fin 192) (c : Fin 16) (f : Ctx → Ctx) : (s.modCtx t c f).ready = s.ready := rfl
@[simp] theorem State.modCtx_harebell (s : State) (t : Fin 192) (c : Fin 16) (f : Ctx → Ctx) : (s.modCtx t c f).harebell = s.harebell := rfl
@[simp] theorem State.modCtx_joined (s : State) (t : Fin 192) (c : Fin 16) (f : Ctx → Ctx) : (s.modCtx t c f).joined = s.joined := rfl
@[simp] theorem State.modCtx_cap (s : State) (t : Fin 192) (c : Fin 16) (f : Ctx → Ctx) : (s.modCtx t c f).cap = s.cap := rfl
@[simp] theorem State.modCtx_clocks (s : State) (t : Fin 192) (c : Fin 16) (f : Ctx → Ctx) : (s.modCtx t c f).clocks = s.clocks := rfl
@[simp] theorem State.modCtx_marg (s : State) (t : Fin 192) (c : Fin 16) (f : Ctx → Ctx) : (s.modCtx t c f).marg = s.marg := rfl
@[simp] theorem State.modCtx_mstat (s : State) (t : Fin 192) (c : Fin 16) (f : Ctx → Ctx) : (s.modCtx t c f).mstat = s.mstat := rfl
@[simp] theorem State.modCtx_mres (s : State) (t : Fin 192) (c : Fin 16) (f : Ctx → Ctx) : (s.modCtx t c f).mres = s.mres := rfl
@[simp] theorem State.modCtx_slowCommand (s : State) (t : Fin 192) (c : Fin 16) (f : Ctx → Ctx) : (s.modCtx t c f).slowCommand = s.slowCommand := rfl
@[simp] theorem State.modCtx_busy (s : State) (t : Fin 192) (c : Fin 16) (f : Ctx → Ctx) : (s.modCtx t c f).busy = s.busy := rfl
@[simp] theorem State.modCtx_mlog (s : State) (t : Fin 192) (c : Fin 16) (f : Ctx → Ctx) : (s.modCtx t c f).mlog = s.mlog := rfl
@[simp] theorem State.modCtx_links (s : State) (t : Fin 192) (c : Fin 16) (f : Ctx → Ctx) : (s.modCtx t c f).links = s.links := rfl
@[simp] theorem State.modCtx_strPairs (s : State) (t : Fin 192) (c : Fin 16) (f : Ctx → Ctx) : (s.modCtx t c f).strPairs = s.strPairs := rfl
@[simp] theorem State.modCtx_hdmBase (s : State) (t : Fin 192) (c : Fin 16) (f : Ctx → Ctx) : (s.modCtx t c f).hdmBase = s.hdmBase := rfl
@[simp] theorem State.modCtx_hdmSize (s : State) (t : Fin 192) (c : Fin 16) (f : Ctx → Ctx) : (s.modCtx t c f).hdmSize = s.hdmSize := rfl
@[simp] theorem State.modCtx_msix (s : State) (t : Fin 192) (c : Fin 16) (f : Ctx → Ctx) : (s.modCtx t c f).msix = s.msix := rfl
@[simp] theorem State.modCtx_reply (s : State) (t : Fin 192) (c : Fin 16) (f : Ctx → Ctx) : (s.modCtx t c f).reply = s.reply := rfl
@[simp] theorem State.modCtx_spdm (s : State) (t : Fin 192) (c : Fin 16) (f : Ctx → Ctx) : (s.modCtx t c f).spdm = s.spdm := rfl
@[simp] theorem State.modCtx_spdmVersion (s : State) (t : Fin 192) (c : Fin 16) (f : Ctx → Ctx) : (s.modCtx t c f).spdmVersion = s.spdmVersion := rfl
@[simp] theorem State.modCtx_spdmAlgs (s : State) (t : Fin 192) (c : Fin 16) (f : Ctx → Ctx) : (s.modCtx t c f).spdmAlgs = s.spdmAlgs := rfl
@[simp] theorem State.modCtx_debuggers (s : State) (t : Fin 192) (c : Fin 16) (f : Ctx → Ctx) : (s.modCtx t c f).debuggers = s.debuggers := rfl
@[simp] theorem State.modCtx_fwmem (s : State) (t : Fin 192) (c : Fin 16) (f : Ctx → Ctx) : (s.modCtx t c f).fwmem = s.fwmem := rfl
@[simp] theorem State.modCtx_xlcache (s : State) (t : Fin 192) (c : Fin 16) (f : Ctx → Ctx) : (s.modCtx t c f).xlcache = s.xlcache := rfl
@[simp] theorem State.modCtx_minorities (s : State) (t : Fin 192) (c : Fin 16) (f : Ctx → Ctx) : (s.modCtx t c f).minorities = s.minorities := rfl

/-! ### State.modPart changes parts only -/

@[simp] theorem State.modPart_agenda (s : State) (p : Fin 16) (f : Part → Part) : (s.modPart p f).agenda = s.agenda := rfl
@[simp] theorem State.modPart_cur (s : State) (p : Fin 16) (f : Part → Part) : (s.modPart p f).cur = s.cur := rfl
@[simp] theorem State.modPart_curPart (s : State) (p : Fin 16) (f : Part → Part) : (s.modPart p f).curPart = s.curPart := rfl
@[simp] theorem State.modPart_free (s : State) (p : Fin 16) (f : Part → Part) : (s.modPart p f).free = s.free := rfl
@[simp] theorem State.modPart_unsupported (s : State) (p : Fin 16) (f : Part → Part) : (s.modPart p f).unsupported = s.unsupported := rfl
@[simp] theorem State.modPart_ns (s : State) (p : Fin 16) (f : Part → Part) : (s.modPart p f).ns = s.ns := rfl
@[simp] theorem State.modPart_mem (s : State) (p : Fin 16) (f : Part → Part) : (s.modPart p f).mem = s.mem := rfl
@[simp] theorem State.modPart_tags (s : State) (p : Fin 16) (f : Part → Part) : (s.modPart p f).tags = s.tags := rfl
@[simp] theorem State.modPart_ecc (s : State) (p : Fin 16) (f : Part → Part) : (s.modPart p f).ecc = s.ecc := rfl
@[simp] theorem State.modPart_l2ecc (s : State) (p : Fin 16) (f : Part → Part) : (s.modPart p f).l2ecc = s.l2ecc := rfl
@[simp] theorem State.modPart_poisoned (s : State) (p : Fin 16) (f : Part → Part) : (s.modPart p f).poisoned = s.poisoned := rfl
@[simp] theorem State.modPart_unlogged (s : State) (p : Fin 16) (f : Part → Part) : (s.modPart p f).unlogged = s.unlogged := rfl
@[simp] theorem State.modPart_tlb (s : State) (p : Fin 16) (f : Part → Part) : (s.modPart p f).tlb = s.tlb := rfl
@[simp] theorem State.modPart_l2 (s : State) (p : Fin 16) (f : Part → Part) : (s.modPart p f).l2 = s.l2 := rfl
@[simp] theorem State.modPart_xcache (s : State) (p : Fin 16) (f : Part → Part) : (s.modPart p f).xcache = s.xcache := rfl
@[simp] theorem State.modPart_tiles (s : State) (p : Fin 16) (f : Part → Part) : (s.modPart p f).tiles = s.tiles := rfl
@[simp] theorem State.modPart_mtiles (s : State) (p : Fin 16) (f : Part → Part) : (s.modPart p f).mtiles = s.mtiles := rfl
@[simp] theorem State.modPart_runs (s : State) (p : Fin 16) (f : Part → Part) : (s.modPart p f).runs = s.runs := rfl
@[simp] theorem State.modPart_saved (s : State) (p : Fin 16) (f : Part → Part) : (s.modPart p f).saved = s.saved := rfl
@[simp] theorem State.modPart_jobs (s : State) (p : Fin 16) (f : Part → Part) : (s.modPart p f).jobs = s.jobs := rfl
@[simp] theorem State.modPart_vstreams (s : State) (p : Fin 16) (f : Part → Part) : (s.modPart p f).vstreams = s.vstreams := rfl
@[simp] theorem State.modPart_hot (s : State) (p : Fin 16) (f : Part → Part) : (s.modPart p f).hot = s.hot := rfl
@[simp] theorem State.modPart_epochs (s : State) (p : Fin 16) (f : Part → Part) : (s.modPart p f).epochs = s.epochs := rfl
@[simp] theorem State.modPart_served (s : State) (p : Fin 16) (f : Part → Part) : (s.modPart p f).served = s.served := rfl
@[simp] theorem State.modPart_moves (s : State) (p : Fin 16) (f : Part → Part) : (s.modPart p f).moves = s.moves := rfl
@[simp] theorem State.modPart_eclipse (s : State) (p : Fin 16) (f : Part → Part) : (s.modPart p f).eclipse = s.eclipse := rfl
@[simp] theorem State.modPart_lifecycle (s : State) (p : Fin 16) (f : Part → Part) : (s.modPart p f).lifecycle = s.lifecycle := rfl
@[simp] theorem State.modPart_rollback (s : State) (p : Fin 16) (f : Part → Part) : (s.modPart p f).rollback = s.rollback := rfl
@[simp] theorem State.modPart_firmware (s : State) (p : Fin 16) (f : Part → Part) : (s.modPart p f).firmware = s.firmware := rfl
@[simp] theorem State.modPart_fwfail (s : State) (p : Fin 16) (f : Part → Part) : (s.modPart p f).fwfail = s.fwfail := rfl
@[simp] theorem State.modPart_ready (s : State) (p : Fin 16) (f : Part → Part) : (s.modPart p f).ready = s.ready := rfl
@[simp] theorem State.modPart_harebell (s : State) (p : Fin 16) (f : Part → Part) : (s.modPart p f).harebell = s.harebell := rfl
@[simp] theorem State.modPart_joined (s : State) (p : Fin 16) (f : Part → Part) : (s.modPart p f).joined = s.joined := rfl
@[simp] theorem State.modPart_cap (s : State) (p : Fin 16) (f : Part → Part) : (s.modPart p f).cap = s.cap := rfl
@[simp] theorem State.modPart_clocks (s : State) (p : Fin 16) (f : Part → Part) : (s.modPart p f).clocks = s.clocks := rfl
@[simp] theorem State.modPart_marg (s : State) (p : Fin 16) (f : Part → Part) : (s.modPart p f).marg = s.marg := rfl
@[simp] theorem State.modPart_mstat (s : State) (p : Fin 16) (f : Part → Part) : (s.modPart p f).mstat = s.mstat := rfl
@[simp] theorem State.modPart_mres (s : State) (p : Fin 16) (f : Part → Part) : (s.modPart p f).mres = s.mres := rfl
@[simp] theorem State.modPart_slowCommand (s : State) (p : Fin 16) (f : Part → Part) : (s.modPart p f).slowCommand = s.slowCommand := rfl
@[simp] theorem State.modPart_busy (s : State) (p : Fin 16) (f : Part → Part) : (s.modPart p f).busy = s.busy := rfl
@[simp] theorem State.modPart_mlog (s : State) (p : Fin 16) (f : Part → Part) : (s.modPart p f).mlog = s.mlog := rfl
@[simp] theorem State.modPart_links (s : State) (p : Fin 16) (f : Part → Part) : (s.modPart p f).links = s.links := rfl
@[simp] theorem State.modPart_strPairs (s : State) (p : Fin 16) (f : Part → Part) : (s.modPart p f).strPairs = s.strPairs := rfl
@[simp] theorem State.modPart_hdmBase (s : State) (p : Fin 16) (f : Part → Part) : (s.modPart p f).hdmBase = s.hdmBase := rfl
@[simp] theorem State.modPart_hdmSize (s : State) (p : Fin 16) (f : Part → Part) : (s.modPart p f).hdmSize = s.hdmSize := rfl
@[simp] theorem State.modPart_msix (s : State) (p : Fin 16) (f : Part → Part) : (s.modPart p f).msix = s.msix := rfl
@[simp] theorem State.modPart_reply (s : State) (p : Fin 16) (f : Part → Part) : (s.modPart p f).reply = s.reply := rfl
@[simp] theorem State.modPart_spdm (s : State) (p : Fin 16) (f : Part → Part) : (s.modPart p f).spdm = s.spdm := rfl
@[simp] theorem State.modPart_spdmVersion (s : State) (p : Fin 16) (f : Part → Part) : (s.modPart p f).spdmVersion = s.spdmVersion := rfl
@[simp] theorem State.modPart_spdmAlgs (s : State) (p : Fin 16) (f : Part → Part) : (s.modPart p f).spdmAlgs = s.spdmAlgs := rfl
@[simp] theorem State.modPart_debuggers (s : State) (p : Fin 16) (f : Part → Part) : (s.modPart p f).debuggers = s.debuggers := rfl
@[simp] theorem State.modPart_fwmem (s : State) (p : Fin 16) (f : Part → Part) : (s.modPart p f).fwmem = s.fwmem := rfl
@[simp] theorem State.modPart_xlcache (s : State) (p : Fin 16) (f : Part → Part) : (s.modPart p f).xlcache = s.xlcache := rfl
@[simp] theorem State.modPart_minorities (s : State) (p : Fin 16) (f : Part → Part) : (s.modPart p f).minorities = s.minorities := rfl

/-! ### State.modQueue changes parts only -/

@[simp] theorem State.modQueue_agenda (s : State) (p : Fin 16) (q : Fin 64) (f : Queue → Queue) : (s.modQueue p q f).agenda = s.agenda := rfl
@[simp] theorem State.modQueue_cur (s : State) (p : Fin 16) (q : Fin 64) (f : Queue → Queue) : (s.modQueue p q f).cur = s.cur := rfl
@[simp] theorem State.modQueue_curPart (s : State) (p : Fin 16) (q : Fin 64) (f : Queue → Queue) : (s.modQueue p q f).curPart = s.curPart := rfl
@[simp] theorem State.modQueue_free (s : State) (p : Fin 16) (q : Fin 64) (f : Queue → Queue) : (s.modQueue p q f).free = s.free := rfl
@[simp] theorem State.modQueue_unsupported (s : State) (p : Fin 16) (q : Fin 64) (f : Queue → Queue) : (s.modQueue p q f).unsupported = s.unsupported := rfl
@[simp] theorem State.modQueue_ns (s : State) (p : Fin 16) (q : Fin 64) (f : Queue → Queue) : (s.modQueue p q f).ns = s.ns := rfl
@[simp] theorem State.modQueue_mem (s : State) (p : Fin 16) (q : Fin 64) (f : Queue → Queue) : (s.modQueue p q f).mem = s.mem := rfl
@[simp] theorem State.modQueue_tags (s : State) (p : Fin 16) (q : Fin 64) (f : Queue → Queue) : (s.modQueue p q f).tags = s.tags := rfl
@[simp] theorem State.modQueue_ecc (s : State) (p : Fin 16) (q : Fin 64) (f : Queue → Queue) : (s.modQueue p q f).ecc = s.ecc := rfl
@[simp] theorem State.modQueue_l2ecc (s : State) (p : Fin 16) (q : Fin 64) (f : Queue → Queue) : (s.modQueue p q f).l2ecc = s.l2ecc := rfl
@[simp] theorem State.modQueue_poisoned (s : State) (p : Fin 16) (q : Fin 64) (f : Queue → Queue) : (s.modQueue p q f).poisoned = s.poisoned := rfl
@[simp] theorem State.modQueue_unlogged (s : State) (p : Fin 16) (q : Fin 64) (f : Queue → Queue) : (s.modQueue p q f).unlogged = s.unlogged := rfl
@[simp] theorem State.modQueue_tlb (s : State) (p : Fin 16) (q : Fin 64) (f : Queue → Queue) : (s.modQueue p q f).tlb = s.tlb := rfl
@[simp] theorem State.modQueue_l2 (s : State) (p : Fin 16) (q : Fin 64) (f : Queue → Queue) : (s.modQueue p q f).l2 = s.l2 := rfl
@[simp] theorem State.modQueue_xcache (s : State) (p : Fin 16) (q : Fin 64) (f : Queue → Queue) : (s.modQueue p q f).xcache = s.xcache := rfl
@[simp] theorem State.modQueue_tiles (s : State) (p : Fin 16) (q : Fin 64) (f : Queue → Queue) : (s.modQueue p q f).tiles = s.tiles := rfl
@[simp] theorem State.modQueue_mtiles (s : State) (p : Fin 16) (q : Fin 64) (f : Queue → Queue) : (s.modQueue p q f).mtiles = s.mtiles := rfl
@[simp] theorem State.modQueue_runs (s : State) (p : Fin 16) (q : Fin 64) (f : Queue → Queue) : (s.modQueue p q f).runs = s.runs := rfl
@[simp] theorem State.modQueue_saved (s : State) (p : Fin 16) (q : Fin 64) (f : Queue → Queue) : (s.modQueue p q f).saved = s.saved := rfl
@[simp] theorem State.modQueue_jobs (s : State) (p : Fin 16) (q : Fin 64) (f : Queue → Queue) : (s.modQueue p q f).jobs = s.jobs := rfl
@[simp] theorem State.modQueue_vstreams (s : State) (p : Fin 16) (q : Fin 64) (f : Queue → Queue) : (s.modQueue p q f).vstreams = s.vstreams := rfl
@[simp] theorem State.modQueue_hot (s : State) (p : Fin 16) (q : Fin 64) (f : Queue → Queue) : (s.modQueue p q f).hot = s.hot := rfl
@[simp] theorem State.modQueue_epochs (s : State) (p : Fin 16) (q : Fin 64) (f : Queue → Queue) : (s.modQueue p q f).epochs = s.epochs := rfl
@[simp] theorem State.modQueue_served (s : State) (p : Fin 16) (q : Fin 64) (f : Queue → Queue) : (s.modQueue p q f).served = s.served := rfl
@[simp] theorem State.modQueue_moves (s : State) (p : Fin 16) (q : Fin 64) (f : Queue → Queue) : (s.modQueue p q f).moves = s.moves := rfl
@[simp] theorem State.modQueue_eclipse (s : State) (p : Fin 16) (q : Fin 64) (f : Queue → Queue) : (s.modQueue p q f).eclipse = s.eclipse := rfl
@[simp] theorem State.modQueue_lifecycle (s : State) (p : Fin 16) (q : Fin 64) (f : Queue → Queue) : (s.modQueue p q f).lifecycle = s.lifecycle := rfl
@[simp] theorem State.modQueue_rollback (s : State) (p : Fin 16) (q : Fin 64) (f : Queue → Queue) : (s.modQueue p q f).rollback = s.rollback := rfl
@[simp] theorem State.modQueue_firmware (s : State) (p : Fin 16) (q : Fin 64) (f : Queue → Queue) : (s.modQueue p q f).firmware = s.firmware := rfl
@[simp] theorem State.modQueue_fwfail (s : State) (p : Fin 16) (q : Fin 64) (f : Queue → Queue) : (s.modQueue p q f).fwfail = s.fwfail := rfl
@[simp] theorem State.modQueue_ready (s : State) (p : Fin 16) (q : Fin 64) (f : Queue → Queue) : (s.modQueue p q f).ready = s.ready := rfl
@[simp] theorem State.modQueue_harebell (s : State) (p : Fin 16) (q : Fin 64) (f : Queue → Queue) : (s.modQueue p q f).harebell = s.harebell := rfl
@[simp] theorem State.modQueue_joined (s : State) (p : Fin 16) (q : Fin 64) (f : Queue → Queue) : (s.modQueue p q f).joined = s.joined := rfl
@[simp] theorem State.modQueue_cap (s : State) (p : Fin 16) (q : Fin 64) (f : Queue → Queue) : (s.modQueue p q f).cap = s.cap := rfl
@[simp] theorem State.modQueue_clocks (s : State) (p : Fin 16) (q : Fin 64) (f : Queue → Queue) : (s.modQueue p q f).clocks = s.clocks := rfl
@[simp] theorem State.modQueue_marg (s : State) (p : Fin 16) (q : Fin 64) (f : Queue → Queue) : (s.modQueue p q f).marg = s.marg := rfl
@[simp] theorem State.modQueue_mstat (s : State) (p : Fin 16) (q : Fin 64) (f : Queue → Queue) : (s.modQueue p q f).mstat = s.mstat := rfl
@[simp] theorem State.modQueue_mres (s : State) (p : Fin 16) (q : Fin 64) (f : Queue → Queue) : (s.modQueue p q f).mres = s.mres := rfl
@[simp] theorem State.modQueue_slowCommand (s : State) (p : Fin 16) (q : Fin 64) (f : Queue → Queue) : (s.modQueue p q f).slowCommand = s.slowCommand := rfl
@[simp] theorem State.modQueue_busy (s : State) (p : Fin 16) (q : Fin 64) (f : Queue → Queue) : (s.modQueue p q f).busy = s.busy := rfl
@[simp] theorem State.modQueue_mlog (s : State) (p : Fin 16) (q : Fin 64) (f : Queue → Queue) : (s.modQueue p q f).mlog = s.mlog := rfl
@[simp] theorem State.modQueue_links (s : State) (p : Fin 16) (q : Fin 64) (f : Queue → Queue) : (s.modQueue p q f).links = s.links := rfl
@[simp] theorem State.modQueue_strPairs (s : State) (p : Fin 16) (q : Fin 64) (f : Queue → Queue) : (s.modQueue p q f).strPairs = s.strPairs := rfl
@[simp] theorem State.modQueue_hdmBase (s : State) (p : Fin 16) (q : Fin 64) (f : Queue → Queue) : (s.modQueue p q f).hdmBase = s.hdmBase := rfl
@[simp] theorem State.modQueue_hdmSize (s : State) (p : Fin 16) (q : Fin 64) (f : Queue → Queue) : (s.modQueue p q f).hdmSize = s.hdmSize := rfl
@[simp] theorem State.modQueue_msix (s : State) (p : Fin 16) (q : Fin 64) (f : Queue → Queue) : (s.modQueue p q f).msix = s.msix := rfl
@[simp] theorem State.modQueue_reply (s : State) (p : Fin 16) (q : Fin 64) (f : Queue → Queue) : (s.modQueue p q f).reply = s.reply := rfl
@[simp] theorem State.modQueue_spdm (s : State) (p : Fin 16) (q : Fin 64) (f : Queue → Queue) : (s.modQueue p q f).spdm = s.spdm := rfl
@[simp] theorem State.modQueue_spdmVersion (s : State) (p : Fin 16) (q : Fin 64) (f : Queue → Queue) : (s.modQueue p q f).spdmVersion = s.spdmVersion := rfl
@[simp] theorem State.modQueue_spdmAlgs (s : State) (p : Fin 16) (q : Fin 64) (f : Queue → Queue) : (s.modQueue p q f).spdmAlgs = s.spdmAlgs := rfl
@[simp] theorem State.modQueue_debuggers (s : State) (p : Fin 16) (q : Fin 64) (f : Queue → Queue) : (s.modQueue p q f).debuggers = s.debuggers := rfl
@[simp] theorem State.modQueue_fwmem (s : State) (p : Fin 16) (q : Fin 64) (f : Queue → Queue) : (s.modQueue p q f).fwmem = s.fwmem := rfl
@[simp] theorem State.modQueue_xlcache (s : State) (p : Fin 16) (q : Fin 64) (f : Queue → Queue) : (s.modQueue p q f).xlcache = s.xlcache := rfl
@[simp] theorem State.modQueue_minorities (s : State) (p : Fin 16) (q : Fin 64) (f : Queue → Queue) : (s.modQueue p q f).minorities = s.minorities := rfl

/-! ### State.modRun changes runs only -/

@[simp] theorem State.modRun_agenda (s : State) (g : Word) (f : Run → Run) : (s.modRun g f).agenda = s.agenda := rfl
@[simp] theorem State.modRun_cur (s : State) (g : Word) (f : Run → Run) : (s.modRun g f).cur = s.cur := rfl
@[simp] theorem State.modRun_curPart (s : State) (g : Word) (f : Run → Run) : (s.modRun g f).curPart = s.curPart := rfl
@[simp] theorem State.modRun_free (s : State) (g : Word) (f : Run → Run) : (s.modRun g f).free = s.free := rfl
@[simp] theorem State.modRun_unsupported (s : State) (g : Word) (f : Run → Run) : (s.modRun g f).unsupported = s.unsupported := rfl
@[simp] theorem State.modRun_ns (s : State) (g : Word) (f : Run → Run) : (s.modRun g f).ns = s.ns := rfl
@[simp] theorem State.modRun_mem (s : State) (g : Word) (f : Run → Run) : (s.modRun g f).mem = s.mem := rfl
@[simp] theorem State.modRun_tags (s : State) (g : Word) (f : Run → Run) : (s.modRun g f).tags = s.tags := rfl
@[simp] theorem State.modRun_ecc (s : State) (g : Word) (f : Run → Run) : (s.modRun g f).ecc = s.ecc := rfl
@[simp] theorem State.modRun_l2ecc (s : State) (g : Word) (f : Run → Run) : (s.modRun g f).l2ecc = s.l2ecc := rfl
@[simp] theorem State.modRun_poisoned (s : State) (g : Word) (f : Run → Run) : (s.modRun g f).poisoned = s.poisoned := rfl
@[simp] theorem State.modRun_unlogged (s : State) (g : Word) (f : Run → Run) : (s.modRun g f).unlogged = s.unlogged := rfl
@[simp] theorem State.modRun_tlb (s : State) (g : Word) (f : Run → Run) : (s.modRun g f).tlb = s.tlb := rfl
@[simp] theorem State.modRun_l2 (s : State) (g : Word) (f : Run → Run) : (s.modRun g f).l2 = s.l2 := rfl
@[simp] theorem State.modRun_xcache (s : State) (g : Word) (f : Run → Run) : (s.modRun g f).xcache = s.xcache := rfl
@[simp] theorem State.modRun_tiles (s : State) (g : Word) (f : Run → Run) : (s.modRun g f).tiles = s.tiles := rfl
@[simp] theorem State.modRun_mtiles (s : State) (g : Word) (f : Run → Run) : (s.modRun g f).mtiles = s.mtiles := rfl
@[simp] theorem State.modRun_parts (s : State) (g : Word) (f : Run → Run) : (s.modRun g f).parts = s.parts := rfl
@[simp] theorem State.modRun_saved (s : State) (g : Word) (f : Run → Run) : (s.modRun g f).saved = s.saved := rfl
@[simp] theorem State.modRun_jobs (s : State) (g : Word) (f : Run → Run) : (s.modRun g f).jobs = s.jobs := rfl
@[simp] theorem State.modRun_vstreams (s : State) (g : Word) (f : Run → Run) : (s.modRun g f).vstreams = s.vstreams := rfl
@[simp] theorem State.modRun_hot (s : State) (g : Word) (f : Run → Run) : (s.modRun g f).hot = s.hot := rfl
@[simp] theorem State.modRun_epochs (s : State) (g : Word) (f : Run → Run) : (s.modRun g f).epochs = s.epochs := rfl
@[simp] theorem State.modRun_served (s : State) (g : Word) (f : Run → Run) : (s.modRun g f).served = s.served := rfl
@[simp] theorem State.modRun_moves (s : State) (g : Word) (f : Run → Run) : (s.modRun g f).moves = s.moves := rfl
@[simp] theorem State.modRun_eclipse (s : State) (g : Word) (f : Run → Run) : (s.modRun g f).eclipse = s.eclipse := rfl
@[simp] theorem State.modRun_lifecycle (s : State) (g : Word) (f : Run → Run) : (s.modRun g f).lifecycle = s.lifecycle := rfl
@[simp] theorem State.modRun_rollback (s : State) (g : Word) (f : Run → Run) : (s.modRun g f).rollback = s.rollback := rfl
@[simp] theorem State.modRun_firmware (s : State) (g : Word) (f : Run → Run) : (s.modRun g f).firmware = s.firmware := rfl
@[simp] theorem State.modRun_fwfail (s : State) (g : Word) (f : Run → Run) : (s.modRun g f).fwfail = s.fwfail := rfl
@[simp] theorem State.modRun_ready (s : State) (g : Word) (f : Run → Run) : (s.modRun g f).ready = s.ready := rfl
@[simp] theorem State.modRun_harebell (s : State) (g : Word) (f : Run → Run) : (s.modRun g f).harebell = s.harebell := rfl
@[simp] theorem State.modRun_joined (s : State) (g : Word) (f : Run → Run) : (s.modRun g f).joined = s.joined := rfl
@[simp] theorem State.modRun_cap (s : State) (g : Word) (f : Run → Run) : (s.modRun g f).cap = s.cap := rfl
@[simp] theorem State.modRun_clocks (s : State) (g : Word) (f : Run → Run) : (s.modRun g f).clocks = s.clocks := rfl
@[simp] theorem State.modRun_marg (s : State) (g : Word) (f : Run → Run) : (s.modRun g f).marg = s.marg := rfl
@[simp] theorem State.modRun_mstat (s : State) (g : Word) (f : Run → Run) : (s.modRun g f).mstat = s.mstat := rfl
@[simp] theorem State.modRun_mres (s : State) (g : Word) (f : Run → Run) : (s.modRun g f).mres = s.mres := rfl
@[simp] theorem State.modRun_slowCommand (s : State) (g : Word) (f : Run → Run) : (s.modRun g f).slowCommand = s.slowCommand := rfl
@[simp] theorem State.modRun_busy (s : State) (g : Word) (f : Run → Run) : (s.modRun g f).busy = s.busy := rfl
@[simp] theorem State.modRun_mlog (s : State) (g : Word) (f : Run → Run) : (s.modRun g f).mlog = s.mlog := rfl
@[simp] theorem State.modRun_links (s : State) (g : Word) (f : Run → Run) : (s.modRun g f).links = s.links := rfl
@[simp] theorem State.modRun_strPairs (s : State) (g : Word) (f : Run → Run) : (s.modRun g f).strPairs = s.strPairs := rfl
@[simp] theorem State.modRun_hdmBase (s : State) (g : Word) (f : Run → Run) : (s.modRun g f).hdmBase = s.hdmBase := rfl
@[simp] theorem State.modRun_hdmSize (s : State) (g : Word) (f : Run → Run) : (s.modRun g f).hdmSize = s.hdmSize := rfl
@[simp] theorem State.modRun_msix (s : State) (g : Word) (f : Run → Run) : (s.modRun g f).msix = s.msix := rfl
@[simp] theorem State.modRun_reply (s : State) (g : Word) (f : Run → Run) : (s.modRun g f).reply = s.reply := rfl
@[simp] theorem State.modRun_spdm (s : State) (g : Word) (f : Run → Run) : (s.modRun g f).spdm = s.spdm := rfl
@[simp] theorem State.modRun_spdmVersion (s : State) (g : Word) (f : Run → Run) : (s.modRun g f).spdmVersion = s.spdmVersion := rfl
@[simp] theorem State.modRun_spdmAlgs (s : State) (g : Word) (f : Run → Run) : (s.modRun g f).spdmAlgs = s.spdmAlgs := rfl
@[simp] theorem State.modRun_debuggers (s : State) (g : Word) (f : Run → Run) : (s.modRun g f).debuggers = s.debuggers := rfl
@[simp] theorem State.modRun_fwmem (s : State) (g : Word) (f : Run → Run) : (s.modRun g f).fwmem = s.fwmem := rfl
@[simp] theorem State.modRun_xlcache (s : State) (g : Word) (f : Run → Run) : (s.modRun g f).xlcache = s.xlcache := rfl
@[simp] theorem State.modRun_minorities (s : State) (g : Word) (f : Run → Run) : (s.modRun g f).minorities = s.minorities := rfl

/-! ### State.dropRun changes runs only -/

@[simp] theorem State.dropRun_agenda (s : State) (g : Word) : (s.dropRun g).agenda = s.agenda := rfl
@[simp] theorem State.dropRun_cur (s : State) (g : Word) : (s.dropRun g).cur = s.cur := rfl
@[simp] theorem State.dropRun_curPart (s : State) (g : Word) : (s.dropRun g).curPart = s.curPart := rfl
@[simp] theorem State.dropRun_free (s : State) (g : Word) : (s.dropRun g).free = s.free := rfl
@[simp] theorem State.dropRun_unsupported (s : State) (g : Word) : (s.dropRun g).unsupported = s.unsupported := rfl
@[simp] theorem State.dropRun_ns (s : State) (g : Word) : (s.dropRun g).ns = s.ns := rfl
@[simp] theorem State.dropRun_mem (s : State) (g : Word) : (s.dropRun g).mem = s.mem := rfl
@[simp] theorem State.dropRun_tags (s : State) (g : Word) : (s.dropRun g).tags = s.tags := rfl
@[simp] theorem State.dropRun_ecc (s : State) (g : Word) : (s.dropRun g).ecc = s.ecc := rfl
@[simp] theorem State.dropRun_l2ecc (s : State) (g : Word) : (s.dropRun g).l2ecc = s.l2ecc := rfl
@[simp] theorem State.dropRun_poisoned (s : State) (g : Word) : (s.dropRun g).poisoned = s.poisoned := rfl
@[simp] theorem State.dropRun_unlogged (s : State) (g : Word) : (s.dropRun g).unlogged = s.unlogged := rfl
@[simp] theorem State.dropRun_tlb (s : State) (g : Word) : (s.dropRun g).tlb = s.tlb := rfl
@[simp] theorem State.dropRun_l2 (s : State) (g : Word) : (s.dropRun g).l2 = s.l2 := rfl
@[simp] theorem State.dropRun_xcache (s : State) (g : Word) : (s.dropRun g).xcache = s.xcache := rfl
@[simp] theorem State.dropRun_tiles (s : State) (g : Word) : (s.dropRun g).tiles = s.tiles := rfl
@[simp] theorem State.dropRun_mtiles (s : State) (g : Word) : (s.dropRun g).mtiles = s.mtiles := rfl
@[simp] theorem State.dropRun_parts (s : State) (g : Word) : (s.dropRun g).parts = s.parts := rfl
@[simp] theorem State.dropRun_saved (s : State) (g : Word) : (s.dropRun g).saved = s.saved := rfl
@[simp] theorem State.dropRun_jobs (s : State) (g : Word) : (s.dropRun g).jobs = s.jobs := rfl
@[simp] theorem State.dropRun_vstreams (s : State) (g : Word) : (s.dropRun g).vstreams = s.vstreams := rfl
@[simp] theorem State.dropRun_hot (s : State) (g : Word) : (s.dropRun g).hot = s.hot := rfl
@[simp] theorem State.dropRun_epochs (s : State) (g : Word) : (s.dropRun g).epochs = s.epochs := rfl
@[simp] theorem State.dropRun_served (s : State) (g : Word) : (s.dropRun g).served = s.served := rfl
@[simp] theorem State.dropRun_moves (s : State) (g : Word) : (s.dropRun g).moves = s.moves := rfl
@[simp] theorem State.dropRun_eclipse (s : State) (g : Word) : (s.dropRun g).eclipse = s.eclipse := rfl
@[simp] theorem State.dropRun_lifecycle (s : State) (g : Word) : (s.dropRun g).lifecycle = s.lifecycle := rfl
@[simp] theorem State.dropRun_rollback (s : State) (g : Word) : (s.dropRun g).rollback = s.rollback := rfl
@[simp] theorem State.dropRun_firmware (s : State) (g : Word) : (s.dropRun g).firmware = s.firmware := rfl
@[simp] theorem State.dropRun_fwfail (s : State) (g : Word) : (s.dropRun g).fwfail = s.fwfail := rfl
@[simp] theorem State.dropRun_ready (s : State) (g : Word) : (s.dropRun g).ready = s.ready := rfl
@[simp] theorem State.dropRun_harebell (s : State) (g : Word) : (s.dropRun g).harebell = s.harebell := rfl
@[simp] theorem State.dropRun_joined (s : State) (g : Word) : (s.dropRun g).joined = s.joined := rfl
@[simp] theorem State.dropRun_cap (s : State) (g : Word) : (s.dropRun g).cap = s.cap := rfl
@[simp] theorem State.dropRun_clocks (s : State) (g : Word) : (s.dropRun g).clocks = s.clocks := rfl
@[simp] theorem State.dropRun_marg (s : State) (g : Word) : (s.dropRun g).marg = s.marg := rfl
@[simp] theorem State.dropRun_mstat (s : State) (g : Word) : (s.dropRun g).mstat = s.mstat := rfl
@[simp] theorem State.dropRun_mres (s : State) (g : Word) : (s.dropRun g).mres = s.mres := rfl
@[simp] theorem State.dropRun_slowCommand (s : State) (g : Word) : (s.dropRun g).slowCommand = s.slowCommand := rfl
@[simp] theorem State.dropRun_busy (s : State) (g : Word) : (s.dropRun g).busy = s.busy := rfl
@[simp] theorem State.dropRun_mlog (s : State) (g : Word) : (s.dropRun g).mlog = s.mlog := rfl
@[simp] theorem State.dropRun_links (s : State) (g : Word) : (s.dropRun g).links = s.links := rfl
@[simp] theorem State.dropRun_strPairs (s : State) (g : Word) : (s.dropRun g).strPairs = s.strPairs := rfl
@[simp] theorem State.dropRun_hdmBase (s : State) (g : Word) : (s.dropRun g).hdmBase = s.hdmBase := rfl
@[simp] theorem State.dropRun_hdmSize (s : State) (g : Word) : (s.dropRun g).hdmSize = s.hdmSize := rfl
@[simp] theorem State.dropRun_msix (s : State) (g : Word) : (s.dropRun g).msix = s.msix := rfl
@[simp] theorem State.dropRun_reply (s : State) (g : Word) : (s.dropRun g).reply = s.reply := rfl
@[simp] theorem State.dropRun_spdm (s : State) (g : Word) : (s.dropRun g).spdm = s.spdm := rfl
@[simp] theorem State.dropRun_spdmVersion (s : State) (g : Word) : (s.dropRun g).spdmVersion = s.spdmVersion := rfl
@[simp] theorem State.dropRun_spdmAlgs (s : State) (g : Word) : (s.dropRun g).spdmAlgs = s.spdmAlgs := rfl
@[simp] theorem State.dropRun_debuggers (s : State) (g : Word) : (s.dropRun g).debuggers = s.debuggers := rfl
@[simp] theorem State.dropRun_fwmem (s : State) (g : Word) : (s.dropRun g).fwmem = s.fwmem := rfl
@[simp] theorem State.dropRun_xlcache (s : State) (g : Word) : (s.dropRun g).xlcache = s.xlcache := rfl
@[simp] theorem State.dropRun_minorities (s : State) (g : Word) : (s.dropRun g).minorities = s.minorities := rfl

/-! ### State.modMTile changes mtiles only -/

@[simp] theorem State.modMTile_agenda (s : State) (m : Nat) (f : MTile → MTile) : (s.modMTile m f).agenda = s.agenda := rfl
@[simp] theorem State.modMTile_cur (s : State) (m : Nat) (f : MTile → MTile) : (s.modMTile m f).cur = s.cur := rfl
@[simp] theorem State.modMTile_curPart (s : State) (m : Nat) (f : MTile → MTile) : (s.modMTile m f).curPart = s.curPart := rfl
@[simp] theorem State.modMTile_free (s : State) (m : Nat) (f : MTile → MTile) : (s.modMTile m f).free = s.free := rfl
@[simp] theorem State.modMTile_unsupported (s : State) (m : Nat) (f : MTile → MTile) : (s.modMTile m f).unsupported = s.unsupported := rfl
@[simp] theorem State.modMTile_ns (s : State) (m : Nat) (f : MTile → MTile) : (s.modMTile m f).ns = s.ns := rfl
@[simp] theorem State.modMTile_mem (s : State) (m : Nat) (f : MTile → MTile) : (s.modMTile m f).mem = s.mem := rfl
@[simp] theorem State.modMTile_tags (s : State) (m : Nat) (f : MTile → MTile) : (s.modMTile m f).tags = s.tags := rfl
@[simp] theorem State.modMTile_ecc (s : State) (m : Nat) (f : MTile → MTile) : (s.modMTile m f).ecc = s.ecc := rfl
@[simp] theorem State.modMTile_l2ecc (s : State) (m : Nat) (f : MTile → MTile) : (s.modMTile m f).l2ecc = s.l2ecc := rfl
@[simp] theorem State.modMTile_poisoned (s : State) (m : Nat) (f : MTile → MTile) : (s.modMTile m f).poisoned = s.poisoned := rfl
@[simp] theorem State.modMTile_unlogged (s : State) (m : Nat) (f : MTile → MTile) : (s.modMTile m f).unlogged = s.unlogged := rfl
@[simp] theorem State.modMTile_tlb (s : State) (m : Nat) (f : MTile → MTile) : (s.modMTile m f).tlb = s.tlb := rfl
@[simp] theorem State.modMTile_l2 (s : State) (m : Nat) (f : MTile → MTile) : (s.modMTile m f).l2 = s.l2 := rfl
@[simp] theorem State.modMTile_xcache (s : State) (m : Nat) (f : MTile → MTile) : (s.modMTile m f).xcache = s.xcache := rfl
@[simp] theorem State.modMTile_tiles (s : State) (m : Nat) (f : MTile → MTile) : (s.modMTile m f).tiles = s.tiles := rfl
@[simp] theorem State.modMTile_parts (s : State) (m : Nat) (f : MTile → MTile) : (s.modMTile m f).parts = s.parts := rfl
@[simp] theorem State.modMTile_runs (s : State) (m : Nat) (f : MTile → MTile) : (s.modMTile m f).runs = s.runs := rfl
@[simp] theorem State.modMTile_saved (s : State) (m : Nat) (f : MTile → MTile) : (s.modMTile m f).saved = s.saved := rfl
@[simp] theorem State.modMTile_jobs (s : State) (m : Nat) (f : MTile → MTile) : (s.modMTile m f).jobs = s.jobs := rfl
@[simp] theorem State.modMTile_vstreams (s : State) (m : Nat) (f : MTile → MTile) : (s.modMTile m f).vstreams = s.vstreams := rfl
@[simp] theorem State.modMTile_hot (s : State) (m : Nat) (f : MTile → MTile) : (s.modMTile m f).hot = s.hot := rfl
@[simp] theorem State.modMTile_epochs (s : State) (m : Nat) (f : MTile → MTile) : (s.modMTile m f).epochs = s.epochs := rfl
@[simp] theorem State.modMTile_served (s : State) (m : Nat) (f : MTile → MTile) : (s.modMTile m f).served = s.served := rfl
@[simp] theorem State.modMTile_moves (s : State) (m : Nat) (f : MTile → MTile) : (s.modMTile m f).moves = s.moves := rfl
@[simp] theorem State.modMTile_eclipse (s : State) (m : Nat) (f : MTile → MTile) : (s.modMTile m f).eclipse = s.eclipse := rfl
@[simp] theorem State.modMTile_lifecycle (s : State) (m : Nat) (f : MTile → MTile) : (s.modMTile m f).lifecycle = s.lifecycle := rfl
@[simp] theorem State.modMTile_rollback (s : State) (m : Nat) (f : MTile → MTile) : (s.modMTile m f).rollback = s.rollback := rfl
@[simp] theorem State.modMTile_firmware (s : State) (m : Nat) (f : MTile → MTile) : (s.modMTile m f).firmware = s.firmware := rfl
@[simp] theorem State.modMTile_fwfail (s : State) (m : Nat) (f : MTile → MTile) : (s.modMTile m f).fwfail = s.fwfail := rfl
@[simp] theorem State.modMTile_ready (s : State) (m : Nat) (f : MTile → MTile) : (s.modMTile m f).ready = s.ready := rfl
@[simp] theorem State.modMTile_harebell (s : State) (m : Nat) (f : MTile → MTile) : (s.modMTile m f).harebell = s.harebell := rfl
@[simp] theorem State.modMTile_joined (s : State) (m : Nat) (f : MTile → MTile) : (s.modMTile m f).joined = s.joined := rfl
@[simp] theorem State.modMTile_cap (s : State) (m : Nat) (f : MTile → MTile) : (s.modMTile m f).cap = s.cap := rfl
@[simp] theorem State.modMTile_clocks (s : State) (m : Nat) (f : MTile → MTile) : (s.modMTile m f).clocks = s.clocks := rfl
@[simp] theorem State.modMTile_marg (s : State) (m : Nat) (f : MTile → MTile) : (s.modMTile m f).marg = s.marg := rfl
@[simp] theorem State.modMTile_mstat (s : State) (m : Nat) (f : MTile → MTile) : (s.modMTile m f).mstat = s.mstat := rfl
@[simp] theorem State.modMTile_mres (s : State) (m : Nat) (f : MTile → MTile) : (s.modMTile m f).mres = s.mres := rfl
@[simp] theorem State.modMTile_slowCommand (s : State) (m : Nat) (f : MTile → MTile) : (s.modMTile m f).slowCommand = s.slowCommand := rfl
@[simp] theorem State.modMTile_busy (s : State) (m : Nat) (f : MTile → MTile) : (s.modMTile m f).busy = s.busy := rfl
@[simp] theorem State.modMTile_mlog (s : State) (m : Nat) (f : MTile → MTile) : (s.modMTile m f).mlog = s.mlog := rfl
@[simp] theorem State.modMTile_links (s : State) (m : Nat) (f : MTile → MTile) : (s.modMTile m f).links = s.links := rfl
@[simp] theorem State.modMTile_strPairs (s : State) (m : Nat) (f : MTile → MTile) : (s.modMTile m f).strPairs = s.strPairs := rfl
@[simp] theorem State.modMTile_hdmBase (s : State) (m : Nat) (f : MTile → MTile) : (s.modMTile m f).hdmBase = s.hdmBase := rfl
@[simp] theorem State.modMTile_hdmSize (s : State) (m : Nat) (f : MTile → MTile) : (s.modMTile m f).hdmSize = s.hdmSize := rfl
@[simp] theorem State.modMTile_msix (s : State) (m : Nat) (f : MTile → MTile) : (s.modMTile m f).msix = s.msix := rfl
@[simp] theorem State.modMTile_reply (s : State) (m : Nat) (f : MTile → MTile) : (s.modMTile m f).reply = s.reply := rfl
@[simp] theorem State.modMTile_spdm (s : State) (m : Nat) (f : MTile → MTile) : (s.modMTile m f).spdm = s.spdm := rfl
@[simp] theorem State.modMTile_spdmVersion (s : State) (m : Nat) (f : MTile → MTile) : (s.modMTile m f).spdmVersion = s.spdmVersion := rfl
@[simp] theorem State.modMTile_spdmAlgs (s : State) (m : Nat) (f : MTile → MTile) : (s.modMTile m f).spdmAlgs = s.spdmAlgs := rfl
@[simp] theorem State.modMTile_debuggers (s : State) (m : Nat) (f : MTile → MTile) : (s.modMTile m f).debuggers = s.debuggers := rfl
@[simp] theorem State.modMTile_fwmem (s : State) (m : Nat) (f : MTile → MTile) : (s.modMTile m f).fwmem = s.fwmem := rfl
@[simp] theorem State.modMTile_xlcache (s : State) (m : Nat) (f : MTile → MTile) : (s.modMTile m f).xlcache = s.xlcache := rfl
@[simp] theorem State.modMTile_minorities (s : State) (m : Nat) (f : MTile → MTile) : (s.modMTile m f).minorities = s.minorities := rfl

/-! ### A sequencer's named updates -/

@[simp] theorem Seq.wr_preds (q : Seq) (n : BitVec 5) (v : DWord) : (q.wr n v).preds = q.preds := by unfold Seq.wr; split <;> rfl
@[simp] theorem Seq.wr_pc (q : Seq) (n : BitVec 5) (v : DWord) : (q.wr n v).pc = q.pc := by unfold Seq.wr; split <;> rfl
@[simp] theorem Seq.wr_status (q : Seq) (n : BitVec 5) (v : DWord) : (q.wr n v).status = q.status := by unfold Seq.wr; split <;> rfl
@[simp] theorem Seq.wr_epc (q : Seq) (n : BitVec 5) (v : DWord) : (q.wr n v).epc = q.epc := by unfold Seq.wr; split <;> rfl
@[simp] theorem Seq.wr_cause (q : Seq) (n : BitVec 5) (v : DWord) : (q.wr n v).cause = q.cause := by unfold Seq.wr; split <;> rfl
@[simp] theorem Seq.wr_tval (q : Seq) (n : BitVec 5) (v : DWord) : (q.wr n v).tval = q.tval := by unfold Seq.wr; split <;> rfl
@[simp] theorem Seq.wr_vbase (q : Seq) (n : BitVec 5) (v : DWord) : (q.wr n v).vbase = q.vbase := by unfold Seq.wr; split <;> rfl
@[simp] theorem Seq.wr_scratch (q : Seq) (n : BitVec 5) (v : DWord) : (q.wr n v).scratch = q.scratch := by unfold Seq.wr; split <;> rfl
@[simp] theorem Seq.wr_ctx (q : Seq) (n : BitVec 5) (v : DWord) : (q.wr n v).ctx = q.ctx := by unfold Seq.wr; split <;> rfl
@[simp] theorem Seq.wr_brk (q : Seq) (n : BitVec 5) (v : DWord) : (q.wr n v).brk = q.brk := by unfold Seq.wr; split <;> rfl
@[simp] theorem Seq.wr_ram (q : Seq) (n : BitVec 5) (v : DWord) : (q.wr n v).ram = q.ram := by unfold Seq.wr; split <;> rfl
@[simp] theorem Seq.wr_mode (q : Seq) (n : BitVec 5) (v : DWord) : (q.wr n v).mode = q.mode := by unfold Seq.wr; split <;> rfl
@[simp] theorem Seq.wr_stall (q : Seq) (n : BitVec 5) (v : DWord) : (q.wr n v).stall = q.stall := by unfold Seq.wr; split <;> rfl
@[simp] theorem Seq.wr_noBrk (q : Seq) (n : BitVec 5) (v : DWord) : (q.wr n v).noBrk = q.noBrk := by unfold Seq.wr; split <;> rfl
@[simp] theorem Seq.wr_held (q : Seq) (n : BitVec 5) (v : DWord) : (q.wr n v).held = q.held := by unfold Seq.wr; split <;> rfl
@[simp] theorem Seq.wr_il1 (q : Seq) (n : BitVec 5) (v : DWord) : (q.wr n v).il1 = q.il1 := by unfold Seq.wr; split <;> rfl
@[simp] theorem Seq.wr_aluErr (q : Seq) (n : BitVec 5) (v : DWord) : (q.wr n v).aluErr = q.aluErr := by unfold Seq.wr; split <;> rfl
@[simp] theorem Seq.wr_lateErr (q : Seq) (n : BitVec 5) (v : DWord) : (q.wr n v).lateErr = q.lateErr := by unfold Seq.wr; split <;> rfl
@[simp] theorem Seq.wr_slow (q : Seq) (n : BitVec 5) (v : DWord) : (q.wr n v).slow = q.slow := by unfold Seq.wr; split <;> rfl
@[simp] theorem Seq.wr_minority (q : Seq) (n : BitVec 5) (v : DWord) : (q.wr n v).minority = q.minority := by unfold Seq.wr; split <;> rfl
@[simp] theorem Seq.wr_svSince (q : Seq) (n : BitVec 5) (v : DWord) : (q.wr n v).svSince = q.svSince := by unfold Seq.wr; split <;> rfl
@[simp] theorem Seq.wr_sleeping (q : Seq) (n : BitVec 5) (v : DWord) : (q.wr n v).sleeping = q.sleeping := by unfold Seq.wr; split <;> rfl
@[simp] theorem Seq.wr_shoots (q : Seq) (n : BitVec 5) (v : DWord) : (q.wr n v).shoots = q.shoots := by unfold Seq.wr; split <;> rfl
@[simp] theorem Seq.wr_word (q : Seq) (n : BitVec 5) (v : DWord) : (q.wr n v).word = q.word := by unfold Seq.wr; split <;> rfl
@[simp] theorem Seq.wr_holding (q : Seq) (n : BitVec 5) (v : DWord) : (q.wr n v).holding = q.holding := by unfold Seq.wr; split <;> rfl

@[simp] theorem Seq.wrPred_regs (q : Seq) (n : BitVec 3) (v : Bool) : (q.wrPred n v).regs = q.regs := by unfold Seq.wrPred; split <;> rfl
@[simp] theorem Seq.wrPred_pc (q : Seq) (n : BitVec 3) (v : Bool) : (q.wrPred n v).pc = q.pc := by unfold Seq.wrPred; split <;> rfl
@[simp] theorem Seq.wrPred_status (q : Seq) (n : BitVec 3) (v : Bool) : (q.wrPred n v).status = q.status := by unfold Seq.wrPred; split <;> rfl
@[simp] theorem Seq.wrPred_epc (q : Seq) (n : BitVec 3) (v : Bool) : (q.wrPred n v).epc = q.epc := by unfold Seq.wrPred; split <;> rfl
@[simp] theorem Seq.wrPred_cause (q : Seq) (n : BitVec 3) (v : Bool) : (q.wrPred n v).cause = q.cause := by unfold Seq.wrPred; split <;> rfl
@[simp] theorem Seq.wrPred_tval (q : Seq) (n : BitVec 3) (v : Bool) : (q.wrPred n v).tval = q.tval := by unfold Seq.wrPred; split <;> rfl
@[simp] theorem Seq.wrPred_vbase (q : Seq) (n : BitVec 3) (v : Bool) : (q.wrPred n v).vbase = q.vbase := by unfold Seq.wrPred; split <;> rfl
@[simp] theorem Seq.wrPred_scratch (q : Seq) (n : BitVec 3) (v : Bool) : (q.wrPred n v).scratch = q.scratch := by unfold Seq.wrPred; split <;> rfl
@[simp] theorem Seq.wrPred_ctx (q : Seq) (n : BitVec 3) (v : Bool) : (q.wrPred n v).ctx = q.ctx := by unfold Seq.wrPred; split <;> rfl
@[simp] theorem Seq.wrPred_brk (q : Seq) (n : BitVec 3) (v : Bool) : (q.wrPred n v).brk = q.brk := by unfold Seq.wrPred; split <;> rfl
@[simp] theorem Seq.wrPred_ram (q : Seq) (n : BitVec 3) (v : Bool) : (q.wrPred n v).ram = q.ram := by unfold Seq.wrPred; split <;> rfl
@[simp] theorem Seq.wrPred_mode (q : Seq) (n : BitVec 3) (v : Bool) : (q.wrPred n v).mode = q.mode := by unfold Seq.wrPred; split <;> rfl
@[simp] theorem Seq.wrPred_stall (q : Seq) (n : BitVec 3) (v : Bool) : (q.wrPred n v).stall = q.stall := by unfold Seq.wrPred; split <;> rfl
@[simp] theorem Seq.wrPred_noBrk (q : Seq) (n : BitVec 3) (v : Bool) : (q.wrPred n v).noBrk = q.noBrk := by unfold Seq.wrPred; split <;> rfl
@[simp] theorem Seq.wrPred_held (q : Seq) (n : BitVec 3) (v : Bool) : (q.wrPred n v).held = q.held := by unfold Seq.wrPred; split <;> rfl
@[simp] theorem Seq.wrPred_il1 (q : Seq) (n : BitVec 3) (v : Bool) : (q.wrPred n v).il1 = q.il1 := by unfold Seq.wrPred; split <;> rfl
@[simp] theorem Seq.wrPred_aluErr (q : Seq) (n : BitVec 3) (v : Bool) : (q.wrPred n v).aluErr = q.aluErr := by unfold Seq.wrPred; split <;> rfl
@[simp] theorem Seq.wrPred_lateErr (q : Seq) (n : BitVec 3) (v : Bool) : (q.wrPred n v).lateErr = q.lateErr := by unfold Seq.wrPred; split <;> rfl
@[simp] theorem Seq.wrPred_slow (q : Seq) (n : BitVec 3) (v : Bool) : (q.wrPred n v).slow = q.slow := by unfold Seq.wrPred; split <;> rfl
@[simp] theorem Seq.wrPred_minority (q : Seq) (n : BitVec 3) (v : Bool) : (q.wrPred n v).minority = q.minority := by unfold Seq.wrPred; split <;> rfl
@[simp] theorem Seq.wrPred_svSince (q : Seq) (n : BitVec 3) (v : Bool) : (q.wrPred n v).svSince = q.svSince := by unfold Seq.wrPred; split <;> rfl
@[simp] theorem Seq.wrPred_sleeping (q : Seq) (n : BitVec 3) (v : Bool) : (q.wrPred n v).sleeping = q.sleeping := by unfold Seq.wrPred; split <;> rfl
@[simp] theorem Seq.wrPred_shoots (q : Seq) (n : BitVec 3) (v : Bool) : (q.wrPred n v).shoots = q.shoots := by unfold Seq.wrPred; split <;> rfl
@[simp] theorem Seq.wrPred_word (q : Seq) (n : BitVec 3) (v : Bool) : (q.wrPred n v).word = q.word := by unfold Seq.wrPred; split <;> rfl
@[simp] theorem Seq.wrPred_holding (q : Seq) (n : BitVec 3) (v : Bool) : (q.wrPred n v).holding = q.holding := by unfold Seq.wrPred; split <;> rfl

@[simp] theorem Seq.advance_regs (q : Seq) : q.advance.regs = q.regs := rfl
@[simp] theorem Seq.advance_preds (q : Seq) : q.advance.preds = q.preds := rfl
@[simp] theorem Seq.advance_status (q : Seq) : q.advance.status = q.status := rfl
@[simp] theorem Seq.advance_epc (q : Seq) : q.advance.epc = q.epc := rfl
@[simp] theorem Seq.advance_cause (q : Seq) : q.advance.cause = q.cause := rfl
@[simp] theorem Seq.advance_tval (q : Seq) : q.advance.tval = q.tval := rfl
@[simp] theorem Seq.advance_vbase (q : Seq) : q.advance.vbase = q.vbase := rfl
@[simp] theorem Seq.advance_scratch (q : Seq) : q.advance.scratch = q.scratch := rfl
@[simp] theorem Seq.advance_ctx (q : Seq) : q.advance.ctx = q.ctx := rfl
@[simp] theorem Seq.advance_brk (q : Seq) : q.advance.brk = q.brk := rfl
@[simp] theorem Seq.advance_ram (q : Seq) : q.advance.ram = q.ram := rfl
@[simp] theorem Seq.advance_mode (q : Seq) : q.advance.mode = q.mode := rfl
@[simp] theorem Seq.advance_stall (q : Seq) : q.advance.stall = q.stall := rfl
@[simp] theorem Seq.advance_noBrk (q : Seq) : q.advance.noBrk = q.noBrk := rfl
@[simp] theorem Seq.advance_held (q : Seq) : q.advance.held = q.held := rfl
@[simp] theorem Seq.advance_il1 (q : Seq) : q.advance.il1 = q.il1 := rfl
@[simp] theorem Seq.advance_aluErr (q : Seq) : q.advance.aluErr = q.aluErr := rfl
@[simp] theorem Seq.advance_lateErr (q : Seq) : q.advance.lateErr = q.lateErr := rfl
@[simp] theorem Seq.advance_slow (q : Seq) : q.advance.slow = q.slow := rfl
@[simp] theorem Seq.advance_minority (q : Seq) : q.advance.minority = q.minority := rfl
@[simp] theorem Seq.advance_svSince (q : Seq) : q.advance.svSince = q.svSince := rfl
@[simp] theorem Seq.advance_sleeping (q : Seq) : q.advance.sleeping = q.sleeping := rfl
@[simp] theorem Seq.advance_shoots (q : Seq) : q.advance.shoots = q.shoots := rfl
@[simp] theorem Seq.advance_word (q : Seq) : q.advance.word = q.word := rfl
@[simp] theorem Seq.advance_holding (q : Seq) : q.advance.holding = q.holding := rfl

@[simp] theorem Seq.boundary_regs (q : Seq) : q.boundary.regs = q.regs := rfl
@[simp] theorem Seq.boundary_preds (q : Seq) : q.boundary.preds = q.preds := rfl
@[simp] theorem Seq.boundary_pc (q : Seq) : q.boundary.pc = q.pc := rfl
@[simp] theorem Seq.boundary_status (q : Seq) : q.boundary.status = q.status := rfl
@[simp] theorem Seq.boundary_epc (q : Seq) : q.boundary.epc = q.epc := rfl
@[simp] theorem Seq.boundary_cause (q : Seq) : q.boundary.cause = q.cause := rfl
@[simp] theorem Seq.boundary_tval (q : Seq) : q.boundary.tval = q.tval := rfl
@[simp] theorem Seq.boundary_vbase (q : Seq) : q.boundary.vbase = q.vbase := rfl
@[simp] theorem Seq.boundary_scratch (q : Seq) : q.boundary.scratch = q.scratch := rfl
@[simp] theorem Seq.boundary_ctx (q : Seq) : q.boundary.ctx = q.ctx := rfl
@[simp] theorem Seq.boundary_brk (q : Seq) : q.boundary.brk = q.brk := rfl
@[simp] theorem Seq.boundary_ram (q : Seq) : q.boundary.ram = q.ram := rfl
@[simp] theorem Seq.boundary_mode (q : Seq) : q.boundary.mode = q.mode := rfl
@[simp] theorem Seq.boundary_stall (q : Seq) : q.boundary.stall = q.stall := rfl
@[simp] theorem Seq.boundary_noBrk (q : Seq) : q.boundary.noBrk = q.noBrk := rfl
@[simp] theorem Seq.boundary_held (q : Seq) : q.boundary.held = q.held := rfl
@[simp] theorem Seq.boundary_aluErr (q : Seq) : q.boundary.aluErr = q.aluErr := rfl
@[simp] theorem Seq.boundary_lateErr (q : Seq) : q.boundary.lateErr = q.lateErr := rfl
@[simp] theorem Seq.boundary_slow (q : Seq) : q.boundary.slow = q.slow := rfl
@[simp] theorem Seq.boundary_minority (q : Seq) : q.boundary.minority = q.minority := rfl
@[simp] theorem Seq.boundary_svSince (q : Seq) : q.boundary.svSince = q.svSince := rfl
@[simp] theorem Seq.boundary_sleeping (q : Seq) : q.boundary.sleeping = q.sleeping := rfl
@[simp] theorem Seq.boundary_word (q : Seq) : q.boundary.word = q.word := rfl
@[simp] theorem Seq.boundary_holding (q : Seq) : q.boundary.holding = q.holding := rfl

@[simp] theorem Seq.trap_regs (q : Seq) (code : Nat) (epc tval : DWord) : (q.trap code epc tval).regs = q.regs := rfl
@[simp] theorem Seq.trap_preds (q : Seq) (code : Nat) (epc tval : DWord) : (q.trap code epc tval).preds = q.preds := rfl
@[simp] theorem Seq.trap_vbase (q : Seq) (code : Nat) (epc tval : DWord) : (q.trap code epc tval).vbase = q.vbase := rfl
@[simp] theorem Seq.trap_scratch (q : Seq) (code : Nat) (epc tval : DWord) : (q.trap code epc tval).scratch = q.scratch := rfl
@[simp] theorem Seq.trap_ctx (q : Seq) (code : Nat) (epc tval : DWord) : (q.trap code epc tval).ctx = q.ctx := rfl
@[simp] theorem Seq.trap_brk (q : Seq) (code : Nat) (epc tval : DWord) : (q.trap code epc tval).brk = q.brk := rfl
@[simp] theorem Seq.trap_ram (q : Seq) (code : Nat) (epc tval : DWord) : (q.trap code epc tval).ram = q.ram := rfl
@[simp] theorem Seq.trap_mode (q : Seq) (code : Nat) (epc tval : DWord) : (q.trap code epc tval).mode = q.mode := rfl
@[simp] theorem Seq.trap_held (q : Seq) (code : Nat) (epc tval : DWord) : (q.trap code epc tval).held = q.held := rfl
@[simp] theorem Seq.trap_aluErr (q : Seq) (code : Nat) (epc tval : DWord) : (q.trap code epc tval).aluErr = q.aluErr := rfl
@[simp] theorem Seq.trap_lateErr (q : Seq) (code : Nat) (epc tval : DWord) : (q.trap code epc tval).lateErr = q.lateErr := rfl
@[simp] theorem Seq.trap_slow (q : Seq) (code : Nat) (epc tval : DWord) : (q.trap code epc tval).slow = q.slow := rfl
@[simp] theorem Seq.trap_minority (q : Seq) (code : Nat) (epc tval : DWord) : (q.trap code epc tval).minority = q.minority := rfl
@[simp] theorem Seq.trap_svSince (q : Seq) (code : Nat) (epc tval : DWord) : (q.trap code epc tval).svSince = q.svSince := rfl
@[simp] theorem Seq.trap_sleeping (q : Seq) (code : Nat) (epc tval : DWord) : (q.trap code epc tval).sleeping = q.sleeping := rfl
@[simp] theorem Seq.trap_word (q : Seq) (code : Nat) (epc tval : DWord) : (q.trap code epc tval).word = q.word := rfl
@[simp] theorem Seq.trap_holding (q : Seq) (code : Nat) (epc tval : DWord) : (q.trap code epc tval).holding = q.holding := rfl

@[simp] theorem Seq.eret_regs (q : Seq) : q.eret.regs = q.regs := rfl
@[simp] theorem Seq.eret_preds (q : Seq) : q.eret.preds = q.preds := rfl
@[simp] theorem Seq.eret_epc (q : Seq) : q.eret.epc = q.epc := rfl
@[simp] theorem Seq.eret_cause (q : Seq) : q.eret.cause = q.cause := rfl
@[simp] theorem Seq.eret_tval (q : Seq) : q.eret.tval = q.tval := rfl
@[simp] theorem Seq.eret_vbase (q : Seq) : q.eret.vbase = q.vbase := rfl
@[simp] theorem Seq.eret_scratch (q : Seq) : q.eret.scratch = q.scratch := rfl
@[simp] theorem Seq.eret_ctx (q : Seq) : q.eret.ctx = q.ctx := rfl
@[simp] theorem Seq.eret_brk (q : Seq) : q.eret.brk = q.brk := rfl
@[simp] theorem Seq.eret_ram (q : Seq) : q.eret.ram = q.ram := rfl
@[simp] theorem Seq.eret_mode (q : Seq) : q.eret.mode = q.mode := rfl
@[simp] theorem Seq.eret_stall (q : Seq) : q.eret.stall = q.stall := rfl
@[simp] theorem Seq.eret_held (q : Seq) : q.eret.held = q.held := rfl
@[simp] theorem Seq.eret_aluErr (q : Seq) : q.eret.aluErr = q.aluErr := rfl
@[simp] theorem Seq.eret_lateErr (q : Seq) : q.eret.lateErr = q.lateErr := rfl
@[simp] theorem Seq.eret_slow (q : Seq) : q.eret.slow = q.slow := rfl
@[simp] theorem Seq.eret_minority (q : Seq) : q.eret.minority = q.minority := rfl
@[simp] theorem Seq.eret_svSince (q : Seq) : q.eret.svSince = q.svSince := rfl
@[simp] theorem Seq.eret_sleeping (q : Seq) : q.eret.sleeping = q.sleeping := rfl
@[simp] theorem Seq.eret_word (q : Seq) : q.eret.word = q.word := rfl
@[simp] theorem Seq.eret_holding (q : Seq) : q.eret.holding = q.holding := rfl

/-! ### Reading back -/

@[simp] theorem State.modTile_tile_self (s : State) (t : Fin 192) (f : Tile → Tile) : (s.modTile t f).tile t = f (s.tile t) := by
  simp [State.modTile, State.tile]

theorem State.modTile_tile_ne (s : State) (t u : Fin 192) (f : Tile → Tile) (h : t ≠ u) : (s.modTile t f).tile u = s.tile u := by
  have h' : (t : Nat) ≠ u := fun e => h (Fin.ext e)
  simp [State.modTile, State.tile, Vector.getElem_set_ne _ _ h']

@[simp] theorem State.modSeq_seq_self (s : State) (t : Fin 192) (f : Seq → Seq) : (s.modSeq t f).seq t = f (s.seq t) := by
  simp [State.modSeq, State.seq]

theorem State.modSeq_seq_ne (s : State) (t u : Fin 192) (f : Seq → Seq) (h : t ≠ u) : (s.modSeq t f).seq u = s.seq u := by
  simp [State.modSeq, State.seq, State.modTile_tile_ne s t u _ h]

@[simp] theorem State.modMe_me (s : State) (f : Seq → Seq) : (s.modMe f).me = f s.me := by
  simp [State.me, State.modMe]

@[simp] theorem State.modMe_modMe (s : State) (f g : Seq → Seq) : (s.modMe f).modMe g = s.modMe (fun q => g (f q)) := by
  simp [State.modMe, State.modSeq, State.modTile]

theorem State.modMe_self (s : State) (f : Seq → Seq) (h : f s.me = s.me) : s.modMe f = s := by
  have h' : f (s.tiles[(s.cur : Nat)]).seq = (s.tiles[(s.cur : Nat)]).seq := h
  have e : s.tiles.set (s.cur : Nat) { s.tiles[(s.cur : Nat)] with seq := f (s.tiles[(s.cur : Nat)]).seq } = s.tiles := by
    rw [h']; exact Vector.set_getElem_self _
  exact congrArg (fun x => { s with tiles := x }) e

theorem State.modMe_congr (s : State) (f g : Seq → Seq) (h : f s.me = g s.me) : s.modMe f = s.modMe g := by
  have h' : f (s.tiles[(s.cur : Nat)]).seq = g (s.tiles[(s.cur : Nat)]).seq := h
  simp [State.modMe, State.modSeq, State.modTile, h']

@[simp] theorem State.modPart_part_self (s : State) (p : Fin 16) (f : Part → Part) : (s.modPart p f).part p = f (s.part p) := by
  simp [State.modPart, State.part]

theorem State.modPart_part_ne (s : State) (p q : Fin 16) (f : Part → Part) (h : p ≠ q) : (s.modPart p f).part q = s.part q := by
  have h' : (p : Nat) ≠ q := fun e => h (Fin.ext e)
  simp [State.modPart, State.part, Vector.getElem_set_ne _ _ h']

@[simp] theorem State.modStrand_strand_self (s : State) (t : Fin 192) (k : Fin 8) (f : Strand → Strand) :
    (s.modStrand t k f).strand t k = f (s.strand t k) := by
  simp [State.modStrand, State.strand]

@[simp] theorem State.modRun_run (s : State) (g : Word) (f : Run → Run) (hf : ∀ r, (f r).gid = r.gid) :
    (s.modRun g f).run g = (s.run g).map f := by
  unfold State.modRun State.run
  induction s.runs with
  | nil => rfl
  | cons r rs ih =>
    simp only [List.map_cons, List.find?_cons]
    by_cases h : r.gid = g
    · simp [h, hf]
    · simp [h, ih]

end Sys2Proof.Machine
end

