-- ==== Sys2Proof/Laws/Seq.lean ====
section
/-! SUPPORT. Sys2Proof/Laws/Seq.lean: what the shared operations of the sequencer's instructions do when no ALU is disturbed, and
what taking a trap and returning from one do (R221, R272, R390). -/

namespace Sys2Proof.Machine

theorem State.clearUpsets_eq {s : State} (h : Undisturbed s) : s.clearUpsets = s :=
  State.modMe_self s _ (by
    show { s.me with aluErr := Vector.replicate 3 0#64 } = s.me
    rw [← h.1])

theorem State.clearLate_eq {s : State} (h : Undisturbed s) : s.clearLate = s :=
  State.modMe_self s _ (by
    show { s.me with lateErr := Vector.replicate 3 0#64 } = s.me
    rw [← h.2])

theorem vote_undisturbed (p : BitVec 2) : vote p (Vector.replicate 3 0#64) = .agreed 0#64 := by
  unfold vote
  split
  · simp
  · split <;> simp

/-- An instruction's copies agree when no ALU is disturbed, and its effect is that of one. -/
theorem State.guarded_undisturbed {s : State} (h : Undisturbed s) (p : BitVec 2) (point : Nat) (f : DWord → State → State) :
    s.guarded p point f = f 0#64 s := by
  have hv : vote p s.me.aluErr = .agreed 0#64 := by rw [h.1]; exact vote_undisturbed p
  unfold State.guarded State.judged
  rw [hv, State.clearUpsets_eq h]

/-- The second comparison agrees when no value is disturbed. -/
theorem State.guardedValue_undisturbed {s : State} (h : Undisturbed s) (p : BitVec 2) (f : DWord → State → State) :
    s.guardedValue p f = f 0#64 s := by
  have hv : vote p s.me.lateErr = .agreed 0#64 := by rw [h.2]; exact vote_undisturbed p
  unfold State.guardedValue State.judged
  rw [hv, State.clearLate_eq h]

theorem seqInstr_undisturbed {i : Instr} {s : State} (hw : i.wf = true) (h : Undisturbed s) (p : BitVec 2) (point : Nat)
    (f : DWord → State → State) : seqInstr i p point f s = .next (f 0#64 s) := by
  unfold seqInstr
  rw [State.guarded_undisturbed h, if_pos hw]

/-- Fields that the instruction set does not define take the illegal-instruction trap (R181). -/
theorem seqInstr_illegal {i : Instr} {s : State} (hw : i.wf = false) (h : Undisturbed s) (p : BitVec 2) (point : Nat)
    (f : DWord → State → State) : seqInstr i p point f s = .next (s.illegal i) := by
  unfold seqInstr
  rw [State.guarded_undisturbed h, if_neg (by simp [hw])]

theorem State.writeBack_eq (s : State) (d : BitVec 5) (v : DWord) : s.writeBack d v = s.wrote d v := by
  unfold State.writeBack State.wrote
  apply State.modMe_congr
  unfold Seq.wr Seq.advance
  split <;> rfl

theorem State.writePred_eq (s : State) (d : BitVec 3) (v : Bool) : s.writePred d v = s.wrotePred d v := by
  unfold State.writePred State.wrotePred
  apply State.modMe_congr
  unfold Seq.wrPred Seq.advance
  split <;> rfl

/-- What every register instruction does: one register and the pc. -/
theorem regInstr_undisturbed {i : Instr} {s : State} (hw : i.wf = true) (h : Undisturbed s) (p : BitVec 2) (d : BitVec 5) (v : DWord) :
    regInstr i p d v s = .next (s.wrote d v) := by
  unfold regInstr
  rw [seqInstr_undisturbed hw h]
  simp only [BitVec.xor_zero, State.writeBack_eq]

/-- What every predicate instruction does: one predicate and the pc. -/
theorem predInstr_undisturbed {i : Instr} {s : State} (hw : i.wf = true) (h : Undisturbed s) (p : BitVec 2) (d : BitVec 3) (v : Bool) :
    predInstr i p d v s = .next (s.wrotePred d v) := by
  unfold predInstr
  rw [seqInstr_undisturbed hw h]
  simp [errBit, State.writePred_eq]

theorem State.nextMe_eq (s : State) : s.nextMe = s.passed := rfl

/-- What every branch does: the pc. -/
theorem branchInstr_undisturbed {i : Instr} {s : State} (hw : i.wf = true) (h : Undisturbed s) (p : BitVec 2) (taken : Bool)
    (target : DWord) : branchInstr i p taken target s = .next (s.jumped (if taken then target else s.me.pc + 4#64)) := by
  unfold branchInstr
  rw [seqInstr_undisturbed hw h]
  simp [errPc, State.jumped]

/-- Taking a trap does what R390 says and nothing else. -/
theorem State.trapMe_entered (s : State) (code : Nat) (tval : DWord) : Entered s (s.trapMe code tval) code tval := by
  have he : s.trapMe code tval = s.modMe (fun q => { q.trap code s.me.pc tval with
      svSince := if q.sv then q.svSince else s.tileCycles s.cur.val }) := rfl
  have hm : (s.trapMe code tval).me =
      { s.me.trap code s.me.pc tval with svSince := if s.me.sv then s.me.svSince else s.tileCycles s.cur.val } := by
    rw [he, State.modMe_me]
  refine ⟨?_, ?_⟩
  · rw [hm, he]
    exact State.modMe_congr _ _ _ rfl
  · simp only [hm]
    have h0 : ∀ a b c : Bool, ∀ k, 3 ≤ k → (statusOf a b c).getLsbD k = false := by
      intro a b c k hk
      rcases Nat.lt_or_ge k 64 with h | h
      · have : ∀ a b c : Bool, ∀ k : Fin 64, 3 ≤ k.val → (statusOf a b c).getLsbD k.val = false := by decide
        exact this a b c ⟨k, h⟩ hk
      · exact BitVec.getLsbD_of_ge _ _ h
    have h1 : ∀ a b c : Bool, (statusOf a b c).getLsbD 0 = c ∧ (statusOf a b c).getLsbD 1 = b ∧ (statusOf a b c).getLsbD 2 = a := by decide
    refine ⟨rfl, rfl, rfl, ?_, ?_, ?_, h0 _ _ _, rfl, rfl, rfl, rfl, rfl, rfl, rfl, rfl, rfl, rfl, List.filter_sublist⟩
    · exact (h1 _ _ _).2.1
    · exact (h1 _ _ _).1
    · exact (h1 _ _ _).2.2

end Sys2Proof.Machine
end

