-- ==== Sys2Proof/Laws/Arith.lean ====
section
/-! SUPPORT. Sys2Proof/Laws/Arith.lean: what the widths of R183 and R225 do: operands read, results cut and extended. -/

namespace Sys2Proof.Machine

theorem widthCases (w : BitVec 2) : w = 0#2 ∨ w = 1#2 ∨ w = 2#2 ∨ w = 3#2 := by
  revert w; decide

theorem widthBits_eq (w : BitVec 2) : widthBits w = width w := by revert w; decide

theorem operand_eq (w : BitVec 2) (v : DWord) : operand w v = valueAt w v := by
  obtain rfl | rfl | rfl | rfl := widthCases w
  · simp only [operand, widthSigned, widthBits, valueAt, sextNat, BitVec.toInt_eq_toNat_cond]
    have := v.isLt
    simp
    omega
  · simp only [operand, widthSigned, widthBits, valueAt]
    have := v.isLt
    simp
    omega
  · simp only [operand, widthSigned, widthBits, valueAt, sextNat, BitVec.toInt_eq_toNat_cond]
    simp
    omega
  · simp [operand, widthSigned, widthBits, valueAt]

theorem widthLo_eq (w : BitVec 2) : widthLo w = leastAt w := by revert w; decide

theorem widthHi_eq (w : BitVec 2) : widthHi w = greatestAt w := by revert w; decide

theorem extended_widthResult (w : BitVec 2) (r : Int) : Extended w (widthResult w r) := by
  obtain rfl | rfl | rfl | rfl := widthCases w
  · simp [Extended]
  · simp [Extended]
  · refine ⟨fun _ => ?_, by simp⟩
    simp only [widthResult, widthBits, sextNat]
    apply BitVec.eq_of_toInt_eq
    rw [BitVec.toInt_signExtend]
    simp [BitVec.toInt_eq_toNat_cond]
    generalize hm : (r % 4294967296).toNat = m
    have : m < 4294967296 := by omega
    simp [Int.bmod_def]
    omega
  · refine ⟨by simp, fun _ => ?_⟩
    simp only [widthResult, widthBits]
    apply BitVec.eq_of_toNat_eq
    simp
    omega

/-- A result cut to its width agrees with the integer in its low W bits. -/
theorem dvd_widthResult (w : BitVec 2) (r : Int) : ((2 ^ width w : Nat) : Int) ∣ valueAt w (widthResult w r) - r := by
  obtain rfl | rfl | rfl | rfl := widthCases w
  · simp [widthResult, widthBits, valueAt, width, BitVec.toInt_eq_toNat_cond]
    omega
  · simp [widthResult, widthBits, valueAt, width]
    omega
  · simp [widthResult, widthBits, valueAt, width, sextNat, BitVec.toInt_eq_toNat_cond]
    omega
  · simp [widthResult, widthBits, valueAt, width]
    omega

/-- The low W bits of a result that is cut from a 64-bit value. -/
theorem widthResult_mod (w : BitVec 2) (v : DWord) : (widthResult w (zext v)).toNat % 2 ^ width w = v.toNat % 2 ^ width w := by
  have := v.isLt
  obtain rfl | rfl | rfl | rfl := widthCases w
  · simp [widthResult, widthBits, zext, width]
    omega
  · simp [widthResult, widthBits, zext, width]
    omega
  · simp [widthResult, widthBits, zext, width, sextNat]
    omega
  · simp [widthResult, widthBits, zext, width]
    omega

theorem getLsbD_widthResult (w : BitVec 2) (v : DWord) (k : Nat) (hk : k < width w) :
    (widthResult w (zext v)).getLsbD k = v.getLsbD k := by
  have h := congrArg (fun n => n.testBit k) (widthResult_mod w v)
  simpa [Nat.testBit_mod_two_pow, hk, ← BitVec.testBit_toNat] using h

end Sys2Proof.Machine
end

