-- ==== Sys2Proof/Laws/Memory.lean ====
section
/-! SUPPORT. Sys2Proof/Laws/Memory.lean: byte memories: every operation keeps the canonical form, a read after a write gives what
was written, and a write leaves every other address alone. -/

namespace Sys2Proof.Machine

/-! ### The canonical form -/

theorem Memory.wfFrom_mono {lo lo' : Nat} {m : Memory} (h : lo' ≤ lo) (w : m.wfFrom lo = true) : m.wfFrom lo' = true := by
  cases m with
  | nil => rfl
  | cons c rest =>
    obtain ⟨a, b⟩ := c
    simp only [Memory.wfFrom, Bool.and_eq_true, decide_eq_true_eq] at w ⊢
    exact ⟨⟨by omega, w.1.2⟩, w.2⟩

theorem Memory.wfFrom_write {m : Memory} {lo a : Nat} (b : Byte) (w : m.wfFrom lo = true) (h : lo ≤ a) : (m.write a b).wfFrom lo = true := by
  induction m generalizing lo with
  | nil =>
    unfold Memory.write
    split
    · rfl
    · simp [Memory.wfFrom, *]
  | cons c rest ih =>
    obtain ⟨j, d⟩ := c
    simp only [Memory.wfFrom, Bool.and_eq_true, decide_eq_true_eq] at w
    unfold Memory.write
    split
    · split
      · simp [Memory.wfFrom, w]
      · simp only [Memory.wfFrom, Bool.and_eq_true, decide_eq_true_eq]
        exact ⟨⟨h, ‹_›⟩, ⟨by omega, w.1.2⟩, w.2⟩
    · split
      · subst_vars
        split
        · exact Memory.wfFrom_mono (by omega) w.2
        · simp only [Memory.wfFrom, Bool.and_eq_true, decide_eq_true_eq]
          exact ⟨⟨h, ‹_›⟩, w.2⟩
      · simp only [Memory.wfFrom, Bool.and_eq_true, decide_eq_true_eq]
        exact ⟨w.1, ih w.2 (by omega)⟩

@[simp] theorem Memory.wf_nil : Memory.wf [] = true := rfl

theorem Memory.wf_write {m : Memory} (a : Nat) (b : Byte) (w : m.wf = true) : (m.write a b).wf = true :=
  Memory.wfFrom_write b w (Nat.zero_le a)

theorem Memory.wf_writeN {m : Memory} (a : Nat) (bs : List Byte) (w : m.wf = true) : (m.writeN a bs).wf = true := by
  induction bs generalizing m a with
  | nil => exact w
  | cons b bs ih => exact ih (a + 1) (Memory.wf_write a b w)

theorem Memory.wfFrom_filter {m : Memory} {lo : Nat} (p : Host.Cell → Bool) (w : m.wfFrom lo = true) : Memory.wfFrom lo (m.filter p) = true := by
  induction m generalizing lo with
  | nil => rfl
  | cons c rest ih =>
    obtain ⟨j, d⟩ := c
    simp only [Memory.wfFrom, Bool.and_eq_true, decide_eq_true_eq] at w
    simp only [List.filter_cons]
    split
    · simp only [Memory.wfFrom, Bool.and_eq_true, decide_eq_true_eq]
      exact ⟨w.1, ih w.2⟩
    · exact Memory.wfFrom_mono (by omega) (ih w.2)

theorem Memory.wf_filter {m : Memory} (p : Host.Cell → Bool) (w : m.wf = true) : Memory.wf (m.filter p) = true :=
  Memory.wfFrom_filter p w

theorem Memory.wf_foldl {α : Type} {f : Memory → α → Memory} (hf : ∀ m x, Memory.wf m = true → Memory.wf (f m x) = true) (l : List α) {m : Memory}
    (w : m.wf = true) : Memory.wf (l.foldl f m) = true := by
  induction l generalizing m with
  | nil => exact w
  | cons x xs ih => exact ih (hf m x w)

/-! ### Reading -/

theorem Memory.read_of_wfFrom {m : Memory} {lo a : Nat} (w : m.wfFrom lo = true) (h : a < lo) : m.read a = unlisted := by
  cases m with
  | nil => rfl
  | cons c rest =>
    obtain ⟨j, d⟩ := c
    simp only [Memory.wfFrom, Bool.and_eq_true, decide_eq_true_eq] at w
    unfold Memory.read
    rw [if_neg (by omega), if_pos (by omega)]

theorem Memory.read_write_from {m : Memory} {lo : Nat} (w : m.wfFrom lo = true) (a : Nat) (b : Byte) (x : Nat) :
    (m.write a b).read x = if x = a then b else m.read x := by
  induction m generalizing lo with
  | nil =>
    unfold Memory.write
    by_cases hb : b = unlisted
    · by_cases hx : x = a <;> simp [hb, hx, Memory.read]
    · by_cases hx : x = a
      · simp [hb, hx, Memory.read]
      · simp only [hb, if_false, hx, Memory.read]
        rw [if_neg (by omega)]; simp
  | cons c rest ih =>
    obtain ⟨j, d⟩ := c
    simp only [Memory.wfFrom, Bool.and_eq_true, decide_eq_true_eq] at w
    unfold Memory.write
    by_cases h1 : a < j
    · rw [if_pos h1]
      by_cases hb : b = unlisted
      · by_cases hx : x = a
        · subst hx; simp only [hb, if_true, Memory.read]
          rw [if_neg (by omega), if_pos h1]
        · simp [hb, hx]
      · by_cases hx : x = a
        · subst hx; simp [hb, Memory.read]
        · simp only [hb, if_false, hx]
          by_cases hlt : x < a
          · simp only [Memory.read]
            rw [if_neg (by omega), if_pos hlt, if_neg (by omega), if_pos (by omega)]
          · conv => lhs; unfold Memory.read
            rw [if_neg (by omega), if_neg hlt]
    · rw [if_neg h1]
      by_cases h2 : a = j
      · subst h2
        rw [if_pos rfl]
        by_cases hx : x = a
        · subst hx
          by_cases hb : b = unlisted
          · simp only [hb, if_true]
            exact Memory.read_of_wfFrom w.2 (by omega)
          · simp [hb, Memory.read]
        · by_cases hb : b = unlisted
          · simp only [hb, if_true, hx, if_false]
            conv => rhs; unfold Memory.read
            rw [if_neg (by omega)]
            by_cases hlt : x < a
            · rw [if_pos hlt]; exact Memory.read_of_wfFrom w.2 (by omega)
            · rw [if_neg hlt]
          · have hx' : ¬ a = x := fun e => hx e.symm
            simp [hb, hx, hx', Memory.read]
      · rw [if_neg h2]
        conv => lhs; unfold Memory.read
        conv => rhs; unfold Memory.read
        by_cases hj : j = x
        · rw [if_pos hj, if_pos hj, if_neg (by omega)]
        · rw [if_neg hj, if_neg hj]
          by_cases hlt : x < j
          · rw [if_pos hlt, if_pos hlt, if_neg (by omega)]
          · rw [if_neg hlt, if_neg hlt]
            exact ih w.2

theorem Memory.read_write_self {m : Memory} (w : m.wf = true) (a : Nat) (b : Byte) : (m.write a b).read a = b := by
  rw [Memory.read_write_from w]; simp

theorem Memory.read_write_ne {m : Memory} (w : m.wf = true) {a x : Nat} (b : Byte) (h : x ≠ a) : (m.write a b).read x = m.read x := by
  rw [Memory.read_write_from w]; simp [h]

theorem Memory.read_writeN_outside {m : Memory} (w : m.wf = true) (a x : Nat) (bs : List Byte) (h : x < a ∨ a + bs.length ≤ x) :
    (m.writeN a bs).read x = m.read x := by
  induction bs generalizing m a with
  | nil => rfl
  | cons b bs ih =>
    simp only [List.length_cons] at h
    unfold Memory.writeN
    rw [ih (Memory.wf_write a b w) (a + 1) (by omega), Memory.read_write_ne w b (by omega)]

theorem Memory.read_writeN_inside {m : Memory} (w : m.wf = true) (a i : Nat) (bs : List Byte) (h : i < bs.length) :
    (m.writeN a bs).read (a + i) = bs[i] := by
  induction bs generalizing m a i with
  | nil => simp at h
  | cons b bs ih =>
    unfold Memory.writeN
    cases i with
    | zero =>
      rw [Memory.read_writeN_outside (Memory.wf_write a b w) (a + 1) (a + 0) bs (by omega)]
      simpa using Memory.read_write_self w a b
    | succ i =>
      have := ih (Memory.wf_write a b w) (a + 1) i (by simpa using h)
      rw [show a + 1 + i = a + (i + 1) by omega] at this
      simpa using this

end Sys2Proof.Machine
end

