-- ==== Sys2Proof/Laws/PerInstr.lean ====
section
/-! SUPPORT. Sys2Proof/Laws/PerInstr.lean: what holds of every instruction as syntax, one lemma per constructor. -/

namespace Sys2Proof.Laws.OneEncoding

/-- An instruction has a sequencer word or almanac words or neither, never both (R178, R201). -/
def Statement (i : Instr) : Prop := encodeSeq i = none ∨ encodeAlm i = none

theorem add (p : BitVec 2) (d : BitVec 5) (a : BitVec 5) (b : BitVec 5) (w : BitVec 2) : Statement (.add p d a b w) := .inr rfl
theorem sub (p : BitVec 2) (d : BitVec 5) (a : BitVec 5) (b : BitVec 5) (w : BitVec 2) : Statement (.sub p d a b w) := .inr rfl
theorem mul (p : BitVec 2) (d : BitVec 5) (a : BitVec 5) (b : BitVec 5) (w : BitVec 2) : Statement (.mul p d a b w) := .inr rfl
theorem mulh (p : BitVec 2) (d : BitVec 5) (a : BitVec 5) (b : BitVec 5) (w : BitVec 2) : Statement (.mulh p d a b w) := .inr rfl
theorem div (p : BitVec 2) (d : BitVec 5) (a : BitVec 5) (b : BitVec 5) (w : BitVec 2) : Statement (.div p d a b w) := .inr rfl
theorem rem (p : BitVec 2) (d : BitVec 5) (a : BitVec 5) (b : BitVec 5) (w : BitVec 2) : Statement (.rem p d a b w) := .inr rfl
theorem min (p : BitVec 2) (d : BitVec 5) (a : BitVec 5) (b : BitVec 5) (w : BitVec 2) : Statement (.min p d a b w) := .inr rfl
theorem max (p : BitVec 2) (d : BitVec 5) (a : BitVec 5) (b : BitVec 5) (w : BitVec 2) : Statement (.max p d a b w) := .inr rfl
theorem adds (p : BitVec 2) (d : BitVec 5) (a : BitVec 5) (b : BitVec 5) (w : BitVec 2) : Statement (.adds p d a b w) := .inr rfl
theorem subs (p : BitVec 2) (d : BitVec 5) (a : BitVec 5) (b : BitVec 5) (w : BitVec 2) : Statement (.subs p d a b w) := .inr rfl
theorem and (p : BitVec 2) (d : BitVec 5) (a : BitVec 5) (b : BitVec 5) (w : BitVec 2) : Statement (.and p d a b w) := .inr rfl
theorem or (p : BitVec 2) (d : BitVec 5) (a : BitVec 5) (b : BitVec 5) (w : BitVec 2) : Statement (.or p d a b w) := .inr rfl
theorem xor (p : BitVec 2) (d : BitVec 5) (a : BitVec 5) (b : BitVec 5) (w : BitVec 2) : Statement (.xor p d a b w) := .inr rfl
theorem andn (p : BitVec 2) (d : BitVec 5) (a : BitVec 5) (b : BitVec 5) (w : BitVec 2) : Statement (.andn p d a b w) := .inr rfl
theorem shl (p : BitVec 2) (d : BitVec 5) (a : BitVec 5) (b : BitVec 5) (w : BitVec 2) : Statement (.shl p d a b w) := .inr rfl
theorem shr (p : BitVec 2) (d : BitVec 5) (a : BitVec 5) (b : BitVec 5) (w : BitVec 2) : Statement (.shr p d a b w) := .inr rfl
theorem clz (p : BitVec 2) (d : BitVec 5) (a : BitVec 5) (w : BitVec 2) : Statement (.clz p d a w) := .inr rfl
theorem ctz (p : BitVec 2) (d : BitVec 5) (a : BitVec 5) (w : BitVec 2) : Statement (.ctz p d a w) := .inr rfl
theorem popc (p : BitVec 2) (d : BitVec 5) (a : BitVec 5) (w : BitVec 2) : Statement (.popc p d a w) := .inr rfl
theorem cmpEq (p : BitVec 2) (d : BitVec 3) (a : BitVec 5) (b : BitVec 5) (w : BitVec 2) : Statement (.cmpEq p d a b w) := .inr rfl
theorem cmpNe (p : BitVec 2) (d : BitVec 3) (a : BitVec 5) (b : BitVec 5) (w : BitVec 2) : Statement (.cmpNe p d a b w) := .inr rfl
theorem cmpLt (p : BitVec 2) (d : BitVec 3) (a : BitVec 5) (b : BitVec 5) (w : BitVec 2) : Statement (.cmpLt p d a b w) := .inr rfl
theorem cmpGe (p : BitVec 2) (d : BitVec 3) (a : BitVec 5) (b : BitVec 5) (w : BitVec 2) : Statement (.cmpGe p d a b w) := .inr rfl
theorem pand (p : BitVec 2) (d : BitVec 3) (a : BitVec 3) (b : BitVec 3) : Statement (.pand p d a b) := .inr rfl
theorem por (p : BitVec 2) (d : BitVec 3) (a : BitVec 3) (b : BitVec 3) : Statement (.por p d a b) := .inr rfl
theorem pxor (p : BitVec 2) (d : BitVec 3) (a : BitVec 3) (b : BitVec 3) : Statement (.pxor p d a b) := .inr rfl
theorem pandn (p : BitVec 2) (d : BitVec 3) (a : BitVec 3) (b : BitVec 3) : Statement (.pandn p d a b) := .inr rfl
theorem pget (p : BitVec 2) (d : BitVec 5) : Statement (.pget p d) := .inr rfl
theorem pset (p : BitVec 2) (a : BitVec 5) : Statement (.pset p a) := .inr rfl
theorem sel (p : BitVec 2) (d : BitVec 5) (a : BitVec 5) (b : BitVec 5) (q : BitVec 3) : Statement (.sel p d a b q) := .inr rfl
theorem addi (p : BitVec 2) (d : BitVec 5) (a : BitVec 5) (i : BitVec 14) : Statement (.addi p d a i) := .inr rfl
theorem andi (p : BitVec 2) (d : BitVec 5) (a : BitVec 5) (i : BitVec 14) : Statement (.andi p d a i) := .inr rfl
theorem ori (p : BitVec 2) (d : BitVec 5) (a : BitVec 5) (i : BitVec 14) : Statement (.ori p d a i) := .inr rfl
theorem xori (p : BitVec 2) (d : BitVec 5) (a : BitVec 5) (i : BitVec 14) : Statement (.xori p d a i) := .inr rfl
theorem shli (p : BitVec 2) (d : BitVec 5) (a : BitVec 5) (n : BitVec 6) : Statement (.shli p d a n) := .inr rfl
theorem shrli (p : BitVec 2) (d : BitVec 5) (a : BitVec 5) (n : BitVec 6) : Statement (.shrli p d a n) := .inr rfl
theorem shrai (p : BitVec 2) (d : BitVec 5) (a : BitVec 5) (n : BitVec 6) : Statement (.shrai p d a n) := .inr rfl
theorem cmpiEq (p : BitVec 2) (d : BitVec 3) (a : BitVec 5) (i : BitVec 14) : Statement (.cmpiEq p d a i) := .inr rfl
theorem cmpiLt (p : BitVec 2) (d : BitVec 3) (a : BitVec 5) (i : BitVec 14) : Statement (.cmpiLt p d a i) := .inr rfl
theorem cmpiLtu (p : BitVec 2) (d : BitVec 3) (a : BitVec 5) (i : BitVec 14) : Statement (.cmpiLtu p d a i) := .inr rfl
theorem lui (p : BitVec 2) (d : BitVec 5) (i : BitVec 19) : Statement (.lui p d i) := .inr rfl
theorem lpc (p : BitVec 2) (d : BitVec 5) (i : BitVec 19) : Statement (.lpc p d i) := .inr rfl
theorem beq (p : BitVec 2) (a : BitVec 5) (b : BitVec 5) (o : BitVec 14) : Statement (.beq p a b o) := .inr rfl
theorem bne (p : BitVec 2) (a : BitVec 5) (b : BitVec 5) (o : BitVec 14) : Statement (.bne p a b o) := .inr rfl
theorem blt (p : BitVec 2) (a : BitVec 5) (b : BitVec 5) (o : BitVec 14) : Statement (.blt p a b o) := .inr rfl
theorem bge (p : BitVec 2) (a : BitVec 5) (b : BitVec 5) (o : BitVec 14) : Statement (.bge p a b o) := .inr rfl
theorem bp (p : BitVec 2) (c : BitVec 3) (o : BitVec 20) : Statement (.bp p c o) := .inr rfl
theorem bnp (p : BitVec 2) (c : BitVec 3) (o : BitVec 20) : Statement (.bnp p c o) := .inr rfl
theorem j (p : BitVec 2) (o : BitVec 24) : Statement (.j p o) := .inr rfl
theorem call (p : BitVec 2) (o : BitVec 24) : Statement (.call p o) := .inr rfl
theorem callr (p : BitVec 2) (d : BitVec 5) (a : BitVec 5) (i : BitVec 14) : Statement (.callr p d a i) := .inr rfl
theorem ld (p : BitVec 2) (d : BitVec 5) (b : BitVec 5) (z : BitVec 2) (g : BitVec 1) (s : BitVec 2) (o : BitVec 9) : Statement (.ld p d b z g s o) := .inr rfl
theorem st (p : BitVec 2) (d : BitVec 5) (b : BitVec 5) (z : BitVec 2) (s : BitVec 2) (o : BitVec 9) : Statement (.st p d b z s o) := .inr rfl
theorem ldOrdered (p : BitVec 2) (d : BitVec 5) (a : BitVec 5) (o : BitVec 2) (s : BitVec 2) (z : BitVec 2) : Statement (.ldOrdered p d a o s z) := .inr rfl
theorem stOrdered (p : BitVec 2) (a : BitVec 5) (v : BitVec 5) (o : BitVec 2) (s : BitVec 2) (z : BitVec 2) : Statement (.stOrdered p a v o s z) := .inr rfl
theorem amoAdd (p : BitVec 2) (d : BitVec 5) (a : BitVec 5) (v : BitVec 5) (o : BitVec 2) (s : BitVec 2) (z : BitVec 2) : Statement (.amoAdd p d a v o s z) := .inr rfl
theorem amoSwap (p : BitVec 2) (d : BitVec 5) (a : BitVec 5) (v : BitVec 5) (o : BitVec 2) (s : BitVec 2) (z : BitVec 2) : Statement (.amoSwap p d a v o s z) := .inr rfl
theorem amoCas (p : BitVec 2) (d : BitVec 5) (a : BitVec 5) (v : BitVec 5) (o : BitVec 2) (s : BitVec 2) (z : BitVec 2) : Statement (.amoCas p d a v o s z) := .inr rfl
theorem fence (p : BitVec 2) (o : BitVec 2) (s : BitVec 2) : Statement (.fence p o s) := .inr rfl
theorem cfgLoad (p : BitVec 2) (a : BitVec 5) (c : BitVec 4) : Statement (.cfgLoad p a c) := .inr rfl
theorem cfgPart (p : BitVec 2) (k : BitVec 3) (c : BitVec 4) : Statement (.cfgPart p k c) := .inr rfl
theorem cfgArm (p : BitVec 2) (k : BitVec 3) (c : BitVec 4) : Statement (.cfgArm p k c) := .inr rfl
theorem cfgFire (p : BitVec 2) (a : BitVec 5) (b : BitVec 5) (k : BitVec 3) : Statement (.cfgFire p a b k) := .inr rfl
theorem cfgWait (p : BitVec 2) (k : BitVec 3) : Statement (.cfgWait p k) := .inr rfl
theorem cfgExit (p : BitVec 2) (a : BitVec 5) (k : BitVec 3) : Statement (.cfgExit p a k) := .inr rfl
theorem cfgPick (p : BitVec 2) (a : BitVec 5) (k : BitVec 3) : Statement (.cfgPick p a k) := .inr rfl
theorem cfgDrain (p : BitVec 2) (k : BitVec 3) : Statement (.cfgDrain p k) := .inr rfl
theorem cfgSwap (p : BitVec 2) (k : BitVec 3) : Statement (.cfgSwap p k) := .inr rfl
theorem tokPut (p : BitVec 2) (a : BitVec 5) (b : BitVec 5) (t : BitVec 7) : Statement (.tokPut p a b t) := .inr rfl
theorem rndEnd (p : BitVec 2) (a : BitVec 5) (b : BitVec 5) : Statement (.rndEnd p a b) := .inr rfl
theorem rndGraph (p : BitVec 2) (b : BitVec 5) : Statement (.rndGraph p b) := .inr rfl
theorem rndRedo (p : BitVec 2) (a : BitVec 5) (b : BitVec 5) : Statement (.rndRedo p a b) := .inr rfl
theorem engCopy (p : BitVec 2) (a : BitVec 5) (k : BitVec 3) : Statement (.engCopy p a k) := .inr rfl
theorem engDcmp (p : BitVec 2) (a : BitVec 5) (k : BitVec 3) : Statement (.engDcmp p a k) := .inr rfl
theorem engVdec (p : BitVec 2) (a : BitVec 5) (k : BitVec 3) : Statement (.engVdec p a k) := .inr rfl
theorem engXfm (p : BitVec 2) (a : BitVec 5) (k : BitVec 3) : Statement (.engXfm p a k) := .inr rfl
theorem launch (p : BitVec 2) (a : BitVec 5) (b : BitVec 5) : Statement (.launch p a b) := .inr rfl
theorem waitAddr (p : BitVec 2) (a : BitVec 5) (b : BitVec 5) (o : BitVec 2) (s : BitVec 2) (g : BitVec 2) (c : BitVec 2) : Statement (.waitAddr p a b o s g c) := .inr rfl
theorem waitAddrN64 (p : BitVec 2) (a : BitVec 5) (b : BitVec 5) (o : BitVec 2) (s : BitVec 2) (g : BitVec 2) (c : BitVec 2) : Statement (.waitAddrN64 p a b o s g c) := .inr rfl
theorem evAdd (p : BitVec 2) (a : BitVec 5) (b : BitVec 5) (s : BitVec 2) : Statement (.evAdd p a b s) := .inr rfl
theorem trap (p : BitVec 2) (i : BitVec 16) : Statement (.trap p i) := .inr rfl
theorem brk (p : BitVec 2) (i : BitVec 16) : Statement (.brk p i) := .inr rfl
theorem eret (p : BitVec 2) : Statement (.eret p) := .inr rfl
theorem ifence (p : BitVec 2) : Statement (.ifence p) := .inr rfl
theorem mfsy (p : BitVec 2) (d : BitVec 5) (i : BitVec 14) : Statement (.mfsy p d i) := .inr rfl
theorem mtsy (p : BitVec 2) (a : BitVec 5) (i : BitVec 14) : Statement (.mtsy p a i) := .inr rfl
theorem almEnd : Statement (.almEnd) := .inl rfl
theorem almAdd (d : BitVec 3) (a : BitVec 3) (b : BitVec 3) : Statement (.almAdd d a b) := .inl rfl
theorem almSub (d : BitVec 3) (a : BitVec 3) (b : BitVec 3) : Statement (.almSub d a b) := .inl rfl
theorem almAnd (d : BitVec 3) (a : BitVec 3) (b : BitVec 3) : Statement (.almAnd d a b) := .inl rfl
theorem almOr (d : BitVec 3) (a : BitVec 3) (b : BitVec 3) : Statement (.almOr d a b) := .inl rfl
theorem almXor (d : BitVec 3) (a : BitVec 3) (b : BitVec 3) : Statement (.almXor d a b) := .inl rfl
theorem almShl (d : BitVec 3) (a : BitVec 3) (b : BitVec 3) : Statement (.almShl d a b) := .inl rfl
theorem almShr (d : BitVec 3) (a : BitVec 3) (b : BitVec 3) : Statement (.almShr d a b) := .inl rfl
theorem almMin (d : BitVec 3) (a : BitVec 3) (b : BitVec 3) : Statement (.almMin d a b) := .inl rfl
theorem almMax (d : BitVec 3) (a : BitVec 3) (b : BitVec 3) : Statement (.almMax d a b) := .inl rfl
theorem almMul (d : BitVec 3) (a : BitVec 3) (b : BitVec 3) : Statement (.almMul d a b) := .inl rfl
theorem almAddi (d : BitVec 3) (a : BitVec 3) (x : BitVec 16) : Statement (.almAddi d a x) := .inl rfl
theorem almLi (d : BitVec 3) (x : BitVec 16) : Statement (.almLi d x) := .inl rfl
theorem almLih (d : BitVec 3) (x : BitVec 16) : Statement (.almLih d x) := .inl rfl
theorem almMov (d : BitVec 3) (a : BitVec 3) : Statement (.almMov d a) := .inl rfl
theorem almSltu (d : BitVec 3) (a : BitVec 3) (b : BitVec 3) : Statement (.almSltu d a b) := .inl rfl
theorem almSlt (d : BitVec 3) (a : BitVec 3) (b : BitVec 3) : Statement (.almSlt d a b) := .inl rfl
theorem almSeq (d : BitVec 3) (a : BitVec 3) (b : BitVec 3) : Statement (.almSeq d a b) := .inl rfl
theorem almCsel (d : BitVec 3) (a : BitVec 3) (b : BitVec 3) : Statement (.almCsel d a b) := .inl rfl
theorem almBz (o : BitVec 7) (a : BitVec 3) : Statement (.almBz o a) := .inl rfl
theorem almBnz (o : BitVec 7) (a : BitVec 3) : Statement (.almBnz o a) := .inl rfl
theorem almJmp (o : BitVec 7) : Statement (.almJmp o) := .inl rfl
theorem almLoopN (k : BitVec 4) : Statement (.almLoopN k) := .inl rfl
theorem almEndl : Statement (.almEndl) := .inl rfl
theorem almRdq (d : BitVec 3) (a : BitVec 3) : Statement (.almRdq d a) := .inl rfl
theorem almRdh (d : BitVec 3) (a : BitVec 3) (f : BitVec 4) : Statement (.almRdh d a f) := .inl rfl
theorem almRdfree (d : BitVec 3) (a : BitVec 3) : Statement (.almRdfree d a) := .inl rfl
theorem almRdquota (d : BitVec 3) (f : BitVec 4) : Statement (.almRdquota d f) := .inl rfl
theorem almRdecl (d : BitVec 3) (a : BitVec 3) : Statement (.almRdecl d a) := .inl rfl
theorem almRdflt (d : BitVec 3) (f : BitVec 4) : Statement (.almRdflt d f) := .inl rfl
theorem almRdp (d : BitVec 3) (f : BitVec 4) : Statement (.almRdp d f) := .inl rfl
theorem almWrp (a : BitVec 3) (f : BitVec 4) : Statement (.almWrp a f) := .inl rfl
theorem almRdinv (d : BitVec 3) (f : BitVec 4) : Statement (.almRdinv d f) := .inl rfl
theorem almPopc (d : BitVec 3) (a : BitVec 3) : Statement (.almPopc d a) := .inl rfl
theorem almFfs (d : BitVec 3) (a : BitVec 3) : Statement (.almFfs d a) := .inl rfl
theorem almRdrun (d : BitVec 3) (a : BitVec 3) (f : BitVec 4) : Statement (.almRdrun d a f) := .inl rfl
theorem uMxa (t : Fin 192) (k : Fin 8) : Statement (.uMxa t k) := .inl rfl
theorem uMxd (t : Fin 192) (k : Fin 8) : Statement (.uMxd t k) := .inl rfl
theorem uSource (t : Fin 192) (k : Fin 8) (u : BitVec 7) : Statement (.uSource t k u) := .inl rfl
theorem regionAdvance (t : Fin 192) (k : Fin 8) : Statement (.regionAdvance t k) := .inl rfl
theorem contextSwitch (t : Fin 192) (k : Fin 8) : Statement (.contextSwitch t k) := .inl rfl
theorem roundCommit (g : BitVec 32) : Statement (.roundCommit g) := .inl rfl
theorem roundOverflow (g : BitVec 32) (m : Fin 192) : Statement (.roundOverflow g m) := .inl rfl
theorem withheldStoreRelease (t : Fin 192) (k : Fin 8) (u : BitVec 7) : Statement (.withheldStoreRelease t k u) := .inl rfl
theorem amoPerform (t : Fin 192) : Statement (.amoPerform t) := .inl rfl
theorem stallRelease (t : Fin 192) : Statement (.stallRelease t) := .inl rfl
theorem waitAddrWake (t : Fin 192) : Statement (.waitAddrWake t) := .inl rfl
theorem waitAddrPoll (t : Fin 192) : Statement (.waitAddrPoll t) := .inl rfl
theorem fabricLoadEnd (g : BitVec 32) : Statement (.fabricLoadEnd g) := .inl rfl
theorem quiescenceTrip (g : BitVec 32) : Statement (.quiescenceTrip g) := .inl rfl
theorem freeze (g : BitVec 32) : Statement (.freeze g) := .inl rfl
theorem contextScan (g : BitVec 32) : Statement (.contextScan g) := .inl rfl
theorem tokenReinjection (g : BitVec 32) (n : BitVec 16) : Statement (.tokenReinjection g n) := .inl rfl
theorem pageFaultLimit (g : BitVec 32) : Statement (.pageFaultLimit g) := .inl rfl
theorem retranslationReply (t : Fin 192) (k : Fin 8) (u : BitVec 7) : Statement (.retranslationReply t k u) := .inl rfl
theorem placementEpoch (d : Fin 4) : Statement (.placementEpoch d) := .inl rfl
theorem pageMove (n : BitVec 16) : Statement (.pageMove n) := .inl rfl
theorem qtailWrite (p : Fin 16) (q : Fin 64) (v : BitVec 32) : Statement (.qtailWrite p q v) := .inl rfl
theorem qheadWrite (p : Fin 16) (q : Fin 64) (v : BitVec 32) : Statement (.qheadWrite p q v) := .inl rfl
theorem qstaleClear (p : Fin 16) (q : Fin 64) : Statement (.qstaleClear p q) := .inl rfl
theorem queueEnable (p : Fin 16) (q : Fin 64) (v : BitVec 64) : Statement (.queueEnable p q v) := .inl rfl
theorem headEligible (p : Fin 16) (q : Fin 64) : Statement (.headEligible p q) := .inl rfl
theorem headReread (p : Fin 16) (q : Fin 64) : Statement (.headReread p q) := .inl rfl
theorem almanacInvocation (p : Fin 16) : Statement (.almanacInvocation p) := .inl rfl
theorem quantumExpiry (p : Fin 16) (r : Fin 32) : Statement (.quantumExpiry p r) := .inl rfl
theorem deadlineTrigger (p : Fin 16) (q : Fin 64) : Statement (.deadlineTrigger p q) := .inl rfl
theorem invocationOverrun (p : Fin 16) : Statement (.invocationOverrun p) := .inl rfl
theorem almanacSwap (p : Fin 16) : Statement (.almanacSwap p) := .inl rfl
theorem asyncTrap (t : Fin 192) : Statement (.asyncTrap t) := .inl rfl
theorem watchdog (t : Fin 192) : Statement (.watchdog t) := .inl rfl
theorem supervisorWatchdog (t : Fin 192) : Statement (.supervisorWatchdog t) := .inl rfl
theorem forcedBlockBoundary (t : Fin 192) : Statement (.forcedBlockBoundary t) := .inl rfl
theorem shootTranslation (p : Fin 16) (ctx : BitVec 16) (k : BitVec 3) : Statement (.shootTranslation p ctx k) := .inl rfl
theorem shootFetch (p : Fin 16) (ctx : BitVec 16) (k : BitVec 3) : Statement (.shootFetch p ctx k) := .inl rfl
theorem shootBoth (p : Fin 16) (ctx : BitVec 16) (k : BitVec 3) : Statement (.shootBoth p ctx k) := .inl rfl
theorem shootdownComplete (p : Fin 16) : Statement (.shootdownComplete p) := .inl rfl
theorem frresolve (p : Fin 16) (v : BitVec 64) : Statement (.frresolve p v) := .inl rfl
theorem ringHeadWrite (p : Fin 16) (r : RingName) (v : BitVec 32) : Statement (.ringHeadWrite p r v) := .inl rfl
theorem ringEnable (p : Fin 16) (r : RingName) (v : BitVec 64) : Statement (.ringEnable p r v) := .inl rfl
theorem ringRecordRelease (p : Fin 16) : Statement (.ringRecordRelease p) := .inl rfl
theorem msixTimer (p : Fin 16) (r : RingName) : Statement (.msixTimer p r) := .inl rfl
theorem pstatusRead (p : Fin 16) (o : BitVec 3) (n : BitVec 4) : Statement (.pstatusRead p o n) := .inl rfl
theorem pqerrClear (p : Fin 16) (o : BitVec 3) (n : BitVec 4) (v : BitVec 64) : Statement (.pqerrClear p o n v) := .inl rfl
theorem registerWrite (o : BitVec 21) (n : BitVec 4) (v : BitVec 64) : Statement (.registerWrite o n v) := .inl rfl
theorem hostMemoryWrite (o : BitVec 39) (n : BitVec 4) (v : BitVec 64) : Statement (.hostMemoryWrite o n v) := .inl rfl
theorem hostMemoryRead (o : BitVec 39) (n : BitVec 4) : Statement (.hostMemoryRead o n) := .inl rfl
theorem cxlMemAccess (wr : Bool) (a : BitVec 52) (v : BitVec 512) : Statement (.cxlMemAccess wr a v) := .inl rfl
theorem engineJobStart (e : EngineName) : Statement (.engineJobStart e) := .inl rfl
theorem engineJobComplete (e : EngineName) : Statement (.engineJobComplete e) := .inl rfl
theorem eclclr (tag : BitVec 16) : Statement (.eclclr tag) := .inl rfl
theorem almstage (tag : BitVec 16) : Statement (.almstage tag) := .inl rfl
theorem almswap (tag : BitVec 16) : Statement (.almswap tag) := .inl rfl
theorem prelease (tag : BitVec 16) : Statement (.prelease tag) := .inl rfl
theorem gkill (tag : BitVec 16) : Statement (.gkill tag) := .inl rfl
theorem emask (tag : BitVec 16) : Statement (.emask tag) := .inl rfl
theorem partset (tag : BitVec 16) : Statement (.partset tag) := .inl rfl
theorem savearea (tag : BitVec 16) : Statement (.savearea tag) := .inl rfl
theorem strpair (tag : BitVec 16) : Statement (.strpair tag) := .inl rfl
theorem capset (tag : BitVec 16) : Statement (.capset tag) := .inl rfl
theorem lcstep (tag : BitVec 16) : Statement (.lcstep tag) := .inl rfl
theorem dbgaccRead (tag : BitVec 16) : Statement (.dbgaccRead tag) := .inl rfl
theorem dbgaccWrite (tag : BitVec 16) : Statement (.dbgaccWrite tag) := .inl rfl
theorem dbgaccRelease (tag : BitVec 16) : Statement (.dbgaccRelease tag) := .inl rfl
theorem getVersion : Statement (.getVersion) := .inl rfl
theorem getCapabilities : Statement (.getCapabilities) := .inl rfl
theorem negotiateAlgorithms (hash : BitVec 32) (asym : BitVec 32) : Statement (.negotiateAlgorithms hash asym) := .inl rfl
theorem getDigests : Statement (.getDigests) := .inl rfl
theorem getCertificate (slot : BitVec 4) (o : BitVec 16) (n : BitVec 16) : Statement (.getCertificate slot o n) := .inl rfl
theorem challenge (slot : BitVec 4) (nonce : BitVec 256) : Statement (.challenge slot nonce) := .inl rfl
theorem getMeasurements (op : BitVec 8) (nonce : BitVec 256) : Statement (.getMeasurements op nonce) := .inl rfl
theorem reset : Statement (.reset) := .inl rfl
theorem tileJoin (i : Fin 512) (pass : Bool) : Statement (.tileJoin i pass) := .inl rfl
theorem powerWindow (ks : List (Fin 512 × BitVec 5)) : Statement (.powerWindow ks) := .inl rfl
theorem linkCrcReplay (d : Fin 4) (l : Fin 5) : Statement (.linkCrcReplay d l) := .inl rfl
theorem linkRetrain (d : Fin 4) (l : Fin 5) (lanes : BitVec 8) : Statement (.linkRetrain d l lanes) := .inl rfl
theorem linkDown (d : Fin 4) (l : Fin 5) : Statement (.linkDown d l) := .inl rfl
theorem flitUndelivered (d : Fin 4) (l : Fin 5) (t : Fin 192) (k : Fin 8) (u : BitVec 7) : Statement (.flitUndelivered d l t k u) := .inl rfl
theorem fifoModeLoad (t : Fin 192) (k : Fin 8) (u : BitVec 7) : Statement (.fifoModeLoad t k u) := .inl rfl
theorem memoryReply (t : Fin 192) (k : Fin 8) (u : BitVec 7) : Statement (.memoryReply t k u) := .inl rfl
theorem debugPortRegisterAccess (t : Fin 192) (r : DebugReg) (v : Option (BitVec 64)) : Statement (.debugPortRegisterAccess t r v) := .inl rfl
theorem tablePoisonClear (a : BitVec 52) : Statement (.tablePoisonClear a) := .inl rfl
theorem observedLineWrite (a : BitVec 52) : Statement (.observedLineWrite a) := .inl rfl

end Sys2Proof.Laws.OneEncoding
end

