-- ==== Sys2Proof/Tests/Slice0.lean ====
section
/-! SUPPORT. Sys2Proof/Tests/Slice0.lean: words of the encoding tables against the decoder, fields that are refused, single steps
against values that the spec states, and states that meet the hypotheses of the obligations. -/

namespace Sys2Proof.Tests

set_option Elab.async false

open Machine

/-! ### Words of the encoding tables

The words are written out from the encoding tables of R178 to R202 and R366, a field at a time. -/

/-- The word decodes to the sequencer instruction. -/
def seqIs (w : Word) (i : Instr) : Bool :=
  match decodeSeq w with
  | .ok j => i == j
  | .error _ => false

/-- The code words decode to the almanac instruction, all of them. -/
def almIs (ws : List Half) (i : Instr) : Bool :=
  match decodeAlm ws with
  | .ok (j, n) => i == j && n == ws.length
  | .error _ => false

/-- The word is no sequencer instruction. -/
def seqIsNot (w : Word) : Bool :=
  match decodeSeq w with
  | .ok _ => false
  | .error _ => true

theorem test_decode_alu :
    (seqIs 0b01_000000_10011_00110_11001_10_0000000#32 (.add 1#2 19#5 6#5 25#5 2#2)
      && seqIs 0b01_000000_10011_00110_11001_10_0000001#32 (.sub 1#2 19#5 6#5 25#5 2#2)
      && seqIs 0b01_000000_10011_00110_11001_10_0000010#32 (.mul 1#2 19#5 6#5 25#5 2#2)
      && seqIs 0b01_000000_10011_00110_11001_10_0000011#32 (.mulh 1#2 19#5 6#5 25#5 2#2)
      && seqIs 0b01_000000_10011_00110_11001_10_0000100#32 (.div 1#2 19#5 6#5 25#5 2#2)
      && seqIs 0b01_000000_10011_00110_11001_10_0000101#32 (.rem 1#2 19#5 6#5 25#5 2#2)
      && seqIs 0b01_000000_10011_00110_11001_10_0000110#32 (.min 1#2 19#5 6#5 25#5 2#2)
      && seqIs 0b01_000000_10011_00110_11001_10_0000111#32 (.max 1#2 19#5 6#5 25#5 2#2)
      && seqIs 0b01_000000_10011_00110_11001_10_0001000#32 (.adds 1#2 19#5 6#5 25#5 2#2)
      && seqIs 0b01_000000_10011_00110_11001_10_0001001#32 (.subs 1#2 19#5 6#5 25#5 2#2)
      && seqIs 0b01_000000_10011_00110_11001_10_0001010#32 (.and 1#2 19#5 6#5 25#5 2#2)
      && seqIs 0b01_000000_10011_00110_11001_10_0001011#32 (.or 1#2 19#5 6#5 25#5 2#2)
      && seqIs 0b01_000000_10011_00110_11001_10_0001100#32 (.xor 1#2 19#5 6#5 25#5 2#2)
      && seqIs 0b01_000000_10011_00110_11001_10_0001101#32 (.andn 1#2 19#5 6#5 25#5 2#2)
      && seqIs 0b01_000000_10011_00110_11001_10_0001110#32 (.shl 1#2 19#5 6#5 25#5 2#2)
      && seqIs 0b01_000000_10011_00110_11001_10_0001111#32 (.shr 1#2 19#5 6#5 25#5 2#2)
      && seqIs 0b01_000000_10011_00110_00000_10_0010000#32 (.clz 1#2 19#5 6#5 2#2)
      && seqIs 0b01_000000_10011_00110_00000_10_0010001#32 (.ctz 1#2 19#5 6#5 2#2)
      && seqIs 0b01_000000_10011_00110_00000_10_0010010#32 (.popc 1#2 19#5 6#5 2#2)) = true := by decide +kernel

theorem test_decode_pred :
    (seqIs 0b01_000001_00_101_00110_11001_10_0000000#32 (.cmpEq 1#2 5#3 6#5 25#5 2#2)
      && seqIs 0b01_000001_00_101_00110_11001_10_0000001#32 (.cmpNe 1#2 5#3 6#5 25#5 2#2)
      && seqIs 0b01_000001_00_101_00110_11001_10_0000010#32 (.cmpLt 1#2 5#3 6#5 25#5 2#2)
      && seqIs 0b01_000001_00_101_00110_11001_10_0000011#32 (.cmpGe 1#2 5#3 6#5 25#5 2#2)
      && seqIs 0b01_000001_00_101_00_011_00_110_000010000#32 (.pand 1#2 5#3 3#3 6#3)
      && seqIs 0b01_000001_00_101_00_011_00_110_000010001#32 (.por 1#2 5#3 3#3 6#3)
      && seqIs 0b01_000001_00_101_00_011_00_110_000010010#32 (.pxor 1#2 5#3 3#3 6#3)
      && seqIs 0b01_000001_00_101_00_011_00_110_000010011#32 (.pandn 1#2 5#3 3#3 6#3)
      && seqIs 0b01_000001_10011_0000000000000010100#32 (.pget 1#2 19#5)
      && seqIs 0b01_000001_00000_00110_00000000010101#32 (.pset 1#2 6#5)) = true := by decide +kernel

theorem test_decode_imm :
    (seqIs 0b01_000010_10011_00110_11001_000000_110#32 (.sel 1#2 19#5 6#5 25#5 6#3)
      && seqIs 0b01_000100_10011_00110_10101010110101#32 (.addi 1#2 19#5 6#5 10933#14)
      && seqIs 0b01_000101_10011_00110_10101010110101#32 (.andi 1#2 19#5 6#5 10933#14)
      && seqIs 0b01_000110_10011_00110_10101010110101#32 (.ori 1#2 19#5 6#5 10933#14)
      && seqIs 0b01_000111_10011_00110_10101010110101#32 (.xori 1#2 19#5 6#5 10933#14)
      && seqIs 0b01_001000_10011_00110_00000000_100101#32 (.shli 1#2 19#5 6#5 37#6)
      && seqIs 0b01_001001_10011_00110_00000000_100101#32 (.shrli 1#2 19#5 6#5 37#6)
      && seqIs 0b01_001010_10011_00110_00000000_100101#32 (.shrai 1#2 19#5 6#5 37#6)
      && seqIs 0b01_001011_00_101_00110_10101010110101#32 (.cmpiEq 1#2 5#3 6#5 10933#14)
      && seqIs 0b01_001100_00_101_00110_10101010110101#32 (.cmpiLt 1#2 5#3 6#5 10933#14)
      && seqIs 0b01_001101_00_101_00110_10101010110101#32 (.cmpiLtu 1#2 5#3 6#5 10933#14)
      && seqIs 0b01_001110_10011_1011010000011110001#32 (.lui 1#2 19#5 368881#19)
      && seqIs 0b01_001111_10011_1011010000011110001#32 (.lpc 1#2 19#5 368881#19)) = true := by decide +kernel

theorem test_decode_branch :
    (seqIs 0b01_010000_00110_11001_10101010110101#32 (.beq 1#2 6#5 25#5 10933#14)
      && seqIs 0b01_010001_00110_11001_10101010110101#32 (.bne 1#2 6#5 25#5 10933#14)
      && seqIs 0b01_010010_00110_11001_10101010110101#32 (.blt 1#2 6#5 25#5 10933#14)
      && seqIs 0b01_010011_00110_11001_10101010110101#32 (.bge 1#2 6#5 25#5 10933#14)
      && seqIs 0b01_010100_101_1_10001111000000001101#32 (.bp 1#2 5#3 585741#20)
      && seqIs 0b01_010100_101_0_10001111000000001101#32 (.bnp 1#2 5#3 585741#20)
      && seqIs 0b01_010101_110000001111111111100001#32 (.j 1#2 12648417#24)
      && seqIs 0b01_010110_110000001111111111100001#32 (.call 1#2 12648417#24)
      && seqIs 0b01_010111_10011_00110_10101010110101#32 (.callr 1#2 19#5 6#5 10933#14)) = true := by decide +kernel

theorem test_decode_memory :
    (seqIs 0b01_011000_10011_11001_01_1_10_100110101#32 (.ld 1#2 19#5 25#5 1#2 1#1 2#2 309#9)
      && seqIs 0b01_011001_10011_11001_11_0_10_100110101#32 (.st 1#2 19#5 25#5 3#2 2#2 309#9)
      && seqIs 0b01_011010_10011_00110_00000_01_10_11_000#32 (.ldOrdered 1#2 19#5 6#5 1#2 2#2 3#2)
      && seqIs 0b01_011011_00000_00110_01001_10_10_11_000#32 (.stOrdered 1#2 6#5 9#5 2#2 2#2 3#2)
      && seqIs 0b01_011100_10011_00110_01001_10_10_11_000#32 (.amoAdd 1#2 19#5 6#5 9#5 2#2 2#2 3#2)
      && seqIs 0b01_011101_10011_00110_01001_10_10_11_000#32 (.amoSwap 1#2 19#5 6#5 9#5 2#2 2#2 3#2)
      && seqIs 0b01_011110_10011_00110_01001_10_10_11_000#32 (.amoCas 1#2 19#5 6#5 9#5 2#2 2#2 3#2)
      && seqIs 0b01_011111_000000000000000_11_10_00000#32 (.fence 1#2 3#2 2#2)) = true := by decide +kernel

theorem test_decode_configuration :
    (seqIs 0b01_100000_00110_000000000000000_1011#32 (.cfgLoad 1#2 6#5 11#4)
      && seqIs 0b01_100000_00000000000000010_101_1011#32 (.cfgPart 1#2 5#3 11#4)
      && seqIs 0b01_100000_00000000000000100_101_1011#32 (.cfgArm 1#2 5#3 11#4)
      && seqIs 0b01_100000_00110_11001_0000110_101_0000#32 (.cfgFire 1#2 6#5 25#5 5#3)
      && seqIs 0b01_100000_00000000000001000_101_0000#32 (.cfgWait 1#2 5#3)
      && seqIs 0b01_100000_00110_000000001010_101_0000#32 (.cfgExit 1#2 6#5 5#3)
      && seqIs 0b01_100000_00110_000000001100_101_0000#32 (.cfgPick 1#2 6#5 5#3)
      && seqIs 0b01_100000_00000000000001110_101_0000#32 (.cfgDrain 1#2 5#3)
      && seqIs 0b01_100000_00000000000010000_101_0000#32 (.cfgSwap 1#2 5#3)) = true := by decide +kernel

theorem test_decode_tokens_engines_launch :
    (seqIs 0b01_100001_00110_11001_0000000_1001000#32 (.tokPut 1#2 6#5 25#5 72#7)
      && seqIs 0b01_100001_00110_11001_00000100000000#32 (.rndEnd 1#2 6#5 25#5)
      && seqIs 0b01_100001_00000_11001_00001000000000#32 (.rndGraph 1#2 25#5)
      && seqIs 0b01_100001_00110_11001_00001100000000#32 (.rndRedo 1#2 6#5 25#5)
      && seqIs 0b01_101000_00110_000000000000_101_0000#32 (.engCopy 1#2 6#5 5#3)
      && seqIs 0b01_101000_00110_000000000010_101_0000#32 (.engDcmp 1#2 6#5 5#3)
      && seqIs 0b01_101000_00110_000000000100_101_0000#32 (.engVdec 1#2 6#5 5#3)
      && seqIs 0b01_101000_00110_000000000110_101_0000#32 (.engXfm 1#2 6#5 5#3)
      && seqIs 0b01_101001_00110_11001_00000000000000#32 (.launch 1#2 6#5 25#5)) = true := by decide +kernel

theorem test_decode_waits_system :
    (seqIs 0b01_101010_00110_11001_000000_01_10_01_10#32 (.waitAddr 1#2 6#5 25#5 1#2 2#2 1#2 2#2)
      && seqIs 0b01_101010_00110_11001_000001_01_10_01_10#32 (.waitAddrN64 1#2 6#5 25#5 1#2 2#2 1#2 2#2)
      && seqIs 0b01_101010_00110_11001_00001000_10_0000#32 (.evAdd 1#2 6#5 25#5 2#2)
      && seqIs 0b01_110000_1000110000110001_00000000#32 (.trap 1#2 35889#16)
      && seqIs 0b01_110000_1000110000110001_00000001#32 (.brk 1#2 35889#16)
      && seqIs 0b01_110000_000000000000000000000010#32 (.eret 1#2)
      && seqIs 0b01_110000_000000000000000000000011#32 (.ifence 1#2)
      && seqIs 0b01_110001_10011_00000_00000000010011#32 (.mfsy 1#2 19#5 19#14)
      && seqIs 0b01_110010_00000_00110_00000000010000#32 (.mtsy 1#2 6#5 16#14)) = true := by decide +kernel

theorem test_decode_almanac_arithmetic :
    (almIs [0b000000_0000000000#16] .almEnd
      && almIs [0b000001_101_011_0_110#16] (.almAdd 5#3 3#3 6#3)
      && almIs [0b000010_101_011_0_110#16] (.almSub 5#3 3#3 6#3)
      && almIs [0b000011_101_011_0_110#16] (.almAnd 5#3 3#3 6#3)
      && almIs [0b000100_101_011_0_110#16] (.almOr 5#3 3#3 6#3)
      && almIs [0b000101_101_011_0_110#16] (.almXor 5#3 3#3 6#3)
      && almIs [0b000110_101_011_0_110#16] (.almShl 5#3 3#3 6#3)
      && almIs [0b000111_101_011_0_110#16] (.almShr 5#3 3#3 6#3)
      && almIs [0b001000_101_011_0_110#16] (.almMin 5#3 3#3 6#3)
      && almIs [0b001001_101_011_0_110#16] (.almMax 5#3 3#3 6#3)
      && almIs [0b001010_101_011_0_110#16] (.almMul 5#3 3#3 6#3)
      && almIs [0b001011_101_011_0000#16, 0b1000110000110001#16] (.almAddi 5#3 3#3 35889#16)
      && almIs [0b001100_101_0000000#16, 0b1000110000110001#16] (.almLi 5#3 35889#16)
      && almIs [0b001101_101_0000000#16, 0b1000110000110001#16] (.almLih 5#3 35889#16)
      && almIs [0b001110_101_011_0000#16] (.almMov 5#3 3#3)
      && almIs [0b010000_101_011_0_110#16] (.almSltu 5#3 3#3 6#3)
      && almIs [0b010001_101_011_0_110#16] (.almSlt 5#3 3#3 6#3)
      && almIs [0b010010_101_011_0_110#16] (.almSeq 5#3 3#3 6#3)
      && almIs [0b010011_101_011_0_110#16] (.almCsel 5#3 3#3 6#3)
      && almIs [0b011000_101_011_0011#16] (.almBz 83#7 3#3)) = true := by decide +kernel

theorem test_decode_almanac_control_and_views :
    (almIs [0b011001_101_011_0011#16] (.almBnz 83#7 3#3)
      && almIs [0b011010_101_000_0011#16] (.almJmp 83#7)
      && almIs [0b011011_000000_1001#16] (.almLoopN 9#4)
      && almIs [0b011100_0000000000#16] .almEndl
      && almIs [0b100000_101_011_0000#16] (.almRdq 5#3 3#3)
      && almIs [0b100001_101_011_0101#16] (.almRdh 5#3 3#3 5#4)
      && almIs [0b100010_101_011_0000#16] (.almRdfree 5#3 3#3)
      && almIs [0b100011_101_000_0100#16] (.almRdquota 5#3 4#4)
      && almIs [0b100100_101_011_0000#16] (.almRdecl 5#3 3#3)
      && almIs [0b100101_101_000_1010#16] (.almRdflt 5#3 10#4)
      && almIs [0b100110_101_000_1010#16] (.almRdp 5#3 10#4)
      && almIs [0b100111_000_011_1010#16] (.almWrp 3#3 10#4)
      && almIs [0b101000_101_000_0110#16] (.almRdinv 5#3 6#4)
      && almIs [0b101001_101_011_0000#16] (.almPopc 5#3 3#3)
      && almIs [0b101010_101_011_0000#16] (.almFfs 5#3 3#3)
      && almIs [0b101011_101_011_0111#16] (.almRdrun 5#3 3#3 7#4)) = true := by decide +kernel


/-- Reserved majors, classes, fields and zero bits (R181, R185, R261). -/
theorem test_decode_refuses :
    (seqIsNot 0b11_000000_10011_00110_11001_10_0000000#32
      && seqIsNot 0b01_000000_10011_00110_11001_10_0010011#32
      && seqIsNot 0b01_000011_10011_00110_11001_10_0000000#32
      && seqIsNot 0b01_000000_10011_00110_11001_10_0010000#32
      && seqIsNot 0b01_110000_0000000000000000_00000100#32
      && seqIsNot 0xFFFF_FFFF#32) = true := by decide +kernel

/-! ### Fields that are refused (R181 and its neighbours) -/

theorem test_wf_class : (Instr.add 3#2 1#5 2#5 3#5 0#2).wf = false := by decide
theorem test_wf_class_system : (Instr.eret 3#2).wf = false := by decide
theorem test_wf_ld_space : (Instr.ld 0#2 1#5 2#5 3#2 0#1 3#2 0#9).wf = false := by decide
theorem test_wf_ld_sign_of_eight_bytes : (Instr.ld 0#2 1#5 2#5 3#2 1#1 0#2 0#9).wf = false := by decide
theorem test_wf_st_space : (Instr.st 0#2 1#5 2#5 3#2 3#2 0#9).wf = false := by decide
theorem test_wf_ldOrdered_order : (Instr.ldOrdered 0#2 1#5 2#5 2#2 0#2 3#2).wf = false := by decide
theorem test_wf_ldOrdered_size : (Instr.ldOrdered 0#2 1#5 2#5 1#2 0#2 1#2).wf = false := by decide
theorem test_wf_stOrdered_order : (Instr.stOrdered 0#2 1#5 2#5 1#2 0#2 3#2).wf = false := by decide
theorem test_wf_stOrdered_size : (Instr.stOrdered 0#2 1#5 2#5 2#2 0#2 0#2).wf = false := by decide
theorem test_wf_amo_size : (Instr.amoAdd 0#2 1#5 2#5 3#5 0#2 0#2 1#2).wf = false := by decide
theorem test_wf_fence_order : (Instr.fence 0#2 0#2 0#2).wf = false := by decide
theorem test_wf_tokPut_tag : (Instr.tokPut 0#2 1#5 2#5 0b1000100#7).wf = false := by decide
theorem test_wf_tokPut_reserved : (Instr.tokPut 0#2 1#5 2#5 0b0010000#7).wf = false := by decide
theorem test_wf_waitAddr_order : (Instr.waitAddr 0#2 1#5 2#5 2#2 0#2 0#2 0#2).wf = false := by decide
theorem test_wf_waitAddr_space : (Instr.waitAddr 0#2 1#5 2#5 0#2 0#2 2#2 0#2).wf = false := by decide
theorem test_wf_waitAddrN64_condition : (Instr.waitAddrN64 0#2 1#5 2#5 0#2 0#2 0#2 3#2).wf = false := by decide
theorem test_wf_mfsy_number : (Instr.mfsy 0#2 1#5 0x00B#14).wf = false := by decide
theorem test_wf_mtsy_number : (Instr.mtsy 0#2 1#5 0x006#14).wf = false := by decide
theorem test_wf_rdh_field : (Instr.almRdh 1#3 2#3 7#4).wf = false := by decide
theorem test_wf_rdquota_field : (Instr.almRdquota 1#3 7#4).wf = false := by decide
theorem test_wf_rdinv_field : (Instr.almRdinv 1#3 7#4).wf = false := by decide
theorem test_wf_rdrun_field : (Instr.almRdrun 1#3 2#3 8#4).wf = false := by decide
theorem test_wf_powerWindow_frequency : (Instr.powerWindow [(0, 7#5)]).wf = false := by decide

/-! ### Small states -/

/-- A next state that an outcome holds. -/
def nextIs (o : Host.Outcome State Fault Refusal) (f : State → Bool) : Bool :=
  match o with
  | .next s => f s
  | _ => false

/-- The sequencer of tile 0 changed, from reset. -/
def mine (f : Seq → Seq) : State := State.reset.modMe f

/-- The same with two registers, s1 and s2, and predicate p1. -/
def regs (a b : DWord) : State := mine (fun q => { q with regs := (q.regs.set 1 a).set 2 b, preds := q.preds.set 1 true })

/-- A page of 64 GiB that maps the low addresses onto themselves for context 1 of partition 0, tile 0 running in it at
0x20000, with two registers. -/
def mapped (a b : DWord) : State :=
  (State.reset.withFetchWord 32 0x00184500).modMe (fun q => { q with regs := (q.regs.set 1 a).set 2 b })

/-- A block of units in a region with one slot, one closed dimension of four, and no gated port. -/
def block (units : List DWord) : Image where
  header := BitVec.ofNat 128 ((units.length - 1) * 2 ^ 113 + 4)
  units := units
  bindHeader := 0#128
  binds := units.map (fun _ => 0x400#32)
  gports := []
  routes := []

/-- A launch record with nothing in it. -/
def blankLaunch : LaunchRec :=
  ⟨0#32, 0#8, 0#8, 1#16, 0#64, 0#64, 0#64, 0#32, 0#32, 0#64, 0#64, 0#32, 0#32⟩

/-- A native graph of one load of one strand. -/
def graphA : Graph where
  native := Bool.true
  depth := 2
  loads := 1
  compute := [⟨0, 0, 0⟩]
  memory := []
  strands := [⟨0, 0, 1, 0x200000, 0#64, [0], []⟩]
  streams := []
  ags := []
  entries := [none]
  data := []
  emulated := []
  inits := []
  images := []
  parsed := []
  nia := 0

/-- That graph in running slot 0 of partition 0, on compute tile 0, with ID 7. -/
def runA : Run where
  part := 0
  slot := 0
  gid := 7#32
  queue := 0
  ctx := 1#16
  launch := blankLaunch
  origin := 0#32
  relaunches := 0
  graph := graphA
  native := Bool.true
  load := 0
  tiles := [(0, 0)]
  first := 0
  oldest := 0
  depth := 2
  lastCommitted := none
  rounds := []
  stores := []
  ports := []
  streams := []
  places := []
  fifos := []
  sinks := []
  flags := 0#8
  suspect := noUnit
  log := 0xFFFF_FFFF#32
  startNs := 0
  quantumNs := 0
  lastFire := 0
  launches := []
  freeze := none
  frozen := false
  fault := none
  faultSunk := none
  replays := []
  hostKilled := false
  eclipseAtEnd := []

/-- Strand 0 of tile 0, used, with context 0 active. -/
def strandA : Strand := { used := true, exitTable := 0x200000, blocks := 1, state := .ready, active := some 0 }

/-- A state in which a graph runs with a strand and the image of context 0, and holds a window of 64 KiB east of tile 0. -/
def withGraph (base : State) (r : Run) (st : Strand) (i : Image) : State :=
  { (base.modTile 0 (fun x => { x with ctxs := x.ctxs.set 0 { image := some i }, strands := x.strands.set 0 st })).modMTile 0
      (fun m => { m with windows := [⟨7#32, 0, 0x10000⟩] }) with runs := [r] }

/-- The same from reset, with two registers. -/
def graphState (a b : DWord) (st : Strand) (units : List DWord) : State := withGraph (regs a b) runA st (block units)

/-- A source unit fed by injection, and a copy unit that it feeds. -/
def sourceWord : DWord := 0x2200_0200_0000_0000#64


/-! ### Values that the spec states

Each expected value stands in the spec: the tables and examples of chapters 01, 04 and 16, and R225, R234, R271. -/

/-- The identifiers of the example in chapter 01. -/
theorem test_identifiers : peId 14 (17 * 64 + 40) = 0x0E00_0468#32 ∧ seqId 14 = 0x0E40_0000#32 ∧ collarId 14 775 = 0x0E10_0307#32 := by decide +kernel

/-- FP32 sources converted to small formats (the table of chapter 04): 464 and 465 to E4M3, with .nanov; 2^-10; -1.5 × 2^-10; 61,439 and 61,440
to E5M2, with .rz; 65,520 to FP16; 0.25, 0.75, 5, 7 and NaN to E2M1; 12 to E8M0; 0x3F80_8000 to BF16. -/
theorem test_conversions :
    ([(Fmt.e4m3, 0, false, 0x43E8_0000), (.e4m3, 0, true, 0x43E8_0000), (.e4m3, 0, false, 0x43E8_8000), (.e4m3, 0, true, 0x43E8_8000), (.e4m3, 0, false, 0x3A80_0000),
      (.e4m3, 0, false, 0xBAC0_0000), (.e5m2, 0, false, 0x476F_FF00), (.e5m2, 0, false, 0x4770_0000), (.e5m2, 1, false, 0x4770_0000), (.f16, 0, false, 0x477F_F000),
      (.e2m1, 0, false, 0x3E80_0000), (.e2m1, 0, false, 0x3F40_0000), (.e2m1, 0, false, 0x40A0_0000), (.e2m1, 0, false, 0x40E0_0000), (.e2m1, 0, false, 0x7FC0_0000),
      (.e8m0, 0, false, 0x4140_0000), (.bf16, 0, false, 0x3F80_8000)] : List (Fmt × Nat × Bool × Nat)).map (fun x => (cvtElem .f32 x.1 x.2.1 x.2.2.1 x.2.2.2 0#32).1)
      = [0x7E, 0x7E, 0x7E, 0x7F, 0x00, 0x81, 0x7B, 0x7C, 0x7B, 0x7C00, 0x0, 0x2, 0x6, 0x7, 0x0, 0x83, 0x3F80] := by decide +kernel

/-- The six states of the generator whose seed is 1, and the two draws. -/
theorem test_draws :
    rngSeed 1#64 0 0 = 0x1255_994F#32 ∧ rngStep 1#32 = 0x0004_2021#32 ∧ rngStep 0x1255_994F#32 = 0x8EF9_17D1#32 ∧ rngDraw 0x8EF9_17D1#32 = 36601
      ∧ rngDraw (rngStep 0x8EF9_17D1#32) = 11375
      ∧ ((cvtElem .f32 .bf16 4 false 0x3F80_8000 0x1255_994F#32).1, (cvtElem .f32 .bf16 4 false 0x3F80_8000 0x8EF9_17D1#32).1) = (0x3F80, 0x3F81) := by decide +kernel

/-- Blocks quantised to E4M3: all zeros, largest 1.0, largest 1.9, largest 2^-130, with the underflow flag. -/
theorem test_quantise :
    (let q (xs : List Nat) := let r := quantise .e4m3 0 (xs.map (fun x => (x, false))) 0#32; (r.1, r.2.1.take 2, r.2.2.2)
     q (0x8000_0000 :: List.replicate 31 0) = (0x00, [0x80, 0x00], false)
      ∧ q (0x3F80_0000 :: 0x3F00_0000 :: List.replicate 30 0) = (0x77, [0x78, 0x70], false)
      ∧ (q (0x3FF3_3333 :: List.replicate 31 0)).1 = 0x77 ∧ ((q (0x3FF3_3333 :: List.replicate 31 0)).2.1.take 1) = [0x7E]
      ∧ (q (0x0008_0000 :: 0x0000_0200 :: List.replicate 30 0)) = (0x00, [0x20, 0x00], true)) := by decide +kernel

/-- The normalisation of the group 1, 2, 3, 4: mean and reciprocal deviation, and with rms. -/
theorem test_normalise :
    naccClose false 0 0x4120_0000 0x41F0_0000 4 = (0x4020_0000, 0x3F64_F92E) ∧ naccClose true 0 0x4120_0000 0x41F0_0000 4 = (0x0000_0000, 0x3EBA_F4BA) := by decide +kernel

/-- Division by 0, the least dividend by -1, and a quotient rounded towards zero (R225). -/
theorem test_div :
    ([(7#64, 0#64), (0xFFFF_FFFF_8000_0000#64, 0xFFFF_FFFF_FFFF_FFFF#64), (0xFFFF_FFFF_FFFF_FFF9#64, 2#64)].map (fun x =>
      nextIs (exec (.div 0#2 3#5 1#5 2#5 2#2) (regs x.1 x.2)) (fun s => s.me.rd 3#5 == (if x.2 = 0#64 then 0xFFFF_FFFF_FFFF_FFFF#64
        else if x.2 = 2#64 then 0xFFFF_FFFF_FFFF_FFFD#64 else 0xFFFF_FFFF_8000_0000#64) && s.me.pc == 4#64))) = [true, true, true] := by decide +kernel

/-- The unsigned high product, and a saturating sum of 32 bits (R225). -/
theorem test_mulh_adds :
    nextIs (exec (.mulh 0#2 3#5 1#5 2#5 1#2) (regs 0xFFFF_FFFF_FFFF_FFFF#64 0xFFFF_FFFF_FFFF_FFFF#64)) (fun s => s.me.rd 3#5 == 0xFFFF_FFFF_FFFF_FFFE#64) = true
      ∧ nextIs (exec (.adds 0#2 3#5 1#5 2#5 2#2) (regs 0x7FFF_FFFF#64 1#64)) (fun s => s.me.rd 3#5 == 0x7FFF_FFFF#64) = true := by decide +kernel

/-- A target of callr that is no multiple of 4 traps, and one whose link register is its base links last (R234). -/
theorem test_callr :
    nextIs (exec (.callr 0#2 1#5 1#5 2#14) (regs 0x100#64 0#64)) (fun s => s.me.cause == 2#64 && s.me.tval == 0x102#64 && s.me.rd 1#5 == 0x100#64) = true
      ∧ nextIs (exec (.callr 0#2 1#5 1#5 4#14) (regs 0x100#64 0#64)) (fun s => s.me.pc == 0x104#64 && s.me.rd 1#5 == 4#64) = true := by decide +kernel

/-- A breakpoint enters its handler with code 5 and its immediate; eret from there is back at it at user privilege (R271, R272, R390). -/
theorem test_brk_eret :
    nextIs (exec (.brk 0#2 0x21#16) (regs 0#64 0#64)) (fun s => s.me.pc == 0x50#64 && s.me.cause == 5#64 && s.me.tval == 0x21#64 && s.me.sv
      && nextIs (exec (.eret 0#2) s) (fun t => t.me.pc == 0#64 && !t.me.sv)) = true := by decide +kernel

/-- A store that crosses the end of local RAM traps with code 3 and its address; the last word is written, the least significant byte at the
lowest address (R236, R240). -/
theorem test_st_ram :
    nextIs (exec (.st 0#2 2#5 1#5 2#2 2#2 1#9) (regs 0xFFFC#64 0x1234_5678#64)) (fun s => s.me.cause == 3#64 && s.me.tval == 0x1_0000#64 && s.me.ram.isEmpty) = true
      ∧ nextIs (exec (.st 0#2 2#5 1#5 2#2 2#2 0#9) (regs 0xFFFC#64 0x1234_5678#64)) (fun s =>
        s.me.ram == [(0xFFFC, 0x78#8), (0xFFFD, 0x56#8), (0xFFFE, 0x34#8), (0xFFFF, 0x12#8)]) = true := by decide +kernel

/-- A queue's tail one ahead is taken, the same tail again is counted as stale (R343). -/
theorem test_qtailWrite :
    nextIs (exec (.qtailWrite 0 0 1#32) State.reset) (fun s => ((s.part 0).queues[0]).tail == 1#32
      && nextIs (exec (.qtailWrite 0 0 1#32) s) (fun t => ((t.part 0).queues[0]).tail == 1#32 && ((t.part 0).queues[0]).stale == 1#32)) = true := by decide +kernel

/-! ### States that meet the hypotheses of the obligations

Each theorem is named after the obligation whose hypotheses it meets, a conjunct to each clause that asks for more than the
clause before it. Where a clause binds what a function answers, the conjunct says that it answers so. -/

theorem meets_SequencerWordsRoundTrip :
    (Instr.add 2#2 3#5 1#5 2#5 2#2).wf = true ∧ encodeSeq (.add 2#2 3#5 1#5 2#5 2#2) = some 0b10_000000_00011_00001_00010_10_0000000#32
      ∧ seqIs 0b10_000000_00011_00001_00010_10_0000000#32 (.add 2#2 3#5 1#5 2#5 2#2) = true := by decide +kernel

theorem meets_AlmanacWordsRoundTrip :
    (Instr.almAddi 3#3 1#3 0x8001#16).wf = true ∧ encodeAlm (.almAddi 3#3 1#3 0x8001#16) = some [0b001011_011_001_0000#16, 0x8001#16]
      ∧ almIs [0b001011_011_001_0000#16, 0x8001#16] (.almAddi 3#3 1#3 0x8001#16) = true := by decide +kernel

/-- What the first clause of AStepRunsTheDecodedInstruction asks of a state. -/
def fetches (s : State) (ok : Word → Bool) : Bool :=
  match s.agenda with
  | .seq t :: rest =>
    let here : State := { s with agenda := rest, cur := t }
    here.executes t && !here.me.sv && here.me.held.isEmpty && here.me.stall.isNone && here.me.brkHit.isNone && decide (here.me.pc.toNat < 2 ^ 52)
      && (here.me.il1Word (here.partOfTile t.val).val).isNone
      && (match here.virtRead here.meAgent here.me.pc.toNat 4 .exec with
        | (.ok bs, _) => ok (BitVec.ofNat 32 (leNat bs))
        | _ => false)
  | _ => false

/-- An instruction, a word that is none, an almanac invocation, a step without words, and nothing to do. -/
theorem meets_AStepRunsTheDecodedInstruction :
    fetches (State.reset.withFetchWord 32 0x00184500) (fun w => seqIs w (.add 0#2 3#5 1#5 2#5 2#2)) = true
      ∧ fetches (State.reset.withFetchWord 32 0xFFFF_FFFF) seqIsNot = true
      ∧ Undisturbed (State.reset.withFetchWord 32 0xFFFF_FFFF)
      ∧ (let s := State.reset.withFetchWord 16 0b000001_011_001_0_010
         s.agenda = [.alm 0] ∧ ((s.part 0).inv.map (fun v => (v.pc, v.cycles))) = some (0, 0)
           ∧ almIs (({ s with agenda := [], curPart := 0 } : State).almCode.take 1) (.almAdd 3#3 1#3 2#3) = true)
      ∧ encode (.placementEpoch 0) = .none ∧ State.reset.agenda = [] := by unfold Undisturbed; decide +kernel

/-- mulh.i32 s3, s1, s2 in code that holds the emulation of the part's erratum. -/
def emulatedMulh : State :=
  ({ State.reset.withFetchWord 32 0b00_000000_00011_00001_00010_10_0000011 with
      runs := [{ runA with graph := { graphA with emulated := [(0x20000, 4)] } }] } : State).modMe
    (fun q => { q with regs := (q.regs.set 1 0xFFFF_FFFF#64).set 2 2#64 })

theorem meets_AStepRunsTheDecodedInstruction_emulated :
    fetches emulatedMulh (fun w => seqIs w (.mulh 0#2 3#5 1#5 2#5 2#2)) = true ∧ Undisturbed emulatedMulh ∧ emulatedMulh.inEmulated = true
      ∧ nextIs (exec (.mulh 0#2 3#5 1#5 2#5 2#2) emulatedMulh) (fun t => t.me.rd 3#5 == 0xFFFF_FFFF_FFFF_FFFF#64) = true
      ∧ nextIs (step emulatedMulh) (fun t => t.me.rd 3#5 == 0xFFFF_FFFF#64 && t.me.pc == 0x20004#64) = true := by
  unfold Undisturbed; decide +kernel

theorem meets_StepKeepsMemoryAndLifeCycleSound :
    ((State.reset.withFetchWord 32 0x00184500).mem.wf = true ∧ 0 ≤ (State.reset.withFetchWord 32 0x00184500).lifecycle.toNat)
      ∧ nextIs (step (State.reset.withFetchWord 32 0x00184500)) (fun t => t.me.pc == 0x20004#64) = true := by decide +kernel

theorem meets_Undisturbed : Undisturbed State.reset ∧ (0#2 : BitVec 2) ≠ 3#2 ∧ (2#2 : BitVec 2) ≠ 3#2 := by
  unfold Undisturbed; decide +kernel

/-- Divisors 0 and -1 and the least dividend; the width codes are all admitted. -/
theorem meets_IntegerOperationsGiveTheirResult :
    Undisturbed (regs 0x8000_0000#64 0xFFFF_FFFF#64) ∧ (2#2 : BitVec 2) ≠ 3#2
      ∧ valueAt 2#2 ((regs 0x8000_0000#64 0xFFFF_FFFF#64).me.rd 1#5) = leastAt 2#2
      ∧ valueAt 2#2 ((regs 0x8000_0000#64 0xFFFF_FFFF#64).me.rd 2#5) = -1 ∧ Undisturbed (regs 5#64 0#64) := by
  unfold Undisturbed; decide +kernel

/-- The selecting predicate true and false. -/
theorem meets_PredicatesAndSelectGiveTheirResult :
    Undisturbed (regs 1#64 2#64) ∧ (regs 1#64 2#64).me.pred 1#3 = true ∧ (regs 1#64 2#64).me.pred 2#3 = false := by
  unfold Undisturbed; decide +kernel

theorem meets_ImmediateFormsGiveTheirResult : Undisturbed (regs 1#64 2#64) ∧ (1#2 : BitVec 2) ≠ 3#2 := by unfold Undisturbed; decide +kernel

theorem meets_BranchesGoWhereTheirConditionSays : Undisturbed (regs 0x8000_0000_0000_0000#64 1#64) ∧ (0#2 : BitVec 2) ≠ 3#2 := by
  unfold Undisturbed; decide +kernel

/-- A target that is a multiple of 4, and one that is not. -/
theorem meets_CallsLinkAndJump :
    Undisturbed (regs 0x1000#64 0#64)
      ∧ (BitVec.ofInt 64 (((regs 0x1000#64 0#64).me.rd 1#5).toNat + (4#14 : BitVec 14).toInt)).toNat % 4 = 0
      ∧ (BitVec.ofInt 64 (((regs 0x1000#64 0#64).me.rd 1#5).toNat + (3#14 : BitVec 14).toInt)).toNat % 4 ≠ 0 := by
  unfold Undisturbed; decide +kernel

/-- At either privilege. -/
theorem meets_TrapsEnterAndReturn :
    Undisturbed (mine id) ∧ (mine id).me.sv = false ∧ Undisturbed (mine (fun q => { q with status := 1#64 }))
      ∧ (mine (fun q => { q with status := 1#64 })).me.sv = true := by
  unfold Undisturbed; decide +kernel

theorem meets_SystemRegistersReadAndWrite :
    Undisturbed (mine id) ∧ (mine id).me.sv = false ∧ Undisturbed (mine (fun q => { q with status := 1#64 }))
      ∧ (mine (fun q => { q with status := 1#64 })).me.sv = true := by
  unfold Undisturbed; decide +kernel

theorem meets_ReservedFieldsAreIllegal :
    Undisturbed (mine id) ∧ sysReadable 0x00B#14 = false ∧ sysReadable 0x018#14 = false ∧ sysWritable 0x006#14 = false ∧ sysWritable 0x00B#14 = false := by
  unfold Undisturbed; decide +kernel

/-- Local RAM: a misaligned address, the first that does not fit, the last that does; a scratch window: its last word, good and bad, the
first beyond it. -/
theorem meets_RamAndScratchLoadsAndStores :
    (let s := regs 0xFFFC#64 0xFFFE#64
     Undisturbed s ∧ ¬ ((1#1 : BitVec 1) = 1#1 ∧ (2#2 : BitVec 2) = 3#2)
      ∧ (addressOf (s.me.rd 2#5) 0#9 4).toNat % 4 ≠ 0
      ∧ ((addressOf (s.me.rd 1#5) 1#9 4).toNat % 4 = 0 ∧ 2 ^ 16 < (addressOf (s.me.rd 1#5) 1#9 4).toNat + 4)
      ∧ ((addressOf (s.me.rd 1#5) 0#9 4).toNat % 4 = 0 ∧ (addressOf (s.me.rd 1#5) 0#9 4).toNat + 4 ≤ 2 ^ 16) ∧ s.me.ram.wf = true)
    ∧ (let s := graphState 0x20FFFC#64 0#64 strandA []
       Undisturbed s ∧ (addressOf (s.me.rd 1#5) 0#9 4).toNat % 4 = 0
        ∧ s.scratchPlace s.cur.val (addressOf (s.me.rd 1#5) 0#9 4) 4 = some (0, 0xFFFC) ∧ s.padBad 0 0xFFFC 4 = false
        ∧ (s.modMTile 0 (fun m => { m with badLines := [0x3FF] })).padBad 0 0xFFFC 4 = true
        ∧ (s.mtile 0).bytes.wf = true
        ∧ (addressOf (s.me.rd 1#5) 1#9 4).toNat % 4 = 0 ∧ s.scratchPlace s.cur.val (addressOf (s.me.rd 1#5) 1#9 4) 4 = none) := by
  unfold Undisturbed; decide +kernel

/-! #### Memory -/

/-- A state in which tile 0 runs in context 1, the low 64 GiB mapped by a leaf entry, with two registers. -/
def mappedBy (entry : Nat) (a b : DWord) : State :=
  ((State.reset.withFetchWord 32 0x00184500).physWrite false 0x10800 (leBytes 8 entry)).modMe (fun q => { q with regs := (q.regs.set 1 a).set 2 b })

/-- The user of context 1 of partition 0, on die 0. -/
def user1 : Agent := ⟨0, 0, 1#16, true⟩

theorem translate_of_fault {s : State} {g : Agent} {va : Nat} {acc : Access} {x : XFault} (hc : s.cached g va = none)
    (hw : s.walk g va = .fault x) : s.translate g va acc = (.fault x, s) := by
  simp [State.translate, State.leafFor, hc, hw]

theorem translate_of_denied {s : State} {g : Agent} {va : Nat} {acc : Access} {l : Leaf} (hc : s.cached g va = none)
    (hw : s.walk g va = .leaf l) (ha : leafAllows l.entry g.user acc = false) : s.translate g va acc = (.fault .denied, s) := by
  simp [State.translate, State.leafFor, hc, hw, ha]

theorem virtRead_of_fault {s : State} {g : Agent} {va n : Nat} {acc : Access} {x : XFault} (h : s.translate g va acc = (.fault x, s)) :
    s.virtRead g va n acc = (.fault x, s) := by
  simp [State.virtRead, h]

theorem isTranslation {s : State} {g : Agent} {va : Nat} {acc : Access} (h : (match (s.translate g va acc).1 with | .ok _ _ => true | _ => false) = true) :
    ∃ pa l t, s.translate g va acc = (.ok pa l, t) := by
  revert h
  rcases s.translate g va acc with ⟨_ | _ | _, t⟩ <;> simp

theorem isRead {s : State} {g : Agent} {va n : Nat} {acc : Access} (h : (match (s.virtRead g va n acc).1 with | .ok _ => true | _ => false) = true) :
    ∃ bs t, s.virtRead g va n acc = (.ok bs, t) := by
  revert h
  rcases s.virtRead g va n acc with ⟨_ | _ | _ | _, t⟩ <;> simp

theorem isUncorrectable {s : State} {g : Agent} {va n : Nat} {acc : Access} (h : (match (s.virtRead g va n acc).1 with | .uncorrectable _ => true | _ => false) = true) :
    ∃ e t, s.virtRead g va n acc = (.uncorrectable e, t) := by
  revert h
  rcases s.virtRead g va n acc with ⟨_ | _ | _ | _, t⟩ <;> simp

theorem isPoison {s : State} {g : Agent} {va n : Nat} {acc : Access} (h : (match (s.virtRead g va n acc).1 with | .poison _ => true | _ => false) = true) :
    ∃ table t, s.virtRead g va n acc = (.poison table, t) := by
  revert h
  rcases s.virtRead g va n acc with ⟨_ | _ | _ | _, t⟩ <;> simp

/-- A walk that ends in a fault (a context that the partition does not hold, an entry that is not present, a malformed one), one
that ends in a leaf, of which an access is refused and another, a read or a write, allowed. -/
theorem meets_TranslationChecksAndMarksTheLeaf :
    ((mappedBy 0xFF 0#64 0#64).cached user1 0x1000 = none ∧ (mappedBy 0xFF 0#64 0#64).walk ⟨0, 0, 2#16, true⟩ 0x1000 = .fault .noContext
      ∧ (mappedBy 0xFE 0#64 0#64).walk user1 0x1000 = .fault .notPresent ∧ (mappedBy 0x80FF 0#64 0#64).walk user1 0x1000 = .fault .bad)
    ∧ ((mappedBy 0x37 0#64 0#64).walk user1 0x1000 = .leaf ⟨0x10800, 0x37#64, 0, 6⟩
        ∧ ¬ (0x37#64).getLsbD 3 = true ∧ (0x37#64).getLsbD 2 = true ∧ (0x37#64).getLsbD 5 = true
        ∧ (mappedBy 0x3F 0#64 0#64).walk user1 0x1000 = .leaf ⟨0x10800, 0x3F#64, 0, 6⟩ ∧ (0x3F#64).getLsbD 3 = true ∧ leafComp 0x3F#64 ≠ 2
        ∧ (mappedBy 0x3F 0#64 0#64).tag (0x10800 / 256) = 0x8#4) := by decide +kernel

/-- Reset memory: raw blocks of 256 bytes, every one decodable. -/
theorem meets_PhysicalWritesReadBackAndChangeNothingElse : State.reset.mem.wf = true ∧ State.reset.Decodable := by
  refine ⟨rfl, fun b => ?_, List.Pairwise.nil⟩
  simp only [State.block, State.tag, bdcLoad, State.reset, Sparse.get]
  rfl

/-- A misaligned address, one with no path to its die, one beyond 52 bits, one whose page is there, the faults, bytes and a table that are
uncorrectable. -/
theorem meets_GlobalLoadsReadTheirPage :
    (Undisturbed (mappedBy 0xFF 0x1000#64 0x1001#64) ∧ ((mappedBy 0xFF 0x1000#64 0x1001#64).me.rd 2#5).toNat % 4 ≠ 0
      ∧ (mappedBy 0xFF 0x1000#64 0x1001#64).noPath .global 0x1000#64 .read = false
      ∧ (∃ bs t, (mappedBy 0xFF 0x1000#64 0#64).virtRead (mappedBy 0xFF 0x1000#64 0#64).meAgent 0x1000 4 .read = (.ok bs, t)))
    ∧ ((mappedBy 0xFF (2 ^ 52) (2 ^ 52 - 8)).noPath .global (2 ^ 52) .read = false ∧ 2 ^ 52 ≤ ((mappedBy 0xFF (2 ^ 52) (2 ^ 52 - 8)).me.rd 1#5).toNat
      ∧ (mappedBy 0xFF (2 ^ 52) (2 ^ 52 - 8)).noPath .global (2 ^ 52 - 8) .read = false
      ∧ ((mappedBy 0xFF (2 ^ 52) (2 ^ 52 - 8)).me.rd 2#5).toNat < 2 ^ 52)
    ∧ (∃ x, (mappedBy 0xFE 0x1000#64 0#64).virtRead (mappedBy 0xFE 0x1000#64 0#64).meAgent 0x1000 8 .read = (.fault x, mappedBy 0xFE 0x1000#64 0#64))
    ∧ (∃ x, (mappedBy 0xFB 0x1000#64 0#64).virtRead (mappedBy 0xFB 0x1000#64 0#64).meAgent 0x1000 8 .read = (.fault x, mappedBy 0xFB 0x1000#64 0#64))
    ∧ (let s : State := { mappedBy (0xFF + 2 ^ 25 * 2 ^ 16) 0x1000#64 0#64 with links := (List.range 4).flatMap (fun d => [(8 * d, ⟨8, 0, true⟩), (8 * d + 1, ⟨8, 0, true⟩)]) }
       s.noPath .global 0x1000#64 .read = true)
    ∧ (∃ e t, ({ mappedBy 0xFF 0x1000#64 0#64 with ecc := [0x40] } : State).virtRead user1 0x1000 4 .read = (.uncorrectable e, t))
    ∧ (∃ table t, ({ mappedBy 0xFF 0x1000#64 0#64 with ecc := [0x420] } : State).virtRead user1 0x1000 4 .read = (.poison table, t)) := by
  refine ⟨by unfold Undisturbed; refine ⟨?_, ?_, ?_, isRead ?_⟩ <;> decide +kernel, by decide +kernel,
    ⟨_, virtRead_of_fault (translate_of_fault (x := .notPresent) ?_ ?_)⟩,
    ⟨_, virtRead_of_fault (translate_of_denied (l := ⟨0x10800, 0xFB#64, 0, 6⟩) ?_ ?_ ?_)⟩, ?_, isUncorrectable ?_, isPoison ?_⟩ <;> decide +kernel

/-- The same of stores, and a page that is moving. -/
theorem meets_GlobalStoresWriteTheirPage :
    (Undisturbed (mappedBy 0xFF 0x1000#64 0x1001#64) ∧ ((mappedBy 0xFF 0x1000#64 0x1001#64).me.rd 2#5).toNat % 4 ≠ 0
      ∧ (mappedBy 0xFF 0x1000#64 0x1001#64).noPath .global 0x1000#64 .write = false ∧ (mappedBy 0xFF 0x1000#64 0x1001#64).storeHeld .global 0x1000#64 = false
      ∧ ∃ pa l t, (mappedBy 0xFF 0x1000#64 0x1001#64).translate (mappedBy 0xFF 0x1000#64 0x1001#64).meAgent 0x1000 .write = (.ok pa l, t))
    ∧ ((mappedBy 0xFF (2 ^ 52) 0#64).noPath .global (2 ^ 52) .write = false ∧ (mappedBy 0xFF (2 ^ 52) 0#64).storeHeld .global (2 ^ 52) = false
      ∧ 2 ^ 52 ≤ ((mappedBy 0xFF (2 ^ 52) 0#64).me.rd 1#5).toNat)
    ∧ (∃ x, (mappedBy 0xFE 0x1000#64 0#64).translate (mappedBy 0xFE 0x1000#64 0#64).meAgent 0x1000 .write = (.fault x, mappedBy 0xFE 0x1000#64 0#64))
    ∧ (∃ x, (mappedBy 0xF7 0x1000#64 0#64).translate (mappedBy 0xF7 0x1000#64 0#64).meAgent 0x1000 .write = (.fault x, mappedBy 0xF7 0x1000#64 0#64))
    ∧ (let s : State := { mappedBy 0xFF 0x1000#64 0#64 with moves := [⟨0, 1#16, 0, 6, 0, 2 ^ 36, .migrate, none⟩] }
       (s.me.rd 1#5).toNat % 8 = 0 ∧ s.noPath .global (s.me.rd 1#5) .write = false ∧ s.storeHeld .global (s.me.rd 1#5) = true) := by
  refine ⟨by unfold Undisturbed; refine ⟨?_, ?_, ?_, ?_, isTranslation ?_⟩ <;> decide +kernel, by decide +kernel,
    ⟨_, translate_of_fault (x := .notPresent) ?_ ?_⟩, ⟨_, translate_of_denied (l := ⟨0x10800, 0xF7#64, 0, 6⟩) ?_ ?_ ?_⟩, ?_⟩ <;> decide +kernel

/-- What the first clause of AtomicsReadAndWriteAtOnce asks of a state, at s1 and n bytes, the old value being bad or not. -/
def atomicRuns (s : State) (n : Nat) (bad : Bool) : Bool :=
  let addr := s.me.rd 1#5
  let agent := s.meAgent
  addr.toNat % n == 0 && decide (addr.toNat < 2 ^ 52) &&
    match s.translate agent addr.toNat .write with
    | (.ok pa l, t) => !(leafMtype l.entry == 1 && decide (hostBase ≤ l.frame)) && !t.noPath .global addr .write && !t.heldWrite agent addr.toNat && t.roundReady &&
      (match t.translate agent addr.toNat .write with
      | (.ok pa' _, u) => pa == pa' && u.physBad pa n == bad
      | _ => false)
    | _ => false

/-- The same of the last clause: its round is not yet the oldest. -/
def atomicWaits (s : State) (n : Nat) : Bool :=
  let addr := s.me.rd 1#5
  match s.atomicCheck addr n with
  | (none, t) => !t.noPath .global addr .write && !t.heldWrite s.meAgent addr.toNat && !t.roundReady
  | _ => false

/-- An atomic that runs, of 4 and of 8 bytes, one whose old value is uncorrectable, misaligned ones, and one whose round waits: its sequencer has ended round 0 at its
port, which has not committed. -/
theorem meets_AtomicsReadAndWriteAtOnce :
    (Undisturbed (mappedBy 0xFF 0x1004#64 0#64) ∧ atomicRuns (mappedBy 0xFF 0x1004#64 0#64) 4 false = true ∧ atomicRuns (mappedBy 0xFF 0x1008#64 0#64) 8 false = true
      ∧ atomicRuns { mappedBy 0xFF 0x1008#64 0#64 with ecc := [0x40] } 8 true = true
      ∧ ((mappedBy 0xFF 0x1004#64 0#64).me.rd 1#5).toNat % 8 ≠ 0 ∧ ((mappedBy 0xFF 0x1002#64 0#64).me.rd 1#5).toNat % 4 ≠ 0)
    ∧ atomicWaits ({ mappedBy 0xFF 0x1008#64 0#64 with runs := [{ runA with ports := [⟨0, 0, 0, 1, 0, true, false, none, []⟩] }] } : State) 8 = true := by
  unfold Undisturbed; decide +kernel

/-- What the last clause of FencesAndWaitsGoOn asks. -/
def waitReads (s : State) (sp : Space) (n v : Nat) : Bool :=
  !s.noPath sp (s.me.rd 1#5) .read && match s.seqLoad sp (s.me.rd 1#5) n with
    | (.ok x, _) => x == v
    | _ => false

/-- A word that is equal to the operand, one that is not, a dword, a word in a scratch window, and misaligned addresses. -/
theorem meets_FencesAndWaitsGoOn :
    Undisturbed (mappedBy 0xFF 0x10800#64 0xFF#64) ∧ waitReads (mappedBy 0xFF 0x10800#64 0xFF#64) .global 4 0xFF = true
      ∧ waitReads (mappedBy 0xFF 0x10800#64 0xFE#64) .global 4 0xFF = true ∧ waitReads (mappedBy 0xFF 0x10800#64 0xFF#64) .global 8 0xFF = true
      ∧ waitReads (graphState 0x20FFFC#64 0#64 strandA []) .scratch 4 0 = true
      ∧ ((mappedBy 0xFF 0x10802#64 0#64).me.rd 1#5).toNat % 4 ≠ 0 ∧ ((mappedBy 0xFF 0x10804#64 0#64).me.rd 1#5).toNat % 8 ≠ 0 := by
  unfold Undisturbed; decide +kernel

/-! #### Configuration, tokens, engines, launches -/

/-- A const unit that feeds a terminal sink, over the whole ring of a tile: header, unit words, bind header, bind words (R190 to R198). -/
def imageBytes : List Byte :=
  leBytes 16 (2 ^ 120 + 2 ^ 113 + 4) ++ leBytes 8 (0x8B * 2 ^ 54 + (2 ^ 13 + 2 ^ 6 + 1) * 2 ^ 28) ++ leBytes 8 (0x89 * 2 ^ 54)
    ++ leBytes 16 (2 ^ 120 + 2 ^ 119) ++ leBytes 4 0 ++ leBytes 4 (2 ^ 22)

/-- That image at 0x4000, with two registers. -/
def codeState (a b : DWord) : State := (mappedBy 0xFF a b).physWrite false 0x4000 imageBytes

/-- What a fetched image is judged as; none where it cannot be fetched. -/
def judged (s : State) : Option (Option Nat) :=
  match (s.modMe Seq.boundary).fetchImage (s.me.rd 1#5).toNat with
  | (.ok bs, t) => some (t.imageCode (imageOf bs) ((t.runOfTile t.cur.val).bind (fun r => r.blockAt (s.me.rd 1#5).toNat)))
  | _ => none

/-- A misaligned address, a busy context, an image that passes, one that a check refuses, one that cannot be fetched, and one that is long in
coming. -/
theorem meets_ConfigurationLoadPlacesACheckedImage :
    Undisturbed (codeState 0x4000#64 0#64) ∧ ((codeState 0x4008#64 0#64).me.rd 1#5).toNat % 16 ≠ 0
      ∧ (((codeState 0x4000#64 0#64).me.rd 1#5).toNat % 16 = 0 ∧ ((codeState 0x4000#64 0#64).tile 0).busy 3 = false
        ∧ (codeState 0x4000#64 0#64).me.slow = false ∧ judged (codeState 0x4000#64 0#64) = some none)
      ∧ ((codeState 0x4000#64 0#64).modMe (fun q => { q with slow := true })).me.slow = true
      ∧ judged (codeState 0x5000#64 0#64) = some (some 0x0201) ∧ judged (mappedBy 0xFE 0x4000#64 0#64) = none
      ∧ ((graphState 0x4000#64 0#64 strandA []).tile 0).busy 0 = true := by
  unfold Undisturbed; decide +kernel

/-- A state with a strand, an image in context 0 (active) and one in context 1. -/
def twoCtxs (st : Strand) (region : BitVec 128) : State :=
  (graphState 0#64 0#64 st [0#64]).modCtx 0 1 (fun x => { x with image := some { block [0#64] with bindHeader := region } })

/-- A busy context, an empty one, an unused strand, another region, and a context that can be armed. -/
theorem meets_ArmMakesTheContextAShadow :
    Undisturbed (twoCtxs strandA 0#128)
      ∧ (∃ j : Fin 8, ((twoCtxs strandA 0#128).tile 0).strands[j].active = some 0 ∨ ((twoCtxs strandA 0#128).tile 0).strands[j].shadow = .armed 0)
      ∧ ((¬ ∃ j : Fin 8, ((twoCtxs strandA 0#128).tile 0).strands[j].active = some 2 ∨ ((twoCtxs strandA 0#128).tile 0).strands[j].shadow = .armed 2)
        ∧ (((twoCtxs strandA 0#128).tile 0).ctxs[2]).image = none)
      ∧ ((¬ ∃ j : Fin 8, ((twoCtxs strandA 0#128).tile 0).strands[j].active = some 1 ∨ ((twoCtxs strandA 0#128).tile 0).strands[j].shadow = .armed 1)
        ∧ ((((twoCtxs strandA 0#128).tile 0).ctxs[1]).image).isSome = true
        ∧ (((twoCtxs strandA 0#128).tile 0).strands[1]).used = false
        ∧ ((twoCtxs strandA 0#128).strand 0 0).used = true ∧ ((twoCtxs strandA 0#128).strand 0 0).swapPending = false
        ∧ ((twoCtxs strandA 0#128).strand 0 0).partPending = false
        ∧ bRegion ((twoCtxs strandA 0#128).strand 0 0).region = (block [0#64]).region
        ∧ bRegion ((twoCtxs strandA 0#128).strand 0 0).region ≠ ({ block [0#64] with bindHeader := 1#128 <<< 119 } : Image).region) := by
  unfold Undisturbed; decide +kernel

/-- An unused strand; no armed shadow; an armed one outside run, in run, and in run with a swap pending or a part. -/
theorem meets_SwapMakesTheShadowActive :
    Undisturbed (twoCtxs strandA 0#128) ∧ ((twoCtxs strandA 0#128).strand 0 1).used = false ∧ ((twoCtxs strandA 0#128).strand 0 0).shadow = .none
      ∧ (∀ v : Bool, ((twoCtxs { strandA with shadow := .armed 1, state := .run, swapPending := v } 0#128).strand 0 0).shadow = .armed 1
        ∧ ((twoCtxs { strandA with shadow := .armed 1, state := .run, swapPending := v } 0#128).strand 0 0).used = true
        ∧ ((twoCtxs { strandA with shadow := .armed 1, state := .run, swapPending := v } 0#128).strand 0 0).partPending = false
        ∧ ((twoCtxs { strandA with shadow := .armed 1, state := .run, swapPending := v } 0#128).strand 0 0).state = .run
        ∧ ((twoCtxs { strandA with shadow := .armed 1, state := .run, swapPending := v } 0#128).strand 0 0).swapPending = v)
      ∧ ((twoCtxs { strandA with shadow := .armed 1, state := .run, partPending := true } 0#128).strand 0 0).partPending = true
      ∧ ((twoCtxs { strandA with shadow := .armed 1 } 0#128).strand 0 0).state ≠ .run
      ∧ ((twoCtxs { strandA with shadow := .armed 1 } 0#128).modMe Seq.boundary).badContext 0 1 = false := by
  unfold Undisturbed; decide +kernel

/-- A graph whose window holds a descriptor of capacity 4 for block 0, with head, tail and skipped count. -/
def described (st : Strand) (i : Image) (head tail skipped : Nat) : State :=
  (withGraph (regs 3#64 0x0100_0000#64) runA st i).padWrite 0 0 (leBytes 4 0x100 ++ leBytes 4 4 ++ leBytes 4 head ++ leBytes 4 tail ++ leBytes 4 skipped)

/-- What the second clause of FireStartsOrQueuesAPhase binds: the trip counts, and the first malformed descriptor. -/
def fires (s : State) : Option ((List Nat ⊕ Nat) × Option Nat) :=
  let st := s.strand 0 0
  let s0 := s.modMe Seq.boundary
  ((st.nextCtx).bind (fun c => s0.ctxBlock s.cur 0 c)).map (fun x =>
    (readTrips x.image s.me, (State.firedBlocks st x).find? (fun y => (s0.exitDesc s.cur st.exitTable y).isNone)))

/-- The image of one unit whose trip count is register 1, or register 2. -/
def counted (r : Nat) : Image := { block [0#64] with header := BitVec.ofNat 128 (2 ^ 24 + r) }

/-- A strand that is not used, an empty one, and a fire pending; trip counts out of range and in range; a descriptor that is
malformed, and one that is not, in run and outside it. -/
theorem meets_FireStartsOrQueuesAPhase :
    (Undisturbed (described strandA (counted 1) 0 0 0) ∧ ((described strandA (counted 1) 0 0 0).strand 0 1).used = false
      ∧ (strandA.used = true ∧ strandA.state ≠ .empty ∧ strandA.partPending = false ∧ strandA.firePending = none)
      ∧ fires (described strandA (counted 2) 0 0 0) = some (.inr 0, none)
      ∧ fires (withGraph (regs 3#64 0#64) runA strandA (counted 1)) = some (.inl [3], some 0)
      ∧ fires (described strandA (counted 1) 0 0 0) = some (.inl [3], none)
      ∧ (described strandA (counted 1) 0 0 0).badContext 0 0 = false
      ∧ fires (described { strandA with state := .run } (counted 1) 0 0 0) = some (.inl [3], none))
    ∧ ((described strandA (counted 1) 0 0 0).rctx 0 0).isSome = true
    ∧ (((described strandA (counted 1) 0 0 0).rctx 0 0).bind (fun x => (described strandA (counted 1) 0 0 0).run x.gid)).isSome = true := by
  unfold Undisturbed; decide +kernel

/-- An empty context; a strand outside run; in run with context 1 its armed shadow, the trip count of whose image is out of range, or
in range, in another region or in the same. -/
theorem meets_PartialReconfigurationBecomesPending :
    let st : Strand := { strandA with state := .run, shadow := .armed 1 }
    let at1 (i : Image) : State := (withGraph (regs 3#64 0x0100_0000#64) runA st (block [0#64])).modCtx 0 1 (fun x => { x with image := some i })
    Undisturbed (at1 (counted 1)) ∧ (((at1 (counted 1)).tile 0).ctxs[2]).image = none
      ∧ ((at1 (counted 1)).strand 0 1).state ≠ .run
      ∧ (st.used = true ∧ st.state = .run ∧ st.swapPending = false ∧ st.partPending = false ∧ st.firePending = none ∧ st.shadow = .armed 1)
      ∧ readTrips (counted 2) (at1 (counted 2)).me = .inr 0 ∧ readTrips (counted 1) (at1 (counted 1)).me = .inl [3]
      ∧ bRegion st.region = (counted 1).region ∧ bRegion st.region ≠ ({ counted 1 with bindHeader := 1#128 <<< 119 } : Image).region
      ∧ (((at1 (counted 1)).modMe Seq.boundary).rctx 0 0).isSome = true := by
  unfold Undisturbed; decide +kernel

/-- The waiting and skipped counts of an exit table's blocks. -/
def tableOf (s : State) : Option (List (Nat × Nat × Nat)) :=
  match s.exitTable 0 (s.strand 0 0) with
  | .inl ds => some (ds.map (fun x => (x.1, x.2.waiting, x.2.skipped)))
  | .inr _ => none

/-- An unused strand; one that is ready, with nothing waiting and with three tokens waiting; one in run; an engine job of the strand, and
none. A choice among blocks that have been skipped 1,023 and 1,024 times. -/
theorem meets_StrandWaitsAndPicks :
    (Undisturbed (described strandA (counted 1) 0 0 0) ∧ ((described strandA (counted 1) 0 0 0).strand 0 1).used = false
      ∧ (strandA.used = true ∧ strandA.state ≠ .run ∧ strandA.swapPending = false ∧ strandA.partPending = false ∧ strandA.firePending = none)
      ∧ tableOf ((described strandA (counted 1) 0 0 0).modMe Seq.boundary) = some [(0, 0, 0)]
      ∧ tableOf ((described strandA (counted 1) 0xFFFF_FFFE 1 1023).modMe Seq.boundary) = some [(0, 3, 1023)]
      ∧ ((described strandA (counted 1) 0 0 0).modMe Seq.boundary).enginesDrained 0 0 = true
      ∧ (({ described strandA (counted 1) 0 0 0 with jobs := [⟨.copy 0, 7#32, 0, 0, none, [], false, none⟩] } : State).modMe Seq.boundary).enginesDrained 0 0 = false
      ∧ ((described { strandA with state := .run } (counted 1) 0 0 0).strand 0 0).state = .run
      ∧ (described strandA (counted 1) 0 0 0).me.stall = none)
    ∧ (let ds : List (Nat × ExitDesc) := [(0, ⟨0, 4, 0, 3, 1023⟩), (1, ⟨0, 4, 0, 1, 1024⟩)]
       ds.Pairwise (fun x y => x.1 < y.1) ∧ (∃ x ∈ ds, x.2.waiting ≠ 0 ∧ 1024 ≤ x.2.skipped) ∧ pickBlock ds = some (1, ⟨0, 4, 0, 1, 1024⟩)
        ∧ (∀ x ∈ ds.take 1, x.2.waiting ≠ 0 → x.2.skipped < 1024) ∧ pickBlock (ds.take 1) = some (0, ⟨0, 4, 0, 3, 1023⟩)) := by
  unfold Undisturbed; decide +kernel

/-- An injection source. -/
def injectSource : DWord := BitVec.ofNat 64 (0x88 * 2 ^ 54)

/-- The port that s2 names, from a state with one injection port as given. -/
def ported (p : Port) (items : Nat) : State :=
  withGraph (regs 0x0100_0000#64 0#64) { runA with ports := [{ p with items := List.replicate items { words := [0#32], tag := 0#8 } }] } strandA (block [injectSource])

/-- The open port of unit 0 of strand 0 at round 2. -/
def openPort : Port := ⟨0, 0, 0, 2, 0, true, false, none, []⟩

/-- What the clauses of InjectionsAppendToTheirPort bind: the port and whether its edge has room. -/
def portOf (s : State) : Option (Bool × Option Nat × Nat × Bool) :=
  (s.injPort (s.me.rd 2#5)).map (fun x => (x.2.2.2.closed, x.2.2.2.refuses, x.2.2.2.seq, s.portRoom x.1 x.2.1 x.2.2.2))

/-- A value that names no port; a port that is closed, that refuses, that is open at the start of a round and within it, with room and
without; the cause of a fault token at 1 and at 0. -/
theorem meets_InjectionsAppendToTheirPort :
    (Undisturbed (ported openPort 0) ∧ tokTagOk 0b0000100#7 = true ∧ tokTagOk 0b0000000#7 = true
      ∧ portOf (regs 0#64 0#64) = none
      ∧ portOf (ported { openPort with closed := true } 0) = some (true, none, 0, true)
      ∧ portOf (ported { openPort with refuses := some 0x0100_0000 } 0) = some (false, some 0x0100_0000, 0, true)
      ∧ portOf (ported openPort 0) = some (false, none, 0, true))
      ∧ (portOf (ported { openPort with seq := 1 } 0) = some (false, none, 1, true)
      ∧ portOf (ported openPort 4) = some (false, none, 0, false)
      ∧ field ((ported openPort 0).me.rd 1#5) 31 24 = 1 ∧ field ((ported openPort 0).me.rd 2#5) 31 24 = 0
      ∧ field ((ported openPort 0).me.rd 1#5) 31 0 = 0x0100_0000 ∧ (ported openPort 0).me.stall = none
      ∧ portOf (ported { openPort with round := 0xFFFF_FFFF } 0) = some (false, none, 0, true)
      ∧ ((ported { openPort with round := 0xFFFF_FFFF } 0).injPort ((ported openPort 0).me.rd 2#5)).map (fun y => y.2.2.2.round) = some 0xFFFF_FFFF) := by
  refine ⟨by unfold Undisturbed; decide +kernel, by decide +kernel⟩

/-- A state whose window holds a copy card at its base: 16 bytes from 0x200100 to 0x200200, its record at 0x200300. -/
def carded (sub : Nat) (jobs : List Job) : State :=
  { (graphState 0x200000#64 0x200008#64 strandA []).padWrite 0 0 (leBytes 8 (sub + 1) ++ leBytes 8 (2 ^ 63 + 0x200300) ++ leBytes 8 (2 ^ 63 + 0x200100)
      ++ leBytes 8 (2 ^ 63 + 0x200200) ++ leBytes 4 16) with jobs := jobs }

/-- A card as EngineInstructionsQueueTheirJob reads it: its code, and whether an engine takes it. -/
def cardSeen (s : State) (sub : Nat) : Option (Option Nat × Bool) :=
  match s.cardTile 0 (s.me.rd 1#5), s.seqLoad .scratch (s.me.rd 1#5) 64 with
  | some m, (.ok v, _) => some (s.cardCode (s.gidOfTile 0) 0 m sub (leBytes 64 v), (s.chooseEngine (s.gidOfTile 0) 0 m sub (leBytes 64 v)).isSome)
  | _, _ => none

theorem scratch_load_keeps {s : State} {addr : DWord} {v : Nat} (h : (s.seqLoad .scratch addr 64).1 = .ok v) : s.seqLoad .scratch addr 64 = (.ok v, s) := by
  revert h
  simp only [State.seqLoad, State.seqReadBytes]
  split
  · simp
  · split
    · simp
    · split <;> simp

/-- A misaligned card, one outside a window, an empty strand, a card that a check refuses, one that is queued and one that finds the
queue of its engine full. -/
theorem meets_EngineInstructionsQueueTheirJob :
    (Undisturbed (carded 0 []) ∧ ((carded 0 []).me.rd 2#5).toNat % 64 ≠ 0 ∧ (graphState 0x400000#64 0#64 strandA []).cardTile 0 0x400000#64 = none
      ∧ ((carded 0 []).strand 0 1).state = .empty ∧ ((carded 0 []).strand 0 0).state ≠ .empty
      ∧ cardSeen (carded 0 []) 1 = some (some 1, true) ∧ cardSeen (carded 0 []) 0 = some (none, true)
      ∧ cardSeen (carded 0 (List.replicate 8 ⟨.copy 0, 7#32, 0, 0, none, [], false, none⟩)) 0 = some (none, false))
    ∧ ∃ v, (carded 0 []).seqLoad .scratch 0x200000#64 64 = (.ok v, carded 0 []) := by
  refine ⟨by unfold Undisturbed; decide +kernel, _, scratch_load_keeps (v := leNat ((carded 0 []).padBytes 0 0 64)) ?_⟩
  decide +kernel

/-- A state with the page of mappedBy, in which queue 3 of partition 0 is enabled and device-owned, n launches pending at tile 0. -/
def launching (a b : DWord) (n : Nat) : State :=
  { (mappedBy 0xFF a b).modQueue 0 3 (fun q => { q with cfg := 0x60#64 }) with
    runs := [{ runA with launches := List.replicate n ⟨0, 0, 3, []⟩ }] }

/-- What LaunchHoldsItsRecordForTheRound binds: whether the record is read, and how many launches wait at the tile. -/
def launchSeen (s : State) : Option Nat :=
  match s.seqLoad .global (s.me.rd 1#5) 64 with
  | (.ok _, t) => (t.runOfTile 0).map (fun r => (r.launches.filter (fun l => l.tile == 0)).length)
  | _ => none

/-- A misaligned record, a queue that does not take launches, an eighth launch and a ninth. -/
theorem meets_LaunchHoldsItsRecordForTheRound :
    Undisturbed (launching 0x1000#64 3#64 0) ∧ ((launching 0x1020#64 3#64 0).me.rd 1#5).toNat % 64 ≠ 0
      ∧ (launching 0x1000#64 4#64 0).queueLaunches ((launching 0x1000#64 4#64 0).partOfTile 0) 4 = false
      ∧ (launching 0x1000#64 3#64 0).queueLaunches ((launching 0x1000#64 3#64 0).partOfTile 0) 3 = true
      ∧ launchSeen (launching 0x1000#64 3#64 7) = some 7 ∧ launchSeen (launching 0x1000#64 3#64 8) = some 8 := by
  unfold Undisturbed; decide +kernel

/-! #### Rounds, loads, regions, units -/

/-- A phase of the block in context 0: nothing issued yet. -/
def phaseA (trips : List Nat) : Phase where
  key := 64
  trips := trips
  index := trips.map (fun _ => 0)
  current := trips.map (fun _ => 0)
  segs := []
  issued := 0
  exhausted := false
  slot := 0
  advances := 0
  marks := []
  args := (0#64, 0#64)
  pick := none
  pickHead := 0
  pickRead := 0
  pickStop := false
  puncts := []
  flush := true
  blocked := false
  eog := false
  exits := 0#8
  ended := false

/-- Strand 0 in a phase, with the states of its units. -/
def strandRun (us : List UnitSt) : Strand := { strandA with state := .run, phase := some (phaseA [2, 3]), units := [(64, us)] }

/-- A graph that runs a block, with its units. -/
def runState (r : Run) (us : List UnitSt) (ws : List DWord) : State := withGraph (regs 0#64 0#64) r (strandRun us) (block ws)

/-- A unit that has passed the marker of round 0. -/
def pastRound0 : UnitSt := { nextRound := [some 1, none, none, none] }

/-- A store of round 0 that memory tile 0 buffers. -/
def storeAt (a : Nat) (port : Word) : BufStore := ⟨0, 0, false, a, [1#8], port, none, false⟩

/-- An origin of an error tag. -/
def originA : Origin := ⟨0, 0, 64, 0, noUnit, 0, 0, true, 0, 0, 1, 0xFFFF_FFFF#32, true, none, none, none, none⟩

/-- What the commit clause of RoundsCommitInOrder asks of a graph, and of a page that moves under it. -/
def commits (s : State) (held : Bool) : Bool :=
  match s.run 7#32 with
  | some r =>
    let stored := (r.commitOrder r.oldest).foldl (fun z b => z.storeNow b) s
    s.mayCommit r && s.commitHeld r == held && (r.round r.oldest).bad.isNone && r.launches.all (fun l => l.round != r.oldest) && r.rounds.all (fun x => !decide (r.oldest < x.number) || x.reads.isEmpty)
      && (match stored.writeRoundWord r (r.oldest + 1) with
        | (true, w) => (w.part 0).appends.isEmpty
        | _ => false)
  | none => false

/-- A round with two stores, without a completion word and with one, and one whose page moves; what keeps a round from committing. -/
theorem meets_RoundsCommitInOrder :
    commits (runState { runA with stores := [storeAt 64 2#32, storeAt 0 1#32] } [pastRound0] [0#64]) false = true
    ∧ commits { runState { runA with stores := [storeAt 64 2#32] } [pastRound0] [0#64] with moves := [⟨0, 1#16, 0, 0, 0, 2 ^ 36, .migrate, none⟩] } true = true
    ∧ commits (withGraph (mappedBy 0xFF 0#64 0#64) { runA with launch := { blankLaunch with args := 0x1000#64 } } (strandRun [pastRound0]) (block [0#64])) false = true
    ∧ ((runState { runA with rounds := [{ number := 0, timestamp := none, tags := [originA] }] } [] []).run 7#32).any
        (fun r => decide ((r.round r.oldest).tags ≠ [])) = true
    ∧ ((runState { runA with rounds := [{ number := 0, timestamp := none, overflowed := true }] } [] []).run 7#32).any
        (fun r => (r.round 0).overflowed && !(r.round 0).writing && r.works) = true
    ∧ ((runState { runA with freeze := some .kill } [] []).run 7#32).any (fun r => decide (r.freeze = some .kill)) = true
    ∧ ((runState { runA with stores := [{ storeAt 0 1#32 with origin := some originA }] } [] []).run 7#32).any
        (fun r => r.stores.any (fun b => decide (b.round = 0) && b.origin.isSome)) = true := by
  decide +kernel

theorem dedup_of_nodup {α : Type} [DecidableEq α] {l : List α} (h : l.Nodup) : dedup l = l := by
  induction l with
  | nil => rfl
  | cons x xs ih =>
    simp only [List.nodup_cons] at h
    simp only [dedup, ih h.2, List.cons.injEq, true_and, List.filter_eq_self, decide_eq_true_eq]
    intro y hy e
    exact h.1 (e ▸ hy)

/-- A round that fills n lines of a commit buffer. -/
def fullRun (n : Nat) : Run :=
  { runA with rounds := [{ number := 0, timestamp := none, overflowed := true }], stores := (List.range n).map (fun i => storeAt (64 * i) 1#32) }

theorem fullRun_lines (n : Nat) : ((fullRun n).linesOf 0 0).length = n := by
  have e : ((fullRun n).stores.filter (fun b => b.round == 0 && b.mtile == 0)).map BufStore.line = (List.range n).map (fun i => (false, i)) := by
    rw [List.filter_eq_self.mpr (fun b hb => by
      simp only [fullRun, List.mem_map] at hb
      obtain ⟨i, -, rfl⟩ := hb
      rfl)]
    simp only [fullRun, List.map_map]
    apply List.map_congr_left
    intro i _
    simp [storeAt, BufStore.line]
  unfold Run.linesOf
  rw [e, dedup_of_nodup (List.Pairwise.map _ (fun a b h e => h (Prod.mk.inj e).2) List.nodup_range)]
  simp

theorem meets_RoundsCommitInOrder_overflow :
    ((fullRun 4096).rounds.map (fun x => (x.number, x.overflowed, x.writing))) = [(0, true, false)] ∧ (fullRun 4096).freeze = none
      ∧ (fullRun 4096).works = true ∧ (runState (fullRun 1) [] []).commitHeld (fullRun 1) = false ∧ 4096 ≤ ((fullRun 4096).linesOf 0 0).length
      ∧ (({ fullRun 1 with rounds := [{ number := 0, timestamp := none, overflowed := true, overTile := some 0 }] } : Run).round 0).overTile = some 0 :=
  ⟨rfl, rfl, rfl, by decide +kernel, Nat.le_of_eq (fullRun_lines 4096).symm, rfl⟩

/-- The state with tile 0's sequencer in a mode and device time at a value. -/
def timed (s : State) (m : SeqMode) (ns : Nat) : State := { s.modSeq 0 (fun q => { q with mode := m }) with ns := ns }

/-- A page-fault request of the graph, posted at 1,000 ns. -/
def faultA : PfReq := ⟨5#32, 0x1000, 1#16, 0, noUnit, 7#32, 1000, true⟩

/-- A graph with that request, at a device time. -/
def waiting (r : Run) (ns : Nat) : State := timed ((runState r [] []).modPart 0 (fun p => { p with faults := [faultA], saveBase := 0x10_0000, saveSize := 2 ^ 30 })) .running ns

/-- A load that is to freeze and one that has frozen, for each reason that the clauses name; a page-fault request at, and a nanosecond before,
its limit; a load that has ended and one that has not; one that has stood still for 65,536 cycles, 100,825 ns at 650 MHz, and one that
has not. -/
theorem meets_LoadsFreezeSaveAndEnd :
    ((runState { runA with freeze := some .preempt } [] []).run 7#32).any (fun r => (r.freeze == some .preempt && !r.frozen && !r.finishing)
      && ((runState { runA with freeze := some .preempt } [] []).strandsOf r).all (fun y => !(runState { runA with freeze := some .preempt } [] []).awaitsReply y)) = true
    ∧ ((runState { runA with freeze := some .pageFault, frozen := true } [] []).run 7#32).any (fun r => r.freeze == some .pageFault && r.frozen) = true
    ∧ ((runState { runA with freeze := some .pageFault, frozen := true } [] []).part 0).resume.length < 64
    ∧ ((waiting runA 100999).part 0).faults = [faultA] ∧ (waiting runA 100999).ns < max faultA.time runA.startNs + 100000
    ∧ max faultA.time runA.startNs + 100000 ≤ (waiting runA 101000).ns ∧ (waiting runA 101000).saveFits runA = true
    ∧ ((waiting runA 101000).modPart 0 (fun p => { p with saveSize := 0 })).saveFits runA = false
    ∧ (timed (runState runA [] []) .ended 0).loadEnded runA = false
    ∧ (timed (withGraph (regs 0#64 0#64) runA strandA (block [])) .ended 0).loadEnded runA = true ∧ runA.graph.loads ≤ runA.load + 1
    ∧ (timed (runState runA [] [BitVec.ofNat 64 (0x89 * 2 ^ 54)]) .running 100825).quiescent runA = true
    ∧ (timed (runState runA [] [BitVec.ofNat 64 (0x89 * 2 ^ 54)]) .running 100824).cyclesSince (islandOf 0) runA.lastFire < 65536
    ∧ (((timed (runState runA [] [0#64]) .running 100825).part 0).pending.filter (fun x => decide (x.hook = .fault))).length < 64 := by
  decide +kernel

/-- A region at slot 0 of a space of 2 × 3, and one whose last dimension wraps; a load that is frozen. -/
theorem meets_RegionsAdvance :
    (∀ d ∈ [(2, 1), (3, 2)], d.2 < d.1) ∧ (∀ d ∈ [(2, 0), (3, 2)], d.2 < d.1)
    ∧ (let s := runState runA [{}] [0#64]
       ((s.rctx 0 0).any (fun x => s.running x.gid && decide (∀ u, u < x.image.count → (s.unitAt x u).out = [])
          && decide ((s.inputless x) = []) && x.image.gports.all (fun w => gpSlot w != 1) && decide (∀ u, u < x.image.count → bwSlot (x.image.bind u) ≠ 1))) = true
        ∧ (s.strand 0 0).state = .run ∧ ((s.strand 0 0).phase.map (fun p => (p.exhausted, p.ended, p.slot, p.blocked))) = some (false, false, 0, false)
        ∧ (carryDims ([2, 3].zip [0, 0])).2 < 2)
    ∧ (let s := runState runA [{}] []
       ((s.rctx 0 0).any (fun x => s.running x.gid && x.image.count == 1 && x.image.gports.all (fun w => gpSlot w != 0))) = true)
    ∧ (let s := runState { runA with freeze := some .debug } [{}] [0#64]
       (s.rctx 0 0).any (fun x => !s.running x.gid) = true) := by
  decide +kernel

/-- A graph that runs a block, with its units, its strand, the matrix core of tile 0 and its registers and memory as given. -/
def coreState (st : Strand) (c : MatrixCore) (ws : List DWord) : State :=
  (withGraph (regs 0#64 0#64) runA st (block ws)).modTile 0 (fun t => { t with core := c })

/-- A strand in whose phase context 1 is to take over. -/
def parting (u : UnitSt) : Strand := { strandRun [u] with shadow := .armed 1, partPending := true }

/-- An element. -/
def elem (w : Word) : Item := { words := [w], tag := 0#8 }

/-- A block of one matrix unit, by opcode, with BF16 operands. -/
def matrixWord (op : Nat) : DWord := BitVec.ofNat 64 (op * 2 ^ 54 + 2 ^ 44 + 1)

/-- What the second clause of ContextsSwitchAndTheMatrixCoreWorks asks of a core and of the rows at unit 0. -/
def multiplies (s : State) : Bool :=
  match s.rctx 0 0 with
  | some x =>
    let core := (s.tile 0).core
    let st := s.unitAt x 0
    let w := x.image.unit 0
    x.unitOf 0xC0 == some 0 && s.regionWorks x && (x.unitOf 0xC2).isNone && (x.unitOf 0xC3).isNone && !core.swapPending && core.peErr.isEmpty
      && core.group == 0 && decide ((core.bank (oddBlock core.block)).state = .ready) && decide (0 < ((s.strand 0 0).block x.key).length)
      && decide (st.round < (s.coreEnv x 0).limit) && !(x.image.connected 0).contains 2 && !(x.image.connected 0).contains 3
      && (st.ports.getD 2 []).isEmpty && (st.ports.getD 3 []).isEmpty && !bitOf (uImm w) 4 && !bitOf (uImm w) 5 && ((st.ports.getD 0 []).take 16).all Item.isElem && ((st.ports.getD 1 []).take 16).all Item.isElem
      && ((st.ports.getD 0 []).take 16).length == 16 && ((st.ports.getD 1 []).take 16).length == 16
  | none => false

/-- What the third clause asks, of a swap token staged or of a drain. -/
def drains (s : State) : Option (Bool × Option Nat) :=
  match s.rctx 0 0 with
  | some x =>
    let core := (s.tile 0).core
    if x.unitOf 0xC1 == some 0 && s.regionWorks x && (x.unitOf 0xC2).isNone && (x.unitOf 0xC3).isNone && (s.unitAt x 0).out.isEmpty then
      some ((match core.staged with
        | .inl _ :: _ => true
        | _ => false), core.drain.map (fun d => d.row))
    else none
  | none => none

/-- A region that the marker has passed, drained, one with an engine job outstanding, and one with a replacement on its way; rows of 16 elements at mxa; a swap token and
drains at row 0 and at row 62 at mxd. -/
theorem meets_ContextsSwitchAndTheMatrixCoreWorks :
    (let s := coreState (parting { reconf := true }) {} [0#64]
     (s.strand 0 0).shadow = .armed 1 ∧ (s.strand 0 0).partPending = true ∧ s.jobs = [] ∧ s.badContext 0 1 = false
      ∧ (s.rctx 0 0).any (fun x => s.running x.gid && (List.range x.image.count).all (fun u => (s.unitAt x u).reconf) && s.drained x) = true
      ∧ ((s.strand 0 0).phase).isSome = true)
    ∧ (({ coreState (parting {}) {} [0#64] with jobs := [⟨.copy 0, 7#32, 0, 0, none, [], false, none⟩] } : State).jobs.map (fun j => (j.tile, j.strand))) = [(0, 0)]
    ∧ runA.replays = [] ∧ ({ runA with replays := [⟨originA, 0, 0, 64, 0, [], none, 0⟩] } : Run).replays.map (fun y => (y.tile, y.strand)) = [(0, 0)]
    ∧ multiplies (coreState (strandRun [{ ports := [List.replicate 16 (elem 0x3F80_3F80#32), List.replicate 16 (elem 0x3F80_3F80#32), [], []]
                                          nextRound := [some 0, some 0, none, none] }]) { ping := { state := .ready } } [matrixWord 0xC0]) = true
    ∧ drains (coreState (strandRun [{}]) { staged := [.inl ⟨false, none, 0⟩] } [matrixWord 0xC1]) = some (true, none)
    ∧ drains (coreState (strandRun [{}]) { drain := some ⟨0, ⟨false, none, 0⟩⟩ } [matrixWord 0xC1]) = some (false, some 0)
    ∧ drains (coreState (strandRun [{}]) { drain := some ⟨62, ⟨false, none, 0⟩⟩ } [matrixWord 0xC1]) = some (false, some 62) := by
  decide +kernel

/-- A graph that runs one unit in the low page of mappedBy, with an AG word of a FIFO of four words. -/
def supplied (entry : Nat) (r : Run) (u : UnitSt) (w : DWord) : State :=
  withGraph (mappedBy entry 0#64 0#64) { r with graph := { graphA with ags := [BitVec.ofNat 256 (2 ^ 252 + 3 * 2 ^ 198)] } } (strandRun [u]) (block [w])

/-- The graph, whose unit 0 has a place, and a FIFO with one token. -/
def fifoRun : Run :=
  { runA with places := [⟨0, 0, 0, 64, 0, BitVec.ofNat 256 (2 ^ 252 + 3 * 2 ^ 198), 0, 0, [], [], [], false, []⟩], fifos := [⟨0, 0, 4, false, [elem 1#32], 1, 0, false, 0⟩] }

/-- The room of unit 0's gated input and the first item of what feeds it: its injection port, or its FIFO. -/
def roomAndHead (s : State) : Option (Nat × Option Nat × Option Nat) :=
  match s.rctx 0 0, s.run 7#32 with
  | some x, some r =>
    some (supplyRoom x.image 0 (s.unitAt x 0) 1,
      ((r.ports.find? (fun y => y.tile == 0 && y.strand == 0 && y.unit == 0)).bind (fun q => q.items.head?)).map (fun i => i.words.length),
      (((s.menv x 0).place s).bind (fun pl => if r.fifoUnit x.image 0 then (r.fifos.find? (isFifoOf pl)).bind (fun f => f.items.head?) else none)).map
        (fun i => i.words.length))
  | _, _ => none

/-- A load that works, whose unit 0 is no spare, is undisturbed and has a FIFO none of whose head's slots is bad. -/
def fifoSeen (s : State) : Bool :=
  match s.rctx 0 0, s.run 7#32 with
  | some x, some r => s.running x.gid && !x.image.spare 0 && (s.unitAt x 0).upset.isEmpty && (s.unitAt x 0).dropped.isEmpty
      && uPmode (x.image.unit 0) == 0 && r.fifos.all (fun f => !s.padBad f.mtile (s.fifoByte x.gid f 0) 4)
  | _, _ => false

/-- A source with a token waiting and a free slot, and without one. -/
theorem meets_SuppliersRepliesAndReplacements_sources :
    (uOp injectSource = 0x88 ∧ uImm injectSource % 4 = 0)
    ∧ roomAndHead (supplied 0xFF { runA with ports := [{ openPort with items := [elem 1#32] }] } {} injectSource) = some (4, some 1, none)
    ∧ roomAndHead (supplied 0xFF { runA with ports := [{ openPort with items := [elem 1#32] }] } { reply := List.replicate 4 (elem 1#32) } injectSource)
        = some (0, some 1, none)
    ∧ fifoSeen (supplied 0xFF fifoRun {}
        (BitVec.ofNat 64 (0xA0 * 2 ^ 54))) = true
    ∧ roomAndHead (supplied 0xFF fifoRun {}
        (BitVec.ofNat 64 (0xA0 * 2 ^ 54))) = some (4, none, some 1)
    ∧ roomAndHead (supplied 0xFF fifoRun
        { reply := List.replicate 4 (elem 1#32) } (BitVec.ofNat 64 (0xA0 * 2 ^ 54))) = some (0, none, some 1) := by
  decide +kernel

/-- A scratch request of one word. -/
def requestA : MemReq := ⟨true, 0, 1, none, 0#32, 0, 0, 1, false, false, none, none, 0⟩

/-- How the walk for a withheld translation of unit 0 ends. -/
def withheldWalk (s : State) : Option WalkEnd :=
  (s.rctx 0 0).map (fun x => (s.leafFor ((s.menv x 0).agent s) 0x1000 .read).1)

/-- A reply that is due and none; a withheld translation that gets its page, a page-fault request and a fault; a withheld store that
cannot issue, one that can, and no store. -/
theorem meets_SuppliersRepliesAndReplacements_replies :
    (let s := supplied 0xFF runA { requests := [requestA] } (BitVec.ofNat 64 (0xA0 * 2 ^ 54))
     (s.rctx 0 0).any (fun x => (s.unitAt x 0).requests == [requestA] && (s.menv x 0).mtile == none && !s.padBad 0 0 4
          && s.running x.gid && (s.unitAt x 0).upset.isEmpty && (s.unitAt x 0).dropped.isEmpty) = true
      ∧ (s.run 7#32).any (fun r => r.stores.isEmpty) = true)
    ∧ ((supplied 0xFF runA { withheld := some ⟨none, 0x1000, false, none⟩ } 0#64).rctx 0 0).any (fun x => (x.image.baseSource x.image.count 0).isNone) = true
    ∧ withheldWalk (supplied 0xFF runA { withheld := some ⟨none, 0x1000, false, none⟩ } 0#64) = some (.leaf ⟨0x10800, 0xFF#64, 0, 6⟩)
    ∧ withheldWalk (supplied 0xFE runA { withheld := some ⟨none, 0x1000, false, none⟩ } 0#64) = some (.fault .notPresent)
    ∧ withheldWalk (supplied 0x80FF runA { withheld := some ⟨none, 0x1000, false, none⟩ } 0#64) = some (.fault .bad)
    ∧ (let s := supplied 0xFF runA { storeWait := true, out := [(0, elem 0#32)] } 0#64
       (s.rctx 0 0).any (fun x => (s.unitAt x 0).storeWait && (s.fireOnce x 0).isNone) = true)
    ∧ (let s := supplied 0xFF runA { storeWait := true, nextRound := [some 0, none, none, none], ports := [[elem 0x3F80_0000#32], [], [], []] } (BitVec.ofNat 64 (0x06 * 2 ^ 54))
       (s.rctx 0 0).any (fun x => (s.unitAt x 0).storeWait && (s.fireOnce x 0).isSome) = true) := by
  decide +kernel

/-- Two units, the second a load that the first, an xlat, gives its base; what that xlat withholds, and how many of its inputs go first. -/
def behindXlat (w : Option Withheld) (behind : Nat) : Option (Option Nat × Bool × Bool) :=
  let s := withGraph (mappedBy 0xFF 0#64 0#64) { runA with graph := { graphA with ags := [BitVec.ofNat 256 (2 ^ 252 + 3 * 2 ^ 198)] } }
    (strandRun [{ withheld := w }, { withheld := some ⟨none, 0x1000, false, none⟩, behind := behind }])
    (block [BitVec.ofNat 64 (0xA5 * 2 ^ 54 + (2 ^ 13 + 2 ^ 6 + 1) * 2 ^ 28), BitVec.ofNat 64 (0xA0 * 2 ^ 54)])
  (s.rctx 0 0).map (fun x => (x.image.baseSource x.image.count 1, (s.unitAt x 0).withheld.isSome, decide ((s.unitAt x 0).core.count < (s.unitAt x 1).behind)))

/-- A load behind an xlat that withholds nothing, one that withholds a walk, and one with an input to take first; a prefetch that no page answers. -/
theorem meets_SuppliersRepliesAndReplacements_bases :
    behindXlat none 0 = some (some 0, false, false) ∧ behindXlat (some ⟨some 1#32, 0x2000, false, none⟩) 0 = some (some 0, true, false)
    ∧ behindXlat none 1 = some (some 0, false, true) ∧ uOp (BitVec.ofNat 64 (0xA6 * 2 ^ 54)) = 0xA6
    ∧ withheldWalk (supplied 0xFE runA { withheld := some ⟨none, 0x1000, false, none⟩ } (BitVec.ofNat 64 (0xA6 * 2 ^ 54))) = some (.fault .notPresent) := by
  decide +kernel

/-- A replacement for a token of unit 0, taken by unit 1. -/
def replayA : Replay := ⟨originA, 0, 0, 64, 1, [(0, elem 0#32)], none, 0⟩

/-- A token that is read again for the first time, its consumer behind its source; one that is bad again, and one that has been read again before. -/
theorem meets_SuppliersRepliesAndReplacements_replacements :
    (let s := withGraph (regs 0#64 0#64) { runA with replays := [replayA] } (strandRun [{}, {}])
       (block [BitVec.ofNat 64 (0xA0 * 2 ^ 54 + (2 ^ 13 + 2 ^ 6 + 1) * 2 ^ 28), BitVec.ofNat 64 (0x89 * 2 ^ 54)])
     (s.run 7#32).any (fun r => decide (r.replays[(0#16).toNat]? = some replayA) && !(r.round originA.round).wasRetried originA && r.works) = true
      ∧ (s.keyBlock (tileOf replayA.tile) (Fin.ofNat 8 replayA.strand) replayA.key).any (fun x => uOp (x.image.unit replayA.unit) != 0xA2
        && x.image.edges.any (fun e => e.src == originA.unit && e.dst == replayA.unit)) = true
      ∧ originA.pass = none ∧ originA.slot = none ∧ originA.scratch = true ∧ s.padBad originA.mtile originA.address (4 * originA.words) = false
      ∧ (s.modMTile 0 (fun m => { m with badLines := [0] })).padBad originA.mtile originA.address (4 * originA.words) = true)
    ∧ (let r := { runA with replays := [replayA], rounds := [{ number := 0, timestamp := none, retried := [(0, 0, 0, originA.uid, 0#32)] }] }
       (r.round originA.round).wasRetried originA = true) := by
  decide +kernel

/-- A state whose page at address 0 of context 1, of 4 KiB, is being moved to 0x40_0000. -/
def movingPage (kind : MoveKind) : State :=
  let s := (State.reset.modPart 0 (fun p => { p with roots := [(1#16, 0x10000)] })).physWrite false 0x10000 (leBytes 8 0x108001)
  let s := ((s.physWrite false 0x10800 (leBytes 8 0x110001)).physWrite false 0x11000 (leBytes 8 0x118001)).physWrite false 0x11800 (leBytes 8 0x120001)
  { s.physWrite false 0x12000 (leBytes 8 (0x300 * 2 ^ 16 + 0xFF)) with moves := [⟨0, 1#16, 0, 0, 0x30_0000, 0x40_0000, kind, none⟩] }

theorem reset_decodable {s : State} (h : s.tags = []) : s.Decodable := by
  refine ⟨fun b => ?_, by simp [h]⟩
  simp only [State.block, State.tag, bdcLoad, h, Sparse.get]
  rfl

/-- The last nanosecond of an epoch and its end; a page of 4 KiB that moves, for each kind of move. -/
theorem meets_PagesMoveAndEnginesWork_pages :
    (({ State.reset with ns := 999999 } : State).ns / 1000000 ≤ State.reset.epochs[0] ∧ State.reset.epochs[0] < ({ State.reset with ns := 1000000 } : State).ns / 1000000)
    ∧ (∀ k ∈ [MoveKind.collapse, .replicate, .migrate], (movingPage k).moves[(0#16).toNat]? = some ⟨0, 1#16, 0, 0, 0x30_0000, 0x40_0000, k, none⟩
        ∧ (movingPage k).mem.wf = true ∧ (movingPage k).tags = []
        ∧ 0x30_0000 % pageBytes 0 = 0 ∧ 0x40_0000 % pageBytes 0 = 0 ∧ 0x40_0000 + pageBytes 0 ≤ 2 ^ 39
        ∧ (movingPage k).walk ⟨(movingPage k).homeDie (partOf 0), partOf 0, 1#16, false⟩ 0 = .leaf ⟨0x12000, 0x30000FF#64, 0x30_0000, 0⟩
        ∧ (0x30000FF#64).getLsbD 8 = false ∧ 0x12000 % 8 = 0 ∧ 0x12000 + 8 ≤ 0x30_0000 ∧ 0x12000 + 8 ≤ 0x40_0000) := by
  decide +kernel

theorem meets_PagesMoveAndEnginesWork_decodable : (movingPage .migrate).Decodable := reset_decodable (by decide +kernel)

/-- A job of the copy card of carded, on the engine of memory tile 0. -/
def jobA (started : Bool) : Job :=
  ⟨.copy 0, 7#32, 0, 0, none, leBytes 8 1 ++ leBytes 8 (2 ^ 63 + 0x200300) ++ leBytes 8 (2 ^ 63 + 0x200100) ++ leBytes 8 (2 ^ 63 + 0x200200) ++ leBytes 32 16, started, none⟩

/-- A queued job; a started one, whose ranges lie in the window; the record just behind the bytes that are written. -/
theorem meets_PagesMoveAndEnginesWork_engines :
    (let s := carded 0 [jobA false]
     s.jobs = [] ++ jobA false :: [] ∧ (∀ y ∈ s.jobs, y.engine = .copy 0 → y.started = false) ∧ s.jobRuns (jobA false) = true)
    ∧ (let s := carded 0 [jobA true]
       (∃ y ∈ s.jobs, y.engine = .copy 0 ∧ y.started = true)
        ∧ s.jobs.find? (fun y => decide (y.engine = .copy 0) && y.started && s.jobRuns y) = some (jobA true)
        ∧ cardNat (jobA true).card 16 8 = 2 ^ 63 + 0x200100 ∧ cardNat (jobA true).card 24 8 = 2 ^ 63 + 0x200200
        ∧ cardNat (jobA true).card 8 8 = 2 ^ 63 + 0x200300 ∧ cardNat (jobA true).card 32 4 = 16
        ∧ (∀ i, i < 16 → s.scratchPlace 0 (BitVec.ofNat 64 (0x200100 + i)) 1 = some (0, 0x100 + i) ∧ s.padBad 0 (0x100 + i) 1 = false
          ∧ s.scratchPlace 0 (BitVec.ofNat 64 (0x200200 + i)) 1 = some (0, 0x200 + i))
        ∧ (∀ i, i < 16 → s.scratchPlace 0 (BitVec.ofNat 64 (0x200300 + i)) 1 = some (0, 0x300 + i))
        ∧ (s.mtile 0).bytes.wf = true) := by
  decide +kernel

/-! #### Protection classes -/

/-- Tile 0 in a graph, with the errors that its ALUs and a reply's value carry. -/
def upset (alu late : Vector DWord 3) : State :=
  { (mappedBy 0xFF 0#64 0x1000#64).modMe (fun q => { q with aluErr := alu, lateErr := late }) with runs := [runA] }

/-- An undisturbed ALU of a single class beside disturbed ones; two that differ, three that do, one of three; a reply of which ALU 1 receives
something else; the graph of the tile. -/
theorem meets_ProtectionClassesCompareTheAlus :
    (encodeSeq (.add 0#2 3#5 1#5 2#5 0#2) = some 0b00_000000_00011_00001_00010_00_0000000#32
      ∧ (0b00_000000_00011_00001_00010_00_0000000#32).extractLsb' 30 2 = 0#2
      ∧ (encodeSeq (.add 1#2 3#5 1#5 2#5 0#2)).map (fun w => w.extractLsb' 30 2) = some 1#2
      ∧ (encodeSeq (.add 2#2 3#5 1#5 2#5 0#2)).map (fun w => w.extractLsb' 30 2) = some 2#2)
    ∧ ((upset #v[0#64, 1#64, 2#64] #v[0#64, 0#64, 0#64]).me.aluErr[0] = 0#64 ∧ (upset #v[0#64, 0#64, 2#64] #v[0#64, 0#64, 0#64]).me.aluErr[1] = 0#64
      ∧ (upset #v[0#64, 1#64, 2#64] #v[0#64, 0#64, 0#64]).me.aluErr[0] ≠ (upset #v[0#64, 1#64, 2#64] #v[0#64, 0#64, 0#64]).me.aluErr[1])
    ∧ (let s := upset #v[0#64, 0#64, 0#64] #v[0#64, 1#64, 0#64]
       (s.me.rd 2#5).toNat % 8 = 0 ∧ s.noPath .global (s.me.rd 2#5) .read = false ∧ (match s.seqLoad .global (s.me.rd 2#5) 8 with
        | (.ok _, t) => decide (t.me.lateErr[0] ≠ t.me.lateErr[1])
        | _ => false) = true)
    ∧ (let s := upset #v[0#64, 1#64, 2#64] #v[0#64, 0#64, 0#64]
       s.runOfTile s.cur.val = some runA ∧ s.run runA.gid = some runA ∧ runA.faulted = false
        ∧ ((s.part (partOf runA.part)).pending.filter (fun x => decide (x.hook = .fault))).length < 64) := by
  decide +kernel

/-- A dual instruction whose ALUs differ writes nothing and kills its graph; a triple one outvotes ALU 2 and notifies (R221, R370). -/
theorem test_classes :
    nextIs (exec (.add 1#2 3#5 2#5 2#5 1#2) (upset #v[0#64, 1#64, 0#64] #v[0#64, 0#64, 0#64])) (fun t =>
        t.me.rd 3#5 == 0#64 && t.me.held.isEmpty && t.runs.any (fun r => decide (r.freeze = some .kill) && r.suspect == 0x0040_0000#32)) = true
    ∧ nextIs (exec (.add 2#2 3#5 2#5 2#5 1#2) (upset #v[0#64, 0#64, 4#64] #v[0#64, 0#64, 0#64])) (fun t =>
        t.me.rd 3#5 == 0x2000#64 && t.me.held.map (fun x => x.1) == [7] && t.runs.all (fun r => decide (r.freeze = none))) = true := by
  decide +kernel

/-! #### The almanac, queues, hooks -/

/-- An invocation of partition 0, at word 0, that delivers a trigger. -/
def invA (hook : Hook) (loops : List (Nat × Nat × Nat)) (writes : List (Nat × Word)) (cycles : Nat) : Invocation :=
  ⟨⟨hook, 1, 0#32, none⟩, Snapshot.blank, Vector.replicate 8 0#32, 0, loops, writes, cycles⟩

/-- A state in which it runs. -/
def invoking (v : Invocation) : State := State.reset.modPart 0 (fun p => { p with inv := some v })

/-- With a loop open and with none. -/
theorem meets_AlmanacArithmeticAndControlFlow :
    (invoking (invA .dispatch [(0, 3, 1)] [] 0)).invocation = some (invA .dispatch [(0, 3, 1)] [] 0)
    ∧ (invA .dispatch [(0, 3, 1)] [] 0).loops = (0, 3, 1) :: [] ∧ (invoking (invA .dispatch [] [] 0)).invocation = some (invA .dispatch [] [] 0) := by
  decide +kernel

theorem meets_AlmanacViewsReadTheSnapshot :
    (invoking (invA .dispatch [] [] 0)).invocation = some (invA .dispatch [] [] 0) ∧ (6#4).toNat ≤ 6 ∧ (7#4).toNat ≤ 7 := by decide +kernel

/-- An on_dispatch invocation while a completion record waits and while none does, an on_preempt invocation, and a decision of 0. -/
theorem meets_AlmanacEndAppliesItsWritesAndDecision :
    (invoking (invA .dispatch [] [(2, 5#32)] 0)).invocation = some (invA .dispatch [] [(2, 5#32)] 0)
    ∧ (((invoking (invA .dispatch [] [] 0)).modPart 0 (fun p => { p with waiting := [[0#8]] })).part 0).waiting ≠ []
    ∧ ((invoking (invA .dispatch [] [] 0)).part 0).waiting = [] ∧ (invA .preempt [] [] 0).trigger.hook ≠ .dispatch
    ∧ (invA .dispatch [] [] 0).regs[7] = 0#32 ∧ (invA .dispatch [] [] 0).trigger.fault = none := by
  decide +kernel

/-- Queue 0 of partition 0. -/
def queued (q : Queue) : State := State.reset.modQueue 0 0 (fun _ => q)

/-- Tails at 1, 2^31 - 1, 0 and 2^31 ahead; a device-owned queue; a disabled and an enabled one; a valid configuration and one whose
base is no multiple of its size; a partition that is not formed. -/
theorem meets_QueueRegistersTakeTheirWrites :
    ((queued { cfg := 0x40#64 }).part 0).formed = true ∧ ((queued { cfg := 0x40#64 }).part 1).formed = false
    ∧ (let x := ((queued { cfg := 0x40#64, tail := 0xFFFF_FFFF#32 }).part 0).queues[0]
       x.deviceOwned = false ∧ x.enabled = true ∧ 0 < (0#32 - x.tail).toNat ∧ (0#32 - x.tail).toNat < 2 ^ 31
        ∧ (0x7FFF_FFFE#32 - x.tail).toNat = 2 ^ 31 - 1 ∧ 2 ^ 31 ≤ (0x7FFF_FFFF#32 - x.tail).toNat)
    ∧ (let x := ((queued { cfg := 0x60#64 }).part 0).queues[0]
       x.deviceOwned = true)
    ∧ (let x := ((queued { base := 0x40#64 }).part 0).queues[0]
       x.enabled = false ∧ (0x40#64).getLsbD 6 = true ∧ queueCfgOk x.base 0x40#64 = true ∧ (0x41#64).getLsbD 6 = true ∧ queueCfgOk x.base 0x41#64 = false) := by
  decide +kernel

/-- A queue of one record at 0x3000, in context 1, with a demand and flags, whose tail is one ahead. -/
def headed (demand flags seq : Nat) (ns : Nat) : State :=
  { ((mappedBy 0xFF 0#64 0#64).physWrite false 0x3000 (leBytes 4 seq ++ [0#8] ++ leBytes 1 flags ++ leBytes 2 demand)).modQueue 0 0
      (fun q => { q with base := 0x3000#64, cfg := 0x140#64, tail := 1#32 }) with ns := ns }

/-- A head as HeadsBecomeEligible reads it: its sequence number is the queue's head, its flags are good, its demand, and whether both its
prerequisites are met. -/
def headSeen (s : State) : Option (Bool × Bool × Nat × Bool) :=
  let x := (s.part 0).queues[0]
  let g := s.unitAgent 0 x.ctx
  if (s.part 0).formed && x.headWaits then
    match s.virtRead g x.headAddr 64 .read with
    | (.ok bs, t) =>
      let r := launchRec bs
      some (r.seq == x.head, field r.flags 7 2 == 0, r.demand.toNat, match t.prereq g (r.flags.getLsbD 0) r.ev0 r.th0 with
        | (.met, u) => (match u.prereq g (r.flags.getLsbD 1) r.ev1 r.th1 with
          | (.met, _) => true
          | _ => false)
        | _ => false)
    | _ => none
  else none

/-- Demands of 1 and 192, 0 and 193; reserved flags; the re-read at a multiple of 1,024 ns; a prerequisite that is met. -/
theorem meets_HeadsBecomeEligible :
    [headed 1 0 0 1024, headed 192 0 0 1, headed 0 0 0 0, headed 193 0 0 0, headed 1 4 0 0, headed 1 1 0 0].map headSeen
      = [some (true, true, 1, true), some (true, true, 192, true), some (true, true, 0, true), some (true, true, 193, true), some (true, false, 1, true),
        some (true, true, 1, true)]
      ∧ (headed 1 0 0 1024).ns % 1024 = 0 ∧ ((headed 0 0 0 0).part 0).waiting = [] := by
  decide +kernel

/-- A line that one head watches. -/
theorem meets_HeadsBecomeEligible_line :
    ∀ y : Fin 16, ∀ z : Fin 64, (((headed 1 0 0 0).part y).formed = true ∧ (headed 1 0 0 0).watchesLine y z ((0x3010#52).toNat / 64) = true) ↔ (y = 0 ∧ z = 0) := by
  decide +kernel

/-- A partition with pending triggers. -/
def pendingAt (ts : List Trigger) : State := State.reset.modPart 0 (fun p => { p with pending := ts })

/-- A dispatch trigger that waits, and none; a preempt trigger that is the same, and others; a graph's quantum at 2 ms and a nanosecond
before; an eligible head whose deadline, less the margin, is now, and one dispatch-time unit later. -/
theorem meets_TriggersCoalesceAndFireInTime :
    ((∃ y ∈ ((pendingAt [⟨.dispatch, 1, 0#32, none⟩]).part 0).pending, y.hook = .dispatch) ∧ (∀ y ∈ (State.reset.part 0).pending, y.hook ≠ .dispatch)
      ∧ (∃ y ∈ ((pendingAt [⟨.preempt, 0x12, 3#32, none⟩]).part 0).pending, y.hook = .preempt ∧ y.code = 0x12 ∧ y.subject = 3#32)
      ∧ (∀ y ∈ ((pendingAt [⟨.preempt, 0x12, 3#32, none⟩]).part 0).pending, ¬ (y.hook = .preempt ∧ y.code = 0x12 ∧ y.subject = 4#32)))
    ∧ (let s : State := { State.reset with runs := [runA], ns := 2000000 }
       s.runs.find? (fun x => x.part == 0 && x.slot == 0) = some runA ∧ runA.freeze = none ∧ runA.quantumNs + 2000000 ≤ s.ns
        ∧ ({ s with ns := 1999999 } : State).ns < runA.quantumNs + 2000000)
    ∧ (let s : State := { State.reset.modQueue 0 0 (fun q => { q with eligible := some ({ blankLaunch with deadline := 5#32 }, 0) }) with ns := 5120 }
       ((s.part 0).queues[0]).eligible = some ({ blankLaunch with deadline := 5#32 }, 0) ∧ ((s.part 0).queues[0]).deadlineSent = false
        ∧ (BitVec.ofNat 32 (s.ns / 1024) - (5#32 - (s.part 0).margin)).toNat < 2 ^ 31
        ∧ 2 ^ 31 ≤ (BitVec.ofNat 32 (4096 / 1024) - (5#32 - (s.part 0).margin)).toNat) := by
  decide +kernel

/-- A pending trigger with an almanac loaded and with none; two partitions of one home die, of which the first has been served last; an invocation at 4,096 cycles and at 4,095; a swap
that waits for an invocation and one that does not. -/
theorem meets_InvocationsStartOverrunAndSwap :
    (let s := (pendingAt [⟨.dispatch, 1, 0#32, none⟩]).modPart 0 (fun p => { p with almanac := some ⟨0, 0, 0, [0#16]⟩ })
     (s.part 0).formed = true ∧ (s.part 0).inv = none ∧ (s.part 0).swapRequest = none ∧ s.nextTrigger 0 = some ⟨.dispatch, 1, 0#32, none⟩
      ∧ s.faultReady ⟨.dispatch, 1, 0#32, none⟩ = true ∧ (s.part 0).stickyFallback = false ∧ (s.part 0).almanac = some ⟨0, 0, 0, [0#16]⟩ ∧ s.servesNext 0 = true)
    ∧ ((pendingAt [⟨.dispatch, 1, 0#32, none⟩]).nextTrigger 0 = some ⟨.dispatch, 1, 0#32, none⟩ ∧ ((pendingAt [⟨.dispatch, 1, 0#32, none⟩]).part 0).almanac = none)
    ∧ (let s := (pendingAt [⟨.dispatch, 1, 0#32, none⟩]).modPart 4 (fun p => { p with formed := true, pending := [⟨.dispatch, 1, 0#32, none⟩] })
       ({ s with served := s.served.set 0 0 } : State).servesNext 0 = false ∧ ({ s with served := s.served.set 0 0 } : State).servesNext 4 = true)
    ∧ ((invoking (invA .dispatch [] [] 4096)).part 0).inv = some (invA .dispatch [] [] 4096) ∧ 4096 ≤ (invA .dispatch [] [] 4096).cycles
    ∧ (invA .dispatch [] [] 4095).cycles < 4096
    ∧ ((State.reset.modPart 0 (fun p => { p with swapRequest := some true })).part 0).swapRequest = some true
    ∧ ((State.reset.modPart 0 (fun p => { p with swapRequest := some true })).part 0).inv = none := by
  decide +kernel

/-! #### The sequencer's events -/

/-- Tile 0 running, with a stalled instruction, in a graph or none, at a device time. -/
def stalled (i : Instr) (k : StallKind) (r : List Run) (ns : Nat) : State :=
  { State.reset.modSeq 0 (fun q => { q with mode := .running, stall := some ⟨i, k, 0⟩ }) with runs := r, ns := ns }

/-- A store that waits for a page, a cfg.wait that waits for a switch; an engine instruction with the card that it has read, and a launch with its
record; an atomic whose round is the oldest, with a trap held and with none, and one whose round is not; a sleeping wait, and one on an uncached page at 1,024 cycles, 1,576 ns at 650 MHz, and before. -/
theorem meets_StalledInstructionsExecuteAgain :
    (let s := stalled (.st 0#2 1#5 2#5 3#2 0#2 0#9) .retry [] 0
     (s.seq 0).mode = .running ∧ (s.seq 0).sleeping = none ∧ s.tileFrozen 0 = false ∧ (s.seq 0).stall = some ⟨.st 0#2 1#5 2#5 3#2 0#2 0#9, .retry, 0⟩
      ∧ releasable (.st 0#2 1#5 2#5 3#2 0#2 0#9) = true ∧ releasable (.cfgWait 0#2 0#3) = true)
    ∧ (let card := leBytes 8 1 ++ leBytes 8 (2 ^ 63 + 0x200300) ++ leBytes 8 (2 ^ 63 + 0x200100) ++ leBytes 8 (2 ^ 63 + 0x200200) ++ leBytes 32 16
       let s := (carded 0 []).modSeq 0 (fun q => { q with mode := .running, stall := some ⟨.engCopy 0#2 1#5 0#3, .kept 0 card, 0⟩ })
       (s.seq 0).stall = some ⟨.engCopy 0#2 1#5 0#3, .kept 0 card, 0⟩ ∧ s.tileFrozen 0 = false
        ∧ s.chooseEngine (s.gidOfTile 0) 0 0 0 card = some (.copy 0) ∧ (s.runOfTile 0).map (fun r => r.gid) = some 7#32)
    ∧ (let s := stalled (.launch 0#2 1#5 2#5) (.kept 3 (List.replicate 64 0#8)) [runA] 0
       (s.seq 0).stall = some ⟨.launch 0#2 1#5 2#5, .kept 3 (List.replicate 64 0#8), 0⟩ ∧ s.runOfTile 0 = some runA ∧ runA.launches = [])
    ∧ (awaitsRound (.evAdd 0#2 1#5 2#5 0#2) = true
      ∧ (((stalled (.evAdd 0#2 1#5 2#5 0#2) .round [runA] 0).seq 0).sv = false ∧ ((stalled (.evAdd 0#2 1#5 2#5 0#2) .round [runA] 0).seq 0).held = [])
      ∧ (((stalled (.evAdd 0#2 1#5 2#5 0#2) .round [runA] 0).modSeq 0 (fun q => { q with held := [(9, 1#64)] })).seq 0).held ≠ []
      ∧ ({ stalled (.evAdd 0#2 1#5 2#5 0#2) .round [runA] 0 with cur := 0 } : State).roundReady = true
      ∧ ({ stalled (.evAdd 0#2 1#5 2#5 0#2) .round [{ runA with ports := [{ openPort with round := 1 }] }] 0 with cur := 0 } : State).roundReady = false)
    ∧ (awaitsLine (.waitAddr 0#2 1#5 2#5 0#2 0#2 0#2 0#2) = true
      ∧ 0 + 1024 ≤ (stalled (.waitAddr 0#2 1#5 2#5 0#2 0#2 0#2 0#2) (.sleep 4 true) [] 1576).tileCycles 0
      ∧ (stalled (.waitAddr 0#2 1#5 2#5 0#2 0#2 0#2 0#2) (.sleep 4 true) [] 1575).tileCycles 0 < 0 + 1024) := by
  decide +kernel

/-- Tile 0 running at a privilege, with held traps, a stall, and fetch shootdowns, at a device time. -/
def watching (sv : Bool) (held : List (Nat × DWord)) (i : Instr) (shoots : List (Shoot × Nat)) (ns : Nat) : State :=
  { State.reset.modSeq 0 (fun q => { q with
      mode := .running, status := if sv then 1#64 else 0#64, held := held, stall := some ⟨i, .retry, 0⟩, shoots := shoots }) with runs := [runA], ns := ns }

/-- Held traps at user privilege, and at supervisor privilege; a watched instruction at 2^28 cycles and before, one that is not watched; 2^20
cycles at supervisor privilege and fewer; a fetch shootdown at 65,536 cycles and before. -/
theorem meets_AsynchronousTrapsAndWatchdogs :
    (let s := watching false [(9, 1#64), (7, 2#64)] (.rndEnd 0#2 1#5 2#5) [] 0
     s.executes 0 = true ∧ (s.seq 0).sv = false ∧ (7, 2#64) ∈ (s.seq 0).held ∧ (∀ x ∈ (s.seq 0).held, 7 < x.1 ∨ x = (7, 2#64)))
    ∧ ((watching true [(9, 1#64)] (.rndEnd 0#2 1#5 2#5) [] 0).seq 0).sv = true
    ∧ (watched (.rndEnd 0#2 1#5 2#5) = true ∧ watched (.cfgWait 0#2 0#3) = false
      ∧ 0 + 2 ^ 28 ≤ (watching false [] (.rndEnd 0#2 1#5 2#5) [] 412977625).tileCycles 0
      ∧ (watching false [] (.rndEnd 0#2 1#5 2#5) [] 412977624).tileCycles 0 < 0 + 2 ^ 28)
    ∧ (0 + 2 ^ 20 ≤ (watching true [] (.rndEnd 0#2 1#5 2#5) [] 1613194).tileCycles 0 ∧ (watching true [] (.rndEnd 0#2 1#5 2#5) [] 1613193).tileCycles 0 < 0 + 2 ^ 20
      ∧ (watching true [] (.rndEnd 0#2 1#5 2#5) [] 1613194).runOfTile 0 = some runA)
    ∧ (let s (ns : Nat) := watching false [] (.rndEnd 0#2 1#5 2#5) [(⟨1#32, 1, 0, 1#16, 0, 0⟩, 0)] ns
       (∃ x ∈ ((s 100825).seq 0).shoots, x.2 + 65536 ≤ (s 100825).tileCycles 0) ∧ (∀ x ∈ ((s 100824).seq 0).shoots, (s 100824).tileCycles 0 < x.2 + 65536)) := by
  decide +kernel

/-- A command waiting. -/
def shootA (kind : Nat) : Shoot := ⟨1#32, kind, 0, 1#16, 0x1000, 0⟩

/-- Fifteen and sixteen commands waiting; a translation shootdown, a fetch shootdown that a sequencer still waits for, and one that none does. -/
theorem meets_ShootdownsQueueAndComplete :
    (let s (n : Nat) := State.reset.modPart 0 (fun p => { p with shoots := List.replicate n (shootA 0) })
     ((s 15).part 0).formed = true ∧ ((s 15).part 0).shoots.length < 16 ∧ 16 ≤ ((s 16).part 0).shoots.length)
    ∧ (let s (k : Nat) := (State.reset.modPart 0 (fun p => { p with shoots := [shootA k] })).modSeq 0 (fun q => { q with shoots := [(shootA 1, 0)] })
       ((s 0).part 0).shoots = shootA 0 :: [] ∧ (shootA 0).kind = 0 ∧ (shootA 1).kind ≠ 0
        ∧ (∃ t : Fin 192, ∃ w ∈ ((s 1).seq t).shoots, w.1 = shootA 1) ∧ (∀ t : Fin 192, ∀ w ∈ ((s 2).seq t).shoots, w.1 ≠ shootA 2)) := by
  decide +kernel

/-! #### The host interface, management, the platform -/

/-- Each width and place that PSTATUS and PQERR admit, and one that they do not; a partition that is formed. -/
theorem meets_StatusRegistersReadAndClear :
    ((4#4 = 4#4 ∧ (4#3 = 0#3 ∨ 4#3 = 4#3)) ∨ (4#4 = 8#4 ∧ 4#3 = 0#3)) ∧ ((8#4 = 4#4 ∧ (0#3 = 0#3 ∨ 0#3 = 4#3)) ∨ (8#4 = 8#4 ∧ 0#3 = 0#3))
      ∧ ¬ ((8#4 = 4#4 ∧ (4#3 = 0#3 ∨ 4#3 = 4#3)) ∨ (8#4 = 8#4 ∧ 4#3 = 0#3)) ∧ (State.reset.part 0).formed = true
      ∧ State.reset.enumerated = true ∧ ({ State.reset with fwfail := State.reset.fwfail.set 0 1#4 } : State).enumerated = false := by decide +kernel

/-- The completion ring of partition 0, and records that wait, at a device time. -/
def ringed (r : Ring) (waits : List (List Byte)) (ns : Nat) : State :=
  { State.reset.modPart 0 (fun p => { p with cr := r, waiting := waits }) with ns := ns }

/-- Heads at the tail and one beyond it; a disabled ring and an enabled one; a message that is owed at 1,000 ns and before; a record that
waits while the ring has room, and while it has none. -/
theorem meets_RingsFollowTheirRegisters :
    (let r := ((ringed { tail := 3#32, head := 1#32 } [] 0).part 0).ring .completion
     ((ringed { tail := 3#32, head := 1#32 } [] 0).part 0).formed = true ∧ (r.tail - r.head).toNat < (4#32 - r.head).toNat
      ∧ (3#32 - r.head).toNat ≤ (r.tail - r.head).toNat ∧ ((ringed { tail := 3#32, head := 1#32 } [] 0).part 0).faults = [] ∧ r.enabled = false
      ∧ (0x24#64).getLsbD 5 = true)
    ∧ (let r := ((ringed { enabled := true, sinceMsg := 1 } [] 1000).part 0).ring .completion
       r.enabled = true ∧ 0 < r.sinceMsg ∧ r.lastMsg + 1000 ≤ (ringed { enabled := true, sinceMsg := 1 } [] 1000).ns
        ∧ (ringed { enabled := true, sinceMsg := 1 } [] 999).ns < r.lastMsg + 1000)
    ∧ (let s := ringed { enabled := true, cfg := 4#64, tail := 15#32 } [[0#8]] 0
       (s.part 0).waiting = [[0#8]] ∧ (s.part 0).cr.enabled = true ∧ (s.part 0).cr.full = false ∧ (s.part 0).heldTiles = [] ∧ (s.part 0).deferred = none ∧ (s.part 0).deferredFallback = false)
    ∧ ((ringed { enabled := true, cfg := 4#64, tail := 16#32 } [[0#8]] 0).part 0).cr.full = true := by
  decide +kernel

/-- Reserved bits, a tag that is not unresolved, and one that is; a graph whose 100 µs have passed, and one whose have not. -/
theorem meets_PageFaultResolutionsEndTheirRequest :
    (let s := State.reset.modPart 0 (fun p => { p with faults := [faultA] })
     (s.part 0).formed = true ∧ field 0x2_0000_0005#64 63 33 ≠ 0 ∧ field 0x1_0000_0005#64 63 33 = 0 ∧ (∀ f ∈ (s.part 0).faults, f.tag ≠ 6#32)
      ∧ (s.part 0).faults.find? (fun x => decide (x.tag = (0x1_0000_0005#64).setWidth 32)) = some faultA)
    ∧ (waiting runA 100999).run faultA.graph = some runA ∧ (waiting runA 100999).faultLate runA = false
    ∧ (waiting runA 101000).faultLate runA = true ∧ runA.freeze = none ∧ (waiting runA 101000).saveFits runA = true := by
  decide +kernel

/-- A device that has enumerated and one that has not; the last bytes of HBM; bytes that are bad and bytes that are not; the first and the last line of the HDM range, and the lines on either
side of it. -/
theorem meets_OutsideMemoryAccesses :
    (State.reset.enumerated = true ∧ ({ State.reset with fwfail := State.reset.fwfail.set 0 1#4 } : State).enumerated = false ∧ 1 ≤ (8#4).toNat ∧ (8#4).toNat ≤ 8 ∧ (0x7F_FFFF_FFF8#39).toNat + (8#4).toNat ≤ 2 ^ 39 ∧ State.reset.physBad 0x7F_FFFF_FFF8 8 = false
      ∧ ({ State.reset with ecc := [0] } : State).physBad 0 1 = true)
    ∧ (let s : State := { State.reset with hdmBase := 0x1000, hdmSize := 0x1000 }
       (s.hdmBase ≤ (0x1000#52).toNat / 64 * 64 ∧ (0x1FFF#52).toNat / 64 * 64 + 64 ≤ s.hdmBase + s.hdmSize ∧ (0x1FFF#52).toNat / 64 * 64 + 64 ≤ 2 ^ 39
        ∧ s.physBad ((0x1FFF#52).toNat / 64 * 64) 64 = false)
        ∧ (0xFFF#52).toNat / 64 * 64 < s.hdmBase ∧ s.hdmBase + s.hdmSize < (0x2000#52).toNat / 64 * 64 + 64) := by
  decide +kernel

/-- A device with argument registers. -/
def argued (a0 a1 a2 : DWord) : State := { State.reset with marg := ((State.reset.marg.set 0 a0).set 1 a1).set 2 a2 }

/-- An image of one end at host address 0, and one of no words; a staged almanac and none; a partition that is held and one that is not, formed
or not; the erratum of the part and another; save areas that are aligned or not, that end at the end of HBM and beyond it, with a save in
progress and without. -/
theorem meets_PartitionCommandsTakeEffectOrRefuse :
    (State.reset.enumerated = true ∧ State.reset.busy = none ∧ State.reset.lifecycle ≠ 3#2 ∧ ((argued 0#64 0#64 0#64).marg[0]).toNat = (0 : Fin 16).val ∧ ((argued 1#64 0#64 0#64).part 1).formed = false
      ∧ (State.reset.part 0).formed = true)
    ∧ (let s := (argued 0#64 0#64 18#64).physWrite false (2 ^ 51) [1#8]
       s.marg[1].toNat + min s.marg[2].toNat 2064 ≤ 2 ^ 51 ∧ verifyAlmanac (s.physBytes (2 ^ 51 + s.marg[1].toNat) (min s.marg[2].toNat 2064)) = 0
        ∧ verifyAlmanac (State.reset.physBytes (2 ^ 51) 18) ≠ 0)
    ∧ ((State.reset.part 0).shadow = none ∧ ((State.reset.modPart 0 (fun p => { p with shadow := some ⟨0, 0, 0, [0#16]⟩ })).part 0).shadow ≠ none
      ∧ (State.reset.part 0).held = false ∧ ((State.reset.modPart 0 (fun p => { p with held := true })).part 0).held = true)
    ∧ ((0x18#64 : DWord).setWidth 16 ≠ partErratum ∧ (0x1_0017#64 : DWord).setWidth 16 = partErratum)
    ∧ ((0x800#64 : DWord).toNat % 4096 ≠ 0 ∧ 2 ^ 39 < (0x7F_FFFF_F000#64 : DWord).toNat + (0x1001#64 : DWord).toNat
      ∧ (0x7F_FFFF_F000#64 : DWord).toNat % 4096 = 0 ∧ (0x7F_FFFF_F000#64 : DWord).toNat + (0x1000#64 : DWord).toNat ≤ 2 ^ 39
      ∧ State.reset.saving 0 = false ∧ ({ State.reset with runs := [{ runA with freeze := some .preempt }] } : State).saving 0 = true) := by
  decide +kernel

/-- Arguments of more than 32 bits and identifiers that name no unit; a unit that a graph holds and one that none holds; a graph that runs and
one that does not; partition 16; pairs in use and not, for partition 0 and partition 1 in harebell mode and out of it; caps of 1,199, 1,200,
3,000 and 3,001. -/
theorem meets_DeviceCommandsTakeEffectOrRefuse :
    (2 ^ 32 ≤ (0x1_0000_0000#64 : DWord).toNat ∧ unitIdOk 0x0080_0000#32 = false ∧ unitIdOk 0x0040_0000#32 = true
      ∧ ({ State.reset with runs := [runA] } : State).unitHeld 0x0040_0000#32 = true ∧ State.reset.unitHeld 0x0040_0000#32 = false
      ∧ State.reset.run 7#32 = none ∧ ({ State.reset with runs := [runA] } : State).run 7#32 ≠ none)
    ∧ (16 ≤ (16#64 : DWord).toNat
      ∧ (let s := State.reset.modPart 0 (fun p => { p with pairs := p.pairs.set 0 1#48 })
         (∃ q : Fin 16, q ≠ 1 ∧ (s.part q).pairs[(0 : Fin 4)] &&& 3#48 ≠ 0#48) ∧ (¬ ∃ q : Fin 16, q ≠ 1 ∧ (s.part q).pairs[(0 : Fin 4)] &&& 2#48 ≠ 0#48)
          ∧ (∀ r ∈ s.runs, r.part ≠ 1) ∧ s.harebell = true ∧ ({ s with harebell := false } : State).harebell = false
          ∧ ∃ r ∈ ({ s with runs := [runA] } : State).runs, r.part = 0))
    ∧ ((1199#64 : DWord).toNat < 1200 ∧ 3000 < (3001#64 : DWord).toNat ∧ 1200 ≤ (1200#64 : DWord).toNat ∧ (3000#64 : DWord).toNat ≤ 3000
      ∧ State.reset.enumerated = true ∧ State.reset.busy = none ∧ State.reset.lifecycle ≠ 3#2 ∧ (0xC#64 : DWord).toNat / 4 % 4 = 3 ∧ (0x8#64 : DWord).toNat / 4 % 4 ≠ 3) := by
  decide +kernel

/-- Context 1 of mappedBy named by MARG0, an address, and the loads of it. -/
def debugging (entry : Nat) (va : DWord) (runs : List Run) : State :=
  { mappedBy entry 0#64 0#64 with marg := (State.reset.marg.set 0 0x1_0000#64).set 1 va, runs := runs }

/-- How the eight bytes that MARG1 names are read and written. -/
def debugEnds (s : State) : Option (Bool × Bool) :=
  s.debugAgent.map (fun g => ((s.virtGet g noUnit (s.marg[1]).toNat 8).1.isSome, (s.virtPut g noUnit (s.marg[1]).toNat (leBytes 8 (s.marg[2]).toNat)).1))

/-- No such context; the last address and one beyond it; bytes that can be read and written and bytes that cannot; a frame that another context
maps executable, and none; a page that moves; a hold and none; a decommissioned device, and one that is busy. -/
theorem meets_DebugCommandsReachTheirContext :
    (State.reset.enumerated = true ∧ State.reset.busy = none ∧ State.reset.lifecycle ≠ 3#2 ∧ State.reset.debugAgent = none ∧ 2 ^ 52 < (0xF_FFFF_FFFF_FFF9#64 : DWord).toNat + 8
      ∧ (0xF_FFFF_FFFF_FFF8#64 : DWord).toNat + 8 ≤ 2 ^ 52)
    ∧ debugEnds (debugging 0xFF 0x1000#64 []) = some (true, true) ∧ debugEnds (debugging 0xFE 0x1000#64 []) = some (false, false)
    ∧ (let s := (debugging 0xFF 0x1000#64 []).modPart 0 (fun p => { p with roots := [(1#16, 0x10000), (2#16, 0x10000)] })
       s.debugAgent.any (fun g => (match s.walk g 0x1000 with
        | .leaf l => s.sharedExec g l
        | _ => false)) = true)
    ∧ (let s := debugging 0xFF 0x1000#64 []
       s.debugAgent.any (fun g => (match s.walk g 0x1000 with
        | .leaf l => !s.sharedExec g l
        | _ => false)) = true
       ∧ s.debugHeldWrite = false ∧ ({ s with moves := [⟨0, 1#16, 0, 6, 0, 2 ^ 36, .migrate, none⟩] } : State).debugHeldWrite = true
       ∧ s.runs.filter (fun r => decide (r.ctx = s.debugCtx) && decide (r.freeze = some .debug)) = [])
    ∧ (let s := debugging 0xFF 0x1000#64 [{ runA with freeze := some .debug }]
       s.runs.filter (fun r => decide (r.ctx = s.debugCtx) && decide (r.freeze = some .debug)) ≠ [])
    ∧ ({ State.reset with lifecycle := 3#2 } : State).lifecycle = 3#2 ∧ (State.reset.busyWith 5#64).busy.isSome = true := by
  decide +kernel

/-- Widths and places that are an unsupported request, and a device that has not enumerated; a device that is busy, one
whose next command is slow, and one that neither is; the first and the last argument register, the command register with each command that the statement names, a queue's base, PSYSCTX, a partition that is not formed, and the reserved
offsets at 0x138 and 0xFFF8. -/
theorem meets_RegisterWritesReachTheirRegister :
    (¬ ((2#4 = 4#4 ∨ 2#4 = 8#4) ∧ (0x100#21).toNat % (2#4).toNat = 0) ∧ ¬ ((8#4 = 4#4 ∨ 8#4 = 8#4) ∧ (0x104#21).toNat % (8#4).toNat = 0)
      ∧ ({ State.reset with fwfail := State.reset.fwfail.set 0 1#4 } : State).enumerated = false ∧ State.reset.enumerated = true
      ∧ (State.reset.busyWith 5#64).busy.isSome = true ∧ State.reset.busy = none ∧ State.reset.slowCommand = false
      ∧ ({ State.reset with slowCommand := true } : State).slowCommand = true)
    ∧ ((0x108#21).toNat = 0x108 + 8 * (0 : Fin 6).val ∧ (0x130#21).toNat = 0x108 + 8 * (5 : Fin 6).val)
    ∧ (field 0x0001_0005#64 63 32 = 0 ∧ field 0x0001_0005#64 15 8 = 0 ∧ field 0x0001_0005#64 7 0 = 0x05 ∧ field 0x0001_0001#64 7 0 = 0x01
      ∧ 0x0C < field 0x0001_000D#64 7 0 ∧ field 0x0001_0000#64 7 0 = 0)
    ∧ ((0x1_0040#21).toNat = 0x10000 * ((0 : Fin 16).val + 1) + 0x40 * (1 : Fin 64).val ∧ (0x1_1010#21).toNat = 0x10000 * ((0 : Fin 16).val + 1) + 0x1010
      ∧ (∀ r ∈ State.reset.runs, r.part ≠ 0) ∧ (0x2_0008#21).toNat / 0x10000 = (1 : Fin 16).val + 1 ∧ (State.reset.part 1).formed = false
      ∧ 0x138 ≤ (0x138#21).toNat ∧ (0xFFF8#21).toNat < 0x10000 ∧ (0xFFF8#21).toNat % 8 = 0) := by
  decide +kernel

/-- A firmware image that verifies, at the version of the rollback counter, and one that does not. -/
theorem meets_ResetWipesAndKeepsWhatSurvives :
    ((State.reset.firmware[0]).readable = true ∧ (State.reset.firmware[0]).wellFormed = true ∧ (State.reset.firmware[0]).verifies = true
      ∧ State.reset.rollback.toNat ≤ (State.reset.firmware[0]).version.toNat)
    ∧ (let s : State := { State.reset with firmware := State.reset.firmware.set 0 ⟨0#16, false, true, true⟩ }
       (s.firmware[0]).readable = true ∧ (s.firmware[0]).wellFormed = true ∧ (s.firmware[0]).verifies = false) := by
  decide +kernel

/-- Every island of every die joined. -/
def joinedAll : State := { State.reset with joined := (List.range 4).flatMap (fun d => (List.range 96).map (fun n => d * 128 + n)) }

/-- An island that has not joined, in harebell mode and out of it, one that has, one of a die without firmware, and one that is no tile's; every island joined, and one not; frequencies of 7, 8, 16 and 17. -/
theorem meets_TilesJoinAndIslandsTakeTheirFrequency :
    ((95 : Fin 512).val % 128 < 96 ∧ State.reset.harebell = true ∧ State.reset.fwfail[Fin.ofNat 4 ((95 : Fin 512).val / 128)] = 0#4
      ∧ (95 : Fin 512).val ∉ State.reset.joined ∧ ({ State.reset with harebell := false } : State).harebell = false
      ∧ (95 : Fin 512).val ∈ joinedAll.joined ∧ ({ State.reset with fwfail := State.reset.fwfail.set 0 1#4 } : State).fwfail[Fin.ofNat 4 ((95 : Fin 512).val / 128)] ≠ 0#4
      ∧ 96 ≤ (96 : Fin 512).val % 128)
    ∧ (∀ d : Fin 4, joinedAll.fwfail[d] ≠ 0#4 ∨ ∀ n, n < 96 → joinedAll.islandDone (d.val * 128 + n) = true)
    ∧ (¬ ∀ d : Fin 4, State.reset.fwfail[d] ≠ 0#4 ∨ ∀ n, n < 96 → State.reset.islandDone (d.val * 128 + n) = true)
    ∧ (8 ≤ (8#5).toNat ∧ (16#5).toNat ≤ 16 ∧ (7#5).toNat < 8 ∧ 16 < (17#5).toNat ∧ 96 ≤ (96 : Fin 512).val % 128
      ∧ State.reset.clocks.Pairwise (fun x y => x.1 < y.1) ∧ (State.reset.clock 96).baseNs ≤ State.reset.ns)
    ∧ nextIs (exec (.powerWindow [(96, 8#5)]) State.reset) (fun s => (s.clock 96).k == 8) = true := by
  decide +kernel

/-- A block of a const unit on the east side that feeds a sink over a mesh route: from the router of the memory tile there to the north, across
the edge of the die. -/
def crossing : Image :=
  { block [BitVec.ofNat 64 (0x8B * 2 ^ 54 + (2 ^ 13 + 2 ^ 6 + 1) * 2 ^ 28), BitVec.ofNat 64 (0x89 * 2 ^ 54)] with
    binds := [BitVec.ofNat 32 (256 * 2 ^ 22), 0#32], routes := [BitVec.ofNat 64 (2 ^ 60 + 1)] }

/-- A link that is up and one that is down, of the package and off it; a unit with an element on an edge that comes over a link. -/
theorem meets_LinkEventsAreLoggedAndEclipse :
    (State.reset.links.Pairwise (fun x y => x.1 < y.1) ∧ (State.reset.link 0 0).down = false)
    ∧ (let s : State := { State.reset with links := [(0, ⟨8, 0, true⟩)] }
       s.links.Pairwise (fun x y => x.1 < y.1) ∧ (s.link 0 0).down = true)
    ∧ (2 ≤ (2 : Fin 5).val ∧ (1 : Fin 5).val < 2)
    ∧ (let s := withGraph (regs 0#64 0#64) runA (strandRun [{}, { ports := [[elem 1#32], [], [], []] }]) crossing
       (s.rctx 0 0).any (fun z => decide ((1#7).toNat < ((s.strand 0 0).block z.key).length) && (s.unitAt z 1).ports.length == 4
        && s.portsOver z 0 1 1 == [0] && ((s.unitAt z 1).ports.getD 0 []).getLast?.any Item.isElem) = true) := by
  decide +kernel

/-- A device that has enumerated and one that has not; a connection that is not open, one that is, and one with its algorithms agreed. -/
theorem meets_TheResponderAnswersEachRequest :
    State.reset.enumerated = true ∧ ({ State.reset with fwfail := State.reset.fwfail.set 0 1#4 } : State).enumerated = false ∧
    State.reset.spdmVersion = false ∧ (let s : State := { State.reset with spdmVersion := true }
      s.spdmVersion = true ∧ s.spdmAlgs = false) ∧ (let s : State := { State.reset with spdmVersion := true, spdmAlgs := true }
      s.spdmVersion = true ∧ s.spdmAlgs = true) := by
  decide +kernel

/-- A load in a debug hold, and one that is not; a system register that is there. -/
theorem meets_TheDebugPortReachesAHeldSequencer :
    ({ State.reset with runs := [{ runA with freeze := some .debug, frozen := true }] } : State).debugHeld 0 = true
    ∧ ({ State.reset with runs := [runA] } : State).debugHeld 0 = false ∧ (sysRegOf (0x017#14).toNat).isSome = true
    ∧ ((State.reset.seq 0).ram.wf = true) := by
  decide +kernel

/-- A request that stores one word. -/
def requestB (w : Word) : Request := ⟨[], [(false, 0x1000, 4)], [([w], 0#8)], [], none, 0#32⟩

/-- Requests of a vote.mem: side b differs and is outvoted; a dual difference has no majority, in a request or in a mask (R340). -/
theorem test_votes_requests :
    guardVote [[some (requestB 1#32)], [some (requestB 5#32)], [some (requestB 1#32)]] = .inl (0, some 1)
    ∧ guardVote [[none, some (requestB 1#32)], [none, some (requestB 5#32)]] = .inr ([1], false)
    ∧ guardVote [[some (requestB 1#32)], [none]] = .inr ([0], true) := by
  decide +kernel

/-- Two of the four copies of a group differ; a copy without an element is a mask difference (R78, R340, R372). -/
theorem test_differing_copies :
    groupDiffers [elem 1#32, elem 2#32, elem 3#32, elem 4#32] [elem 1#32, elem 9#32, elem 3#32, elem 8#32] = [1, 3]
    ∧ groupPoint [elem 1#32] [] = 3 ∧ groupPoint [elem 1#32] [elem 2#32] = 0 := by
  decide +kernel

/-- An indexed window of 64-bit elements: an odd index is misaligned, an even one lies at twice its number, and one past
the extent is out of bounds (R327). The word: format N64, base 16, extent 7. -/
theorem test_indexed_window :
    (let w : BitVec 256 := BitVec.ofNat 256 (0xE * 2 ^ 244 + 16 * 2 ^ 217 + 7 * 2 ^ 198)
     agWords w = 2 ∧ indexedWord w 0 1 1 = .inr 2 ∧ indexedWord w 0 1 2 = .inl 20 ∧ indexedWord w 0 1 4 = .inr 1) := by
  decide +kernel

/-- R342: the host reads QTAIL and QHEAD as 8 bytes at 0x10 of the queue's block, and QHEAD alone at 0x14; an unaligned read has no reply. -/
theorem test_queue_registers_read :
    let s : State := queued { tail := 5#32, head := 3#32 }
    (s.readWindow 0x10010 8).reply = some (0x0000_0003_0000_0005#512, false)
      ∧ (s.readWindow 0x10014 4).reply = some (3#512, false) ∧ (s.readWindow 0x10012 4).unsupported = true := by
  decide +kernel

end Sys2Proof.Tests
end

section
/-! SUPPORT. Reading back what the updates of tiles, strands, cores, phases and units write, and what they leave as it was. -/

namespace Sys2Proof.Machine

/-! ### Reading back a tile, a strand, a core, a phase, a unit -/

/-- What a change of a tile keeps of the tile, it keeps of every tile. -/
theorem State.modTile_keeps {α : Type} (s : State) (t : Fin 192) (f : Tile → Tile) (g : Tile → α) (h : ∀ x, g (f x) = g x)
    (y : Fin 192) : g ((s.modTile t f).tile y) = g (s.tile y) := by
  by_cases e : t = y
  · subst e
    rw [State.modTile_tile_self, h]
  · rw [State.modTile_tile_ne s t y f e]

@[simp] theorem State.modStrand_seq (s : State) (t : Fin 192) (k : Fin 8) (f : Strand → Strand) (y : Fin 192) :
    (s.modStrand t k f).seq y = s.seq y :=
  s.modTile_keeps t (fun x => { x with strands := x.strands.set k (f x.strands[k]) }) Tile.seq (fun _ => rfl) y

@[simp] theorem State.modStrand_core (s : State) (t : Fin 192) (k : Fin 8) (f : Strand → Strand) (y : Fin 192) :
    ((s.modStrand t k f).tile y).core = (s.tile y).core :=
  s.modTile_keeps t (fun x => { x with strands := x.strands.set k (f x.strands[k]) }) Tile.core (fun _ => rfl) y

@[simp] theorem State.modCore_strand (s : State) (t : Fin 192) (f : MatrixCore → MatrixCore) (y : Fin 192) (k : Fin 8) :
    (s.modCore t f).strand y k = s.strand y k :=
  s.modTile_keeps t (fun x => { x with core := f x.core }) (fun x => x.strands[k]) (fun _ => rfl) y

@[simp] theorem State.modCore_core_self (s : State) (t : Fin 192) (f : MatrixCore → MatrixCore) :
    ((s.modCore t f).tile t).core = f (s.tile t).core := by
  simp [State.modCore]

@[simp] theorem State.modRun_strand (s : State) (g : Word) (f : Run → Run) (y : Fin 192) (k : Fin 8) :
    (s.modRun g f).strand y k = s.strand y k := rfl

@[simp] theorem State.modRun_tile (s : State) (g : Word) (f : Run → Run) (y : Fin 192) : (s.modRun g f).tile y = s.tile y := rfl

@[simp] theorem State.modPhase_phase (s : State) (x : RCtx) (f : Phase → Phase) :
    ((s.modPhase x f).strand x.t x.k).phase = (s.strand x.t x.k).phase.map f := by
  simp [State.modPhase]

theorem State.modPhase_congr {s : State} {x : RCtx} {f g : Phase → Phase}
    (h : (s.strand x.t x.k).phase.map f = (s.strand x.t x.k).phase.map g) : s.modPhase x f = s.modPhase x g :=
  congrArg (fun ph => s.modStrand x.t x.k (fun _ => { s.strand x.t x.k with phase := ph })) h

@[simp] theorem State.modPhase_unitAt (s : State) (x : RCtx) (f : Phase → Phase) (u : Nat) :
    (s.modPhase x f).unitAt x u = s.unitAt x u := by
  simp [State.unitAt, State.modPhase, Strand.block]

theorem Strand.setBlock_block (st : Strand) (key : Nat) (us : List UnitSt) : (st.setBlock key us).block key = us := by
  have h : (st.units.filter (fun x => x.1 != key)).find? (fun x => x.1 == key) = none := by simp
  simp [Strand.setBlock, Strand.block, List.find?_append, h]

theorem modifyAt_getD {α : Type} (d : α) (f : α → α) : ∀ (l : List α) (n : Nat), n < l.length → (modifyAt l n f).getD n d = f (l.getD n d)
  | [], _, h => absurd h (Nat.not_lt_zero _)
  | _ :: _, 0, _ => rfl
  | _ :: xs, n + 1, h => by
    simpa [modifyAt] using modifyAt_getD d f xs n (Nat.lt_of_succ_lt_succ h)

theorem State.modUnit_unitAt_self (s : State) (x : RCtx) (u : Nat) (f : UnitSt → UnitSt)
    (h : u < ((s.strand x.t x.k).block x.key).length) : (s.modUnit x u f).unitAt x u = f (s.unitAt x u) := by
  simp only [State.modUnit, State.unitAt, State.modStrand_strand_self, Strand.setBlock_block, modifyAt_getD _ f _ u h]

@[simp] theorem State.modCore_unitAt (s : State) (t : Fin 192) (f : MatrixCore → MatrixCore) (x : RCtx) (u : Nat) :
    (s.modCore t f).unitAt x u = s.unitAt x u := by
  simp [State.unitAt]

/-- Whether a load runs is a matter of the graphs and the page moves alone. -/
theorem State.running_congr {s v : State} (hr : v.runs = s.runs) (hm : v.moves = s.moves) (g : Word) : v.running g = s.running g := by
  unfold State.running State.run State.pagesMove
  rw [hr, hm]

@[simp] theorem State.modPhase_running (s : State) (x : RCtx) (f : Phase → Phase) (g : Word) :
    (s.modPhase x f).running g = s.running g := State.running_congr rfl rfl g

@[simp] theorem State.modCore_running (s : State) (t : Fin 192) (f : MatrixCore → MatrixCore) (g : Word) :
    (s.modCore t f).running g = s.running g := State.running_congr rfl rfl g

/-- The block that is active for a strand is one of that strand. -/
theorem State.rctx_place {s : State} {t : Fin 192} {k : Fin 8} {x : RCtx} (h : s.rctx t k = some x) : x.t = t ∧ x.k = k := by
  simp only [State.rctx, State.ctxBlock] at h
  split at h
  · cases h
  · split at h
    · cases h
      exact ⟨rfl, rfl⟩
    · cases h

end Sys2Proof.Machine
end

section
/-! PROOF. Regions advance (R69, R71, R82): the counters of the dimensions, and the cycle in which nothing has the slot. -/

namespace Sys2Proof.Machine

/-! ### The counters of the dimensions (R82) -/

/-- The counters of dimensions as one number, the innermost its lowest digit; the trip counts are the bases. -/
def digitsRank (ds : List (Nat × Nat)) (ix : List Nat) : Nat := (ds.zip ix).foldr (fun y acc => y.2 + y.1.1 * acc) 0

/-- Counters that end below their trip counts count on by one, unless every dimension completes, and then all begin anew. -/
theorem carryDims_counts : ∀ ds : List (Nat × Nat), (∀ d ∈ ds, d.2 < d.1) →
    (carryDims ds).2 ≤ ds.length ∧ (carryDims ds).1.length = ds.length
    ∧ ((carryDims ds).2 < ds.length → digitsRank ds (carryDims ds).1 = digitsRank ds (ds.map (fun d => d.2)) + 1)
    ∧ ((carryDims ds).2 = ds.length → (∀ i ∈ (carryDims ds).1, i = 0) ∧ ∀ d ∈ ds, d.2 + 1 = d.1)
  | [], _ => by simp [carryDims]
  | (t, i) :: ds, h => by
    obtain ⟨hi, hds⟩ : i < t ∧ ∀ d ∈ ds, d.2 < d.1 := by simpa using h
    obtain ⟨hle, hlen, hrank, hall⟩ := carryDims_counts ds hds
    by_cases hlt : i + 1 < t
    · have e : carryDims ((t, i) :: ds) = ((i + 1) :: ds.map (fun d => d.2), 0) := by simp [carryDims, hlt]
      simp only [e]
      refine ⟨Nat.zero_le _, by simp, fun _ => ?_, fun hn => by simp at hn⟩
      simp only [digitsRank, List.map_cons, List.zip_cons_cons, List.foldr_cons]
      omega
    · have ht : i + 1 = t := by omega
      have e : carryDims ((t, i) :: ds) = (0 :: (carryDims ds).1, (carryDims ds).2 + 1) := by
        simp [carryDims, hlt, show t ≠ 0 by omega]
      simp only [e, List.length_cons]
      refine ⟨by omega, by omega, fun hn => ?_, fun hn => ?_⟩
      · have hr := hrank (by omega)
        simp only [digitsRank] at hr
        simp only [digitsRank, List.map_cons, List.zip_cons_cons, List.foldr_cons, hr, Nat.mul_add]
        omega
      · obtain ⟨hz, hd⟩ := hall (by omega)
        exact ⟨by simpa using hz, List.forall_mem_cons.mpr ⟨ht, hd⟩⟩

/-! ### A cycle in which nothing has the slot (R69, R71) -/

section QuietCycle

variable {s : State} {x : RCtx}

theorem State.readSlot_quiet {slot : Nat} (h : ∀ w ∈ x.image.gports, gpSlot w ≠ slot) (adv : Nat) (lead : Option Nat) :
    s.readSlot x slot adv lead = s :=
  List.foldlRecOn (motive := (· = s)) _ _ rfl (fun v hv w hw => by simpa [h w hw] using hv)

theorem State.fireSlot_quiet {slot : Nat} (h : ∀ u, u < x.image.count → bwSlot (x.image.bind u) ≠ slot) (adv : Nat) :
    s.fireSlot x slot adv = some s := by
  unfold State.fireSlot
  split
  · rfl
  · refine List.foldlRecOn (motive := (· = some s)) _ _ rfl (fun v hv u hu => ?_)
    simp [hv, h u (List.mem_range.mp hu)]

theorem State.flushUnit_of_out_empty {u : Nat} (h : (s.unitAt x u).out = []) (adv : Nat) : s.flushUnit x u adv = s := by
  simp [State.flushUnit, h]

theorem State.flushUnits_of_out_empty (h : ∀ u, u < x.image.count → (s.unitAt x u).out = []) (adv : Nat) :
    (List.range x.image.count).foldl (fun s u => s.flushUnit x u adv) s = s :=
  List.foldlRecOn (motive := (· = s)) _ _ rfl (fun v hv u hu => by
    rw [hv]
    exact State.flushUnit_of_out_empty (h u (List.mem_range.mp hu)) adv)

theorem State.endIfDone_of_more {p : Phase} (hp : (s.strand x.t x.k).phase = some p) (he : p.exhausted = false) : s.endIfDone x = s := by
  simp [State.endIfDone, hp, he]

end QuietCycle

/-- The phase after a cycle that does not stall: its next slot. -/
def Phase.nextSlot (p : Phase) (i : Image) : Phase := { p with slot := (p.slot + 1) % bII i.bindHeader, advances := p.advances + 1 }

/-- A cycle whose issue stage gives s1 and in which no unit and no gated input has the slot goes on to the next slot from s1; at slot 0 of
a space that neither an open dimension nor a unit without an input paces, no leading input counts. -/
theorem State.advance_quiet {s s1 : State} {x : RCtx} {p q : Phase} (hrun : s1.running x.gid = true)
    (hlead : p.slot = 0 → p.trips.any (· == 0) = false ∧ s.inputless x = [])
    (hissue : (if p.slot = 0 then s.issueStage x p else some s) = some s1)
    (hq : (s1.strand x.t x.k).phase = some q) (hmore : q.exhausted = false)
    (hports : ∀ w ∈ x.image.gports, gpSlot w ≠ p.slot)
    (hunits : ∀ u, u < x.image.count → bwSlot (x.image.bind u) ≠ p.slot ∧ (s1.unitAt x u).out = []) :
    s.advance x p = s1.modPhase x (fun y => y.nextSlot x.image) := by
  have hlost : ∀ lead : Option Nat, lead = (if p.trips.any (· == 0) || !(s.inputless x).isEmpty then s.leadUnit x else none) →
      (if p.slot = 0 && lead.isSome && !p.ended then s.leadLost x else none) = none := by
    rintro lead rfl
    by_cases h : p.slot = 0
    · obtain ⟨ht, hi⟩ := hlead h
      simp [ht, hi]
    · simp [h]
  have hgate : ∀ f : Word → Bool, x.image.gports.any (fun w => gpSlot w == p.slot && f w) = false := by
    intro f
    simp only [List.any_eq_false, Bool.and_eq_true, beq_iff_eq]
    exact fun w hw h => hports w hw h.1
  unfold State.advance
  simp only [hlost _ rfl, hissue, hgate]
  rw [State.readSlot_quiet hports, State.fireSlot_quiet (fun u hu => (hunits u hu).1)]
  simp only [State.flushUnits_of_out_empty (fun u hu => (hunits u hu).2), hrun, if_true]
  exact State.endIfDone_of_more (p := q.nextSlot x.image) (by rw [State.modPhase_phase, hq]; rfl) hmore

/-- An iteration that does not complete the space only changes the phase (R71, R82). -/
theorem State.issueOne_of_more {s : State} {x : RCtx} {p : Phase} (hp : (s.strand x.t x.k).phase = some p)
    (hn : (carryDims (p.trips.zip p.index)).2 < p.trips.length) :
    ∃ q, s.issueOne x = s.modPhase x (fun _ => q) ∧ q.issued = p.issued + 1 ∧ q.current = p.index
      ∧ q.index = (carryDims (p.trips.zip p.index)).1 ∧ q.exhausted = false ∧ q.slot = p.slot ∧ q.advances = p.advances := by
  have hne : (carryDims (p.trips.zip p.index)).2 ≠ p.trips.length := Nat.ne_of_lt hn
  unfold State.issueOne
  simp only [hp, hne, decide_false, Bool.false_eq_true, if_false]
  refine ⟨_, rfl, ?_⟩
  split <;> simp [Phase.addPunct]

/-- The issue stage of a closed space that nothing paces issues an iteration in every cycle with c = 0 (R71). -/
theorem State.issueStage_unpaced {s : State} {x : RCtx} {p : Phase} (hclosed : p.trips.any (· == 0) = false)
    (hinputs : s.inputless x = []) (hex : p.exhausted = false) (hbl : p.blocked = false) (hend : p.ended = false) :
    s.issueStage x p = some (s.issueOne x) := by
  simp [State.issueStage, hclosed, hinputs, hex, hbl, hend]

theorem execRegionAdvance_eq {s : State} {t : Fin 192} {k : Fin 8} {x : RCtx} {p : Phase} (hx : s.rctx t k = some x)
    (hp : (s.strand t k).phase = some p) : exec (.regionAdvance t k) s =
      if s.running x.gid && (decide ((s.strand t k).state = .run) || (decide ((s.strand t k).state = .done) && p.ended))
      then .next (s.advance x p) else .next s := by
  show execRegionAdvance t k s = _
  simp only [execRegionAdvance, hx, hp]

/-- Settles O33: by induction on the dimensions for the counters, and by the cycle in which nothing has the slot. -/
theorem regionsAdvance : Obligations.RegionsAdvance := by
  refine ⟨fun ds h => carryDims_counts ds h, fun s t k x p hx hp => ?_⟩
  obtain ⟨rfl, rfl⟩ := State.rctx_place hx
  refine ⟨fun hrun => by simp [execRegionAdvance_eq hx hp, hrun], fun hrun hst hex hend hports hunits => ?_⟩
  have hexec : exec (.regionAdvance x.t x.k) s = .next (s.advance x p) := by simp [execRegionAdvance_eq hx hp, hrun, hst]
  refine ⟨fun hslot => ?_, fun hslot hbl hinputs htrips hmore => ?_⟩
  · rw [hexec, State.advance_quiet hrun (fun h => absurd h hslot) (if_neg hslot) hp hex hports hunits]
    exact congrArg _ (State.modPhase_congr (by simp [hp, Phase.nextSlot]))
  · have hclosed : p.trips.any (· == 0) = false := by simpa using htrips
    obtain ⟨q, hq, hissued, hcurrent, hindex, hqex, hqslot, hadv⟩ := State.issueOne_of_more hp hmore
    have hphase : ((s.modPhase x (fun _ => q)).strand x.t x.k).phase = some q := by simp [hp]
    refine ⟨(s.modPhase x (fun _ => q)).modPhase x (fun y => y.nextSlot x.image), q.nextSlot x.image, ?_, ?_, hissued, hcurrent, hindex,
      hqex, ?_, ?_, rfl⟩
    · rw [hexec]
      refine congrArg _ (State.advance_quiet (by simpa using hrun) (fun _ => ⟨hclosed, hinputs⟩) ?_ hphase hqex hports (by simpa using hunits))
      simp [hslot, State.issueStage_unpaced hclosed hinputs hex hbl hend, hq]
    · simp [hp]
    · simp [Phase.nextSlot, hqslot]
    · simp [Phase.nextSlot, hadv]

end Sys2Proof.Machine
end

section
/-! PROOF. The switch of a context (R99, R100, R257, R388): what each of its parts keeps. -/

namespace Sys2Proof.Machine

/-! ### What a context switch keeps (R99, R257) -/

/-- A state with the memory and the sequencers of another. -/
def State.KeepsSeqs (s v : State) : Prop := v.mem = s.mem ∧ ∀ y : Fin 192, v.seq y = s.seq y

section Keeps

variable {s v w : State}

theorem State.KeepsSeqs.refl (s : State) : s.KeepsSeqs s := ⟨rfl, fun _ => rfl⟩

theorem State.KeepsSeqs.trans (h : s.KeepsSeqs v) (h' : v.KeepsSeqs w) : s.KeepsSeqs w :=
  ⟨h'.1.trans h.1, fun y => (h'.2 y).trans (h.2 y)⟩

theorem State.KeepsSeqs.modStrand (h : s.KeepsSeqs v) (t : Fin 192) (k : Fin 8) (f : Strand → Strand) : s.KeepsSeqs (v.modStrand t k f) :=
  h.trans ⟨rfl, fun y => State.modStrand_seq v t k f y⟩

theorem State.KeepsSeqs.modRun (h : s.KeepsSeqs v) (g : Word) (f : Run → Run) : s.KeepsSeqs (v.modRun g f) :=
  h.trans ⟨rfl, fun _ => rfl⟩

theorem State.keepsSeqs_setDesc (s : State) (t : Fin 192) (table b word n : Nat) : s.KeepsSeqs (s.setDesc t table b word n) := by
  unfold State.setDesc
  split
  · exact .refl s
  · exact ⟨rfl, fun _ => rfl⟩

theorem State.keepsSeqs_reportPhase (s : State) (x : RCtx) (p : Phase) : s.KeepsSeqs (s.reportPhase x p) := by
  unfold State.reportPhase
  refine State.KeepsSeqs.modStrand ?_ _ _ _
  split
  · split
    · exact s.keepsSeqs_setDesc _ _ _ _ _
    · exact .refl s
  · exact .refl s

theorem State.keepsSeqs_returnTokens (s : State) (x : RCtx) : s.KeepsSeqs (s.returnTokens x) := by
  refine List.foldlRecOn (motive := s.KeepsSeqs) _ _ (.refl s) (fun v hv u _ => ?_)
  dsimp only
  split
  · exact hv
  · split
    · refine State.KeepsSeqs.modStrand ?_ _ _ _
      split
      · exact hv.modRun _ _
      · split
        · exact hv.modRun _ _
        · exact hv
    · split
      · split
        · exact (hv.modRun _ _).modStrand _ _ _
        · exact hv
      · exact hv

theorem State.keepsSeqs_switchTo (s : State) (t : Fin 192) (k : Fin 8) (c : Fin 16) : s.KeepsSeqs (s.switchTo t k c) := by
  refine State.KeepsSeqs.modStrand ?_ _ _ _
  split
  · exact s.keepsSeqs_returnTokens _
  · exact .refl s

theorem State.keepsSeqs_ite_modRun (s : State) (c : Prop) [Decidable c] (g : Word) (f : Run → Run) :
    s.KeepsSeqs (if c then s else s.modRun g f) := by
  split
  · exact .refl s
  · exact (State.KeepsSeqs.refl s).modRun g f

theorem State.ite_modRun_strand (s : State) (c : Prop) [Decidable c] (g : Word) (f : Run → Run) (t : Fin 192) (k : Fin 8) :
    (if c then s else s.modRun g f).strand t k = s.strand t k := by
  split <;> rfl

end Keeps

/-- A phase that begins writes at most the flags of a round and then its strand, of which it names the units, the state, the arguments
and the phase (R254, R255). -/
theorem State.beginPhase_cases (s : State) (t : Fin 192) (k : Fin 8) (f : Fire) :
    ∃ v, s.KeepsSeqs v ∧ v.strand t k = s.strand t k ∧ (s.beginPhase t k f = v ∨ ∃ key us ph, s.beginPhase t k f =
      v.modStrand t k (fun y => { (y.setBlock key us) with state := .run, args := f.args, phase := some ph })) := by
  cases hx : s.rctx t k with
  | none => exact ⟨s, .refl s, rfl, .inl (by simp only [State.beginPhase, hx])⟩
  | some x =>
    cases hr : s.run x.gid with
    | none => exact ⟨s, .refl s, rfl, .inl (by simp only [State.beginPhase, hx, hr])⟩
    | some r =>
      simp only [State.beginPhase, hx, hr]
      exact ⟨_, s.keepsSeqs_ite_modRun _ _ _, s.ite_modRun_strand _ _ _ t k, .inr ⟨_, _, _, rfl⟩⟩

/-- Whether a replacement is on its way to a strand's consumers (R388). -/
def State.replacing (s : State) (g : Word) (t : Fin 192) (k : Fin 8) : Bool :=
  match s.run g with
  | some r => r.replays.any (fun y => y.tile == t.val && y.strand == k.val)
  | none => false

theorem State.replacing_iff {s : State} {g : Word} {t : Fin 192} {k : Fin 8} :
    s.replacing g t k = true ↔ ∃ r y, s.run g = some r ∧ y ∈ r.replays ∧ y.tile = t.val ∧ y.strand = k.val := by
  unfold State.replacing
  cases s.run g <;> simp

theorem State.enginesDrained_iff {s : State} {t : Fin 192} {k : Fin 8} :
    s.enginesDrained t k = true ↔ ∀ j ∈ s.jobs, ¬ (j.tile = t.val ∧ j.strand = k.val) := by
  simp [State.enginesDrained]

/-- Whether the reconfiguration marker has passed every unit of a block, those apart that nothing feeds (R99). -/
def State.markerPassed (s : State) (x : RCtx) : Bool :=
  (List.range x.image.count).all (fun u => (s.unitAt x u).reconf
    || (x.image.connected u).isEmpty && !(s.inputless x).contains u && !((s.supplierUnits x).contains u))

theorem State.markerPassed_of_reconf {s : State} {x : RCtx} (h : ∀ u, u < x.image.count → (s.unitAt x u).reconf = true) :
    s.markerPassed x = true := by
  simp only [State.markerPassed, List.all_eq_true, List.mem_range]
  intro u hu
  simp [h u hu]

/-- The phase that a switch of cfg.part begins: the pending fire's, or one without dimensions (R257). -/
def Strand.partFire (st : Strand) : Fire :=
  match st.firePending with
  | some f => { f with args := st.args }
  | none => ⟨[], st.args, none⟩

/-- The switch to context c as cfg.part has it, before the phase begins (R257). -/
def State.parted (s : State) (t : Fin 192) (k : Fin 8) (c : Fin 16) : State :=
  (s.switchTo t k c).modStrand t k (fun y => { y with partPending := false, firePending := none })

theorem State.keepsSeqs_parted (s : State) (t : Fin 192) (k : Fin 8) (c : Fin 16) : s.KeepsSeqs (s.parted t k c) :=
  (s.keepsSeqs_switchTo t k c).modStrand _ _ _

/-- After the switch the new context is active and nothing is pending, and so it stays as the phase begins. -/
theorem State.beginPhase_parted (s : State) (t : Fin 192) (k : Fin 8) (c : Fin 16) (f : Fire) :
    let v := (s.parted t k c).beginPhase t k f
    (v.strand t k).active = some c ∧ (v.strand t k).partPending = false ∧ (v.strand t k).firePending = none ∧ s.KeepsSeqs v := by
  obtain ⟨v, hkeeps, hstrand, h | ⟨key, us, ph, h⟩⟩ := (s.parted t k c).beginPhase_cases t k f <;> simp only [h]
  · refine ⟨?_, ?_, ?_, (s.keepsSeqs_parted t k c).trans hkeeps⟩ <;> simp [hstrand, State.parted, State.switchTo]
  · refine ⟨?_, ?_, ?_, ((s.keepsSeqs_parted t k c).trans hkeeps).modStrand _ _ _⟩ <;>
      simp [hstrand, State.parted, State.switchTo, Strand.setBlock]

section Switch

variable {s : State} {t : Fin 192} {k : Fin 8} {x : RCtx} {p : Phase} {c : Fin 16}

theorem execContextSwitch_eq (hx : s.rctx t k = some x) (hp : (s.strand t k).phase = some p) (hc : (s.strand t k).shadow = .armed c) :
    exec (.contextSwitch t k) s =
      if s.running x.gid && (s.strand t k).partPending && s.markerPassed x && !s.replacing x.gid t k && s.drained x && s.enginesDrained t k
      then (if s.badContext t c then .next (s.contextError t)
        else .next (((if p.ended then s else s.reportPhase x p).parted t k c).beginPhase t k (s.strand t k).partFire))
      else .next s := by
  show execContextSwitch t k s = _
  cases hr : s.run x.gid <;> simp only [execContextSwitch, hx, hp, hc, State.replacing, hr] <;> rfl

/-- A switch whose conditions hold takes place. -/
theorem execContextSwitch_switches (hx : s.rctx t k = some x) (hp : (s.strand t k).phase = some p)
    (hc : (s.strand t k).shadow = .armed c) (hrun : s.running x.gid = true) (hpart : (s.strand t k).partPending = true)
    (hpassed : s.markerPassed x = true) (hreplaced : s.replacing x.gid t k = false) (hdrained : s.drained x = true)
    (hjobs : s.enginesDrained t k = true) (hgood : s.badContext t c = false) :
    ∃ v, exec (.contextSwitch t k) s = .next v ∧ (v.strand t k).active = some c ∧ (v.strand t k).partPending = false
      ∧ (v.strand t k).firePending = none ∧ s.KeepsSeqs v := by
  have hreport : s.KeepsSeqs (if p.ended then s else s.reportPhase x p) := by
    split
    · exact .refl s
    · exact s.keepsSeqs_reportPhase x p
  obtain ⟨hactive, hpend, hfire, hkeeps⟩ :=
    (if p.ended then s else s.reportPhase x p).beginPhase_parted t k c (s.strand t k).partFire
  refine ⟨_, ?_, hactive, hpend, hfire, hreport.trans hkeeps⟩
  simp [execContextSwitch_eq hx hp hc, hrun, hpart, hpassed, hreplaced, hdrained, hjobs, hgood]

/-- A switch that nothing asks for, or that an engine job or a replacement holds back, changes nothing. -/
theorem execContextSwitch_waits (hx : s.rctx t k = some x) (hp : (s.strand t k).phase = some p) (hc : (s.strand t k).shadow = .armed c)
    (h : (s.strand t k).partPending = false ∨ s.enginesDrained t k = false ∨ s.replacing x.gid t k = true) :
    exec (.contextSwitch t k) s = .next s := by
  rw [execContextSwitch_eq hx hp hc]
  rcases h with h | h | h <;> simp [h]

end Switch

end Sys2Proof.Machine
end

section
/-! PROOF. The matrix core (R334, R336, R337): banks made ready, one wavefront, the drain; and the statement about switches and the core. -/

namespace Sys2Proof.Machine

/-! ### Banks that are made ready (R337) -/

@[simp] theorem MatrixCore.modBank_bank_self (c : MatrixCore) (odd : Bool) (f : Bank → Bank) : (c.modBank odd f).bank odd = f (c.bank odd) := by
  cases odd <;> rfl

theorem MatrixCore.modBank_block (c : MatrixCore) (odd : Bool) (f : Bank → Bank) : (c.modBank odd f).block = c.block := by
  cases odd <;> rfl

theorem MatrixCore.modBank_bank_ne (c : MatrixCore) {odd other : Bool} (f : Bank → Bank) (h : odd ≠ other) :
    (c.modBank odd f).bank other = c.bank other := by
  obtain rfl := Bool.eq_not_of_ne h
  cases other <;> rfl

/-- The core with the bank of its next block made ready, where that is free and nothing gives it values (R337). -/
def MatrixCore.readyFree (c : MatrixCore) : MatrixCore :=
  if (c.bank (oddBlock c.inits)).state = .free then c.readyNext (fun k => { k with values := [] }) else c

/-- What the banks, and how far they have been made ready, do not matter for stays. -/
theorem MatrixCore.readyFree_keeps {α : Type} (g : MatrixCore → α)
    (hg : ∀ (c : MatrixCore) ping pong inits filled, g { c with ping := ping, pong := pong, inits := inits, filled := filled } = g c)
    (c : MatrixCore) : g c.readyFree = g c := by
  unfold MatrixCore.readyFree MatrixCore.readyNext MatrixCore.modBank
  split
  · split <;> exact hg c _ _ _ _
  · rfl

/-- A bank that is not free stays. -/
theorem MatrixCore.readyFree_bank (c : MatrixCore) {odd : Bool} (h : (c.bank odd).state ≠ .free) : c.readyFree.bank odd = c.bank odd := by
  unfold MatrixCore.readyFree
  split
  · rename_i hf
    exact c.modBank_bank_ne _ (fun e => h (e ▸ hf))
  · rfl

/-- The core with both banks made ready, where they are free and nothing gives them values. -/
def MatrixCore.readyBanks (c : MatrixCore) : MatrixCore := c.readyFree.readyFree

theorem MatrixCore.readyBanks_bank (c : MatrixCore) {odd : Bool} (h : (c.bank odd).state ≠ .free) : c.readyBanks.bank odd = c.bank odd := by
  have hone := c.readyFree_bank h
  exact (c.readyFree.readyFree_bank (hone.symm ▸ h)).trans hone

@[simp] theorem MatrixCore.readyBanks_block (c : MatrixCore) : c.readyBanks.block = c.block := by
  simp only [readyBanks, readyFree_keeps MatrixCore.block (fun _ _ _ _ _ => rfl)]

@[simp] theorem MatrixCore.readyBanks_group (c : MatrixCore) : c.readyBanks.group = c.group := by
  simp only [readyBanks, readyFree_keeps MatrixCore.group (fun _ _ _ _ _ => rfl)]

@[simp] theorem MatrixCore.readyBanks_swapPending (c : MatrixCore) : c.readyBanks.swapPending = c.swapPending := by
  simp only [readyBanks, readyFree_keeps MatrixCore.swapPending (fun _ _ _ _ _ => rfl)]

@[simp] theorem MatrixCore.readyBanks_peErr (c : MatrixCore) : c.readyBanks.peErr = c.peErr := by
  simp only [readyBanks, readyFree_keeps MatrixCore.peErr (fun _ _ _ _ _ => rfl)]

@[simp] theorem MatrixCore.readyBanks_staged (c : MatrixCore) : c.readyBanks.staged = c.staged := by
  simp only [readyBanks, readyFree_keeps MatrixCore.staged (fun _ _ _ _ _ => rfl)]

@[simp] theorem MatrixCore.readyBanks_drain (c : MatrixCore) : c.readyBanks.drain = c.drain := by
  simp only [readyBanks, readyFree_keeps MatrixCore.drain (fun _ _ _ _ _ => rfl)]

theorem State.initBanks_eq (s : State) {x : RCtx} (h2 : x.unitOf 0xC2 = none) (h3 : x.unitOf 0xC3 = none) :
    s.initBanks x = s.modCore x.t MatrixCore.readyBanks := by
  simp only [State.initBanks, h2, h3]
  rfl

/-! ### One wavefront (R333, R334) -/

theorem Sparse.get_nonzero (V : Nat → BitVec 48) (n : Nat) : ∀ l : List Nat, l.Pairwise (· < ·) →
    Sparse.get ((l.filter (fun k => decide (V k ≠ 0#48))).map (fun k => (k, V k))) n 0#48 = if n ∈ l then V n else 0#48
  | [], _ => rfl
  | k :: l, h => by
    obtain ⟨hk, hl⟩ := List.pairwise_cons.mp h
    have ih := Sparse.get_nonzero V n l hl
    by_cases hv : V k = 0#48
    · rw [List.filter_cons_of_neg (by simp [hv]), ih]
      by_cases hn : n = k
      · subst hn
        simp [hv]
      · simp [hn]
    · rw [List.filter_cons_of_pos (by simp [hv]), List.map_cons, Sparse.get, ih]
      by_cases hn : n = k
      · simp [hn]
      · have hle : n < k → n ∉ l := fun hlt hm => absurd (hk n hm) (by omega)
        by_cases hlt : n < k
        · simp [hn, hlt, hle hlt, Ne.symm hn]
        · simp [hn, hlt, Ne.symm hn]

theorem getD_map_range {α : Type} (f : Nat → α) (d : α) {i n : Nat} (h : i < n) : ((List.range n).map f).getD i d = f i := by
  simp [List.getD, h]

theorem getD_replicate_of_lt {α : Type} (y d : α) {i n : Nat} (h : i < n) : (List.replicate n y).getD i d = y := by
  rw [List.getD_eq_getElem?_getD, List.getElem?_replicate, if_pos h, Option.getD_some]

/-- Every PE of a bank adds its group sum where none mismatches. -/
theorem Bank.wave_values (k : Bank) (fa fb : Fmt) (a b : List Item) (sa sb : List Byte) {pe : Nat} (h : pe < 4096) :
    (k.wave fa fb a b sa sb []).values.get pe 0#48 =
      (accumulate fa fb (k.values.get pe 0#48) (waveElems fa (kGroup fa fb) a (pe / 64)) (waveElems fb (kGroup fa fb) b (pe % 64))
        (sa.getD (pe / 64) 0x7F#8).toNat (sb.getD (pe % 64) 0x7F#8).toNat).1 := by
  simp only [Bank.wave, List.contains_nil, Bool.false_eq_true, if_false, List.filter_map, List.map_map, Function.comp_def]
  rw [Sparse.get_nonzero _ _ _ List.pairwise_lt_range, if_pos (List.mem_range.mpr h),
    getD_map_range _ _ (by omega), getD_map_range _ _ (by omega)]

@[simp] theorem Bank.touch_values (k : Bank) (items : List Item) : (k.touch items).values = k.values := rfl

theorem mismatches_nil (fa fb : Fmt) (a b : List Item) (sa sb : List Byte) : mismatches fa fb a b sa sb [] = [] := rfl

@[simp] theorem UnitSt.begin_ports (st : UnitSt) (e : UEnv) : (st.begin e).ports = st.ports := by
  unfold UnitSt.begin
  split <;> rfl

theorem State.coreEnv_w (s : State) (x : RCtx) (u : Nat) : (s.coreEnv x u).w = x.image.unit u := by
  simp only [State.coreEnv, State.uenv, UEnv.w]
  split <;> rfl

@[simp] theorem State.modCore_coreEnv (s : State) (t : Fin 192) (f : MatrixCore → MatrixCore) (x : RCtx) (u : Nat) :
    (s.modCore t f).coreEnv x u = s.coreEnv x u := by
  simp only [State.coreEnv, State.uenv, State.modCore_strand]
  rfl

theorem scanPort_append : ∀ (a : List Item) {n : Nat}, a.length = n → (∀ i ∈ a, i.isElem = true) → ∀ r : List Item,
    scanPort n (a ++ r) = (a, (scanPort 0 r).2)
  | [], _, rfl, _, r => by cases r <;> rfl
  | i :: a, _, rfl, h, r => by
    obtain ⟨hi, ha⟩ := List.forall_mem_cons.mp h
    simp [scanPort, hi, scanPort_append a rfl ha r]

theorem Item.not_isMarker_of_isElem {i : Item} (h : i.isElem = true) : i.isMarker = false := by
  simp only [Item.isElem, decide_eq_true_eq] at h
  simp only [Item.isMarker, beq_eq_false_iff_ne]
  omega

theorem mem_of_head?_append {α : Type} {a r : List α} {i : α} (ha : a ≠ []) (h : (a ++ r).head? = some i) : i ∈ a := by
  cases a with
  | nil => exact absurd rfl ha
  | cons j js =>
    cases h
    exact List.mem_cons_self

theorem UnitSt.head_eq_some {st : UnitSt} {adv p : Nat} {i : Item} (h : st.head adv p = some i) : (st.ports.getD p []).head? = some i := by
  unfold UnitSt.head at h
  split at h
  · rename_i j is hq
    rw [hq]
    split at h
    · exact h
    · cases h
  · cases h

/-- Heads that are elements, or not there, break no rule of markers (R98). -/
theorem UnitSt.badMarkers_of_elems {st : UnitSt}
    (h : ∀ p ∈ ([0, 1, 2, 3] : List Nat), ∀ i, (st.ports.getD p []).head? = some i → i.isElem = true) (adv : Nat) :
    st.badMarkers adv = false := by
  unfold UnitSt.badMarkers
  extract_lets ms
  have hms : ms = [] := by
    refine List.filterMap_eq_nil_iff.mpr (fun p hp => ?_)
    split
    · rename_i i hi
      simp [Item.not_isMarker_of_isElem (h p hp i (UnitSt.head_eq_some hi))]
    · rfl
  simp [hms]

@[simp] theorem State.modCore_mem (s : State) (t : Fin 192) (f : MatrixCore → MatrixCore) : (s.modCore t f).mem = s.mem := rfl

@[simp] theorem State.modUnit_core (s : State) (x : RCtx) (u : Nat) (f : UnitSt → UnitSt) (y : Fin 192) :
    ((s.modUnit x u f).tile y).core = (s.tile y).core :=
  s.modStrand_core _ _ _ y

@[simp] theorem State.coreFired_unitAt (s : State) (x y : RCtx) (u : Nat) : (s.coreFired x).unitAt y u = s.unitAt y u := rfl

@[simp] theorem State.coreFired_tile (s : State) (x : RCtx) (t : Fin 192) : (s.coreFired x).tile t = s.tile t := rfl

section Wavefront

variable {s : State} {x : RCtx} {u : Nat} {a b ra rb : List Item}

/-- What a wavefront of unscaled rows that start a group changes where no PE is disturbed: the unit's ports, the load's time of its last
firing, and the core (R334). -/
theorem State.wavefront_eq (hport0 : (s.unitAt x u).ports.getD 0 [] = a ++ ra) (hport1 : (s.unitAt x u).ports.getD 1 [] = b ++ rb)
    (herr : (s.tile x.t).core.peErr = []) (hsa : bitOf (uImm (x.image.unit u)) 4 = false) (hsb : bitOf (uImm (x.image.unit u)) 5 = false) :
    let core := (s.tile x.t).core
    let scales := List.replicate 64 0x7F#8
    ∃ st f, s.wavefront x u a b [] [] true = ((s.modUnit x u (fun _ => st)).coreFired x).modCore x.t f
      ∧ st.ports.getD 0 [] = ra ∧ st.ports.getD 1 [] = rb
      ∧ (f core).block = core.block ∧ (f core).group = core.group + 1 ∧ (f core).opened = true
      ∧ ((f core).bank (oddBlock core.block)).values = ((core.bank (oddBlock core.block)).wave (uFmt (x.image.unit u))
          (fmtOf (uImm (x.image.unit u) % 16)) a b scales scales []).values := by
  simp only [State.wavefront, State.coreEnv_w, hsa, hsb, herr, mismatches_nil, List.foldl_nil, Bool.not_true, Bool.false_eq_true, if_false]
  refine ⟨_, _, rfl, ?_, ?_, ?_, ?_, ?_, ?_⟩
  · simp only [UnitSt.begin_ports, hport0]
    exact List.drop_left
  · simp only [UnitSt.begin_ports, hport1]
    exact List.drop_left
  · simp only [MatrixCore.modBank_block]
  · dsimp only
  · dsimp only
  · cases oddBlock (s.tile x.t).core.block <;>
      simp only [MatrixCore.bank, MatrixCore.modBank, Bool.false_eq_true, if_true, if_false, Bank.touch_values]

/-- mxa takes a wavefront whose rows stand whole on its ports (R334). -/
theorem State.mxaStep_of_rows (hport0 : (s.unitAt x u).ports.getD 0 [] = a ++ ra) (hport1 : (s.unitAt x u).ports.getD 1 [] = b ++ rb)
    (hport2 : (s.unitAt x u).ports.getD 2 [] = []) (hport3 : (s.unitAt x u).ports.getD 3 [] = [])
    (ha : a.length = 16) (hb : b.length = 16) (helem : ∀ i ∈ a ++ b, i.isElem = true)
    (h2 : ¬ 2 ∈ x.image.connected u) (h3 : ¬ 3 ∈ x.image.connected u)
    (hwork : (s.tile x.t).core.mayWork = true) (hgroup : (s.tile x.t).core.group = 0) (hround : (s.unitAt x u).round < (s.coreEnv x u).limit) :
    s.mxaStep x u = some (s.wavefront x u a b [] [] true) := by
  obtain ⟨hea, heb⟩ := List.forall_mem_append.mp helem
  have hmarkers : (s.unitAt x u).badMarkers (s.coreEnv x u).adv = false := by
    refine UnitSt.badMarkers_of_elems (fun p hp i hi => ?_) _
    have hcases : p = 0 ∨ p = 1 ∨ p = 2 ∨ p = 3 := by simpa using hp
    rcases hcases with rfl | rfl | rfl | rfl
    · rw [hport0] at hi
      exact hea i (mem_of_head?_append (List.ne_nil_of_length_eq_add_one ha) hi)
    · rw [hport1] at hi
      exact heb i (mem_of_head?_append (List.ne_nil_of_length_eq_add_one hb) hi)
    · rw [hport2] at hi
      cases hi
    · rw [hport3] at hi
      cases hi
  have hne : a.isEmpty = false := List.isEmpty_eq_false_iff.mpr (List.ne_nil_of_length_eq_add_one ha)
  simp only [State.mxaStep, hport0, hport1, scanPort_append a ha hea, scanPort_append b hb heb, hgroup, hmarkers, hwork]
  simp [h2, h3, hround, ha, hb, hne]

/-- A wavefront of unscaled rows that stand whole on the ports adds their products to every accumulator of the block's bank (R334). -/
theorem State.mxaStep_adds (hport0 : (s.unitAt x u).ports.getD 0 [] = a ++ ra) (hport1 : (s.unitAt x u).ports.getD 1 [] = b ++ rb)
    (hport2 : (s.unitAt x u).ports.getD 2 [] = []) (hport3 : (s.unitAt x u).ports.getD 3 [] = [])
    (ha : a.length = 16) (hb : b.length = 16) (helem : ∀ i ∈ a ++ b, i.isElem = true)
    (h2 : ¬ 2 ∈ x.image.connected u) (h3 : ¬ 3 ∈ x.image.connected u) (hlen : u < ((s.strand x.t x.k).block x.key).length)
    (hwork : (s.tile x.t).core.mayWork = true) (hgroup : (s.tile x.t).core.group = 0) (hround : (s.unitAt x u).round < (s.coreEnv x u).limit)
    (herr : (s.tile x.t).core.peErr = []) (hsa : bitOf (uImm (x.image.unit u)) 4 = false) (hsb : bitOf (uImm (x.image.unit u)) 5 = false) :
    let core := (s.tile x.t).core
    let fa := uFmt (x.image.unit u)
    let fb := fmtOf (uImm (x.image.unit u) % 16)
    ∃ v, s.mxaStep x u = some v ∧ (v.unitAt x u).ports.getD 0 [] = ra ∧ (v.unitAt x u).ports.getD 1 [] = rb
      ∧ (v.tile x.t).core.block = core.block ∧ (v.tile x.t).core.group = 1 ∧ (v.tile x.t).core.opened = true
      ∧ ∀ pe, pe < 4096 → ((v.tile x.t).core.bank (oddBlock core.block)).values.get pe 0#48 =
          (accumulate fa fb ((core.bank (oddBlock core.block)).values.get pe 0#48) (waveElems fa (kGroup fa fb) a (pe / 64))
            (waveElems fb (kGroup fa fb) b (pe % 64)) 127 127).1 := by
  intro core fa fb
  obtain ⟨st, f, hwave, hst0, hst1, hblock, hgroup', hopened, hvalues⟩ := State.wavefront_eq hport0 hport1 herr hsa hsb
  refine ⟨_, (State.mxaStep_of_rows hport0 hport1 hport2 hport3 ha hb helem h2 h3 hwork hgroup hround).trans (congrArg some hwave), ?_⟩
  simp only [State.modCore_unitAt, State.coreFired_unitAt, State.modUnit_unitAt_self s x u _ hlen, State.modCore_core_self,
    State.coreFired_tile, State.modUnit_core]
  refine ⟨hst0, hst1, hblock, by rw [hgroup', hgroup], hopened, fun pe hpe => ?_⟩
  rw [hvalues, Bank.wave_values _ _ _ _ _ _ _ hpe, getD_replicate_of_lt _ _ (by omega), getD_replicate_of_lt _ _ (by omega)]
  rfl

end Wavefront

/-- A region that works has its load running. -/
theorem State.running_of_regionWorks {s : State} {x : RCtx} (h : s.regionWorks x = true) : s.running x.gid = true := by
  simp only [State.regionWorks] at h
  split at h
  · exact (Bool.and_eq_true_iff.mp h).1
  · cases h

/-! ### The drain (R336) -/

/-- The core whose drain has taken a swap token. -/
def MatrixCore.swapTaken (c : MatrixCore) (w : Swap) (rest : List (Swap ⊕ Item)) : MatrixCore :=
  { c.modBank w.bank (fun y => { y with state := .draining }) with staged := rest, swapPending := false, drain := some ⟨0, w⟩ }

theorem MatrixCore.swapTaken_bank (c : MatrixCore) (w : Swap) (rest : List (Swap ⊕ Item)) :
    ((c.swapTaken w rest).bank w.bank).state = .draining :=
  congrArg Bank.state (c.modBank_bank_self w.bank _)

section Drain

variable {s : State} {x : RCtx} {u : Nat}

/-- A row that is not the last leaves all but the unit's tokens and the drain's row as they were, and the load's time of its last firing. -/
theorem State.drainRow_eq {d : Drain} (h : d.row < 63) (s : State) (x : RCtx) (u : Nat) :
    ∃ st, s.drainRow x u d = ((s.coreFired x).modUnit x u (fun _ => st)).modCore x.t
      (fun c => { c with drain := some { d with row := d.row + 1 } }) := by
  simp only [State.drainRow, h, if_true]
  exact ⟨_, rfl⟩

/-- mxd takes a swap token where no initialising unit holds it back (R336, R337). -/
theorem State.mxdStep_swap {w : Swap} {rest : List (Swap ⊕ Item)} (hout : (s.unitAt x u).out = []) (hdrain : (s.tile x.t).core.drain = none)
    (hstaged : (s.tile x.t).core.staged = .inl w :: rest) (h2 : x.unitOf 0xC2 = none) (h3 : x.unitOf 0xC3 = none) :
    s.mxdStep x u = some (s.modCore x.t (fun c => c.swapTaken w rest)) := by
  simp [State.mxdStep, State.bankReady, hout, hdrain, hstaged, h2, h3, MatrixCore.swapTaken]

theorem State.mxdStep_row {d : Drain} (hout : (s.unitAt x u).out = []) (hdrain : (s.tile x.t).core.drain = some d) :
    s.mxdStep x u = some (s.drainRow x u d) := by
  simp [State.mxdStep, hout, hdrain]

end Drain

/-! ### mxa and mxd where no unit initialises banks -/

/-- A step of mxd, where no unit initialises banks, after which the free banks are made ready (R336, R337): the drain, what is staged and
the banks that are not free stay as the step leaves them. -/
theorem execUMxd_step {s : State} {t : Fin 192} {k : Fin 8} {x : RCtx} {u : Nat} {v : State} (hx : s.rctx t k = some x)
    (hu : x.unitOf 0xC1 = some u) (hworks : s.regionWorks x = true) (h2 : x.unitOf 0xC2 = none) (h3 : x.unitOf 0xC3 = none)
    (hstep : s.mxdStep x u = some v) :
    ∃ w, exec (.uMxd t k) s = .next w ∧ w.mem = v.mem ∧ (w.tile x.t).core.drain = (v.tile x.t).core.drain
      ∧ (w.tile x.t).core.staged = (v.tile x.t).core.staged ∧ (w.tile x.t).core.swapPending = (v.tile x.t).core.swapPending
      ∧ ∀ odd, ((v.tile x.t).core.bank odd).state ≠ .free → (w.tile x.t).core.bank odd = (v.tile x.t).core.bank odd := by
  have hexec : exec (.uMxd t k) s = .next (if v.running x.gid then v.modCore x.t MatrixCore.readyBanks else v) := by
    show execUMxd t k s = _
    simp only [execUMxd, hx, hu, hworks, hstep, Option.getD_some, if_true, v.initBanks_eq h2 h3]
  refine ⟨_, hexec, ?_⟩
  split
  · simp only [State.modCore_mem, State.modCore_core_self, MatrixCore.readyBanks_drain, MatrixCore.readyBanks_staged,
      MatrixCore.readyBanks_swapPending, true_and]
    exact fun _ h => MatrixCore.readyBanks_bank _ h
  · exact ⟨rfl, rfl, rfl, rfl, fun _ _ => rfl⟩

/-- mxa, where no unit initialises banks, makes the free ones ready and then takes its step (R334, R337). -/
theorem execUMxa_eq {s : State} {t : Fin 192} {k : Fin 8} {x : RCtx} {u : Nat} {v : State} (hx : s.rctx t k = some x)
    (hu : x.unitOf 0xC0 = some u) (hworks : s.regionWorks x = true) (h2 : x.unitOf 0xC2 = none) (h3 : x.unitOf 0xC3 = none)
    (hstep : (s.modCore x.t MatrixCore.readyBanks).mxaStep x u = some v) : exec (.uMxa t k) s = .next v := by
  show execUMxa t k s = _
  simp only [execUMxa, hx, hu, hworks, s.initBanks_eq h2 h3, State.modCore_running, State.running_of_regionWorks hworks, hstep,
    Option.getD_some, if_true]

/-- Settles O34: the switch by what each of its parts keeps, mxa and mxd by one step of the core after its free banks are ready. -/
theorem contextsSwitchAndTheMatrixCoreWorks : Obligations.ContextsSwitchAndTheMatrixCoreWorks := by
  intro s t k x p hx hp core
  obtain ⟨rfl, rfl⟩ := State.rctx_place hx
  refine ⟨fun c hc hrun => ⟨?_, ?_⟩, ?_, ?_⟩
  · intro hpart hpassed hdrained hreplays hjobs hgood
    have hreplaced : s.replacing x.gid x.t x.k = false := by
      rw [← Bool.not_eq_true, State.replacing_iff]
      rintro ⟨r, y, hr, hy, hplace⟩
      exact hreplays r hr y hy hplace
    obtain ⟨v, hv, hactive, hpend, hfire, hmem, hseq⟩ := execContextSwitch_switches hx hp hc hrun hpart
      (State.markerPassed_of_reconf hpassed) hreplaced hdrained (State.enginesDrained_iff.mpr hjobs) hgood
    exact ⟨v, hv, hactive, hpend, hfire, hmem, hseq⟩
  · intro h
    refine execContextSwitch_waits hx hp hc (h.imp_right (Or.imp (fun hj => ?_) State.replacing_iff.mpr))
    obtain ⟨j, hj, hplace⟩ := hj
    exact Bool.eq_false_iff.mpr (fun hd => State.enginesDrained_iff.mp hd j hj hplace)
  · intro u hu hworks h2 h3 w st fa fb hswap herr hgroup hready hlen hround hno2 hno3 hsa hsb a b ra rb ha hb helem hp0 hp1 hp2 hp3
    have hbank : core.readyBanks.bank (oddBlock core.block) = core.bank (oddBlock core.block) :=
      core.readyBanks_bank (by simp [hready])
    have hcore : ((s.modCore x.t MatrixCore.readyBanks).tile x.t).core = core.readyBanks := s.modCore_core_self x.t _
    obtain ⟨v, hstep, hv0, hv1, hblock, hgroup', hopened, hvalues⟩ := State.mxaStep_adds (s := s.modCore x.t MatrixCore.readyBanks)
      (by simpa using hp0) (by simpa using hp1) (by simpa using hp2) (by simpa using hp3) ha hb helem hno2 hno3 (by simpa using hlen)
      (by simp [hcore, MatrixCore.mayWork, hswap, hbank, hready]) (by simpa [hcore] using hgroup) (by simpa using hround)
      (by simpa [hcore] using herr) hsa hsb
    simp only [hcore, MatrixCore.readyBanks_block, hbank] at hblock hvalues
    exact ⟨v, execUMxa_eq hx hu hworks h2 h3 hstep, hv0, hv1, hblock, hgroup', hopened, hvalues⟩
  · intro u hu hworks h2 h3 hout
    refine ⟨fun w rest hdrain hstaged => ?_, fun d hdrain hrow => ?_⟩
    · obtain ⟨v, hv, hmem, hdrain', hstaged', hswap', hbank'⟩ :=
        execUMxd_step hx hu hworks h2 h3 (State.mxdStep_swap hout hdrain hstaged h2 h3)
      simp only [State.modCore_core_self] at hdrain' hstaged' hswap' hbank'
      have hdraining := core.swapTaken_bank w rest
      have hkept := hbank' w.bank (fun hfree => BankState.noConfusion (hdraining.symm.trans hfree))
      exact ⟨v, hv, hdrain', hstaged', hswap', (congrArg Bank.state hkept).trans hdraining, hmem⟩
    · obtain ⟨st, hrowDone⟩ := State.drainRow_eq hrow s x u
      obtain ⟨v, hv, hmem, hdrain', -⟩ := execUMxd_step hx hu hworks h2 h3 ((State.mxdStep_row hout hdrain).trans (congrArg some hrowDone))
      exact ⟨v, hv, hdrain'.trans (by simp), hmem⟩

end Sys2Proof.Machine
end

section
/-! PROOF. Fences and waits (R161, R244, R269, R273): what each does where no ALU is disturbed. -/

namespace Sys2Proof.Machine

/-! ### Fences (R161, R244, R273) -/

theorem execFence_goesOn {s : State} (h : Undisturbed s) {p o : BitVec 2} (hp : p ≠ 3#2) (ho : o ≠ 0#2) (sc : BitVec 2) :
    exec (.fence p o sc) s = .next (s.jumped (s.me.pc + 4#64)) := by
  have hwf : (Instr.fence p o sc).wf = true := by simp [Instr.wf, hp, ho]
  calc exec (.fence p o sc) s = .next (s.modMe Seq.advance) := seqInstr_undisturbed hwf h p 5 _
    _ = .next (s.jumped (s.me.pc + 4#64)) := congrArg _ (State.modMe_congr _ _ _ rfl)

theorem execFence_unordered {s : State} (h : Undisturbed s) (p sc : BitVec 2) : Traps (.fence p 0#2 sc) s 1 (wordTval (.fence p 0#2 sc)) :=
  ⟨_, seqInstr_illegal (by simp [Instr.wf]) h p 5 _, State.trapMe_entered _ _ _⟩

theorem execIfence_dropsOwn {s : State} (h : Undisturbed s) {p : BitVec 2} (hp : p ≠ 3#2) : exec (.ifence p) s =
    .next (s.modMe (fun q => { q with il1 := q.il1.filter (fun w => !w.own), pc := q.pc + 4#64 })) :=
  seqInstr_undisturbed (by simp [Instr.wf, hp]) h p 4 _

/-! ### Conditions (R185, R269) -/

theorem serialAtLeast_ofNat (v m : Nat) :
    serialAtLeast (BitVec.ofNat 32 v) (BitVec.ofNat 32 m) = true ↔ (v + 2 ^ 32 - m % 2 ^ 32) % 2 ^ 32 < 2 ^ 31 := by
  simp only [serialAtLeast, decide_eq_true_eq, BitVec.toNat_sub, BitVec.toNat_ofNat]
  omega

/-- What each condition code asks of the value read; the serial order is one of words. -/
theorem waitDone_iff {c : BitVec 2} {n : Nat} (hn : c = 3#2 → n = 4) (v y : Nat) : waitDone c n v y = true ↔
    (c = 0#2 ∧ v = y % 2 ^ (8 * n)) ∨ (c = 1#2 ∧ v ≠ y % 2 ^ (8 * n)) ∨ (c = 2#2 ∧ y % 2 ^ (8 * n) ≤ v)
      ∨ (c = 3#2 ∧ (v + 2 ^ 32 - y % 2 ^ 32) % 2 ^ 32 < 2 ^ 31) := by
  obtain rfl | rfl | rfl | rfl := widthCases c
  · simp [waitDone]
  · simp [waitDone]
  · simp [waitDone]
  · obtain rfl := hn rfl
    have hserial := serialAtLeast_ofNat v (y % 2 ^ 32)
    rw [Nat.mod_mod] at hserial
    simpa [waitDone] using hserial

/-! ### Waits (R269) -/

section Wait

variable {i : Instr} {s t : State} {sp : Space} {a b : BitVec 5} {g c : BitVec 2} {n v : Nat}

/-- A sequencer that sleeps has its stall, and nothing else has changed. -/
theorem State.sleepMe_eq (s : State) (i : Instr) (sp : Space) (addr : DWord) :
    ∃ k u, s.sleepMe i sp addr = s.modMe (fun q => { q with stall := some ⟨i, .sleep (addr.toNat / 64) k, u⟩ }) :=
  ⟨_, _, rfl⟩

theorem State.aligned_of_seqLoad {addr : DWord} (h : s.seqLoad sp addr n = (.ok v, t)) : addr.toNat % n = 0 := by
  unfold State.seqLoad at h
  split at h
  · exact SeqEnd.noConfusion (Prod.mk.inj h).1
  · next haligned => exact Decidable.not_not.mp haligned

theorem waitAddrInstr_misaligned (hw : i.wf = true) (h : Undisturbed s) (p : BitVec 2) (hg : spaceOf g = some sp)
    (hne : (s.me.rd a).toNat % n ≠ 0) : waitAddrInstr i p n a b g c s = .next (s.trapMe 2 (s.me.rd a)) := by
  rw [waitAddrInstr, seqInstr_undisturbed hw h]
  simp [hg, hne]

theorem waitAddrInstr_reads (hw : i.wf = true) (h : Undisturbed s) (p : BitVec 2) (hg : spaceOf g = some sp)
    (hpath : s.noPath sp (s.me.rd a) .read = false) (hload : s.seqLoad sp (s.me.rd a) n = (.ok v, t)) :
    waitAddrInstr i p n a b g c s =
      .next (if waitDone c n v (s.me.rd b).toNat then t.passed else t.sleepMe i sp (s.me.rd a)) := by
  rw [waitAddrInstr, seqInstr_undisturbed hw h]
  simp [hg, State.aligned_of_seqLoad hload, hpath, hload, State.nextMe_eq]

/-- A wait whose condition holds goes on; one whose condition does not hold sleeps on its line. -/
theorem waitAddrInstr_waits (hw : i.wf = true) (h : Undisturbed s) (p : BitVec 2) (hg : spaceOf g = some sp)
    (hpath : s.noPath sp (s.me.rd a) .read = false) (hload : s.seqLoad sp (s.me.rd a) n = (.ok v, t)) {ends : Prop}
    (hends : waitDone c n v (s.me.rd b).toNat = true ↔ ends) :
    (ends → waitAddrInstr i p n a b g c s = .next t.passed)
    ∧ (¬ ends → ∃ k u, waitAddrInstr i p n a b g c s =
        .next (t.modMe (fun q => { q with stall := some ⟨i, .sleep ((s.me.rd a).toNat / 64) k, u⟩ }))) := by
  rw [waitAddrInstr_reads hw h p hg hpath hload, ← hends]
  refine ⟨fun hdone => by rw [if_pos hdone], fun hnot => ?_⟩
  obtain ⟨k, u, hsleep⟩ := t.sleepMe_eq i sp (s.me.rd a)
  exact ⟨k, u, by rw [if_neg hnot, hsleep]⟩

end Wait

/-- Settles O21: the fences by their one effect, the waits by their alignment, their read and their condition. -/
theorem fencesAndWaitsGoOn : Obligations.FencesAndWaitsGoOn := by
  refine ⟨fun s p o sc h hp => ⟨fun ho => execFence_goesOn h hp ho sc, ?_, execIfence_dropsOwn h hp⟩, ?_⟩
  · rintro rfl
    exact ⟨_, execFence_unordered h p sc⟩
  · intro s p a b o sc g c h hp ho hg addr space y ends waits
    have hspace : spaceOf g = some space := by rcases hg with rfl | rfl <;> rfl
    have hword : (Instr.waitAddr p a b o sc g c).wf = true := by simp [Instr.wf, hp, ho, hg]
    have hdword (hc : c ≠ 3#2) : (Instr.waitAddrN64 p a b o sc g c).wf = true := by simp [Instr.wf, hp, ho, hg, hc]
    refine ⟨fun v t hpath hload => ?_, fun hc v t hpath hload => ?_, fun hne => ?_, fun hc hne => ?_⟩
    · exact waitAddrInstr_waits hword h p hspace hpath hload (waitDone_iff (fun _ => rfl) v y)
    · exact waitAddrInstr_waits (hdword hc) h p hspace hpath hload (waitDone_iff (fun e => absurd e hc) v y)
    · exact ⟨_, waitAddrInstr_misaligned hword h p hspace hne, State.trapMe_entered _ _ _⟩
    · exact ⟨_, waitAddrInstr_misaligned (hdword hc) h p hspace hne, State.trapMe_entered _ _ _⟩

end Sys2Proof.Machine
end

section
/-! SUPPORT. What commits are made of: sorting by a key (R144), stores that are written, the rounds of a graph, page moves that are begun. -/

namespace Sys2Proof.Machine

/-! ### Sorting by a key -/

section SortByKey

variable {α : Type} (key : α → Nat)

theorem insertBy_perm (x : α) (l : List α) : (insertBy key x l).Perm (x :: l) := by
  induction l with
  | nil => exact .refl _
  | cons y ys ih =>
    unfold insertBy
    split
    · exact .refl _
    · exact (ih.cons y).trans (.swap x y ys)

theorem insertBy_pairwise (x : α) {l : List α} (h : l.Pairwise (fun a b => key a ≤ key b)) :
    (insertBy key x l).Pairwise (fun a b => key a ≤ key b) := by
  induction l with
  | nil => exact List.pairwise_singleton _ x
  | cons y ys ih =>
    obtain ⟨hy, hys⟩ := List.pairwise_cons.mp h
    unfold insertBy
    split
    · next hlt =>
      have hxy := Nat.le_of_lt hlt
      exact List.pairwise_cons.mpr ⟨List.forall_mem_cons.mpr ⟨hxy, fun z hz => Nat.le_trans hxy (hy z hz)⟩, h⟩
    · next hge =>
      refine List.pairwise_cons.mpr ⟨fun z hz => ?_, ih hys⟩
      obtain rfl | hz := List.mem_cons.mp ((insertBy_perm key x ys).mem_iff.mp hz)
      · exact Nat.le_of_not_lt hge
      · exact hy z hz

theorem foldl_insertBy_perm (l acc : List α) : (l.foldl (fun acc x => insertBy key x acc) acc).Perm (l ++ acc) := by
  induction l generalizing acc with
  | nil => exact .refl _
  | cons x xs ih => exact (ih _).trans (((insertBy_perm key x acc).append_left xs).trans List.perm_middle)

theorem sortBy_perm (l : List α) : (sortBy key l).Perm l := by
  unfold sortBy
  exact (foldl_insertBy_perm key l []).trans (.of_eq (List.append_nil l))

theorem sortBy_pairwise (l : List α) : (sortBy key l).Pairwise (fun a b => key a ≤ key b) :=
  List.foldlRecOn (motive := List.Pairwise (fun a b => key a ≤ key b)) _ _ .nil (fun _ hacc x _ => insertBy_pairwise key x hacc)

end SortByKey

/-! ### Stores that are written change no graph -/

@[simp] theorem State.blockForWrite_runs (s : State) (b : Nat) : (s.blockForWrite b).2.runs = s.runs := by
  unfold State.blockForWrite
  split <;> rfl

theorem State.physWriteByte_runs (s : State) (comp : Bool) (a : Nat) (v : Byte) : (s.physWriteByte comp a v).runs = s.runs := by
  unfold State.physWriteByte
  split
  · rfl
  · dsimp only
    split <;> exact s.blockForWrite_runs _

theorem State.physWrite_runs (s : State) (comp : Bool) (a : Nat) (bs : List Byte) : (s.physWrite comp a bs).runs = s.runs := by
  induction bs generalizing s a with
  | nil => rfl
  | cons v vs ih => exact (ih _ _).trans (s.physWriteByte_runs comp a v)

theorem State.storeNow_runs (s : State) (b : BufStore) : (s.storeNow b).runs = s.runs := by
  unfold State.storeNow
  split
  · rfl
  · exact s.physWrite_runs _ _ _

theorem State.foldl_storeNow_runs (s : State) (bs : List BufStore) : (bs.foldl (fun z b => z.storeNow b) s).runs = s.runs :=
  List.foldlRecOn (motive := fun z : State => z.runs = s.runs) _ _ rfl (fun z hz b _ => (z.storeNow_runs b).trans hz)

/-! ### Graphs and their rounds -/

theorem State.run_congr {s v : State} (h : v.runs = s.runs) (g : Word) : v.run g = s.run g := by
  unfold State.run
  rw [h]

theorem State.gid_of_run {s : State} {g : Word} {r : Run} (h : s.run g = some r) : r.gid = g := by
  simpa using List.find?_some h

section Round

variable (r : Run) (n : Nat) (f : RoundInfo → RoundInfo)

@[simp] theorem Run.modRound_gid : (r.modRound n f).gid = r.gid := by
  unfold Run.modRound
  split <;> rfl

@[simp] theorem Run.modRound_oldest : (r.modRound n f).oldest = r.oldest := by
  unfold Run.modRound
  split <;> rfl

/-- A change of a round that keeps its number is read back, whether the round was known before or not. -/
theorem Run.round_modRound (hf : ∀ x, (f x).number = x.number) : (r.modRound n f).round n = f (r.round n) := by
  unfold Run.modRound Run.round
  split
  · next h =>
    have hcomp : ((fun x : RoundInfo => x.number == n) ∘ fun x => if (x.number == n) = true then f x else x) = fun x => x.number == n := by
      funext x
      simp only [Function.comp]
      split <;> simp [hf]
    obtain ⟨x, hx⟩ := Option.isSome_iff_exists.mp (List.find?_isSome.mpr (List.any_eq_true.mp h))
    have hnum : x.number = n := by simpa using List.find?_some hx
    dsimp only
    rw [List.find?_map, hcomp, hx, Option.map_some, if_pos (beq_iff_eq.mpr hnum), Option.getD_some, Option.getD_some]
  · next h =>
    have hnone : r.rounds.find? (fun x => x.number == n) = none := by simpa using h
    simp [List.find?_append, hnone, hf]

end Round

theorem State.modPart_self (s : State) (p : Fin 16) (f : Part → Part) (h : f (s.part p) = s.part p) : s.modPart p f = s := by
  have e : s.parts.set (p : Nat) (f s.parts[(p : Nat)]) = s.parts := by
    rw [show f s.parts[(p : Nat)] = s.parts[(p : Nat)] from h]
    exact Vector.set_getElem_self _
  exact congrArg (fun x => { s with parts := x }) e

/-! ### A commit that waits (R138, R139) -/

/-- A state that differs in its page moves only. -/
def State.MovesOnly (s v : State) : Prop := ∃ ms, v = { s with moves := ms }

theorem State.MovesOnly.trans {s v w : State} (h : s.MovesOnly v) (h' : v.MovesOnly w) : s.MovesOnly w := by
  obtain ⟨ms, rfl⟩ := h
  obtain ⟨ms', rfl⟩ := h'
  exact ⟨ms', rfl⟩

theorem State.movesOnly_holdPhys (s : State) (pa n : Nat) : s.MovesOnly (s.holdPhys pa n) := ⟨_, rfl⟩

theorem State.movesOnly_holdWrite (s : State) (g : Agent) (va : Nat) : s.MovesOnly (s.holdWrite g va) := by
  unfold State.holdWrite
  split
  · exact ⟨s.moves, rfl⟩
  · split
    · exact ⟨s.moves, rfl⟩
    · exact ⟨_, rfl⟩

/-- A commit that waits starts page moves and does nothing else. -/
theorem State.movesOnly_holdCommit (s : State) (r : Run) : s.MovesOnly (s.holdCommit r) := by
  have hlines (bs : List BufStore) : s.MovesOnly (bs.foldl (fun v b => v.holdPhys b.address b.bytes.length) s) :=
    List.foldlRecOn (motive := s.MovesOnly) _ _ ⟨s.moves, rfl⟩ (fun v hv b _ => hv.trans (v.movesOnly_holdPhys _ _))
  unfold State.holdCommit
  dsimp only
  split
  · exact hlines _
  · exact (hlines _).trans (State.movesOnly_holdWrite _ _ _)

end Sys2Proof.Machine
end

section
/-! PROOF. Rounds that commit (R144, R146, R147, R150, R157): what a commit and an overflowed round write, and what keeps a round from
committing. -/

namespace Sys2Proof.Machine

/-! ### A commit (R146, R147, R157) -/

theorem Run.mem_commitOrder {r : Run} {n : Nat} {b : BufStore} : b ∈ r.commitOrder n ↔ b ∈ r.stores ∧ b.round = n := by
  rw [Run.commitOrder, (sortBy_perm _ _).mem_iff, List.mem_filter, beq_iff_eq]

section Commit

variable {s w : State} {g : Word} {r : Run} {m : Fin 192}

theorem execRoundCommit_eq (hr : s.run g = some r) : exec (.roundCommit g) s =
    .next (if !s.mayCommit r then s else if s.commitHeld r then s.holdCommit r else s.commit r) := by
  show execRoundCommit g s = _
  simp only [execRoundCommit, hr]

/-- What keeps the oldest round from committing (R146, R150, R157). -/
theorem State.mayCommit_false (h : (r.round r.oldest).tags ≠ []
    ∨ ((r.round r.oldest).overflowed = true ∧ (r.round r.oldest).writing = false) ∨ r.freeze = some .kill
    ∨ (∃ b ∈ r.stores, b.round = r.oldest ∧ b.origin.isSome = true)) : s.mayCommit r = false := by
  rcases h with htags | ⟨hover, hwriting⟩ | hkill | ⟨b, hb, hround, horigin⟩
  · simp [State.mayCommit, htags]
  · simp [State.mayCommit, hover, hwriting]
  · simp [State.mayCommit, hkill]
  · have hstores : r.stores.any (fun b => b.round == r.oldest && b.origin.isSome) = true :=
      List.any_eq_true.mpr ⟨b, hb, by simp [hround, horigin]⟩
    simp [State.mayCommit, hstores]

/-- A graph whose oldest round has committed. -/
def Run.committed (n : Nat) (info : RoundInfo) (x : Run) : Run :=
  { x with
    oldest := n + 1, lastCommitted := some n
    stores := x.stores.filter (fun b => b.round != n)
    launches := x.launches.filter (fun l => l.round != n)
    streams := x.streams.map (fun y => { y with sent := y.sent.filter (fun z => n < z.1) })
    flags := if info.reported then x.flags ||| info.flags else x.flags }

/-- Where the round has no error, no launch and no later round that its lines could hit, a commit writes the stores and the word. -/
theorem State.commit_writes (hbad : (r.round r.oldest).bad = none)
    (hword : ((r.commitOrder r.oldest).foldl (fun z b => z.storeNow b) s).writeRoundWord r (r.oldest + 1) = (true, w))
    (hlaunches : ∀ l ∈ r.launches, l.round ≠ r.oldest) (hreads : ∀ x ∈ r.rounds, r.oldest < x.number → x.reads = [])
    (happends : (w.part (partOf r.part)).appends = []) :
    s.commit r = w.modRun r.gid (Run.committed r.oldest (r.round r.oldest)) := by
  have hmine : r.launches.filter (fun l => l.round == r.oldest) = [] := by simpa using hlaunches
  have hhit (lines : List (Fin 2048)) : (r.rounds.filter (fun x => r.oldest < x.number)).filter (fun x =>
      x.reads.any (fun y => lines.contains (Config.signatureHash y.2))) = [] := by
    rw [List.filter_eq_nil_iff]
    intro x hx
    obtain ⟨hx, hlater⟩ := List.mem_filter.mp hx
    simp [hreads x hx (of_decide_eq_true hlater)]
  have hpart (v : State) : v.modPart (partOf r.part) (fun x => { x with appends := x.appends ++ [] }) = v :=
    v.modPart_self _ _ (by simp)
  simp only [State.commit, hbad, hword, hmine, hhit, List.map_nil, minBy, hpart]
  rw [show ((w.modRun r.gid _).part (partOf r.part)).appends = [] from happends]
  rfl

/-! ### An overflowed round (R150) -/

/-- A graph whose round writes what it has buffered, but for tagged data (R150, R375). -/
def Run.overflowing (n : Nat) (clean : List BufStore) (x : Run) : Run :=
  { x.modRound n (fun y => { y with writing := true, wrote := y.wrote ++ clean.map BufStore.signLine }) with
    stores := x.stores.filter (fun b => b.round != n || b.origin.isSome) }

theorem execRoundOverflow_writes (hr : s.run g = some r) (hover : (r.round r.oldest).overflowed = true)
    (hwriting : (r.round r.oldest).writing = false) (hworks : r.works = true) (hheld : s.commitHeld r = false)
    (hfull : (r.round r.oldest).overTile = some m.val ∨ 4096 ≤ (r.linesOf r.oldest m.val).length) :
    let clean := (r.commitOrder r.oldest).filter (fun b => b.origin.isNone)
    exec (.roundOverflow g m) s =
      .next ((clean.foldl (fun z b => z.storeNow b) s).modRun g (Run.overflowing r.oldest clean)) := by
  have hat : ((r.round r.oldest).overTile == some m.val || decide (4096 ≤ (r.linesOf r.oldest m.val).length)
      || decide (4096 ≤ s.linesUsed m.val)) = true := by
    rcases hfull with h | h <;> simp [h]
  show execRoundOverflow g m s = _
  simp only [execRoundOverflow, hr, hover, hwriting, hworks, hheld, hat]
  rfl

theorem execRoundOverflow_waits (hr : s.run g = some r)
    (h : (r.round r.oldest).overflowed = false ∨ (r.round r.oldest).writing = true ∨ r.works = false) :
    exec (.roundOverflow g m) s = .next s := by
  show execRoundOverflow g m s = _
  simp only [execRoundOverflow, hr]
  rcases h with h | h | h <;> simp [h]

theorem Run.overflowing_gid (n : Nat) (clean : List BufStore) (x : Run) : (x.overflowing n clean).gid = x.gid := x.modRound_gid n _

theorem Run.overflowing_round (n : Nat) (clean : List BufStore) (x : Run) :
    (x.overflowing n clean).round n = { x.round n with writing := true, wrote := (x.round n).wrote ++ clean.map BufStore.signLine } :=
  x.round_modRound n _ (fun _ => rfl)

end Commit

/-- Settles O31: the commit and the overflow by what each writes, the waits by what each leaves as it was. -/
theorem roundsCommitInOrder : Obligations.RoundsCommitInOrder := by
  intro s g r m hr n info stored
  refine ⟨⟨fun b => Run.mem_commitOrder, sortBy_pairwise _ _⟩, ?_, ?_, ?_, ?_, ?_, execRoundOverflow_waits hr⟩
  · intro w hword hmay hheld hbad hlaunches happends hreads
    obtain rfl := State.gid_of_run hr
    simp only [execRoundCommit_eq hr, hmay, hheld, State.commit_writes hbad hword hlaunches hreads happends]
    rfl
  · intro hmay hheld
    obtain ⟨ms, hmoves⟩ := s.movesOnly_holdCommit r
    refine ⟨s.holdCommit r, ?_, ?_⟩
    · simp [execRoundCommit_eq hr, hmay, hheld]
    · rw [hmoves]
      exact ⟨rfl, rfl, rfl⟩
  · exact fun hargs => if_pos hargs
  · intro h
    simp [execRoundCommit_eq hr, State.mayCommit_false h]
  · intro hover hwriting hworks hheld hfull clean
    have hrun : clean.run g = some r := (State.run_congr (s.foldl_storeNow_runs _) g).trans hr
    refine ⟨_, r.overflowing n ((r.commitOrder n).filter (fun b => b.origin.isNone)),
      execRoundOverflow_writes hr hover hwriting hworks hheld hfull, rfl, rfl, rfl, ?_, ?_, ?_, fun b => ?_⟩
    · rw [State.modRun_run _ _ _ (Run.overflowing_gid _ _)]
      exact congrArg _ hrun
    · rw [Run.overflowing_round]
    · exact r.modRound_oldest _ _
    · simp [Run.overflowing]

end Sys2Proof.Machine
end

section
/-! SUPPORT. Reading back a unit after an update of another unit, after its replies have landed, and after words have gone to a FIFO. -/

namespace Sys2Proof.Machine

/-! ### Reading back a unit whose replies have landed (R305) -/

theorem modifyAt_getD_ne {α : Type} (d : α) (f : α → α) : ∀ (l : List α) {n m : Nat}, n ≠ m → (modifyAt l n f).getD m d = l.getD m d
  | [], _, _, _ => rfl
  | _ :: _, 0, 0, h => absurd rfl h
  | _ :: _, 0, _ + 1, _ => rfl
  | _ :: _, _ + 1, 0, _ => rfl
  | _ :: xs, n + 1, m + 1, h => by
    simpa [modifyAt] using modifyAt_getD_ne d f xs (fun e => h (congrArg (· + 1) e))

theorem State.modUnit_unitAt_ne (s : State) (x : RCtx) {u v : Nat} (f : UnitSt → UnitSt) (h : v ≠ u) :
    (s.modUnit x v f).unitAt x u = s.unitAt x u := by
  simp only [State.modUnit, State.unitAt, State.modStrand_strand_self, Strand.setBlock_block, modifyAt_getD_ne _ f _ h]

@[simp] theorem modifyAt_length {α : Type} (f : α → α) : ∀ (l : List α) (n : Nat), (modifyAt l n f).length = l.length
  | [], _ => rfl
  | _ :: _, 0 => rfl
  | _ :: xs, n + 1 => congrArg (· + 1) (modifyAt_length f xs n)

theorem State.modUnit_block_length (s : State) (x : RCtx) (u : Nat) (f : UnitSt → UnitSt) :
    (((s.modUnit x u f).strand x.t x.k).block x.key).length = ((s.strand x.t x.k).block x.key).length := by
  simp [State.modUnit, Strand.setBlock_block]

theorem Image.ne_of_mem_sparesOf {i : Image} {u v : Nat} (h : v ∈ i.sparesOf u) : v ≠ u := by
  unfold Image.sparesOf at h
  split at h
  · simpa using (List.mem_filter.mp h).2
  · cases h

/-- The spare copies that follow a unit are other units. -/
theorem State.mirror_unitAt (s : State) (x : RCtx) (u : Nat) (old : UnitSt) (taken : List (Nat × Nat)) :
    (s.mirror x u old taken).unitAt x u = s.unitAt x u :=
  List.foldlRecOn (motive := fun v : State => v.unitAt x u = s.unitAt x u) _ _ rfl
    (fun v hv _ hw => (v.modUnit_unitAt_ne x _ (Image.ne_of_mem_sparesOf hw)).trans hv)

theorem UnitSt.spoilReply_calm {old new : UnitSt} (hup : new.upset = []) (hdrop : new.dropped = []) : old.spoilReply new = new := by
  simp [UnitSt.spoilReply, hup, hdrop]

/-- Replies that land on a unit that the world has not upset stand as they came. -/
theorem State.replied_unitAt {s : State} {x : RCtx} {u : Nat} (hu : u < ((s.strand x.t x.k).block x.key).length)
    (hup : (s.unitAt x u).upset = []) (hdrop : (s.unitAt x u).dropped = []) (old : UnitSt) (taken : List (Nat × Nat)) :
    (s.replied x u old taken).unitAt x u = s.unitAt x u := by
  unfold State.replied
  split
  · exact s.mirror_unitAt x u old taken
  · rw [State.modUnit_unitAt_self s x u _ hu, UnitSt.spoilReply_calm hup hdrop]

theorem State.fifoLay_tiles (s : State) (g : Word) (f : Fifo) (first upTo : Nat) : (s.fifoLay g f first upTo).tiles = s.tiles :=
  List.foldlRecOn (motive := fun v : State => v.tiles = s.tiles) _ _ rfl (fun _ hv _ _ => hv)

/-- An elastic buffer whose threshold is 0 does not compress (R418). -/
theorem packQueue_zero (is : List Item) : packQueue 0 is = is := by
  simp [packQueue]

theorem State.menv_w (s : State) (x : RCtx) (n : Nat) : (s.menv x n).e.w = x.image.unit n := s.coreEnv_w x n

end Sys2Proof.Machine
end

section
/-! PROOF. The refutation of the statement about suppliers, replies and replacements (R303, R466): a FIFO-mode load reads the slots of its
FIFO for elements only, and passes a stop or a marker as the FIFO holds it. -/

namespace Sys2Proof.Machine

/-! ### Punctuation at the head of a FIFO (R466) -/

/-- The state with the FIFO f without its head i: what was in the spill area has taken the slots that the head frees (R120). -/
def MEnv.takeHead (m : MEnv) (s : State) (p : Place) (f : Fifo) (i : Item) (rest : List Item) : State :=
  let f1 : Fifo := { f with items := rest }
  (m.modFifo s p (fun _ => f1)).fifoLay m.gid f1 (f.extent - i.words.length) f1.count

theorem MEnv.takeHead_tiles (m : MEnv) (s : State) (p : Place) (f : Fifo) (i : Item) (rest : List Item) :
    (m.takeHead s p f i rest).tiles = s.tiles := State.fifoLay_tiles _ _ _ _ _

/-- A load to whose edge an item has gone that is no element. -/
def UnitSt.passing (st : UnitSt) (thresh : Nat) (i : Item) : UnitSt :=
  { st with reply := packQueue thresh (st.reply ++ [i]), seq := if i.isMarker then 0 else st.seq }

section Punctuation

variable {s : State} {t : Fin 192} {k : Fin 8} {u : BitVec 7} {x : RCtx} {r : Run} {p : Place} {f : Fifo} {i : Item} {rest : List Item}
  (hx : s.rctx t k = some x) (hr : s.run x.gid = some r) (hrun : s.running x.gid = true)
  (hu : u.toNat < ((s.strand t k).block x.key).length) (hp : (s.menv x u.toNat).place s = some p)
  (hload : r.fifoUnit x.image u.toNat = true) (hspare : x.image.spare u.toNat = false) (hmode : uPmode (x.image.unit u.toNat) = 0)
  (hf : r.fifos.find? (isFifoOf p) = some f) (hitems : f.items = i :: rest) (hi : i.isElem = false)
  (hroom : i.words.length ≤ supplyRoom x.image u.toNat (s.unitAt x u.toNat) i.words.length)

include hx hr hrun hu hp hload hspare hmode hf hitems hi hroom

theorem execFifoModeLoad_of_not_elem :
    exec (.fifoModeLoad t k u) s = .next ((((s.menv x u.toNat).takeHead s p f i rest).modUnit x u.toNat
      (fun _ => (s.unitAt x u.toNat).passing (bwThresh (x.image.bind u.toNat)) i)).replied x u.toNat (s.unitAt x u.toNat) []) := by
  show execFifoModeLoad t k u s = _
  simp only [execFifoModeLoad, hx, hr, hp, hrun, hu, hload, hspare, hf, hitems, s.menv_w, hmode, Nat.not_lt.mpr hroom, hi, decide_true,
    Bool.not_false, Bool.and_self, if_true, if_false, Bool.and_false, Bool.false_eq_true]
  rfl

/-- A FIFO-mode load gives the head of its FIFO, where that is no element, as the FIFO holds it, whatever its slots hold. -/
theorem execFifoModeLoad_punctuation (hup : (s.unitAt x u.toNat).upset = []) (hdrop : (s.unitAt x u.toNat).dropped = []) :
    ∃ v, exec (.fifoModeLoad t k u) s = .next v
      ∧ (v.unitAt x u.toNat).reply = packQueue (bwThresh (x.image.bind u.toNat)) ((s.unitAt x u.toNat).reply ++ [i]) := by
  refine ⟨_, execFifoModeLoad_of_not_elem hx hr hrun hu hp hload hspare hmode hf hitems hi hroom, ?_⟩
  obtain ⟨rfl, rfl⟩ := State.rctx_place hx
  have hblock : (((s.menv x u.toNat).takeHead s p f i rest).strand x.t x.k).block x.key = (s.strand x.t x.k).block x.key := by
    simp only [State.strand, State.tile, MEnv.takeHead_tiles]
  have hunit := ((s.menv x u.toNat).takeHead s p f i rest).modUnit_unitAt_self x u.toNat
    (fun _ => (s.unitAt x u.toNat).passing (bwThresh (x.image.bind u.toNat)) i) (hblock ▸ hu)
  rw [State.replied_unitAt (by rwa [State.modUnit_block_length, hblock]) (by rwa [hunit]) (by rwa [hunit]), hunit]
  rfl

end Punctuation

/-! ### A load whose FIFO holds a marker of which the slot holds other bytes -/

/-- A graph of one strand on one compute tile, whose AG word 0 is a FIFO of one word. -/
def punctGraph : Graph where
  native := Bool.true
  depth := 2
  loads := 1
  compute := [⟨0, 0, 0⟩]
  memory := []
  strands := []
  streams := []
  ags := [BitVec.ofNat 256 (2 ^ 252)]
  entries := [none]
  data := []
  emulated := []
  inits := []
  images := []
  parsed := []
  nia := 0

/-- The placement of the load's end of that FIFO, on memory tile 0. -/
def punctPlace : Place := ⟨0, 0, 0, 64, 0, BitVec.ofNat 256 (2 ^ 252), 0, 0, [], [], [], false, []⟩

/-- The FIFO, which holds the marker of round 1. -/
def punctFifo : Fifo := { mtile := 0, base := 0, extent := 1, items := [markerItem 0 1#32], written := 1 }

/-- That graph running on compute tile 0. -/
def punctRun : Run :=
  { newRun 0 0 0 7#32 1#16 ⟨0#32, 0#8, 0#8, 1#16, 0#64, 0#64, 0#64, 0#32, 0#32, 0#64, 0#64, 0#32, 0#32⟩ 0 0 0 none punctGraph
      ⟨0, [(0, 0)], []⟩ 0 with
    places := [punctPlace], fifos := [punctFifo] }

/-- A block of one unit, a scratch-mode load of AG word 0. -/
def punctImage : Image where
  header := 0#128
  units := [BitVec.ofNat 64 (0xA0 * 2 ^ 54)]
  bindHeader := 0#128
  binds := []
  gports := []
  routes := []

/-- The block as strand 0 of tile 0 runs it. -/
def punctCtx : RCtx := ⟨7#32, 0, 0, 0, 64, punctImage⟩

/-- The graph runs with a window on memory tile 0; the word in the marker's slot is 0, as its sequencer may leave it by a store to the
window. -/
def punctState : State :=
  { (State.reset.modTile 0 (fun x => { x with
      ctxs := x.ctxs.set 0 { image := some punctImage }
      strands := x.strands.set 0 { active := some 0, units := [(64, [{}])] } })).modMTile 0
        (fun m => { m with windows := [⟨7#32, 0, 0x10000⟩] }) with
    runs := [punctRun] }

/-- The hypotheses of the FIFO's clause hold of this state: the load works and has room, and no slot of the FIFO is bad. -/
theorem punctState_ready :
    punctState.running punctCtx.gid = true ∧ 0 < ((punctState.strand 0 0).block punctCtx.key).length
    ∧ (punctState.menv punctCtx 0).place punctState = some punctPlace ∧ punctState.unitAt punctCtx 0 = {}
    ∧ 1 ≤ supplyRoom punctImage 0 {} 1 ∧ punctState.padBad 0 (punctState.fifoByte punctCtx.gid punctFifo 0) 4 = false := by
  decide +kernel

/-- The slot holds another word than the marker. -/
theorem punctState_slot : leNat (punctState.padBytes 0 (punctState.fifoByte punctCtx.gid punctFifo 0) 4) = 0 := by
  decide +kernel

/-- Refutes O35: the words of the FIFO's next item are not always those of its slots. An item that is no element is given as the FIFO
holds it, so a marker of round 1 whose slot holds 0 keeps its payload 1. -/
theorem not_suppliersRepliesAndReplacements : ¬ Obligations.SuppliersRepliesAndReplacements := by
  intro h
  obtain ⟨hrun, hu, hp, hunit, hroom, hpad⟩ := punctState_ready
  have hx : punctState.rctx 0 0 = some punctCtx := rfl
  have hr : punctState.run punctCtx.gid = some punctRun := rfl
  have hup : (punctState.unitAt punctCtx 0).upset = [] := by rw [hunit]
  have hdrop : (punctState.unitAt punctCtx 0).dropped = [] := by rw [hunit]
  have hfits : 1 ≤ supplyRoom punctImage 0 (punctState.unitAt punctCtx 0) 1 := by rwa [hunit]
  obtain ⟨v, hexec, hgives⟩ := execFifoModeLoad_punctuation (u := 0#7) hx hr hrun hu hp rfl rfl rfl rfl rfl rfl hfits hup hdrop
  obtain ⟨hsuppliers, -⟩ := h
  obtain ⟨-, hfifo, -⟩ := hsuppliers punctState 0 0 0#7 punctCtx punctRun hx hr hrun Nat.zero_lt_one hu
  obtain ⟨w, y, j, hstep, hreply, -, -, -, hwords, -⟩ :=
    (hfifo punctPlace punctFifo (markerItem 0 1#32) [] hp rfl rfl hup hdrop rfl rfl rfl).1 hfits
      (fun n hn => (Nat.lt_one_iff.mp hn : n = 0) ▸ hpad)
  obtain rfl : v = w := Host.Outcome.next.inj (hexec.symm.trans hstep)
  have hqueue : packQueue 0 ((punctState.unitAt punctCtx 0).reply ++ [markerItem 0 1#32])
      = packQueue 0 ((punctState.unitAt punctCtx 0).reply ++ [j]) := hgives.symm.trans hreply
  obtain rfl : markerItem 0 1#32 = j := by simpa [packQueue_zero] using hqueue
  have hword : (1#32 : Word) = BitVec.ofNat 32 (leNat (punctState.padBytes 0 (punctState.fifoByte punctCtx.gid punctFifo 0) 4)) :=
    hwords 0 Nat.zero_lt_one
  rw [punctState_slot] at hword
  exact absurd hword (by decide)

end Sys2Proof.Machine
end

section
/-! SUPPORT. Partitions and queues read back after a change, and fields and bits of words. -/

namespace Sys2Proof.Machine

/-! ### Changes of a partition and of a queue -/

/-- Two changes that agree on the partition as it stands are one. -/
theorem State.modPart_congr (s : State) (p : Fin 16) {f g : Part → Part} (h : f (s.part p) = g (s.part p)) : s.modPart p f = s.modPart p g :=
  congrArg (fun x => { s with parts := s.parts.set p x }) h

/-- Two changes that agree on the queue as it stands are one. -/
theorem State.modQueue_congr (s : State) (p : Fin 16) (q : Fin 64) {f g : Queue → Queue}
    (h : f (s.part p).queues[q] = g (s.part p).queues[q]) : s.modQueue p q f = s.modQueue p q g :=
  s.modPart_congr p (congrArg (fun x => { s.part p with queues := (s.part p).queues.set q x }) h)

theorem State.modQueue_self (s : State) (p : Fin 16) (q : Fin 64) {f : Queue → Queue} (h : f (s.part p).queues[q] = (s.part p).queues[q]) :
    s.modQueue p q f = s := by
  refine s.modPart_self p _ ?_
  rw [h]
  exact congrArg (fun x => { s.part p with queues := x }) (Vector.set_getElem_self _)

theorem State.modQueue_part_self (s : State) (p : Fin 16) (q : Fin 64) (f : Queue → Queue) :
    (s.modQueue p q f).part p = { s.part p with queues := (s.part p).queues.set q (f (s.part p).queues[q]) } :=
  s.modPart_part_self p _

/-! ### Fields and bits -/

theorem bitOf_toNat {n : Nat} (x : BitVec n) (i : Nat) : bitOf x.toNat i = x.getLsbD i := by
  rw [BitVec.getLsbD, Nat.testBit_eq_decide_div_mod_eq]
  rfl

/-- Shift counts of the almanac: the five low bits of a register (R365). -/
theorem field_low5 (x : Word) : field x 4 0 = x.toNat % 32 := by
  simp [field, bitsOf]

theorem trailingZeros_eq_findIdx (n x : Nat) : trailingZeros n x = (List.range n).findIdx (bitOf x) := by
  have hle := List.findIdx_le_length (p := bitOf x) (xs := List.range n)
  simp only [trailingZeros, List.takeWhile_eq_take_findIdx_not, Bool.not_not, List.length_take]
  exact Nat.min_eq_left hle

theorem trailingZeros_le (n x : Nat) : trailingZeros n x ≤ n := by
  simpa [trailingZeros_eq_findIdx] using List.findIdx_le_length (p := bitOf x) (xs := List.range n)

theorem bitOf_of_lt_trailingZeros {n x k : Nat} (h : k < trailingZeros n x) : bitOf x k = false := by
  rw [trailingZeros_eq_findIdx] at h
  simpa using List.not_of_lt_findIdx h

theorem bitOf_trailingZeros {n x : Nat} (h : trailingZeros n x < n) : bitOf x (trailingZeros n x) = true := by
  rw [trailingZeros_eq_findIdx] at h ⊢
  simpa using List.findIdx_getElem (w := Nat.lt_of_lt_of_eq h List.length_range.symm)

end Sys2Proof.Machine
end

section
/-! PROOF. Almanac code (R356, R357, R361, R365, R366): arithmetic, control flow, view reads and end, in terms of the invocation that
executes. -/

namespace Sys2Proof.Machine

/-! ### The shape of an almanac instruction (R361) -/

section Running

variable {s : State} {v : Invocation} {i : Instr} {n : Nat} {d : BitVec 3}

theorem State.modInv_eq (hv : s.invocation = some v) (f : Invocation → Invocation) : s.modInv f = s.withInv (f v) :=
  s.modPart_congr s.curPart (congrArg (fun x => { s.part s.curPart with inv := x }) (by rw [show (s.part s.curPart).inv = some v from hv]; rfl))

theorem almInstr_eq (hw : i.wf = true) (hv : s.invocation = some v) (f : Invocation → Invocation) :
    almInstr i f s = .next (s.withInv (f v)) := by
  rw [almInstr, if_pos hw, State.modInv_eq hv]

/-- An instruction that writes a register, by what the value written meets. -/
theorem almWrite_gives {value : Invocation → Word} {ok : Word → Prop} (hexec : exec i s = almWrite i n d value s) (hw : i.wf = true)
    (hv : s.invocation = some v) (hok : ok (value v)) : ∃ r, exec i s = .next (s.withInv (v.wrote d n r)) ∧ ok r :=
  ⟨value v, hexec.trans (almInstr_eq hw hv _), hok⟩

/-- A view read, by the value that it writes. -/
theorem viewInstr_views {value : Invocation → Word} {r : Word} (hexec : exec i s = viewInstr i d value s) (hw : i.wf = true)
    (hv : s.invocation = some v) (hr : value v = r) : Views i s v d r :=
  ⟨Config.freeNat s.free, by rw [hexec, viewInstr, almInstr_eq hw (s := { s with free := s.free + 1 }) hv, hr]; rfl⟩

end Running

/-! ### Arithmetic and control flow (R365) -/

section Values

variable (x y : Word)

theorem toNat_word_sub : (x - y).toNat = (x.toNat + 2 ^ 32 - y.toNat) % 2 ^ 32 := by
  have := y.isLt
  rw [BitVec.toNat_sub]
  omega

theorem toNat_shl_field : (x <<< field y 4 0).toNat = x.toNat * 2 ^ (y.toNat % 32) % 2 ^ 32 := by
  rw [field_low5, BitVec.toNat_shiftLeft, Nat.shiftLeft_eq]

theorem toNat_shr_field : (x >>> field y 4 0).toNat = x.toNat / 2 ^ (y.toNat % 32) % 2 ^ 32 := by
  rw [field_low5, BitVec.toNat_ushiftRight, Nat.shiftRight_eq_div_pow]
  exact (Nat.mod_eq_of_lt (Nat.lt_of_le_of_lt (Nat.div_le_self _ _) x.isLt)).symm

theorem toNat_word_min : (if x.toNat ≤ y.toNat then x else y).toNat = min x.toNat y.toNat % 2 ^ 32 := by
  rw [Nat.mod_eq_of_lt (Nat.lt_of_le_of_lt (Nat.min_le_left _ _) x.isLt), Nat.min_def]
  exact apply_ite BitVec.toNat _ _ _

theorem toNat_word_max : (if x.toNat ≤ y.toNat then y else x).toNat = max x.toNat y.toNat % 2 ^ 32 := by
  rw [Nat.mod_eq_of_lt (Nat.max_lt.mpr ⟨x.isLt, y.isLt⟩), Nat.max_def]
  exact apply_ite BitVec.toNat _ _ _

theorem toNat_word_ite (c : Prop) [Decidable c] : (if c then 1#32 else 0#32).toNat = (if c then 1 else 0) % 2 ^ 32 := by
  split <;> rfl

theorem toNat_add_signExtend (h : Half) : ((x + h.signExtend 32).toNat : Int) = ((x.toNat : Int) + h.toInt) % 2 ^ 32 := by
  have hext : (h.signExtend 32).toInt = h.toInt := BitVec.toInt_signExtend_of_le (by decide)
  rw [← hext, BitVec.toNat_add, BitVec.toInt_eq_toNat_cond]
  omega

theorem toNat_upperHalf (h : Half) : (h ++ x.extractLsb' 0 16).toNat = (h.toNat * 2 ^ 16 + x.toNat % 2 ^ 16) % 2 ^ 32 := by
  have := h.isLt
  rw [BitVec.toNat_append, BitVec.extractLsb'_toNat, Nat.shiftRight_zero, ← Nat.shiftLeft_add_eq_or_of_lt (Nat.mod_lt _ (Nat.two_pow_pos 16)),
    Nat.shiftLeft_eq]
  exact (Nat.mod_eq_of_lt (by omega)).symm

theorem toNat_popCount : (BitVec.ofNat 32 (popCount 32 x.toNat)).toNat = ((List.range 32).filter (fun k => x.getLsbD k)).length % 2 ^ 32 := by
  simp only [popCount, bitOf_toNat, BitVec.toNat_ofNat]

/-- No bit below the number of trailing zeros is set, and the one that it numbers is, where there is one. -/
theorem trailingZeros_lowest : (BitVec.ofNat 32 (trailingZeros 32 x.toNat)).toNat ≤ 32
    ∧ (∀ k, k < (BitVec.ofNat 32 (trailingZeros 32 x.toNat)).toNat → x.getLsbD k = false)
    ∧ ((BitVec.ofNat 32 (trailingZeros 32 x.toNat)).toNat < 32 → x.getLsbD (BitVec.ofNat 32 (trailingZeros 32 x.toNat)).toNat = true) := by
  have hle := trailingZeros_le 32 x.toNat
  rw [BitVec.toNat_ofNat, Nat.mod_eq_of_lt (by omega)]
  exact ⟨hle, fun k hk => bitOf_toNat x k ▸ bitOf_of_lt_trailingZeros hk, fun h => bitOf_toNat x _ ▸ bitOf_trailingZeros h⟩

end Values

/-- A loop ends with the branch that leaves its body (R365). -/
theorem Invocation.branch_eq (v : Invocation) (o : BitVec 7) : v.branch o =
    { v with pc := v.pc + 1 + o.toNat, cycles := v.cycles + 1
             loops := v.loops.filter (fun l => decide (l.1 ≤ v.pc + 1 + o.toNat ∧ v.pc + 1 + o.toNat < l.2.1)) } := by
  simp only [Invocation.branch, Bool.decide_and]

/-- endl with a loop open. -/
theorem execAlmEndl_open {s : State} {v : Invocation} (hv : s.invocation = some v) {start after n : Nat} {rest : List (Nat × Nat × Nat)}
    (hl : v.loops = (start, after, n) :: rest) : exec .almEndl s = .next (s.withInv (if n = 0 then { v.advance 1 with loops := rest }
      else { v.advance 1 with pc := start, loops := (start, after, n - 1) :: rest })) := by
  refine (almInstr_eq rfl hv _).trans ?_
  cases n <;> simp only [hl] <;> rfl

/-- endl with none. -/
theorem execAlmEndl_closed {s : State} {v : Invocation} (hv : s.invocation = some v) (hl : v.loops = []) :
    exec .almEndl s = .next (s.withInv (v.advance 1)) := by
  refine (almInstr_eq rfl hv _).trans ?_
  rw [hl]

/-- Settles O38: every arithmetic instruction by the value that it writes, every branch and loop instruction by the invocation after it. -/
theorem almanacArithmeticAndControlFlow : Obligations.AlmanacArithmeticAndControlFlow := by
  refine ⟨fun s v d a b x hv => ?_, fun s v a o k hv => ?_⟩
  · exact ⟨almWrite_gives rfl rfl hv (BitVec.toNat_add _ _), almWrite_gives rfl rfl hv (toNat_word_sub _ _),
      almWrite_gives rfl rfl hv fun _ _ => BitVec.getLsbD_and, almWrite_gives rfl rfl hv fun _ _ => BitVec.getLsbD_or,
      almWrite_gives rfl rfl hv fun _ _ => BitVec.getLsbD_xor, almWrite_gives rfl rfl hv (toNat_shl_field _ _),
      almWrite_gives rfl rfl hv (toNat_shr_field _ _), almWrite_gives rfl rfl hv (toNat_word_min _ _),
      almWrite_gives rfl rfl hv (toNat_word_max _ _), almWrite_gives rfl rfl hv (BitVec.toNat_mul _ _),
      almWrite_gives rfl rfl hv (toNat_add_signExtend _ x), almWrite_gives rfl rfl hv (BitVec.toInt_signExtend_of_le (by decide)),
      almWrite_gives rfl rfl hv (toNat_upperHalf _ x), almWrite_gives rfl rfl hv rfl, almWrite_gives rfl rfl hv (toNat_word_ite _),
      almWrite_gives rfl rfl hv (toNat_word_ite _), almWrite_gives rfl rfl hv (toNat_word_ite _),
      almWrite_gives rfl rfl hv (ite_not _ _ _), almWrite_gives rfl rfl hv (toNat_popCount _),
      almWrite_gives rfl rfl hv (trailingZeros_lowest _)⟩
  · intro next target taken
    have htaken : v.branch o = taken := v.branch_eq o
    rw [← htaken]
    refine ⟨?_, ?_, ?_, ⟨_, almInstr_eq rfl hv _⟩, fun start after n rest => execAlmEndl_open hv, execAlmEndl_closed hv⟩
    · exact almInstr_eq rfl hv _
    · rw [← ite_not]
      exact almInstr_eq rfl hv _
    · exact almInstr_eq rfl hv _

/-! ### View reads (R356, R366) -/

theorem HeadView.field_eq (h : HeadView) (now : Nat) {f : Nat} (hf : f ≤ 6) : h.field now f =
    ([1#32, h.priority, h.deadline, h.demand, BitVec.ofNat 32 (min (now - h.since) (2 ^ 32 - 1)), h.seq,
      if h.resume then 1#32 else 0#32]).getD f 0#32 := by
  match f, hf with
  | 0, _ | 1, _ | 2, _ | 3, _ | 4, _ | 5, _ | 6, _ => rfl
  | n + 7, hf => omega

theorem RunView.field_eq (r : RunView) (now : Nat) {f : Nat} (hf : f ≤ 7) : r.field now f =
    ([1#32, r.graph, r.priority, r.deadline, r.origin, r.demand, BitVec.ofNat 32 (now - r.since), BitVec.ofNat 32 r.state]).getD f 0#32 := by
  match f, hf with
  | 0, _ | 1, _ | 2, _ | 3, _ | 4, _ | 5, _ | 6, _ | 7, _ => rfl
  | n + 8, hf => omega

theorem FaultRec.field_eq (x : FaultRec) {f : Nat} (hf : f ≤ 15) : x.field f =
    ([BitVec.ofNat 32 x.kind, x.status.setWidth 32, x.graph, BitVec.ofNat 32 (x.queue + x.load * 65536), x.suspect,
      x.ctx.setWidth 32, x.lastRound, x.round, x.timestamp, BitVec.ofNat 32 x.relaunches, x.origin, x.demand, x.priority, x.deadline,
      x.log, if x.eclipsed then 1#32 else 0#32]).getD f 0#32 := by
  match f, hf with
  | 0, _ | 1, _ | 2, _ | 3, _ | 4, _ | 5, _ | 6, _ | 7, _ | 8, _ | 9, _ | 10, _ | 11, _ | 12, _ | 13, _ | 14, _ | 15, _ => rfl
  | n + 16, hf => omega

theorem Invocation.field_eq (v : Invocation) {f : Nat} (hf : f ≤ 6) : v.field f =
    ([BitVec.ofNat 32 v.trigger.hook.number, BitVec.ofNat 32 v.trigger.code, v.trigger.subject, BitVec.ofNat 32 v.view.now,
      BitVec.ofNat 32 v.view.overruns, v.view.generation, v.view.invocations]).getD f 0#32 := by
  match f, hf with
  | 0, _ | 1, _ | 2, _ | 3, _ | 4, _ | 5, _ | 6, _ => rfl
  | n + 7, hf => omega

/-- Settles O39: every view read by the word that it writes; a field beyond those of its table is not encoded. -/
theorem almanacViewsReadTheSnapshot : Obligations.AlmanacViewsReadTheSnapshot := by
  intro s v d a f hv n
  have hreg : (v.rd a).toNat = n := rfl
  refine ⟨viewInstr_views rfl rfl hv rfl, fun hf => viewInstr_views rfl (decide_eq_true hf) hv ?rdh, viewInstr_views rfl rfl hv rfl,
    fun hf => viewInstr_views rfl (decide_eq_true hf) hv rfl, viewInstr_views rfl rfl hv rfl, viewInstr_views rfl rfl hv ?rdflt,
    viewInstr_views rfl rfl hv rfl, fun hf => viewInstr_views rfl (decide_eq_true hf) hv ?rdinv,
    fun hf => viewInstr_views rfl (decide_eq_true hf) hv ?rdrun, almInstr_eq rfl hv _⟩
  case rdh =>
    rw [hreg]
    rcases v.view.heads[n]? with _ | _ | h
    · rfl
    · rfl
    · exact h.field_eq _ hf
  case rdflt =>
    rcases v.trigger.fault with _ | x
    · rfl
    · exact x.field_eq (Nat.le_of_lt_succ f.isLt)
  case rdinv =>
    refine (v.field_eq hf).trans ?_
    cases v.trigger.hook <;> rfl
  case rdrun =>
    rw [hreg]
    rcases v.view.runs[n]? with _ | _ | r
    · rfl
    · rfl
    · exact r.field_eq _ hf

/-! ### end (R357, R361, R362, R454) -/

/-- A persistent word is the last one written to it, or what it was. -/
theorem putWords_getElem (i : Fin 16) : ∀ (ws : List (Nat × Word)) (w : Vector Word 16),
    (putWords w ws)[i] = ((ws.filter (fun x => decide (x.1 % 16 = i.val))).getLast?.map (fun x => x.2)).getD w[i]
  | [], _ => rfl
  | (j, x) :: ws, w => by
    rw [putWords, putWords_getElem i ws, List.filter_cons]
    by_cases h : j % 16 = i.val
    · have hset : (w.set (Fin.ofNat 16 j) x)[i] = x := by simp [← h]
      rw [hset, if_pos (decide_eq_true h), List.getLast?_cons]
      cases (ws.filter (fun x => decide (x.1 % 16 = i.val))).getLast? <;> rfl
    · have hset : (w.set (Fin.ofNat 16 j) x)[i] = w[i] := Vector.getElem_set_ne _ _ h
      rw [hset, if_neg (by simpa using h)]

/-- A decision of 0, with no fault to deliver, does nothing. -/
theorem State.applyDecision_none (s : State) (p : Fin 16) {t : Trigger} (hf : t.fault = none) (a6 : Word) : s.applyDecision p t 0#32 a6 = s := by
  simp only [State.applyDecision, hf]
  rfl

/-- Settles O40: end by the decision that it applies or defers, and the persistent words by the writes. -/
theorem almanacEndAppliesItsWritesAndDecision : Obligations.AlmanacEndAppliesItsWritesAndDecision := by
  intro s v hv p closed a7 a6
  have hwaiting : (closed.part p).waiting = (s.part p).waiting := by simp [closed]
  have hend : exec .almEnd s = if v.trigger.hook = .dispatch ∧ (s.part p).waiting ≠ [] then
      .next (closed.modPart p (fun x => { x with deferred := some (a7, a6) })) else .next (closed.applyDecision p v.trigger a7 a6) := by
    show execAlmEnd s = _
    simp only [execAlmEnd, hv, Bool.and_eq_true, decide_eq_true_eq, Bool.not_eq_true', List.isEmpty_eq_false_iff, ← hwaiting]
    rfl
  refine ⟨fun hd hw => hend.trans (if_pos ⟨hd, hw⟩), fun h => hend.trans (if_neg fun ⟨hd, hw⟩ => h.elim (· hd) hw), fun h0 hf => ?_, fun i => ?_⟩
  · rw [h0, closed.applyDecision_none p hf]
  · rw [← putWords_getElem]
    simp [closed]

end Sys2Proof.Machine
end

section
/-! PROOF. Launch queues (R342, R343, R345, R346): their registers, and how a head becomes eligible. -/

namespace Sys2Proof.Machine

/-! ### Registers (R342, R343) -/

theorem Queue.enabled_eq (x : Queue) : x.enabled = x.cfg.getLsbD 6 := bitOf_toNat _ _

theorem serialAfter_iff (v t : Word) : serialAfter v t = true ↔ 0 < (v - t).toNat ∧ (v - t).toNat < 2 ^ 31 := by
  simp [serialAfter]

/-- The stale count saturates. -/
theorem stale_saturates (n : Word) : (if n = 0xFFFF_FFFF#32 then n else n + 1#32) = BitVec.ofNat 32 (min (n.toNat + 1) (2 ^ 32 - 1)) := by
  have hn := n.isLt
  split
  case isTrue h => rw [h]; rfl
  case isFalse h =>
    have hne : n.toNat ≠ 2 ^ 32 - 1 := fun e => h (BitVec.eq_of_toNat_eq e)
    rw [Nat.min_eq_left (by omega), BitVec.ofNat_add, BitVec.ofNat_toNat, BitVec.setWidth_eq]

/-- A configuration without its enable bit. -/
def cfgDisabled (c : DWord) : DWord := c &&& 0xFFFF_FFFF_FFFF_FFBF#64

theorem cfgDisabled_enable (c : DWord) : (cfgDisabled c).getLsbD 6 = false := by
  rw [cfgDisabled, BitVec.getLsbD_and]
  exact Bool.and_false _

section Formed

variable {s : State} {p : Fin 16} {q : Fin 64} {v : Word} {c : DWord}

theorem State.writeTail_taken (hown : ((s.part p).queues[q]).deviceOwned = false) (h : serialAfter v ((s.part p).queues[q]).tail = true) :
    s.writeTail p q v = s.modQueue p q (fun y => { y with tail := v }) :=
  s.modQueue_congr p q (if_pos (by rw [hown, h]; rfl))

theorem State.writeTail_stale (h : ¬ (((s.part p).queues[q]).deviceOwned = false ∧ serialAfter v ((s.part p).queues[q]).tail = true)) :
    s.writeTail p q v = s.modQueue p q (fun y => { y with stale := BitVec.ofNat 32 (min (y.stale.toNat + 1) (2 ^ 32 - 1)) }) := by
  refine s.modQueue_congr p q ((if_neg (by simpa only [Bool.and_eq_true, Bool.not_eq_true'] using h)).trans ?_)
  rw [stale_saturates]

theorem State.writeHead_disabled (h : ((s.part p).queues[q]).enabled = false) : s.writeHead p q v =
    s.modQueue p q (fun y => { y with head := v, tail := v, eligible := none, deadlineSent := false }) :=
  s.modQueue_congr p q (if_neg (Bool.eq_false_iff.mp h))

theorem State.writeHead_enabled (h : ((s.part p).queues[q]).enabled = true) : s.writeHead p q v = s :=
  s.modQueue_self p q (if_pos h)

/-- Enabling an enabled queue. -/
theorem State.writeQueueCfg_enabled (h : ((s.part p).queues[q]).enabled = true) (hc : c.getLsbD 6 = true) : s.writeQueueCfg p q c = s := by
  rw [← bitOf_toNat] at hc
  simp only [State.writeQueueCfg, if_pos h, if_pos hc]

theorem State.writeQueueCfg_valid (h : ((s.part p).queues[q]).enabled = false) (hc : c.getLsbD 6 = true)
    (hok : queueCfgOk ((s.part p).queues[q]).base c = true) : s.writeQueueCfg p q c = s.modQueue p q (fun y => { y with cfg := c }) := by
  rw [← bitOf_toNat] at hc
  simp only [State.writeQueueCfg, h, hc, hok, Bool.not_true, Bool.false_eq_true, if_false, if_true]

theorem State.writeQueueCfg_invalid (h : ((s.part p).queues[q]).enabled = false) (hc : c.getLsbD 6 = true)
    (hok : queueCfgOk ((s.part p).queues[q]).base c = false) : s.writeQueueCfg p q c =
    (s.modQueue p q (fun y => { y with cfg := cfgDisabled c })).modPart p (fun y => { y with pqerr := y.pqerr ||| (1#64 <<< q.val) }) := by
  rw [← bitOf_toNat] at hc
  simp only [State.writeQueueCfg, h, hc, hok, Bool.not_true, Bool.false_eq_true, if_false, if_true, cfgDisabled]

end Formed

/-- Settles O41: a tail write by the serial order, a head write and an enabling by whether the queue is enabled. -/
theorem queueRegistersTakeTheirWrites : Obligations.QueueRegistersTakeTheirWrites := by
  intro s p q v c x
  refine ⟨fun hf => ?_, fun hf => ?_⟩
  · have htail : exec (.qtailWrite p q v) s = .next (s.writeTail p q v) := congrArg _ (if_pos hf)
    have hhead : exec (.qheadWrite p q v) s = .next (s.writeHead p q v) := congrArg _ (if_pos hf)
    have hcfg (hc : c.getLsbD 6 = true) : exec (.queueEnable p q c) s = .next (s.writeQueueCfg p q c) :=
      congrArg _ (if_pos (by simp [hf, bitOf_toNat, hc]))
    refine ⟨fun hown hpos hlt => ?_, fun hstale => ?_, fun he => ?_, fun he => ?_, congrArg _ (if_pos hf), fun he hc hok => ?_,
      fun he hc hok => ?_, fun he hc => ?_⟩
    · rw [htail, State.writeTail_taken hown ((serialAfter_iff _ _).mpr ⟨hpos, hlt⟩)]
    · rw [htail, State.writeTail_stale]
      rintro ⟨hown, hafter⟩
      obtain ⟨hpos, hlt⟩ := (serialAfter_iff _ _).mp hafter
      rcases hstale with h | rfl | h
      · exact absurd (hown.symm.trans h) (by decide)
      · simp [x] at hpos
      · exact absurd hlt (Nat.not_lt.mpr h)
    · rw [hhead, State.writeHead_disabled he]
    · rw [hhead, State.writeHead_enabled he]
    · rw [hcfg hc, State.writeQueueCfg_valid he hc hok]
    · have hqueue : ((((s.modQueue p q (fun y => { y with cfg := cfgDisabled c })).modPart p
          (fun y => { y with pqerr := y.pqerr ||| (1#64 <<< q.val) })).part p).queues[q]) = { x with cfg := cfgDisabled c } := by
        simp [State.modQueue_part_self, x]
      refine ⟨_, (hcfg hc).trans (congrArg _ (State.writeQueueCfg_invalid he hc hok)), ?_, ?_, ?_⟩
      · simp [State.modQueue_part_self]
      · rw [hqueue, Queue.enabled_eq]
        exact cfgDisabled_enable c
      · rw [hqueue, show s.modQueue p q (fun _ => { x with cfg := cfgDisabled c }) = s.modQueue p q (fun y => { y with cfg := cfgDisabled c })
          from s.modQueue_congr p q rfl]
        exact State.modPart_congr _ p (by rw [State.modPart_part_self])
    · rw [hcfg hc, State.writeQueueCfg_enabled he hc]
  · have hnot : ¬ (s.part p).formed = true := by simp [hf]
    exact ⟨congrArg _ (if_neg hnot), congrArg _ (if_neg hnot), congrArg _ (if_neg hnot), congrArg _ (if_neg (by simp [hf]))⟩

/-! ### Heads (R345, R346) -/

section Head

variable {s t u w : State} {p : Fin 16} {q : Fin 64} {bs : List Byte} {x : Queue} {g : Agent} {r : LaunchRec}
  (hqueue : (s.part p).queues[q] = x) (hagent : s.unitAgent p x.ctx = g) (hrec : launchRec bs = r)
  (hwaits : x.headWaits = true) (hread : s.virtRead g x.headAddr 64 .read = (.ok bs, t)) (hseq : r.seq = x.head)
include hqueue hagent hrec hwaits hread hseq

/-- A whole head record with a good demand and good flags, whose prerequisites are met, becomes eligible with its two triggers. -/
theorem State.readHead_eligible (hflags : field r.flags 7 2 = 0) (hmin : 1 ≤ r.demand.toNat) (hmax : r.demand.toNat ≤ 192)
    (hfirst : t.prereq g (r.flags.getLsbD 0) r.ev0 r.th0 = (.met, u)) (hsecond : u.prereq g (r.flags.getLsbD 1) r.ev1 r.th1 = (.met, w)) :
    s.readHead p q = ((w.modQueue p q (fun y => { y with eligible := some (r, s.ns / 1024), deadlineSent := false })).trigger p .preempt
      0x11 (BitVec.ofNat 32 q.val)).trigger p .dispatch 0x01 (BitVec.ofNat 32 q.val) := by
  have hdemand : r.demand ≠ 0#16 := fun h => by simp [h] at hmin
  simp [State.readHead, hqueue, hagent, hrec, hwaits, hread, hseq, hflags, hdemand, Nat.not_lt.mpr hmax, bitOf_toNat, hfirst, hsecond,
    -Fin.getElem_fin, -BitVec.getLsbD_eq_getElem]

/-- A whole head record with a bad demand or reserved flags is consumed, where no completion record waits (R454). -/
theorem State.readHead_bad (hbad : field r.flags 7 2 ≠ 0 ∨ r.demand = 0#16 ∨ 192 < r.demand.toNat) (hidle : (s.part p).waiting = []) :
    s.readHead p q = t.failRecord p q r 0x10 0xFFFF_FFFF#32 := by
  simp [State.readHead, hqueue, hagent, hrec, hwaits, hread, hseq, or_assoc, ← ne_eq, hbad, hidle, -Fin.getElem_fin]

end Head

/-- In a list without repetition, what only one of its elements meets filters that element. -/
theorem filter_unique {α : Type} {c : α → Bool} {x : α} (hc : ∀ y, c y = true ↔ y = x) : ∀ {l : List α}, l.Nodup → x ∈ l → l.filter c = [x]
  | y :: ys, hnodup, hx => by
    obtain ⟨hy, hys⟩ := List.nodup_cons.mp hnodup
    rcases List.mem_cons.mp hx with rfl | hmem
    · rw [List.filter_cons_of_pos ((hc _).mpr rfl), List.filter_eq_nil_iff.mpr fun z hz h => hy ((hc z).mp h ▸ hz)]
    · have hne : ¬ c y = true := fun h => hy ((hc y).mp h ▸ hmem)
      rw [List.filter_cons_of_neg hne, filter_unique hc hys hmem]

/-- A fold that acts on one element of its list only. -/
theorem foldl_ite_unique {α β : Type} {c : α → Bool} {x : α} (hc : ∀ y, c y = true ↔ y = x) (f : β → α → β) {l : List α}
    (hnodup : l.Nodup) (hx : x ∈ l) (b : β) : l.foldl (fun acc y => if c y then f acc y else acc) b = f b x := by
  rw [← List.foldl_filter, filter_unique hc hnodup hx]
  rfl

/-- The queues of the package, partition by partition. -/
def queueNames : List (Fin 16 × Fin 64) := (List.finRange 16).flatMap (fun p => (List.finRange 64).map (fun q => (p, q)))

theorem mem_queueNames (p : Fin 16) (q : Fin 64) : (p, q) ∈ queueNames :=
  List.mem_flatMap.mpr ⟨p, List.mem_finRange p, List.mem_map.mpr ⟨q, List.mem_finRange q, rfl⟩⟩

theorem queueNames_nodup : queueNames.Nodup := by
  refine List.pairwise_flatMap.mpr ⟨fun p _ => List.pairwise_map.mpr ((List.nodup_finRange 64).imp fun hne h => hne (Prod.mk.inj h).2),
    (List.nodup_finRange 16).imp fun hne x hx y hy h => ?_⟩
  obtain ⟨_, -, rfl⟩ := List.mem_map.mp hx
  obtain ⟨_, -, rfl⟩ := List.mem_map.mp hy
  exact hne (Prod.mk.inj h).1

/-- A line that one waiting head watches. -/
theorem execObservedLineWrite_unique {s : State} {p : Fin 16} {q : Fin 64} {a : BitVec 52}
    (h : ∀ y : Fin 16, ∀ z : Fin 64, ((s.part y).formed = true ∧ s.watchesLine y z (a.toNat / 64) = true) ↔ (y = p ∧ z = q)) :
    exec (.observedLineWrite a) s = .next (s.readHead p q) := by
  have hfold := foldl_ite_unique (c := fun y => (s.part y.1).formed && s.watchesLine y.1 y.2 (a.toNat / 64)) (x := (p, q))
    (fun y => by rw [Bool.and_eq_true, h, Prod.ext_iff]) (fun (acc : State) y => acc.readHead y.1 y.2)
    queueNames_nodup (mem_queueNames p q) s
  exact congrArg Host.Outcome.next hfold

/-- Settles O42: the step of a head and its re-read by what reading the head does, the observed line by the one head that watches it. -/
theorem headsBecomeEligible : Obligations.HeadsBecomeEligible := by
  intro s t p q bs a x g r
  refine ⟨fun hformed hwaits hread hseq => ?_, execObservedLineWrite_unique⟩
  have hstep : exec (.headEligible p q) s = .next (s.readHead p q) := congrArg _ (if_pos hformed)
  have hagain (hns : s.ns % 1024 = 0) : exec (.headReread p q) s = .next (s.readHead p q) :=
    congrArg _ (if_pos (by simp [hformed, hns]))
  refine ⟨fun hflags hmin hmax u w hfirst hsecond => ?_, fun hbad hidle => ?_⟩
  · have hdone := State.readHead_eligible (x := x) rfl rfl rfl hwaits hread hseq hflags hmin hmax hfirst hsecond
    exact ⟨hstep.trans (congrArg _ hdone), fun hns => (hagain hns).trans (congrArg _ hdone)⟩
  · exact hstep.trans (congrArg _ (State.readHead_bad (x := x) rfl rfl rfl hwaits hread hseq hbad hidle))

end Sys2Proof.Machine
end

section
/-! PROOF. Hooks (R354, R355, R366): triggers that coalesce, triggers in time, and what an invocation that begins is told. -/

namespace Sys2Proof.Machine

/-! ### Triggers (R354, R355) -/

theorem Trigger.coalesces_dispatch (y : Trigger) (code : Nat) (subject : Word) (f : Option FaultRec) :
    y.coalesces ⟨.dispatch, code, subject, f⟩ = true ↔ y.hook = .dispatch := by
  rcases y with ⟨_ | _ | _, _, _, _⟩ <;> simp [Trigger.coalesces]

theorem Trigger.coalesces_preempt (y : Trigger) (code : Nat) (subject : Word) (f : Option FaultRec) :
    y.coalesces ⟨.preempt, code, subject, f⟩ = true ↔ y.hook = .preempt ∧ y.code = code ∧ y.subject = subject := by
  rcases y with ⟨_ | _ | _, _, _, _⟩ <;> simp [Trigger.coalesces]

section Trigger

variable {s : State} {p : Fin 16} {hook : Hook} {code : Nat} {subject : Word}

theorem State.trigger_coalesced (h : ∃ y ∈ (s.part p).pending, y.coalesces ⟨hook, code, subject, none⟩ = true) :
    s.trigger p hook code subject = s := by
  rw [State.trigger]
  exact s.modPart_self p _ (if_pos (List.any_eq_true.mpr h))

theorem State.trigger_added (h : ∀ y ∈ (s.part p).pending, ¬ y.coalesces ⟨hook, code, subject, none⟩ = true) :
    s.trigger p hook code subject = s.modPart p (fun z => { z with pending := z.pending ++ [⟨hook, code, subject, none⟩] }) := by
  rw [State.trigger]
  refine s.modPart_congr p (if_neg fun hany => ?_)
  obtain ⟨y, hy, hc⟩ := List.any_eq_true.mp hany
  exact h y hy hc

end Trigger

theorem execQuantumExpiry_eq {s : State} {p : Fin 16} {k : Fin 32} {r : Run}
    (hr : s.runs.find? (fun x => x.part == p.val && x.slot == k.val) = some r) (hfree : r.freeze = none) : exec (.quantumExpiry p k) s =
    if r.quantumNs + 2000000 ≤ s.ns then
      .next ((s.modRun r.gid (fun y => { y with quantumNs := s.ns })).trigger p .preempt 0x12 (BitVec.ofNat 32 k.val))
    else .next s := by
  show execQuantumExpiry p k s = _
  simp only [execQuantumExpiry, hr, hfree, Option.isNone_none, Bool.true_and, decide_eq_true_eq]

/-- Whether an eligible head's deadline less the margin is reached, in dispatch time (R354). -/
theorem execDeadlineTrigger_eq {s : State} {p : Fin 16} {q : Fin 64} {r : LaunchRec} {n : Nat}
    (hhead : ((s.part p).queues[q]).eligible = some (r, n)) (hsent : ((s.part p).queues[q]).deadlineSent = false) (hd : r.deadline ≠ 0#32) :
    exec (.deadlineTrigger p q) s =
    if (BitVec.ofNat 32 (s.ns / 1024) - (r.deadline - (s.part p).margin)).toNat < 2 ^ 31 then
      .next ((s.modQueue p q (fun y => { y with deadlineSent := true })).trigger p .preempt 0x13 (BitVec.ofNat 32 q.val))
    else .next s := by
  have htime : BitVec.ofNat 32 s.dispatchTime = BitVec.ofNat 32 (s.ns / 1024) := BitVec.eq_of_toNat_eq (by simp [State.dispatchTime])
  show execDeadlineTrigger p q s = _
  simp only [execDeadlineTrigger, hhead, hsent, htime, serialAtLeast, hd, ne_eq, not_false_eq_true, decide_true, Bool.not_false, Bool.true_and,
    decide_eq_true_eq]

/-- Settles O43: a trigger by what it coalesces with, the timed triggers by the two sides of their time. -/
theorem triggersCoalesceAndFireInTime : Obligations.TriggersCoalesceAndFireInTime := by
  refine ⟨fun s p code subject => ?_, fun s p k q => ⟨fun r hr hfree => ?_, fun r n hhead hsent hd => ?_⟩⟩
  · refine ⟨fun h => State.trigger_coalesced ?_, fun h => State.trigger_added ?_, fun h => State.trigger_coalesced ?_,
      fun h => State.trigger_added ?_⟩
    · simpa only [Trigger.coalesces_dispatch] using h
    · simpa only [Trigger.coalesces_dispatch] using h
    · simpa only [Trigger.coalesces_preempt] using h
    · simpa only [Trigger.coalesces_preempt] using h
  · rw [execQuantumExpiry_eq hr hfree]
    exact ⟨fun h => if_pos h, fun h => if_neg (Nat.not_le.mpr h)⟩
  · rw [execDeadlineTrigger_eq hhead hsent hd]
    exact ⟨fun h => if_pos h, fun h => if_neg (Nat.not_lt.mpr h)⟩

/-! ### The invocation that begins (R355, R356, R366) -/

/-- A hook that starts delivers its trigger with the subject and the last round as they are then. -/
theorem execAlmanacInvocation_starts {s : State} {p : Fin 16} {t : Trigger} {a : Almanac} (hmay : s.mayInvoke p = true)
    (hnext : s.nextTrigger p = some t) (hserves : s.servesNext p = true)
    (hsticky : (s.part p).stickyFallback = false) (ha : (s.part p).almanac = some a) : exec (.almanacInvocation p) s =
    .next (((s.serve p).modPart p (fun y => { y with pending := y.pending.erase t, invocations := y.invocations + 1#32 })).modPart p (fun y =>
      { y with inv := some ⟨s.refreshFault t, s.snapshot p, Vector.replicate 8 0#32, a.entry (s.refreshFault t).hook, [], [], 0⟩ })) := by
  show execAlmanacInvocation p s = _
  simp only [execAlmanacInvocation, hmay, hserves, hnext, hsticky, ha, Bool.not_true, Bool.or_self, Bool.false_eq_true, if_false]

/-- A fault of a graph in running slot 0 (R354, R366). -/
def goneFault : FaultRec := punctRun.faultRec 1 2 noUnit 0#32 0#32 false 0#8

/-- Its delivery, as it was made pending while the graph held the slot. -/
def goneTrigger : Trigger := ⟨.fault, 0x21, goneFault.slot, some goneFault⟩

/-- An almanac of one word. -/
def oneWordAlmanac : Almanac := ⟨0, 0, 0, [0#16]⟩

/-- Partition 0 with that almanac and that delivery pending, where the graph holds no slot any more. -/
def goneState : State := State.reset.modPart 0 (fun x => { x with almanac := some oneWordAlmanac, pending := [goneTrigger] })

/-- The delivery is the next invocation and may begin. -/
theorem goneState_ready :
    (goneState.part 0).formed = true ∧ (goneState.part 0).inv = none ∧ (goneState.part 0).swapRequest = none
    ∧ goneState.nextTrigger 0 = some goneTrigger ∧ goneState.faultReady goneTrigger = true ∧ goneState.servesNext 0 = true
    ∧ goneState.mayInvoke 0 = true ∧ (goneState.part 0).stickyFallback = false ∧ (goneState.part 0).almanac = some oneWordAlmanac := by
  decide +kernel

/-- The subject is none when the hook begins. -/
theorem goneState_refreshFault : goneState.refreshFault goneTrigger = { goneTrigger with subject := 0xFFFF_FFFF#32 } := by
  decide +kernel

/-- Refutes O44: the trigger that a starting on_fault hook receives is not the pending one with the last committed round alone renewed. Its
subject is renewed too (R354): a graph that holds no running slot any more is reported with 0xFFFF_FFFF where the trigger named slot 0. -/
theorem not_invocationsStartOverrunAndSwap : ¬ Obligations.InvocationsStartOverrunAndSwap := by
  intro h
  obtain ⟨hformed, hinv, hswap, hnext, hready, hserves, hmay, hsticky, ha⟩ := goneState_ready
  obtain ⟨-, -, hstart, -⟩ := h goneState 0
  obtain ⟨hclaim, -⟩ := hstart hformed hinv hswap goneTrigger hnext hready hserves
  have hmodel := execAlmanacInvocation_starts hmay hnext hserves hsticky ha
  have hstate := Host.Outcome.next.inj (hmodel.symm.trans (hclaim oneWordAlmanac hsticky ha))
  have hsubject := congrArg (fun v => (v.part 0).inv.map (fun i => i.trigger.subject)) hstate
  simp only [State.modPart_part_self, Option.map_some, goneState_refreshFault] at hsubject
  exact absurd (Option.some.inj hsubject) (by decide)

end Sys2Proof.Machine
end

section
/-! SUPPORT. The number that bytes hold (R2), read back byte by byte. -/

namespace Sys2Proof.Machine

/-! ### Bytes of a number, least significant first -/

theorem byteAt_eq_ofNat (v : DWord) (k : Nat) : byteAt v k = BitVec.ofNat 8 (v.toNat / 256 ^ k) := by
  apply BitVec.eq_of_toNat_eq
  rw [byteAt, BitVec.extractLsb'_toNat, BitVec.toNat_ofNat, Nat.shiftRight_eq_div_pow, Nat.pow_mul]

@[simp] theorem leBytes_length (n v : Nat) : (leBytes n v).length = n := by
  induction n generalizing v with
  | zero => rfl
  | succ n ih => simp [leBytes, ih]

theorem leBytes_getElem {n k : Nat} (v : Nat) (h : k < (leBytes n v).length) : (leBytes n v)[k] = BitVec.ofNat 8 (v / 256 ^ k) := by
  induction n generalizing v k with
  | zero => simp at h
  | succ n ih =>
    cases k with
    | zero => simp [leBytes]
    | succ k => simp [leBytes, ih, Nat.div_div_eq_div_mul, Nat.pow_succ']

theorem leNat_lt (bs : List Byte) : leNat bs < 256 ^ bs.length := by
  induction bs with
  | nil => simp [leNat]
  | cons b bs ih =>
    have := b.isLt
    rw [leNat, List.length_cons, Nat.pow_succ']
    omega

theorem ofNat_leNat_div {bs : List Byte} {k : Nat} (h : k < bs.length) : BitVec.ofNat 8 (leNat bs / 256 ^ k) = bs[k] := by
  induction bs generalizing k with
  | nil => simp at h
  | cons b bs ih =>
    have hb := b.isLt
    cases k with
    | zero =>
      apply BitVec.eq_of_toNat_eq
      simp only [leNat, Nat.pow_zero, Nat.div_one, BitVec.toNat_ofNat, List.getElem_cons_zero]
      omega
    | succ k =>
      have hdiv : (b.toNat + 256 * leNat bs) / 256 = leNat bs := by omega
      rw [leNat, Nat.pow_succ', ← Nat.div_div_eq_div_mul, hdiv, List.getElem_cons_succ, ih]

@[simp] theorem Memory.readN_length (m : Memory) (a n : Nat) : (m.readN a n).length = n := by
  induction n generalizing a with
  | zero => rfl
  | succ n ih => simp [Memory.readN, ih]

theorem Memory.readN_getElem {n k : Nat} (m : Memory) (a : Nat) (h : k < (m.readN a n).length) : (m.readN a n)[k] = m.read (a + k) := by
  induction n generalizing a k with
  | zero => simp at h
  | succ n ih =>
    cases k with
    | zero => rfl
    | succ k => simp [Memory.readN, ih, Nat.add_right_comm, Nat.add_assoc]

/-- The bytes of a 64-bit value that memory holds are the bytes of memory. -/
theorem byteAt_readN (m : Memory) (a : Nat) {k : Nat} (h : k < 8) : byteAt (BitVec.ofNat 64 (leNat (m.readN a 8))) k = m.read (a + k) := by
  have hlt : leNat (m.readN a 8) < 2 ^ 64 := by simpa using leNat_lt (m.readN a 8)
  rw [byteAt_eq_ofNat, BitVec.toNat_ofNat, Nat.mod_eq_of_lt hlt, ofNat_leNat_div (by simpa using h), Memory.readN_getElem]

/-- Memory after a 64-bit value is written to it. -/
theorem Memory.read_writeN_leBytes {m : Memory} (w : m.wf = true) (a : Nat) (v : DWord) (x : Nat) :
    (m.writeN a (leBytes 8 v.toNat)).read x = if a ≤ x ∧ x < a + 8 then byteAt v (x - a) else m.read x := by
  split
  · next h =>
    obtain ⟨k, rfl⟩ := Nat.exists_eq_add_of_le h.1
    have hk : k < (leBytes 8 v.toNat).length := by rw [leBytes_length]; omega
    rw [Memory.read_writeN_inside w a k _ hk, leBytes_getElem, byteAt_eq_ofNat, Nat.add_sub_cancel_left]
  · next h =>
    exact Memory.read_writeN_outside w a x _ (by rw [leBytes_length]; omega)

end Sys2Proof.Machine
end

section
/-! PROOF. The debug port (R402): its reads and writes in a debug hold. -/

namespace Sys2Proof.Machine

/-! ### Accesses of the debug port (R402) -/

theorem execDebugPort_unheld {s : State} {t : Fin 192} (h : s.debugHeld t.val = false) (r : DebugReg) (w : Option DWord) :
    exec (.debugPortRegisterAccess t r w) s = .next s := by
  show execDebugPortRegisterAccess t r w s = _
  simp [execDebugPortRegisterAccess, h]

theorem execDebugPort_reads {s : State} {t : Fin 192} (h : s.debugHeld t.val = true) (r : DebugReg) :
    exec (.debugPortRegisterAccess t r none) s = .next { s with reply := some ((s.debugRead t r).setWidth 512, false) } := by
  show execDebugPortRegisterAccess t r none s = _
  simp [execDebugPortRegisterAccess, h]

theorem execDebugPort_writes {s : State} {t : Fin 192} (h : s.debugHeld t.val = true) (r : DebugReg) (v : DWord) :
    exec (.debugPortRegisterAccess t r (some v)) s = .next (s.modSeq t (fun q => q.debugWrite r v)) := by
  show execDebugPortRegisterAccess t r (some v) s = _
  simp [execDebugPortRegisterAccess, h]

theorem State.debugRead_pred (s : State) (t : Fin 192) (m : BitVec 3) :
    (s.debugRead t (.pred m)).setWidth 512 = if (s.seq t).pred m then 1#512 else 0#512 := by
  show (if (s.seq t).pred m then 1#64 else 0#64).setWidth 512 = _
  cases (s.seq t).pred m <;> simp

theorem State.debugRead_system (s : State) (t : Fin 192) {n : BitVec 14} {r : SysReg} (h : sysRegOf n.toNat = some r) :
    s.debugRead t (.system n) = s.sysRead t r := by
  simp only [State.debugRead, h]

theorem Seq.debugWrite_system (q : Seq) {n : BitVec 14} {r : SysReg} (h : sysRegOf n.toNat = some r) (v : DWord) :
    q.debugWrite (.system n) v = q.sysWrite r v := by
  simp only [Seq.debugWrite, h]

/-- The pc that the debug port writes is aligned to an instruction. -/
theorem aligned_pc (v : DWord) :
    (v &&& 0xFFFF_FFFF_FFFF_FFFC#64).toNat % 4 = 0 ∧ (v &&& 0xFFFF_FFFF_FFFF_FFFC#64).toNat / 4 = v.toNat / 4 := by
  have hmask : v &&& 0xFFFF_FFFF_FFFF_FFFC#64 = (v >>> 2) <<< 2 := (BitVec.shiftLeft_ushiftRight (x := v) (n := 2)).symm
  have hpc : ((v >>> 2) <<< 2).toNat = v.toNat / 4 * 4 := by
    have := v.isLt
    rw [BitVec.toNat_shiftLeft, BitVec.toNat_ushiftRight, Nat.shiftLeft_eq, Nat.shiftRight_eq_div_pow]
    omega
  rw [hmask, hpc]
  omega

@[simp] theorem Seq.wr_zero (q : Seq) (v : DWord) : q.wr 0#5 v = q := if_pos rfl

@[simp] theorem Seq.rd_zero (q : Seq) : q.rd 0#5 = 0#64 := if_pos rfl

theorem State.modSeq_congr {s : State} {t : Fin 192} {f g : Seq → Seq} (h : f (s.seq t) = g (s.seq t)) : s.modSeq t f = s.modSeq t g := by
  have h' : f (s.tiles[(t : Nat)]).seq = g (s.tiles[(t : Nat)]).seq := h
  simp [State.modSeq, State.modTile, h']

/-- Settles O59: each kind of register read and written in a hold, and the bytes of RAM by those of the 64-bit value. -/
theorem theDebugPortReachesAHeldSequencer : Obligations.TheDebugPortReachesAHeldSequencer := by
  intro s t n m sys d v
  refine ⟨execDebugPort_unheld, fun h => ⟨execDebugPort_reads h _, execDebugPort_reads h _, ?_, ?_, ?_, execDebugPort_writes h _ v,
    execDebugPort_writes h _ v, ?_, ?_, ?_⟩⟩
  · rw [execDebugPort_reads h, State.debugRead_pred]
  · exact ⟨_, execDebugPort_reads h _, fun k hk => byteAt_readN _ _ hk⟩
  · intro r hr
    rw [execDebugPort_reads h, execDebugPort_writes h, State.debugRead_system s t hr]
    simp only [Seq.debugWrite_system _ hr, and_self]
  · refine ⟨_, execDebugPort_writes h _ v, State.modSeq_congr ?_, ?_⟩
    · rw [State.modSeq_seq_self]
      rfl
    · rw [State.modSeq_seq_self]
      exact aligned_pc v
  · refine ⟨_, execDebugPort_writes h _ v, ?_⟩
    rw [State.modSeq_seq_self]
    exact (congrArg (fun q : Seq => q.rd 0#5) ((s.seq t).wr_zero v)).trans (Seq.rd_zero _)
  · refine ⟨_, execDebugPort_writes h _ v, State.modSeq_congr ?_, fun w a => ?_⟩
    · rw [State.modSeq_seq_self]
      rfl
    · rw [State.modSeq_seq_self]
      exact Memory.read_writeN_leBytes w _ v a

end Sys2Proof.Machine
end

section
/-! PROOF. Held traps, the watchdogs and forced block boundaries (R390, R392, R404). -/

namespace Sys2Proof.Machine

/-! ### The held trap of the lowest code (R390) -/

theorem minBy_eq_none {α : Type} {key : α → Nat} {l : List α} (h : minBy key l = none) : l = [] := by
  cases l with
  | nil => rfl
  | cons x xs =>
    rw [minBy] at h
    split at h
    · cases h
    · split at h <;> cases h

theorem minBy_least {α : Type} {key : α → Nat} {l : List α} {z : α} (h : minBy key l = some z) : z ∈ l ∧ ∀ y ∈ l, key z ≤ key y := by
  induction l generalizing z with
  | nil => cases h
  | cons x xs ih =>
    rw [minBy] at h
    split at h
    · next hnone =>
      obtain rfl := Option.some.inj h
      simp [minBy_eq_none hnone]
    · next y hy =>
      obtain ⟨hmem, hleast⟩ := ih hy
      split at h
      · next hlt =>
        obtain rfl := Option.some.inj h
        exact ⟨List.mem_cons_of_mem _ hmem, List.forall_mem_cons.mpr ⟨Nat.le_of_lt hlt, hleast⟩⟩
      · next hle =>
        obtain rfl := Option.some.inj h
        exact ⟨List.mem_cons_self, List.forall_mem_cons.mpr ⟨Nat.le_refl _, fun w hw => Nat.le_trans (Nat.not_lt.mp hle) (hleast w hw)⟩⟩

theorem lowestHeld_eq {l : List (Nat × DWord)} {x : Nat × DWord} (hx : x ∈ l) (hleast : ∀ y ∈ l, x.1 < y.1 ∨ y = x) :
    lowestHeld l = some (x, l.erase x) := by
  unfold lowestHeld
  split
  · next hnone => simp [minBy_eq_none hnone] at hx
  · next z hz =>
    obtain ⟨hmem, hle⟩ := minBy_least hz
    obtain hlt | rfl := hleast z hmem
    · exact absurd (hle x hx) (Nat.not_le.mpr hlt)
    · rfl

section Tile

variable {s : State} {t : Fin 192}

theorem execAsyncTrap_none (h : (s.seq t).sv = true ∨ (s.seq t).held = []) : exec (.asyncTrap t) s = .next s := by
  have hheld : s.enterHeld t = none := by
    unfold State.enterHeld
    obtain h | h := h <;> simp [h, lowestHeld, minBy]
  show execAsyncTrap t s = _
  simp [execAsyncTrap, hheld]

theorem execAsyncTrap_enters (hexec : s.executes t = true) (hsv : (s.seq t).sv = false) {code : Nat} {v : DWord}
    (hheld : (code, v) ∈ (s.seq t).held) (hleast : ∀ x ∈ (s.seq t).held, code < x.1 ∨ x = (code, v)) : exec (.asyncTrap t) s =
      .next ((s.modSeq t (fun x => { x with held := (s.seq t).held.erase (code, v) })).trapAt t code (s.seq t).pc v) := by
  show execAsyncTrap t s = _
  simp [execAsyncTrap, hexec, State.enterHeld, hsv, lowestHeld_eq hheld hleast]

/-! ### The watchdogs (R392) -/

theorem execWatchdog_eq (hexec : s.executes t = true) {i : Instr} {k : StallKind} {since : Nat} (hstall : (s.seq t).stall = some ⟨i, k, since⟩) :
    exec (.watchdog t) s = .next (if (s.seq t).sv = false ∧ watched i = true ∧ since + 2 ^ 28 ≤ s.tileCycles t.val
      then s.trapAt t 11 (s.seq t).pc 0#64 else s) := by
  show execWatchdog t s = _
  simp only [execWatchdog, hstall, hexec, Bool.true_and, Bool.and_eq_true, Bool.not_eq_true', decide_eq_true_eq, and_assoc]
  split <;> rfl

theorem State.killMine_eq {r : Run} (hr : s.runOfTile s.cur.val = some r) (status : Nat) (flags : Byte) :
    s.killMine status flags = s.kill r.gid status flags := by
  simp only [State.killMine, hr]

theorem execSupervisorWatchdog_eq (hexec : s.executes t = true) : exec (.supervisorWatchdog t) s =
    .next (if (s.seq t).sv = true ∧ (s.seq t).svSince + 2 ^ 20 ≤ s.tileCycles t.val
      then ({ s with cur := t } : State).killMine stWatchdog 0#8 else s) := by
  show execSupervisorWatchdog t s = _
  simp only [execSupervisorWatchdog, hexec, Bool.true_and, Bool.and_eq_true, decide_eq_true_eq]
  split <;> rfl

/-! ### Forced block boundaries (R404) -/

theorem execForcedBlockBoundary_eq : exec (.forcedBlockBoundary t) s =
    .next (if ∃ x ∈ (s.seq t).shoots, x.2 + 65536 ≤ s.tileCycles t.val then s.modSeq t Seq.boundary else s) := by
  show execForcedBlockBoundary t s = _
  simp only [execForcedBlockBoundary, List.any_eq_true, decide_eq_true_eq]
  split <;> rfl

end Tile

/-- Settles O46: each event by its own rule, on both sides of its limit. -/
theorem asynchronousTrapsAndWatchdogs : Obligations.AsynchronousTrapsAndWatchdogs := by
  intro s t hexec
  refine ⟨execAsyncTrap_none, fun hsv code v => execAsyncTrap_enters hexec hsv, fun i k since hstall => ⟨?_, ?_⟩,
    fun hsv hlate r hr => ?_, ?_, ?_, ?_⟩
  · intro hsv hw hlate
    rw [execWatchdog_eq hexec hstall, if_pos ⟨hsv, hw, hlate⟩]
  · intro h
    rw [execWatchdog_eq hexec hstall, if_neg]
    rintro ⟨hsv, hw, hlate⟩
    obtain h | h | h := h
    · simp [h] at hsv
    · simp [h] at hw
    · omega
  · rw [execSupervisorWatchdog_eq hexec, if_pos ⟨hsv, hlate⟩]
    exact congrArg _ (State.killMine_eq hr stWatchdog 0#8)
  · intro h
    rw [execSupervisorWatchdog_eq hexec, if_neg]
    rintro ⟨hsv, hlate⟩
    obtain h | h := h
    · simp [h] at hsv
    · omega
  · intro h
    rw [execForcedBlockBoundary_eq, if_pos h]
  · intro h
    rw [execForcedBlockBoundary_eq, if_neg]
    rintro ⟨x, hx, hlate⟩
    exact absurd hlate (Nat.not_le.mpr (h x hx))

end Sys2Proof.Machine
end

section
/-! SUPPORT. The end of a graph (R112, R387): the state after it holds no graph with its ID. -/

namespace Sys2Proof.Machine

/-! ### A graph that completes holds no slot -/

@[simp] theorem State.addEclipse_runs (s : State) (u : Word) : (s.addEclipse u).runs = s.runs := by
  unfold State.addEclipse
  split <;> rfl

@[simp] theorem State.addEclipses_runs (s : State) (us : List Word) : (s.addEclipses us).runs = s.runs :=
  List.foldlRecOn (motive := fun v : State => v.runs = s.runs) _ _ rfl (fun v hv u _ => (v.addEclipse_runs u).trans hv)

@[simp] theorem State.dropRun_run_self (s : State) (g : Word) : (s.dropRun g).run g = none := by
  simp [State.run, State.dropRun]

theorem State.freeRun_run_self (s : State) (r : Run) : (s.freeRun r).run r.gid = none := by
  unfold State.freeRun
  dsimp only
  split <;> exact (State.run_congr (State.addEclipses_runs _ _) _).trans (State.dropRun_run_self _ _)

theorem State.completeRun_run_self (s : State) (r : Run) (status : Nat) (flagsHigh : Byte) :
    (s.completeRun r status flagsHigh).run r.gid = none := by
  unfold State.completeRun
  dsimp only
  split <;> exact State.freeRun_run_self _ r

/-- kill_report ends the graph that a fault names (R359). -/
theorem State.killReport_run_self {s : State} {f : FaultRec} {r : Run} (hr : s.run f.graph = some r) : (s.killReport f).run f.graph = none := by
  have hgid : r.gid = f.graph := State.gid_of_run hr
  simp only [State.killReport, hr]
  exact hgid ▸ State.completeRun_run_self s r.discard _ _

end Sys2Proof.Machine
end

section
/-! PROOF. Freezes (R396): a load that has frozen for a timestamp fault while 64 fault deliveries wait; and the refutation of the
statement about loads that freeze, are saved and end. -/

namespace Sys2Proof.Machine

/-! ### A freeze that takes place (R396) -/

/-- A load that has frozen at a device time. -/
def Run.stood (r : Run) (now : Nat) : Run := { r with frozen := true, lastFire := now }

/-- A load frozen with its tiles. -/
def State.standFrozen (s : State) (r : Run) : State := (r.tiles.foldl (fun v t => v.freezeTile t.2) s).modRun r.gid (fun y => y.stood s.ns)

section Freeze

variable {s : State} {g : Word} {r : Run}

theorem State.freezeTiles_runs_parts (s : State) (ts : List (Nat × Nat)) :
    (ts.foldl (fun v t => v.freezeTile t.2) s).runs = s.runs ∧ (ts.foldl (fun v t => v.freezeTile t.2) s).parts = s.parts :=
  List.foldlRecOn (motive := fun v : State => v.runs = s.runs ∧ v.parts = s.parts) _ _ ⟨rfl, rfl⟩ (fun _ hv _ _ => hv)

theorem State.standFrozen_run (hr : s.run g = some r) : (s.standFrozen r).run g = some (r.stood s.ns) := by
  have hruns := State.run_congr (s.freezeTiles_runs_parts r.tiles).1 g
  rw [State.standFrozen, State.gid_of_run hr, State.modRun_run _ _ (fun y => y.stood s.ns) (fun _ => rfl), hruns, hr, Option.map_some]

theorem State.standFrozen_part (s : State) (r : Run) (p : Fin 16) : (s.standFrozen r).part p = s.part p := by
  show ((r.tiles.foldl (fun v t => v.freezeTile t.2) s).parts)[p] = s.parts[p]
  rw [(s.freezeTiles_runs_parts r.tiles).2]

theorem execFreeze_freezes (hr : s.run g = some r) {why : FreezeReason} (hwhy : r.freeze = some why) (hkill : why ≠ .kill)
    (hfrozen : r.frozen = false) (hfinishing : r.finishing = false) (hreplies : ∀ y ∈ s.strandsOf r, s.awaitsReply y = false) :
    exec (.freeze g) s = .next ((s.standFrozen r).deliverTimestamp g) := by
  have hnone : (s.strandsOf r).any s.awaitsReply = false := by simpa using hreplies
  have hgid := State.gid_of_run hr
  show execFreeze g s = _
  simp only [execFreeze, hr, hwhy, hfrozen, hfinishing, hnone, State.standFrozen, Run.stood, hgid]
  simp [hkill]

/-! ### The fault of a timestamp (R141, R355) -/

theorem State.deliverFault_full {p : Fin 16} (hfull : 64 ≤ ((s.part p).pending.filter (fun x => decide (x.hook = .fault))).length)
    (f : FaultRec) : s.deliverFault p f = s.killReport f := if_pos hfull

theorem State.deliverTimestamp_eq (hr : s.run g = some r) (hwhy : r.freeze = some .timestamp) {f : FaultRec} (hf : r.fault = some f) :
    s.deliverTimestamp g = s.deliverFault (partOf r.part) { f with lastRound := r.lastRoundWord } := by
  simp only [State.deliverTimestamp, hr, hwhy, hf]

/-- A load that freezes for a timestamp fault while 64 fault deliveries wait ends: its own, the 65th, is decided by kill_report. -/
theorem execFreeze_timestamp_full (hr : s.run g = some r) (hwhy : r.freeze = some .timestamp) (hfrozen : r.frozen = false)
    (hfinishing : r.finishing = false) (hreplies : ∀ y ∈ s.strandsOf r, s.awaitsReply y = false) {f : FaultRec} (hf : r.fault = some f)
    (hgraph : f.graph = g) (hfull : 64 ≤ ((s.part (partOf r.part)).pending.filter (fun x => decide (x.hook = .fault))).length) :
    ∃ t, exec (.freeze g) s = .next t ∧ t.run g = none := by
  refine ⟨_, execFreeze_freezes hr hwhy (by decide) hfrozen hfinishing hreplies, ?_⟩
  have hrun := State.standFrozen_run hr
  rw [State.deliverTimestamp_eq hrun hwhy hf, State.deliverFault_full (by rw [State.standFrozen_part]; exact hfull), ← hgraph]
  exact State.killReport_run_self (f := { f with lastRound := _ }) (hgraph ▸ hrun)

end Freeze

/-! ### Such a load -/

/-- A fault delivery of a graph that is gone. -/
def otherDelivery : Trigger := ⟨.fault, 0x21, 0#32, some { goneFault with graph := 9#32 }⟩

/-- A graph runs on compute tile 0 while 64 such deliveries wait, and the marker of its round 0 gets a timestamp that breaks the order. -/
def stampedState : State :=
  ({ State.reset with runs := [punctRun] } : State).modPart 0 (fun x => { x with pending := List.replicate 64 otherDelivery })
    |>.timestampFault 7#32 0

/-- The fault of that timestamp. -/
def stampFault : FaultRec := punctRun.faultRec 0 6 noUnit 0xFFFF_FFFF#32 0#32 false 0#8

/-- The graph with that fault, asked to freeze. -/
def stampedRun : Run := { punctRun with freeze := some .timestamp, fault := some stampFault }

/-- The load is to freeze, and nothing holds it up. -/
theorem stampedState_ready :
    stampedState.run 7#32 = some stampedRun ∧ stampedRun.frozen = false ∧ stampedRun.finishing = false
    ∧ stampedState.strandsOf stampedRun = [] ∧ stampFault.graph = 7#32
    ∧ 64 ≤ ((stampedState.part (partOf stampedRun.part)).pending.filter (fun x => decide (x.hook = .fault))).length := by
  decide +kernel

/-- Refutes O32: a load that freezes for a timestamp fault does not always stand frozen with its rounds and stores kept. With 64 fault
deliveries waiting its own is the 65th, which kill_report decides at once (R355), so that the freeze ends the graph. -/
theorem not_loadsFreezeSaveAndEnd : ¬ Obligations.LoadsFreezeSaveAndEnd := by
  intro h
  obtain ⟨hrun, hfrozen, hfinishing, hstrands, hgraph, hfull⟩ := stampedState_ready
  have hreplies : ∀ y ∈ stampedState.strandsOf stampedRun, stampedState.awaitsReply y = false := by simp [hstrands]
  obtain ⟨hfreezes, -⟩ := h stampedState 7#32 stampedRun hrun
  obtain ⟨t, y, hexec, -, hkept, -⟩ := hfreezes .timestamp rfl hfrozen hfinishing hreplies
  obtain ⟨u, hends, hgone⟩ := execFreeze_timestamp_full hrun rfl hfrozen hfinishing hreplies rfl hgraph hfull
  obtain rfl := Host.Outcome.next.inj (hexec.symm.trans hends)
  exact Option.some_ne_none y (hkept.symm.trans hgone)

end Sys2Proof.Machine
end

section
/-! PROOF. The refutation of the statement about physical writes (R411, R412): a block outside HBM whose tag says that it is coded. -/

namespace Sys2Proof.Machine

/-! ### Blocks and their tags (R410, R411) -/

theorem State.block_isSome_of_raw {s : State} {b : Nat} (h : s.tag b = 0x8#4) : (s.block b).isSome = true := by
  simp [State.block, bdcLoad, h]

/-- Memory with one tag listed is decodable as soon as that block is: every other block is raw. -/
theorem State.decodable_of_single_tag {s : State} {b : Nat} {t : BitVec 4} (htags : s.tags = [(b, t)])
    (hb : (s.block b).isSome = true) : s.Decodable := by
  refine ⟨fun c => ?_, by simp [htags]⟩
  by_cases hc : b = c
  · exact hc ▸ hb
  · exact State.block_isSome_of_raw (by simp [State.tag, htags, Sparse.get, hc])

/-- A write outside HBM does not look at the tag, whatever the leaf (R412). -/
theorem State.physWriteByte_of_not_inHbm {s : State} {a : Nat} (h : inHbm a = false) (comp : Bool) (v : Byte) :
    s.physWriteByte comp a v = { s with mem := s.mem.write a v } := by
  simp [State.physWriteByte, h]

/-! ### A coded block outside HBM -/

/-- The first block beyond the HBM (R110), tagged as coded in one sector. -/
def strayTagged : State := { State.reset with tags := [(hbmEnd / 256, 0x1#4)] }

/-- Its 32 bytes of zeros hold 64 codes of the word 0 (R407). -/
theorem strayTagged_decodable : strayTagged.Decodable :=
  State.decodable_of_single_tag rfl (by decide +kernel)

/-- With 0x40 as its first byte, its first code is a full match with entry 0, which is empty (R407, R411). -/
theorem strayTagged_written_undecodable :
    ({ strayTagged with mem := strayTagged.mem.write hbmEnd 0x40#8 } : State).block (hbmEnd / 256) = none := by
  decide +kernel

/-- Refutes O17: memory does not stay decodable. State.Decodable speaks of every block and not of those of HBM alone, and a write
outside HBM stores its byte as it is: where the first block beyond HBM is tagged as coded, a byte 0x40 at its start makes it
undecodable. -/
theorem not_physicalWritesReadBackAndChangeNothingElse : ¬ Obligations.PhysicalWritesReadBackAndChangeNothingElse := by
  intro h
  obtain ⟨-, hstays, -⟩ := h strayTagged true hbmEnd [0x40#8] rfl strayTagged_decodable
  obtain ⟨hblocks, -⟩ := hstays
  have hsome := hblocks (hbmEnd / 256)
  rw [State.physWrite, State.physWrite, State.physWriteByte_of_not_inHbm (by decide), strayTagged_written_undecodable] at hsome
  exact absurd hsome (by decide)

end Sys2Proof.Machine
end

section
/-! PROOF. The status registers of a partition (R452). -/

namespace Sys2Proof.Machine

/-! ### Accesses of the control window (R452) -/

theorem windowAccess_iff {a n : Nat} : windowAccess a n = true ↔ (n = 4 ∨ n = 8) ∧ a % n = 0 := by
  simp [windowAccess]

/-- The accesses that lie within one 64-bit register. -/
theorem windowAccess_offset_iff (o : BitVec 3) (n : BitVec 4) :
    windowAccess o.toNat n.toNat = true ↔ (n = 4#4 ∧ (o = 0#3 ∨ o = 4#3)) ∨ (n = 8#4 ∧ o = 0#3) := by
  revert o n
  decide

/-- Written over zeros, the bytes of the access hold the value's low bits and the others stay 0. -/
theorem writePart_zero_getLsbD (o n : Nat) (v : DWord) {k : Nat} (hk : k < 64) :
    (writePart 0#64 o n v).getLsbD k = (decide (8 * o ≤ k ∧ k < 8 * o + 8 * n) && v.getLsbD (k - 8 * o)) := by
  have hw : writePart 0#64 o n v = BitVec.ofNat 64 (v.toNat % 2 ^ (8 * n) * 2 ^ (8 * o)) := by simp [writePart]
  rw [hw, BitVec.getLsbD_ofNat, Nat.testBit_mul_two_pow, Nat.testBit_mod_two_pow, BitVec.testBit_toNat]
  by_cases hlow : 8 * o ≤ k
  · have hhigh : k - 8 * o < 8 * n ↔ k < 8 * o + 8 * n := by omega
    simp [hk, hlow, hhigh]
  · simp [hlow]

/-- A write of all 8 bytes leaves nothing of what the register held. -/
theorem writePart_whole (old v : DWord) : writePart old 0 8 v = v := by
  have hw : writePart old 0 8 v = BitVec.ofNat 64 (v.toNat % 2 ^ 64) := by simp [writePart]
  rw [hw, Nat.mod_eq_of_lt v.isLt, BitVec.ofNat_toNat, BitVec.setWidth_eq]

/-! ### PSTATUS and PQERR (R452) -/

section
variable {s : State} {p : Fin 16} {o : BitVec 3} {n : BitVec 4}

theorem execPstatusRead_taken (h : windowAccess o.toNat n.toNat = true) (he : s.enumerated = true) :
    exec (.pstatusRead p o n) s = .next (s.readPstatus p o.toNat n.toNat) := by
  show execPstatusRead p o n s = _
  simp [execPstatusRead, h, he]

theorem execPqerrClear_taken (h : windowAccess o.toNat n.toNat = true) (he : s.enumerated = true) (v : DWord) :
    exec (.pqerrClear p o n v) s = .next ((s.accessDone true).clearPqerr p o.toNat n.toNat v) := by
  show execPqerrClear p o n v s = _
  simp [execPqerrClear, h, he]

theorem execStatusRegisters_refused (h : (windowAccess o.toNat n.toNat && s.enumerated) = false) (v : DWord) :
    exec (.pstatusRead p o n) s = .next (s.accessDone false) ∧ exec (.pqerrClear p o n v) s = .next (s.accessDone false) := by
  show execPstatusRead p o n s = _ ∧ execPqerrClear p o n v s = _
  simp [execPstatusRead, execPqerrClear, h]

end

/-- The six bits of PSTATUS fit its register. -/
theorem State.pstatus_toNat (s : State) (p : Fin 16) :
    let x := s.part p
    let bit (c : Bool) (k : Nat) : Nat := if c then 2 ^ k else 0
    (s.pstatus p).toNat = bit x.held 0 + bit x.almanac.isSome 1 + bit x.stickyFallback 2 + bit s.harebell 3 + bit x.shootOverflow 4
      + bit x.shootError 5 := by
  intro x bit
  have h (c : Bool) (k : Nat) : bit c k ≤ 2 ^ k := by
    cases c
    · exact Nat.zero_le _
    · exact Nat.le_refl _
  have hsum := Nat.add_le_add (Nat.add_le_add (Nat.add_le_add (Nat.add_le_add (Nat.add_le_add (h x.held 0) (h x.almanac.isSome 1))
    (h x.stickyFallback 2)) (h s.harebell 3)) (h x.shootOverflow 4)) (h x.shootError 5)
  exact Nat.mod_eq_of_lt (Nat.lt_of_le_of_lt hsum (by decide))

theorem State.readPstatus_formed {s : State} {p : Fin 16} (hf : (s.part p).formed = true) (o : BitVec 3) (n : Nat) :
    s.readPstatus p o.toNat n =
      (let t : State := { s with unsupported := false, reply := some (readPart (s.pstatus p) o.toNat n, false) }
       if o = 0#3 then t.modPart p (fun z => { z with shootOverflow := false, shootError := false }) else t) := by
  have ho : o.toNat = 0 ↔ o = 0#3 := BitVec.toNat_inj (y := 0#3)
  simp only [State.readPstatus, hf, if_true, ho]
  rfl

/-- Settles O48: the accesses that the two registers take are those within 8 bytes, and each is the model's read or write of that part. -/
theorem statusRegistersReadAndClear : Obligations.StatusRegistersReadAndClear := by
  intro s p o n v x bit status
  refine ⟨fun he ha => ?_, fun h => ?_⟩
  · have hwin := (windowAccess_offset_iff o n).mpr ha
    refine ⟨fun hf => ?_, writePart 0#64 o.toNat n.toNat v, execPqerrClear_taken hwin he v, fun k hk => writePart_zero_getLsbD _ _ v hk⟩
    rw [execPstatusRead_taken hwin he, State.readPstatus_formed hf, readPart, State.pstatus_toNat]
  · refine execStatusRegisters_refused ?_ v
    rw [Bool.and_eq_false_iff]
    exact h.symm.imp (fun ha => Bool.eq_false_iff.mpr (mt (windowAccess_offset_iff o n).mp ha)) id

end Sys2Proof.Machine
end

section
/-! SUPPORT. What the device's own writes leave of a partition (R452, R453): translations and stores change none, and an entry put into a
ring changes rings alone. -/

namespace Sys2Proof.Machine

/-! ### Writes through a translation change no partition (R128, R133) -/

@[simp] theorem State.choose_parts (s : State) : s.choose.2.parts = s.parts := rfl

@[simp] theorem State.blockForWrite_parts (s : State) (b : Nat) : (s.blockForWrite b).2.parts = s.parts := by
  unfold State.blockForWrite
  split <;> rfl

@[simp] theorem State.physWriteByte_parts (s : State) (comp : Bool) (a : Nat) (v : Byte) : (s.physWriteByte comp a v).parts = s.parts := by
  unfold State.physWriteByte
  split
  · rfl
  · split <;> exact s.blockForWrite_parts _

@[simp] theorem State.physWrite_parts (s : State) (comp : Bool) (a : Nat) (bs : List Byte) : (s.physWrite comp a bs).parts = s.parts := by
  induction bs generalizing s a with
  | nil => rfl
  | cons b bs ih => exact (ih _ _).trans (s.physWriteByte_parts comp a b)

@[simp] theorem State.fillL2_parts (s : State) (line : Nat) : (s.fillL2 line).parts = s.parts := by
  unfold State.fillL2
  split <;> rfl

@[simp] theorem State.touchL2_parts (s : State) (a n : Nat) : (s.touchL2 a n).parts = s.parts :=
  List.foldlRecOn (motive := fun v => v.parts = s.parts) (linesOf a n) State.fillL2 rfl (fun v h l _ => (v.fillL2_parts l).trans h)

/-- What both branches of a choice keep, the choice keeps. -/
theorem ite_keeps {α β : Type} (g : α → β) {c : Prop} [Decidable c] {x y : α} {v : β} (hx : g x = v) (hy : g y = v) :
    g (if c then x else y) = v := by
  by_cases h : c
  · rw [if_pos h, hx]
  · rw [if_neg h, hy]

@[simp] theorem State.leafFor_parts (s : State) (g : Agent) (va : Nat) (acc : Access) : (s.leafFor g va acc).2.2.parts = s.parts := by
  unfold State.leafFor
  split
  · rfl
  · let parts (x : WalkEnd × Bool × State) := x.2.2.parts
    exact ite_keeps parts rfl (ite_keeps parts rfl (ite_keeps parts rfl rfl))

@[simp] theorem State.translate_parts (s : State) (g : Agent) (va : Nat) (acc : Access) : (s.translate g va acc).2.parts = s.parts := by
  have hleaf := s.leafFor_parts g va acc
  unfold State.translate
  generalize s.leafFor g va acc = w at hleaf
  obtain ⟨_ | _ | _, fromTlb, s1⟩ := w
  · let parts (x : Xlat × State) := x.2.parts
    refine ite_keeps parts hleaf (ite_keeps parts hleaf ?_)
    exact ite_keeps State.parts hleaf ((State.physWriteByte_parts _ _ _ _).trans hleaf)
  · exact hleaf
  · exact hleaf

@[simp] theorem State.virtWrite_parts (s : State) (g : Agent) (va : Nat) (bs : List Byte) : (s.virtWrite g va bs).2.parts = s.parts := by
  have htr := s.translate_parts g va .write
  unfold State.virtWrite
  generalize s.translate g va .write = x at htr
  obtain ⟨_ | _ | _, s1⟩ := x
  · simpa using htr
  · exact htr
  · exact htr

@[simp] theorem State.virtWriteAll_parts (s : State) (g : Agent) (va : Nat) (bs : List Byte) : (s.virtWriteAll g va bs).2.parts = s.parts := by
  induction bs generalizing s va with
  | nil => rfl
  | cons b bs ih =>
    have hw := s.virtWrite_parts g va [b]
    unfold State.virtWriteAll
    generalize s.virtWrite g va [b] = x at hw
    obtain ⟨_ | _ | _, s1⟩ := x
    · exact (ih s1 _).trans hw
    · exact hw
    · exact hw

theorem State.part_congr {s v : State} (h : v.parts = s.parts) (p : Fin 16) : v.part p = s.part p :=
  congrArg (fun ps => ps[p]) h

/-! ### An entry put into a ring changes rings alone (R453, R454) -/

/-- What a change of a partition keeps of it, it keeps of every partition. -/
theorem State.modPart_keeps {α : Type} (s : State) (p : Fin 16) (f : Part → Part) (g : Part → α) (h : ∀ x, g (f x) = g x) (q : Fin 16) :
    g ((s.modPart p f).part q) = g (s.part q) := by
  by_cases e : p = q
  · subst e
    rw [State.modPart_part_self, h]
  · rw [State.modPart_part_ne s p q f e]

section
variable {α : Type} {g : Part → α} (hg : ∀ x n r, g (Part.setRing x n r) = g x) (s : State) (p : Fin 16) (n : RingName) (bytes : List Byte)
  (q : Fin 16)
include hg

theorem State.ringMessage_keeps : g ((s.ringMessage p n).part q) = g (s.part q) :=
  s.modPart_keeps p (fun x => x.setRing n { (s.part p).ring n with sinceMsg := 0, lastMsg := s.ns }) g (fun _ => hg _ _ _) q

theorem State.ringWrite_keeps : g ((s.ringWrite p n bytes).part q) = g (s.part q) := by
  unfold State.ringWrite
  dsimp only
  split
  · rw [State.ringMessage_keeps hg, State.modPart_keeps _ _ _ _ (fun x => hg x _ _)]
    exact congrArg g (State.part_congr (by simp) q)
  · rw [State.modPart_keeps _ _ _ _ (fun x => hg x _ _)]
    exact congrArg g (State.part_congr (by simp) q)

theorem State.logNoted_keeps (graph : Word) (fuel : Nat) : g ((s.logNoted graph fuel).part q) = g (s.part q) := by
  induction fuel generalizing s with
  | zero => rfl
  | succ fuel ih =>
    unfold State.logNoted
    split
    · rfl
    · exact (ih _).trans (State.ringWrite_keeps hg _ _ _ _ q)

theorem State.ringPut_keeps : g ((s.ringPut p n bytes).part q) = g (s.part q) :=
  (State.logNoted_keeps hg _ q _ _).trans (State.ringWrite_keeps hg s p n bytes q)

end

end Sys2Proof.Machine
end

section
/-! PROOF. The rings of a partition (R453, R454): heads, configurations, messages, and completion records that wait. -/

namespace Sys2Proof.Machine

/-! ### Heads, configurations and messages (R453) -/

section
variable {s : State} {p : Fin 16} {n : RingName}

@[simp] theorem Part.setRing_faults (x : Part) (n : RingName) (r : Ring) : (x.setRing n r).faults = x.faults := by
  cases n <;> rfl

theorem execRingHeadWrite_ignored (hf : (s.part p).formed = true) {v : Word}
    (h : (((s.part p).ring n).tail - ((s.part p).ring n).head).toNat < (v - ((s.part p).ring n).head).toNat) :
    exec (.ringHeadWrite p n v) s = .next s := by
  show execRingHeadWrite p n v s = _
  rw [execRingHeadWrite, if_pos hf, State.writeRingHead, if_neg (Nat.not_le.mpr h)]

/-- With no page-fault request outstanding, none is posted into the room that a ring gains (R454). -/
theorem State.postFaults_none (h : (s.part p).faults = []) (fuel : Nat) : s.postFaults p fuel = s := by
  cases fuel with
  | zero => rfl
  | succ fuel => simp [State.postFaults, h]

theorem execRingHeadWrite_moves (hf : (s.part p).formed = true) {v : Word}
    (h : (v - ((s.part p).ring n).head).toNat ≤ (((s.part p).ring n).tail - ((s.part p).ring n).head).toNat) (hfaults : (s.part p).faults = []) :
    exec (.ringHeadWrite p n v) s = .next (s.modPart p (fun x => x.setRing n { (s.part p).ring n with head := v })) := by
  show execRingHeadWrite p n v s = _
  rw [execRingHeadWrite, if_pos hf, State.writeRingHead, if_pos h, State.postFaults_none (by simp [hfaults])]

theorem ringCfgOk_eq (base cfg : DWord) :
    ringCfgOk base cfg = decide (base.toNat % 4096 = 0 ∧ 4 ≤ cfg.toNat % 32 ∧ cfg.toNat % 32 ≤ 16) := by
  rw [Bool.eq_iff_iff]
  simp [ringCfgOk, field, bitsOf, and_assoc]

theorem execRingEnable_disabled (hf : (s.part p).formed = true) {c : DWord} (hc : c.getLsbD 5 = true)
    (hr : ((s.part p).ring n).enabled = false) (hfaults : (s.part p).faults = []) :
    exec (.ringEnable p n c) s = .next (s.modPart p (fun x => x.setRing n { (s.part p).ring n with
      cfg := c &&& ~~~0x20#64
      enabled := ringCfgOk ((s.part p).ring n).base c })) := by
  show execRingEnable p n c s = _
  rw [execRingEnable, bitOf_toNat, hf, hc, Bool.and_true, if_pos rfl, State.writeRingCfg, if_neg (by simp [hr]), bitOf_toNat, hc,
    Bool.true_and, State.postFaults_none (by simp [hfaults])]
  rfl

theorem execRingEnable_enabled {c : DWord} (hc : c.getLsbD 5 = true) (hr : ((s.part p).ring n).enabled = true) :
    exec (.ringEnable p n c) s = .next s := by
  show execRingEnable p n c s = _
  simp [execRingEnable, State.writeRingCfg, bitOf_toNat, hc, hr]

theorem execMsixTimer_eq (s : State) (p : Fin 16) (n : RingName) : exec (.msixTimer p n) s =
    .next (if 0 < ((s.part p).ring n).sinceMsg ∧ ((s.part p).ring n).lastMsg + 1000 ≤ s.ns then s.ringMessage p n else s) := by
  show execMsixTimer p n s = _
  simp [execMsixTimer]

end

/-! ### Completion records that wait (R454) -/

section
variable {s : State} {p : Fin 16}

theorem State.releaseCompletions_of_no_room (h : (s.part p).cr.enabled = false ∨ (s.part p).cr.full = true) (fuel : Nat) :
    s.releaseCompletions p fuel = s := by
  have hroom : ((s.part p).cr.enabled && !(s.part p).cr.full) = false := by
    rcases h with h | h <;> simp [h]
  cases fuel with
  | zero => rfl
  | succ fuel =>
    unfold State.releaseCompletions
    dsimp only
    split
    · rfl
    · rw [if_neg (by simp [hroom])]

/-- A release that frees no tile and leaves no deferred decision to apply writes the records that wait and no more. -/
theorem execRingRecordRelease_eq {v : State} (hv : s.releaseCompletions p (s.part p).waiting.length = v)
    (hheld : ¬ (v.part p).heldTiles.length < (s.part p).heldTiles.length)
    (h : (v.part p).waiting ≠ [] ∨ (v.part p).deferred = none ∧ (v.part p).deferredFallback = false) :
    exec (.ringRecordRelease p) s = .next v := by
  show execRingRecordRelease p s = _
  unfold execRingRecordRelease
  dsimp only
  rw [hv, if_neg hheld]
  rcases h with hw | ⟨hd, hb⟩
  · obtain ⟨b, bs, hw⟩ := List.exists_cons_of_ne_nil hw
    rw [hw]
  · rw [hd, hb]
    cases (v.part p).waiting <;> rfl

theorem execRingRecordRelease_waits (hw : (s.part p).waiting ≠ []) (h : (s.part p).cr.enabled = false ∨ (s.part p).cr.full = true) :
    exec (.ringRecordRelease p) s = .next s :=
  execRingRecordRelease_eq (State.releaseCompletions_of_no_room h _) (Nat.lt_irrefl _) (.inl hw)

theorem State.releaseCompletions_one {b : List Byte} (hw : (s.part p).waiting = [b]) (hon : (s.part p).cr.enabled = true)
    (hroom : (s.part p).cr.full = false) (hheld : (s.part p).heldTiles = []) :
    s.releaseCompletions p 1 = (s.modPart p (fun x => { x with waiting := [] })).ringPut p .completion b := by
  rw [State.releaseCompletions, hw]
  simp only [hon, hroom, Bool.not_false, Bool.and_true, if_true, State.releaseCompletions]
  rw [State.modPart_congr]
  simp [hheld]

/-- Putting the record leaves what a release looks at afterwards as it was: no tile is held and no decision deferred. -/
theorem execRingRecordRelease_one {b : List Byte} (hw : (s.part p).waiting = [b]) (hon : (s.part p).cr.enabled = true)
    (hroom : (s.part p).cr.full = false) (hheld : (s.part p).heldTiles = []) (hdef : (s.part p).deferred = none)
    (hback : (s.part p).deferredFallback = false) :
    exec (.ringRecordRelease p) s = .next ((s.modPart p (fun x => { x with waiting := [] })).ringPut p .completion b) := by
  have hput := State.ringPut_keeps (g := fun x => (x.deferred, x.deferredFallback)) (fun x n r => by cases n <;> rfl)
    (s.modPart p (fun x => { x with waiting := [] })) p .completion b p
  rw [State.modPart_part_self, hdef, hback] at hput
  refine execRingRecordRelease_eq ?_ (by simp [hheld]) (.inr (Prod.mk.inj hput))
  rw [hw]
  exact State.releaseCompletions_one hw hon hroom hheld

end

/-- Settles O49: a head, a configuration and a message change their ring alone, and a record that waits is put into the ring where that has
room. -/
theorem ringsFollowTheirRegisters : Obligations.RingsFollowTheirRegisters := by
  intro s p n v c r
  refine ⟨fun hf => ⟨execRingHeadWrite_ignored hf, execRingHeadWrite_moves hf, fun hc hr hfaults => ?_, execRingEnable_enabled⟩,
    fun howed hns => ?_, fun h => ?_, fun _ => execRingRecordRelease_one, execRingRecordRelease_waits⟩
  · rw [execRingEnable_disabled hf hc hr hfaults, ringCfgOk_eq]
  · rw [execMsixTimer_eq, if_pos ⟨howed, hns⟩]
    rfl
  · have hquiet : ¬ (0 < r.sinceMsg ∧ r.lastMsg + 1000 ≤ s.ns) := fun ⟨howed, hns⟩ =>
      h.elim (Nat.ne_of_gt howed) (Nat.not_lt.mpr hns)
    rw [execMsixTimer_eq, if_neg hquiet]

end Sys2Proof.Machine
end

section
/-! PROOF. Memory from outside (R130, R175, R450, R451): accesses of HBM, lines of HDM memory, the marks of tables. -/

namespace Sys2Proof.Machine

/-! ### Bytes of HBM (R450) -/

/-- The low bytes of a doubleword, in order. -/
theorem leBytes_toNat_eq_map_byteAt (k : Nat) (v : DWord) : leBytes k v.toNat = (List.range k).map (byteAt v) :=
  List.ext_getElem (by simp) (fun i _ _ => by simp [leBytes_getElem, byteAt_eq_ofNat])

/-- Whether the device answers an access of n bytes of HBM at an offset (R450, R471). -/
def State.answersHost (s : State) (o n : Nat) : Bool := s.enumerated && 1 ≤ n && n ≤ 8 && o + n ≤ hbmEnd

theorem State.answersHost_iff {s : State} {o n : Nat} :
    s.answersHost o n = true ↔ s.enumerated = true ∧ 1 ≤ n ∧ n ≤ 8 ∧ o + n ≤ 2 ^ 39 := by
  simp only [State.answersHost, Bool.and_eq_true, decide_eq_true_eq, and_assoc]
  rfl

section
variable {s : State} {o : BitVec 39} {n : BitVec 4}

theorem execHostMemoryWrite_eq (v : DWord) : exec (.hostMemoryWrite o n v) s = .next (if s.answersHost o.toNat n.toNat then
    (s.physWrite false o.toNat ((List.range n.toNat).map (byteAt v))).touchL2 o.toNat n.toNat else s) := by
  rw [← leBytes_toNat_eq_map_byteAt]
  rfl

theorem execHostMemoryRead_unanswered (h : s.answersHost o.toNat n.toNat = false) : exec (.hostMemoryRead o n) s = .next s :=
  if_neg (Bool.eq_false_iff.mp h)

theorem execHostMemoryRead_good (h : s.answersHost o.toNat n.toNat = true) (hgood : s.physBad o.toNat n.toNat = false) :
    exec (.hostMemoryRead o n) s =
      .next { s.touchL2 o.toNat n.toNat with reply := some (BitVec.ofNat 512 (leNat (s.physBytes o.toNat n.toNat)), false) } :=
  (if_pos h).trans (if_neg (Bool.eq_false_iff.mp hgood))

@[simp] theorem State.errSyndrome_mem (s : State) (e : MemErr) : (s.errSyndrome e).2.mem = s.mem := by
  unfold State.errSyndrome
  split <;> rfl

@[simp] theorem State.errSyndrome_mlog (s : State) (e : MemErr) : (s.errSyndrome e).2.mlog = s.mlog := by
  unfold State.errSyndrome
  split <;> rfl

@[simp] theorem State.logManagement_mlog_length (s : State) (e : ErrRec) : (s.logManagement e).mlog.length = s.mlog.length + 1 :=
  List.length_append

/-- Bytes that are bad come back poisoned, and management logs the error (R374, R450). -/
theorem execHostMemoryRead_bad (h : s.answersHost o.toNat n.toNat = true) (hbad : s.physBad o.toNat n.toNat = true) :
    ∃ t, exec (.hostMemoryRead o n) s = .next t
      ∧ t.reply = some (BitVec.ofNat 512 (leNat (s.physBytes o.toNat n.toNat)), true) ∧ t.mlog.length = s.mlog.length + 1 ∧ t.mem = s.mem := by
  refine ⟨_, (if_pos h).trans (if_pos hbad), rfl, ?_, ?_⟩
  · exact (State.logManagement_mlog_length _ _).trans 
      (congrArg (fun l => l.length + 1) ((s.eccMet o.toNat n.toNat).errSyndrome_mlog (s.memErr o.toNat n.toNat false)))
  · exact (s.eccMet o.toNat n.toNat).errSyndrome_mem (s.memErr o.toNat n.toNat false)

end

/-! ### Lines of HDM memory (R175, R451) -/

/-- Whether the HDM decoder maps a line. -/
def State.hdmMaps (s : State) (line : Nat) : Bool :=
  s.hdmBase ≤ 64 * line && 64 * line + 64 ≤ s.hdmBase + s.hdmSize && inHbm (64 * line + 63)

theorem State.hdmMaps_iff {s : State} {line : Nat} : s.hdmMaps line = true ↔
    s.hdmBase ≤ 64 * line ∧ 64 * line + 64 ≤ s.hdmBase + s.hdmSize ∧ 64 * line + 64 ≤ 2 ^ 39 := by
  simp only [State.hdmMaps, inHbm, Bool.and_eq_true, decide_eq_true_eq]
  rw [hbmEnd]
  omega

section
variable {s : State} {a : BitVec 52}

theorem execCxlMemAccess_before_enumeration (he : s.enumerated = false) (wr : Bool) (w : BitVec 512) :
    exec (.cxlMemAccess wr a w) s = .next s :=
  if_pos (by simp [he])

theorem execCxlMemAccess_unmapped (he : s.enumerated = true) (h : s.hdmMaps (a.toNat / 64) = false) (wr : Bool) (w : BitVec 512) :
    exec (.cxlMemAccess wr a w) s = .fault (.unmappedCxl a.toNat) := by
  have hon : ¬ (!s.enumerated) = true := by simp [he]
  have hmap : (!s.hdmMaps (a.toNat / 64)) = true := by simp [h]
  exact (if_neg hon).trans (if_pos hmap)

theorem execCxlMemAccess_mapped (he : s.enumerated = true) (h : s.hdmMaps (a.toNat / 64) = true) (w : BitVec 512) :
    exec (.cxlMemAccess true a w) s = .next (({ s with
      l2 := s.l2.filter (fun x => decide (x ≠ a.toNat / 64)), xcache := s.xcache.filter (fun x => decide (x ≠ a.toNat / 64)) } : State).physWrite
        false (64 * (a.toNat / 64)) (leBytes 64 w.toNat))
    ∧ (s.physBad (64 * (a.toNat / 64)) 64 = false → exec (.cxlMemAccess false a w) s =
        .next { s with reply := some (BitVec.ofNat 512 (leNat (s.physBytes (64 * (a.toNat / 64)) 64)), false) }) := by
  have hon : ¬ (!s.enumerated) = true := by simp [he]
  have hmap : ¬ (!s.hdmMaps (a.toNat / 64)) = true := by simp [h]
  refine ⟨(if_neg hon).trans ((if_neg hmap).trans (if_pos rfl)),
    fun hgood => (if_neg hon).trans ((if_neg hmap).trans ((if_neg Bool.false_ne_true).trans ?_))⟩
  dsimp only
  rw [hgood]
  rfl

end

/-- Settles O51: each access in its own case, by the two tests that the device makes, of the bytes of HBM and of the line that the HDM decoder
maps. -/
theorem outsideMemoryAccesses : Obligations.OutsideMemoryAccesses := by
  intro s o n v a w k
  refine ⟨fun he h1 h8 hend => ?_, ?_, fun he => ?_, rfl⟩
  · have hans : s.answersHost o.toNat n.toNat = true := State.answersHost_iff.mpr ⟨he, h1, h8, hend⟩
    exact ⟨by rw [execHostMemoryWrite_eq, if_pos hans], execHostMemoryRead_good hans, execHostMemoryRead_bad hans⟩
  · intro base
    have hbase : 64 * (a.toNat / 64) = base := Nat.mul_comm _ _
    refine ⟨fun he hlow hhigh hend => ?_, fun he hout wr => execCxlMemAccess_unmapped he ?_ wr w⟩
    · rw [← hbase] at hlow hhigh hend ⊢
      exact execCxlMemAccess_mapped he (State.hdmMaps_iff.mpr ⟨hlow, hhigh, hend⟩) w
    · rw [Bool.eq_false_iff, Ne, State.hdmMaps_iff, hbase]
      omega
  · have hans : s.answersHost o.toNat n.toNat = false := by simp [State.answersHost, he]
    exact ⟨by simp [execHostMemoryWrite_eq, hans], execHostMemoryRead_unanswered hans, fun wr => execCxlMemAccess_before_enumeration he wr w⟩

end Sys2Proof.Machine
end

section
/-! PROOF. Writes to the control window (R342, R452, R473): the registers of the device, of a queue and of a partition. -/

namespace Sys2Proof.Machine

/-! ### The window and its parts (R452) -/

section
variable {s : State} {o : BitVec 21} {n : BitVec 4}

theorem partArg_ofNat (p : Fin 16) : partArg (BitVec.ofNat 64 p.val) = some p := by
  revert p
  decide

theorem windowAccess_iff_toNat {a : Nat} : windowAccess a n.toNat = true ↔ (n = 4#4 ∨ n = 8#4) ∧ a % n.toNat = 0 := by
  rw [windowAccess_iff, ← BitVec.toNat_inj, ← BitVec.toNat_inj]
  rfl

theorem execRegisterWrite_refused (h : ¬ ((n = 4#4 ∨ n = 8#4) ∧ o.toNat % n.toNat = 0) ∨ s.enumerated = false) (v : DWord) :
    exec (.registerWrite o n v) s = .next (s.accessDone false) := by
  rw [← windowAccess_iff_toNat] at h
  exact if_pos (by simpa using h)

end

section
variable {s : State} (he : s.enumerated = true) {o : BitVec 21}
include he

/-- An aligned write of 8 bytes to the device's registers. -/
theorem execRegisterWrite_device (ha : o.toNat % 8 = 0) (hlt : o.toNat < 0x10000) (v : DWord) :
    exec (.registerWrite o 8#4 v) s = (s.accessDone true).writeDevice o.toNat 8 v := by
  have hwin : windowAccess o.toNat 8 = true := windowAccess_iff.mpr ⟨.inr rfl, ha⟩
  have htaken : ¬ (!windowAccess o.toNat 8 || !s.enumerated) = true := by simp [hwin, he]
  exact (if_neg htaken).trans (if_pos hlt)

theorem execRegisterWrite_part {p : Fin 16} (ha : o.toNat % 8 = 0) (hp : o.toNat / 0x10000 = p.val + 1) (v : DWord) :
    exec (.registerWrite o 8#4 v) s = .next (if (s.part p).formed = false then s.accessDone true
      else if o.toNat % 0x10000 < 0x1000 then
        (s.accessDone true).writeQueueReg p (Fin.ofNat 64 (o.toNat % 0x10000 / 64)) (o.toNat % 0x10000 % 64) 8 v
      else if o.toNat % 0x10000 < 0x1100 then (s.accessDone true).writePartReg p (o.toNat % 0x10000 - 0x1000) 8 v
      else s.accessDone true) := by
  have hwin : windowAccess o.toNat 8 = true := windowAccess_iff.mpr ⟨.inr rfl, ha⟩
  have htaken : ¬ (!windowAccess o.toNat 8 || !s.enumerated) = true := by simp [hwin, he]
  have hpart : partArg (BitVec.ofNat 64 (o.toNat / 0x10000 - 1)) = some p := by
    rw [hp]
    exact partArg_ofNat p
  refine (if_neg htaken).trans ((if_neg (by omega)).trans ?_)
  rw [hpart]
  dsimp only
  cases (s.part p).formed
  · rfl
  · simp only [Bool.not_true, Bool.true_eq_false, Bool.false_eq_true, if_false, apply_ite Host.Outcome.next]
    rfl

end

/-! ### The device's registers (R473) -/

section
variable {s : State}

theorem State.writeDevice_busy (h : s.busy.isSome = true) (o n : Nat) (v : DWord) : s.writeDevice o n v = .next s :=
  if_pos h

theorem State.writeDevice_marg (h : s.busy.isSome = false) {o : Nat} {k : Fin 6} (ho : o = 0x108 + 8 * k.val) (v : DWord) :
    s.writeDevice o 8 v = .next { s with marg := s.marg.set k v } := by
  have hlt := k.isLt
  have hk : Fin.ofNat 6 ((o - 0x108) / 8) = k := Fin.ext (by simp only [Fin.ofNat]; omega)
  have hoff : o % 8 = 0 := by omega
  have hcmd : o ≠ 0x100 := by omega
  have harg : 0x108 ≤ o ∧ o < 0x138 := by omega
  simp only [State.writeDevice, h, Bool.false_eq_true, if_false, hcmd, harg, decide_true, Bool.and_self, if_true, hk, hoff, writePart_whole]

theorem State.writeDevice_command (h : s.busy = none) (v : DWord) : s.writeDevice 0x100 8 v =
    if s.slowCommand then .next (({ s with slowCommand := false } : State).busyWith v) else s.startCommand v := by
  simp only [State.writeDevice, h, writePart_whole]
  rfl

theorem State.writeDevice_reserved {o : Nat} (h : 0x138 ≤ o) (n : Nat) (v : DWord) : s.writeDevice o n v = .next s := by
  have hcmd : o ≠ 0x100 := by omega
  have harg : ¬ o < 0x138 := by omega
  simp [State.writeDevice, hcmd, harg]

section
variable {v : DWord} (hhigh : field v 63 32 = 0) (hmid : field v 15 8 = 0)
include hhigh hmid

theorem State.startCommand_gkill (hop : field v 7 0 = 0x05) : s.startCommand v = exec (.gkill (BitVec.ofNat 16 (field v 31 16))) s := by
  rw [State.startCommand, if_neg (by simp [hhigh, hmid]), hop]
  rfl

theorem State.startCommand_eclclr (hop : field v 7 0 = 0x01) : s.startCommand v = exec (.eclclr (BitVec.ofNat 16 (field v 31 16))) s := by
  rw [State.startCommand, if_neg (by simp [hhigh, hmid]), hop]
  rfl

/-- An opcode that R474 does not list ends with status 1. -/
theorem State.startCommand_unlisted (hop : field v 7 0 = 0 ∨ 0x0C < field v 7 0) :
    s.startCommand v = s.command (BitVec.ofNat 16 (field v 31 16)) (fun s => (refuse 1, s)) := by
  rw [State.startCommand, if_neg (by simp [hhigh, hmid])]
  rcases hop with h0 | hgt
  · rw [h0]
    rfl
  · obtain ⟨k, hk⟩ : ∃ k, field v 7 0 = k + 13 := ⟨_, (Nat.sub_add_cancel hgt).symm⟩
    rw [hk]
    rfl

end

theorem State.command_refused (he : s.enumerated = true) (hb : s.busy = none) (hl : s.lifecycle ≠ 3#2) (tag : Half) :
    s.command tag (fun s => (refuse 1, s)) = .next { s with mstat := BitVec.ofNat 64 (tag.toNat + 65536), mres := 0#64 } := by
  rw [State.command, if_neg (by simp [he, hb]), if_neg hl]
  rfl

end

/-! ### The registers of a queue and of a partition (R342, R452) -/

section
variable {s : State} {p : Fin 16}

theorem State.writeQueueReg_base (q : Fin 64) (v : DWord) : s.writeQueueReg p q 0 8 v =
    if ((s.part p).queues[q]).enabled then s else s.modQueue p q (fun y => { y with base := v }) := by
  simp [State.writeQueueReg, writePart_whole]

theorem State.writePartReg_sysctx (h : ∀ r ∈ s.runs, r.part ≠ p.val) (v : DWord) :
    s.writePartReg p 0x10 8 v = s.modPart p (fun y => { y with sysctx := v.setWidth 16 }) := by
  have hrun : s.runs.any (fun r => r.part == p.val) = false := by simpa using h
  simp [State.writePartReg, hrun, writePart_whole]

end

/-- Settles O55: the offset selects the device's registers, or a partition and in it a queue or the partition's own registers, and each register
takes the whole of an 8-byte write. -/
theorem registerWritesReachTheirRegister : Obligations.RegisterWritesReachTheirRegister := by
  intro s o n v done a
  refine ⟨fun h => execRegisterWrite_refused h v, fun he => ⟨?_, ?_, ?_, ?_, ?_, ?_, ?_, ?_⟩⟩
  · rintro k rfl ha
    have hk := k.isLt
    rw [execRegisterWrite_device he (by omega) (by omega)]
    cases hb : s.busy.isSome
    · exact State.writeDevice_marg (s := done) hb ha v
    · exact State.writeDevice_busy (s := done) hb _ _ v
  · rintro rfl ha hb
    rw [execRegisterWrite_device he (by omega) (by omega)]
    exact State.writeDevice_busy (s := done) hb _ _ v
  · rintro rfl (ha : o.toNat = 0x100) hb hslow
    rw [execRegisterWrite_device he (by omega) (by omega), ha, State.writeDevice_command (s := s.accessDone true) hb]
    exact if_pos hslow
  · rintro rfl (ha : o.toNat = 0x100) hb hslow hhigh hmid tag
    have hstart : exec (.registerWrite o 8#4 v) s = done.startCommand v := by
      rw [execRegisterWrite_device he (by omega) (by omega), ha, State.writeDevice_command (s := s.accessDone true) hb]
      exact if_neg (Bool.eq_false_iff.mp hslow)
    rw [hstart]
    refine ⟨State.startCommand_gkill hhigh hmid, State.startCommand_eclclr hhigh hmid, fun hop hl => ?_⟩
    rw [State.startCommand_unlisted hhigh hmid hop, State.command_refused (s := done) he hb hl]
  · rintro p q rfl ha hf
    have hq := q.isLt
    have hblock : Fin.ofNat 64 (o.toNat % 0x10000 / 64) = q := Fin.ext (by simp only [Fin.ofNat]; omega)
    have hbase : o.toNat % 0x10000 % 64 = 0 := by omega
    rw [execRegisterWrite_part he (p := p) (by omega) (by omega), if_neg (by simp [hf]), if_pos (by omega), hblock, hbase,
      State.writeQueueReg_base]
    rfl
  · rintro p rfl ha hf hruns
    have hoff : o.toNat % 0x10000 - 0x1000 = 0x10 := by omega
    rw [execRegisterWrite_part he (p := p) (by omega) (by omega), if_neg (by simp [hf]), if_neg (by omega), if_pos (by omega), hoff]
    exact congrArg _ (State.writePartReg_sysctx (s := done) hruns v)
  · rintro p rfl ha hp hf
    rw [execRegisterWrite_part he (p := p) ha hp, if_pos hf]
    rfl
  · rintro rfl ha hlow hhigh
    rw [execRegisterWrite_device he ha hhigh]
    exact State.writeDevice_reserved (s := done) hlow _ v

end Sys2Proof.Machine
end

section
/-! PROOF. Links (R374, R380, R462): what each link event leaves of the links, the logs and the eclipse map. -/

namespace Sys2Proof.Machine

/-! ### Links read back (R461) -/

theorem Sparse.get_set_self {α : Type} (k : Nat) (v d : α) : ∀ m : Sparse α, (Sparse.set m k v).get k d = v
  | [] => by simp [Sparse.set, Sparse.get]
  | (j, w) :: rest => by
    rcases Nat.lt_trichotomy k j with h | h | h
    · simp [Sparse.set, Sparse.get, h]
    · simp [Sparse.set, Sparse.get, h]
    · simp [Sparse.set, Sparse.get, Nat.ne_of_gt h, Nat.ne_of_lt h, Nat.not_lt_of_gt h, Sparse.get_set_self k v d rest]

section
variable (s : State) (d l : Nat)

@[simp] theorem State.modLink_link_self (f : LinkSt → LinkSt) : (s.modLink d l f).link d l = f (s.link d l) :=
  Sparse.get_set_self (8 * d + l) (f (s.link d l)) _ s.links

@[simp] theorem State.logLink_link (event eclipse d' l' : Nat) : (s.logLink d l event eclipse).link d' l' = s.link d' l' := rfl

@[simp] theorem State.logLink_mem (event eclipse : Nat) : (s.logLink d l event eclipse).mem = s.mem := rfl

@[simp] theorem State.logLink_runs (event eclipse : Nat) : (s.logLink d l event eclipse).runs = s.runs := rfl

@[simp] theorem State.logLink_unitAt (event eclipse : Nat) (z : RCtx) (u : Nat) : (s.logLink d l event eclipse).unitAt z u = s.unitAt z u := rfl

@[simp] theorem State.logLink_mlog_length (event eclipse : Nat) : (s.logLink d l event eclipse).mlog.length = s.mlog.length + 1 :=
  State.logManagement_mlog_length _ _

theorem State.mlog_le_logLink (event eclipse : Nat) : s.mlog <+: (s.logLink d l event eclipse).mlog :=
  ⟨_, rfl⟩

@[simp] theorem State.addEclipse_eclipsed (u : Word) : (s.addEclipse u).eclipsed u = true := by
  unfold State.addEclipse
  split
  · assumption
  · simp [State.eclipsed]

@[simp] theorem State.addEclipse_mem (u : Word) : (s.addEclipse u).mem = s.mem := by
  unfold State.addEclipse
  split <;> rfl

@[simp] theorem State.addEclipse_mlog (u : Word) : (s.addEclipse u).mlog = s.mlog := by
  unfold State.addEclipse
  split <;> rfl

@[simp] theorem State.addEclipse_link (u : Word) : (s.addEclipse u).link d l = s.link d l := by
  unfold State.addEclipse
  split <;> rfl

/-- A link that is down carries nothing. -/
theorem State.linkUp_of_down {s : State} {d l : Nat} (h : (s.link d l).down = true) : s.linkUp d l = false := by
  simp [State.linkUp, h]

end

/-! ### Replays, retraining, links that go down (R462, R380) -/

section
variable {s : State} {d : Fin 4} {l : Fin 5}

theorem execLinkEvents_of_down (h : (s.link d.val l.val).down = true) (lanes : BitVec 8) :
    exec (.linkCrcReplay d l) s = .next s ∧ exec (.linkRetrain d l lanes) s = .next s ∧ exec (.linkDown d l) s = .next s :=
  ⟨if_pos h, if_pos h, if_pos h⟩

/-- A link with one more replay; a free choice says whether the threshold is reached (log entry 36). -/
def State.replayed (s : State) (d l : Nat) : Bool × State := (s.modLink d l (fun x => { x with replays := x.replays + 1 })).choose

theorem State.replayed_replays (s : State) (d l : Nat) : ((s.replayed d l).2.link d l).replays = (s.link d l).replays + 1 :=
  congrArg LinkSt.replays (s.modLink_link_self d l (fun x => { x with replays := x.replays + 1 }))

theorem execLinkCrcReplay_eq (h : (s.link d.val l.val).down = false) : exec (.linkCrcReplay d l) s =
    .next (if (s.replayed d.val l.val).1 then (s.replayed d.val l.val).2.logLink d.val l.val 1 0 else (s.replayed d.val l.val).2) :=
  if_neg (Bool.eq_false_iff.mp h)

theorem execLinkCrcReplay_counts (h : (s.link d.val l.val).down = false) :
    ∃ y, exec (.linkCrcReplay d l) s = .next y ∧ (y.link d.val l.val).replays = (s.link d.val l.val).replays + 1 ∧ s.mlog <+: y.mlog
      ∧ y.mem = s.mem ∧ y.runs = s.runs := by
  refine ⟨_, execLinkCrcReplay_eq h, ?_⟩
  split
  · rw [State.logLink_link]
    exact ⟨s.replayed_replays _ _, (s.replayed d.val l.val).2.mlog_le_logLink _ _ _ _, rfl, rfl⟩
  · exact ⟨s.replayed_replays _ _, ⟨[], List.append_nil _⟩, rfl, rfl⟩

/-- A link with other lanes, and the record of its retraining. -/
def State.retrained (s : State) (d l lanes : Nat) : State := (s.modLink d l (fun x => { x with lanes := lanes })).logLink d l 2 0

theorem State.retrained_lanes (s : State) (d l lanes : Nat) : ((s.retrained d l lanes).link d l).lanes = lanes :=
  congrArg LinkSt.lanes (s.modLink_link_self d l (fun x => { x with lanes := lanes }))

theorem State.lt_retrained_mlog_length (s : State) (d l lanes : Nat) : s.mlog.length < (s.retrained d l lanes).mlog.length :=
  Nat.lt_of_lt_of_eq (Nat.lt_succ_self _) (State.logLink_mlog_length (s.modLink d l _) d l 2 0).symm

theorem execLinkRetrain_eq (h : (s.link d.val l.val).down = false) (lanes : BitVec 8) : exec (.linkRetrain d l lanes) s =
    .next (if decide (lanes.toNat < (s.link d.val l.val).lanes) = true then (s.retrained d.val l.val lanes.toNat).logLink d.val l.val 3 0
      else s.retrained d.val l.val lanes.toNat) :=
  if_neg (Bool.eq_false_iff.mp h)

theorem execLinkRetrain_logs (h : (s.link d.val l.val).down = false) (lanes : BitVec 8) :
    ∃ y, exec (.linkRetrain d l lanes) s = .next y ∧ (y.link d.val l.val).lanes = lanes.toNat ∧ s.mlog.length < y.mlog.length
      ∧ y.mem = s.mem ∧ y.runs = s.runs := by
  have hlanes := s.retrained_lanes d.val l.val lanes.toNat
  have hlog := s.lt_retrained_mlog_length d.val l.val lanes.toNat
  refine ⟨_, execLinkRetrain_eq h lanes, ?_⟩
  split
  · rw [State.logLink_link, State.logLink_mlog_length, State.logLink_mem, State.logLink_runs]
    exact ⟨hlanes, Nat.lt_succ_of_lt hlog, rfl, rfl⟩
  · exact ⟨hlanes, hlog, rfl, rfl⟩

/-- A link marked down, logged and eclipsed. -/
def State.linkLost (s : State) (d l : Nat) : State :=
  ((s.modLink d l (fun x => { x with down := true })).logLink d l 4 (s.eclipseByte (linkId d l))).addEclipse (linkId d l)

theorem State.linkLost_down (s : State) (d l : Nat) : ((s.linkLost d l).link d l).down = true := by
  rw [State.linkLost, State.addEclipse_link, State.logLink_link, State.modLink_link_self]

/-- Losing a link leaves memory and the graphs as they were and adds one record. -/
theorem State.linkLost_keeps (s : State) (d l : Nat) :
    (s.linkLost d l).mlog.length = s.mlog.length + 1 ∧ (s.linkLost d l).mem = s.mem ∧ (s.linkLost d l).runs = s.runs := by
  rw [State.linkLost, State.addEclipse_mlog, State.addEclipse_mem, State.addEclipse_runs, State.logLink_mlog_length,
    State.logLink_mem, State.logLink_runs]
  exact ⟨rfl, rfl, rfl⟩

theorem execLinkDown_off_package (h : (s.link d.val l.val).down = false) (hl : 2 ≤ l.val) :
    exec (.linkDown d l) s = .next (s.linkLost d.val l.val) :=
  (if_neg (Bool.eq_false_iff.mp h)).trans (if_neg (Nat.not_lt.mpr hl))

theorem execLinkDown_on_package (h : (s.link d.val l.val).down = false) (hl : l.val < 2) :
    exec (.linkDown d l) s = .next ((if ((s.linkLost d.val l.val).linkPath d.val l.val).isSome
      then (s.linkLost d.val l.val).logLink d.val l.val 6 0 else s.linkLost d.val l.val).killPathless s) :=
  (if_neg (Bool.eq_false_iff.mp h)).trans (if_pos hl)

end

/-! ### Flits that are not delivered (R374, R462) -/

theorem Item.undelivered_tagged {i : Item} {o : Origin} (h : (i.undelivered o).isElem = true) : (i.undelivered o).tag.getLsbD 3 = true := by
  unfold Item.undelivered at h ⊢
  split
  · simp
  · next hi =>
    rw [if_neg hi] at h
    exact absurd h hi

theorem modifyLast_append {α : Type} (l : List α) (x : α) (f : α → α) : modifyLast (l ++ [x]) f = l ++ [f x] := by
  rw [modifyLast, List.length_append, List.length_singleton, Nat.add_sub_cancel]
  induction l with
  | nil => rfl
  | cons y ys ih => rw [List.cons_append, List.length_cons, modifyAt, ih, List.cons_append]

theorem modifyLast_getLast? {α : Type} (l : List α) (f : α → α) : (modifyLast l f).getLast? = l.getLast?.map f := by
  by_cases h : l = []
  · subst h
    rfl
  · obtain ⟨ys, x, rfl⟩ : ∃ ys x, l = ys ++ [x] := ⟨_, _, (List.dropLast_concat_getLast h).symm⟩
    rw [modifyLast_append, List.getLast?_concat, List.getLast?_concat, Option.map_some]

/-- The ports of a unit after a flit over the link has been lost: those that are fed over it with their last token tagged. -/
def tagPorts (ports : List (List Item)) (fed : List Nat) (o : Origin) : List (List Item) :=
  (ports.zip (List.range 4)).map (fun q => if fed.contains q.2 then modifyLast q.1 (fun i => i.undelivered o) else q.1)

theorem tagPorts_getD {ports : List (List Item)} (h : ports.length = 4) (fed : List Nat) (o : Origin) {q : Nat} (hq : q < 4) :
    (tagPorts ports fed o).getD q [] =
      if fed.contains q then modifyLast (ports.getD q []) (fun i => i.undelivered o) else ports.getD q [] := by
  have hp : q < ports.length := Nat.lt_of_lt_of_eq hq h.symm
  have hlen : q < (tagPorts ports fed o).length := by simp [tagPorts, h, hq]
  simp only [List.getD_eq_getElem?_getD, List.getElem?_eq_getElem hlen, List.getElem?_eq_getElem hp, Option.getD_some]
  simp only [tagPorts, List.getElem_map, List.getElem_zip, List.getElem_range]

/-- A port that is fed over the link ends in a tagged token, if in any, and every other port is as it was. -/
theorem tagPorts_spec {ports : List (List Item)} (h : ports.length = 4) (fed : List Nat) (o : Origin) {q : Nat} (hq : q < 4) :
    (q ∈ fed → ∀ item, ((tagPorts ports fed o).getD q []).getLast? = some item → item.isElem = true → item.tag.getLsbD 3 = true)
      ∧ (q ∉ fed → (tagPorts ports fed o).getD q [] = ports.getD q []) := by
  rw [tagPorts_getD h fed o hq]
  refine ⟨fun hfed item hlast helem => ?_, fun hfed => if_neg (mt List.contains_iff_mem.mp hfed)⟩
  rw [if_pos (List.contains_iff_mem.mpr hfed), modifyLast_getLast?] at hlast
  obtain ⟨i, -, rfl⟩ := Option.map_eq_some_iff.mp hlast
  exact Item.undelivered_tagged helem

section
variable {s : State} {d : Fin 4} {l : Fin 5} {t : Fin 192} {k : Fin 8} {u : BitVec 7}

theorem execFlitUndelivered_idle (h : s.rctx t k = none) : exec (.flitUndelivered d l t k u) s = .next (s.logLink d.val l.val 5 0) := by
  have h' : (s.logLink d.val l.val 5 0).rctx t k = none := h
  show execFlitUndelivered d l t k u s = _
  simp only [execFlitUndelivered, h']

/-- The unit that the flit was for keeps what it holds but for tags; its ports are those of `tagPorts`. -/
theorem execFlitUndelivered_tags {z : RCtx} (h : s.rctx t k = some z) : ∃ (f : UnitSt → UnitSt) (o : Origin),
    exec (.flitUndelivered d l t k u) s = .next ((s.logLink d.val l.val 5 0).modUnit z u.toNat f)
      ∧ (f (s.unitAt z u.toNat)).ports = tagPorts (s.unitAt z u.toNat).ports (s.portsOver z d.val l.val u.toNat) o := by
  have h' : (s.logLink d.val l.val 5 0).rctx t k = some z := h
  apply Exists.intro
  apply Exists.intro
  constructor
  · show execFlitUndelivered d l t k u s = _
    simp only [execFlitUndelivered, h']
    rfl
  · rfl

end

/-- Settles O58: each event of a link that is up is that of its lemma above, and the tags of a lost flit are put on port by port. -/
theorem linkEventsAreLoggedAndEclipse : Obligations.LinkEventsAreLoggedAndEclipse := by
  intro s d l lanes t k u _ x
  refine ⟨fun h => execLinkEvents_of_down h lanes, fun h => ⟨execLinkCrcReplay_counts h, execLinkRetrain_logs h lanes, fun hl => ?_,
    fun hl => ?_⟩, ?_⟩
  · exact ⟨_, execLinkDown_off_package h hl, s.linkLost_down _ _, State.addEclipse_eclipsed _ _, s.linkLost_keeps _ _⟩
  · exact ⟨_, execLinkDown_on_package h hl, s.linkLost_down _ _, State.addEclipse_eclipsed _ _, State.linkUp_of_down (s.linkLost_down _ _),
      s.linkLost_keeps _ _⟩
  · cases hx : s.rctx t k with
    | none =>
      exact ⟨_, execFlitUndelivered_idle hx, s.logLink_mlog_length d.val l.val 5 0, rfl, fun z hz => nomatch hz⟩
    | some z =>
      obtain ⟨f, o, hexec, hports⟩ := execFlitUndelivered_tags (d := d) (l := l) (u := u) hx
      refine ⟨_, hexec, s.logLink_mlog_length d.val l.val 5 0, rfl, fun z' hz hu hlen => ?_⟩
      obtain rfl := Option.some.inj hz
      obtain ⟨rfl, rfl⟩ := State.rctx_place hx
      intro fed q hq
      rw [State.modUnit_unitAt_self (s.logLink d.val l.val 5 0) z u.toNat f hu, State.logLink_unitAt, hports]
      exact tagPorts_spec hlen fed o hq

end Sys2Proof.Machine
end

section
/-! SUPPORT. Soundness (R468), first part: changes of the state, physical memory, translation, records, faults, accesses keep memory in
canonical form and the life cycle at least where it was. -/

namespace Sys2Proof.Machine

-- grind waits for the proofs of the lemmas that it is given: one after another, no thread waits.
set_option Elab.async false

section Soundness

variable {l : Nat} {s v : State}

/-! ### Sound states -/

/-- A state that takes its life cycle from a sound one and whose memory is canonical is sound, whatever else it holds. -/
theorem State.Sound.with_store (h : s.Sound l) (mem : Memory) (hm : mem.wf = true)
    agenda cur curPart free unsupported ns tags ecc l2ecc poisoned unlogged tlb l2 xcache tiles mtiles parts runs saved jobs vstreams hot epochs served
    moves eclipse rollback firmware fwfail ready harebell joined cap clocks marg mstat mres slowCommand busy mlog links strPairs hdmBase hdmSize msix reply
    spdm spdmVersion spdmAlgs debuggers fwmem xlcache minorities :
    (State.mk agenda cur curPart free unsupported ns mem tags ecc l2ecc poisoned unlogged tlb l2 xcache tiles mtiles parts runs saved jobs vstreams
      hot epochs served moves eclipse s.lifecycle rollback firmware fwfail ready harebell joined cap clocks marg mstat mres slowCommand busy mlog links
      strPairs hdmBase hdmSize msix reply spdm spdmVersion spdmAlgs debuggers fwmem xlcache minorities).Sound l := ⟨hm, h.2⟩

/-- An update of any fields but memory and the life cycle. -/
theorem State.Sound.update (h : s.Sound l)
    agenda cur curPart free unsupported ns tags ecc l2ecc poisoned unlogged tlb l2 xcache tiles mtiles parts runs saved jobs vstreams hot epochs served
    moves eclipse rollback firmware fwfail ready harebell joined cap clocks marg mstat mres slowCommand busy mlog links strPairs hdmBase hdmSize msix reply
    spdm spdmVersion spdmAlgs debuggers fwmem xlcache minorities :
    (State.mk agenda cur curPart free unsupported ns s.mem tags ecc l2ecc poisoned unlogged tlb l2 xcache tiles mtiles parts runs saved jobs vstreams
      hot epochs served moves eclipse s.lifecycle rollback firmware fwfail ready harebell joined cap clocks marg mstat mres slowCommand busy mlog links
      strPairs hdmBase hdmSize msix reply spdm spdmVersion spdmAlgs debuggers fwmem xlcache minorities).Sound l :=
  h.with_store s.mem h.1 ..

theorem sound_foldl {α : Type} {f : State → α → State} (hf : ∀ z x, z.Sound l → (f z x).Sound l) (h : s.Sound l) (xs : List α) :
    (xs.foldl f s).Sound l :=
  List.foldlRecOn (motive := State.Sound l) xs f h (fun z hz x _ => hf z x hz)

theorem sound_getD (h : s.Sound l) {o : Option State} (ho : ∀ z, o = some z → z.Sound l) : (o.getD s).Sound l := by
  cases o with
  | none => exact h
  | some z => exact ho z rfl

/-! ### Changes of the state and physical memory (R411, R412) -/

theorem State.modTile_sound (h : s.Sound l) (t : Fin 192) (f : Tile → Tile) : (s.modTile t f).Sound l := h

theorem State.modSeq_sound (h : s.Sound l) (t : Fin 192) (f : Seq → Seq) : (s.modSeq t f).Sound l := h

theorem State.modMe_sound (h : s.Sound l) (f : Seq → Seq) : (s.modMe f).Sound l := h

theorem State.modStrand_sound (h : s.Sound l) (t : Fin 192) (k : Fin 8) (f : Strand → Strand) : (s.modStrand t k f).Sound l := h

theorem State.modCtx_sound (h : s.Sound l) (t : Fin 192) (c : Fin 16) (f : Ctx → Ctx) : (s.modCtx t c f).Sound l := h

theorem State.modMTile_sound (h : s.Sound l) (m : Nat) (f : MTile → MTile) : (s.modMTile m f).Sound l := h

theorem State.modPart_sound (h : s.Sound l) (p : Fin 16) (f : Part → Part) : (s.modPart p f).Sound l := h

theorem State.modQueue_sound (h : s.Sound l) (p : Fin 16) (q : Fin 64) (f : Queue → Queue) : (s.modQueue p q f).Sound l := h

theorem State.holdTrap_sound (h : s.Sound l) (t : Fin 192) (code : Nat) (tval : DWord) : (s.holdTrap t code tval).Sound l := h

theorem State.trapAt_sound (h : s.Sound l) (t : Fin 192) (code : Nat) (epc tval : DWord) : (s.trapAt t code epc tval).Sound l := h

theorem State.trapMe_sound (h : s.Sound l) (code : Nat) (tval : DWord) : (s.trapMe code tval).Sound l := h

theorem State.choose_sound (h : s.Sound l) : (s.choose).2.Sound l := h

theorem State.drawBytes_sound (h : s.Sound l) (n : Nat) : (s.drawBytes n).2.Sound l := h

theorem State.linesMet_sound (h : s.Sound l) (ls : List Nat) : (s.linesMet ls).Sound l := h

theorem State.eccMet_sound (h : s.Sound l) (a n : Nat) : (s.eccMet a n).Sound l := h

theorem State.fillL2_sound (h : s.Sound l) (line : Nat) : (s.fillL2 line).Sound l := by
  unfold State.fillL2
  grind [State.Sound.update]

theorem State.touchL2_sound (h : s.Sound l) (a n : Nat) : (s.touchL2 a n).Sound l := by
  unfold State.touchL2
  grind [State.fillL2_sound, sound_foldl]

theorem State.blockForWrite_sound (h : s.Sound l) (b : Nat) : (s.blockForWrite b).2.Sound l := by
  unfold State.blockForWrite
  grind [State.drawBytes_sound]

theorem State.physWriteByte_sound (h : s.Sound l) (comp : Bool) (a : Nat) (b : Byte) : (s.physWriteByte comp a b).Sound l := by
  have hw := State.blockForWrite_sound h (a / 256)
  unfold State.physWriteByte
  split
  · exact ⟨Memory.wf_write a b h.1, h.2⟩
  · dsimp only
    split <;> exact ⟨Memory.wf_writeN _ _ hw.1, hw.2⟩

theorem State.physWrite_sound (h : s.Sound l) (comp : Bool) (a : Nat) (a3 : List Byte) : (s.physWrite comp a a3).Sound l := by
  fun_induction s.physWrite comp a a3 <;> grind [State.physWriteByte_sound, State.Sound.update]

theorem State.modRun_sound (h : s.Sound l) (g : Word) (f : Run → Run) : (s.modRun g f).Sound l := h

theorem State.dropRun_sound (h : s.Sound l) (g : Word) : (s.dropRun g).Sound l := h

theorem State.padWrite_sound (h : s.Sound l) (m a : Nat) (bs : List Byte) : (s.padWrite m a bs).Sound l := h

theorem State.taintPad_sound (h : s.Sound l) (m a n : Nat) (o : Origin) : (s.taintPad m a n o).Sound l := h

theorem State.padMet_sound (h : s.Sound l) (m a n : Nat) : (s.padMet m a n).Sound l := h

/-! ### Translation (R128, R133) -/

theorem State.leafFor_sound (h : s.Sound l) (g : Agent) (va : Nat) (acc : Access) : (s.leafFor g va acc).2.2.Sound l := by
  unfold State.leafFor
  grind [State.choose_sound]

theorem State.cacheLeaf_sound (h : s.Sound l) (g : Agent) (va : Nat) (lf : Leaf) (ev : DWord) : (s.cacheLeaf g va lf ev).Sound l := h

theorem State.markPoisoned_sound (h : s.Sound l) (table : Nat) : (s.markPoisoned table).Sound l := h

theorem State.translate_sound (h : s.Sound l) (g : Agent) (va : Nat) (acc : Access) : (s.translate g va acc).2.Sound l := by
  unfold State.translate
  grind [State.leafFor_sound, State.markPoisoned_sound, State.eccMet_sound, State.physWriteByte_sound, State.cacheLeaf_sound]

theorem State.leafErr_sound (h : s.Sound l) (lf : Leaf) (va n : Nat) : (s.leafErr lf va n).2.Sound l := by
  unfold State.leafErr
  grind [State.linesMet_sound, State.eccMet_sound]

theorem State.virtRead_sound (h : s.Sound l) (g : Agent) (va n : Nat) (acc : Access) : (s.virtRead g va n acc).2.Sound l := by
  unfold State.virtRead
  grind [State.translate_sound, State.touchL2_sound, State.leafErr_sound, State.Sound.update]

theorem State.virtWrite_sound (h : s.Sound l) (g : Agent) (va : Nat) (bs : List Byte) : (s.virtWrite g va bs).2.Sound l := by
  unfold State.virtWrite
  grind [State.translate_sound, State.touchL2_sound, State.physWrite_sound]

theorem State.noteTable_sound (h : s.Sound l) (g : Agent) (table : Nat) : (s.noteTable g table).Sound l := h

theorem State.virtWriteAll_sound (h : s.Sound l) (g : Agent) (a2 : Nat) (a3 : List Byte) : (s.virtWriteAll g a2 a3).2.Sound l := by
  fun_induction s.virtWriteAll g a2 a3 <;> grind [State.virtWrite_sound, State.noteTable_sound, State.Sound.update]

theorem State.virtReadAll_sound (h : s.Sound l) (g : Agent) (acc : Access) (a3 a4 : Nat) : (s.virtReadAll g acc a3 a4).2.Sound l := by
  fun_induction s.virtReadAll g acc a3 a4 <;> grind [State.noteTable_sound, State.virtRead_sound, State.Sound.update]

/-! ### Hot pages and accesses through a translation (R138, R139) -/

theorem State.countHot_sound (h : s.Sound l) (g : Agent) (va : Nat) (acc : Access) : (s.countHot g va acc).Sound l := by
  unfold State.countHot
  grind [State.Sound.update]

theorem State.countRange_sound (h : s.Sound l) (g : Agent) (va n : Nat) (acc : Access) : (s.countRange g va n acc).Sound l := by
  unfold State.countRange
  grind [State.countHot_sound, sound_foldl]

theorem State.holdWrite_sound (h : s.Sound l) (g : Agent) (va : Nat) : (s.holdWrite g va).Sound l := by
  unfold State.holdWrite
  grind [State.Sound.update]

theorem State.holdPhys_sound (h : s.Sound l) (pa n : Nat) : (s.holdPhys pa n).Sound l := h

theorem State.drawFrame_sound (h : s.Sound l) (base room size : Nat) : (s.drawFrame base room size).2.Sound l := h

theorem State.beginMove_sound (h : s.Sound l) (g : Agent) (va : Nat) (lf : Leaf) (base room : Nat) (kind : MoveKind) (load : Option Word)
    : (s.beginMove g va lf base room kind load).Sound l := by
  unfold State.beginMove
  grind [State.drawFrame_sound, State.Sound.update]

theorem State.beginEvict_sound (h : s.Sound l) (g : Agent) (va frame : Nat) : (s.beginEvict g va frame).Sound l := by
  unfold State.beginEvict
  grind [State.Sound.update]

theorem State.bindPage_sound (h : s.Sound l) (g : Agent) (column : Nat) (load : Word) (bound : List Nat) :
    (s.bindPage g column load bound).2.Sound l := by
  have h1 : ({ s with free := s.free + 1 } : State).Sound l := h
  unfold State.bindPage
  dsimp only
  repeat' split
  · exact h1
  · exact h1
  · exact State.beginMove_sound h1 ..
  · exact h1

theorem State.bindPages_sound (h : s.Sound l) (g : Agent) (column : Nat) (load : Word) (bound : List Nat) :
    (s.bindPages g column load bound).2.Sound l :=
  List.foldlRecOn (motive := fun (x : List Nat × State) => x.2.Sound l) _ _ h (fun _ hacc _ _ => State.bindPage_sound hacc ..)

/-! ### Rings, error records, completion records (R383, R387, R453, R454) -/

theorem State.ringMessage_sound (h : s.Sound l) (p : Fin 16) (n : RingName) : (s.ringMessage p n).Sound l := h

theorem State.ringWrite_sound (h : s.Sound l) (p : Fin 16) (n : RingName) (bytes : List Byte) : (s.ringWrite p n bytes).Sound l := by
  unfold State.ringWrite
  grind [State.virtWriteAll_sound, State.modPart_sound, State.ringMessage_sound]

theorem State.logNoted_sound (h : s.Sound l) (graph : Word) (a2 : Nat) : (s.logNoted graph a2).Sound l := by
  fun_induction s.logNoted graph a2 <;> grind [State.ringWrite_sound, State.Sound.update]

theorem State.ringPut_sound (h : s.Sound l) (p : Fin 16) (n : RingName) (bytes : List Byte) : (s.ringPut p n bytes).Sound l := by
  unfold State.ringPut
  grind [State.ringWrite_sound, State.logNoted_sound]

theorem State.virtPut_sound (h : s.Sound l) (g : Agent) (graph : Word) (va : Nat) (bs : List Byte) : (s.virtPut g graph va bs).2.Sound l := by
  unfold State.virtPut
  grind [State.virtWriteAll_sound, State.logNoted_sound]

theorem State.virtGet_sound (h : s.Sound l) (g : Agent) (graph : Word) (va n : Nat) : (s.virtGet g graph va n).2.Sound l := by
  unfold State.virtGet
  grind [State.logNoted_sound, State.virtReadAll_sound]

theorem State.logError_sound (h : s.Sound l) (p : Fin 16) (ev : ErrRec) : (s.logError p ev).2.Sound l := by
  unfold State.logError
  grind [State.ringPut_sound]

theorem State.logManagement_sound (h : s.Sound l) (ev : ErrRec) : (s.logManagement ev).Sound l := h

theorem State.logPoison_sound (h : s.Sound l) (p : Fin 16) (ctx : Half) (graph unit : Word) (round table : Nat)
    : (s.logPoison p ctx graph unit round table).Sound l := by
  unfold State.logPoison
  grind [State.logError_sound]

theorem State.drawSyndrome_sound (h : s.Sound l) (store : Nat) : (s.drawSyndrome store).2.Sound l := h

theorem State.errSyndrome_sound (h : s.Sound l) (ev : MemErr) : (s.errSyndrome ev).2.Sound l := by
  unfold State.errSyndrome
  grind [State.drawSyndrome_sound]

theorem State.putCompletion_sound (h : s.Sound l) (p : Fin 16) (bytes : List Byte) : (s.putCompletion p bytes).2.Sound l := by
  unfold State.putCompletion
  grind [State.modPart_sound, State.ringPut_sound]

theorem State.releaseCompletions_sound (h : s.Sound l) (p : Fin 16) (a2 : Nat) : (s.releaseCompletions p a2).Sound l := by
  fun_induction s.releaseCompletions p a2 <;> grind [State.modPart_sound, State.ringPut_sound, State.Sound.update]

theorem State.postFaults_sound (h : s.Sound l) (p : Fin 16) (a2 : Nat) : (s.postFaults p a2).Sound l := by
  fun_induction s.postFaults p a2 <;> grind [State.modPart_sound, State.ringPut_sound, State.Sound.update]

theorem State.pageFault_sound (h : s.Sound l) (p : Fin 16) (va : Nat) (ctx : Half) (access : Nat) (unit graph : Word)
    : (s.pageFault p va ctx access unit graph).2.Sound l := by
  unfold State.pageFault
  grind [State.modPart_sound, State.postFaults_sound]

/-! ### Triggers, kills, page faults, traps (R355, R380, R388, R390) -/

theorem State.trigger_sound (h : s.Sound l) (p : Fin 16) (hook : Hook) (code : Nat) (subject : Word) : (s.trigger p hook code subject).Sound l := h

theorem State.addEclipse_sound (h : s.Sound l) (u : Word) : (s.addEclipse u).Sound l := by
  unfold State.addEclipse
  grind [State.Sound.update]

theorem State.addEclipses_sound (h : s.Sound l) (us : List Word) : (s.addEclipses us).Sound l := by
  unfold State.addEclipses
  grind [State.addEclipse_sound, sound_foldl]

theorem State.freeRun_sound (h : s.Sound l) (r : Run) : (s.freeRun r).Sound l := by
  unfold State.freeRun
  grind (ematch := 15) (gen := 25) (splits := 25) [State.modTile_sound, State.modPart_sound, State.addEclipses_sound, State.dropRun_sound, State.trigger_sound, State.Sound.update,
    sound_getD, sound_foldl]

theorem State.completeRun_sound (h : s.Sound l) (r : Run) (status : Nat) (flagsHigh : Byte) : (s.completeRun r status flagsHigh).Sound l := by
  unfold State.completeRun
  grind [State.modPart_sound, State.putCompletion_sound, State.freeRun_sound]

theorem State.completeSaved_sound (h : s.Sound l) (r : Run) (status : Nat) (flagsHigh : Byte) : (s.completeSaved r status flagsHigh).Sound l := by
  unfold State.completeSaved
  grind [State.modPart_sound, State.putCompletion_sound, State.Sound.update]

theorem State.killReport_sound (h : s.Sound l) (f : FaultRec) : (s.killReport f).Sound l := by
  unfold State.killReport
  grind [State.completeRun_sound, State.completeSaved_sound]

theorem State.deliverFault_sound (h : s.Sound l) (p : Fin 16) (f : FaultRec) : (s.deliverFault p f).Sound l := by
  unfold State.deliverFault
  grind [State.modPart_sound, State.killReport_sound]

theorem State.requestFreeze_sound (h : s.Sound l) (g : Word) (why : FreezeReason) : (s.requestFreeze g why).Sound l := h

theorem State.killWith_sound (h : s.Sound l) (g : Word) (kind status : Nat) (suspect log round : Word) (eclipsed : Bool) (flags : Byte)
    : (s.killWith g kind status suspect log round eclipsed flags).Sound l := by
  unfold State.killWith
  grind [State.modRun_sound, State.deliverFault_sound, State.Sound.update]

theorem State.kill_sound (h : s.Sound l) (g : Word) (status : Nat) (flags : Byte) : (s.kill g status flags).Sound l := by
  unfold State.kill
  grind [State.killWith_sound]

theorem State.tieKill_sound (h : s.Sound l) (g : Word) (f : FaultRec → FaultRec) (suspect log : Word) : (s.tieKill g f suspect log).Sound l := by
  unfold State.tieKill
  grind [State.modRun_sound, State.modPart_sound]

theorem State.killLogged_sound (h : s.Sound l) (g : Word) (status : Nat) (ev : ErrRec) (eclipse : List Word)
    : (s.killLogged g status ev eclipse).Sound l := by
  unfold State.killLogged
  grind [State.addEclipses_sound, State.killWith_sound, State.logError_sound, State.tieKill_sound]

theorem State.freezeFault_sound (h : s.Sound l) (g : Word) (why : FreezeReason) (kind status : Nat) (log round : Word)
    : (s.freezeFault g why kind status log round).Sound l := by
  unfold State.freezeFault
  grind [State.modRun_sound, State.deliverFault_sound]

theorem State.punctuationFault_sound (h : s.Sound l) (g : Word) (round : Nat) : (s.punctuationFault g round).Sound l := by
  unfold State.punctuationFault
  grind [State.freezeFault_sound]

theorem State.timestampFault_sound (h : s.Sound l) (g : Word) (round : Nat) : (s.timestampFault g round).Sound l := h

theorem State.seqMismatch_sound (h : s.Sound l) (kind point : Nat) : (s.seqMismatch kind point).Sound l := by
  unfold State.seqMismatch
  grind [State.killLogged_sound]

theorem State.seqMinority_sound (h : s.Sound l) (point : Nat) : (s.seqMinority point).Sound l := by
  unfold State.seqMinority
  grind [State.modRun_sound, State.logError_sound, State.modMe_sound, State.holdTrap_sound]

theorem State.clearUpsets_sound (h : s.Sound l) : (s.clearUpsets).Sound l := h

theorem State.clearLate_sound (h : s.Sound l) : (s.clearLate).Sound l := h

theorem State.judged_sound (h : s.Sound l) (val : Vote) (point : Nat) (f : DWord → State → State) (hf : ∀ y z, z.Sound l → (f y z).Sound l)
    : (s.judged val point f).Sound l := by
  unfold State.judged
  grind [State.seqMinority_sound, State.seqMismatch_sound]

theorem State.guarded_sound (h : s.Sound l) (p : BitVec 2) (point : Nat) (f : DWord → State → State) (hf : ∀ y z, z.Sound l → (f y z).Sound l)
    : (s.guarded p point f).Sound l := by
  unfold State.guarded
  grind [State.judged_sound, State.clearUpsets_sound]

theorem State.guardedValue_sound (h : s.Sound l) (p : BitVec 2) (f : DWord → State → State) (hf : ∀ y z, z.Sound l → (f y z).Sound l)
    : (s.guardedValue p f).Sound l := by
  unfold State.guardedValue
  grind [State.judged_sound, State.clearLate_sound]

/-! ### Almanac instructions (R361, R365) -/

theorem State.modInv_sound (h : s.Sound l) (f : Invocation → Invocation) : (s.modInv f).Sound l := h

theorem almInstr_sound (h : s.Sound l) {i : Instr} {f : Invocation → Invocation} (e : almInstr i f s = .next v) : v.Sound l := by
  unfold almInstr at e
  grind [State.modInv_sound]

theorem almWrite_sound (h : s.Sound l) {i : Instr} {n : Nat} {d : BitVec 3} {value : Invocation → Word} (e : almWrite i n d value s = .next v)
    : v.Sound l := by
  unfold almWrite at e
  grind [→ almInstr_sound]

theorem viewInstr_sound (h : s.Sound l) {i : Instr} {d : BitVec 3} {value : Invocation → Word} (e : viewInstr i d value s = .next v) :
    v.Sound l :=
  almInstr_sound (s := { s with free := s.free + 1 }) h e

/-! ### Accesses of a sequencer (R236 to R242) -/

theorem State.logConsumed_sound (h : s.Sound l) (t : Nat) (ev : MemErr) : (s.logConsumed t ev).Sound l := by
  unfold State.logConsumed
  grind [State.errSyndrome_sound, State.logError_sound]

theorem State.poisonedByMe_sound (h : s.Sound l) (table : Nat) : (s.poisonedByMe table).Sound l := by
  unfold State.poisonedByMe
  grind [State.logPoison_sound]

theorem State.seqReadBytes_sound (h : s.Sound l) (g : Agent) (sp : Space) (addr : DWord) (n : Nat) : (s.seqReadBytes g sp addr n).2.Sound l := by
  unfold State.seqReadBytes
  grind [State.logConsumed_sound, State.padMet_sound, State.virtRead_sound, State.countHot_sound, State.poisonedByMe_sound]

theorem State.seqWriteBytes_sound (h : s.Sound l) (g : Agent) (sp : Space) (addr : DWord) (n val : Nat)
    : (s.seqWriteBytes g sp addr n val).2.Sound l := by
  unfold State.seqWriteBytes
  grind [State.virtWrite_sound, State.countHot_sound, State.poisonedByMe_sound, State.modMe_sound, State.padWrite_sound]

theorem State.seqLoad_sound (h : s.Sound l) (sp : Space) (addr : DWord) (n : Nat) : (s.seqLoad sp addr n).2.Sound l := by
  unfold State.seqLoad
  grind [State.seqReadBytes_sound]

theorem State.seqStore_sound (h : s.Sound l) (sp : Space) (addr : DWord) (n val : Nat) : (s.seqStore sp addr n val).2.Sound l := by
  unfold State.seqStore
  grind [State.seqWriteBytes_sound]

theorem State.atomicCheck_sound (h : s.Sound l) (addr : DWord) (n : Nat) : (s.atomicCheck addr n).2.Sound l := by
  unfold State.atomicCheck
  grind [State.translate_sound, State.poisonedByMe_sound]

theorem State.atomicDo_sound (h : s.Sound l) (addr : DWord) (n : Nat) (f : Nat → Option Nat) : (s.atomicDo addr n f).2.Sound l := by
  unfold State.atomicDo
  grind (ematch := 15) (gen := 25) (splits := 25) [State.eccMet_sound, State.translate_sound, State.touchL2_sound, State.physWrite_sound, State.logConsumed_sound, State.countHot_sound,
    State.poisonedByMe_sound, State.modMe_sound, State.Sound.update, sound_getD]

end Soundness

end Sys2Proof.Machine
end

section
/-! SUPPORT. Soundness (R468), second part: units on memory, the fabric, rounds, regions. -/

namespace Sys2Proof.Machine

-- grind waits for the proofs of the lemmas that it is given: one after another, no thread waits.
set_option Elab.async false

section Soundness

variable {l : Nat} {s v : State}

/-! ### Units on memory (R325 to R331) -/

theorem MEnv.modPlace_sound (h : s.Sound l) (m : MEnv) (f : Place → Place) : (m.modPlace s f).Sound l := h

theorem MEnv.logRead_sound (h : s.Sound l) (m : MEnv) (st : UnitSt) (copy : Nat) (er : MemErr) : (m.logRead s st copy er).2.Sound l := by
  unfold MEnv.logRead
  grind [State.errSyndrome_sound, State.logError_sound]

theorem MEnv.fault_sound (h : s.Sound l) (m : MEnv) (copy va access : Nat) : (m.fault s copy va access).2.Sound l := by
  unfold MEnv.fault
  grind [State.pageFault_sound]

theorem State.storeNow_sound (h : s.Sound l) (b : BufStore) : (s.storeNow b).Sound l := by
  unfold State.storeNow
  grind [State.physWrite_sound, State.padWrite_sound]

theorem MEnv.store_sound (h : s.Sound l) (m : MEnv) (b : BufStore) : (m.store s b).2.2.Sound l := by
  unfold MEnv.store
  grind [State.modRun_sound, State.storeNow_sound]

theorem MEnv.storeAll_sound (h : s.Sound l) (m : MEnv) (bs : List BufStore) : (m.storeAll s bs).2.2.Sound l := by
  have hf : (bs.foldl (fun (acc : Bool × Bool × State) b =>
      let (ok, hold, s) := acc
      if !ok then acc
      else
        let (o, h, s') := m.store s b
        (o, hold || h, s')) (true, false, s)).2.2.Sound l := by
    refine List.foldlRecOn (motive := fun (x : Bool × Bool × State) => x.2.2.Sound l) _ _ h (fun acc hacc b _ => ?_)
    grind [MEnv.store_sound]
  unfold MEnv.storeAll
  grind [State.Sound.update]

theorem MEnv.sign_sound (h : s.Sound l) (m : MEnv) (round mt : Nat) (lines : List Nat) : (m.sign s round mt lines).Sound l := h

theorem MEnv.finish_s {m : MEnv} {st : UnitSt} {i : Item} {v : MStep} (e : m.finish s st i = some v) : v.s = s := by
  obtain rfl := Option.some.inj e
  rfl

theorem MEnv.retranslate_sound (h : s.Sound l) {m : MEnv} {st : UnitSt} {va : Nat} {write : Bool} {v : MStep}
    (e : m.retranslate s st va write = some v) : v.s.Sound l := by
  unfold MEnv.retranslate at e
  grind

theorem MEnv.nextPage_sound (h : s.Sound l) (m : MEnv) (b : Base) (va bytes : Nat) (acc : Access) : (m.nextPage s b va bytes acc).2.Sound l := by
  unfold MEnv.nextPage
  grind [State.translate_sound]

theorem State.prefetchLines_sound (h : s.Sound l) (pa bytes : Nat) : (s.prefetchLines pa bytes).Sound l := by
  unfold State.prefetchLines
  grind [State.touchL2_sound]

theorem MEnv.access_sound (h : s.Sound l) {m : MEnv} {st0 st : UnitSt} {items : List Item} {b : Base} {o va words : Nat} {data : Option Item}
    {v : MStep} (e : m.access s st0 st items b o va words data = some v) : v.s.Sound l := by
  unfold MEnv.access at e
  generalize errorOf items = tainted at e
  obtain ⟨err, org⟩ := tainted
  dsimp -zeta only at e
  extract_lets w write bytes fail acc withhold poisoned core land go at e
  have hfail (c : Nat) (s : State) (v : MStep) (hs : s.Sound l) (e : fail c s = some v) : v.s.Sound l := MEnv.finish_s e ▸ hs
  have hwithhold (s : State) (a : Nat) (v : MStep) (hs : s.Sound l) (e : withhold s a = some v) : v.s.Sound l := by
    unfold withhold at e
    grind [MEnv.fault_sound]
  have hpoisoned (s : State) (t : Nat) (v : MStep) (hs : s.Sound l) (e : poisoned s t = some v) : v.s.Sound l :=
    hfail _ _ _ (State.logPoison_sound hs ..) e
  have hland (s : State) (b : Base) (more : Option Base) (v : MStep) (hs : s.Sound l) (e : land s b more = some v) : v.s.Sound l := by
    unfold land at e
    clear_value fail withhold poisoned
    grind (splits := 20) [State.kill_sound, State.holdWrite_sound, State.countHot_sound, MEnv.storeAll_sound, → MEnv.finish_s]
  have hgo (s : State) (b : Base) (v : MStep) (hs : s.Sound l) (e : go s b = some v) : v.s.Sound l := by
    unfold go at e
    clear_value fail withhold poisoned land
    grind [MEnv.nextPage_sound]
  clear_value fail withhold poisoned land go
  grind (splits := 20) [State.translate_sound, State.prefetchLines_sound]

theorem MEnv.globalStep_sound (h : s.Sound l) {m : MEnv} {st : UnitSt} {v : MStep} (e : m.globalStep s st = some v) : v.s.Sound l := by
  unfold MEnv.globalStep at e
  grind (splits := 25) [→ MEnv.finish_s, → MEnv.retranslate_sound, → MEnv.access_sound, State.Sound.update, sound_getD]

theorem MEnv.readTag_sound (h : s.Sound l) (m : MEnv) (st : UnitSt) (mt a : Nat) (words : List Nat) : (m.readTag s st mt a words).2.Sound l := by
  unfold MEnv.readTag
  grind [State.padMet_sound, MEnv.logRead_sound, sound_foldl]

theorem MEnv.passRead_sound (h : s.Sound l) (m : MEnv) (st : UnitSt) (p : Place) : (m.passRead s st p).2.2.Sound l := by
  unfold MEnv.passRead
  grind [MEnv.logRead_sound, MEnv.readTag_sound, MEnv.modPlace_sound]

theorem MEnv.scratchLoad_sound (h : s.Sound l) {m : MEnv} {st : UnitSt} {p : Place} {r : Run} {v : MStep} (e : m.scratchLoad s st p r = some v)
    : v.s.Sound l := by
  unfold MEnv.scratchLoad at e
  grind [MEnv.readTag_sound, MEnv.modPlace_sound, MEnv.passRead_sound]

theorem State.fifoLay_sound (h : s.Sound l) (g : Word) (f : Fifo) (first upTo : Nat) : (s.fifoLay g f first upTo).Sound l := by
  unfold State.fifoLay
  grind [State.padWrite_sound, sound_foldl]

theorem MEnv.modFifo_sound (h : s.Sound l) (m : MEnv) (p : Place) (f : Fifo → Fifo) : (m.modFifo s p f).Sound l := h

theorem MEnv.fifoPut_sound (h : s.Sound l) (m : MEnv) (p : Place) (i : Item) : (m.fifoPut s p i).Sound l := by
  unfold MEnv.fifoPut
  grind [State.modRun_sound, State.modStrand_sound, MEnv.modFifo_sound, State.fifoLay_sound]

theorem MEnv.fifoStore_sound (h : s.Sound l) {m : MEnv} {st : UnitSt} {p : Place} {v : MStep} (e : m.fifoStore s st p = some v) : v.s.Sound l := by
  unfold MEnv.fifoStore at e
  grind (splits := 40) (gen := 20) [→ MEnv.finish_s, MEnv.fifoPut_sound, State.Sound.update, sound_getD]

theorem MEnv.writePass_sound (h : s.Sound l) (m : MEnv) (p : Place) (buf : Nat) (toks : List Item) (rng : Word)
    : (m.writePass s p buf toks rng).1.Sound l := by
  unfold MEnv.writePass
  grind [State.padWrite_sound, sound_foldl]

theorem MEnv.endPass_sound (h : s.Sound l) (m : MEnv) (st : UnitSt) (p : Place) (toks : List Item) : (m.endPass s st p toks).2.Sound l := by
  unfold MEnv.endPass
  grind [MEnv.modPlace_sound, MEnv.writePass_sound]

theorem MEnv.scratchStore_sound (h : s.Sound l) {m : MEnv} {st : UnitSt} {p : Place} {r : Run} {v : MStep} (e : m.scratchStore s st p r = some v)
    : v.s.Sound l := by
  unfold MEnv.scratchStore at e
  grind (splits := 40) (gen := 20) [State.padWrite_sound, → MEnv.finish_s, MEnv.modPlace_sound, State.taintPad_sound, MEnv.endPass_sound, State.Sound.update, sound_getD]

theorem MEnv.indexedRead_sound (h : s.Sound l) {m : MEnv} {st : UnitSt} {p : Place} {len : Nat} {rowstop : Bool} {v : MStep}
    (e : m.indexedRead s st p len rowstop = some v) : v.s.Sound l := by
  unfold MEnv.indexedRead at e
  grind [State.Sound.update, sound_foldl]

theorem MEnv.indexedWrite_sound (h : s.Sound l) {m : MEnv} {st : UnitSt} {p : Place} {len : Nat} {v : MStep}
    (e : m.indexedWrite s st p len = some v) : v.s.Sound l := by
  unfold MEnv.indexedWrite at e
  grind (splits := 40) (gen := 20) [→ MEnv.finish_s, MEnv.storeAll_sound, State.Sound.update, sound_getD]

theorem MEnv.ownerStep_sound (h : s.Sound l) {m : MEnv} {st : UnitSt} {p : Place} {v : MStep} (e : m.ownerStep s st p = some v) : v.s.Sound l := by
  unfold MEnv.ownerStep at e
  grind (splits := 40) (gen := 20) [State.padWrite_sound, → MEnv.finish_s, MEnv.readTag_sound, State.taintPad_sound, State.Sound.update, sound_getD]

theorem MEnv.xlatStep_sound (h : s.Sound l) {m : MEnv} {st : UnitSt} {v : MStep} (e : m.xlatStep s st = some v) : v.s.Sound l := by
  unfold MEnv.xlatStep at e
  grind (splits := 40) (gen := 20) (ematch := 20) [State.leafFor_sound, State.markPoisoned_sound, State.eccMet_sound, State.logPoison_sound, → MEnv.finish_s, MEnv.fault_sound,
    State.Sound.update, sound_getD]

theorem MEnv.step_sound (h : s.Sound l) {m : MEnv} {st : UnitSt} {v : MStep} (e : m.step s st = some v) : v.s.Sound l := by
  unfold MEnv.step at e
  grind (splits := 25) [→ MEnv.xlatStep_sound, → MEnv.globalStep_sound, → MEnv.scratchLoad_sound, → MEnv.fifoStore_sound, → MEnv.scratchStore_sound,
    → MEnv.ownerStep_sound, → MEnv.indexedRead_sound, → MEnv.indexedWrite_sound, State.Sound.update, sound_getD]

theorem State.pageRead_sound (h : s.Sound l) (b : Base) (a n : Nat) : (s.pageRead b a n).2.2.2.Sound l := by
  unfold State.pageRead
  grind [State.leafErr_sound]

theorem State.requestBytes_sound (h : s.Sound l) (mt : Nat) (q : MemReq) : (s.requestBytes mt q).2.2.2.Sound l := by
  unfold State.requestBytes
  grind [State.padMet_sound, State.pageRead_sound]

theorem MEnv.readData_sound (h : s.Sound l) (m : MEnv) (mt : Nat) (q : MemReq) : (m.readData s mt q).2.2.2.Sound l := by
  unfold MEnv.readData
  grind [State.requestBytes_sound, sound_foldl]

theorem MEnv.reply_sound (h : s.Sound l) {m : MEnv} {st : UnitSt} {v : UnitSt × State} (e : m.reply s st = some v) : v.2.Sound l := by
  unfold MEnv.reply at e
  grind [State.touchL2_sound, MEnv.logRead_sound, MEnv.readData_sound, MEnv.sign_sound, sound_foldl]

/-! ### Fabric: edges, streams, aborts (R74, R107, R155) -/

theorem State.modUnit_sound (h : s.Sound l) (x : RCtx) (u : Nat) (f : UnitSt → UnitSt) : (s.modUnit x u f).Sound l := h

theorem State.modPhase_sound (h : s.Sound l) (x : RCtx) (f : Phase → Phase) : (s.modPhase x f).Sound l := h

theorem State.setDesc_sound (h : s.Sound l) (t : Fin 192) (table b word val : Nat) : (s.setDesc t table b word val).Sound l := by
  unfold State.setDesc
  grind [State.padWrite_sound]

theorem State.exitAppend_sound (h : s.Sound l) (x : RCtx) (u ev : Nat) (val : Word) : (s.exitAppend x u ev val).Sound l := by
  unfold State.exitAppend
  grind [State.padWrite_sound, State.modPhase_sound, State.modUnit_sound, State.setDesc_sound]

theorem State.modStream_sound (h : s.Sound l) (g : Word) (n : Nat) (f : Stream → Stream) : (s.modStream g n f).Sound l := h

theorem State.streamPut_sound (h : s.Sound l) (x : RCtx) (n : Nat) (i : Item) : (s.streamPut x n i).Sound l := by
  unfold State.streamPut
  grind (gen := 25) (splits := 25) [State.modRun_sound, State.modStrand_sound, State.modStream_sound, State.modUnit_sound, State.Sound.update, sound_getD]

theorem State.beginPhase_sound (h : s.Sound l) (t : Fin 192) (k : Fin 8) (f : Fire) : (s.beginPhase t k f).Sound l := by
  unfold State.beginPhase
  grind [State.modRun_sound, State.modStrand_sound, sound_foldl]

theorem State.returnTokens_sound (h : s.Sound l) (x : RCtx) : (s.returnTokens x).Sound l := by
  unfold State.returnTokens
  grind [State.modRun_sound, State.modStream_sound, State.modUnit_sound, sound_foldl]

theorem State.switchTo_sound (h : s.Sound l) (t : Fin 192) (k : Fin 8) (c : Fin 16) : (s.switchTo t k c).Sound l := by
  unfold State.switchTo
  grind [State.modStrand_sound, State.returnTokens_sound]

/-! ### Rounds, buffered stores, replays (R142 to R157, R377) -/

theorem State.noteTimestamp_sound (h : s.Sound l) (g : Word) (n : Nat) (ts : Word) : (s.noteTimestamp g n ts).Sound l := by
  unfold State.noteTimestamp
  grind [State.modRun_sound, State.timestampFault_sound]

theorem State.noteGenerated_sound (h : s.Sound l) (g : Word) (n : Nat) : (s.noteGenerated g n).Sound l := by
  unfold State.noteGenerated
  grind [State.noteTimestamp_sound]

theorem State.checkKill_sound (h : s.Sound l) (x : RCtx) (u kind sides point : Nat) (positions : List Nat)
    : (s.checkKill x u kind sides point positions).Sound l := by
  unfold State.checkKill
  grind [State.killLogged_sound]

theorem State.checkMinority_sound (h : s.Sound l) (x : RCtx) (u side point position : Nat) : (s.checkMinority x u side point position).Sound l := by
  unfold State.checkMinority
  grind [State.modRun_sound, State.logError_sound, State.Sound.update]

theorem State.checkFlags_sound (h : s.Sound l) (x : RCtx) (u n : Nat) : (s.checkFlags x u n).Sound l := by
  unfold State.checkFlags
  grind [State.modRun_sound, State.checkMinority_sound, State.checkKill_sound, sound_foldl]

theorem State.abortExits_sound (h : s.Sound l) (x : RCtx) (n : Nat) : (s.abortExits x n).Sound l := by
  unfold State.abortExits
  grind [State.setDesc_sound, sound_foldl]

theorem State.abortBlock_sound (h : s.Sound l) (n : Nat) (p : Fin 192 × Fin 8) (key : Nat) : (s.abortBlock n p key).Sound l := by
  unfold State.abortBlock
  grind [State.modStrand_sound, State.abortExits_sound]

theorem State.abortStrand_sound (h : s.Sound l) (n : Nat) (p : Fin 192 × Fin 8) : (s.abortStrand n p).Sound l := by
  unfold State.abortStrand
  grind [State.modStrand_sound, State.abortExits_sound, State.abortBlock_sound, sound_foldl]

theorem State.abort_sound (h : s.Sound l) (g : Word) (n : Nat) : (s.abort g n).Sound l := by
  unfold State.abort
  grind [State.modTile_sound, State.modRun_sound, State.holdTrap_sound, State.abortStrand_sound, sound_foldl]

theorem State.escalate_sound (h : s.Sound l) (g : Word) (o : Origin) (eclipse : Bool) (retry : Nat) : (s.escalate g o eclipse retry).Sound l := by
  unfold State.escalate
  grind [State.killLogged_sound]

theorem State.rollBack_sound (h : s.Sound l) (g : Word) (o : Origin) (store : Nat) : (s.rollBack g o store).Sound l := by
  unfold State.rollBack
  grind [State.modRun_sound, State.drawSyndrome_sound, State.logError_sound, State.escalate_sound, State.abort_sound]

theorem State.flushAppends_sound (h : s.Sound l) (p : Fin 16) (a2 : Nat) : (s.flushAppends p a2).Sound l := by
  fun_induction s.flushAppends p a2 <;> grind [State.modPart_sound, State.modQueue_sound, State.virtPut_sound, State.Sound.update]

theorem State.holdCommit_sound (h : s.Sound l) (r : Run) : (s.holdCommit r).Sound l := by
  unfold State.holdCommit
  grind [State.holdWrite_sound, State.holdPhys_sound, sound_foldl]

theorem State.writeRoundWord_sound (h : s.Sound l) (r : Run) (val : Nat) : (s.writeRoundWord r val).2.Sound l := by
  unfold State.writeRoundWord
  grind [State.virtPut_sound]

theorem State.commit_sound (h : s.Sound l) (r : Run) : (s.commit r).Sound l := by
  unfold State.commit
  grind (gen := 25) (splits := 25) [State.modRun_sound, State.modPart_sound, State.drawSyndrome_sound, State.killLogged_sound, State.writeRoundWord_sound, State.abort_sound,
    State.rollBack_sound, State.storeNow_sound, State.flushAppends_sound, State.Sound.update, sound_getD, sound_foldl]

theorem execRoundCommit_sound (h : s.Sound l) {g : Word} (e : execRoundCommit g s = .next v) : v.Sound l := by
  unfold execRoundCommit at e
  grind [State.holdCommit_sound, State.commit_sound]

theorem execRoundOverflow_sound (h : s.Sound l) {g : Word} {m : Fin 192} (e : execRoundOverflow g m s = .next v) : v.Sound l := by
  unfold execRoundOverflow at e
  grind [State.modRun_sound, State.storeNow_sound, State.holdCommit_sound, sound_foldl]

/-! ### Regions (R69 to R72) -/

theorem State.sinkToken_sound (h : s.Sound l) (x : RCtx) (u : Nat) (i : Item) : (s.sinkToken x u i).Sound l := by
  unfold State.sinkToken
  grind [State.modRun_sound, State.logError_sound]

theorem State.applyEff_sound (h : s.Sound l) (x : RCtx) (u : Nat) (ev : Eff) : (s.applyEff x u ev).Sound l := by
  unfold State.applyEff
  grind [State.modRun_sound, State.modPhase_sound, State.punctuationFault_sound, State.exitAppend_sound, State.rollBack_sound,
    State.sinkToken_sound, State.streamPut_sound, State.noteGenerated_sound, State.checkMinority_sound, State.checkKill_sound,
    State.checkFlags_sound]

theorem State.noteTagged_sound (h : s.Sound l) (x : RCtx) (u : Nat) (before : UnitSt) (target : Option (Nat × Nat))
    : (s.noteTagged x u before target).Sound l := by
  unfold State.noteTagged
  grind [State.modRun_sound, sound_foldl]

theorem State.afterFiring_sound (h : s.Sound l) (x : RCtx) (u : Nat) (before : UnitSt) (target : Option (Nat × Nat)) (effs : List Eff)
    : (s.afterFiring x u before target effs).Sound l := by
  unfold State.afterFiring
  grind [State.modRun_sound, State.punctuationFault_sound, State.rollBack_sound, State.applyEff_sound, MEnv.modPlace_sound, State.noteTagged_sound,
    sound_foldl]

theorem State.mirror_sound (h : s.Sound l) (x : RCtx) (u : Nat) (old : UnitSt) (taken : List (Nat × Nat)) : (s.mirror x u old taken).Sound l := by
  unfold State.mirror
  grind [State.modUnit_sound, sound_foldl]

theorem State.replied_sound (h : s.Sound l) (x : RCtx) (u : Nat) (old : UnitSt) (taken : List (Nat × Nat)) : (s.replied x u old taken).Sound l := by
  unfold State.replied
  grind [State.modUnit_sound, State.mirror_sound]

theorem State.fireMem_sound (h : s.Sound l) {x : RCtx} {u : Nat} {st : UnitSt} (e : s.fireMem x u st = some v) : v.Sound l := by
  unfold State.fireMem at e
  grind [State.modUnit_sound, → MEnv.step_sound, State.replied_sound, State.afterFiring_sound]

theorem State.fireGuarded_sound (h : s.Sound l) {x : RCtx} {u g : Nat} (e : s.fireGuarded x u g = some v) : v.Sound l := by
  have hs (sides : List Nat) (copy : Nat) : (sides.foldl (fun s v => s.modUnit x v (fun y => y.requested copy)) s).Sound l :=
    sound_foldl (fun _ _ hy => State.modUnit_sound hy ..) h sides
  unfold State.fireGuarded at e
  dsimp only at e
  split at e
  · split at e
    · exact State.fireMem_sound h e
    · cases e
  split at e
  · exact Option.some.inj e ▸ State.checkKill_sound (hs _ _) ..
  · obtain ⟨w, hw, rfl⟩ := Option.map_eq_some_iff.mp e
    have hw : w.Sound l := by
      split at hw <;> exact State.fireMem_sound (hs _ _) hw
    split
    · exact State.checkMinority_sound hw ..
    · exact hw

theorem State.fireOnce_sound (h : s.Sound l) {x : RCtx} {u : Nat} (e : s.fireOnce x u = some v) : v.Sound l := by
  unfold State.fireOnce at e
  grind [State.modUnit_sound, State.punctuationFault_sound, State.afterFiring_sound, → State.fireMem_sound, → State.fireGuarded_sound]

theorem State.putEdge_sound (h : s.Sound l) (x : RCtx) (ev : Edge) (i : Item) (due : Nat) : (s.putEdge x ev i due).Sound l := h

theorem State.flushUnit_sound (h : s.Sound l) (x : RCtx) (u adv : Nat) : (s.flushUnit x u adv).Sound l := by
  unfold State.flushUnit
  dsimp only
  split
  · exact h
  · refine State.modUnit_sound (List.foldlRecOn (motive := fun (a : State × List Nat × List (Nat × Item)) => a.1.Sound l) _ _ h
      fun acc hacc y _ => ?_) ..
    grind [State.putEdge_sound]

theorem State.fireUnit_sound (h : s.Sound l) {x : RCtx} {u adv a4 : Nat} (e : s.fireUnit x u adv a4 = some v) : v.Sound l := by
  fun_induction s.fireUnit x u adv a4 <;> grind [→ State.fireOnce_sound, State.flushUnit_sound, State.Sound.update]

theorem State.readItem_sound (h : s.Sound l) (x : RCtx) (u adv : Nat) (i : Item) : (s.readItem x u adv i).Sound l := by
  unfold State.readItem
  grind [State.modUnit_sound, State.putEdge_sound, sound_foldl]

theorem State.giveStops_sound (h : s.Sound l) (x : RCtx) (u adv n : Nat) : (s.giveStops x u adv n).Sound l := by
  induction n generalizing s with
  | zero => exact h
  | succ n ih =>
    rw [State.giveStops]
    split
    · exact h
    split
    · exact h
    · exact ih (State.modUnit_sound (sound_foldl (fun _ _ hz => State.putEdge_sound hz ..) h _) ..)

theorem State.readStop_sound (h : s.Sound l) (x : RCtx) (u adv : Nat) (i : Item) : (s.readStop x u adv i).Sound l := by
  unfold State.readStop
  grind [State.modUnit_sound, State.readItem_sound]

theorem State.readGate_sound (h : s.Sound l) (x : RCtx) (u adv budget a5 : Nat) : (s.readGate x u adv budget a5).Sound l := by
  fun_induction s.readGate x u adv budget a5 <;> grind [State.rollBack_sound, State.readItem_sound, State.giveStops_sound, State.readStop_sound, State.Sound.update]

theorem State.closePhase_sound (h : s.Sound l) (x : RCtx) : (s.closePhase x).Sound l := by
  unfold State.closePhase
  grind [State.modStrand_sound, State.modPhase_sound, State.punctuationFault_sound, State.noteGenerated_sound]

theorem State.issueOne_sound (h : s.Sound l) (x : RCtx) : (s.issueOne x).Sound l := by
  unfold State.issueOne
  grind [State.modPhase_sound, State.closePhase_sound]

theorem State.issueStage_sound (h : s.Sound l) {x : RCtx} {p : Phase} (e : s.issueStage x p = some v) : v.Sound l := by
  unfold State.issueStage at e
  grind (splits := 25) [State.modPhase_sound, State.modUnit_sound, State.closePhase_sound, State.issueOne_sound, State.readItem_sound, State.giveStops_sound,
    State.readStop_sound, State.Sound.update, sound_getD]

theorem State.reportPhase_sound (h : s.Sound l) (x : RCtx) (p : Phase) : (s.reportPhase x p).Sound l := by
  unfold State.reportPhase
  grind [State.modStrand_sound, State.setDesc_sound]

theorem State.contextError_sound (h : s.Sound l) (t : Fin 192) : (s.contextError t).Sound l := by
  unfold State.contextError
  grind [State.drawSyndrome_sound, State.killLogged_sound]

theorem State.phaseEnd_sound (h : s.Sound l) (x : RCtx) (p : Phase) : (s.phaseEnd x p).Sound l := by
  unfold State.phaseEnd
  grind [State.modStrand_sound, State.contextError_sound, State.beginPhase_sound, State.switchTo_sound, State.reportPhase_sound]

theorem State.endIfDone_sound (h : s.Sound l) (x : RCtx) : (s.endIfDone x).Sound l := by
  unfold State.endIfDone
  grind [State.phaseEnd_sound]

theorem State.askLoad_sound (h : s.Sound l) (x : RCtx) (u : Nat) : (s.askLoad x u).Sound l := by
  unfold State.askLoad
  grind [State.modUnit_sound]

theorem State.fireSlot_sound (h : s.Sound l) {x : RCtx} {slot adv : Nat} (e : s.fireSlot x slot adv = some v) : v.Sound l := by
  unfold State.fireSlot at e
  split at e
  · exact Option.some.inj e ▸ h
  · refine List.foldlRecOn (motive := fun (o : Option State) => ∀ v, o = some v → v.Sound l) (List.range x.image.count) _
      (fun _ hv => Option.some.inj hv ▸ h) (fun acc hacc u _ v hv => ?_) v e
    obtain ⟨z, rfl, hz⟩ := Option.bind_eq_some_iff.mp hv
    split at hz
    · exact State.fireUnit_sound (State.askLoad_sound (hacc z rfl) ..) hz
    · exact Option.some.inj hz ▸ hacc z rfl

theorem State.readSlot_sound (h : s.Sound l) (x : RCtx) (slot adv : Nat) (lead : Option Nat) : (s.readSlot x slot adv lead).Sound l := by
  unfold State.readSlot
  grind [State.giveStops_sound, State.readGate_sound, sound_foldl]

theorem State.serveWaiting_sound (h : s.Sound l) (x : RCtx) : (s.serveWaiting x).Sound l := by
  unfold State.serveWaiting
  grind [→ State.fireOnce_sound, State.Sound.update, sound_getD, sound_foldl]

theorem State.advance_sound (h : s.Sound l) (x : RCtx) (p : Phase) : (s.advance x p).Sound l := by
  have hwait := State.serveWaiting_sound h x
  have hflush (z : State) (hz : z.Sound l) : ((List.range x.image.count).foldl (fun s u => s.flushUnit x u p.advances) z).Sound l :=
    sound_foldl (fun _ _ hy => State.flushUnit_sound hy ..) hz _
  unfold State.advance
  dsimp only
  split
  · exact State.rollBack_sound h ..
  split
  · exact hwait
  next s1 hissue =>
    have h1 : s1.Sound l := by grind [→ State.issueStage_sound]
    split
    · exact hwait
    split
    · exact hwait
    next s3 hfire =>
      have h3 := hflush s3 (State.fireSlot_sound (State.readSlot_sound h1 ..) hfire)
      split
      · exact State.endIfDone_sound (State.modPhase_sound h3 ..) ..
      · exact h3

theorem execRegionAdvance_sound (h : s.Sound l) {t : Fin 192} {k : Fin 8} (e : execRegionAdvance t k s = .next v) : v.Sound l := by
  unfold execRegionAdvance at e
  grind [State.advance_sound]

theorem execContextSwitch_sound (h : s.Sound l) {t : Fin 192} {k : Fin 8} (e : execContextSwitch t k s = .next v) : v.Sound l := by
  unfold execContextSwitch at e
  grind [State.modStrand_sound, State.contextError_sound, State.beginPhase_sound, State.switchTo_sound, State.reportPhase_sound]

theorem State.supply_sound (h : s.Sound l) {x : RCtx} {u : Nat} {v : Item × State} (e : s.supply x u = some v) : v.2.Sound l := by
  unfold State.supply at e
  grind [State.modRun_sound, State.modPhase_sound, State.modStream_sound]

theorem execUSource_sound (h : s.Sound l) {t : Fin 192} {k : Fin 8} {u : BitVec 7} (e : execUSource t k u s = .next v) : v.Sound l := by
  unfold execUSource at e
  grind [State.modUnit_sound, → State.supply_sound, State.Sound.update, sound_getD]

theorem MEnv.fifoHead_sound (h : s.Sound l) (m : MEnv) (st : UnitSt) (f : Fifo) (i : Item) : (m.fifoHead s st f i).2.Sound l := by
  unfold MEnv.fifoHead
  grind [MEnv.readTag_sound]

theorem execFifoModeLoad_sound (h : s.Sound l) {t : Fin 192} {k : Fin 8} {u : BitVec 7} (e : execFifoModeLoad t k u s = .next v) : v.Sound l := by
  unfold execFifoModeLoad at e
  grind (gen := 25) (splits := 25) [State.modUnit_sound, MEnv.modFifo_sound, State.fifoLay_sound, State.replied_sound, MEnv.fifoHead_sound, State.Sound.update, sound_getD]

theorem execMemoryReply_sound (h : s.Sound l) {t : Fin 192} {k : Fin 8} {u : BitVec 7} (e : execMemoryReply t k u s = .next v) : v.Sound l := by
  unfold execMemoryReply at e
  grind [State.modUnit_sound, State.replied_sound, → MEnv.reply_sound, State.Sound.update, sound_getD]

theorem execRetranslationReply_sound (h : s.Sound l) {t : Fin 192} {k : Fin 8} {u : BitVec 7} (e : execRetranslationReply t k u s = .next v)
    : v.Sound l := by
  unfold execRetranslationReply at e
  grind (ematch := 15) (gen := 25) (splits := 25) [State.leafFor_sound, State.markPoisoned_sound, State.eccMet_sound, State.logPoison_sound, State.modUnit_sound, MEnv.fault_sound,
    State.Sound.update, sound_getD]

theorem execWithheldStoreRelease_sound (h : s.Sound l) {t : Fin 192} {k : Fin 8} {u : BitVec 7} (e : execWithheldStoreRelease t k u s = .next v)
    : v.Sound l := by
  unfold execWithheldStoreRelease at e
  grind [→ State.fireOnce_sound]

theorem State.takeReplacement_sound (h : s.Sound l) (x : RCtx) (y : Replay) (port : Nat) (i : Item) : (s.takeReplacement x y port i).Sound l := by
  unfold State.takeReplacement
  grind [State.modRun_sound, State.padWrite_sound, State.modUnit_sound, MEnv.modPlace_sound, MEnv.endPass_sound, → MEnv.ownerStep_sound]

theorem State.readAgain.again_sound (h : s.Sound l) (m : MEnv) (o : Origin) : (State.readAgain.again m o s).2.2.Sound l := by
  unfold State.readAgain.again
  grind [MEnv.readData_sound]

theorem State.readAgain_sound (h : s.Sound l) {m : MEnv} {o : Origin} {v : List Word × Bool × State} (e : s.readAgain m o = some v)
    : v.2.2.Sound l := by
  unfold State.readAgain at e
  grind [State.padMet_sound, State.readAgain.again_sound, sound_foldl]

theorem execTokenReinjection_sound (h : s.Sound l) {g : BitVec 32} {n : BitVec 16} (e : execTokenReinjection g n s = .next v) : v.Sound l := by
  unfold execTokenReinjection at e
  grind (gen := 25) (splits := 25) [State.modRun_sound, State.escalate_sound, State.rollBack_sound, → State.readAgain_sound, State.takeReplacement_sound, State.Sound.update,
    sound_getD, sound_foldl]

end Soundness

end Sys2Proof.Machine
end

section
/-! SUPPORT. Soundness (R468), third part: sequencer instructions, engines, loading, dispatch, the world, the host, page moves. -/

namespace Sys2Proof.Machine

-- grind waits for the proofs of the lemmas that it is given: one after another, no thread waits.
set_option Elab.async false

section Soundness

variable {l : Nat} {s v : State}

/-! ### What sequencer instructions share (R221, R222) -/

theorem State.illegal_sound (h : s.Sound l) (i : Instr) : (s.illegal i).Sound l := h

theorem seqInstr_sound (h : s.Sound l) {i : Instr} {p : BitVec 2} {point : Nat} {f : DWord → State → State}
    (hf : ∀ y z, z.Sound l → (f y z).Sound l) (e : seqInstr i p point f s = .next v) : v.Sound l := by
  unfold seqInstr at e
  grind [State.guarded_sound, State.illegal_sound]

theorem State.writeBack_sound (h : s.Sound l) (d : BitVec 5) (val : DWord) : (s.writeBack d val).Sound l := h

theorem State.writePred_sound (h : s.Sound l) (d : BitVec 3) (val : Bool) : (s.writePred d val).Sound l := h

theorem regInstr_sound (h : s.Sound l) {i : Instr} {p : BitVec 2} {d : BitVec 5} {val : DWord} (e : regInstr i p d val s = .next v)
    : v.Sound l := by
  unfold regInstr at e
  grind [→ seqInstr_sound, State.writeBack_sound]

theorem predInstr_sound (h : s.Sound l) {i : Instr} {p : BitVec 2} {d : BitVec 3} {val : Bool} (e : predInstr i p d val s = .next v)
    : v.Sound l := by
  unfold predInstr at e
  grind [→ seqInstr_sound, State.writePred_sound]

theorem State.stallMe_sound (h : s.Sound l) (i : Instr) (k : StallKind) : (s.stallMe i k).Sound l := h

theorem State.nextMe_sound (h : s.Sound l) : (s.nextMe).Sound l := h

theorem State.cfgError_sound (h : s.Sound l) (reason x code : Nat) : (s.cfgError reason x code).Sound l := h

theorem State.singleStep_sound (h : v.Sound l) (t : Fin 192) : (s.singleStep v t).Sound l := by
  unfold State.singleStep
  grind [State.trapAt_sound]

theorem stepped_sound {o : Host.Outcome State Fault Refusal} (ho : ∀ u, o = .next u → u.Sound l) {t : Fin 192}
    (e : stepped s t o = .next v) : v.Sound l := by
  unfold stepped at e
  grind [State.singleStep_sound]

/-! ### Configuration instructions (R251 to R258) -/

theorem cfgInstr_sound (h : s.Sound l) {i : Instr} {p : BitVec 2} {f : DWord → State → State} (hf : ∀ y z, z.Sound l → (f y z).Sound l)
    (e : cfgInstr i p f s = .next v) : v.Sound l := by
  unfold cfgInstr at e
  grind [State.modMe_sound, → seqInstr_sound]

theorem State.imageWord_sound (h : s.Sound l) (va : Nat) : (s.imageWord va).2.Sound l := by
  unfold State.imageWord
  grind [State.logConsumed_sound, State.virtRead_sound, State.poisonedByMe_sound]

theorem State.imageWords_sound (h : s.Sound l) (va : Nat) (acc : List Byte) (a3 : Nat) : (s.imageWords va acc a3).2.Sound l := by
  fun_induction s.imageWords va acc a3 <;> grind [State.imageWord_sound, State.Sound.update]

theorem State.fetchImage_sound (h : s.Sound l) (va : Nat) : (s.fetchImage va).2.Sound l := by
  unfold State.fetchImage
  grind [State.imageWords_sound]

theorem State.setMyCtx_sound (h : s.Sound l) (c : Fin 16) (x : Ctx) : (s.setMyCtx c x).Sound l := h

theorem execCfgLoad_sound (h : s.Sound l) {p : BitVec 2} {a : BitVec 5} {c : BitVec 4} (e : execCfgLoad p a c s = .next v) : v.Sound l := by
  unfold execCfgLoad at e
  grind [State.modMe_sound, State.trapMe_sound, State.stallMe_sound, State.nextMe_sound, → cfgInstr_sound, State.cfgError_sound,
    State.setMyCtx_sound, State.fetchImage_sound]

theorem execCfgArm_sound (h : s.Sound l) {p : BitVec 2} {k : BitVec 3} {c : BitVec 4} (e : execCfgArm p k c s = .next v) : v.Sound l := by
  unfold execCfgArm at e
  grind [State.modTile_sound, State.nextMe_sound, → cfgInstr_sound, State.cfgError_sound, State.modStrand_sound]

theorem execCfgSwap_sound (h : s.Sound l) {p : BitVec 2} {k : BitVec 3} (e : execCfgSwap p k s = .next v) : v.Sound l := by
  unfold execCfgSwap at e
  grind [State.nextMe_sound, → cfgInstr_sound, State.cfgError_sound, State.modStrand_sound, State.contextError_sound, State.switchTo_sound]

theorem execCfgFire_sound (h : s.Sound l) {p : BitVec 2} {a b : BitVec 5} {k : BitVec 3} (e : execCfgFire p a b k s = .next v) : v.Sound l := by
  unfold execCfgFire at e
  grind (gen := 25) (splits := 25) [State.nextMe_sound, → cfgInstr_sound, State.cfgError_sound, State.modStrand_sound, State.contextError_sound, State.beginPhase_sound,
    State.Sound.update, sound_getD]

theorem State.placePart_sound (h : s.Sound l) (x : RCtx) (c : Fin 16) (u : Nat) : (s.placePart x c u).Sound l := by
  unfold State.placePart
  grind [State.modRun_sound, State.modStream_sound, State.modUnit_sound]

theorem State.injectPart_sound (h : s.Sound l) (x : RCtx) (c : Fin 16) : (s.injectPart x c).Sound l := by
  unfold State.injectPart
  grind [State.modPhase_sound, State.placePart_sound, sound_foldl]

theorem execCfgPart_sound (h : s.Sound l) {p : BitVec 2} {k : BitVec 3} {c : BitVec 4} (e : execCfgPart p k c s = .next v) : v.Sound l := by
  unfold execCfgPart at e
  grind (gen := 25) (splits := 25) [State.nextMe_sound, → cfgInstr_sound, State.cfgError_sound, State.modStrand_sound, State.injectPart_sound, State.Sound.update, sound_getD]

theorem waitInstr_sound (h : s.Sound l) {i : Instr} {p : BitVec 2} {k : BitVec 3} {f : DWord → State → State}
    (hf : ∀ y z, z.Sound l → (f y z).Sound l) (e : waitInstr i p k f s = .next v) : v.Sound l := by
  unfold waitInstr at e
  grind [State.stallMe_sound, → cfgInstr_sound, State.cfgError_sound]

theorem execCfgWait_sound (h : s.Sound l) {p : BitVec 2} {k : BitVec 3} (e : execCfgWait p k s = .next v) : v.Sound l := by
  unfold execCfgWait at e
  grind [State.nextMe_sound, → waitInstr_sound]

theorem execCfgExit_sound (h : s.Sound l) {p : BitVec 2} {a : BitVec 5} {k : BitVec 3} (e : execCfgExit p a k s = .next v) : v.Sound l := by
  unfold execCfgExit at e
  grind [State.modMe_sound, State.guardedValue_sound, → waitInstr_sound]

theorem State.noteSkips_sound (h : s.Sound l) (t : Fin 192) (table : Nat) (ds : List (Nat × ExitDesc)) (chosen : Option Nat)
    : (s.noteSkips t table ds chosen).Sound l := by
  unfold State.noteSkips
  grind [State.setDesc_sound, sound_foldl]

theorem execCfgPick_sound (h : s.Sound l) {p : BitVec 2} {a : BitVec 5} {k : BitVec 3} (e : execCfgPick p a k s = .next v) : v.Sound l := by
  unfold execCfgPick at e
  grind [State.modMe_sound, State.guardedValue_sound, State.cfgError_sound, State.modStrand_sound, → waitInstr_sound, State.noteSkips_sound]

theorem execCfgDrain_sound (h : s.Sound l) {p : BitVec 2} {k : BitVec 3} (e : execCfgDrain p k s = .next v) : v.Sound l := by
  unfold execCfgDrain at e
  grind [State.stallMe_sound, State.nextMe_sound, → cfgInstr_sound, State.cfgError_sound]

/-! ### Memory instructions (R239 to R244) -/

theorem State.killCutOff_sound (h : s.Sound l) : (s.killCutOff).Sound l := by
  unfold State.killCutOff
  grind [State.kill_sound]

theorem loadInstr_sound (h : s.Sound l) {i : Instr} {p : BitVec 2} {d : BitVec 5} {sp : Option Space} {addr : DWord} {n : Nat} {g : BitVec 1}
    (e : loadInstr i p d sp addr n g s = .next v) : v.Sound l := by
  unfold loadInstr at e
  grind [State.trapMe_sound, State.illegal_sound, → seqInstr_sound, State.writeBack_sound, State.killCutOff_sound, State.seqLoad_sound,
    State.guardedValue_sound]

theorem storeInstr_sound (h : s.Sound l) {i : Instr} {p : BitVec 2} {sp : Option Space} {addr : DWord} {n : Nat} {val : DWord}
    (e : storeInstr i p sp addr n val s = .next v) : v.Sound l := by
  unfold storeInstr at e
  grind [State.holdWrite_sound, State.trapMe_sound, State.illegal_sound, → seqInstr_sound, State.killCutOff_sound, State.stallMe_sound,
    State.seqStore_sound, State.nextMe_sound]

theorem execLdOrdered_sound (h : s.Sound l) {p : BitVec 2} {d a : BitVec 5} {o sc z : BitVec 2} (e : execLdOrdered p d a o sc z s = .next v)
    : v.Sound l := by
  unfold execLdOrdered at e
  grind [→ loadInstr_sound]

theorem execStOrdered_sound (h : s.Sound l) {p : BitVec 2} {a val : BitVec 5} {o sc z : BitVec 2} (e : execStOrdered p a val o sc z s = .next v)
    : v.Sound l := by
  unfold execStOrdered at e
  grind [→ storeInstr_sound]

theorem State.makeIrrevocable_sound (h : s.Sound l) : (s.makeIrrevocable).Sound l := by
  unfold State.makeIrrevocable
  grind [State.modRun_sound]

theorem atomicInstr_sound (h : s.Sound l) {i : Instr} {p : BitVec 2} {addr : DWord} {n : Nat} {f : Nat → Option Nat} {finish : Nat → Seq → Seq}
    (e : atomicInstr i p addr n f finish s = .next v) : v.Sound l := by
  unfold atomicInstr at e
  grind (gen := 25) (splits := 25) [State.modMe_sound, State.holdWrite_sound, State.trapMe_sound, → seqInstr_sound, State.killCutOff_sound, State.stallMe_sound,
    State.atomicCheck_sound, State.atomicDo_sound, State.makeIrrevocable_sound, State.Sound.update, sound_getD]

theorem execFence_sound (h : s.Sound l) {p o sc : BitVec 2} (e : execFence p o sc s = .next v) : v.Sound l := by
  unfold execFence at e
  grind [State.modMe_sound, → seqInstr_sound]

/-! ### Engines (R266, R267, R426) -/

theorem State.openStream_sound (h : s.Sound l) (g : Word) (t sub : Nat) (ev : EngineName) (c : List Byte)
    : (s.openStream g t sub ev c).Sound l := by
  unfold State.openStream
  grind [State.Sound.update]

theorem State.queueJob_sound (h : s.Sound l) (i : Instr) (sub : Nat) (k : BitVec 3) (m : Nat) (card : List Byte)
    : (s.queueJob i sub k m card).Sound l := by
  unfold State.queueJob
  grind [State.stallMe_sound, State.nextMe_sound, State.openStream_sound, State.Sound.update]

theorem engInstr_sound (h : s.Sound l) {i : Instr} {p : BitVec 2} {sub : Nat} {a : BitVec 5} {k : BitVec 3}
    (e : engInstr i p sub a k s = .next v) : v.Sound l := by
  unfold engInstr at e
  grind (gen := 25) (splits := 25) [State.trapMe_sound, → seqInstr_sound, State.seqLoad_sound, State.cfgError_sound, State.queueJob_sound, State.Sound.update, sound_getD]

theorem State.logJobError_sound (h : s.Sound l) (j : Job) (ev : MemErr) : (s.logJobError j ev).Sound l := by
  unfold State.logJobError
  grind [State.errSyndrome_sound, State.logError_sound]

theorem State.jobByte_sound (h : s.Sound l) (j : Job) (addr : Nat) : (s.jobByte j addr).2.2.Sound l := by
  unfold State.jobByte
  grind [State.padMet_sound, State.virtRead_sound, State.logPoison_sound, State.logJobError_sound]

theorem State.jobRead_sound (h : s.Sound l) (j : Job) (a2 a3 : Nat) : (s.jobRead j a2 a3).2.2.Sound l := by
  fun_induction s.jobRead j a2 a3 <;> grind [State.jobByte_sound, State.Sound.update]

theorem State.jobPut_sound (h : s.Sound l) (j : Job) (addr : Nat) (b : Byte) : (s.jobPut j addr b).2.Sound l := by
  unfold State.jobPut
  grind [State.virtWrite_sound, State.logPoison_sound, State.padWrite_sound]

theorem State.jobWrite_sound (h : s.Sound l) (j : Job) (addr a3 : Nat) (a4 : List Byte) : (s.jobWrite j addr a3 a4).2.2.Sound l := by
  fun_induction s.jobWrite j addr a3 a4 <;> grind [State.jobPut_sound, State.Sound.update]

theorem State.jobCopy_sound (h : s.Sound l) (j : Job) (src dst n : Nat) (down : Bool) (a6 : Nat) (a7 : List (Nat × Byte))
    : (s.jobCopy j src dst n down a6 a7).2.2.Sound l := by
  fun_induction s.jobCopy j src dst n down a6 a7 <;> grind [State.choose_sound, State.jobByte_sound, State.jobPut_sound, State.Sound.update]

theorem State.runCopy_sound (h : s.Sound l) (j : Job) : (s.runCopy j).2.Sound l := by
  unfold State.runCopy
  grind [State.choose_sound, State.jobRead_sound, State.jobCopy_sound]

theorem State.runDcmp_sound (h : s.Sound l) (j : Job) : (s.runDcmp j).2.Sound l := by
  unfold State.runDcmp
  grind [State.jobRead_sound, State.jobWrite_sound]

theorem State.runXfm_sound (h : s.Sound l) (j : Job) (m : Nat) : (s.runXfm j m).2.Sound l := by
  unfold State.runXfm
  grind [State.padMet_sound, State.padWrite_sound, State.logJobError_sound, State.Sound.update, sound_foldl]

theorem State.jobRows_sound (h : s.Sound l) (j : Job) (a2 : List (Nat × List Byte)) : (s.jobRows j a2).2.Sound l := by
  fun_induction s.jobRows j a2 <;> grind [State.jobWrite_sound, State.Sound.update]

theorem State.cardDone_sound (h : s.Sound l) (j : Job) (val : VStream) (ins : List (List Byte)) : (s.cardDone j val ins).Sound l := h

theorem State.runVdec_sound (h : s.Sound l) (j : Job) : (s.runVdec j).2.Sound l := by
  unfold State.runVdec
  grind (ematch := 15) (gen := 25) (splits := 25) [State.drawBytes_sound, State.jobRead_sound, State.jobWrite_sound, State.cardDone_sound, State.jobRows_sound, State.Sound.update,
    sound_getD]

theorem State.runJob_sound (h : s.Sound l) (j : Job) : (s.runJob j).2.Sound l := by
  unfold State.runJob
  grind [State.runCopy_sound, State.runDcmp_sound, State.runVdec_sound, State.runXfm_sound]

theorem State.jobRecord_sound (h : s.Sound l) (j : Job) (status count : Nat) (picture : Bool) : (s.jobRecord j status count picture).2.Sound l := by
  unfold State.jobRecord
  grind [State.jobWrite_sound]

theorem State.modJob_sound (h : s.Sound l) (j : Job) (f : Job → Job) : (s.modJob j f).Sound l := h

theorem State.withholdJob_sound (h : s.Sound l) (j : Job) (va : Nat) (write : Bool) : (s.withholdJob j va write).Sound l := by
  unfold State.withholdJob
  grind [State.pageFault_sound, State.modJob_sound]

theorem execEngineJobStart_sound (h : s.Sound l) {ev : EngineName} (e : execEngineJobStart ev s = .next v) : v.Sound l := by
  unfold execEngineJobStart at e
  grind [State.modJob_sound]

theorem State.countJob_sound (h : s.Sound l) (j : Job) (ranges : List (Nat × Nat) × List (Nat × Nat)) : (s.countJob j ranges).Sound l := by
  unfold State.countJob
  grind [State.countRange_sound, sound_foldl]

theorem execEngineJobComplete_sound (h : s.Sound l) {ev : EngineName} (e : execEngineJobComplete ev s = .next v) : v.Sound l := by
  unfold execEngineJobComplete at e
  grind (gen := 25) (splits := 25) [State.holdWrite_sound, State.runJob_sound, State.withholdJob_sound, State.jobRecord_sound, State.countJob_sound, State.Sound.update,
    sound_getD]

/-! ### Loading and placing (R351, R476) -/

theorem State.readObject_sound (h : s.Sound l) (p : Fin 16) (ctx : Half) (va : Nat) : (s.readObject p ctx va).2.Sound l := by
  unfold State.readObject
  grind [State.virtGet_sound]

theorem State.cacheTranslation_sound (h : s.Sound l) (ev : XlEntry) : (s.cacheTranslation ev).Sound l := h

theorem State.writeImages_sound (h : s.Sound l) (g : Agent) (a2 : List (Nat × List Byte)) : (s.writeImages g a2).2.Sound l := by
  fun_induction s.writeImages g a2 <;> grind [State.virtPut_sound, State.Sound.update]

theorem State.relocate_sound (h : s.Sound l) (g : Agent) (o : List Byte) (va : Nat) (r : Nat × Reloc) : (s.relocate g o va r).2.Sound l := by
  unfold State.relocate
  grind [State.virtPut_sound]

theorem State.relocateAll_sound (h : s.Sound l) (g : Agent) (o : List Byte) (va : Nat) (a4 : List (Nat × Reloc))
    : (s.relocateAll g o va a4).2.Sound l := by
  fun_induction s.relocateAll g o va a4 <;> grind [State.relocate_sound, State.Sound.update]

theorem State.placeLoad_sound (h : s.Sound l) (g : Word) : (s.placeLoad g).Sound l := by
  unfold State.placeLoad
  split
  · exact h
  split
  · exact h
  · refine List.foldlRecOn (motive := fun (x : List Nat × State) => x.2.Sound l) _ _ ?_ (fun _ hacc _ _ => State.bindPages_sound hacc ..)
    exact sound_foldl (fun _ _ hz => State.modTile_sound hz ..) (State.modRun_sound h ..) _

theorem State.allocate_sound (h : s.Sound l) (g : Word) (ms : List (Nat × Nat × Nat)) : (s.allocate g ms).Sound l := by
  unfold State.allocate
  grind [State.modMTile_sound, sound_foldl]

theorem State.endAtOnce_sound (h : s.Sound l) (g : Word) : (s.endAtOnce g).Sound l := by
  unfold State.endAtOnce
  grind [State.completeRun_sound]

theorem State.startRun_sound (h : s.Sound l) (r : Run) (x : Placed) : (s.startRun r x).Sound l := by
  unfold State.startRun
  grind [State.allocate_sound, State.endAtOnce_sound, State.writeRoundWord_sound, State.placeLoad_sound, State.Sound.update]

theorem State.consume_sound (h : s.Sound l) (p : Fin 16) (q : Fin 64) : (s.consume p q).Sound l := by
  unfold State.consume
  grind [State.modQueue_sound, State.virtPut_sound]

theorem State.failRecord_sound (h : s.Sound l) (p : Fin 16) (q : Fin 64) (rec_ : LaunchRec) (status : Nat) (log : Word)
    : (s.failRecord p q rec_ status log).Sound l := by
  unfold State.failRecord
  grind [State.modPart_sound, State.putCompletion_sound, State.consume_sound]

theorem State.dispatch_sound (h : s.Sound l) {p : Fin 16} {q : Fin 64} {origin : Nat} {v : Bool × State} (e : s.dispatch p q origin = some v)
    : v.2.Sound l := by
  unfold State.dispatch at e
  grind (gen := 25) (splits := 25) [State.readObject_sound, State.consume_sound, State.failRecord_sound, State.cacheTranslation_sound, State.writeImages_sound,
    State.relocateAll_sound, State.startRun_sound, State.Sound.update, sound_getD]

theorem State.release_sound (h : s.Sound l) (r : Run) : (s.release r).Sound l := by
  unfold State.release
  grind [State.modTile_sound, State.modRun_sound, State.addEclipses_sound, State.Sound.update, sound_foldl]

theorem State.relaunchFailed_sound (h : s.Sound l) (r : Run) (log : Word) : (s.relaunchFailed r log).Sound l := by
  unfold State.relaunchFailed
  grind [State.completeRun_sound, State.Sound.update]

theorem State.relaunch_sound (h : s.Sound l) {r : Run} {degraded : Bool} {origin : Nat} (e : s.relaunch r degraded origin = some v)
    : v.Sound l := by
  unfold State.relaunch at e
  grind (ematch := 15) (gen := 25) (splits := 25) [State.modPart_sound, State.dropRun_sound, State.readObject_sound, State.cacheTranslation_sound, State.writeImages_sound,
    State.relocateAll_sound, State.startRun_sound, State.release_sound, State.relaunchFailed_sound, State.Sound.update, sound_getD]

/-! ### Save and restore (R396 to R400) -/

theorem State.freezeTile_sound (h : s.Sound l) (t : Nat) : (s.freezeTile t).Sound l := h

theorem State.deliverTimestamp_sound (h : s.Sound l) (g : Word) : (s.deliverTimestamp g).Sound l := by
  unfold State.deliverTimestamp
  grind [State.deliverFault_sound]

theorem execFreeze_sound (h : s.Sound l) {g : BitVec 32} (e : execFreeze g s = .next v) : v.Sound l := by
  unfold execFreeze at e
  grind [State.modRun_sound, State.trigger_sound, State.release_sound, State.freezeTile_sound, State.deliverTimestamp_sound, sound_foldl]

theorem State.saveRecord_sound (h : s.Sound l) (r : Run) (reason : Nat) : (s.saveRecord r reason).2.Sound l := h

theorem State.saveLoad_sound (h : s.Sound l) (r : Run) (reason : Nat) : (s.saveLoad r reason).Sound l := by
  unfold State.saveLoad
  grind [State.physWrite_sound, State.modPart_sound, State.dropRun_sound, State.trigger_sound, State.release_sound, State.saveRecord_sound,
    State.Sound.update]

theorem execContextScan_sound (h : s.Sound l) {g : BitVec 32} (e : execContextScan g s = .next v) : v.Sound l := by
  unfold execContextScan at e
  grind [State.saveLoad_sound]

theorem State.faultLimit_sound (h : s.Sound l) (r : Run) : (s.faultLimit r).Sound l := by
  unfold State.faultLimit
  grind [State.modRun_sound, State.kill_sound, State.requestFreeze_sound]

theorem execPageFaultLimit_sound (h : s.Sound l) {g : BitVec 32} (e : execPageFaultLimit g s = .next v) : v.Sound l := by
  unfold execPageFaultLimit at e
  grind [State.faultLimit_sound]

theorem State.putWindow_sound (h : s.Sound l) (m base size : Nat) (bytes : Memory) : (s.putWindow m base size bytes).Sound l := h

theorem State.restoreAt_sound (h : s.Sound l) (p : Fin 16) (val : Saved) (x : Placed) : (s.restoreAt p val x).Sound l := by
  unfold State.restoreAt
  grind (gen := 25) (splits := 25) [State.modTile_sound, State.eccMet_sound, State.modPart_sound, State.kill_sound, State.errSyndrome_sound, State.killLogged_sound,
    State.allocate_sound, State.putWindow_sound, State.Sound.update, sound_getD, sound_foldl]

theorem State.resumeAt_sound (h : s.Sound l) {p : Fin 16} {origin : Nat} (e : s.resumeAt p origin = some v) : v.Sound l := by
  unfold State.resumeAt at e
  grind [State.restoreAt_sound]

/-! ### Dispatch and relaunch (R360 to R364) -/

theorem State.writeTail_sound (h : s.Sound l) (p : Fin 16) (q : Fin 64) (val : Word) : (s.writeTail p q val).Sound l := h

theorem execQtailWrite_sound (h : s.Sound l) {p : Fin 16} {q : Fin 64} {val : BitVec 32} (e : execQtailWrite p q val s = .next v) : v.Sound l := by
  unfold execQtailWrite at e
  grind [State.writeTail_sound]

theorem State.writeHead_sound (h : s.Sound l) (p : Fin 16) (q : Fin 64) (val : Word) : (s.writeHead p q val).Sound l := h

theorem execQheadWrite_sound (h : s.Sound l) {p : Fin 16} {q : Fin 64} {val : BitVec 32} (e : execQheadWrite p q val s = .next v) : v.Sound l := by
  unfold execQheadWrite at e
  grind [State.writeHead_sound]

theorem execQstaleClear_sound (h : s.Sound l) {p : Fin 16} {q : Fin 64} (e : execQstaleClear p q s = .next v) : v.Sound l := by
  unfold execQstaleClear at e
  grind [State.modQueue_sound]

theorem State.writeQueueCfg_sound (h : s.Sound l) (p : Fin 16) (q : Fin 64) (val : DWord) : (s.writeQueueCfg p q val).Sound l := by
  unfold State.writeQueueCfg
  grind [State.modPart_sound, State.modQueue_sound]

theorem execQueueEnable_sound (h : s.Sound l) {p : Fin 16} {q : Fin 64} {val : BitVec 64} (e : execQueueEnable p q val s = .next v)
    : v.Sound l := by
  unfold execQueueEnable at e
  grind [State.writeQueueCfg_sound]

theorem State.prereq_sound (h : s.Sound l) (g : Agent) (valid : Bool) (ev : DWord) (th : Word) : (s.prereq g valid ev th).2.Sound l := by
  unfold State.prereq
  grind [State.virtRead_sound, State.logPoison_sound]

theorem State.readHead_sound (h : s.Sound l) (p : Fin 16) (q : Fin 64) : (s.readHead p q).Sound l := by
  unfold State.readHead
  grind (ematch := 15) (gen := 25) (splits := 25) [State.trigger_sound, State.virtRead_sound, State.logPoison_sound, State.modQueue_sound, State.failRecord_sound, State.prereq_sound,
    State.Sound.update, sound_getD]

theorem execHeadEligible_sound (h : s.Sound l) {p : Fin 16} {q : Fin 64} (e : execHeadEligible p q s = .next v) : v.Sound l := by
  unfold execHeadEligible at e
  grind [State.readHead_sound]

theorem execHeadReread_sound (h : s.Sound l) {p : Fin 16} {q : Fin 64} (e : execHeadReread p q s = .next v) : v.Sound l := by
  unfold execHeadReread at e
  grind [State.readHead_sound]

theorem execObservedLineWrite_sound (h : s.Sound l) {a : BitVec 52} (e : execObservedLineWrite a s = .next v) : v.Sound l := by
  unfold execObservedLineWrite at e
  grind [State.readHead_sound, sound_foldl]

theorem State.rejectDecision_sound (h : s.Sound l) (p : Fin 16) (fault : Option FaultRec) : (s.rejectDecision p fault).Sound l := by
  unfold State.rejectDecision
  grind [State.modPart_sound, State.killReport_sound]

theorem State.dispatched_sound (h : s.Sound l) (p : Fin 16) : (s.dispatched p).Sound l := h

theorem State.decideDispatch_sound (h : s.Sound l) (p : Fin 16) (a6 : Word) : (s.decideDispatch p a6).Sound l := by
  unfold State.decideDispatch
  grind [State.rejectDecision_sound, → State.resumeAt_sound, State.dispatched_sound, → State.dispatch_sound, State.Sound.update, sound_getD]

theorem State.decidePreempt_sound (h : s.Sound l) (p : Fin 16) (a6 : Word) : (s.decidePreempt p a6).Sound l := by
  unfold State.decidePreempt
  grind [State.requestFreeze_sound, State.rejectDecision_sound]

theorem State.relaunchable_sound (h : s.Sound l) {g : Word} {v : Run × State} (e : s.relaunchable g = some v) : v.2.Sound l := by
  unfold State.relaunchable at e
  split at e
  · exact Option.some.inj e ▸ h
  · obtain ⟨x, -, rfl⟩ := Option.map_eq_some_iff.mp e
    exact h

theorem State.decideRelaunch_sound (h : s.Sound l) (p : Fin 16) (f : FaultRec) (degraded : Bool) (a6 : Word)
    : (s.decideRelaunch p f degraded a6).Sound l := by
  unfold State.decideRelaunch
  grind [State.killReport_sound, State.rejectDecision_sound, → State.relaunchable_sound, → State.relaunch_sound, State.Sound.update, sound_getD]

theorem State.applyDecision_sound (h : s.Sound l) (p : Fin 16) (t : Trigger) (a7 a6 : Word) : (s.applyDecision p t a7 a6).Sound l := by
  unfold State.applyDecision
  grind [State.modRun_sound, State.modPart_sound, State.killReport_sound, State.rejectDecision_sound, State.decideDispatch_sound,
    State.decidePreempt_sound, State.decideRelaunch_sound]

theorem State.firstFit_sound (h : s.Sound l) {p : Fin 16} {queue : Nat} {os : List Nat} {v : Bool × State}
    (e : s.firstFit p queue os = some v) : v.2.Sound l := by
  induction os with
  | nil => cases e
  | cons o os ih =>
    rw [State.firstFit] at e
    split at e
    next x hx =>
      obtain rfl := Option.some.inj e
      split at hx
      · obtain ⟨z, hz, rfl⟩ := Option.map_eq_some_iff.mp hx
        exact State.resumeAt_sound h hz
      · exact State.dispatch_sound h hx
    · exact ih e

theorem State.fallbackDispatch_sound (h : s.Sound l) (p : Fin 16) : (s.fallbackDispatch p).Sound l := by
  unfold State.fallbackDispatch
  grind [State.dispatched_sound, → State.firstFit_sound, State.Sound.update, sound_getD]

theorem State.fallback_sound (h : s.Sound l) (p : Fin 16) (t : Trigger) : (s.fallback p t).Sound l := by
  unfold State.fallback
  grind [State.modPart_sound, State.killReport_sound, State.fallbackDispatch_sound]

theorem State.serve_sound (h : s.Sound l) (p : Fin 16) : (s.serve p).Sound l := h

theorem execAlmanacInvocation_sound (h : s.Sound l) {p : Fin 16} (e : execAlmanacInvocation p s = .next v) : v.Sound l := by
  unfold execAlmanacInvocation at e
  grind [State.modPart_sound, State.serve_sound, State.fallback_sound]

theorem execAlmEnd_sound (h : s.Sound l) (e : execAlmEnd s = .next v) : v.Sound l := by
  unfold execAlmEnd at e
  grind [State.modPart_sound, State.applyDecision_sound]

theorem State.overrun_sound (h : s.Sound l) (p : Fin 16) : (s.overrun p).Sound l := by
  unfold State.overrun
  grind [State.modPart_sound, State.fallback_sound]

theorem execInvocationOverrun_sound (h : s.Sound l) {p : Fin 16} (e : execInvocationOverrun p s = .next v) : v.Sound l := by
  unfold execInvocationOverrun at e
  grind [State.overrun_sound]

theorem execAlmanacSwap_sound (h : s.Sound l) {p : Fin 16} (e : execAlmanacSwap p s = .next v) : v.Sound l := by
  unfold execAlmanacSwap at e
  grind [State.modPart_sound, State.trigger_sound]

theorem execQuantumExpiry_sound (h : s.Sound l) {p : Fin 16} {r : Fin 32} (e : execQuantumExpiry p r s = .next v) : v.Sound l := by
  unfold execQuantumExpiry at e
  grind [State.modRun_sound, State.trigger_sound]

theorem execDeadlineTrigger_sound (h : s.Sound l) {p : Fin 16} {q : Fin 64} (e : execDeadlineTrigger p q s = .next v) : v.Sound l := by
  unfold execDeadlineTrigger at e
  grind [State.trigger_sound, State.modQueue_sound]

/-! ### Instruction fetch (R222, R403) -/

theorem State.fetchFresh_sound (h : s.Sound l) : (s.fetchFresh).2.Sound l := by
  unfold State.fetchFresh
  grind [State.logConsumed_sound, State.virtRead_sound, State.poisonedByMe_sound]

theorem State.fillL1_sound (h : s.Sound l) (w : Word) : (s.fillL1 w).Sound l := by
  unfold State.fillL1
  grind [State.modMe_sound]

theorem State.fetch_sound (h : s.Sound l) : (s.fetch).2.Sound l := by
  unfold State.fetch
  grind [State.choose_sound, State.fetchFresh_sound, State.fillL1_sound, State.Sound.update]

/-! ### Turns of the world (log entry 6) -/

theorem State.spoilToken_sound (h : s.Sound l) (x : RCtx) (u port : Nat) : (s.spoilToken x u port).Sound l := h

theorem State.spoilInstr_sound (h : s.Sound l) (t : Fin 192) : (s.spoilInstr t).Sound l := by
  unfold State.spoilInstr
  grind [State.modSeq_sound, State.drawSyndrome_sound, State.logError_sound]

theorem State.world_sound (h : s.Sound l) (w : World) : (s.world w).Sound l := by
  unfold State.world
  grind [Memory.wf_write, State.Sound.with_store, State.Sound, State.modTile_sound, State.modMTile_sound, State.modSeq_sound,
    State.modUnit_sound, State.modPart_sound, State.modCtx_sound, State.modRun_sound, State.spoilToken_sound, State.spoilInstr_sound,
    State.beginEvict_sound]

/-! ### The host: queues, rings, shootdowns, memory from outside (R342, R450 to R459) -/

theorem State.accessDone_sound (h : s.Sound l) (ok : Bool) : (s.accessDone ok).Sound l := h

theorem State.readPstatus_sound (h : s.Sound l) (p : Fin 16) (o n : Nat) : (s.readPstatus p o n).Sound l := by
  unfold State.readPstatus
  grind [State.modPart_sound, State.accessDone_sound, State.Sound.update]

theorem execPstatusRead_sound (h : s.Sound l) {p : Fin 16} {o : BitVec 3} {n : BitVec 4} (e : execPstatusRead p o n s = .next v) : v.Sound l := by
  unfold execPstatusRead at e
  grind [State.accessDone_sound, State.readPstatus_sound]

theorem State.clearPqerr_sound (h : s.Sound l) (p : Fin 16) (o n : Nat) (val : DWord) : (s.clearPqerr p o n val).Sound l := h

theorem execPqerrClear_sound (h : s.Sound l) {p : Fin 16} {o : BitVec 3} {n : BitVec 4} {val : BitVec 64}
    (e : execPqerrClear p o n val s = .next v) : v.Sound l := by
  unfold execPqerrClear at e
  grind [State.accessDone_sound, State.clearPqerr_sound]

theorem State.writeRingHead_sound (h : s.Sound l) (p : Fin 16) (n : RingName) (val : Word) : (s.writeRingHead p n val).Sound l := by
  unfold State.writeRingHead
  grind [State.modPart_sound, State.postFaults_sound]

theorem execRingHeadWrite_sound (h : s.Sound l) {p : Fin 16} {r : RingName} {val : BitVec 32} (e : execRingHeadWrite p r val s = .next v)
    : v.Sound l := by
  unfold execRingHeadWrite at e
  grind [State.writeRingHead_sound]

theorem State.writeRingCfg_sound (h : s.Sound l) (p : Fin 16) (n : RingName) (val : DWord) : (s.writeRingCfg p n val).Sound l := by
  unfold State.writeRingCfg
  grind [State.modPart_sound, State.postFaults_sound]

theorem execRingEnable_sound (h : s.Sound l) {p : Fin 16} {r : RingName} {val : BitVec 64} (e : execRingEnable p r val s = .next v)
    : v.Sound l := by
  unfold execRingEnable at e
  grind [State.writeRingCfg_sound]

theorem execRingRecordRelease_sound (h : s.Sound l) {p : Fin 16} (e : execRingRecordRelease p s = .next v) : v.Sound l := by
  unfold execRingRecordRelease at e
  extract_lets n s1 s2 x at e
  have h1 : s1.Sound l := State.releaseCompletions_sound h ..
  have h2 : s2.Sound l := by
    unfold s2
    split
    · exact State.trigger_sound h1 ..
    · exact h1
  clear_value s2
  generalize x.waiting = w, x.deferred = d, x.deferredFallback = b at e
  rcases w with _ | ⟨_, _⟩
  · rcases d with _ | ⟨a7, a6⟩
    · cases b <;> obtain rfl := Host.Outcome.next.inj e
      · exact h2
      · exact State.fallbackDispatch_sound (State.modPart_sound h2 ..) ..
    · obtain rfl := Host.Outcome.next.inj e
      exact State.applyDecision_sound (State.modPart_sound h2 ..) ..
  · obtain rfl := Host.Outcome.next.inj e
    exact h2

theorem execMsixTimer_sound (h : s.Sound l) {p : Fin 16} {r : RingName} (e : execMsixTimer p r s = .next v) : v.Sound l := by
  unfold execMsixTimer at e
  grind [State.ringMessage_sound]

theorem State.nowResumable_sound (h : s.Sound l) (p : Fin 16) (g : Word) : (s.nowResumable p g).Sound l := by
  unfold State.nowResumable
  grind [State.modPart_sound, State.trigger_sound]

theorem State.resolveFault_sound (h : s.Sound l) (p : Fin 16) (val : DWord) : (s.resolveFault p val).Sound l := by
  unfold State.resolveFault
  grind [State.modTile_sound, State.modPart_sound, State.faultLimit_sound, State.nowResumable_sound, State.Sound.update, sound_foldl]

theorem execFrresolve_sound (h : s.Sound l) {p : Fin 16} {val : BitVec 64} (e : execFrresolve p val s = .next v) : v.Sound l := by
  unfold execFrresolve at e
  grind [State.resolveFault_sound]

theorem State.reachAll_sound (h : s.Sound l) (p : Fin 16) (x : Shoot) : (s.reachAll p x).Sound l := by
  unfold State.reachAll
  grind [State.modSeq_sound, sound_foldl]

theorem State.issueShoot_sound (h : s.Sound l) (p : Fin 16) (kind : Nat) (ctx : Half) (k : Nat) : (s.issueShoot p kind ctx k).Sound l := by
  unfold State.issueShoot
  grind [State.modPart_sound, State.reachAll_sound]

theorem execShootTranslation_sound (h : s.Sound l) {p : Fin 16} {ctx : BitVec 16} {k : BitVec 3} (e : execShootTranslation p ctx k s = .next v)
    : v.Sound l := by
  unfold execShootTranslation at e
  grind [State.issueShoot_sound]

theorem execShootFetch_sound (h : s.Sound l) {p : Fin 16} {ctx : BitVec 16} {k : BitVec 3} (e : execShootFetch p ctx k s = .next v)
    : v.Sound l := by
  unfold execShootFetch at e
  grind [State.issueShoot_sound]

theorem execShootBoth_sound (h : s.Sound l) {p : Fin 16} {ctx : BitVec 16} {k : BitVec 3} (e : execShootBoth p ctx k s = .next v) : v.Sound l := by
  unfold execShootBoth at e
  grind [State.issueShoot_sound]

theorem State.staleBases_sound (h : s.Sound l) (p : Fin 16) (ctx : Half) (bad : Base → Bool) : (s.staleBases p ctx bad).Sound l := by
  unfold State.staleBases
  grind [State.modTile_sound, sound_foldl]

theorem State.dropLines_sound (h : s.Sound l) (p : Fin 16) (x : Shoot) : (s.dropLines p x).Sound l := h

theorem State.dropPage_sound (h : s.Sound l) (p : Fin 16) (x : Shoot) : (s.dropPage p x).Sound l := by
  unfold State.dropPage
  grind [State.staleBases_sound, State.Sound.update]

theorem execShootdownComplete_sound (h : s.Sound l) {p : Fin 16} (e : execShootdownComplete p s = .next v) : v.Sound l := by
  unfold execShootdownComplete at e
  grind [State.modPart_sound, State.dropPage_sound, State.dropLines_sound]

theorem execHostMemoryWrite_sound (h : s.Sound l) {o : BitVec 39} {n : BitVec 4} {val : BitVec 64} (e : execHostMemoryWrite o n val s = .next v)
    : v.Sound l := by
  unfold execHostMemoryWrite at e
  grind [State.touchL2_sound, State.physWrite_sound]

theorem execHostMemoryRead_sound (h : s.Sound l) {o : BitVec 39} {n : BitVec 4} (e : execHostMemoryRead o n s = .next v) : v.Sound l := by
  unfold execHostMemoryRead at e
  grind [State.eccMet_sound, State.touchL2_sound, State.errSyndrome_sound, State.logManagement_sound, State.Sound.update]

theorem execCxlMemAccess_sound (h : s.Sound l) {wr : Bool} {a : BitVec 52} {val : BitVec 512} (e : execCxlMemAccess wr a val s = .next v)
    : v.Sound l := by
  unfold execCxlMemAccess at e
  grind [State.eccMet_sound, State.physWrite_sound, State.Sound.update]

theorem execTablePoisonClear_sound (h : s.Sound l) {a : BitVec 52} (e : execTablePoisonClear a s = .next v) : v.Sound l := by
  unfold execTablePoisonClear at e
  grind [State.Sound.update]

/-! ### The end of a load (R101, R112) -/

theorem State.finishGraph_sound (h : s.Sound l) (r : Run) : (s.finishGraph r).Sound l := by
  unfold State.finishGraph
  grind [State.completeRun_sound, State.deliverFault_sound]

theorem State.endLoad_sound (h : s.Sound l) (r : Run) : (s.endLoad r).Sound l := by
  unfold State.endLoad
  grind [State.modRun_sound, State.addEclipses_sound, State.placeLoad_sound, State.finishGraph_sound]

theorem execFabricLoadEnd_sound (h : s.Sound l) {g : BitVec 32} (e : execFabricLoadEnd g s = .next v) : v.Sound l := by
  unfold execFabricLoadEnd at e
  grind [State.endLoad_sound]

theorem State.writeReport_sound (h : s.Sound l) (r : Run) : (s.writeReport r).2.2.Sound l := by
  unfold State.writeReport
  grind [State.virtPut_sound]

theorem execQuiescenceTrip_sound (h : s.Sound l) {g : BitVec 32} (e : execQuiescenceTrip g s = .next v) : v.Sound l := by
  unfold execQuiescenceTrip at e
  grind [State.logError_sound, State.freezeFault_sound, State.writeReport_sound]

/-! ### Page moves (R138, R139, R414) -/

theorem State.copyBlocks_sound (h : s.Sound l) (source dest n : Nat) : (s.copyBlocks source dest n).Sound l :=
  ⟨Memory.wf_foldl (fun _ _ hm => Memory.wf_write _ _ hm) _ (Memory.wf_filter _ h.1), h.2⟩

theorem State.copyIn_sound (h : s.Sound l) (source dest n : Nat) : (s.copyIn source dest n).Sound l :=
  ⟨Memory.wf_foldl (fun _ _ hm => Memory.wf_write _ _ hm) _ (Memory.wf_filter _ h.1), h.2⟩

theorem State.copyOut_sound (h : s.Sound l) (lf : Leaf) (dest : Nat) : (s.copyOut lf dest).Sound l := by
  unfold State.copyOut
  grind [State.physWrite_sound]

theorem State.copyPage_sound (h : s.Sound l) (lf : Leaf) (dest : Nat) : (s.copyPage lf dest).Sound l := by
  unfold State.copyPage
  grind [State.copyOut_sound, State.copyBlocks_sound, State.copyIn_sound]

theorem State.redirect_sound (h : s.Sound l) (m : Move) : (s.redirect m).Sound l := by
  unfold State.redirect
  grind [State.modTile_sound, State.Sound.update, sound_foldl]

theorem State.remap_sound (h : s.Sound l) (lf : Leaf) (frame : Nat) : (s.remap lf frame).Sound l := by
  unfold State.remap
  grind [State.physWrite_sound, sound_foldl]

theorem State.modHot_sound (h : s.Sound l) (m : Move) (f : HotPage → HotPage) : (s.modHot m f).Sound l := h

theorem State.shootMoved_sound (h : s.Sound l) (m : Move) : (s.shootMoved m).Sound l := by
  unfold State.shootMoved
  grind [State.dropPage_sound]

theorem State.finishMigrate_sound (h : s.Sound l) (m : Move) : (s.finishMigrate m).Sound l := by
  unfold State.finishMigrate
  grind (ematch := 15) (gen := 25) (splits := 25) [State.remap_sound, State.copyPage_sound, State.redirect_sound, State.shootMoved_sound, State.modHot_sound, State.Sound.update, sound_getD]

theorem execPageMove_sound (h : s.Sound l) {n : BitVec 16} (e : execPageMove n s = .next v) : v.Sound l := by
  unfold execPageMove at e
  grind [State.copyBlocks_sound, State.shootMoved_sound, State.modHot_sound, State.finishMigrate_sound, State.Sound.update]

theorem State.chooseDie_sound (h : s.Sound l) (h0 : HotPage) : (s.chooseDie h0).2.Sound l := h

theorem State.evaluatePage_sound (h : s.Sound l) (h0 : HotPage) : (s.evaluatePage h0).Sound l := by
  unfold State.evaluatePage
  grind [State.drawFrame_sound, State.chooseDie_sound, State.Sound.update]

theorem execPlacementEpoch_sound (h : s.Sound l) {d : Fin 4} (e : execPlacementEpoch d s = .next v) : v.Sound l := by
  unfold execPlacementEpoch at e
  grind [State.evaluatePage_sound, State.Sound.update, sound_foldl]

end Soundness

end Sys2Proof.Machine
end

section
/-! PROOF. Soundness (R468): management, the matrix core, the remaining instructions, and with them every step. -/

namespace Sys2Proof.Machine

-- grind waits for the proofs of the lemmas that it is given: one after another, no thread waits.
set_option Elab.async false

section Soundness

variable {l : Nat} {s v : State}

/-! ### Management commands (R468, R473, R474) -/

theorem State.completeCommand_sound (h : s.Sound l) (tag : Half) (ev : Ended) : (s.completeCommand tag ev).Sound l := h

theorem State.busyWith_sound (h : s.Sound l) (val : DWord) : (s.busyWith val).Sound l := h

theorem State.command_sound_of_live (h : s.Sound l) {tag : Half} {f : State → Ended × State}
    (hf : s.lifecycle ≠ 3#2 → (f s).2.Sound l) (e : s.command tag f = .next v) : v.Sound l := by
  unfold State.command at e
  grind [State.completeCommand_sound]

theorem State.command_sound (h : s.Sound l) {tag : Half} {f : State → Ended × State} (hf : ∀ z, z.Sound l → (f z).2.Sound l)
    (e : s.command tag f = .next v) : v.Sound l :=
  State.command_sound_of_live h (fun _ => hf s h) e

theorem State.onPart_sound (h : s.Sound l) (f : Fin 16 → Ended × State) (hf : ∀ p, (f p).2.Sound l) : (s.onPart f).2.Sound l := by
  unfold State.onPart
  grind

theorem execEclclr_sound (h : s.Sound l) {tag : BitVec 16} (e : execEclclr tag s = .next v) : v.Sound l := by
  unfold execEclclr at e
  grind [→ State.command_sound, State.Sound.update]

theorem execAlmstage_sound (h : s.Sound l) {tag : BitVec 16} (e : execAlmstage tag s = .next v) : v.Sound l := by
  unfold execAlmstage at e
  grind [State.modPart_sound, → State.command_sound, State.onPart_sound]

theorem execAlmswap_sound (h : s.Sound l) {tag : BitVec 16} (e : execAlmswap tag s = .next v) : v.Sound l := by
  unfold execAlmswap at e
  grind [State.modPart_sound, → State.command_sound, State.onPart_sound]

theorem execPrelease_sound (h : s.Sound l) {tag : BitVec 16} (e : execPrelease tag s = .next v) : v.Sound l := by
  unfold execPrelease at e
  grind [State.modPart_sound, State.trigger_sound, → State.command_sound, State.onPart_sound]

theorem execGkill_sound (h : s.Sound l) {tag : BitVec 16} (e : execGkill tag s = .next v) : v.Sound l := by
  unfold execGkill at e
  grind [State.modRun_sound, State.kill_sound, → State.command_sound]

theorem execEmask_sound (h : s.Sound l) {tag : BitVec 16} (e : execEmask tag s = .next v) : v.Sound l := by
  unfold execEmask at e
  grind [State.modPart_sound, → State.command_sound, State.onPart_sound]

theorem execPartset_sound (h : s.Sound l) {tag : BitVec 16} (e : execPartset tag s = .next v) : v.Sound l := by
  unfold execPartset at e
  grind [State.modPart_sound, → State.command_sound]

theorem execSavearea_sound (h : s.Sound l) {tag : BitVec 16} (e : execSavearea tag s = .next v) : v.Sound l := by
  unfold execSavearea at e
  grind [State.modPart_sound, → State.command_sound, State.onPart_sound]

theorem execStrpair_sound (h : s.Sound l) {tag : BitVec 16} (e : execStrpair tag s = .next v) : v.Sound l := by
  unfold execStrpair at e
  grind [→ State.command_sound, State.Sound.update]

theorem execCapset_sound (h : s.Sound l) {tag : BitVec 16} (e : execCapset tag s = .next v) : v.Sound l := by
  unfold execCapset at e
  grind [→ State.command_sound, State.Sound.update]

theorem State.wipe_sound (h : s.Sound l) : s.wipe.Sound l := ⟨Memory.wf_filter _ h.1, h.2⟩

theorem State.completeSwaps_sound (h : s.Sound l) : s.completeSwaps.Sound l := by
  refine sound_foldl (fun z p hz => ?_) h _
  split
  · exact hz
  split
  next hn => exact execAlmanacSwap_sound (State.modPart_sound hz ..) hn
  · exact hz

/-- R468: the step of a life cycle that is not the last moves it on by one, so it stays at least what it was. -/
theorem State.Sound.step_lifecycle (h : s.Sound l) (hl : s.lifecycle ≠ 3#2) (hv : v.mem.wf = true) :
    ({ v with lifecycle := s.lifecycle + 1#2 } : State).Sound l := by
  refine ⟨hv, ?_⟩
  have hle := h.2
  show l ≤ (s.lifecycle + 1#2).toNat
  bv_omega

theorem execLcstep_sound (h : s.Sound l) {tag : BitVec 16} (e : execLcstep tag s = .next v) : v.Sound l := by
  refine State.command_sound_of_live h (fun hl => ?_) e
  have hr : (s.runs.foldl (fun s r => s.completeRun r.discard 0x11 0#8) s).Sound l :=
    sound_foldl (fun _ _ hz => State.completeRun_sound hz ..) h _
  exact State.Sound.step_lifecycle h hl (State.wipe_sound (State.completeSwaps_sound hr)).1

theorem execDbgaccRead_sound (h : s.Sound l) {tag : BitVec 16} (e : execDbgaccRead tag s = .next v) : v.Sound l := by
  unfold execDbgaccRead at e
  grind [State.virtGet_sound, → State.command_sound]

theorem State.holdDebugWrite_sound (h : s.Sound l) : (s.holdDebugWrite).Sound l := by
  unfold State.holdDebugWrite
  grind [State.holdWrite_sound]

theorem execDbgaccWrite_sound (h : s.Sound l) {tag : BitVec 16} (e : execDbgaccWrite tag s = .next v) : v.Sound l := by
  unfold execDbgaccWrite at e
  grind [State.virtPut_sound, State.busyWith_sound, → State.command_sound, State.holdDebugWrite_sound]

theorem State.releaseHold_sound (h : s.Sound l) (r : Run) : (s.releaseHold r).Sound l := by
  unfold State.releaseHold
  grind [State.modSeq_sound, State.modRun_sound, sound_foldl]

theorem execDbgaccRelease_sound (h : s.Sound l) {tag : BitVec 16} (e : execDbgaccRelease tag s = .next v) : v.Sound l := by
  unfold execDbgaccRelease at e
  grind [→ State.command_sound, State.releaseHold_sound, sound_foldl]

/-! ### The matrix core (R334 to R337) -/

theorem State.modCore_sound (h : s.Sound l) (t : Fin 192) (f : MatrixCore → MatrixCore) : (s.modCore t f).Sound l := h

theorem State.coreFired_sound (h : s.Sound l) (x : RCtx) : (s.coreFired x).Sound l := h

theorem State.initToken_sound (h : s.Sound l) {x : RCtx} {u : Nat} (e : s.initToken x u = some v) : v.Sound l := by
  unfold State.initToken at e
  grind [State.modUnit_sound, State.punctuationFault_sound, State.applyEff_sound, State.coreFired_sound, State.modCore_sound, sound_foldl]

theorem State.initTokens_sound (h : s.Sound l) (x : RCtx) (u a3 : Nat) : (s.initTokens x u a3).Sound l := by
  fun_induction s.initTokens x u a3 <;> grind [→ State.initToken_sound, State.Sound.update]

theorem State.initBanks_sound (h : s.Sound l) (x : RCtx) : (s.initBanks x).Sound l := by
  unfold State.initBanks
  grind [State.modCore_sound, State.initTokens_sound]

theorem State.wavefront_sound (h : s.Sound l) (x : RCtx) (u : Nat) (a b c d : List Item) (fresh : Bool)
    : (s.wavefront x u a b c d fresh).Sound l := by
  unfold State.wavefront
  grind [State.killLogged_sound, State.modUnit_sound, State.coreFired_sound, State.modCore_sound, sound_foldl]

theorem State.mxaStep_sound (h : s.Sound l) {x : RCtx} {u : Nat} (e : s.mxaStep x u = some v) : v.Sound l := by
  unfold State.mxaStep at e
  grind (splits := 25) [State.modUnit_sound, State.punctuationFault_sound, State.applyEff_sound, State.modCore_sound, State.wavefront_sound, State.Sound.update,
    sound_getD, sound_foldl]

theorem execUMxa_sound (h : s.Sound l) {t : Fin 192} {k : Fin 8} (e : execUMxa t k s = .next v) : v.Sound l := by
  unfold execUMxa at e
  grind [State.initBanks_sound, → State.mxaStep_sound, State.Sound.update, sound_getD]

theorem State.drainRow_sound (h : s.Sound l) (x : RCtx) (u : Nat) (d : Drain) : (s.drainRow x u d).Sound l := by
  unfold State.drainRow
  grind [State.modUnit_sound, State.coreFired_sound, State.modCore_sound, sound_foldl]

theorem State.mxdStep_sound (h : s.Sound l) {x : RCtx} {u : Nat} (e : s.mxdStep x u = some v) : v.Sound l := by
  unfold State.mxdStep at e
  grind [State.modUnit_sound, State.punctuationFault_sound, State.applyEff_sound, State.modCore_sound, State.drainRow_sound, sound_foldl]

theorem execUMxd_sound (h : s.Sound l) {t : Fin 192} {k : Fin 8} (e : execUMxd t k s = .next v) : v.Sound l := by
  unfold execUMxd at e
  grind [State.initBanks_sound, → State.mxdStep_sound, State.Sound.update, sound_getD]

/-! ### Registers of the control window (R452) -/

theorem State.debugCommand_sound (h : s.Sound l) {tag : Half} (e : s.debugCommand tag = .next v) : v.Sound l := by
  unfold State.debugCommand at e
  grind [→ State.command_sound, → execDbgaccRead_sound, → execDbgaccWrite_sound, → execDbgaccRelease_sound]

theorem State.startCommand_sound (h : s.Sound l) {val : DWord} (e : s.startCommand val = .next v) : v.Sound l := by
  unfold State.startCommand at e
  grind [→ State.command_sound, → execEclclr_sound, → execAlmstage_sound, → execAlmswap_sound, → execPrelease_sound, → execGkill_sound,
    → execEmask_sound, → execPartset_sound, → execSavearea_sound, → execStrpair_sound, → execCapset_sound, → execLcstep_sound,
    → State.debugCommand_sound]

theorem State.finishCommand_sound (h : s.Sound l) (e : s.finishCommand = .next v) : v.Sound l := by
  unfold State.finishCommand at e
  split at e
  · exact Host.Outcome.next.inj e ▸ h
  next w _ => exact State.startCommand_sound (s := { s with busy := none, mstat := s.mstat &&& ~~~busyBit }) h e

theorem State.writeDevice_sound (h : s.Sound l) {o n : Nat} {val : DWord} (e : s.writeDevice o n val = .next v) : v.Sound l := by
  unfold State.writeDevice at e
  grind [State.busyWith_sound, → State.startCommand_sound, State.Sound.update]

theorem State.writeQueueReg_sound (h : s.Sound l) (p : Fin 16) (q : Fin 64) (o n : Nat) (val : DWord) : (s.writeQueueReg p q o n val).Sound l := by
  unfold State.writeQueueReg
  grind [State.modQueue_sound, State.writeTail_sound, State.writeHead_sound, State.writeQueueCfg_sound]

theorem State.writeRingReg_sound (h : s.Sound l) (p : Fin 16) (r : RingName) (o n : Nat) (val : DWord) : (s.writeRingReg p r o n val).Sound l := by
  unfold State.writeRingReg
  grind [State.modPart_sound, State.writeRingHead_sound, State.writeRingCfg_sound]

theorem State.writeShoot_sound (h : s.Sound l) (p : Fin 16) (val : DWord) : (s.writeShoot p val).Sound l := by
  unfold State.writeShoot
  grind [State.modPart_sound, State.issueShoot_sound]

theorem State.writePartReg_sound (h : s.Sound l) (p : Fin 16) (o n : Nat) (val : DWord) : (s.writePartReg p o n val).Sound l := by
  unfold State.writePartReg
  grind [State.modPart_sound, State.resolveFault_sound, State.clearPqerr_sound, State.writeRingReg_sound, State.writeShoot_sound]

theorem execRegisterWrite_sound (h : s.Sound l) {o : BitVec 21} {n : BitVec 4} {w : BitVec 64} (e : execRegisterWrite o n w s = .next v) :
    v.Sound l := by
  have h0 := State.accessDone_sound h true
  unfold execRegisterWrite at e
  grind [State.accessDone_sound, → State.writeDevice_sound, State.writeQueueReg_sound, State.writePartReg_sound]

theorem State.readWindow_sound (h : s.Sound l) (o n : Nat) : (s.readWindow o n).Sound l := by
  unfold State.readWindow
  grind [State.accessDone_sound, State.readPstatus_sound, State.Sound.update]

/-! ### System instructions (R271 to R274) -/

theorem execTrap_sound (h : s.Sound l) {p : BitVec 2} {i : BitVec 16} (e : execTrap p i s = .next v) : v.Sound l := by
  unfold execTrap at e
  grind [State.trapMe_sound, → seqInstr_sound]

theorem execBrk_sound (h : s.Sound l) {p : BitVec 2} {i : BitVec 16} (e : execBrk p i s = .next v) : v.Sound l := by
  unfold execBrk at e
  grind [State.trapMe_sound, → seqInstr_sound]

theorem execEret_sound (h : s.Sound l) {p : BitVec 2} (e : execEret p s = .next v) : v.Sound l := by
  unfold execEret at e
  grind [State.modMe_sound, State.illegal_sound, → seqInstr_sound]

theorem execIfence_sound (h : s.Sound l) {p : BitVec 2} (e : execIfence p s = .next v) : v.Sound l := by
  unfold execIfence at e
  grind [State.modMe_sound, → seqInstr_sound]

theorem execMfsy_sound (h : s.Sound l) {p : BitVec 2} {d : BitVec 5} {i : BitVec 14} (e : execMfsy p d i s = .next v) : v.Sound l := by
  unfold execMfsy at e
  grind [State.illegal_sound, → seqInstr_sound, State.writeBack_sound]

theorem execMtsy_sound (h : s.Sound l) {p : BitVec 2} {a : BitVec 5} {i : BitVec 14} (e : execMtsy p a i s = .next v) : v.Sound l := by
  unfold execMtsy at e
  grind [State.modMe_sound, State.illegal_sound, → seqInstr_sound]

/-! ### Reset, power, links, attestation (R462, R467 to R472) -/

theorem execReset_sound (h : s.Sound l) (e : execReset s = .next v) : v.Sound l := by
  obtain rfl := Host.Outcome.next.inj e
  exact ⟨Memory.wf_filter _ h.1, h.2⟩

theorem State.endHarebell_sound (h : s.Sound l) : (s.endHarebell).Sound l := by
  unfold State.endHarebell
  grind [State.Sound.update]

theorem execTileJoin_sound (h : s.Sound l) {i : Fin 512} {pass : Bool} (e : execTileJoin i pass s = .next v) : v.Sound l := by
  unfold execTileJoin at e
  grind [State.addEclipse_sound, State.endHarebell_sound, State.Sound.update]

theorem State.setClock_sound (h : s.Sound l) (island k : Nat) : (s.setClock island k).Sound l := h

theorem execPowerWindow_sound (h : s.Sound l) {ks : List (Fin 512 × BitVec 5)} (e : execPowerWindow ks s = .next v) : v.Sound l := by
  unfold execPowerWindow at e
  grind [State.setClock_sound, sound_foldl]

theorem State.modLink_sound (h : s.Sound l) (d lf : Nat) (f : LinkSt → LinkSt) : (s.modLink d lf f).Sound l := h

theorem State.logLink_sound (h : s.Sound l) (d lf event eclipse : Nat) : (s.logLink d lf event eclipse).Sound l := h

theorem execLinkCrcReplay_sound (h : s.Sound l) {d : Fin 4} {lf : Fin 5} (e : execLinkCrcReplay d lf s = .next v) : v.Sound l := by
  unfold execLinkCrcReplay at e
  grind [State.choose_sound, State.modLink_sound, State.logLink_sound]

theorem execLinkRetrain_sound (h : s.Sound l) {d : Fin 4} {lf : Fin 5} {lanes : BitVec 8} (e : execLinkRetrain d lf lanes s = .next v)
    : v.Sound l := by
  unfold execLinkRetrain at e
  grind [State.modLink_sound, State.logLink_sound]

theorem State.killPathless_sound (h : s.Sound l) (before : State) : (s.killPathless before).Sound l := by
  unfold State.killPathless
  grind [State.kill_sound, sound_foldl]

theorem execLinkDown_sound (h : s.Sound l) {d : Fin 4} {lf : Fin 5} (e : execLinkDown d lf s = .next v) : v.Sound l := by
  unfold execLinkDown at e
  grind [State.addEclipse_sound, State.modLink_sound, State.logLink_sound, State.killPathless_sound]

theorem execFlitUndelivered_sound (h : s.Sound l) {d : Fin 4} {lf : Fin 5} {t : Fin 192} {k : Fin 8} {u : BitVec 7}
    (e : execFlitUndelivered d lf t k u s = .next v) : v.Sound l := by
  unfold execFlitUndelivered at e
  grind [State.modUnit_sound, State.logLink_sound]

theorem execDebugPortRegisterAccess_sound (h : s.Sound l) {t : Fin 192} {r : DebugReg} {val : Option (BitVec 64)}
    (e : execDebugPortRegisterAccess t r val s = .next v) : v.Sound l := by
  unfold execDebugPortRegisterAccess at e
  grind [State.modSeq_sound, State.Sound.update]

theorem State.spdmAnswer_sound (h : s.Sound l) (request : Nat) (operands : List Nat) : (s.spdmAnswer request operands).Sound l := h

theorem State.spdmRequest_sound (h : s.Sound l) {f : State → State} (hf : ∀ z, z.Sound l → (f z).Sound l) (e : s.spdmRequest f = .next v)
    : v.Sound l := by
  unfold State.spdmRequest at e
  grind

theorem State.spdmAgreed_sound (h : s.Sound l) (request : Nat) (operands : List Nat) : (s.spdmAgreed request operands).Sound l := by
  unfold State.spdmAgreed
  grind [State.spdmAnswer_sound]

theorem execGetVersion_sound (h : s.Sound l) (e : execGetVersion s = .next v) : v.Sound l := by
  unfold execGetVersion at e
  grind [→ State.spdmRequest_sound, State.spdmAnswer_sound, State.Sound.update]

theorem execGetCapabilities_sound (h : s.Sound l) (e : execGetCapabilities s = .next v) : v.Sound l := by
  unfold execGetCapabilities at e
  grind [→ State.spdmRequest_sound, State.spdmAnswer_sound]

theorem execNegotiateAlgorithms_sound (h : s.Sound l) {hash asym : BitVec 32} (e : execNegotiateAlgorithms hash asym s = .next v) : v.Sound l := by
  unfold execNegotiateAlgorithms at e
  grind [→ State.spdmRequest_sound, State.spdmAnswer_sound, State.Sound.update]

theorem execGetDigests_sound (h : s.Sound l) (e : execGetDigests s = .next v) : v.Sound l := by
  unfold execGetDigests at e
  grind [→ State.spdmRequest_sound, State.spdmAgreed_sound]

theorem execGetCertificate_sound (h : s.Sound l) {slot : BitVec 4} {o n : BitVec 16} (e : execGetCertificate slot o n s = .next v) : v.Sound l := by
  unfold execGetCertificate at e
  grind [→ State.spdmRequest_sound, State.spdmAgreed_sound]

theorem execChallenge_sound (h : s.Sound l) {slot : BitVec 4} {nonce : BitVec 256} (e : execChallenge slot nonce s = .next v) : v.Sound l := by
  unfold execChallenge at e
  grind [→ State.spdmRequest_sound, State.spdmAgreed_sound]

theorem execGetMeasurements_sound (h : s.Sound l) {op : BitVec 8} {nonce : BitVec 256} (e : execGetMeasurements op nonce s = .next v)
    : v.Sound l := by
  unfold execGetMeasurements at e
  grind [→ State.spdmRequest_sound, State.spdmAnswer_sound, State.spdmAgreed_sound]

/-! ### Branches (R232 to R234) -/

theorem branchInstr_sound (h : s.Sound l) {i : Instr} {p : BitVec 2} {taken : Bool} {target : DWord}
    (e : branchInstr i p taken target s = .next v) : v.Sound l := by
  unfold branchInstr at e
  grind [State.modMe_sound, → seqInstr_sound]

theorem execCall_sound (h : s.Sound l) {p : BitVec 2} {o : BitVec 24} (e : execCall p o s = .next v) : v.Sound l := by
  unfold execCall at e
  grind [State.modMe_sound, → seqInstr_sound]

theorem execCallr_sound (h : s.Sound l) {p : BitVec 2} {d a : BitVec 5} {i : BitVec 14} (e : execCallr p d a i s = .next v) : v.Sound l := by
  unfold execCallr at e
  grind [State.modMe_sound, State.trapMe_sound, → seqInstr_sound]

/-! ### Immediate operations (R230, R477) -/

theorem execShli_sound (h : s.Sound l) {p : BitVec 2} {d a : BitVec 5} {n : BitVec 6} (e : execShli p d a n s = .next v) : v.Sound l := by
  unfold execShli at e
  grind [→ regInstr_sound]

theorem execShrli_sound (h : s.Sound l) {p : BitVec 2} {d a : BitVec 5} {n : BitVec 6} (e : execShrli p d a n s = .next v) : v.Sound l := by
  unfold execShrli at e
  grind [→ regInstr_sound]

/-! ### Predicate operations (R226 to R229) -/

theorem execPset_sound (h : s.Sound l) {p : BitVec 2} {a : BitVec 5} (e : execPset p a s = .next v) : v.Sound l := by
  unfold execPset at e
  grind [State.modMe_sound, → seqInstr_sound]

/-! ### Tokens and rounds (R259 to R264) -/

theorem State.setPort_sound (h : s.Sound l) (g : Word) (p : Port) : (s.setPort g p).Sound l := h

theorem portInstr_sound (h : s.Sound l) {i : Instr} {p : BitVec 2} {b : BitVec 5} {f : DWord → RCtx → Nat → Run → Port → State → State}
    (hf : ∀ y c n r q z, z.Sound l → (f y c n r q z).Sound l) (e : portInstr i p b f s = .next v) : v.Sound l := by
  unfold portInstr at e
  grind [→ seqInstr_sound, State.cfgError_sound]

theorem State.inject_sound (h : s.Sound l) (i : Instr) (x : RCtx) (u : Nat) (q : Port) (item : Item) (next : Port)
    : (s.inject i x u q item next).Sound l := by
  unfold State.inject
  grind [State.stallMe_sound, State.nextMe_sound, State.modUnit_sound, State.setPort_sound]

theorem execTokPut_sound (h : s.Sound l) {p : BitVec 2} {a b : BitVec 5} {t : BitVec 7} (e : execTokPut p a b t s = .next v) : v.Sound l := by
  unfold execTokPut at e
  grind [State.cfgError_sound, → portInstr_sound, State.inject_sound]

theorem execRndEnd_sound (h : s.Sound l) {p : BitVec 2} {a b : BitVec 5} (e : execRndEnd p a b s = .next v) : v.Sound l := by
  unfold execRndEnd at e
  grind [State.cfgError_sound, → portInstr_sound, State.inject_sound, State.punctuationFault_sound, State.noteTimestamp_sound]

theorem execRndGraph_sound (h : s.Sound l) {p : BitVec 2} {b : BitVec 5} (e : execRndGraph p b s = .next v) : v.Sound l := by
  unfold execRndGraph at e
  grind [State.cfgError_sound, → portInstr_sound, State.inject_sound]

theorem execRndRedo_sound (h : s.Sound l) {p : BitVec 2} {a b : BitVec 5} (e : execRndRedo p a b s = .next v) : v.Sound l := by
  unfold execRndRedo at e
  grind [State.nextMe_sound, State.cfgError_sound, → portInstr_sound, State.setPort_sound]

theorem State.pend_sound (h : s.Sound l) (i : Instr) (queue : Nat) (bytes : List Byte) : (s.pend i queue bytes).Sound l := by
  unfold State.pend
  grind [State.modRun_sound, State.stallMe_sound, State.nextMe_sound]

theorem execLaunch_sound (h : s.Sound l) {p : BitVec 2} {a b : BitVec 5} (e : execLaunch p a b s = .next v) : v.Sound l := by
  unfold execLaunch at e
  grind [State.trapMe_sound, → seqInstr_sound, State.seqLoad_sound, State.cfgError_sound, State.pend_sound]

/-! ### Waits (R269) -/

theorem State.sleepMe_sound (h : s.Sound l) (i : Instr) (sp : Space) (addr : DWord) : (s.sleepMe i sp addr).Sound l := h

theorem waitAddrInstr_sound (h : s.Sound l) {i : Instr} {p : BitVec 2} {n : Nat} {a b : BitVec 5} {g c : BitVec 2}
    (e : waitAddrInstr i p n a b g c s = .next v) : v.Sound l := by
  unfold waitAddrInstr at e
  grind [State.trapMe_sound, State.illegal_sound, → seqInstr_sound, State.killCutOff_sound, State.seqLoad_sound, State.nextMe_sound,
    State.sleepMe_sound]

theorem execAmoPerform_sound (h : s.Sound l) {t : Fin 192} (e : execAmoPerform t s = .next v) : v.Sound l := by
  have h1 : ({ s with cur := t } : State).Sound l := h
  unfold execAmoPerform at e
  dsimp only at e
  split at e
  · exact Host.Outcome.next.inj e ▸ h
  split at e
  · exact Host.Outcome.next.inj e ▸ h
  · refine stepped_sound (fun u hu => ?_) e
    split at hu
    · exact atomicInstr_sound h1 hu
    · exact atomicInstr_sound h1 hu
    · exact atomicInstr_sound h1 hu
    · exact atomicInstr_sound h1 hu
    · exact Host.Outcome.next.inj hu ▸ h

theorem State.rereadWait_sound (h : s.Sound l) {t : Fin 192} {x : Stall} (e : s.rereadWait t x = .next v) : v.Sound l := by
  have h1 : ({ s with cur := t } : State).Sound l := h
  refine stepped_sound (fun u hu => ?_) e
  split at hu
  · exact waitAddrInstr_sound h1 hu
  · exact waitAddrInstr_sound h1 hu
  · exact Host.Outcome.next.inj hu ▸ h

theorem execWaitAddrWake_sound (h : s.Sound l) {t : Fin 192} (e : execWaitAddrWake t s = .next v) : v.Sound l := by
  unfold execWaitAddrWake at e
  grind [→ State.rereadWait_sound]

theorem execWaitAddrPoll_sound (h : s.Sound l) {t : Fin 192} (e : execWaitAddrPoll t s = .next v) : v.Sound l := by
  unfold execWaitAddrPoll at e
  grind [→ State.rereadWait_sound]

/-! ### Stalls that end (R249) -/

theorem State.goOn_sound (h : s.Sound l) (i : Instr) (m : Nat) (bytes : List Byte) : (s.goOn i m bytes).Sound l := by
  unfold State.goOn
  grind [State.queueJob_sound, State.pend_sound]

theorem execStallRelease_sound (h : s.Sound l) {t : Fin 192} (e : execStallRelease t s = .next v) : v.Sound l := by
  have h1 : ({ s with cur := t } : State).Sound l := h
  unfold execStallRelease at e
  dsimp only at e
  split at e
  · exact Host.Outcome.next.inj e ▸ h
  · exact stepped_sound (fun u hu => Host.Outcome.next.inj hu ▸ State.goOn_sound h1 ..) e
  split at e
  · exact Host.Outcome.next.inj e ▸ h
  · refine stepped_sound (fun u hu => ?_) e
    split at hu
    · exact execCfgLoad_sound h1 hu
    · exact execCfgWait_sound h1 hu
    · exact execCfgExit_sound h1 hu
    · exact execCfgPick_sound h1 hu
    · exact execCfgDrain_sound h1 hu
    · exact execTokPut_sound h1 hu
    · exact execRndEnd_sound h1 hu
    · exact execRndGraph_sound h1 hu
    · exact engInstr_sound h1 hu
    · exact engInstr_sound h1 hu
    · exact engInstr_sound h1 hu
    · exact engInstr_sound h1 hu
    · exact execLaunch_sound h1 hu
    · exact storeInstr_sound h1 hu
    · exact execStOrdered_sound h1 hu
    · exact atomicInstr_sound h1 hu
    · exact atomicInstr_sound h1 hu
    · exact atomicInstr_sound h1 hu
    · exact atomicInstr_sound h1 hu
    · exact Host.Outcome.next.inj hu ▸ h

/-! ### Routines of the firmware (R391) -/

theorem State.killMine_sound (h : s.Sound l) (status : Nat) (flags : Byte) : (s.killMine status flags).Sound l := by
  unfold State.killMine
  grind [State.kill_sound]

theorem State.emulateLoad_sound (h : s.Sound l) (sp : Space) (addr : DWord) (n : Nat) : (s.emulateLoad sp addr n).2.Sound l := by
  induction n generalizing s addr with
  | zero => exact h
  | succ n ih =>
    rw [State.emulateLoad]
    grind [State.seqReadBytes_sound]

theorem State.holdStore_sound (h : s.Sound l) (addr : DWord) (n : Nat) : (s.holdStore addr n).Sound l := by
  unfold State.holdStore
  grind [State.holdWrite_sound]

theorem State.emulateStore_sound (h : s.Sound l) (sp : Space) (addr : DWord) (val a4 : Nat) : (s.emulateStore sp addr val a4).2.Sound l := by
  fun_induction s.emulateStore sp addr val a4 <;> grind [State.seqWriteBytes_sound, State.Sound.update]

theorem State.reportByte_sound (h : s.Sound l) (code : Nat) (tval : DWord) : (s.reportByte code tval).Sound l := h

theorem State.routineMisaligned_sound (h : s.Sound l) : (s.routineMisaligned).Sound l := by
  unfold State.routineMisaligned
  grind [State.killMine_sound, State.emulateLoad_sound, State.modMe_sound, State.reportByte_sound, State.holdStore_sound, State.emulateStore_sound]

theorem State.routinePage_sound (h : s.Sound l) : (s.routinePage).Sound l := by
  unfold State.routinePage
  grind [State.killMine_sound, State.modMe_sound, State.pageFault_sound]

theorem State.routineBreak_sound (h : s.Sound l) : (s.routineBreak).Sound l := by
  unfold State.routineBreak
  grind [State.killMine_sound, State.modMe_sound, State.requestFreeze_sound]

theorem State.routineTrap_sound (h : s.Sound l) : (s.routineTrap).Sound l := by
  unfold State.routineTrap
  grind [State.killMine_sound, State.modMe_sound]

theorem State.routineAbort_sound (h : s.Sound l) : (s.routineAbort).Sound l := by
  unfold State.routineAbort
  grind [State.killMine_sound, State.modMe_sound]

theorem State.routine_sound (h : s.Sound l) (code : Nat) : (s.routine code).Sound l := by
  unfold State.routine
  grind [State.killMine_sound, State.modMe_sound, State.routineMisaligned_sound, State.routinePage_sound, State.routineBreak_sound,
    State.routineTrap_sound, State.routineAbort_sound]

theorem State.enterHeld_sound (h : s.Sound l) {t : Fin 192} (e : s.enterHeld t = some v) : v.Sound l := by
  unfold State.enterHeld at e
  grind [State.modSeq_sound, State.trapAt_sound]

theorem execAsyncTrap_sound (h : s.Sound l) {t : Fin 192} (e : execAsyncTrap t s = .next v) : v.Sound l := by
  unfold execAsyncTrap at e
  grind [→ State.enterHeld_sound, State.Sound.update, sound_getD]

theorem execWatchdog_sound (h : s.Sound l) {t : Fin 192} (e : execWatchdog t s = .next v) : v.Sound l := by
  unfold execWatchdog at e
  grind [State.trapAt_sound]

theorem execSupervisorWatchdog_sound (h : s.Sound l) {t : Fin 192} (e : execSupervisorWatchdog t s = .next v) : v.Sound l := by
  unfold execSupervisorWatchdog at e
  grind [State.killMine_sound, State.Sound.update]

theorem execForcedBlockBoundary_sound (h : s.Sound l) {t : Fin 192} (e : execForcedBlockBoundary t s = .next v) : v.Sound l := by
  unfold execForcedBlockBoundary at e
  grind [State.modSeq_sound]

/-! ### Every instruction -/

theorem exec_sound (h : s.Sound l) {i : Instr} (e : exec i s = .next v) : v.Sound l := by
  cases i with
  | add | sub | mul | mulh | div | rem | min | max | adds | subs | and | or | xor | andn | shl | shr | clz | ctz | popc | pget | sel | addi | andi
    | ori | xori | shrai | lui | lpc => exact regInstr_sound h e
  | cmpEq | cmpNe | cmpLt | cmpGe | pand | por | pxor | pandn | cmpiEq | cmpiLt | cmpiLtu => exact predInstr_sound h e
  | beq | bne | blt | bge | bp | bnp | j => exact branchInstr_sound h e
  | ld => exact loadInstr_sound h e
  | st => exact storeInstr_sound h e
  | amoAdd | amoSwap | amoCas | evAdd => exact atomicInstr_sound h e
  | engCopy | engDcmp | engVdec | engXfm => exact engInstr_sound h e
  | waitAddr | waitAddrN64 => exact waitAddrInstr_sound h e
  | almAdd | almSub | almAnd | almOr | almXor | almShl | almShr | almMin | almMax | almMul | almAddi | almLi | almLih | almMov | almSltu | almSlt
    | almSeq | almCsel | almPopc | almFfs => exact almWrite_sound h e
  | almBz | almBnz | almJmp | almLoopN | almEndl | almWrp => exact almInstr_sound h e
  | almRdq | almRdh | almRdfree | almRdquota | almRdecl | almRdflt | almRdp | almRdinv | almRdrun => exact viewInstr_sound h e
  | pset => exact execPset_sound h e
  | shli => exact execShli_sound h e
  | shrli => exact execShrli_sound h e
  | call => exact execCall_sound h e
  | callr => exact execCallr_sound h e
  | ldOrdered => exact execLdOrdered_sound h e
  | stOrdered => exact execStOrdered_sound h e
  | fence => exact execFence_sound h e
  | cfgLoad => exact execCfgLoad_sound h e
  | cfgPart => exact execCfgPart_sound h e
  | cfgArm => exact execCfgArm_sound h e
  | cfgFire => exact execCfgFire_sound h e
  | cfgWait => exact execCfgWait_sound h e
  | cfgExit => exact execCfgExit_sound h e
  | cfgPick => exact execCfgPick_sound h e
  | cfgDrain => exact execCfgDrain_sound h e
  | cfgSwap => exact execCfgSwap_sound h e
  | tokPut => exact execTokPut_sound h e
  | rndEnd => exact execRndEnd_sound h e
  | rndGraph => exact execRndGraph_sound h e
  | rndRedo => exact execRndRedo_sound h e
  | launch => exact execLaunch_sound h e
  | trap => exact execTrap_sound h e
  | brk => exact execBrk_sound h e
  | eret => exact execEret_sound h e
  | ifence => exact execIfence_sound h e
  | mfsy => exact execMfsy_sound h e
  | mtsy => exact execMtsy_sound h e
  | almEnd => exact execAlmEnd_sound h e
  | uMxa => exact execUMxa_sound h e
  | uMxd => exact execUMxd_sound h e
  | uSource => exact execUSource_sound h e
  | regionAdvance => exact execRegionAdvance_sound h e
  | contextSwitch => exact execContextSwitch_sound h e
  | roundCommit => exact execRoundCommit_sound h e
  | roundOverflow => exact execRoundOverflow_sound h e
  | withheldStoreRelease => exact execWithheldStoreRelease_sound h e
  | amoPerform => exact execAmoPerform_sound h e
  | stallRelease => exact execStallRelease_sound h e
  | waitAddrWake => exact execWaitAddrWake_sound h e
  | waitAddrPoll => exact execWaitAddrPoll_sound h e
  | fabricLoadEnd => exact execFabricLoadEnd_sound h e
  | quiescenceTrip => exact execQuiescenceTrip_sound h e
  | freeze => exact execFreeze_sound h e
  | contextScan => exact execContextScan_sound h e
  | tokenReinjection => exact execTokenReinjection_sound h e
  | pageFaultLimit => exact execPageFaultLimit_sound h e
  | retranslationReply => exact execRetranslationReply_sound h e
  | placementEpoch => exact execPlacementEpoch_sound h e
  | pageMove => exact execPageMove_sound h e
  | qtailWrite => exact execQtailWrite_sound h e
  | qheadWrite => exact execQheadWrite_sound h e
  | qstaleClear => exact execQstaleClear_sound h e
  | queueEnable => exact execQueueEnable_sound h e
  | headEligible => exact execHeadEligible_sound h e
  | headReread => exact execHeadReread_sound h e
  | almanacInvocation => exact execAlmanacInvocation_sound h e
  | quantumExpiry => exact execQuantumExpiry_sound h e
  | deadlineTrigger => exact execDeadlineTrigger_sound h e
  | invocationOverrun => exact execInvocationOverrun_sound h e
  | almanacSwap => exact execAlmanacSwap_sound h e
  | asyncTrap => exact execAsyncTrap_sound h e
  | watchdog => exact execWatchdog_sound h e
  | supervisorWatchdog => exact execSupervisorWatchdog_sound h e
  | forcedBlockBoundary => exact execForcedBlockBoundary_sound h e
  | shootTranslation => exact execShootTranslation_sound h e
  | shootFetch => exact execShootFetch_sound h e
  | shootBoth => exact execShootBoth_sound h e
  | shootdownComplete => exact execShootdownComplete_sound h e
  | frresolve => exact execFrresolve_sound h e
  | ringHeadWrite => exact execRingHeadWrite_sound h e
  | ringEnable => exact execRingEnable_sound h e
  | ringRecordRelease => exact execRingRecordRelease_sound h e
  | msixTimer => exact execMsixTimer_sound h e
  | pstatusRead => exact execPstatusRead_sound h e
  | pqerrClear => exact execPqerrClear_sound h e
  | registerWrite => exact execRegisterWrite_sound h e
  | hostMemoryWrite => exact execHostMemoryWrite_sound h e
  | hostMemoryRead => exact execHostMemoryRead_sound h e
  | cxlMemAccess => exact execCxlMemAccess_sound h e
  | engineJobStart => exact execEngineJobStart_sound h e
  | engineJobComplete => exact execEngineJobComplete_sound h e
  | eclclr => exact execEclclr_sound h e
  | almstage => exact execAlmstage_sound h e
  | almswap => exact execAlmswap_sound h e
  | prelease => exact execPrelease_sound h e
  | gkill => exact execGkill_sound h e
  | emask => exact execEmask_sound h e
  | partset => exact execPartset_sound h e
  | savearea => exact execSavearea_sound h e
  | strpair => exact execStrpair_sound h e
  | capset => exact execCapset_sound h e
  | lcstep => exact execLcstep_sound h e
  | dbgaccRead => exact execDbgaccRead_sound h e
  | dbgaccWrite => exact execDbgaccWrite_sound h e
  | dbgaccRelease => exact execDbgaccRelease_sound h e
  | getVersion => exact execGetVersion_sound h e
  | getCapabilities => exact execGetCapabilities_sound h e
  | negotiateAlgorithms => exact execNegotiateAlgorithms_sound h e
  | getDigests => exact execGetDigests_sound h e
  | getCertificate => exact execGetCertificate_sound h e
  | challenge => exact execChallenge_sound h e
  | getMeasurements => exact execGetMeasurements_sound h e
  | reset => exact execReset_sound h e
  | tileJoin => exact execTileJoin_sound h e
  | powerWindow => exact execPowerWindow_sound h e
  | linkCrcReplay => exact execLinkCrcReplay_sound h e
  | linkRetrain => exact execLinkRetrain_sound h e
  | linkDown => exact execLinkDown_sound h e
  | flitUndelivered => exact execFlitUndelivered_sound h e
  | fifoModeLoad => exact execFifoModeLoad_sound h e
  | memoryReply => exact execMemoryReply_sound h e
  | debugPortRegisterAccess => exact execDebugPortRegisterAccess_sound h e
  | tablePoisonClear => exact execTablePoisonClear_sound h e
  | observedLineWrite => exact execObservedLineWrite_sound h e

/-! ### Turns of sequencers and almanacs (log entry 1) -/

theorem emulation_sound {i : Instr} {o : Host.Outcome State Fault Refusal} (ho : ∀ u, o = .next u → u.Sound l)
    (e : emulation s i o = .next v) : v.Sound l := by
  unfold emulation at e
  grind (splits := 20) [State.modMe_sound, → execShli_sound, → execShrli_sound]

theorem runWord_sound (h : s.Sound l) {t : Fin 192} {w : Word} (e : runWord t w s = .next v) : v.Sound l := by
  have h1 : (s.modMe (fun q => { q with noBrk := false, word := some w })).Sound l := State.modMe_sound h _
  unfold runWord at e
  dsimp only at e
  split at e
  · exact stepped_sound (fun _ hu => emulation_sound (fun _ hz => exec_sound h1 hz) hu) e
  · exact Host.Outcome.next.inj e ▸ State.guarded_sound h1 _ _ _ (fun _ _ hz => State.trapMe_sound hz ..)

theorem fetchAndRun_sound (h : s.Sound l) {t : Fin 192} (e : fetchAndRun t s = .next v) : v.Sound l := by
  have hf := State.fetch_sound h
  unfold fetchAndRun at e
  grind [State.trapMe_sound, State.modMe_sound, → runWord_sound]

theorem seqTurn_sound (h : s.Sound l) {t : Fin 192} (e : seqTurn t s = .next v) : v.Sound l := by
  have h1 : ({ s with cur := t } : State).Sound l := h
  unfold seqTurn at e
  dsimp only at e
  grind [→ State.enterHeld_sound, State.routine_sound, → fetchAndRun_sound]

theorem almTurn_sound (h : s.Sound l) {p : Fin 16} (e : almTurn p s = .next v) : v.Sound l := by
  have h1 : ({ s with curPart := p } : State).Sound l := h
  unfold almTurn at e
  dsimp only at e
  grind [State.overrun_sound, → exec_sound]

theorem actTurn_sound (h : s.Sound l) {i : Instr} (e : actTurn i s = .next v) : v.Sound l := by
  unfold actTurn at e
  grind [→ exec_sound]

/-! ### The step -/

theorem step_sound (h : s.Sound l) (e : step s = .next v) : v.Sound l := by
  unfold step at e
  split at e
  · exact Host.Outcome.next.inj e ▸ h
  next t rest _ => exact seqTurn_sound (s := { s with agenda := rest }) h e
  next p rest _ => exact almTurn_sound (s := { s with agenda := rest }) h e
  next i rest _ => exact actTurn_sound (s := { s with agenda := rest }) h e
  · exact Host.Outcome.next.inj e ▸ h
  next w rest _ => exact Host.Outcome.next.inj e ▸ State.world_sound (s := { s with agenda := rest }) h w
  next o n rest _ => exact Host.Outcome.next.inj e ▸ State.readWindow_sound (s := { s with agenda := rest }) h o n
  next rest _ => exact State.finishCommand_sound (s := { s with agenda := rest }) h e

end Soundness

/-- Settles O5: each function that makes a state from a state keeps it sound, by its lemma above, and so does the step. -/
theorem stepKeepsMemoryAndLifeCycleSound : Obligations.StepKeepsMemoryAndLifeCycleSound :=
  fun _ _ _ h e => step_sound h e

/-- Settles O6: after reset no byte is listed and the life cycle is 0. -/
theorem resetIsSound : Obligations.ResetIsSound :=
  ⟨⟨Memory.wf_nil, Nat.le_refl _⟩, rfl⟩

end Sys2Proof.Machine
end

section
/-! PROOF. The platform: what the SPDM responder answers, what a reset leaves, how the tile islands join and take their frequency. -/

namespace Sys2Proof.Machine

/-! ### The SPDM responder (R472) -/

section
variable {s : State} {i : Instr} {f : State → State} {request : Nat} {operands : List Nat} {version algs : Bool}

theorem State.spdmRequest_of_enumerated (h : s.enumerated = true) : s.spdmRequest f = .next (f s) := by
  rw [State.spdmRequest, if_pos h]

theorem State.spdmRequest_of_not_enumerated (h : s.enumerated = false) : s.spdmRequest f = .next s := by
  rw [State.spdmRequest, if_neg (Bool.not_eq_true _ ▸ h)]

theorem exec_of_request {u : State} (h : s.enumerated = true) (hexec : exec i s = s.spdmRequest f) (hf : f s = u) : exec i s = .next u := by
  rw [hexec, State.spdmRequest_of_enumerated h, hf]

theorem exec_of_request_not_enumerated (h : s.enumerated = false) (hexec : exec i s = s.spdmRequest f) : exec i s = .next s :=
  hexec.trans (State.spdmRequest_of_not_enumerated h)

/-- An answer changes the connection's transcript only. -/
theorem State.spdmAnswer_eq (hv : s.spdmVersion = version) (ha : s.spdmAlgs = algs) : s.spdmAnswer request operands =
    { s with spdm := s.spdm ++ [Config.spdmBody request operands], spdmVersion := version, spdmAlgs := algs } := by
  subst hv ha
  rfl

theorem State.spdmAgreed_of_agreed (hv : s.spdmVersion = true) (ha : s.spdmAlgs = true) :
    s.spdmAgreed request operands = s.spdmAnswer request operands := by
  rw [State.spdmAgreed, if_pos (by rw [hv, ha]; rfl)]

theorem State.spdmAgreed_of_not_agreed (h : s.spdmVersion = false ∨ s.spdmAlgs = false) :
    s.spdmAgreed request operands = s.spdmAnswer 0x7F [request] := by
  rw [State.spdmAgreed, if_neg (by simpa [Decidable.imp_iff_not_or] using h)]

theorem exec_getVersion : exec .getVersion s = execGetVersion s := rfl

theorem exec_getCapabilities : exec .getCapabilities s = execGetCapabilities s := rfl

theorem exec_negotiateAlgorithms {h a : BitVec 32} : exec (.negotiateAlgorithms h a) s = execNegotiateAlgorithms h a s := rfl

theorem exec_getDigests : exec .getDigests s = execGetDigests s := rfl

theorem exec_getCertificate {slot : BitVec 4} {o n : BitVec 16} : exec (.getCertificate slot o n) s = execGetCertificate slot o n s := rfl

theorem exec_challenge {slot : BitVec 4} {nonce : BitVec 256} : exec (.challenge slot nonce) s = execChallenge slot nonce s := rfl

theorem exec_getMeasurements {op : BitVec 8} {nonce : BitVec 256} : exec (.getMeasurements op nonce) s = execGetMeasurements op nonce s := rfl

end

/-! ### The measurements (R472) -/

section
variable {s : State} {op : BitVec 8} {nonce : BitVec 256} {values : List Nat}

theorem vector4_toList {α : Type} (v : Vector α 4) : v.toList = [v[0], v[1], v[2], v[3]] :=
  List.ext_getElem (by simp) (fun k hk _ => by
    rw [Vector.length_toList] at hk
    interval_cases k <;> rfl)

theorem State.measuredAt_firmware : s.measuredAt 2 = [2, 4, Config.firmwareDigest (s.firmware[0]).version,
    Config.firmwareDigest (s.firmware[1]).version, Config.firmwareDigest (s.firmware[2]).version,
    Config.firmwareDigest (s.firmware[3]).version] := by
  simp only [State.measuredAt, State.measurement, vector4_toList]
  rfl

theorem State.measuredAt_eclipse : s.measuredAt 5 = [5, s.eclipse.length] ++ s.eclipse.map (fun u => u.toNat) := by
  simp [State.measuredAt, State.measurement]

theorem State.measured_eq : s.measured = [1, 1, Config.romDigest] ++ s.measuredAt 2 ++ [3, 1, Config.translatorDigest]
    ++ [4, 2, s.lifecycle.toNat, s.rollback.toNat] ++ s.measuredAt 5 := by
  simp [State.measured, List.flatMap, State.measuredAt, State.measurement]

theorem State.measuredBy_index {k : Nat} (h1 : 1 ≤ k) (h5 : k ≤ 5) : s.measuredBy k = some (s.measuredAt k) := by
  rw [State.measuredBy, if_neg (by omega), if_neg (by omega), if_pos h5]

theorem State.measuredBy_none {k : Nat} (h5 : 5 < k) (hall : k ≠ 0xFF) : s.measuredBy k = none := by
  rw [State.measuredBy, if_neg (by omega), if_neg hall, if_neg (by omega)]

theorem exec_getMeasurements_some (he : s.enumerated = true) (h : s.measuredBy op.toNat = some values) :
    exec (.getMeasurements op nonce) s = .next (s.spdmAgreed 0xE0 ([op.toNat, nonce.toNat] ++ values)) := by
  refine exec_of_request he exec_getMeasurements ?_
  rw [h]

theorem exec_getMeasurements_none (he : s.enumerated = true) (h : s.measuredBy op.toNat = none) :
    exec (.getMeasurements op nonce) s = .next (s.spdmAnswer 0x7F [0xE0]) := by
  refine exec_of_request he exec_getMeasurements ?_
  rw [h]

theorem exec_getMeasurements_agreed (he : s.enumerated = true) (hv : s.spdmVersion = true) (ha : s.spdmAlgs = true)
    (h : s.measuredBy op.toNat = some values) : exec (.getMeasurements op nonce) s = .next { s with
      spdm := s.spdm ++ [Config.spdmBody 0xE0 ([op.toNat, nonce.toNat] ++ values)], spdmVersion := true, spdmAlgs := true } := by
  rw [exec_getMeasurements_some he h, State.spdmAgreed_of_agreed hv ha, State.spdmAnswer_eq hv ha]

/-- Before versions and algorithms are agreed a measurement request meets the error response, whatever it asks for. -/
theorem exec_getMeasurements_refused (he : s.enumerated = true) (h : s.spdmVersion = false ∨ s.spdmAlgs = false) :
    exec (.getMeasurements op nonce) s = .next (s.spdmAnswer 0x7F [0xE0]) := by
  cases hm : s.measuredBy op.toNat with
  | none => exact exec_getMeasurements_none he hm
  | some values => rw [exec_getMeasurements_some he hm, State.spdmAgreed_of_not_agreed h]

end

/-- Settles O60: each request is its answer on an enumerated device, and an answer changes the connection only. -/
theorem theResponderAnswersEachRequest : Obligations.TheResponderAnswersEachRequest := by
  intro s h a slot o n op nonce answers refuses digest m1 m2 m3 m4 m5 measured offered signed measures
  have hall : s.measured = measured := by
    rw [State.measured_eq, State.measuredAt_firmware, State.measuredAt_eclipse]
    rfl
  refine ⟨fun he => ⟨?_, fun hv => ⟨?_, ?_⟩, fun hv => ⟨?_, ?_⟩, fun hv ha => ?_, fun hgt hne => ?_, fun hno => ?_⟩,
    fun he i hi => ?_⟩
  · exact exec_of_request he exec_getVersion rfl
  · refine exec_of_request he exec_getCapabilities ?_
    exact (if_pos hv).trans (State.spdmAnswer_eq hv rfl)
  · refine exec_of_request he exec_negotiateAlgorithms ?_
    refine (if_pos hv).trans ?_
    rw [State.spdmAnswer_eq hv rfl]
    rfl
  · refine exec_of_request he exec_getCapabilities ?_
    exact (if_neg (by simp [hv])).trans (State.spdmAnswer_eq rfl rfl)
  · refine exec_of_request he exec_negotiateAlgorithms ?_
    exact (if_neg (by simp [hv])).trans (State.spdmAnswer_eq rfl rfl)
  · have hagreed : ∀ request operands, s.spdmAgreed request operands = { s with
        spdm := s.spdm ++ [Config.spdmBody request operands], spdmVersion := true, spdmAlgs := true } := fun _ _ =>
      (State.spdmAgreed_of_agreed hv ha).trans (State.spdmAnswer_eq hv ha)
    have hmeasures : ∀ values, s.measuredBy op.toNat = some values → measures values := fun _ =>
      exec_getMeasurements_agreed he hv ha
    have hindex : ∀ k, op.toNat = k → 1 ≤ k → k ≤ 5 → measures (s.measuredAt k) := fun k hop h1 h5 =>
      hmeasures _ (by rw [hop, State.measuredBy_index h1 h5])
    refine ⟨?_, ?_, ?_, fun hop => hmeasures _ (by rw [hop]; rfl), fun hop => hmeasures _ (by rw [hop, ← hall]; rfl),
      fun hop => hindex 1 hop (by decide) (by decide), fun hop => ?_, fun hop => hindex 3 hop (by decide) (by decide),
      fun hop => hindex 4 hop (by decide) (by decide), fun hop => ?_⟩
    · exact exec_of_request he exec_getDigests (hagreed _ _)
    · exact exec_of_request he exec_getCertificate (hagreed _ _)
    · exact exec_of_request he exec_challenge (by rw [hall]; exact hagreed _ _)
    · have hm2 : s.measuredAt 2 = m2 := State.measuredAt_firmware
      exact hm2 ▸ hindex 2 hop (by decide) (by decide)
    · have hm5 : s.measuredAt 5 = m5 := State.measuredAt_eclipse
      exact hm5 ▸ hindex 5 hop (by decide) (by decide)
  · exact (exec_getMeasurements_none he (State.measuredBy_none hgt hne)).trans (congrArg _ (State.spdmAnswer_eq rfl rfl))
  · have hrefused : ∀ request operands, s.spdmAgreed request operands = { s with
        spdm := s.spdm ++ [Config.spdmBody 0x7F [request]], spdmVersion := s.spdmVersion, spdmAlgs := s.spdmAlgs } := fun _ _ =>
      (State.spdmAgreed_of_not_agreed hno).trans (State.spdmAnswer_eq rfl rfl)
    refine ⟨?_, ?_, ?_, (exec_getMeasurements_refused he hno).trans (congrArg _ (State.spdmAnswer_eq rfl rfl))⟩
    · exact exec_of_request he exec_getDigests (hrefused _ _)
    · exact exec_of_request he exec_getCertificate (hrefused _ _)
    · exact exec_of_request he exec_challenge (hrefused _ _)
  · simp only [List.mem_cons, List.not_mem_nil, or_false] at hi
    rcases hi with rfl | rfl | rfl | rfl | rfl | rfl | rfl
    · exact exec_of_request_not_enumerated he exec_getVersion
    · exact exec_of_request_not_enumerated he exec_getCapabilities
    · exact exec_of_request_not_enumerated he exec_negotiateAlgorithms
    · exact exec_of_request_not_enumerated he exec_getDigests
    · exact exec_of_request_not_enumerated he exec_getCertificate
    · exact exec_of_request_not_enumerated he exec_challenge
    · exact exec_of_request_not_enumerated he exec_getMeasurements

/-! ### Wiped memory -/

theorem Memory.read_filter_of_dropped {p : Host.Cell → Bool} {a : Nat} (h : ∀ b, p (a, b) = false) (m : Memory) :
    Memory.read (m.filter p) a = unlisted := by
  induction m with
  | nil => rfl
  | cons c rest ih =>
    obtain ⟨j, b⟩ := c
    rw [List.filter_cons]
    split
    · next hkept =>
      have hne : j ≠ a := fun he => by rw [he, h b] at hkept; contradiction
      rw [Memory.read, if_neg hne]
      split
      · rfl
      · exact ih
    · exact ih

section
variable {s : State} {m : Memory} {a : Nat}

theorem State.physByte_of_no_tags (htags : s.tags = []) : s.physByte a = s.mem.read a := by
  have htag : s.tag (a / 256) = 0x8#4 := by
    rw [State.tag, htags]
    rfl
  rw [State.physByte, if_neg (by simp [htag])]

/-- R467, R468: a memory whose HBM cells are all dropped reads 0 there, and no block of it is coded. -/
theorem State.wiped_reads_zero (hmem : s.mem = m.filter (fun c => !inHbm c.1)) (htags : s.tags = []) (ha : a < 2 ^ 39) :
    s.physByte a = 0#8 ∧ s.tag (a / 256) = 0x8#4 := by
  constructor
  · rw [State.physByte_of_no_tags htags, hmem]
    exact Memory.read_filter_of_dropped (fun _ => congrArg Bool.not (decide_eq_true ha)) m
  · rw [State.tag, htags]
    rfl

end

/-! ### The firmware of the dies (R469) -/

section
variable {f : FirmwareImage} {fs : List FirmwareImage} {rollback : Half}

theorem FirmwareImage.le_version_of_loads (h : f.code rollback = 0#4) : rollback.toNat ≤ f.version.toNat := by
  by_contra hlt
  rw [FirmwareImage.code, if_pos (Nat.lt_of_not_le hlt)] at h
  split at h
  · contradiction
  · split at h
    · contradiction
    · split at h <;> contradiction

theorem FirmwareImage.code_of_good (hr : f.readable = true) (hw : f.wellFormed = true) (hv : f.verifies = true)
    (hle : rollback.toNat ≤ f.version.toNat) : f.code rollback = 0#4 := by
  simp [FirmwareImage.code, hr, hw, hv, hle]

theorem FirmwareImage.code_of_unverified (hr : f.readable = true) (hw : f.wellFormed = true) (hv : f.verifies = false) :
    f.code rollback = 1#4 := by
  simp [FirmwareImage.code, hr, hw, hv]

theorem loadFirmware_rollback_cons : (loadFirmware (f :: fs) rollback).2 =
    (loadFirmware fs (if f.code rollback = 0#4 then f.version else rollback)).2 := rfl

/-- The rollback counter only rises, image by image. -/
theorem le_loadFirmware_rollback (fs : List FirmwareImage) (rollback : Half) : rollback.toNat ≤ (loadFirmware fs rollback).2.toNat := by
  induction fs generalizing rollback with
  | nil => exact Nat.le_refl _
  | cons f fs ih =>
    rw [loadFirmware_rollback_cons]
    refine Nat.le_trans ?_ (ih _)
    split
    · next hloads => exact FirmwareImage.le_version_of_loads hloads
    · exact Nat.le_refl _

theorem version_le_loadFirmware_rollback (h : f.code rollback = 0#4) : f.version.toNat ≤ (loadFirmware (f :: fs) rollback).2.toNat := by
  rw [loadFirmware_rollback_cons, if_pos h]
  exact le_loadFirmware_rollback _ _

end

/-! ### The reset (R467, R468, R469) -/

/-- R467: the parts of a device after reset, with partition 0 formed when the firmware of die 0 loads. -/
theorem formed_after_reset (up : Bool) (p : Fin 16) :
    (((Vector.replicate 16 (Part.reset false)).set 0 (Part.reset up))[p]).formed = (up && decide (p = 0)) := by
  cases up <;> revert p <;> decide

section
variable (s : State)

/-- The state that a reset leaves. -/
def State.rebooted : State :=
  let r := loadFirmware s.firmware.toList s.rollback
  let up := decide (r.1.headD 0#4 = 0#4)
  { State.reset with
    agenda := s.agenda, free := s.free, mem := s.mem.filter (fun c => !inHbm c.1), ecc := s.ecc.filter (fun l => !inHbm (64 * l))
    parts := (Vector.replicate 16 (Part.reset false)).set 0 (Part.reset up), eclipse := s.eclipse, lifecycle := s.lifecycle
    rollback := r.2, firmware := s.firmware, fwfail := Vector.ofFn (fun d => r.1.getD d.val 0#4), harebell := up
    debuggers := s.debuggers }

theorem exec_reset : exec .reset s = .next s.rebooted := rfl

theorem State.rebooted_rollback : s.rebooted.rollback = (loadFirmware s.firmware.toList s.rollback).2 := rfl

theorem State.rebooted_fwfail_zero : s.rebooted.fwfail[0] = (s.firmware[0]).code s.rollback := by
  have hcodes : s.rebooted.fwfail[0] = (loadFirmware s.firmware.toList s.rollback).1.getD 0 0#4 := Vector.getElem_ofFn _
  rw [hcodes, vector4_toList]
  rfl

theorem State.rebooted_harebell : s.rebooted.harebell = decide ((s.firmware[0]).code s.rollback = 0#4) := by
  have hup : s.rebooted.harebell = decide ((loadFirmware s.firmware.toList s.rollback).1.headD 0#4 = 0#4) := rfl
  rw [hup, vector4_toList]
  rfl

theorem State.rebooted_formed (p : Fin 16) : (s.rebooted.part p).formed = (s.rebooted.harebell && decide (p = 0)) :=
  formed_after_reset _ _

theorem State.rebooted_tile (y : Fin 192) : s.rebooted.tile y = Tile.reset ∧ s.rebooted.mtile y.val = {} :=
  ⟨Vector.getElem_replicate _, Vector.getElem_replicate _⟩

end

/-! ### The state after reset -/

section
variable (t : Fin 192)

theorem State.reset_tile : State.reset.tile t = Tile.reset := Vector.getElem_replicate _

theorem State.reset_seq : State.reset.seq t = Seq.reset := congrArg Tile.seq (State.reset_tile t)

theorem Seq.reset_rd (n : BitVec 5) : Seq.reset.rd n = 0#64 := by
  revert n
  decide

theorem Seq.reset_pred {n : BitVec 3} (h : n ≠ 0#3) : Seq.reset.pred n = false := by
  revert n
  decide

theorem State.reset_strand (k : Fin 8) : State.reset.strand t k = {} := by
  rw [State.strand, State.reset_tile]
  exact Vector.getElem_replicate _

theorem State.reset_ctxs (c : Fin 16) : (State.reset.tile t).ctxs[c] = {} := by
  rw [State.reset_tile]
  exact Vector.getElem_replicate _

end

/-- Settles O56: the state that a reset leaves is written out, and the load of the firmware only raises the rollback counter. -/
theorem resetWipesAndKeepsWhatSurvives : Obligations.ResetWipesAndKeepsWhatSurvives := by
  refine ⟨fun s => ⟨s.rebooted, exec_reset s, fun a => State.wiped_reads_zero rfl rfl, s.rebooted_tile, rfl, rfl, rfl, rfl, rfl, rfl, rfl,
    le_loadFirmware_rollback _ _, fun hr hw hv hle => ?_, fun hr hw hv => ?_⟩, fun a => ?_, fun t => ?_, rfl, rfl, rfl, rfl, fun p => ?_⟩
  · have hcode : (s.firmware[0]).code s.rollback = 0#4 := FirmwareImage.code_of_good hr hw hv hle
    have hup : s.rebooted.harebell = true := by rw [State.rebooted_harebell, decide_eq_true hcode]
    refine ⟨s.rebooted_fwfail_zero.trans hcode, hup, ?_, fun p => ?_⟩
    · rw [State.rebooted_rollback, vector4_toList]
      exact version_le_loadFirmware_rollback hcode
    · rw [State.rebooted_formed, hup, Bool.true_and, decide_eq_true_eq]
  · exact s.rebooted_fwfail_zero.trans (FirmwareImage.code_of_unverified hr hw hv)
  · exact State.physByte_of_no_tags rfl
  · rw [State.reset_seq]
    refine ⟨Seq.reset_rd, fun n => Seq.reset_pred, rfl, fun k => ?_, fun c => ?_⟩
    · rw [State.reset_strand]
    · rw [State.reset_ctxs]
  · exact (formed_after_reset true p).trans (Bool.true_and _)

/-! ### Tile islands and their join (R467) -/

section
variable {s : State} {i : Fin 512}

/-- R467: an island may join: a tile island, in harebell mode, of a die with firmware, that has not joined. -/
def State.MayJoin (s : State) (i : Fin 512) : Prop :=
  i.val % 128 < 96 ∧ s.harebell = true ∧ s.fwfail[Fin.ofNat 4 (i.val / 128)] = 0#4 ∧ i.val ∉ s.joined

theorem State.mayJoin_iff : s.MayJoin i ↔ ¬ (96 ≤ i.val % 128 || !s.harebell || decide (s.fwfail[Fin.ofNat 4 (i.val / 128)] ≠ 0#4)
    || s.joined.contains i.val) = true := by
  simp only [State.MayJoin, Bool.or_eq_true, decide_eq_true_eq, Bool.not_eq_true', List.contains_iff_mem, not_or, Nat.not_le,
    Bool.not_eq_false, ne_eq, not_not, and_assoc]

theorem execTileJoin_of_mayJoin (h : s.MayJoin i) (pass : Bool) : execTileJoin i pass s =
    if pass then .next { s with joined := i.val :: s.joined }.endHarebell
    else .next (s.addEclipse (unitId (i.val / 128) (i.val % 128) (if isComputeIndex (i.val % 128) then 4 else 5) 0)).endHarebell :=
  if_neg (State.mayJoin_iff.mp h)

theorem execTileJoin_of_not_mayJoin (h : ¬ s.MayJoin i) (pass : Bool) : execTileJoin i pass s = .next s :=
  if_pos (not_not.mp (mt State.mayJoin_iff.mpr h))

/-- R467: every tile island of the dies with firmware has joined or eclipsed itself. -/
def State.AllIslandsDone (s : State) : Prop :=
  ∀ d : Fin 4, s.fwfail[d] ≠ 0#4 ∨ ∀ n, n < 96 → s.islandDone (d.val * 128 + n) = true

theorem State.allIslandsDone_iff : s.AllIslandsDone ↔ (List.finRange 4).all (fun d =>
    decide (s.fwfail[d] ≠ 0#4) || (List.range 96).all (fun i => s.islandDone (d.val * 128 + i))) = true := by
  simp [State.AllIslandsDone, List.all_eq_true]

theorem State.endHarebell_of_done (hmode : s.harebell = true) (hall : s.AllIslandsDone) :
    s.endHarebell = { s with harebell := false, ready := true } := by
  refine if_pos ?_
  rw [hmode, State.allIslandsDone_iff.mp hall]
  rfl

theorem State.endHarebell_of_not_done (h : s.harebell = false ∨ ¬ s.AllIslandsDone) : s.endHarebell = s := by
  refine if_neg fun hboth => ?_
  rw [Bool.and_eq_true] at hboth
  obtain ⟨hmode, hall⟩ := hboth
  rcases h with hoff | hnot
  · rw [hoff] at hmode
    contradiction
  · exact hnot (State.allIslandsDone_iff.mpr hall)

end

/-! ### The frequency of an island (R380, R470) -/

section
variable {s : State} {i : Fin 512} {k : BitVec 5}

/-- One step of a power window. -/
theorem exec_powerWindow_cons (xs : List (Fin 512 × BitVec 5)) : exec (.powerWindow ((i, k) :: xs)) s = exec (.powerWindow xs)
    (if k.toNat < 8 || 16 < k.toNat || s.harebell && i.val % 128 < 96 then s else s.setClock i.val k.toNat) := rfl

theorem exec_powerWindow_nil : exec (.powerWindow []) s = .next s := rfl

/-- R380: the frequency that the management cores may set an island to. -/
def State.MaySetClock (s : State) (i : Fin 512) (k : BitVec 5) : Prop :=
  8 ≤ k.toNat ∧ k.toNat ≤ 16 ∧ (s.harebell = false ∨ 96 ≤ i.val % 128)

theorem State.maySetClock_iff : s.MaySetClock i k ↔ ¬ (k.toNat < 8 || 16 < k.toNat || s.harebell && i.val % 128 < 96) = true := by
  simp only [State.MaySetClock, Bool.or_eq_true, Bool.and_eq_true, decide_eq_true_eq, not_or, not_and, Nat.not_lt, and_assoc]
  cases s.harebell <;> simp

theorem exec_powerWindow_one_set (h : s.MaySetClock i k) : exec (.powerWindow [(i, k)]) s = .next (s.setClock i.val k.toNat) := by
  rw [exec_powerWindow_cons, if_neg (State.maySetClock_iff.mp h), exec_powerWindow_nil]

theorem exec_powerWindow_one_refused (h : ¬ s.MaySetClock i k) : exec (.powerWindow [(i, k)]) s = .next s := by
  rw [exec_powerWindow_cons, if_pos (not_not.mp (mt State.maySetClock_iff.mpr h)), exec_powerWindow_nil]

theorem exec_powerWindow_append {x : Fin 512 × BitVec 5} {u : State} (xs : List (Fin 512 × BitVec 5))
    (h : exec (.powerWindow [x]) s = .next u) : exec (.powerWindow (x :: xs)) s = exec (.powerWindow xs) u := by
  obtain ⟨i, k⟩ := x
  rw [exec_powerWindow_cons, exec_powerWindow_nil, Host.Outcome.next.injEq] at h
  rw [exec_powerWindow_cons, h]

theorem State.clock_setClock (island n : Nat) : (s.setClock island n).clock island = ⟨n, s.ns,
    (s.clock island).basePhase + (s.ns - (s.clock island).baseNs) * 13 * (s.clock island).k,
    ((s.clock island).k, (s.clock island).baseNs, (s.clock island).basePhase) :: (s.clock island).past⟩ :=
  Sparse.get_set_self _ _ _ _

/-- R380: a change of frequency starts a new base at the phase reached. -/
theorem State.cycles_setClock (island n : Nat) : (s.setClock island n).cycles island = s.cycles island := by
  have hns : (s.setClock island n).ns - s.ns = 0 := Nat.sub_self s.ns
  rw [State.cycles, State.clock_setClock, hns, Nat.zero_mul, Nat.add_zero]
  rfl

end

/-- Settles O57: an island joins only where it may, and a power window is its steps one after another. -/
theorem tilesJoinAndIslandsTakeTheirFrequency : Obligations.TilesJoinAndIslandsTakeTheirFrequency := by
  intro s i k
  refine ⟨fun htile hmode hfw hnew => ?_, fun hbad pass => ?_, ?_, fun hlo hhi hfree => ⟨?_, fun _ _ => ⟨?_, ?_⟩⟩, fun hbad => ?_,
    exec_powerWindow_nil, fun x xs u => exec_powerWindow_append xs⟩
  · have hmay : s.MayJoin i := ⟨htile, hmode, hfw, hnew⟩
    exact ⟨execTileJoin_of_mayJoin hmay true, execTileJoin_of_mayJoin hmay false⟩
  · refine execTileJoin_of_not_mayJoin (fun ⟨htile, hmode, hfw, hnew⟩ => ?_) pass
    rcases hbad with hlink | hoff | hfail | hjoined
    · omega
    · rw [hoff] at hmode
      contradiction
    · exact hfail hfw
    · exact hnew hjoined
  · exact ⟨State.endHarebell_of_done, State.endHarebell_of_not_done⟩
  · exact exec_powerWindow_one_set ⟨hlo, hhi, hfree⟩
  · exact State.cycles_setClock _ _
  · rw [State.clock_setClock]
  · refine exec_powerWindow_one_refused fun ⟨hlo, hhi, hfree⟩ => ?_
    rcases hbad with hlow | hhigh | ⟨hmode, htile⟩
    · omega
    · omega
    · rcases hfree with hoff | hlink
      · rw [hoff] at hmode
        contradiction
      · omega

end Sys2Proof.Machine
end

section
/-! PROOF. How a command of R474 ends: on a device that takes commands, with the status and the state of its body; and the commands on a
partition, whose body runs on the formed partition that MARG0 names. -/

namespace Sys2Proof.Machine

/-! ### The end of a command (R473, R474) -/

/-- R468, R471, R473: a command reaches its body. -/
def State.TakesCommands (s : State) : Prop := s.enumerated = true ∧ s.busy = none ∧ s.lifecycle ≠ 3#2

section
variable {s u : State} {i : Instr} {tag : Half} {e : Ended} {body : State → Ended × State}

theorem State.command_eq_of_takes (h : s.TakesCommands) : s.command tag body = .next ((body s).2.completeCommand tag (body s).1) := by
  obtain ⟨he, hb, hl⟩ := h
  rw [State.command, if_neg (by simp [he, hb]), if_neg hl]

theorem ends_of_body (h : s.TakesCommands) (hexec : exec i s = s.command tag body) (hbody : body s = (e, u)) :
    Ends i s tag e.status e.detail e.data u := by
  rw [Ends, hexec, State.command_eq_of_takes h, hbody]
  rfl

theorem ends_of_refuse {n : Nat} (h : s.TakesCommands) (hexec : exec i s = s.command tag body) (hbody : body s = (refuse n, u)) :
    Ends i s tag n 0 0#64 u :=
  ends_of_body h hexec hbody

theorem ends_of_done (h : s.TakesCommands) (hexec : exec i s = s.command tag body) (hbody : body s = (cmdDone, u)) :
    Ends i s tag 0 0 0#64 u :=
  ends_of_body h hexec hbody

end

/-! ### The partition that MARG0 names -/

theorem partArg_eq_some {v : DWord} {p : Fin 16} (h : v.toNat = p.val) : partArg v = some p := by
  rw [partArg, dif_pos (h ▸ p.isLt)]
  exact congrArg some (Fin.ext h)

theorem partArg_eq_none {v : DWord} (h : 16 ≤ v.toNat) : partArg v = none := dif_neg (Nat.not_lt.mpr h)

section
variable {s u : State} {i : Instr} {tag : Half} {p : Fin 16} {n : Nat} {body : State → Fin 16 → Ended × State}

theorem State.onPart_of_formed {f : Fin 16 → Ended × State} (hp : (s.marg[0]).toNat = p.val) (hf : (s.part p).formed = true) :
    s.onPart f = f p := by
  rw [State.onPart, partArg_eq_some hp]
  exact if_pos hf

theorem State.onPart_of_unformed {f : Fin 16 → Ended × State} (hp : (s.marg[0]).toNat = p.val) (hf : (s.part p).formed = false) :
    s.onPart f = (refuse 1, s) := by
  rw [State.onPart, partArg_eq_some hp]
  exact if_neg (Bool.not_eq_true _ ▸ hf)

theorem ends_of_unformed (h : s.TakesCommands) (hp : (s.marg[0]).toNat = p.val) (hf : (s.part p).formed = false)
    (hexec : exec i s = s.command tag (fun s => s.onPart (body s))) : Ends i s tag 1 0 0#64 s :=
  ends_of_refuse h hexec (State.onPart_of_unformed hp hf)

theorem ends_onPart_of_body {e : Ended} (h : s.TakesCommands) (hp : (s.marg[0]).toNat = p.val) (hf : (s.part p).formed = true)
    (hexec : exec i s = s.command tag (fun s => s.onPart (body s))) (hbody : body s p = (e, u)) :
    Ends i s tag e.status e.detail e.data u :=
  ends_of_body h hexec ((State.onPart_of_formed hp hf).trans hbody)

theorem ends_onPart_of_refuse (h : s.TakesCommands) (hp : (s.marg[0]).toNat = p.val) (hf : (s.part p).formed = true)
    (hexec : exec i s = s.command tag (fun s => s.onPart (body s))) (hbody : body s p = (refuse n, u)) : Ends i s tag n 0 0#64 u :=
  ends_onPart_of_body h hp hf hexec hbody

theorem ends_onPart_of_done (h : s.TakesCommands) (hp : (s.marg[0]).toNat = p.val) (hf : (s.part p).formed = true)
    (hexec : exec i s = s.command tag (fun s => s.onPart (body s))) (hbody : body s p = (cmdDone, u)) : Ends i s tag 0 0 0#64 u :=
  ends_onPart_of_body h hp hf hexec hbody

end

/-! ### The commands on a partition (R474, R364, R359, R398, R447) -/

section
variable {s : State} {tag : Half} {p : Fin 16}

theorem exec_almstage : exec (.almstage tag) s = execAlmstage tag s := rfl

theorem exec_almswap : exec (.almswap tag) s = execAlmswap tag s := rfl

theorem exec_prelease : exec (.prelease tag) s = execPrelease tag s := rfl

theorem exec_emask : exec (.emask tag) s = execEmask tag s := rfl

theorem exec_savearea : exec (.savearea tag) s = execSavearea tag s := rfl

theorem ends_almstage (h : s.TakesCommands) (hp : (s.marg[0]).toNat = p.val) (hf : (s.part p).formed = true)
    (hfit : (s.marg[1]).toNat + min (s.marg[2]).toNat 2064 ≤ 2 ^ 51) :
    let img := s.physBytes (2 ^ 51 + (s.marg[1]).toNat) (min (s.marg[2]).toNat 2064)
    (verifyAlmanac img = 0 → Ends (.almstage tag) s tag 0 0 0#64 (s.modPart p (fun y => { y with shadow := some (almanacOf img) })))
    ∧ (verifyAlmanac img ≠ 0 → Ends (.almstage tag) s tag 5 (verifyAlmanac img) 0#64 (s.modPart p (fun y => { y with shadow := none }))) := by
  intro img
  have hroom : ¬ hostBase < (s.marg[1]).toNat + min (s.marg[2]).toNat 2064 := Nat.not_lt.mpr hfit
  constructor
  · intro hgood
    refine ends_onPart_of_done h hp hf exec_almstage ?_
    dsimp only
    rw [if_neg hroom, show verifyAlmanac (s.physBytes (hostBase + _) _) = 0 from hgood]
    rfl
  · intro hbad
    refine ends_onPart_of_body (e := ⟨5, verifyAlmanac img, 0#64⟩) h hp hf exec_almstage ?_
    dsimp only
    rw [if_neg hroom]
    split
    · contradiction
    · rfl

theorem saveArea_refused_iff {base n : Nat} : (base % 4096 ≠ 0 || hbmEnd < base + n) = true ↔ base % 4096 ≠ 0 ∨ 2 ^ 39 < base + n := by
  rw [Bool.or_eq_true, decide_eq_true_eq, decide_eq_true_eq]
  rfl

/-- R398: an emulation mask with its erratum switched on or off. -/
def emaskWith (on : Bool) (mask : List Half) : List Half :=
  let others := mask.filter (fun e => decide (e ≠ partErratum))
  if on then partErratum :: others else others

theorem mem_emaskWith {on : Bool} {mask : List Half} {e : Half} :
    e ∈ emaskWith on mask ↔ if e = partErratum then on = true else e ∈ mask := by
  cases on <;> by_cases he : e = partErratum <;> simp [emaskWith, he]

theorem ends_emask_done (h : s.TakesCommands) (hp : (s.marg[0]).toNat = p.val) (hf : (s.part p).formed = true)
    (he : (s.marg[1]).setWidth 16 = partErratum) :
    Ends (.emask tag) s tag 0 0 0#64 (s.modPart p (fun y => { y with emask := emaskWith ((s.marg[1]).getLsbD 16) y.emask })) := by
  refine ends_onPart_of_done h hp hf exec_emask ?_
  refine (if_neg (not_not.mpr he)).trans ?_
  simp only [he, bitOf_toNat]
  rfl

end

/-- Settles O52: each command ends with the status of its body on the partition that MARG0 names. -/
theorem partitionCommandsTakeEffectOrRefuse : Obligations.PartitionCommandsTakeEffectOrRefuse := by
  intro s tag p hen hbusy hlc hp x a1 a2
  have h : s.TakesCommands := ⟨hen, hbusy, hlc⟩
  refine ⟨fun hf => ?_, fun hf => ⟨ends_almstage h hp hf, fun hno => ?_, fun hsome => ?_, fun hfree => ?_, fun hheld => ?_, fun hne => ?_,
    fun he => ?_, fun hbad => ?_, fun halign hfit hsaving => ?_, fun halign hfit hsaving => ?_⟩⟩
  · exact ⟨ends_of_unformed h hp hf exec_almstage, ends_of_unformed h hp hf exec_almswap, ends_of_unformed h hp hf exec_prelease,
      ends_of_unformed h hp hf exec_emask, ends_of_unformed h hp hf exec_savearea⟩
  · refine ends_onPart_of_refuse h hp hf exec_almswap ?_
    exact if_pos (Option.isNone_iff_eq_none.mpr hno)
  · refine ends_onPart_of_done h hp hf exec_almswap ?_
    refine (if_neg (mt Option.isNone_iff_eq_none.mp hsome)).trans ?_
    rw [bitOf_toNat]
  · refine ends_onPart_of_refuse h hp hf exec_prelease ?_
    exact if_pos (congrArg Bool.not hfree)
  · refine ends_onPart_of_done h hp hf exec_prelease ?_
    exact if_neg (by simp [show (s.part p).held = true from hheld])
  · refine ends_onPart_of_refuse h hp hf exec_emask ?_
    exact if_pos hne
  · refine ⟨_, ends_emask_done h hp hf he, ?_, fun e => ?_⟩
    · rw [State.modPart_part_self]
      rfl
    · rw [State.modPart_part_self]
      exact mem_emaskWith
  · refine ends_onPart_of_refuse h hp hf exec_savearea ?_
    exact if_pos (saveArea_refused_iff.mpr hbad)
  · refine ends_onPart_of_refuse h hp hf exec_savearea ?_
    exact (if_neg (mt saveArea_refused_iff.mp (not_or.mpr ⟨not_not.mpr halign, Nat.not_lt.mpr hfit⟩))).trans (if_pos hsaving)
  · refine ends_onPart_of_done h hp hf exec_savearea ?_
    exact (if_neg (mt saveArea_refused_iff.mp (not_or.mpr ⟨not_not.mpr halign, Nat.not_lt.mpr hfit⟩))).trans (if_neg (by simp [hsaving]))

/-! ### A device that takes no command (R468, R471, R473) -/

section
variable {s : State} {i : Instr} {tag : Half} {body : State → Ended × State}

theorem State.command_of_decommissioned (he : s.enumerated = true) (hb : s.busy = none) (hl : s.lifecycle = 3#2) :
    s.command tag body = .next (s.completeCommand tag ⟨4, 0, 0#64⟩) := by
  rw [State.command, if_neg (by simp [he, hb]), if_pos hl]

theorem State.command_of_unreached (h : s.enumerated = false ∨ s.busy.isSome = true) : s.command tag body = .next s := by
  rw [State.command, if_pos (by simpa using h)]

theorem exec_eclclr : exec (.eclclr tag) s = execEclclr tag s := rfl

theorem exec_gkill : exec (.gkill tag) s = execGkill tag s := rfl

theorem exec_partset : exec (.partset tag) s = execPartset tag s := rfl

theorem exec_strpair : exec (.strpair tag) s = execStrpair tag s := rfl

theorem exec_capset : exec (.capset tag) s = execCapset tag s := rfl

theorem exec_lcstep : exec (.lcstep tag) s = execLcstep tag s := rfl

theorem exec_dbgaccRead : exec (.dbgaccRead tag) s = execDbgaccRead tag s := rfl

theorem exec_dbgaccWrite : exec (.dbgaccWrite tag) s = execDbgaccWrite tag s := rfl

theorem exec_dbgaccRelease : exec (.dbgaccRelease tag) s = execDbgaccRelease tag s := rfl

end

/-! ### The accesses of the debugger (R474, R395) -/

section
variable {s u : State} {tag : Half} {g : Agent}

theorem State.sharedAt_iff {va : Nat} : s.sharedAt g va = true ↔ ∃ l, s.walk g va = .leaf l ∧ s.sharedExec g l = true := by
  rw [State.sharedAt]
  split
  · next l hwalk => simp [hwalk]
  · next hnone =>
    simp only [Bool.false_eq_true, false_iff, not_exists, not_and]
    exact fun l hwalk => absurd hwalk (hnone l)

/-- The body of the write of the debugger, which is reached where the write is not withheld. -/
def State.debugWrite (s : State) : Ended × State :=
  match s.debugAgent with
  | none => (refuse 1, s)
  | some g =>
    let va := s.marg[1].toNat
    if 2 ^ 52 < va + 8 then (refuse 1, s)
    else
      if s.sharedAt g va || s.sharedAt g (va + 7) then (refuse 3, s)
      else
        match s.virtPut g noUnit va (leBytes 8 s.marg[2].toNat) with
        | (true, s1) => (cmdDone, s1)
        | (false, s1) => (refuse 1, s1)

theorem exec_dbgaccWrite_of_free
    (h : ¬ (s.enumerated && s.busy.isNone && s.lifecycle != 3#2 && s.debugHeldWrite) = true) :
    exec (.dbgaccWrite tag) s = s.command tag State.debugWrite :=
  exec_dbgaccWrite.trans (if_neg h)

theorem exec_dbgaccWrite_of_not_held (h : s.debugHeldWrite = false) : exec (.dbgaccWrite tag) s = s.command tag State.debugWrite :=
  exec_dbgaccWrite_of_free (by simp [h])

theorem exec_dbgaccWrite_of_held (h : s.TakesCommands) (hheld : s.debugHeldWrite = true) :
    exec (.dbgaccWrite tag) s = .next (s.holdDebugWrite.busyWith (BitVec.ofNat 64 (0x0C + 65536 * tag.toNat))) := by
  obtain ⟨he, hb, hl⟩ := h
  exact exec_dbgaccWrite.trans (if_pos (by simp [he, hb, hl, hheld]))

theorem State.debugHeldWrite_of_no_agent (hg : s.debugAgent = none) : s.debugHeldWrite = false := by
  rw [State.debugHeldWrite, hg]

theorem State.debugHeldWrite_of_some (hg : s.debugAgent = some g) : s.debugHeldWrite =
    ((s.marg[1]).toNat + 8 ≤ 2 ^ 52 && !s.sharedAt g (s.marg[1]).toNat && !s.sharedAt g ((s.marg[1]).toNat + 7)
      && (s.heldWrite g (s.marg[1]).toNat || s.heldWrite g ((s.marg[1]).toNat + 7))) := by
  rw [State.debugHeldWrite, hg]

/-- R474: without a context there is no access. -/
theorem ends_debug_no_agent (h : s.TakesCommands) (hg : s.debugAgent = none) :
    Ends (.dbgaccRead tag) s tag 1 0 0#64 s ∧ Ends (.dbgaccWrite tag) s tag 1 0 0#64 s := by
  constructor
  · refine ends_of_refuse h exec_dbgaccRead ?_
    rw [hg]
  · refine ends_of_refuse h (exec_dbgaccWrite_of_not_held (State.debugHeldWrite_of_no_agent hg)) ?_
    rw [State.debugWrite, hg]

/-- R474: an access ends within the virtual address space. -/
theorem ends_debug_beyond (h : s.TakesCommands) (hg : s.debugAgent = some g) (hva : 2 ^ 52 < (s.marg[1]).toNat + 8) :
    Ends (.dbgaccRead tag) s tag 1 0 0#64 s ∧ Ends (.dbgaccWrite tag) s tag 1 0 0#64 s := by
  constructor
  · refine ends_of_refuse h exec_dbgaccRead ?_
    rw [hg]
    exact if_pos hva
  · have hfree : s.debugHeldWrite = false := by
      rw [State.debugHeldWrite_of_some hg, decide_eq_false (Nat.not_le.mpr hva)]
      rfl
    refine ends_of_refuse h (exec_dbgaccWrite_of_not_held hfree) ?_
    rw [State.debugWrite, hg]
    exact if_pos hva

theorem ends_dbgaccRead_done {bs : List Byte} (h : s.TakesCommands) (hg : s.debugAgent = some g) (hva : (s.marg[1]).toNat + 8 ≤ 2 ^ 52)
    (hread : s.virtGet g noUnit (s.marg[1]).toNat 8 = (some bs, u)) :
    Ends (.dbgaccRead tag) s tag 0 0 (BitVec.ofNat 64 (leNat bs)) u := by
  refine ends_of_body (e := ⟨0, 0, BitVec.ofNat 64 (leNat bs)⟩) h exec_dbgaccRead ?_
  rw [hg]
  dsimp only
  rw [if_neg (Nat.not_lt.mpr hva), hread]

theorem ends_dbgaccRead_refused (h : s.TakesCommands) (hg : s.debugAgent = some g) (hva : (s.marg[1]).toNat + 8 ≤ 2 ^ 52)
    (hread : s.virtGet g noUnit (s.marg[1]).toNat 8 = (none, u)) : Ends (.dbgaccRead tag) s tag 1 0 0#64 u := by
  refine ends_of_refuse h exec_dbgaccRead ?_
  rw [hg]
  dsimp only
  rw [if_neg (Nat.not_lt.mpr hva), hread]

/-- R474: no write to a frame that another context of the partition maps executable. -/
theorem ends_dbgaccWrite_shared (h : s.TakesCommands) (hg : s.debugAgent = some g) (hva : (s.marg[1]).toNat + 8 ≤ 2 ^ 52)
    (hshared : (s.sharedAt g (s.marg[1]).toNat || s.sharedAt g ((s.marg[1]).toNat + 7)) = true) :
    Ends (.dbgaccWrite tag) s tag 3 0 0#64 s := by
  have hfree : s.debugHeldWrite = false := by
    rw [State.debugHeldWrite_of_some hg]
    rw [Bool.or_eq_true] at hshared
    rcases hshared with hfirst | hlast
    · simp [hfirst]
    · simp [hlast]
  refine ends_of_refuse h (exec_dbgaccWrite_of_not_held hfree) ?_
  rw [State.debugWrite, hg]
  dsimp only
  rw [if_neg (Nat.not_lt.mpr hva), if_pos hshared]

theorem State.debugWrite_put {ok : Bool} (hg : s.debugAgent = some g) (hva : (s.marg[1]).toNat + 8 ≤ 2 ^ 52)
    (hshared : ¬ (s.sharedAt g (s.marg[1]).toNat || s.sharedAt g ((s.marg[1]).toNat + 7)) = true)
    (hput : s.virtPut g noUnit (s.marg[1]).toNat (leBytes 8 (s.marg[2]).toNat) = (ok, u)) :
    s.debugWrite = (if ok then cmdDone else refuse 1, u) := by
  rw [State.debugWrite, hg]
  dsimp only
  rw [if_neg (Nat.not_lt.mpr hva), if_neg hshared, hput]
  cases ok <;> rfl

/-- R402: the loads of the debugger's context that stand in a debug hold. -/
def State.debugHolds (s : State) : List Run := s.runs.filter (fun r => decide (r.ctx = s.debugCtx) && decide (r.freeze = some .debug))

theorem ends_dbgaccRelease_refused (h : s.TakesCommands) (hno : s.debugHolds = []) : Ends (.dbgaccRelease tag) s tag 4 0 0#64 s := by
  refine ends_of_refuse h exec_dbgaccRelease ?_
  rw [show s.runs.filter _ = [] from hno]

theorem ends_dbgaccRelease_done (h : s.TakesCommands) (hsome : s.debugHolds ≠ []) :
    Ends (.dbgaccRelease tag) s tag 0 0 0#64 (s.debugHolds.foldl (fun (z : State) r => z.releaseHold r) s) := by
  refine ends_of_done h exec_dbgaccRelease ?_
  split
  · next hno => exact absurd hno hsome
  · rfl

end

/-! ### Every command on a device that takes none -/

/-- The commands of R474. -/
def deviceCommands (tag : Half) : List Instr :=
  [.eclclr tag, .almstage tag, .almswap tag, .prelease tag, .gkill tag, .emask tag, .partset tag, .savearea tag, .strpair tag,
    .capset tag, .lcstep tag, .dbgaccRead tag, .dbgaccWrite tag, .dbgaccRelease tag]

section
variable {s : State} {i : Instr} {tag : Half}

theorem exec_deviceCommand_of_not_takes (h : ¬ s.TakesCommands) (hi : i ∈ deviceCommands tag) : ∃ body, exec i s = s.command tag body := by
  have hguard : ¬ (s.enumerated && s.busy.isNone && s.lifecycle != 3#2 && s.debugHeldWrite) = true := by
    simp only [Bool.and_eq_true, Option.isNone_iff_eq_none, bne_iff_ne]
    exact fun ⟨⟨⟨he, hb⟩, hl⟩, _⟩ => h ⟨he, hb, hl⟩
  simp only [deviceCommands, List.mem_cons, List.not_mem_nil, or_false] at hi
  rcases hi with rfl | rfl | rfl | rfl | rfl | rfl | rfl | rfl | rfl | rfl | rfl | rfl | rfl | rfl
  · exact ⟨_, exec_eclclr⟩
  · exact ⟨_, exec_almstage⟩
  · exact ⟨_, exec_almswap⟩
  · exact ⟨_, exec_prelease⟩
  · exact ⟨_, exec_gkill⟩
  · exact ⟨_, exec_emask⟩
  · exact ⟨_, exec_partset⟩
  · exact ⟨_, exec_savearea⟩
  · exact ⟨_, exec_strpair⟩
  · exact ⟨_, exec_capset⟩
  · exact ⟨_, exec_lcstep⟩
  · exact ⟨_, exec_dbgaccRead⟩
  · exact ⟨_, exec_dbgaccWrite_of_free hguard⟩
  · exact ⟨_, exec_dbgaccRelease⟩

theorem ends_of_decommissioned (he : s.enumerated = true) (hb : s.busy = none) (hl : s.lifecycle = 3#2) (hi : i ∈ deviceCommands tag) :
    Ends i s tag 4 0 0#64 s := by
  obtain ⟨body, hexec⟩ := exec_deviceCommand_of_not_takes (fun ⟨_, _, hlive⟩ => hlive hl) hi
  exact hexec.trans (State.command_of_decommissioned he hb hl)

theorem exec_of_unreached (h : s.enumerated = false ∨ s.busy.isSome = true) (hi : i ∈ deviceCommands tag) : exec i s = .next s := by
  have hnot : ¬ s.TakesCommands := fun ⟨he, hb, _⟩ => by simp [he, hb] at h
  obtain ⟨body, hexec⟩ := exec_deviceCommand_of_not_takes hnot hi
  exact hexec.trans (State.command_of_unreached h)

end

/-- Settles O54: the accesses end as their bodies do, and a device that takes no command answers each alike. -/
theorem debugCommandsReachTheirContext : Obligations.DebugCommandsReachTheirContext := by
  refine ⟨?_, fun s tag i hi => ⟨fun he hb hl => ends_of_decommissioned he hb hl hi, fun h => exec_of_unreached h hi⟩⟩
  intro s tag he hb hl va
  have h : s.TakesCommands := ⟨he, hb, hl⟩
  refine ⟨exec_dbgaccWrite_of_held h, ends_debug_no_agent h, fun g hg => ⟨ends_debug_beyond h hg, fun hva => ⟨fun bs t =>
    ends_dbgaccRead_done h hg hva, fun t => ends_dbgaccRead_refused h hg hva, fun ⟨a, l, ha, hwalk, hexec⟩ => ?_, fun hnone hfree => ?_⟩⟩,
    ends_dbgaccRelease_refused h, ends_dbgaccRelease_done h⟩
  · have hat : s.sharedAt g a = true := State.sharedAt_iff.mpr ⟨l, hwalk, hexec⟩
    refine ends_dbgaccWrite_shared h hg hva ((Bool.or_eq_true _ _).mpr ?_)
    rcases ha with rfl | rfl
    · exact .inl hat
    · exact .inr hat
  · have hnot : ∀ a, a = va ∨ a = va + 7 → ¬ s.sharedAt g a = true := fun a ha hat => by
      obtain ⟨l, hwalk, hexec⟩ := State.sharedAt_iff.mp hat
      rw [hnone a l ha hwalk] at hexec
      contradiction
    have hshared : ¬ (s.sharedAt g va || s.sharedAt g (va + 7)) = true := by
      rw [Bool.or_eq_true]
      exact not_or.mpr ⟨hnot _ (.inl rfl), hnot _ (.inr rfl)⟩
    have hexec := exec_dbgaccWrite_of_not_held (tag := tag) hfree
    exact ⟨fun t hput => ends_of_done h hexec (State.debugWrite_put hg hva hshared hput),
      fun t hput => ends_of_refuse h hexec (State.debugWrite_put hg hva hshared hput)⟩

/-! ### What survives a wipe: the eclipse map and the rollback counter (R461, R468, R469) -/

/-- The eclipse map and the rollback counter. -/
def State.survivors (s : State) : List Word × Half := (s.eclipse, s.rollback)

section
variable (s : State)

theorem State.modPart_survivors (p : Fin 16) (f : Part → Part) : (s.modPart p f).survivors = s.survivors := rfl

theorem State.blockForWrite_survivors (b : Nat) : (s.blockForWrite b).2.survivors = s.survivors := by
  unfold State.blockForWrite
  split <;> rfl

theorem State.physWriteByte_survivors (comp : Bool) (a : Nat) (v : Byte) : (s.physWriteByte comp a v).survivors = s.survivors := by
  unfold State.physWriteByte
  split
  · rfl
  · split <;> exact s.blockForWrite_survivors _

theorem State.physWrite_survivors (comp : Bool) (a : Nat) (bs : List Byte) : (s.physWrite comp a bs).survivors = s.survivors := by
  induction bs generalizing s a with
  | nil => rfl
  | cons b bs ih => exact (ih _ _).trans (s.physWriteByte_survivors comp a b)

theorem State.fillL2_survivors (line : Nat) : (s.fillL2 line).survivors = s.survivors := by
  unfold State.fillL2
  split <;> rfl

theorem State.touchL2_survivors (a n : Nat) : (s.touchL2 a n).survivors = s.survivors :=
  List.foldlRecOn (motive := fun v => v.survivors = s.survivors) (linesOf a n) State.fillL2 rfl
    (fun v h l _ => (v.fillL2_survivors l).trans h)

theorem State.leafFor_survivors (g : Agent) (va : Nat) (acc : Access) : (s.leafFor g va acc).2.2.survivors = s.survivors := by
  unfold State.leafFor
  split
  · rfl
  · let kept (x : WalkEnd × Bool × State) := x.2.2.survivors
    exact ite_keeps kept rfl (ite_keeps kept rfl (ite_keeps kept rfl rfl))

theorem State.translate_survivors (g : Agent) (va : Nat) (acc : Access) : (s.translate g va acc).2.survivors = s.survivors := by
  have hleaf := s.leafFor_survivors g va acc
  unfold State.translate
  generalize s.leafFor g va acc = w at hleaf
  obtain ⟨_ | _ | _, fromTlb, s1⟩ := w
  · let kept (x : Xlat × State) := x.2.survivors
    refine ite_keeps kept hleaf (ite_keeps kept hleaf ?_)
    exact ite_keeps State.survivors hleaf ((State.physWriteByte_survivors _ _ _ _).trans hleaf)
  · exact hleaf
  · exact hleaf

theorem State.virtWrite_survivors (g : Agent) (va : Nat) (bs : List Byte) : (s.virtWrite g va bs).2.survivors = s.survivors := by
  have htranslate := s.translate_survivors g va .write
  unfold State.virtWrite
  generalize s.translate g va .write = x at htranslate
  obtain ⟨_ | _ | _, s1⟩ := x
  · exact (State.touchL2_survivors _ _ _).trans ((State.physWrite_survivors _ _ _ _).trans htranslate)
  · exact htranslate
  · exact htranslate

theorem State.virtWriteAll_survivors (g : Agent) (va : Nat) (bs : List Byte) : (s.virtWriteAll g va bs).2.survivors = s.survivors := by
  induction bs generalizing s va with
  | nil => rfl
  | cons b bs ih =>
    have hwrite := s.virtWrite_survivors g va [b]
    unfold State.virtWriteAll
    generalize s.virtWrite g va [b] = x at hwrite
    obtain ⟨_ | _ | _, s1⟩ := x
    · exact (ih s1 _).trans hwrite
    · exact hwrite
    · exact hwrite

theorem State.ringMessage_survivors (p : Fin 16) (n : RingName) : (s.ringMessage p n).survivors = s.survivors := rfl

theorem State.ringWrite_survivors (p : Fin 16) (n : RingName) (bytes : List Byte) : (s.ringWrite p n bytes).survivors = s.survivors := by
  unfold State.ringWrite
  dsimp only
  split
  · rw [State.ringMessage_survivors, State.modPart_survivors, State.virtWriteAll_survivors, State.virtWriteAll_survivors]
  · rw [State.modPart_survivors, State.virtWriteAll_survivors, State.virtWriteAll_survivors]

theorem State.logNoted_survivors (graph : Word) (fuel : Nat) : (s.logNoted graph fuel).survivors = s.survivors := by
  induction fuel generalizing s with
  | zero => rfl
  | succ fuel ih =>
    unfold State.logNoted
    split
    · rfl
    · exact (ih _).trans (State.ringWrite_survivors _ _ _ _)

theorem State.putCompletion_survivors (p : Fin 16) (bytes : List Byte) : (s.putCompletion p bytes).2.survivors = s.survivors := by
  unfold State.putCompletion
  dsimp only
  split
  · exact (State.logNoted_survivors _ _ _).trans (s.ringWrite_survivors p .completion bytes)
  · rfl

theorem execAlmanacSwap_survivors {p : Fin 16} {u : State} (h : execAlmanacSwap p s = .next u) : u.survivors = s.survivors := by
  unfold execAlmanacSwap at h
  dsimp only at h
  split at h <;> cases h <;> rfl

theorem State.completeSwaps_survivors : s.completeSwaps.survivors = s.survivors := by
  unfold State.completeSwaps
  refine List.foldlRecOn (motive := fun (v : State) => v.survivors = s.survivors) _ _ rfl fun v hv p _ => ?_
  split
  · exact hv
  · split
    · next hswap => exact (execAlmanacSwap_survivors _ hswap).trans hv
    · exact hv

end

/-! ### The eclipses at the end of a graph (R461) -/

section
variable {s v : State}

theorem State.addEclipse_survivors (s : State) (u : Word) : (s.addEclipse u).survivors =
    (if s.survivors.1.contains (eclipseKey u) then s.survivors.1 else s.survivors.1 ++ [eclipseKey u], s.survivors.2) := by
  by_cases hknown : s.eclipsed u = true
  · rw [State.addEclipse, if_pos hknown]
    exact Prod.ext (if_pos hknown).symm rfl
  · rw [State.addEclipse, if_neg hknown]
    exact Prod.ext (if_neg hknown).symm rfl

/-- What eclipse entries do to the survivors depends on them alone. -/
theorem State.addEclipses_survivors_congr (h : s.survivors = v.survivors) (us : List Word) :
    (s.addEclipses us).survivors = (v.addEclipses us).survivors := by
  induction us generalizing s v with
  | nil => exact h
  | cons u us ih => exact ih (by rw [State.addEclipse_survivors, State.addEclipse_survivors, h])

theorem State.addEclipses_rollback (us : List Word) : (s.addEclipses us).rollback = s.rollback := by
  induction us generalizing s with
  | nil => rfl
  | cons u us ih => exact ih.trans (congrArg Prod.snd (State.addEclipse_survivors s u))

theorem State.foldl_modTile_survivors {α : Type} (xs : List α) (at_ : α → Fin 192) (f : Tile → Tile) :
    (xs.foldl (fun (z : State) x => z.modTile (at_ x) f) s).survivors = s.survivors := by
  induction xs generalizing s with
  | nil => rfl
  | cons x xs ih => exact ih

theorem State.trigger_survivors (p : Fin 16) (hook : Hook) (code : Nat) (subject : Word) :
    (s.trigger p hook code subject).survivors = s.survivors := rfl

theorem State.freeRun_survivors (r : Run) : (s.freeRun r).survivors = (s.addEclipses r.eclipseAtEnd).survivors := by
  unfold State.freeRun
  dsimp only
  have htiles := State.foldl_modTile_survivors (s := s) r.tiles (fun x => tileOf x.2)
    (fun t => { t with seq := t.seq.idle, strands := Vector.replicate 8 {} })
  split
  · rw [State.modPart_survivors]
    refine State.addEclipses_survivors_congr ?_ _
    exact htiles
  · rw [State.trigger_survivors, State.modPart_survivors]
    refine State.addEclipses_survivors_congr ?_ _
    exact htiles

theorem State.completeRun_survivors (r : Run) (status : Nat) (flags : Byte) :
    (s.completeRun r status flags).survivors = (s.addEclipses r.eclipseAtEnd).survivors := by
  unfold State.completeRun
  dsimp only
  have hfree := fun p bytes => (State.freeRun_survivors (s := (s.putCompletion p bytes).2) r).trans
    (State.addEclipses_survivors_congr (State.putCompletion_survivors s p bytes) _)
  split
  · rw [State.modPart_survivors, hfree]
  · rw [hfree]

/-- R461, R468: ending every load of a device adds the entries that each of them left for its end, and nothing else. -/
theorem State.foldl_completeRun_survivors (h : s.survivors = v.survivors) (rs : List Run) :
    (rs.foldl (fun (z : State) r => z.completeRun r.discard 0x11 0#8) s).survivors =
      (rs.foldl (fun (z : State) r => z.addEclipses r.eclipseAtEnd) v).survivors := by
  induction rs generalizing s v with
  | nil => exact h
  | cons r rs ih => exact ih ((State.completeRun_survivors _ _ _).trans (State.addEclipses_survivors_congr h _))

theorem State.foldl_addEclipses_rollback (rs : List Run) :
    (rs.foldl (fun (z : State) r => z.addEclipses r.eclipseAtEnd) s).rollback = s.rollback := by
  induction rs generalizing s with
  | nil => rfl
  | cons r rs ih => exact ih.trans (State.addEclipses_rollback _)

end

/-! ### The step of the life cycle (R468) -/

section
variable {s : State} {tag : Half}

/-- The state with every load ended, as the step of the life cycle leaves it before it wipes the memory. -/
def State.allEnded (s : State) : State := (s.runs.foldl (fun (z : State) r => z.completeRun r.discard 0x11 0#8) s).completeSwaps

theorem State.allEnded_survivors (s : State) :
    s.allEnded.survivors = (s.runs.foldl (fun (z : State) r => z.addEclipses r.eclipseAtEnd) s).survivors :=
  (State.completeSwaps_survivors _).trans (State.foldl_completeRun_survivors rfl _)

theorem ends_lcstep (h : s.TakesCommands) :
    Ends (.lcstep tag) s tag 0 0 0#64 { s.allEnded.wipe with lifecycle := s.lifecycle + 1#2 } :=
  ends_of_done h exec_lcstep rfl

/-- R468: the wipe takes the loads and the memory of the device with it. -/
theorem State.wipe_empties (v : State) (x : BitVec 2) :
    let t : State := { v.wipe with lifecycle := x }
    t.runs = [] ∧ t.saved = [] ∧ (∀ y, y < 2 ^ 39 → t.physByte y = 0#8 ∧ t.tag (y / 256) = 0x8#4) ∧ t.survivors = v.survivors :=
  ⟨rfl, rfl, fun _ => State.wiped_reads_zero (m := v.mem) rfl rfl, rfl⟩

theorem lifecycle_succ_toNat {x : BitVec 2} (h : x ≠ 3#2) : (x + 1#2).toNat = x.toNat + 1 := by
  revert x
  decide

end

/-! ### The commands on the device (R474, R381, R470, R461) -/

section
variable {s : State} {tag : Half}

/-- MARG0 names a 32-bit identity where its upper half is 0. -/
theorem field_high_ne_zero_iff {v : DWord} : field v 63 32 ≠ 0 ↔ 2 ^ 32 ≤ v.toNat := by
  have hv := v.isLt
  rw [field, bitsOf]
  omega

/-- R474: what makes PARTSET end with status 2. -/
def State.PairsInUse (s : State) (p : Fin 16) (d : Fin 4) (mask : BitVec 48) : Prop :=
  (∃ q : Fin 16, q ≠ p ∧ (s.part q).pairs[d] &&& mask ≠ 0#48) ∨ (∃ r ∈ s.runs, r.part = p.val)

theorem State.pairsInUse_iff {p : Fin 16} {d : Fin 4} {mask : BitVec 48} : s.PairsInUse p d mask ↔
    ((List.finRange 16).any (fun q => decide (q ≠ p) && decide ((s.part q).pairs[d] &&& mask ≠ 0#48))
      || s.runs.any (fun r => r.part == p.val)) = true := by
  simp [State.PairsInUse, List.any_eq_true]

/-- R381, R474: PARTSET refused for pairs in use, refused in harebell mode, and taken. -/
theorem ends_partset {p : Fin 16} {d : Fin 4} (h : s.TakesCommands) (hp : (s.marg[0]).toNat = p.val)
    (hd : Fin.ofNat 4 (field s.marg[1] 1 0) = d) :
    let mask : BitVec 48 := (s.marg[2]).setWidth 48
    (s.PairsInUse p d mask → Ends (.partset tag) s tag 2 0 0#64 s)
    ∧ (¬ s.PairsInUse p d mask → s.harebell = true → p ≠ 0 → Ends (.partset tag) s tag 4 0 0#64 s)
    ∧ (¬ s.PairsInUse p d mask → s.harebell = false ∨ p = 0 → Ends (.partset tag) s tag 0 0 0#64 (s.modPart p (fun x => { x with
        formed := true, pairs := x.pairs.set d mask, tileQuota := field s.marg[3] 7 0, slotQuota := field s.marg[3] 15 8
        margin := BitVec.ofNat 32 (field s.marg[3] 47 16) }))) := by
  intro mask
  subst hd
  refine ⟨fun huse => ?_, fun hfree hmode hp0 => ?_, fun hfree hallowed => ?_⟩
  · refine ends_of_refuse h exec_partset ?_
    rw [partArg_eq_some hp]
    exact if_pos (State.pairsInUse_iff.mp huse)
  · refine ends_of_refuse h exec_partset ?_
    rw [partArg_eq_some hp]
    exact (if_neg (mt State.pairsInUse_iff.mpr hfree)).trans (if_pos (by simp [hmode, hp0]))
  · refine ends_of_done h exec_partset ?_
    rw [partArg_eq_some hp]
    refine (if_neg (mt State.pairsInUse_iff.mpr hfree)).trans (if_neg ?_)
    rcases hallowed with hoff | hzero
    · simp [hoff]
    · simp [hzero]

theorem ends_partset_beyond (h : s.TakesCommands) (hbeyond : 16 ≤ (s.marg[0]).toNat) : Ends (.partset tag) s tag 1 0 0#64 s := by
  refine ends_of_refuse h exec_partset ?_
  rw [partArg_eq_none hbeyond]

theorem field_low_eq_mod {v : DWord} (n : Nat) : field v n 0 = v.toNat % 2 ^ (n + 1) := by
  rw [field, bitsOf, Nat.pow_zero, Nat.div_one]
  rfl

theorem eclclr_refused_iff {v : DWord} {u : Word} :
    (field v 63 32 ≠ 0 || !unitIdOk u) = true ↔ 2 ^ 32 ≤ v.toNat ∨ unitIdOk u = false := by
  rw [Bool.or_eq_true, decide_eq_true_eq, field_high_ne_zero_iff, Bool.not_eq_true']

theorem gkill_refused_iff {v : DWord} {g : Word} :
    (field v 63 32 ≠ 0 || (s.run g).isNone) = true ↔ 2 ^ 32 ≤ v.toNat ∨ s.run g = none := by
  rw [Bool.or_eq_true, decide_eq_true_eq, field_high_ne_zero_iff, Option.isNone_iff_eq_none]

theorem capset_refused_iff {w : Nat} : (w < 1200 || 3000 < w) = true ↔ w < 1200 ∨ 3000 < w := by
  rw [Bool.or_eq_true, decide_eq_true_eq, decide_eq_true_eq]

end

/-- Settles O53: each command ends with the status of its body; the step of the life cycle ends every load, then wipes. -/
theorem deviceCommandsTakeEffectOrRefuse : Obligations.DeviceCommandsTakeEffectOrRefuse := by
  intro s tag he hb hl a0 u
  have h : s.TakesCommands := ⟨he, hb, hl⟩
  refine ⟨fun hbad => ?_, fun hlow hid hheld => ?_, fun hlow hid hfree => ?_, fun hbad => ?_, fun hlow hrun => ?_, ends_partset_beyond h,
    fun p hp => ?_, fun hthree => ?_, fun hchannel => ?_, fun hrange => ?_, fun hlo hhi => ?_, ?_⟩
  · exact ends_of_refuse h exec_eclclr (if_pos (eclclr_refused_iff.mpr hbad))
  · have hok := mt eclclr_refused_iff.mp (not_or.mpr ⟨Nat.not_le.mpr hlow, Bool.not_eq_false _ ▸ hid⟩)
    exact ends_of_refuse h exec_eclclr ((if_neg hok).trans (if_pos hheld))
  · have hok := mt eclclr_refused_iff.mp (not_or.mpr ⟨Nat.not_le.mpr hlow, Bool.not_eq_false _ ▸ hid⟩)
    exact ends_of_done h exec_eclclr ((if_neg hok).trans (if_neg (Bool.eq_false_iff.mp hfree)))
  · exact ends_of_refuse h exec_gkill (if_pos (gkill_refused_iff.mpr hbad))
  · exact ends_of_done h exec_gkill (if_neg (mt gkill_refused_iff.mp (not_or.mpr ⟨Nat.not_le.mpr hlow, hrun⟩)))
  · exact ends_partset h hp (congrArg (Fin.ofNat 4) (field_low_eq_mod 1))
  · exact ends_of_refuse h exec_strpair (if_pos hthree)
  · refine ⟨_, ends_of_done h exec_strpair (if_neg hchannel), rfl, ?_⟩
    exact congrArg some (Prod.ext (field_low_eq_mod 7) rfl)
  · exact ends_of_refuse h exec_capset (if_pos (capset_refused_iff.mpr hrange))
  · exact ends_of_done h exec_capset (if_neg (mt capset_refused_iff.mp (not_or.mpr ⟨Nat.not_lt.mpr hlo, Nat.not_lt.mpr hhi⟩)))
  · obtain ⟨hruns, hsaved, hwiped, hkept⟩ := s.allEnded.wipe_empties (s.lifecycle + 1#2)
    obtain ⟨heclipse, hrollback⟩ := Prod.mk.inj (hkept.trans s.allEnded_survivors)
    exact ⟨_, ends_lcstep h, lifecycle_succ_toNat hl, hruns, hsaved, hwiped, heclipse,
      hrollback.trans (State.foldl_addEclipses_rollback _)⟩

end Sys2Proof.Machine
end

section
/-! SUPPORT. Words and their fields (R178, R179, R201): what each field of a word of each format is, and that the fields make the word. -/

namespace Sys2Proof

/-! ### Fields of appended bits -/

theorem append_eq_zero_iff {m n : Nat} {x : BitVec m} {y : BitVec n} : x ++ y = 0#(m + n) ↔ x = 0#m ∧ y = 0#n := by
  rw [← BitVec.zero_append_zero]
  constructor
  · intro h
    exact ⟨by simpa only [BitVec.extractLsb'_append_eq_left] using congrArg (BitVec.extractLsb' n m) h,
      by simpa only [BitVec.extractLsb'_append_eq_right] using congrArg (BitVec.extractLsb' 0 n) h⟩
  · rintro ⟨rfl, rfl⟩
    rfl

@[simp] theorem needZero_zero {n : Nat} (x : Except Reject Instr) : needZero (0#n) x = x := if_pos rfl

theorem needZero_eq_ok_iff {n : Nat} {f : BitVec n} {x : Except Reject Instr} {i : Instr} :
    needZero f x = .ok i ↔ f = 0#n ∧ x = .ok i := by
  unfold needZero
  split <;> simp [*]

/-! ### The fields of each format (R179) -/

section Formats
variable (p : BitVec 2) (m : BitVec 6)

@[simp] theorem fields_encRR (d a b : BitVec 5) (f : BitVec 9) :
    fP (encRR p m d a b f) = p ∧ fMajor (encRR p m d a b f) = m ∧ fD (encRR p m d a b f) = d ∧ fA (encRR p m d a b f) = a
      ∧ fB (encRR p m d a b f) = b ∧ fFun (encRR p m d a b f) = f := by
  simp only [fP, fMajor, fD, fA, fB, fFun, encRR, BitVec.extractLsb'_append_eq_ite]
  simp

@[simp] theorem predicate_encRR (d a b : BitVec 5) (f : BitVec 6) (q : BitVec 3) :
    (encRR p m d a b (f ++ q)).extractLsb' 3 6 = f ∧ (encRR p m d a b (f ++ q)).extractLsb' 0 3 = q := by
  simp only [encRR, BitVec.extractLsb'_append_eq_ite]
  simp

@[simp] theorem fields_encRI (d a : BitVec 5) (i : BitVec 14) :
    fP (encRI p m d a i) = p ∧ fMajor (encRI p m d a i) = m ∧ fD (encRI p m d a i) = d ∧ fA (encRI p m d a i) = a
      ∧ fImm14 (encRI p m d a i) = i := by
  simp only [fP, fMajor, fD, fA, fImm14, encRI, BitVec.extractLsb'_append_eq_ite]
  simp

@[simp] theorem count_encRI (d a : BitVec 5) (h : BitVec 8) (n : BitVec 6) :
    (encRI p m d a (h ++ n)).extractLsb' 6 8 = h ∧ (encRI p m d a (h ++ n)).extractLsb' 0 6 = n := by
  simp only [encRI, BitVec.extractLsb'_append_eq_ite]
  simp

@[simp] theorem fields_encLU (d : BitVec 5) (i : BitVec 19) :
    fP (encLU p m d i) = p ∧ fMajor (encLU p m d i) = m ∧ fD (encLU p m d i) = d ∧ fImm19 (encLU p m d i) = i := by
  simp only [fP, fMajor, fD, fImm19, encLU, BitVec.extractLsb'_append_eq_ite]
  simp

@[simp] theorem fields_encBP (q : BitVec 3) (sense : BitVec 1) (o : BitVec 20) :
    fP (encBP p m q sense o) = p ∧ fMajor (encBP p m q sense o) = m ∧ (encBP p m q sense o).extractLsb' 21 3 = q
      ∧ (encBP p m q sense o).extractLsb' 0 20 = o := by
  simp only [fP, fMajor, encBP, BitVec.extractLsb'_append_eq_ite]
  simp

@[simp] theorem sense_encBP (q : BitVec 3) (sense : BitVec 1) (o : BitVec 20) : (encBP p m q sense o)[20] = sense[0] := by
  refine (BitVec.getElem_append (x := p ++ m ++ q ++ sense) (y := o) (i := 20) (by decide)).trans ?_
  exact BitVec.getElem_append (x := p ++ m ++ q) (y := sense) (i := 0) (by decide)

@[simp] theorem fields_encJL (o : BitVec 24) :
    fP (encJL p m o) = p ∧ fMajor (encJL p m o) = m ∧ (encJL p m o).extractLsb' 0 24 = o := by
  simp only [fP, fMajor, encJL, BitVec.extractLsb'_append_eq_ite]
  simp

@[simp] theorem fields_encME (d b : BitVec 5) (z : BitVec 2) (g : BitVec 1) (s : BitVec 2) (o : BitVec 9) :
    fP (encME p m d b z g s o) = p ∧ fMajor (encME p m d b z g s o) = m ∧ fD (encME p m d b z g s o) = d
      ∧ fA (encME p m d b z g s o) = b ∧ (encME p m d b z g s o).extractLsb' 12 2 = z
      ∧ (encME p m d b z g s o).extractLsb' 11 1 = g ∧ (encME p m d b z g s o).extractLsb' 9 2 = s ∧ fFun (encME p m d b z g s o) = o := by
  simp only [fP, fMajor, fD, fA, fFun, encME, BitVec.extractLsb'_append_eq_ite]
  simp

@[simp] theorem fields_encAM (d a v : BitVec 5) (o s z : BitVec 2) :
    fP (encAM p m d a v o s z) = p ∧ fMajor (encAM p m d a v o s z) = m ∧ fD (encAM p m d a v o s z) = d
      ∧ fA (encAM p m d a v o s z) = a ∧ fB (encAM p m d a v o s z) = v ∧ (encAM p m d a v o s z).extractLsb' 7 2 = o
      ∧ (encAM p m d a v o s z).extractLsb' 5 2 = s ∧ (encAM p m d a v o s z).extractLsb' 3 2 = z
      ∧ (encAM p m d a v o s z).extractLsb' 0 3 = 0#3 := by
  simp only [fP, fMajor, fD, fA, fB, encAM, BitVec.extractLsb'_append_eq_ite]
  simp

@[simp] theorem fields_encCF (a b : BitVec 5) (sub : BitVec 6) (i : BitVec 8) :
    fP (encCF p m a b sub i) = p ∧ fMajor (encCF p m a b sub i) = m ∧ fD (encCF p m a b sub i) = a
      ∧ fA (encCF p m a b sub i) = b ∧ fSub (encCF p m a b sub i) = sub ∧ fImm8 (encCF p m a b sub i) = i := by
  simp only [fP, fMajor, fD, fA, fSub, fImm8, encCF, BitVec.extractLsb'_append_eq_ite]
  simp

@[simp] theorem fields_encSY (i : BitVec 16) (sub : BitVec 8) :
    fP (encSY p m i sub) = p ∧ fMajor (encSY p m i sub) = m ∧ fImm16 (encSY p m i sub) = i ∧ fImm8 (encSY p m i sub) = sub := by
  simp only [fP, fMajor, fImm16, fImm8, encSY, BitVec.extractLsb'_append_eq_ite]
  simp

end Formats

/-! ### The parts of a field -/

@[simp] theorem parts_function (wd : BitVec 2) (f : BitVec 7) :
    (wd ++ f : BitVec 9).extractLsb' 7 2 = wd ∧ (wd ++ f : BitVec 9).extractLsb' 0 7 = f :=
  ⟨BitVec.extractLsb'_append_eq_left, BitVec.extractLsb'_append_eq_right⟩

@[simp] theorem parts_predicate (h : BitVec 2) (d : BitVec 3) :
    (h ++ d : BitVec 5).extractLsb' 3 2 = h ∧ (h ++ d : BitVec 5).extractLsb' 0 3 = d :=
  ⟨BitVec.extractLsb'_append_eq_left, BitVec.extractLsb'_append_eq_right⟩

@[simp] theorem parts_strand (x : BitVec 1) (k : BitVec 3) (c : BitVec 4) :
    (x ++ k ++ c : BitVec 8).extractLsb' 7 1 = x ∧ (x ++ k ++ c : BitVec 8).extractLsb' 4 3 = k
      ∧ (x ++ k ++ c : BitVec 8).extractLsb' 0 4 = c := by
  simp only [BitVec.extractLsb'_append_eq_ite]
  simp

@[simp] theorem parts_context (c : BitVec 4) :
    (0#4 ++ c : BitVec 8).extractLsb' 7 1 = 0#1 ∧ (0#4 ++ c : BitVec 8).extractLsb' 4 3 = 0#3
      ∧ (0#4 ++ c : BitVec 8).extractLsb' 0 4 = c := by
  simp only [BitVec.extractLsb'_append_eq_ite]
  simp

@[simp] theorem parts_tag (x : BitVec 1) (t : BitVec 7) :
    (x ++ t : BitVec 8).extractLsb' 7 1 = x ∧ (x ++ t : BitVec 8).extractLsb' 0 7 = t :=
  ⟨BitVec.extractLsb'_append_eq_left, BitVec.extractLsb'_append_eq_right⟩

@[simp] theorem parts_wait (o s g c : BitVec 2) :
    (o ++ s ++ g ++ c : BitVec 8).extractLsb' 6 2 = o ∧ (o ++ s ++ g ++ c : BitVec 8).extractLsb' 4 2 = s
      ∧ (o ++ s ++ g ++ c : BitVec 8).extractLsb' 2 2 = g ∧ (o ++ s ++ g ++ c : BitVec 8).extractLsb' 0 2 = c := by
  simp only [BitVec.extractLsb'_append_eq_ite]
  simp

@[simp] theorem parts_event (o s : BitVec 2) (c : BitVec 4) :
    (o ++ s ++ c : BitVec 8).extractLsb' 6 2 = o ∧ (o ++ s ++ c : BitVec 8).extractLsb' 4 2 = s
      ∧ (o ++ s ++ c : BitVec 8).extractLsb' 0 4 = c := by
  simp only [BitVec.extractLsb'_append_eq_ite]
  simp

end Sys2Proof
end

section
/-! PROOF. Sequencer words (R178 to R186): the decoder gives back what is encoded, and what it accepts is the word of what it gives. -/

namespace Sys2Proof

/-! ### The decoder gives back what is encoded -/

/-- The decoder finds the instruction in its word, before the conditions on its fields. -/
def ParsesBack (i : Instr) : Prop := ∀ w, encodeSeq i = some w → parseSeq w = .ok i

theorem parsesBack_of_some {i : Instr} {w : Word} (he : encodeSeq i = some w) (hp : parseSeq w = .ok i) : ParsesBack i :=
  fun _ h => Option.some.inj (he.symm.trans h) ▸ hp

theorem parsesBack_of_none {i : Instr} (h : encodeSeq i = none) : ParsesBack i := fun _ hw => nomatch h.symm.trans hw

theorem parsesBack_alu :
    (∀ p d a b w, ParsesBack (.add p d a b w)) ∧ (∀ p d a b w, ParsesBack (.sub p d a b w))
      ∧ (∀ p d a b w, ParsesBack (.mul p d a b w)) ∧ (∀ p d a b w, ParsesBack (.mulh p d a b w))
      ∧ (∀ p d a b w, ParsesBack (.div p d a b w)) ∧ (∀ p d a b w, ParsesBack (.rem p d a b w))
      ∧ (∀ p d a b w, ParsesBack (.min p d a b w)) ∧ (∀ p d a b w, ParsesBack (.max p d a b w))
      ∧ (∀ p d a b w, ParsesBack (.adds p d a b w)) ∧ (∀ p d a b w, ParsesBack (.subs p d a b w))
      ∧ (∀ p d a b w, ParsesBack (.and p d a b w)) ∧ (∀ p d a b w, ParsesBack (.or p d a b w))
      ∧ (∀ p d a b w, ParsesBack (.xor p d a b w)) ∧ (∀ p d a b w, ParsesBack (.andn p d a b w))
      ∧ (∀ p d a b w, ParsesBack (.shl p d a b w)) ∧ (∀ p d a b w, ParsesBack (.shr p d a b w))
      ∧ (∀ p d a w, ParsesBack (.clz p d a w)) ∧ (∀ p d a w, ParsesBack (.ctz p d a w)) ∧ (∀ p d a w, ParsesBack (.popc p d a w)) := by
  refine ⟨?_, ?_, ?_, ?_, ?_, ?_, ?_, ?_, ?_, ?_, ?_, ?_, ?_, ?_, ?_, ?_, ?_, ?_, ?_⟩
  all_goals
    intros
    refine parsesBack_of_some rfl ?_
    simp [parseSeq, decodeAlu]

theorem parsesBack_pred :
    (∀ p d a b w, ParsesBack (.cmpEq p d a b w)) ∧ (∀ p d a b w, ParsesBack (.cmpNe p d a b w))
      ∧ (∀ p d a b w, ParsesBack (.cmpLt p d a b w)) ∧ (∀ p d a b w, ParsesBack (.cmpGe p d a b w))
      ∧ (∀ p d a b, ParsesBack (.pand p d a b)) ∧ (∀ p d a b, ParsesBack (.por p d a b)) ∧ (∀ p d a b, ParsesBack (.pxor p d a b))
      ∧ (∀ p d a b, ParsesBack (.pandn p d a b)) ∧ (∀ p d, ParsesBack (.pget p d)) ∧ (∀ p a, ParsesBack (.pset p a)) := by
  refine ⟨?_, ?_, ?_, ?_, ?_, ?_, ?_, ?_, ?_, ?_⟩
  all_goals
    intros
    refine parsesBack_of_some rfl ?_
    simp [parseSeq, decodePred]

theorem parsesBack_imm :
    (∀ p d a b q, ParsesBack (.sel p d a b q)) ∧ (∀ p d a i, ParsesBack (.addi p d a i)) ∧ (∀ p d a i, ParsesBack (.andi p d a i))
      ∧ (∀ p d a i, ParsesBack (.ori p d a i)) ∧ (∀ p d a i, ParsesBack (.xori p d a i)) ∧ (∀ p d a n, ParsesBack (.shli p d a n))
      ∧ (∀ p d a n, ParsesBack (.shrli p d a n)) ∧ (∀ p d a n, ParsesBack (.shrai p d a n))
      ∧ (∀ p d a i, ParsesBack (.cmpiEq p d a i)) ∧ (∀ p d a i, ParsesBack (.cmpiLt p d a i))
      ∧ (∀ p d a i, ParsesBack (.cmpiLtu p d a i)) ∧ (∀ p d i, ParsesBack (.lui p d i)) ∧ (∀ p d i, ParsesBack (.lpc p d i)) := by
  refine ⟨?_, ?_, ?_, ?_, ?_, ?_, ?_, ?_, ?_, ?_, ?_, ?_, ?_⟩
  all_goals
    intros
    refine parsesBack_of_some rfl ?_
    simp [parseSeq]

theorem parsesBack_branch :
    (∀ p a b o, ParsesBack (.beq p a b o)) ∧ (∀ p a b o, ParsesBack (.bne p a b o)) ∧ (∀ p a b o, ParsesBack (.blt p a b o))
      ∧ (∀ p a b o, ParsesBack (.bge p a b o)) ∧ (∀ p c o, ParsesBack (.bp p c o)) ∧ (∀ p c o, ParsesBack (.bnp p c o))
      ∧ (∀ p o, ParsesBack (.j p o)) ∧ (∀ p o, ParsesBack (.call p o)) ∧ (∀ p d a i, ParsesBack (.callr p d a i)) := by
  refine ⟨?_, ?_, ?_, ?_, ?_, ?_, ?_, ?_, ?_⟩
  all_goals
    intros
    refine parsesBack_of_some rfl ?_
    simp [parseSeq]

theorem parsesBack_mem :
    (∀ p d b z g s o, ParsesBack (.ld p d b z g s o)) ∧ (∀ p d b z s o, ParsesBack (.st p d b z s o))
      ∧ (∀ p d a o s z, ParsesBack (.ldOrdered p d a o s z)) ∧ (∀ p a v o s z, ParsesBack (.stOrdered p a v o s z))
      ∧ (∀ p d a v o s z, ParsesBack (.amoAdd p d a v o s z)) ∧ (∀ p d a v o s z, ParsesBack (.amoSwap p d a v o s z))
      ∧ (∀ p d a v o s z, ParsesBack (.amoCas p d a v o s z)) ∧ (∀ p o s, ParsesBack (.fence p o s)) := by
  refine ⟨?_, ?_, ?_, ?_, ?_, ?_, ?_, ?_⟩
  all_goals
    intros
    refine parsesBack_of_some rfl ?_
    simp [parseSeq, decodeAm]

theorem parsesBack_cfg :
    (∀ p a c, ParsesBack (.cfgLoad p a c)) ∧ (∀ p k c, ParsesBack (.cfgPart p k c)) ∧ (∀ p k c, ParsesBack (.cfgArm p k c))
      ∧ (∀ p a b k, ParsesBack (.cfgFire p a b k)) ∧ (∀ p k, ParsesBack (.cfgWait p k)) ∧ (∀ p a k, ParsesBack (.cfgExit p a k))
      ∧ (∀ p a k, ParsesBack (.cfgPick p a k)) ∧ (∀ p k, ParsesBack (.cfgDrain p k)) ∧ (∀ p k, ParsesBack (.cfgSwap p k)) := by
  refine ⟨?_, ?_, ?_, ?_, ?_, ?_, ?_, ?_, ?_⟩
  all_goals
    intros
    refine parsesBack_of_some rfl ?_
    simp [parseSeq, decodeCf]

theorem parsesBack_event :
    (∀ p a b t, ParsesBack (.tokPut p a b t)) ∧ (∀ p a b, ParsesBack (.rndEnd p a b)) ∧ (∀ p b, ParsesBack (.rndGraph p b))
      ∧ (∀ p a b, ParsesBack (.rndRedo p a b)) ∧ (∀ p a k, ParsesBack (.engCopy p a k)) ∧ (∀ p a k, ParsesBack (.engDcmp p a k))
      ∧ (∀ p a k, ParsesBack (.engVdec p a k)) ∧ (∀ p a k, ParsesBack (.engXfm p a k)) ∧ (∀ p a b, ParsesBack (.launch p a b))
      ∧ (∀ p a b o s g c, ParsesBack (.waitAddr p a b o s g c)) ∧ (∀ p a b o s g c, ParsesBack (.waitAddrN64 p a b o s g c))
      ∧ (∀ p a b s, ParsesBack (.evAdd p a b s)) := by
  refine ⟨?_, ?_, ?_, ?_, ?_, ?_, ?_, ?_, ?_, ?_, ?_, ?_⟩
  all_goals
    intros
    refine parsesBack_of_some rfl ?_
    simp [parseSeq, decodeCf]

theorem parsesBack_system :
    (∀ p i, ParsesBack (.trap p i)) ∧ (∀ p i, ParsesBack (.brk p i)) ∧ (∀ p, ParsesBack (.eret p)) ∧ (∀ p, ParsesBack (.ifence p))
      ∧ (∀ p d i, ParsesBack (.mfsy p d i)) ∧ (∀ p a i, ParsesBack (.mtsy p a i)) := by
  refine ⟨?_, ?_, ?_, ?_, ?_, ?_⟩
  all_goals
    intros
    refine parsesBack_of_some rfl ?_
    simp [parseSeq]

theorem parsesBack (i : Instr) : ParsesBack i := by
  cases i
  case add | sub | mul | mulh | div | rem | min | max | adds | subs | and | or | xor | andn | shl | shr | clz | ctz | popc => simp only [parsesBack_alu]
  case cmpEq | cmpNe | cmpLt | cmpGe | pand | por | pxor | pandn | pget | pset => simp only [parsesBack_pred]
  case sel | addi | andi | ori | xori | shli | shrli | shrai | cmpiEq | cmpiLt | cmpiLtu | lui | lpc => simp only [parsesBack_imm]
  case beq | bne | blt | bge | bp | bnp | j | call | callr => simp only [parsesBack_branch]
  case ld | st | ldOrdered | stOrdered | amoAdd | amoSwap | amoCas | fence => simp only [parsesBack_mem]
  case cfgLoad | cfgPart | cfgArm | cfgFire | cfgWait | cfgExit | cfgPick | cfgDrain | cfgSwap => simp only [parsesBack_cfg]
  case tokPut | rndEnd | rndGraph | rndRedo | engCopy | engDcmp | engVdec | engXfm | launch | waitAddr | waitAddrN64 | evAdd => simp only [parsesBack_event]
  case trap | brk | eret | ifence | mfsy | mtsy => simp only [parsesBack_system]
  all_goals exact parsesBack_of_none rfl

/-! ### The fields of a word make it up -/

section Words
variable {w : Word} {m : BitVec 6}

theorem encRR_eq {d a b : BitVec 5} {f : BitVec 9} (hm : fMajor w = m) (hd : fD w = d) (ha : fA w = a) (hb : fB w = b)
    (hf : fFun w = f) : encRR (fP w) m d a b f = w := by
  subst hm hd ha hb hf
  simp only [encRR, fP, fMajor, fD, fA, fB, fFun, BitVec.extractLsb'_append_extractLsb'_eq_extractLsb']
  simp

theorem encRI_eq {d a : BitVec 5} {i : BitVec 14} (hm : fMajor w = m) (hd : fD w = d) (ha : fA w = a) (hi : fImm14 w = i) :
    encRI (fP w) m d a i = w := by
  subst hm hd ha hi
  simp only [encRI, fP, fMajor, fD, fA, fImm14, BitVec.extractLsb'_append_extractLsb'_eq_extractLsb']
  simp

theorem encLU_eq (hm : fMajor w = m) : encLU (fP w) m (fD w) (fImm19 w) = w := by
  subst hm
  simp only [encLU, fP, fMajor, fD, fImm19, BitVec.extractLsb'_append_extractLsb'_eq_extractLsb']
  simp

theorem encBP_eq {x : BitVec 1} (hm : fMajor w = m) (hx : w.extractLsb' 20 1 = x) :
    encBP (fP w) m (w.extractLsb' 21 3) x (w.extractLsb' 0 20) = w := by
  subst hm hx
  simp only [encBP, fP, fMajor, BitVec.extractLsb'_append_extractLsb'_eq_extractLsb']
  simp

theorem encJL_eq (hm : fMajor w = m) : encJL (fP w) m (w.extractLsb' 0 24) = w := by
  subst hm
  simp only [encJL, fP, fMajor, BitVec.extractLsb'_append_extractLsb'_eq_extractLsb']
  simp

theorem encME_eq {g : BitVec 1} (hm : fMajor w = m) (hg : w.extractLsb' 11 1 = g) :
    encME (fP w) m (fD w) (fA w) (w.extractLsb' 12 2) g (w.extractLsb' 9 2) (fFun w) = w := by
  subst hm hg
  simp only [encME, fP, fMajor, fD, fA, fFun, BitVec.extractLsb'_append_extractLsb'_eq_extractLsb']
  simp

theorem encAM_eq {d a v : BitVec 5} {z : BitVec 2} (hm : fMajor w = m) (hd : fD w = d) (ha : fA w = a) (hv : fB w = v)
    (hz : w.extractLsb' 3 2 = z) (hr : w.extractLsb' 0 3 = 0#3) :
    encAM (fP w) m d a v (w.extractLsb' 7 2) (w.extractLsb' 5 2) z = w := by
  subst hm hd ha hv hz
  simp only [encAM, ← hr, fP, fMajor, fD, fA, fB, BitVec.extractLsb'_append_extractLsb'_eq_extractLsb']
  simp

theorem encCF_eq {a b : BitVec 5} {sub : BitVec 6} {i : BitVec 8} (hm : fMajor w = m) (ha : fD w = a) (hb : fA w = b)
    (hs : fSub w = sub) (hi : fImm8 w = i) : encCF (fP w) m a b sub i = w := by
  subst hm ha hb hs hi
  simp only [encCF, fP, fMajor, fD, fA, fSub, fImm8, BitVec.extractLsb'_append_extractLsb'_eq_extractLsb']
  simp

theorem encSY_eq {i : BitVec 16} {sub : BitVec 8} (hm : fMajor w = m) (hi : fImm16 w = i) (hs : fImm8 w = sub) :
    encSY (fP w) m i sub = w := by
  subst hm hi hs
  simp only [encSY, fP, fMajor, fImm16, fImm8, BitVec.extractLsb'_append_extractLsb'_eq_extractLsb']
  simp

end Words

theorem function_eq {f : BitVec 9} {wd : BitVec 2} {n : BitVec 7} (hw : f.extractLsb' 7 2 = wd) (h : f.extractLsb' 0 7 = n) :
    f = wd ++ n := by
  subst hw h
  simp only [BitVec.extractLsb'_append_extractLsb'_eq_extractLsb']
  simp

theorem function_eq_ofNat {f : BitVec 9} {n : Nat} (hw : f.extractLsb' 7 2 = 0#2) (h : (f.extractLsb' 0 7).toNat = n) : f = BitVec.ofNat 9 n := by
  have hf := f.isLt
  have hhigh := congrArg BitVec.toNat hw
  apply BitVec.eq_of_toNat_eq
  simp [Nat.shiftRight_eq_div_pow] at h hhigh ⊢
  omega

theorem predicate_eq {d : BitVec 5} (h : d.extractLsb' 3 2 = 0#2) : d = 0#2 ++ d.extractLsb' 0 3 := by
  rw [← h]
  simp only [BitVec.extractLsb'_append_extractLsb'_eq_extractLsb']
  simp

theorem strand_eq {i : BitVec 8} {k : BitVec 3} {c : BitVec 4} (hx : i.extractLsb' 7 1 = 0#1) (hk : i.extractLsb' 4 3 = k)
    (hc : i.extractLsb' 0 4 = c) : i = 0#1 ++ k ++ c := by
  subst hk hc
  rw [← hx]
  simp only [BitVec.extractLsb'_append_extractLsb'_eq_extractLsb']
  simp

theorem context_eq {i : BitVec 8} (hx : i.extractLsb' 7 1 = 0#1) (hk : i.extractLsb' 4 3 = 0#3) : i = 0#4 ++ i.extractLsb' 0 4 :=
  (strand_eq hx hk rfl).trans (congrArg (fun z : BitVec 4 => z ++ i.extractLsb' 0 4) (by decide))

theorem tag_eq {i : BitVec 8} (hx : i.extractLsb' 7 1 = 0#1) : i = 0#1 ++ i.extractLsb' 0 7 := by
  rw [← hx]
  simp only [BitVec.extractLsb'_append_extractLsb'_eq_extractLsb']
  simp

theorem wait_eq (i : BitVec 8) : i = i.extractLsb' 6 2 ++ i.extractLsb' 4 2 ++ i.extractLsb' 2 2 ++ i.extractLsb' 0 2 := by
  simp only [BitVec.extractLsb'_append_extractLsb'_eq_extractLsb']
  simp

theorem event_eq {i : BitVec 8} (ho : i.extractLsb' 6 2 = 0#2) (hc : i.extractLsb' 0 4 = 0#4) :
    i = 0#2 ++ i.extractLsb' 4 2 ++ 0#4 := by
  rw [← ho, ← hc]
  simp only [BitVec.extractLsb'_append_extractLsb'_eq_extractLsb']
  simp

theorem count_eq {w : Word} (h : w.extractLsb' 6 8 = 0#8) : fImm14 w = 0#8 ++ w.extractLsb' 0 6 := by
  rw [← h]
  simp only [fImm14, BitVec.extractLsb'_append_extractLsb'_eq_extractLsb']

theorem select_eq {w : Word} (h : w.extractLsb' 3 6 = 0#6) : fFun w = 0#6 ++ w.extractLsb' 0 3 := by
  rw [← h]
  simp only [fFun, BitVec.extractLsb'_append_extractLsb'_eq_extractLsb']

theorem sense_eq {w : Word} {x : Bool} (h : w.getLsbD 20 = x) : w.extractLsb' 20 1 = BitVec.ofBool x := by
  subst h
  apply BitVec.eq_of_getLsbD_eq
  simp

/-! ### What the decoder accepts is the word of what it gives -/

theorem ite_error_eq_ok_iff {c : Prop} [Decidable c] {x : Except Reject Instr} {e : Reject} {i : Instr} :
    (if c then x else .error e) = .ok i ↔ c ∧ x = .ok i := by
  split <;> simp [*]

section Sound
variable {w : Word} {i : Instr}

theorem encodeSeq_of_decodeAlu (hm : fMajor w = 0x00#6) (h : decodeAlu w = .ok i) : encodeSeq i = some w := by
  unfold decodeAlu at h
  dsimp only at h
  split at h
  all_goals simp only [needZero_eq_ok_iff, Except.ok.injEq, reduceCtorEq] at h
  case h_17 | h_18 | h_19 =>
    obtain ⟨hb, rfl⟩ := h
    exact congrArg some (encRR_eq hm rfl rfl hb (function_eq rfl (BitVec.eq_of_toNat_eq ‹_›)))
  all_goals
    subst h
    exact congrArg some (encRR_eq hm rfl rfl rfl (function_eq rfl (BitVec.eq_of_toNat_eq ‹_›)))

theorem encodeSeq_of_decodePred (hm : fMajor w = 0x01#6) (h : decodePred w = .ok i) : encodeSeq i = some w := by
  unfold decodePred at h
  dsimp only at h
  split at h
  all_goals simp only [needZero_eq_ok_iff, append_eq_zero_iff, Except.ok.injEq, reduceCtorEq, ite_error_eq_ok_iff] at h
  case h_1 | h_2 | h_3 | h_4 =>
    obtain ⟨hd, rfl⟩ := h
    exact congrArg some (encRR_eq hm (predicate_eq hd) rfl rfl (function_eq rfl (BitVec.eq_of_toNat_eq ‹_›)))
  case h_5 | h_6 | h_7 | h_8 =>
    obtain ⟨hw, ⟨⟨hd, ha⟩, hb⟩, rfl⟩ := h
    exact congrArg some (encRR_eq hm (predicate_eq hd) (predicate_eq ha) (predicate_eq hb) (function_eq_ofNat hw ‹_›))
  case h_9 =>
    obtain ⟨hw, ⟨ha, hb⟩, rfl⟩ := h
    exact congrArg some (encRR_eq hm rfl ha hb (function_eq_ofNat hw ‹_›))
  case h_10 =>
    obtain ⟨hw, ⟨hd, hb⟩, rfl⟩ := h
    exact congrArg some (encRR_eq hm hd rfl hb (function_eq_ofNat hw ‹_›))

theorem encodeSeq_of_decodeAm {m : Nat} (h : decodeAm m w = .ok i) (hm : fMajor w = BitVec.ofNat 6 m) : encodeSeq i = some w := by
  unfold decodeAm at h
  dsimp only at h
  split at h
  all_goals simp only [needZero_eq_ok_iff, append_eq_zero_iff, Except.ok.injEq, reduceCtorEq] at h
  case h_1 =>
    obtain ⟨⟨hv, hr⟩, rfl⟩ := h
    exact congrArg some (encAM_eq hm rfl rfl hv rfl hr)
  case h_2 =>
    obtain ⟨⟨hd, hr⟩, rfl⟩ := h
    exact congrArg some (encAM_eq hm hd rfl rfl rfl hr)
  case h_3 | h_4 | h_5 =>
    obtain ⟨hr, rfl⟩ := h
    exact congrArg some (encAM_eq hm rfl rfl rfl rfl hr)
  case h_6 =>
    obtain ⟨⟨⟨⟨⟨hd, ha⟩, hv⟩, hz⟩, hr⟩, rfl⟩ := h
    exact congrArg some (encAM_eq hm hd ha hv hz hr)

theorem encodeSeq_of_decodeCf {m : Nat} (h : decodeCf m w = .ok i) (hm : fMajor w = BitVec.ofNat 6 m) : encodeSeq i = some w := by
  unfold decodeCf at h
  dsimp only at h
  split at h
  all_goals simp only [needZero_eq_ok_iff, append_eq_zero_iff, Except.ok.injEq, reduceCtorEq] at h
  case h_1 hs =>
    obtain ⟨⟨⟨hb, hx⟩, hk⟩, rfl⟩ := h
    exact congrArg some (encCF_eq hm rfl hb (BitVec.eq_of_toNat_eq hs) (context_eq hx hk))
  case h_2 hs | h_3 hs =>
    obtain ⟨⟨⟨ha, hb⟩, hx⟩, rfl⟩ := h
    exact congrArg some (encCF_eq hm ha hb (BitVec.eq_of_toNat_eq hs) (strand_eq hx rfl rfl))
  case h_4 hs =>
    obtain ⟨⟨hx, hc⟩, rfl⟩ := h
    exact congrArg some (encCF_eq hm rfl rfl (BitVec.eq_of_toNat_eq hs) (strand_eq hx rfl hc))
  case h_5 hs | h_8 hs | h_9 hs =>
    obtain ⟨⟨⟨⟨ha, hb⟩, hx⟩, hc⟩, rfl⟩ := h
    exact congrArg some (encCF_eq hm ha hb (BitVec.eq_of_toNat_eq hs) (strand_eq hx rfl hc))
  case h_6 hs | h_7 hs | h_14 hs | h_15 hs | h_16 hs | h_17 hs =>
    obtain ⟨⟨⟨hb, hx⟩, hc⟩, rfl⟩ := h
    exact congrArg some (encCF_eq hm rfl hb (BitVec.eq_of_toNat_eq hs) (strand_eq hx rfl hc))
  case h_10 hs =>
    obtain ⟨hx, rfl⟩ := h
    exact congrArg some (encCF_eq hm rfl rfl (BitVec.eq_of_toNat_eq hs) (tag_eq hx))
  case h_11 hs | h_13 hs | h_18 hs =>
    obtain ⟨hi, rfl⟩ := h
    exact congrArg some (encCF_eq hm rfl rfl (BitVec.eq_of_toNat_eq hs) hi)
  case h_12 hs =>
    obtain ⟨⟨ha, hi⟩, rfl⟩ := h
    exact congrArg some (encCF_eq hm ha rfl (BitVec.eq_of_toNat_eq hs) hi)
  case h_19 hs | h_20 hs =>
    subst h
    exact congrArg some (encCF_eq hm rfl rfl (BitVec.eq_of_toNat_eq hs) (wait_eq _))
  case h_21 hs =>
    obtain ⟨⟨ho, hc⟩, rfl⟩ := h
    exact congrArg some (encCF_eq hm rfl rfl (BitVec.eq_of_toNat_eq hs) (event_eq ho hc))

theorem encodeSeq_of_parseSeq (h : parseSeq w = .ok i) : encodeSeq i = some w := by
  unfold parseSeq at h
  dsimp only at h
  split at h
  case h_1 hm => exact encodeSeq_of_decodeAlu (BitVec.eq_of_toNat_eq hm) h
  case h_2 hm => exact encodeSeq_of_decodePred (BitVec.eq_of_toNat_eq hm) h
  case h_3 hm =>
    obtain ⟨hz, hi⟩ := needZero_eq_ok_iff.mp h
    cases hi
    exact congrArg some (encRR_eq (BitVec.eq_of_toNat_eq hm) rfl rfl rfl (select_eq hz))
  case h_4 hm | h_5 hm | h_6 hm | h_7 hm | h_16 hm | h_17 hm | h_18 hm | h_19 hm | h_23 hm =>
    cases h
    exact congrArg some (encRI_eq (BitVec.eq_of_toNat_eq hm) rfl rfl rfl)
  case h_8 hm | h_9 hm | h_10 hm =>
    obtain ⟨hz, hi⟩ := needZero_eq_ok_iff.mp h
    cases hi
    exact congrArg some (encRI_eq (BitVec.eq_of_toNat_eq hm) rfl rfl (count_eq hz))
  case h_11 hm | h_12 hm | h_13 hm =>
    obtain ⟨hd, hi⟩ := needZero_eq_ok_iff.mp h
    cases hi
    exact congrArg some (encRI_eq (BitVec.eq_of_toNat_eq hm) (predicate_eq hd) rfl rfl)
  case h_14 hm | h_15 hm =>
    cases h
    exact congrArg some (encLU_eq (BitVec.eq_of_toNat_eq hm))
  case h_20 hm =>
    split at h
    · next hx =>
      cases h
      exact congrArg some (encBP_eq (BitVec.eq_of_toNat_eq hm) (sense_eq hx))
    · next hx =>
      cases h
      exact congrArg some (encBP_eq (BitVec.eq_of_toNat_eq hm) (sense_eq (Bool.eq_false_iff.mpr hx)))
  case h_21 hm | h_22 hm =>
    cases h
    exact congrArg some (encJL_eq (BitVec.eq_of_toNat_eq hm))
  case h_24 hm =>
    cases h
    exact congrArg some (encME_eq (BitVec.eq_of_toNat_eq hm) rfl)
  case h_25 hm =>
    obtain ⟨hg, hi⟩ := needZero_eq_ok_iff.mp h
    cases hi
    exact congrArg some (encME_eq (BitVec.eq_of_toNat_eq hm) hg)
  case h_26 hm | h_27 hm | h_28 hm | h_29 hm | h_30 hm | h_31 hm => exact encodeSeq_of_decodeAm h (BitVec.eq_of_toNat_eq hm)
  case h_32 hm | h_33 hm | h_34 hm | h_35 hm | h_36 hm => exact encodeSeq_of_decodeCf h (BitVec.eq_of_toNat_eq hm)
  case h_37 hm =>
    split at h
    case h_1 hs | h_2 hs =>
      cases h
      exact congrArg some (encSY_eq (BitVec.eq_of_toNat_eq hm) rfl (BitVec.eq_of_toNat_eq hs))
    case h_3 hs | h_4 hs =>
      obtain ⟨hz, hi⟩ := needZero_eq_ok_iff.mp h
      cases hi
      exact congrArg some (encSY_eq (BitVec.eq_of_toNat_eq hm) hz (BitVec.eq_of_toNat_eq hs))
    case h_5 => cases h
  case h_38 hm =>
    obtain ⟨ha, hi⟩ := needZero_eq_ok_iff.mp h
    cases hi
    exact congrArg some (encRI_eq (BitVec.eq_of_toNat_eq hm) rfl ha rfl)
  case h_39 hm =>
    obtain ⟨hd, hi⟩ := needZero_eq_ok_iff.mp h
    cases hi
    exact congrArg some (encRI_eq (BitVec.eq_of_toNat_eq hm) hd rfl rfl)
  case h_40 => cases h

end Sound

/-- The protection class is the same field in every format (R178, R179). -/
theorem class_of_encodeSeq {i : Instr} {w : Word} (h : encodeSeq i = some w) (hw : i.wf = true) : fP w ≠ 3#2 := by
  cases i <;> cases h <;> simp only [Instr.wf, Bool.and_eq_true, bne_iff_ne, fields_encRR, fields_encRI, fields_encLU, fields_encBP,
    fields_encJL, fields_encME, fields_encAM, fields_encCF, fields_encSY] at hw ⊢
  all_goals tauto

theorem decodeSeq_eq_ok_iff {i : Instr} {w : Word} : decodeSeq w = .ok i ↔ fP w ≠ 3#2 ∧ parseSeq w = .ok i ∧ i.wf = true := by
  unfold decodeSeq
  split
  · next hp => simp [hp]
  · next hp =>
    cases hx : parseSeq w with
    | error e => simp
    | ok j => by_cases hw : j.wf = true <;> simp [hp, hw] <;> rintro rfl <;> simpa using hw

/-- Settles O1: the fields of each format are read back, and a word that is accepted is made of the fields that were read. -/
theorem sequencerWordsRoundTrip : Obligations.SequencerWordsRoundTrip := by
  refine ⟨fun i w hw h => decodeSeq_eq_ok_iff.mpr ⟨class_of_encodeSeq h hw, parsesBack i w h, hw⟩, fun i w h => ?_⟩
  obtain ⟨-, hp, hw⟩ := decodeSeq_eq_ok_iff.mp h
  exact ⟨encodeSeq_of_parseSeq hp, hw⟩

/-- Settles O3: the decoder is evaluated on each of the words. -/
theorem wordsOfTheSpecDecode : Obligations.WordsOfTheSpecDecode := by
  refine ⟨?_, ?_, ?_, ?_, ?_, ?_, ?_, ?_, ?_, ?_, ?_, ?_, ?_, ?_, ?_, ?_, ?_⟩ <;> rfl

end Sys2Proof
end

section
/-! PROOF. Almanac words (R201, R202): the decoder gives back what is encoded, and what it accepts is the words of what it gives. -/

namespace Sys2Proof

/-! ### Fields of an almanac word -/

@[simp] theorem fields_encAlm (o : BitVec 6) (d a : BitVec 3) (f : BitVec 4) :
    (encAlm o d a f).extractLsb' 10 6 = o ∧ (encAlm o d a f).extractLsb' 7 3 = d ∧ (encAlm o d a f).extractLsb' 4 3 = a
      ∧ (encAlm o d a f).extractLsb' 0 4 = f := by
  simp only [encAlm, BitVec.extractLsb'_append_eq_ite]
  simp

@[simp] theorem operand_encAlm (o : BitVec 6) (d a b : BitVec 3) (x : BitVec 1) :
    (encAlm o d a (x ++ b)).extractLsb' 3 1 = x ∧ (encAlm o d a (x ++ b)).extractLsb' 0 3 = b := by
  simp only [encAlm, BitVec.extractLsb'_append_eq_ite]
  simp

@[simp] theorem offset_parts (o : BitVec 7) : (o.extractLsb' 4 3 ++ o.extractLsb' 0 4 : BitVec 7) = o := by
  simp only [BitVec.extractLsb'_append_extractLsb'_eq_extractLsb']
  simp

theorem encAlm_eq {w : Half} {o : BitVec 6} {d a : BitVec 3} {f : BitVec 4} (ho : w.extractLsb' 10 6 = o) (hd : w.extractLsb' 7 3 = d)
    (ha : w.extractLsb' 4 3 = a) (hf : w.extractLsb' 0 4 = f) : encAlm o d a f = w := by
  subst ho hd ha hf
  simp only [encAlm, BitVec.extractLsb'_append_extractLsb'_eq_extractLsb']
  simp

theorem almOperand_eq {w : Half} (h : w.extractLsb' 3 1 = 0#1) : w.extractLsb' 0 4 = 0#1 ++ w.extractLsb' 0 3 := by
  rw [← h]
  simp only [BitVec.extractLsb'_append_extractLsb'_eq_extractLsb']

/-! ### The decoder gives back what is encoded -/

theorem decodeAlm_encodeAlm {i : Instr} {ws : List Half} (rest : List Half) (hw : i.wf = true) (h : encodeAlm i = some ws) :
    decodeAlm (ws ++ rest) = .ok (i, ws.length) := by
  cases i <;> cases h
  all_goals simp [decodeAlm, almanacExt, parseAlm, hw]

/-! ### What the decoder accepts is the words of what it gives -/

section Sound
variable {w x : Half} {i : Instr}

theorem almanacExt_eq {n : Nat} (h : (w.extractLsb' 10 6).toNat = n) : almanacExt w = (n == 0x0B || n == 0x0C || n == 0x0D) := by
  subst h
  rfl

theorem offset_eq (d : BitVec 3) (f : BitVec 4) : (d ++ f : BitVec 7).extractLsb' 4 3 = d ∧ (d ++ f : BitVec 7).extractLsb' 0 4 = f :=
  ⟨BitVec.extractLsb'_append_eq_left, BitVec.extractLsb'_append_eq_right⟩

/-- A word with the opcode of its number; the extension follows where the opcode takes one. -/
theorem encodeAlm_of_parseAlm (h : parseAlm w x = .ok i) : encodeAlm i = some (w :: if almanacExt w then [x] else []) := by
  unfold parseAlm at h
  dsimp only at h
  split at h
  case h_37 => cases h
  all_goals
    rename_i ho
    rw [almanacExt_eq ho]
  case h_1 | h_24 =>
    obtain ⟨hz, hi⟩ := needZero_eq_ok_iff.mp h
    obtain ⟨⟨hd, ha⟩, hf⟩ := by simpa only [append_eq_zero_iff] using hz
    cases hi
    exact congrArg (fun v => some [v]) (encAlm_eq (BitVec.eq_of_toNat_eq ho) hd ha hf)
  case h_2 | h_3 | h_4 | h_5 | h_6 | h_7 | h_8 | h_9 | h_10 | h_11 | h_16 | h_17 | h_18 | h_19 =>
    obtain ⟨hb, hi⟩ := needZero_eq_ok_iff.mp h
    cases hi
    exact congrArg (fun v => some [v]) (encAlm_eq (BitVec.eq_of_toNat_eq ho) rfl rfl (almOperand_eq hb))
  case h_12 =>
    obtain ⟨hf, hi⟩ := needZero_eq_ok_iff.mp h
    cases hi
    exact congrArg (fun v => some [v, x]) (encAlm_eq (BitVec.eq_of_toNat_eq ho) rfl rfl hf)
  case h_13 | h_14 =>
    obtain ⟨hz, hi⟩ := needZero_eq_ok_iff.mp h
    obtain ⟨ha, hf⟩ := append_eq_zero_iff.mp hz
    cases hi
    exact congrArg (fun v => some [v, x]) (encAlm_eq (BitVec.eq_of_toNat_eq ho) rfl ha hf)
  case h_15 | h_25 | h_27 | h_29 | h_34 | h_35 =>
    obtain ⟨hf, hi⟩ := needZero_eq_ok_iff.mp h
    cases hi
    exact congrArg (fun v => some [v]) (encAlm_eq (BitVec.eq_of_toNat_eq ho) rfl rfl hf)
  case h_20 | h_21 =>
    cases h
    exact congrArg (fun v => some [v]) (encAlm_eq (BitVec.eq_of_toNat_eq ho) (offset_eq _ _).1.symm rfl (offset_eq _ _).2.symm)
  case h_22 =>
    obtain ⟨ha, hi⟩ := needZero_eq_ok_iff.mp h
    cases hi
    exact congrArg (fun v => some [v]) (encAlm_eq (BitVec.eq_of_toNat_eq ho) (offset_eq _ _).1.symm ha (offset_eq _ _).2.symm)
  case h_23 =>
    obtain ⟨hz, hi⟩ := needZero_eq_ok_iff.mp h
    obtain ⟨hd, ha⟩ := append_eq_zero_iff.mp hz
    cases hi
    exact congrArg (fun v => some [v]) (encAlm_eq (BitVec.eq_of_toNat_eq ho) hd ha rfl)
  case h_28 | h_30 | h_31 | h_33 =>
    obtain ⟨ha, hi⟩ := needZero_eq_ok_iff.mp h
    cases hi
    exact congrArg (fun v => some [v]) (encAlm_eq (BitVec.eq_of_toNat_eq ho) rfl ha rfl)
  case h_32 =>
    obtain ⟨hd, hi⟩ := needZero_eq_ok_iff.mp h
    cases hi
    exact congrArg (fun v => some [v]) (encAlm_eq (BitVec.eq_of_toNat_eq ho) hd rfl rfl)
  case h_26 | h_36 =>
    cases h
    exact congrArg (fun v => some [v]) (encAlm_eq (BitVec.eq_of_toNat_eq ho) rfl rfl rfl)

theorem accepted_alm {n m : Nat} (h : (match parseAlm w x with
    | .ok i => if i.wf then .ok (i, n) else .error .refusedOperand
    | .error e => .error e : Except Reject (Instr × Nat)) = .ok (i, m)) : parseAlm w x = .ok i ∧ i.wf = true ∧ n = m := by
  split at h
  · next j hj =>
    split at h
    · next hw =>
      cases h
      exact ⟨hj, hw, rfl⟩
    · cases h
  · cases h

end Sound

/-- Settles O2: each format's fields are read back, and a word that is accepted is made of the fields that were read. -/
theorem almanacWordsRoundTrip : Obligations.AlmanacWordsRoundTrip := by
  refine ⟨fun i ws rest hw h => decodeAlm_encodeAlm rest hw h, fun i ws n h => ?_⟩
  cases ws with
  | nil => cases h
  | cons w rest =>
    unfold decodeAlm at h
    dsimp only at h
    split at h
    · next hext =>
      cases rest with
      | nil => cases h
      | cons x rest =>
        obtain ⟨hp, hw, rfl⟩ := accepted_alm h
        exact ⟨by simpa [hext] using encodeAlm_of_parseAlm hp, by simp, hw⟩
    · next hext =>
      obtain ⟨hp, hw, rfl⟩ := accepted_alm h
      exact ⟨by simpa [hext] using encodeAlm_of_parseAlm hp, by simp, hw⟩

end Sys2Proof
end

section
/-! PROOF. Integer operations (R224, R225): each writes the result of its width to its register and goes on. -/

namespace Sys2Proof.Machine

/-! ### Results of integer operations -/

section Alu
variable {s : State} {i : Instr} {p w : BitVec 2} {d : BitVec 5}

/-- An operation whose result is cut to its width gives the integer that it cuts. -/
theorem gives_of_regInstr {r : Int} (hexec : exec i s = regInstr i p d (widthResult w r) s) (hw : i.wf = true) (h : Undisturbed s) :
    Gives i s d w r :=
  ⟨_, hexec.trans (regInstr_undisturbed hw h p d _), extended_widthResult w r, dvd_widthResult w r⟩

theorem gives_of_aluInt {f : Int → Int → Int} {a b : DWord} {r : Int} (hexec : exec i s = regInstr i p d (aluInt f w a b) s) (hw : i.wf = true)
    (h : Undisturbed s) (hr : f (valueAt w a) (valueAt w b) = r) : Gives i s d w r := by
  refine gives_of_regInstr (p := p) (hexec.trans ?_) hw h
  rw [aluInt, operand_eq, operand_eq, hr]

theorem givesBits_of_aluBits {f : DWord → DWord → DWord} {a b : DWord} {bit : Nat → Bool} (hexec : exec i s = regInstr i p d (aluBits f w a b) s)
    (hw : i.wf = true) (h : Undisturbed s) (hf : ∀ k, k < 64 → (f a b).getLsbD k = bit k) : GivesBits i s d w bit := by
  refine ⟨_, hexec.trans (regInstr_undisturbed hw h p d _), extended_widthResult w _, fun k hk => ?_⟩
  rw [aluBits, getLsbD_widthResult w _ k hk]
  exact hf k (hk.trans_le (by unfold width; split <;> decide))

end Alu

theorem widthSigned_iff (w : BitVec 2) : widthSigned w = true ↔ leastAt w < 0 := by
  revert w; decide

theorem divResult_eq (w : BitVec 2) (x y : Int) :
    divResult w x y = if y = 0 then -1 else if leastAt w < 0 ∧ x = leastAt w ∧ y = -1 then leastAt w else x.tdiv y := by
  simp only [divResult, widthLo_eq, Bool.and_eq_true, decide_eq_true_eq, widthSigned_iff, and_assoc]

theorem remResult_eq (w : BitVec 2) (x y : Int) :
    remResult w x y = if y = 0 then x else if leastAt w < 0 ∧ x = leastAt w ∧ y = -1 then 0 else x - y * x.tdiv y := by
  simp only [remResult, widthLo_eq, Bool.and_eq_true, decide_eq_true_eq, widthSigned_iff, and_assoc]

theorem clampInt_width (w : BitVec 2) (v : Int) : clampInt v (widthLo w) (widthHi w) =
    if v < leastAt w then leastAt w else if v > greatestAt w then greatestAt w else v := by
  rw [clampInt, widthLo_eq, widthHi_eq]

theorem width_pos (w : BitVec 2) : 0 < width w := by
  unfold width; split <;> decide

theorem width_le (w : BitVec 2) : width w ≤ 64 := by
  unfold width; split <;> decide

/-! ### Counts of bits -/

theorem leadingZeros_eq_findIdx (n x : Nat) : leadingZeros n x = (List.range n).findIdx (fun i => bitOf x (n - 1 - i)) := by
  have hle := List.findIdx_le_length (p := fun i => bitOf x (n - 1 - i)) (xs := List.range n)
  simp only [leadingZeros, List.takeWhile_eq_take_findIdx_not, Bool.not_not, List.length_take]
  exact Nat.min_eq_left hle

theorem leadingZeros_le (n x : Nat) : leadingZeros n x ≤ n := by
  simpa [leadingZeros_eq_findIdx] using List.findIdx_le_length (p := fun i => bitOf x (n - 1 - i)) (xs := List.range n)

theorem bitOf_eq_testBit (x i : Nat) : bitOf x i = x.testBit i := by
  rw [Nat.testBit_eq_decide_div_mod_eq]
  rfl

/-- Above the first one there are zeros only. -/
theorem testBit_above_leadingZeros {n x k : Nat} (hk : n - leadingZeros n x ≤ k) : (x % 2 ^ n).testBit k = false := by
  rw [Nat.testBit_mod_two_pow]
  by_cases hn : k < n
  · have h : n - 1 - k < (List.range n).findIdx (fun i => bitOf x (n - 1 - i)) := by
      rw [← leadingZeros_eq_findIdx]
      omega
    have hbit := List.not_of_lt_findIdx h
    rw [List.getElem_range, show n - 1 - (n - 1 - k) = k by omega, bitOf_eq_testBit] at hbit
    simpa [hn] using hbit
  · simp [hn]

theorem testBit_at_leadingZeros {n x : Nat} (h : leadingZeros n x < n) : (x % 2 ^ n).testBit (n - 1 - leadingZeros n x) = true := by
  have hbit : bitOf x (n - 1 - leadingZeros n x) = true := by
    rw [leadingZeros_eq_findIdx] at h ⊢
    simpa using List.findIdx_getElem (w := Nat.lt_of_lt_of_eq h List.length_range.symm)
  rw [Nat.testBit_mod_two_pow, ← bitOf_eq_testBit, hbit]
  simp
  omega

/-- The count of leading zeros is how far a number falls short of its width. -/
theorem leadingZeros_spec (n x : Nat) : leadingZeros n x ≤ n ∧ x % 2 ^ n < 2 ^ (n - leadingZeros n x)
    ∧ (x % 2 ^ n ≠ 0 → 2 ^ (n - leadingZeros n x) ≤ 2 * (x % 2 ^ n)) ∧ (x % 2 ^ n = 0 → leadingZeros n x = n) := by
  have hle := leadingZeros_le n x
  have hlt : x % 2 ^ n < 2 ^ (n - leadingZeros n x) :=
    Nat.lt_pow_two_of_testBit _ (fun k hk => testBit_above_leadingZeros hk)
  refine ⟨hle, hlt, fun hne => ?_, fun hz => ?_⟩
  · have hc : leadingZeros n x < n := by
      refine hle.lt_of_ne (fun he => hne ?_)
      rw [he, Nat.sub_self] at hlt
      omega
    have hge := Nat.ge_two_pow_of_testBit (testBit_at_leadingZeros hc)
    rw [show n - leadingZeros n x = n - 1 - leadingZeros n x + 1 by omega, Nat.pow_succ]
    omega
  · by_contra hne
    have hbit := testBit_at_leadingZeros (hle.lt_of_ne hne)
    rw [hz, Nat.zero_testBit] at hbit
    cases hbit

theorem popCount_eq (n : Nat) (x : DWord) : popCount n x.toNat = ((List.range n).filter (fun k => x.getLsbD k)).length := by
  simp only [popCount, bitOf_toNat]

/-- Settles O7: each operation is its integer or its bits, cut to the width. -/
theorem integerOperationsGiveTheirResult : Obligations.IntegerOperationsGiveTheirResult := by
  refine ⟨?_, ?_, rfl⟩
  · intro s p w d a b h hp x y lo hi n
    have hw : (p != 3#2) = true := bne_iff_ne.mpr hp
    have hshift : shiftCount w (s.me.rd b) = n := by rw [shiftCount, widthBits_eq]
    have hx : operand w (s.me.rd a) = x := operand_eq w _
    refine ⟨?_, ?_, ?_, ?_, ?_, ?_, ?_, ?_, ?_, ?_, ?_, ?_, ?_, ?_, ?_, ?_⟩
    · exact gives_of_aluInt (f := (· + ·)) rfl hw h rfl
    · exact gives_of_aluInt (f := (· - ·)) rfl hw h rfl
    · exact gives_of_aluInt (f := (· * ·)) rfl hw h rfl
    · exact gives_of_aluInt (f := fun x y => x * y / (2 ^ widthBits w : Nat)) rfl hw h (by rw [widthBits_eq])
    · exact gives_of_aluInt rfl hw h (divResult_eq w x y)
    · exact gives_of_aluInt rfl hw h (remResult_eq w x y)
    · exact gives_of_aluInt (f := fun x y => if x ≤ y then x else y) rfl hw h rfl
    · exact gives_of_aluInt (f := fun x y => if y ≤ x then x else y) rfl hw h rfl
    · exact gives_of_aluInt (f := fun x y => clampInt (x + y) (widthLo w) (widthHi w)) rfl hw h (clampInt_width w _)
    · exact gives_of_aluInt (f := fun x y => clampInt (x - y) (widthLo w) (widthHi w)) rfl hw h (clampInt_width w _)
    · refine gives_of_regInstr (p := p) ?_ hw h
      rw [← hshift, ← hx]
      rfl
    · refine gives_of_regInstr (p := p) ?_ hw h
      rw [← hshift, ← hx]
      rfl
    · exact givesBits_of_aluBits (f := (· &&& ·)) rfl hw h (fun k _ => by simp)
    · exact givesBits_of_aluBits (f := (· ||| ·)) rfl hw h (fun k _ => by simp)
    · exact givesBits_of_aluBits (f := (· ^^^ ·)) rfl hw h (fun k _ => by simp)
    · exact givesBits_of_aluBits (f := fun x y => x &&& ~~~y) rfl hw h (fun k hk => by simp [hk])
  · intro s p w d a h hp W low
    have hW : widthBits w = W := widthBits_eq w
    have hw : (p != 3#2) = true := bne_iff_ne.mpr hp
    refine ⟨⟨leadingZeros W (s.me.rd a).toNat, ?_, leadingZeros_spec W _⟩,
      ⟨trailingZeros W (s.me.rd a).toNat, ?_, trailingZeros_le _ _, fun k hk => ?_, fun hc => ?_⟩, ?_⟩
    · refine gives_of_regInstr (p := p) ?_ hw h
      rw [← hW]
      rfl
    · refine gives_of_regInstr (p := p) ?_ hw h
      rw [← hW]
      rfl
    · rw [← bitOf_toNat]
      exact bitOf_of_lt_trailingZeros hk
    · rw [← bitOf_toNat]
      exact bitOf_trailingZeros hc
    · refine gives_of_regInstr (p := p) ?_ hw h
      rw [← popCount_eq, ← hW]
      rfl

end Sys2Proof.Machine
end

section
/-! SUPPORT. What every sequencer instruction is: an effect under its protection class, which no disturbance of an ALU chooses (R221, R386). -/

namespace Sys2Proof.Machine

/-- The state with given disturbances of the executing sequencer's ALUs. -/
def State.upset (s : State) (err : Vector DWord 3) : State := s.modMe (fun q => { q with aluErr := err })

@[simp] theorem State.upset_regs (s : State) (err : Vector DWord 3) (n : BitVec 5) : (s.upset err).me.rd n = s.me.rd n := by
  simp [State.upset, Seq.rd]

@[simp] theorem State.upset_pred (s : State) (err : Vector DWord 3) (n : BitVec 3) : (s.upset err).me.pred n = s.me.pred n := by
  simp [State.upset, Seq.pred]

@[simp] theorem State.upset_predByte (s : State) (err : Vector DWord 3) : (s.upset err).me.predByte = s.me.predByte := by
  simp [State.upset, Seq.predByte, Seq.pred]

@[simp] theorem State.upset_pc (s : State) (err : Vector DWord 3) : (s.upset err).me.pc = s.me.pc := by
  simp [State.upset]

/-- A word's instruction executes an effect under the class of the word, compared at one of the two points of R386. The effect is chosen by
what the sequencer's registers hold, not by a disturbance. -/
def RunsGuarded (i : Instr) : Prop :=
  ∀ w, encodeSeq i = some w → ∃ (point : Nat) (f : State → DWord → State → State), (point = 4 ∨ point = 5) ∧ (∀ s, exec i s = seqInstr i (fP w) point (f s) s)
    ∧ ∀ (s : State) (err : Vector DWord 3), f (s.upset err) = f s

theorem runsGuarded_of_none {i : Instr} (h : encodeSeq i = none) : RunsGuarded i := fun _ hw => nomatch h.symm.trans hw

theorem runsGuarded_of_some {i : Instr} {w : Word} {p : BitVec 2} {point : Nat} {f : State → DWord → State → State} (hw : encodeSeq i = some w)
    (hp : fP w = p) (hpoint : point = 4 ∨ point = 5) (hf : ∀ s, exec i s = seqInstr i p point (f s) s)
    (hup : ∀ (s : State) (err : Vector DWord 3), f (s.upset err) = f s) : RunsGuarded i := by
  intro v hv
  obtain rfl := Option.some.inj (hw.symm.trans hv)
  exact ⟨point, f, hpoint, fun s => hp ▸ hf s, hup⟩

theorem runsGuarded (i : Instr) : RunsGuarded i := by
  cases i
  case add | sub | mul | mulh | div | rem | min | max | adds | subs | and | or | xor | andn | shl | shr | clz | ctz | popc | pget | pset | sel =>
    refine runsGuarded_of_some rfl ?_ (.inl rfl) (fun s => rfl) ?_ <;> simp
  case cmpEq | cmpNe | cmpLt | cmpGe | pand | por | pxor | pandn | cmpiEq | cmpiLt | cmpiLtu =>
    refine runsGuarded_of_some rfl ?_ (.inl rfl) (fun s => rfl) ?_ <;> simp
  case addi | andi | ori | xori | shli | shrli | shrai | lui | lpc | beq | bne | blt | bge | bp | bnp | j | call | callr =>
    refine runsGuarded_of_some rfl ?_ (.inl rfl) (fun s => rfl) ?_ <;> simp
  case ld | st | ldOrdered | stOrdered | amoAdd | amoSwap | amoCas | fence | evAdd | waitAddr | waitAddrN64 | launch =>
    refine runsGuarded_of_some rfl ?_ (.inr rfl) (fun s => rfl) ?_ <;> simp
  case cfgLoad | cfgPart | cfgArm | cfgFire | cfgWait | cfgExit | cfgPick | cfgDrain | cfgSwap =>
    refine runsGuarded_of_some rfl ?_ (.inr rfl) (fun s => rfl) ?_ <;> simp
  case tokPut | rndEnd | rndGraph | rndRedo | engCopy | engDcmp | engVdec | engXfm =>
    refine runsGuarded_of_some rfl ?_ (.inr rfl) (fun s => rfl) ?_ <;> simp
  case trap | brk | eret | ifence | mfsy | mtsy =>
    refine runsGuarded_of_some rfl ?_ (.inl rfl) (fun s => rfl) ?_ <;> simp
  all_goals exact runsGuarded_of_none rfl

end Sys2Proof.Machine
end

section
/-! PROOF. Predicates, immediates, branches, traps and system registers (R226 to R234, R271, R272, R274, R181). -/

namespace Sys2Proof.Machine

/-! ### Sign-extended operands -/

theorem sextImm_eq_ofInt {n : Nat} (i : BitVec n) : sextImm i = BitVec.ofInt 64 i.toInt := rfl

theorem toInt_sextImm {n : Nat} (h : n ≤ 64) (i : BitVec n) : (sextImm i).toInt = i.toInt := BitVec.toInt_signExtend_of_le h

theorem toNat_ofInt64 (r : Int) : ((BitVec.ofInt 64 r).toNat : Int) = r % 2 ^ 64 := by
  rw [BitVec.toNat_ofInt]
  omega

theorem ofInt_add_toNat (a : DWord) (r : Int) : a + BitVec.ofInt 64 r = BitVec.ofInt 64 (a.toNat + r) := by
  rw [BitVec.ofInt_add, BitVec.ofInt_natCast, BitVec.ofNat_toNat, BitVec.setWidth_eq]

theorem ofInt_shiftLeft (r : Int) (k : Nat) : BitVec.ofInt 64 r <<< k = BitVec.ofInt 64 (r * 2 ^ k) := by
  rw [BitVec.shiftLeft_eq_mul_twoPow, BitVec.ofInt_mul]
  congr 1
  have hpow : BitVec.twoPow 64 k = BitVec.ofNat 64 (2 ^ k) := by
    apply BitVec.eq_of_toNat_eq
    rw [BitVec.toNat_twoPow, BitVec.toNat_ofNat]
  rw [hpow]
  exact_mod_cast (BitVec.ofInt_natCast 64 (2 ^ k)).symm

theorem branchTarget_eq_targetOf {n : Nat} (pc : DWord) (o : BitVec n) : branchTarget pc o = targetOf pc o.toInt := by
  rw [branchTarget, sextImm_eq_ofInt, ofInt_shiftLeft, ofInt_add_toNat, targetOf, Int.mul_comm]
  rfl

theorem meAddress_eq_addressOf (base : DWord) (z : BitVec 2) (o : BitVec 9) : meAddress base z o = addressOf base o (meBytes z) := by
  rw [meAddress, sextImm_eq_ofInt, ofInt_shiftLeft, ofInt_add_toNat, addressOf, meBytes, Nat.cast_pow, Nat.cast_ofNat]

/-! ### What the instructions of one shape do -/

section Shapes
variable {s : State} {i : Instr} {p : BitVec 2}

theorem exec_eq_wrote {d : BitVec 5} {v : DWord} (hexec : exec i s = regInstr i p d v s) (hw : i.wf = true) (h : Undisturbed s) :
    exec i s = .next (s.wrote d v) := hexec.trans (regInstr_undisturbed hw h p d v)

theorem exec_eq_wrotePred {d : BitVec 3} {v r : Bool} (hexec : exec i s = predInstr i p d v s) (hw : i.wf = true) (h : Undisturbed s)
    (hv : v = r) : exec i s = .next (s.wrotePred d r) := hv ▸ hexec.trans (predInstr_undisturbed hw h p d v)

theorem exec_eq_effect {point : Nat} {f : DWord → State → State} (hexec : exec i s = seqInstr i p point f s) (hw : i.wf = true)
    (h : Undisturbed s) : exec i s = .next (f 0#64 s) := hexec.trans (seqInstr_undisturbed hw h p point f)

end Shapes

/-! ### Conditions -/

theorem condition_eq (w : BitVec 2) (x y : DWord) : condition .eq w x y = decide (valueAt w x = valueAt w y)
    ∧ condition .ne w x y = decide (valueAt w x ≠ valueAt w y) ∧ condition .lt w x y = decide (valueAt w x < valueAt w y)
    ∧ condition .ge w x y = decide (valueAt w x ≥ valueAt w y) := by
  simp only [condition, operand_eq, ge_iff_le, and_self]

theorem branchCondition_eq (x y : DWord) : branchCondition .eq x y = decide (x = y) ∧ branchCondition .ne x y = decide (x ≠ y)
    ∧ branchCondition .lt x y = decide (x.toInt < y.toInt) ∧ branchCondition .ge x y = decide (y.toInt ≤ x.toInt) := by
  have hv : ∀ v, valueAt 0#2 v = v.toInt := fun _ => rfl
  simp only [branchCondition, condition_eq, hv, BitVec.toInt_inj, ne_eq, ge_iff_le, and_self]

theorem immEq_eq (a : DWord) (i : BitVec 14) : immEq a i = decide ((a.toNat : Int) = i.toInt % 2 ^ 64) := by
  rw [immEq, sextImm_eq_ofInt, ← toNat_ofInt64, beq_eq_decide]
  simp only [Int.natCast_inj, BitVec.toNat_inj]

theorem immLtu_eq (a : DWord) (i : BitVec 14) : immLtu a i = decide ((a.toNat : Int) < i.toInt % 2 ^ 64) := by
  rw [immLtu, sextImm_eq_ofInt, ← toNat_ofInt64]
  simp only [Int.ofNat_lt]

/-! ### The predicates as a byte -/

/-- A number put together from its bits has those bits and no others. -/
theorem sum_of_bits (b : Nat → Bool) (n : Nat) :
    (List.range n).foldl (fun acc i => acc + (if b i then 2 ^ i else 0)) 0 < 2 ^ n
      ∧ ∀ k, k < n → ((List.range n).foldl (fun acc i => acc + (if b i then 2 ^ i else 0)) 0).testBit k = b k := by
  induction n with
  | zero => simp
  | succ n ih =>
    rw [List.range_succ, List.foldl_append, List.foldl_cons, List.foldl_nil]
    revert ih
    generalize (List.range n).foldl (fun acc i => acc + (if b i then 2 ^ i else 0)) 0 = m
    rintro ⟨hlt, hbits⟩
    refine ⟨by split <;> omega, fun k hk => ?_⟩
    rcases Nat.lt_succ_iff_lt_or_eq.mp hk with h | rfl
    · rw [← hbits k h]
      split
      · rw [Nat.add_comm, Nat.testBit_two_pow_add_gt h]
      · rfl
    · split
      · next hb => rw [Nat.add_comm, Nat.testBit_two_pow_add_eq, Nat.testBit_lt_two_pow hlt, hb]; rfl
      · next hb => rw [Nat.add_zero, Nat.testBit_lt_two_pow hlt]; simpa using hb

theorem Seq.predByte_lt (q : Seq) : q.predByte < 256 := (sum_of_bits (fun i => q.pred (BitVec.ofNat 3 i)) 8).1

theorem Seq.testBit_predByte (q : Seq) {k : Nat} (h : k < 8) : q.predByte.testBit k = q.pred (BitVec.ofNat 3 k) :=
  (sum_of_bits (fun i => q.pred (BitVec.ofNat 3 i)) 8).2 k h

theorem Seq.advance_setPreds (q : Seq) (v : DWord) :
    (q.setPreds v).advance = { q with preds := (q.setPreds v).preds, pc := q.pc + 4#64 } := rfl

theorem Seq.pred_setPreds (q : Seq) (v : DWord) {k : Nat} (h : 1 ≤ k) (hk : k < 8) : (q.setPreds v).pred (BitVec.ofNat 3 k) = v.getLsbD k := by
  interval_cases k <;> simp [Seq.setPreds, Seq.wrPred, Seq.pred]

theorem exec_pset {s : State} {p : BitVec 2} {x : BitVec 5} (hw : (Instr.pset p x).wf = true) (h : Undisturbed s) :
    exec (.pset p x) s =
      .next (s.modMe (fun m => { m with preds := (s.me.setPreds (s.me.rd x)).preds, pc := m.pc + 4#64 })) := by
  rw [exec_eq_effect rfl hw h, BitVec.xor_zero]
  exact congrArg Host.Outcome.next (State.modMe_congr _ _ _ (Seq.advance_setPreds _ _))

/-- Settles O8: every compare and every logic instruction is one write of a predicate, with the condition that the statement names. -/
theorem predicatesAndSelectGiveTheirResult : Obligations.PredicatesAndSelectGiveTheirResult := by
  refine ⟨?_, ?_, ?_⟩
  · intro s p w d a b i h hp x y
    have hw : (p != 3#2) = true := bne_iff_ne.mpr hp
    obtain ⟨heq, hne, hlt, hge⟩ := condition_eq w (s.me.rd a) (s.me.rd b)
    refine ⟨?_, ?_, ?_, ?_, ?_, ?_, ?_⟩
    · exact exec_eq_wrotePred rfl hw h heq
    · exact exec_eq_wrotePred rfl hw h hne
    · exact exec_eq_wrotePred rfl hw h hlt
    · exact exec_eq_wrotePred rfl hw h hge
    · exact exec_eq_wrotePred rfl hw h (immEq_eq _ i)
    · exact exec_eq_wrotePred rfl hw h rfl
    · exact exec_eq_wrotePred rfl hw h (immLtu_eq _ i)
  · intro s p d q r x h hp
    have hw : (p != 3#2) = true := bne_iff_ne.mpr hp
    refine ⟨exec_eq_wrotePred rfl hw h rfl, exec_eq_wrotePred rfl hw h rfl, ?_, exec_eq_wrotePred rfl hw h rfl,
      ⟨_, exec_eq_wrote rfl hw h, ?_, ?_, fun k hk => ?_⟩, ⟨_, exec_pset hw h, ?_, ?_, fun k hk hk8 => ?_⟩⟩
    · exact exec_eq_wrotePred rfl hw h rfl
    · have hlt := s.me.predByte_lt
      rw [BitVec.toNat_ofNat]
      omega
    · rw [BitVec.getLsbD_ofNat, s.me.testBit_predByte (by decide)]
      rfl
    · rw [BitVec.getLsbD_ofNat, s.me.testBit_predByte hk]
      simp
      omega
    · rw [State.modMe_me]
    · rfl
    · rw [State.modMe_me]
      exact Seq.pred_setPreds s.me _ hk hk8
  · intro s p d a b q h hp
    have hw : (p != 3#2) = true := bne_iff_ne.mpr hp
    have hsel (q : BitVec 3) : exec (.sel p d a b q) s = .next (s.wrote d (if s.me.pred q then s.me.rd a else s.me.rd b)) :=
      exec_eq_wrote rfl hw h
    exact ⟨fun hq => by rw [hsel, hq]; rfl, fun hq => by rw [hsel, hq]; rfl, hsel 0#3⟩

theorem toInt_luValue (i : BitVec 19) : (luValue i).toInt = 8192 * i.toInt := by
  rw [luValue, BitVec.toInt_signExtend_of_le (by decide), BitVec.toInt_append_zero]
  rfl

theorem luValue_eq_ofInt (i : BitVec 19) : luValue i = BitVec.ofInt 64 (8192 * i.toInt) := by
  rw [← toInt_luValue, BitVec.ofInt_toInt]

/-- Settles O9: every immediate form is one write of a register; what is left is the value of the extended immediate. -/
theorem immediateFormsGiveTheirResult : Obligations.ImmediateFormsGiveTheirResult := by
  refine ⟨?_, ?_⟩
  · intro s p d a i n h hp x
    have hw : (p != 3#2) = true := bne_iff_ne.mpr hp
    refine ⟨⟨_, exec_eq_wrote rfl hw h, ?_⟩, ⟨_, exec_eq_wrote rfl hw h, fun k hk => ?_⟩,
      ⟨_, exec_eq_wrote rfl hw h, fun k hk => ?_⟩, ⟨_, exec_eq_wrote rfl hw h, fun k hk => ?_⟩,
      ⟨_, exec_eq_wrote rfl hw h, ?_⟩, ⟨_, exec_eq_wrote rfl hw h, ?_⟩, ⟨_, exec_eq_wrote rfl hw h, ?_⟩⟩
    · rw [sextImm_eq_ofInt, ofInt_add_toNat, toNat_ofInt64]
    · simp [zextImm, hk, x]
    · simp [zextImm, hk, x]
    · simp [zextImm, hk, x]
    · rw [BitVec.toNat_shiftLeft, Nat.shiftLeft_eq]
    · rw [BitVec.toNat_ushiftRight, Nat.shiftRight_eq_div_pow]
    · rw [BitVec.toInt_sshiftRight, Int.shiftRight_eq_div_pow]
      rfl
  · intro s p d i h hp
    have hw : (p != 3#2) = true := bne_iff_ne.mpr hp
    refine ⟨⟨_, exec_eq_wrote rfl hw h, toInt_luValue i⟩, ⟨_, exec_eq_wrote rfl hw h, ?_⟩⟩
    rw [luValue_eq_ofInt, ofInt_add_toNat, toNat_ofInt64]

/-- Settles O10: every branch is one choice of the pc, between the target and the next instruction. -/
theorem branchesGoWhereTheirConditionSays : Obligations.BranchesGoWhereTheirConditionSays := by
  intro s p a b c o o20 o24 h hp pc go
  have hw : (p != 3#2) = true := bne_iff_ne.mpr hp
  have hgo {i : Instr} {n : Nat} (hi : i.wf = true) (taken : Bool) (x : BitVec n) :
      branchInstr i p taken (branchTarget s.me.pc x) s = .next (go taken x.toInt) := by
    rw [branchInstr_undisturbed hi h, branchTarget_eq_targetOf]
  obtain ⟨heq, hne, hlt, hge⟩ := branchCondition_eq (s.me.rd a) (s.me.rd b)
  refine ⟨?_, ?_, ?_, ?_, hgo (i := .bp p c o20) hw _ o20, hgo (i := .bnp p c o20) hw _ o20, hgo (i := .j p o24) hw true o24, ?_, ?_, ?_, ?_, ?_, ?_⟩
  · exact heq ▸ hgo (i := .beq p a b o) hw _ o
  · exact hne ▸ hgo (i := .bne p a b o) hw _ o
  · exact hlt ▸ hgo (i := .blt p a b o) hw _ o
  · exact hge ▸ hgo (i := .bge p a b o) hw _ o
  all_goals exact sequencerWordsRoundTrip.1 _ _ hw rfl

end Sys2Proof.Machine
end

section
/-! PROOF. Calls, traps, system registers and reserved fields (R234, R271, R272, R274, R181). -/

namespace Sys2Proof.Machine

theorem dword_low_bits (v : DWord) : v.extractLsb' 0 2 ≠ 0#2 ↔ v.toNat % 4 ≠ 0 := by
  rw [← not_iff_not, not_not, not_not, ← BitVec.toNat_inj]
  simp

/-! ### Illegal instructions -/

theorem wordTval_of_encodeSeq {i : Instr} {w : Word} (hw : encodeSeq i = some w) : wordTval i = w.setWidth 64 := by
  rw [wordTval, hw, Option.getD_some]

theorem State.illegal_entered (s : State) {i : Instr} {w : Word} (hw : encodeSeq i = some w) : Entered s (s.illegal i) 1 (w.setWidth 64) :=
  wordTval_of_encodeSeq hw ▸ s.trapMe_entered 1 (wordTval i)

theorem traps_of_illegal {s : State} {i : Instr} {w : Word} (hexec : exec i s = .next (s.illegal i)) (hw : encodeSeq i = some w) :
    Traps i s 1 (w.setWidth 64) := ⟨_, hexec, s.illegal_entered hw⟩

/-- An instruction that is illegal traps with its word, which has 32 bits. -/
theorem exists_traps_of_illegal {s : State} {i : Instr} {w : Word} (hexec : exec i s = .next (s.illegal i)) (hw : encodeSeq i = some w) :
    ∃ v, Traps i s 1 v ∧ encodeSeq i = some (v.setWidth 32) ∧ v.toNat < 2 ^ 32 := by
  refine ⟨_, traps_of_illegal hexec hw, ?_, ?_⟩
  · rw [hw, BitVec.setWidth_setWidth_of_le _ (by decide), BitVec.setWidth_eq]
  · rw [BitVec.toNat_setWidth_of_le (by decide)]
    exact w.isLt

/-- Fields that break R181 trap, whatever the instruction. -/
theorem traps_of_not_wf {s : State} {i : Instr} {w : Word} (h : Undisturbed s) (hw : encodeSeq i = some w) (hwf : i.wf = false) :
    Traps i s 1 (w.setWidth 64) := by
  obtain ⟨point, f, -, hexec, -⟩ := runsGuarded i w hw
  exact traps_of_illegal ((hexec s).trans (seqInstr_illegal hwf h _ _ _)) hw

/-- Settles O11: callr looks at the low bits of its target before it writes anything, the others always jump. -/
theorem callsLinkAndJump : Obligations.CallsLinkAndJump := by
  intro s p d a i o h hp t
  have hw : (p != 3#2) = true := bne_iff_ne.mpr hp
  have ht : s.me.rd a + sextImm i = t := by rw [sextImm_eq_ofInt, ofInt_add_toNat]
  have hcallr : exec (.callr p d a i) s = .next (if t.extractLsb' 0 2 ≠ 0#2 then s.trapMe 2 t
      else s.modMe (fun q => { q.wr d (s.me.pc + 4#64) with pc := t })) := by
    rw [exec_eq_effect (i := .callr p d a i) rfl hw h, ht]
    simp [errPc]
  refine ⟨?_, ?_, fun hmod => ?_, fun hmod => ?_, ?_, ?_, ?_⟩
  · exact (branchesGoWhereTheirConditionSays s p a a 0#3 i 0#20 o h hp).2.2.2.2.2.2.1
  · rw [exec_eq_effect (i := .call p o) rfl hw h]
    simp [errPc, branchTarget_eq_targetOf, State.jumped, State.wrote, Seq.wr]
  · rw [hcallr, if_neg (by rw [dword_low_bits]; exact not_not.mpr hmod)]
    refine congrArg Host.Outcome.next ?_
    rw [State.jumped, State.wrote, State.modMe_modMe]
    refine State.modMe_congr _ _ _ ?_
    unfold Seq.wr
    split <;> rfl
  · rw [Traps, hcallr, if_pos ((dword_low_bits t).mpr hmod)]
    exact ⟨_, rfl, s.trapMe_entered 2 t⟩
  all_goals exact sequencerWordsRoundTrip.1 _ _ hw rfl

/-! ### The status register -/

theorem statusOf_fields (a b c : Bool) : (statusOf a b c).getLsbD 0 = c ∧ (statusOf a b c).getLsbD 1 = b ∧ (statusOf a b c).getLsbD 2 = a := by
  revert a b c
  decide

theorem statusOf_getLsbD (v : DWord) : statusOf (v.getLsbD 2) (v.getLsbD 1) (v.getLsbD 0) = v &&& 7#64 := by
  have hstatus : ∀ (a b c : Bool) (k : Fin 64),
      (statusOf a b c).getLsbD k.val = if k.val = 0 then c else if k.val = 1 then b else if k.val = 2 then a else false := by decide
  have hseven : ∀ k : Fin 64, (7#64).getLsbD k.val = decide (k.val < 3) := by decide
  apply BitVec.eq_of_getLsbD_eq
  intro k hk
  rw [BitVec.getLsbD_and, hseven ⟨k, hk⟩, hstatus _ _ _ ⟨k, hk⟩]
  match k with
  | 0 | 1 | 2 | k + 3 => simp

/-- Settles O12: trap and brk are entries with their code and immediate, and eret is illegal or one change of the sequencer. -/
theorem trapsEnterAndReturn : Obligations.TrapsEnterAndReturn := by
  refine ⟨fun s p i h hp => ?_, fun s p h hp => ?_⟩
  · have hw : (p != 3#2) = true := bne_iff_ne.mpr hp
    have hi : zextImm i = BitVec.ofNat 64 i.toNat := (BitVec.ofNat_toNat 64 i).symm
    exact ⟨⟨_, exec_eq_effect (i := .trap p i) rfl hw h, hi ▸ s.trapMe_entered 6 _⟩, ⟨_, exec_eq_effect (i := .brk p i) rfl hw h, hi ▸ s.trapMe_entered 5 _⟩⟩
  · have hw : (p != 3#2) = true := bne_iff_ne.mpr hp
    have hexec : exec (.eret p) s = .next (if s.me.sv then s.modMe Seq.eret else s.illegal (.eret p)) := exec_eq_effect (i := .eret p) rfl hw h
    refine ⟨fun hsv => ?_, fun hsv => ?_⟩
    · rw [if_pos hsv] at hexec
      obtain ⟨hsv', hpsv', hstep'⟩ := statusOf_fields s.me.step s.me.psv s.me.psv
      refine ⟨_, hexec, ?_⟩
      rw [State.modMe_me]
      exact ⟨State.modMe_congr _ _ _ rfl, rfl, hsv', hpsv', hstep', rfl, rfl, rfl, rfl, rfl, rfl, rfl, rfl, rfl, rfl⟩
    · rw [if_neg (by simp [hsv])] at hexec
      exact exists_traps_of_illegal hexec rfl

/-! ### System registers -/

section SystemRegisters
variable {s : State} {p : BitVec 2} {d a : BitVec 5} {n : BitVec 14} {r : SysReg}

theorem exec_mfsy (h : Undisturbed s) (hw : (Instr.mfsy p d n).wf = true) (hr : sysRegOf n.toNat = some r)
    (hread : (s.me.sv || r.userRead) = true) : exec (.mfsy p d n) s = .next (s.wrote d (s.sysRead s.cur r)) := by
  rw [exec_eq_effect (i := .mfsy p d n) rfl hw h]
  simp only [hr, hread, if_true, BitVec.xor_zero, State.writeBack_eq]

theorem exec_mfsy_illegal (h : Undisturbed s) (hw : (Instr.mfsy p d n).wf = true) (hr : sysRegOf n.toNat = some r)
    (hread : (s.me.sv || r.userRead) = false) : exec (.mfsy p d n) s = .next (s.illegal (.mfsy p d n)) := by
  rw [exec_eq_effect (i := .mfsy p d n) rfl hw h]
  simp only [hr, hread, Bool.false_eq_true, if_false]

theorem exec_mtsy (h : Undisturbed s) (hw : (Instr.mtsy p a n).wf = true) (hr : sysRegOf n.toNat = some r)
    (hwrite : (s.me.sv && r.writable) = true) :
    exec (.mtsy p a n) s = .next (s.modMe (fun q => (q.sysWrite r (q.rd a)).advance)) := by
  rw [exec_eq_effect (i := .mtsy p a n) rfl hw h]
  simp only [hr, hwrite, if_true, BitVec.xor_zero]

theorem exec_mtsy_illegal (h : Undisturbed s) (hw : (Instr.mtsy p a n).wf = true) (hr : sysRegOf n.toNat = some r)
    (hwrite : (s.me.sv && r.writable) = false) : exec (.mtsy p a n) s = .next (s.illegal (.mtsy p a n)) := by
  rw [exec_eq_effect (i := .mtsy p a n) rfl hw h]
  simp only [hr, hwrite, Bool.false_eq_true, if_false]

end SystemRegisters

theorem sysRegOf_brk (k : Fin 8) : sysRegOf (BitVec.ofNat 14 (0x10 + k.val)).toNat = some (.brk k) ∧ sysReadable (BitVec.ofNat 14 (0x10 + k.val)) = true
    ∧ sysWritable (BitVec.ofNat 14 (0x10 + k.val)) = true := by
  revert k
  decide

/-- Settles O13: one lemma for a read and one for a write of any register, used for each register at each privilege. -/
theorem systemRegistersReadAndWrite : Obligations.SystemRegistersReadAndWrite := by
  refine ⟨?_, ?_⟩
  · intro s p d h hp reads privileged
    have hwf {n : BitVec 14} (hn : sysReadable n = true) : (Instr.mfsy p d n).wf = true := by simpa [Instr.wf, hn] using hp
    have hpriv {n : BitVec 14} {r : SysReg} (hr : sysRegOf n.toNat = some r) (hn : sysReadable n = true) (hu : r.userRead = false) :
        privileged n (s.sysRead s.cur r) := by
      refine ⟨fun hsv => exec_mfsy h (hwf hn) hr (by rw [hsv, Bool.true_or]), fun hsv => ?_⟩
      obtain ⟨w, ht, he, -⟩ := exists_traps_of_illegal (exec_mfsy_illegal h (hwf hn) hr (by rw [hsv, hu, Bool.or_false])) rfl
      exact ⟨w, ht, he⟩
    have huser {n : BitVec 14} {r : SysReg} (hr : sysRegOf n.toNat = some r) (hn : sysReadable n = true) (hu : r.userRead = true) :
        reads n (s.sysRead s.cur r) := exec_mfsy h (hwf hn) hr (by rw [hu, Bool.or_true])
    refine ⟨hpriv (r := .status) rfl rfl rfl, hpriv (r := .epc) rfl rfl rfl, hpriv (r := .cause) rfl rfl rfl, hpriv (r := .tval) rfl rfl rfl,
      hpriv (r := .vbase) rfl rfl rfl, hpriv (r := .scratch) rfl rfl rfl, huser (r := .cycle) rfl rfl rfl, huser (r := .time) rfl rfl rfl,
      huser (r := .tile) rfl rfl rfl, huser (r := .part) rfl rfl rfl, huser (r := .ctx) rfl rfl rfl, fun k => ?_⟩
    obtain ⟨hr, hn, -⟩ := sysRegOf_brk k
    exact hpriv (r := .brk k) hr hn rfl
  · intro s p a h hp v writes
    have hwf {n : BitVec 14} (hn : sysWritable n = true) : (Instr.mtsy p a n).wf = true := by simpa [Instr.wf, hn] using hp
    have hwrites {n : BitVec 14} {r : SysReg} {f : Seq → Seq} (hr : sysRegOf n.toNat = some r) (hn : sysWritable n = true)
        (hu : r.writable = true) (hf : (s.me.sysWrite r v).advance = { f s.me with pc := s.me.pc + 4#64 }) : writes n f := by
      refine ⟨fun hsv => ?_, fun hsv => ?_⟩
      · rw [exec_mtsy h (hwf hn) hr (by rw [hsv, hu, Bool.and_true])]
        exact congrArg Host.Outcome.next (State.modMe_congr _ _ _ hf)
      · obtain ⟨w, ht, he, -⟩ := exists_traps_of_illegal (exec_mtsy_illegal h (hwf hn) hr (by rw [hsv, Bool.false_and])) rfl
        exact ⟨w, ht, he⟩
    refine ⟨hwrites (r := .status) rfl rfl rfl ?_, hwrites (r := .epc) rfl rfl rfl rfl, hwrites (r := .cause) rfl rfl rfl rfl,
      hwrites (r := .tval) rfl rfl rfl rfl, hwrites (r := .vbase) rfl rfl rfl rfl, hwrites (r := .scratch) rfl rfl rfl rfl,
      hwrites (r := .ctx) rfl rfl rfl rfl, fun k => ?_⟩
    · rw [Seq.sysWrite, statusOf_getLsbD]
      rfl
    · obtain ⟨hr, -, hn⟩ := sysRegOf_brk k
      exact hwrites (r := .brk k) hr hn rfl rfl

theorem sysReadable_eq_false {n : BitVec 14} (h : 0x00A < n.toNat) (hn : n.toNat < 0x010 ∨ 0x017 < n.toNat) : sysReadable n = false := by
  simp only [sysReadable, Bool.or_eq_false_iff, Bool.and_eq_false_iff, decide_eq_false_iff_not]
  omega

theorem sysWritable_eq_false {n : BitVec 14} (h : 0x00A < n.toNat) (hn : n.toNat < 0x010 ∨ 0x017 < n.toNat) : sysWritable n = false := by
  simp only [sysWritable, Bool.or_eq_false_iff, Bool.and_eq_false_iff, decide_eq_false_iff_not, beq_eq_false_iff_ne]
  omega

/-- Settles O14: an instruction that breaks its table is judged illegal before it has an effect. -/
theorem reservedFieldsAreIllegal : Obligations.ReservedFieldsAreIllegal := by
  refine ⟨fun s i w h hw hwf => traps_of_not_wf h hw hwf, fun s i w h hw hc => ?_, fun s p d a n h => ⟨fun hlo hn => ?_, fun hn => ?_⟩⟩
  · exact traps_of_not_wf h hw (Bool.eq_false_iff.mpr (fun hwf => class_of_encodeSeq hw hwf hc))
  · exact ⟨_, rfl, traps_of_not_wf h rfl (by simp [Instr.wf, sysReadable_eq_false hlo hn])⟩
  · have hw : sysWritable n = false := by
      rcases hn with rfl | rfl | rfl | rfl | ⟨hlo, hn⟩
      · rfl
      · rfl
      · rfl
      · rfl
      · exact sysWritable_eq_false hlo hn
    exact ⟨_, rfl, traps_of_not_wf h rfl (by simp [Instr.wf, hw])⟩

end Sys2Proof.Machine
end

section
/-! SUPPORT. What accesses to memory and the records that they leave do not change: everything but memory, its caches and its errors, the
scratchpads, the rings of the partitions and their messages (R128, R240, R374, R453). -/

namespace Sys2Proof.Machine

/-! ### Memory and what it caches -/

/-- The part of the state that an access to memory can change: memory with its errors, the caches in front of it, the counts of hot pages
and the free choices drawn. -/
structure MemorySide where
  mem : Memory
  tags : Sparse (BitVec 4)
  ecc : List Nat
  l2ecc : List Nat
  poisoned : List Nat
  unlogged : List (Nat × Half × Nat)
  tlb : List TlbEntry
  l2 : List Nat
  xcache : List Nat
  free : Nat
  hot : List HotPage

/-- A state with its memory side replaced. -/
def State.setMemory (s : State) (m : MemorySide) : State :=
  { s with
    mem := m.mem, tags := m.tags, ecc := m.ecc, l2ecc := m.l2ecc, poisoned := m.poisoned, unlogged := m.unlogged, tlb := m.tlb, l2 := m.l2
    xcache := m.xcache, free := m.free, hot := m.hot }

/-- Nothing but the memory side differs. -/
def State.MemoryOnly (s v : State) : Prop := ∃ m, v = s.setMemory m

section
variable {s v w : State}

theorem State.MemoryOnly.refl (s : State) : s.MemoryOnly s := ⟨⟨_, _, _, _, _, _, _, _, _, _, _⟩, rfl⟩

theorem State.MemoryOnly.trans (h : s.MemoryOnly v) (h' : v.MemoryOnly w) : s.MemoryOnly w := by
  obtain ⟨m, rfl⟩ := h
  obtain ⟨m', rfl⟩ := h'
  exact ⟨m', rfl⟩

theorem State.memoryOnly_fillL2 (s : State) (line : Nat) : s.MemoryOnly (s.fillL2 line) := by
  unfold State.fillL2
  split
  · exact .refl s
  · exact ⟨⟨_, _, _, _, _, _, _, _, _, _, _⟩, rfl⟩

theorem State.memoryOnly_touchL2 (s : State) (a n : Nat) : s.MemoryOnly (s.touchL2 a n) :=
  List.foldlRecOn (motive := s.MemoryOnly) _ _ (.refl s) (fun v hv l _ => hv.trans (v.memoryOnly_fillL2 l))

theorem State.memoryOnly_linesMet (s : State) (ls : List Nat) : s.MemoryOnly (s.linesMet ls) := ⟨⟨_, _, _, _, _, _, _, _, _, _, _⟩, rfl⟩

theorem State.memoryOnly_eccMet (s : State) (a n : Nat) : s.MemoryOnly (s.eccMet a n) := s.memoryOnly_linesMet _

theorem State.memoryOnly_blockForWrite (s : State) (b : Nat) : s.MemoryOnly (s.blockForWrite b).2 := by
  unfold State.blockForWrite
  split
  · exact .refl s
  · exact ⟨⟨_, _, _, _, _, _, _, _, _, _, _⟩, rfl⟩

theorem State.memoryOnly_physWriteByte (s : State) (comp : Bool) (a : Nat) (b : Byte) : s.MemoryOnly (s.physWriteByte comp a b) := by
  unfold State.physWriteByte
  split
  · exact ⟨⟨_, _, _, _, _, _, _, _, _, _, _⟩, rfl⟩
  · refine (s.memoryOnly_blockForWrite (a / 256)).trans ?_
    split <;> exact ⟨⟨_, _, _, _, _, _, _, _, _, _, _⟩, rfl⟩

theorem State.memoryOnly_physWrite (s : State) (comp : Bool) (a : Nat) (bs : List Byte) : s.MemoryOnly (s.physWrite comp a bs) := by
  induction bs generalizing s a with
  | nil => exact .refl s
  | cons b bs ih => exact (s.memoryOnly_physWriteByte comp a b).trans (ih _ _)

theorem State.memoryOnly_leafFor (s : State) (g : Agent) (va : Nat) (acc : Access) : s.MemoryOnly (s.leafFor g va acc).2.2 := by
  unfold State.leafFor
  split
  · exact .refl s
  · dsimp only
    split_ifs
    · exact .refl s
    · exact .refl s
    · exact ⟨⟨_, _, _, _, _, _, _, _, _, _, _⟩, rfl⟩
    · exact ⟨⟨_, _, _, _, _, _, _, _, _, _, _⟩, rfl⟩

theorem State.memoryOnly_markPoisoned (s : State) (table : Nat) : s.MemoryOnly (s.markPoisoned table) :=
  ⟨⟨_, _, _, _, _, _, _, _, _, _, _⟩, rfl⟩

theorem State.memoryOnly_cacheLeaf (s : State) (g : Agent) (va : Nat) (l : Leaf) (e : DWord) : s.MemoryOnly (s.cacheLeaf g va l e) :=
  ⟨⟨_, _, _, _, _, _, _, _, _, _, _⟩, rfl⟩

theorem State.memoryOnly_translate (s : State) (g : Agent) (va : Nat) (acc : Access) : s.MemoryOnly (s.translate g va acc).2 := by
  have hleaf := s.memoryOnly_leafFor g va acc
  unfold State.translate
  generalize s.leafFor g va acc = w at hleaf
  obtain ⟨l | _ | table, fromTlb, s1⟩ := w
  · dsimp only
    split
    · exact hleaf
    · split
      · exact hleaf
      · refine hleaf.trans (.trans ?_ (State.memoryOnly_cacheLeaf _ _ _ _ _))
        split
        · exact .refl s1
        · exact s1.memoryOnly_physWriteByte _ _ _
  · exact hleaf
  · exact hleaf.trans ((s1.memoryOnly_eccMet _ _).trans (State.memoryOnly_markPoisoned _ table))

theorem State.memoryOnly_leafErr (s : State) (l : Leaf) (va n : Nat) : s.MemoryOnly (s.leafErr l va n).2 := by
  unfold State.leafErr
  dsimp only
  split <;> exact s.memoryOnly_linesMet _

theorem State.memoryOnly_virtRead (s : State) (g : Agent) (va n : Nat) (acc : Access) : s.MemoryOnly (s.virtRead g va n acc).2 := by
  have htr := s.memoryOnly_translate g va acc
  unfold State.virtRead
  generalize s.translate g va acc = x at htr
  obtain ⟨⟨pa, l⟩ | _ | _, s1⟩ := x
  · dsimp only
    split
    · exact htr
    · split
      · exact htr.trans (s1.memoryOnly_leafErr _ _ _)
      · refine htr.trans (.trans ?_ (State.memoryOnly_touchL2 _ _ _))
        split
        · exact ⟨⟨_, _, _, _, _, _, _, _, _, _, _⟩, rfl⟩
        · exact .refl s1
  · exact htr
  · exact htr

theorem State.memoryOnly_virtWrite (s : State) (g : Agent) (va : Nat) (bs : List Byte) : s.MemoryOnly (s.virtWrite g va bs).2 := by
  have htr := s.memoryOnly_translate g va .write
  unfold State.virtWrite
  generalize s.translate g va .write = x at htr
  obtain ⟨⟨pa, l⟩ | _ | _, s1⟩ := x
  · exact htr.trans ((s1.memoryOnly_physWrite _ _ _).trans (State.memoryOnly_touchL2 _ _ _))
  · exact htr
  · exact htr

theorem State.memoryOnly_virtWriteAll (s : State) (g : Agent) (va : Nat) (bs : List Byte) : s.MemoryOnly (s.virtWriteAll g va bs).2 := by
  induction bs generalizing s va with
  | nil => exact .refl s
  | cons b bs ih =>
    have hw := s.memoryOnly_virtWrite g va [b]
    unfold State.virtWriteAll
    generalize s.virtWrite g va [b] = x at hw
    obtain ⟨_ | _ | _, s1⟩ := x
    · exact hw.trans (ih s1 _)
    · exact hw
    · exact hw.trans ⟨⟨_, _, _, _, _, _, _, _, _, _, _⟩, rfl⟩

theorem State.memoryOnly_errSyndrome (s : State) (e : MemErr) : s.MemoryOnly (s.errSyndrome e).2 := by
  unfold State.errSyndrome
  split
  · exact .refl s
  · exact ⟨⟨_, _, _, _, _, _, _, _, _, _, _⟩, rfl⟩

theorem State.memoryOnly_countHot (s : State) (g : Agent) (va : Nat) (acc : Access) : s.MemoryOnly (s.countHot g va acc) := by
  unfold State.countHot
  split
  · split
    · split <;> exact ⟨⟨_, _, _, _, _, _, _, _, _, _, _⟩, rfl⟩
    · exact .refl s
  · exact .refl s

end

/-! ### Records in the rings -/

/-- Nothing but its rings differs of a partition. -/
def Part.RingsOnly (x y : Part) : Prop := ∃ cr fr el, y = { x with cr := cr, fr := fr, el := el }

theorem Part.RingsOnly.refl (x : Part) : x.RingsOnly x := ⟨_, _, _, rfl⟩

theorem Part.RingsOnly.trans {x y z : Part} (h : x.RingsOnly y) (h' : y.RingsOnly z) : x.RingsOnly z := by
  obtain ⟨_, _, _, rfl⟩ := h
  obtain ⟨_, _, _, rfl⟩ := h'
  exact ⟨_, _, _, rfl⟩

theorem Part.ringsOnly_setRing (x : Part) (n : RingName) (r : Ring) : x.RingsOnly (x.setRing n r) := by
  cases n <;> exact ⟨_, _, _, rfl⟩

/-- Nothing but the memory side, the scratchpads, the rings of the partitions and the messages sent differs: what the accesses of a
sequencer and the records of what they met leave. -/
def State.Accessed (s v : State) : Prop :=
  (∃ m ms ps x, v = { s.setMemory m with mtiles := ms, parts := ps, msix := x }) ∧ ∀ q, (s.part q).RingsOnly (v.part q)

section
variable {s v w : State}

theorem State.MemoryOnly.accessed (h : s.MemoryOnly v) : s.Accessed v := by
  obtain ⟨m, rfl⟩ := h
  exact ⟨⟨m, _, _, _, rfl⟩, fun q => .refl _⟩

theorem State.Accessed.refl (s : State) : s.Accessed s := (State.MemoryOnly.refl s).accessed

theorem State.Accessed.trans (h : s.Accessed v) (h' : v.Accessed w) : s.Accessed w := by
  obtain ⟨⟨m, ms, ps, x, rfl⟩, hq⟩ := h
  obtain ⟨⟨m', ms', ps', x', rfl⟩, hq'⟩ := h'
  exact ⟨⟨m', ms', ps', x', rfl⟩, fun q => (hq q).trans (hq' q)⟩

theorem State.accessed_modPart (s : State) (p : Fin 16) (f : Part → Part) (hf : (s.part p).RingsOnly (f (s.part p))) :
    s.Accessed (s.modPart p f) := by
  refine ⟨⟨⟨_, _, _, _, _, _, _, _, _, _, _⟩, _, _, _, rfl⟩, fun q => ?_⟩
  by_cases h : p = q
  · subst h
    rw [State.modPart_part_self]
    exact hf
  · rw [State.modPart_part_ne s p q f h]
    exact .refl _

theorem State.accessed_modMTile (s : State) (m : Nat) (f : MTile → MTile) : s.Accessed (s.modMTile m f) :=
  ⟨⟨⟨_, _, _, _, _, _, _, _, _, _, _⟩, _, _, _, rfl⟩, fun _ => .refl _⟩

theorem State.accessed_ringMessage (s : State) (p : Fin 16) (n : RingName) : s.Accessed (s.ringMessage p n) := by
  have h : s.Accessed (s.modPart p (fun x => x.setRing n { (s.part p).ring n with sinceMsg := 0, lastMsg := s.ns })) :=
    s.accessed_modPart p _ (Part.ringsOnly_setRing _ _ _)
  exact h.trans ⟨⟨⟨_, _, _, _, _, _, _, _, _, _, _⟩, _, _, _, rfl⟩, fun _ => .refl _⟩

theorem State.accessed_ringWrite (s : State) (p : Fin 16) (n : RingName) (bytes : List Byte) : s.Accessed (s.ringWrite p n bytes) := by
  have hwrites (g : Agent) (va va' : Nat) (bs bs' : List Byte) : s.Accessed ((s.virtWriteAll g va bs).2.virtWriteAll g va' bs').2 :=
    ((s.memoryOnly_virtWriteAll g va bs).trans (State.memoryOnly_virtWriteAll _ g va' bs')).accessed
  have htail (u : State) (r : Ring) : u.Accessed (u.modPart p (fun x => x.setRing n r)) :=
    u.accessed_modPart p _ (Part.ringsOnly_setRing _ n r)
  unfold State.ringWrite
  dsimp only
  split
  · exact (hwrites _ _ _ _ _).trans ((htail _ _).trans (State.accessed_ringMessage _ _ _))
  · exact (hwrites _ _ _ _ _).trans (htail _ _)

theorem State.accessed_logNoted (s : State) (graph : Word) (fuel : Nat) : s.Accessed (s.logNoted graph fuel) := by
  induction fuel generalizing s with
  | zero => exact .refl s
  | succ fuel ih =>
    unfold State.logNoted
    split
    · exact .refl s
    · refine .trans (.trans ?_ (State.accessed_ringWrite _ _ _ _)) (ih _)
      exact State.MemoryOnly.accessed ⟨⟨_, _, _, _, _, _, _, _, _, _, _⟩, rfl⟩

theorem State.accessed_ringPut (s : State) (p : Fin 16) (n : RingName) (bytes : List Byte) : s.Accessed (s.ringPut p n bytes) :=
  (s.accessed_ringWrite p n bytes).trans (State.accessed_logNoted _ _ _)

theorem State.accessed_logError (s : State) (p : Fin 16) (e : ErrRec) : s.Accessed (s.logError p e).2 := by
  unfold State.logError
  dsimp only
  exact s.accessed_ringPut p .errorLog _

theorem State.accessed_logConsumed (s : State) (t : Nat) (e : MemErr) : s.Accessed (s.logConsumed t e) := by
  unfold State.logConsumed
  split
  · exact .refl s
  · exact (s.memoryOnly_errSyndrome e).accessed.trans (State.accessed_logError _ _ _)

theorem State.accessed_poisonedByMe (s : State) (table : Nat) : s.Accessed (s.poisonedByMe table) := s.accessed_logError _ _

/-! ### What such a state shares with the one before -/

theorem State.Accessed.cur (h : s.Accessed v) : v.cur = s.cur := by
  obtain ⟨⟨_, _, _, _, rfl⟩, -⟩ := h
  rfl

theorem State.Accessed.tiles (h : s.Accessed v) : v.tiles = s.tiles := by
  obtain ⟨⟨_, _, _, _, rfl⟩, -⟩ := h
  rfl

theorem State.Accessed.runs (h : s.Accessed v) : v.runs = s.runs := by
  obtain ⟨⟨_, _, _, _, rfl⟩, -⟩ := h
  rfl

theorem State.Accessed.eclipse (h : s.Accessed v) : v.eclipse = s.eclipse := by
  obtain ⟨⟨_, _, _, _, rfl⟩, -⟩ := h
  rfl

theorem State.Accessed.tileCycles (h : s.Accessed v) (t : Nat) : v.tileCycles t = s.tileCycles t := by
  obtain ⟨⟨_, _, _, _, rfl⟩, -⟩ := h
  rfl

theorem State.Accessed.me (h : s.Accessed v) : v.me = s.me := by
  obtain ⟨⟨_, _, _, _, rfl⟩, -⟩ := h
  rfl

theorem State.Accessed.tile (h : s.Accessed v) (t : Fin 192) : v.tile t = s.tile t := by
  obtain ⟨⟨_, _, _, _, rfl⟩, -⟩ := h
  rfl

theorem State.Accessed.run (h : s.Accessed v) (g : Word) : v.run g = s.run g := by
  obtain ⟨⟨_, _, _, _, rfl⟩, -⟩ := h
  rfl

theorem State.Accessed.runOfTile (h : s.Accessed v) (t : Nat) : v.runOfTile t = s.runOfTile t := by
  obtain ⟨⟨_, _, _, _, rfl⟩, -⟩ := h
  rfl

theorem State.Accessed.partOfTile (h : s.Accessed v) (t : Nat) : v.partOfTile t = s.partOfTile t := by
  obtain ⟨⟨_, _, _, _, rfl⟩, -⟩ := h
  rfl

theorem State.Accessed.pending (h : s.Accessed v) (q : Fin 16) : (v.part q).pending = (s.part q).pending := by
  obtain ⟨-, hq⟩ := h
  obtain ⟨_, _, _, hq⟩ := hq q
  rw [hq]

end

end Sys2Proof.Machine
end

section
/-! PROOF. Protection classes: what disturbed ALUs do to an instruction (R221, R370, R372, R373). -/

namespace Sys2Proof.Machine

/-! ### The comparison of an instruction's copies -/

section Comparison
variable {s : State} {i : Instr} {w : Word}

theorem State.upset_clearUpsets (s : State) (err : Vector DWord 3) : (s.upset err).clearUpsets = s.clearUpsets := by
  simp [State.upset, State.clearUpsets]

theorem State.upset_me_self (s : State) : s.upset s.me.aluErr = s := State.modMe_self s _ rfl

/-- An instruction does what its copies' comparison answers, in the state in which the disturbance is spent. -/
theorem exec_eq_judged (hw : encodeSeq i = some w) (s : State) : ∃ point f, (point = 4 ∨ point = 5) ∧
    ∀ err, exec i (s.upset err) = .next ((s.upset (Vector.replicate 3 0#64)).judged (vote (fP w) err) point f) := by
  obtain ⟨point, f, hpoint, hexec, hup⟩ := runsGuarded i w hw
  refine ⟨point, fun e t => if i.wf then f s e t else t.illegal i, hpoint, fun err => ?_⟩
  rw [hexec, seqInstr, State.guarded, State.upset_clearUpsets, hup]
  simp only [State.upset, State.modMe_me, State.clearUpsets]

theorem vote_single {e : Vector DWord 3} (h : e[0] = 0#64) : vote 0#2 e = .agreed 0#64 := by
  simp [vote, h]

theorem vote_dual_eq {e : Vector DWord 3} (h : e[0] = 0#64) (h' : e[1] = 0#64) : vote 1#2 e = .agreed 0#64 := by
  simp [vote, h, h']

theorem vote_dual_ne {e : Vector DWord 3} (h : e[0] ≠ e[1]) : vote 1#2 e = .mismatch := by
  simp [vote, h]

theorem vote_triple_ne {e : Vector DWord 3} (h : e[0] ≠ e[1]) (h' : e[0] ≠ e[2]) (h'' : e[1] ≠ e[2]) : vote 2#2 e = .noMajority := by
  simp [vote, h, h', h'']

/-- A single disturbed ALU of three is the minority, and the majority's value carries no error. -/
theorem vote_triple_one {e : Vector DWord 3} {k : Fin 3} (hk : e[k] ≠ 0#64) (hj : ∀ j : Fin 3, j ≠ k → e[j] = 0#64) :
    vote 2#2 e = .minority 0#64 := by
  match k with
  | 0 =>
    have h1 : e[1] = 0#64 := hj 1 (by decide)
    have h2 : e[2] = 0#64 := hj 2 (by decide)
    have hk : e[0] ≠ 0#64 := hk
    simp [vote, h1, h2, hk]
  | 1 =>
    have h0 : e[0] = 0#64 := hj 0 (by decide)
    have h2 : e[2] = 0#64 := hj 2 (by decide)
    have hk : 0#64 ≠ e[1] := Ne.symm hk
    simp [vote, h0, h2, hk]
  | 2 =>
    have h0 : e[0] = 0#64 := hj 0 (by decide)
    have h1 : e[1] = 0#64 := hj 1 (by decide)
    have hk : e[2] ≠ 0#64 := hk
    simp [vote, h0, h1, hk]

end Comparison

/-! ### A comparison at writeback -/

theorem State.guardedValue_mismatch {t : State} (h : t.me.lateErr[0] ≠ t.me.lateErr[1]) (f : DWord → State → State) :
    t.guardedValue 1#2 f = (t.modMe (fun q => { q with lateErr := Vector.replicate 3 0#64 })).seqMismatch 2 4 := by
  rw [State.guardedValue, vote_dual_ne h]
  rfl

/-- A dual load whose reply its two ALUs receive differently is a mismatch at writeback. -/
theorem exec_ldOrdered_mismatch {s t : State} {d b : BitVec 5} {o sc : BitVec 2} {v : Nat} (hs : s.me.aluErr = Vector.replicate 3 0#64)
    (hlate : t.me.lateErr[0] ≠ t.me.lateErr[1]) (hmod : (s.me.rd b).toNat % 8 = 0) (hpath : s.noPath .global (s.me.rd b) .read = false)
    (ho : o = 0#2 ∨ o = 1#2) (hload : s.seqLoad .global (s.me.rd b) 8 = (.ok v, t)) :
    exec (.ldOrdered 1#2 d b o sc 3#2) s = .next ((t.modMe (fun q => { q with lateErr := Vector.replicate 3 0#64 })).seqMismatch 2 4) := by
  have hwf : (Instr.ldOrdered 1#2 d b o sc 3#2).wf = true := by rcases ho with rfl | rfl <;> rfl
  have hclear : s.clearUpsets = s := State.modMe_self s _ (by rw [← hs])
  have hvote : vote 1#2 s.me.aluErr = .agreed 0#64 := by rw [hs]; exact vote_undisturbed 1#2
  have hbytes : amBytes 3#2 = 8 := rfl
  show loadInstr _ 1#2 d (some .global) (s.me.rd b) (amBytes 3#2) 0#1 s = _
  rw [loadInstr, seqInstr, State.guarded, hvote, hclear]
  simp only [State.judged, hwf, if_true, BitVec.xor_zero, hbytes, hmod, hpath, hload, ne_eq, not_true_eq_false, if_false,
    Bool.false_eq_true, State.guardedValue_mismatch hlate]

/-! ### The killed graph -/

section Killed
variable {s : State} {r : Run}

/-- Only the map of eclipses differs. -/
theorem State.addEclipse_eq (s : State) (u : Word) : ∃ es, s.addEclipse u = { s with eclipse := es } := by
  unfold State.addEclipse
  split
  · exact ⟨s.eclipse, rfl⟩
  · exact ⟨_, rfl⟩

theorem State.deliverFault_room {p : Fin 16} (h : ((s.part p).pending.filter (fun x => decide (x.hook = .fault))).length < 64) (f : FaultRec) :
    s.deliverFault p f = s.modPart p (fun x => { x with pending := x.pending ++ [⟨.fault, 0x21, f.slot, some f⟩] }) :=
  if_neg (Nat.not_le.mpr h)

/-- The run of a graph as a kill leaves it, with the fault that on_fault receives. -/
def Run.killed (r : Run) (ns : Nat) (suspect log : Word) (f : FaultRec) : Run :=
  { r.discard with suspect := suspect, log := log, freeze := some .kill, frozen := false, fault := some f, killNs := some ns }

/-- The state as a kill leaves it: the run stops with the fault, its jobs are gone, and on_fault receives the fault. -/
def State.killedBy (s : State) (r : Run) (suspect log : Word) (f : FaultRec) : State :=
  State.modPart { s.modRun r.gid (fun _ => r.killed s.ns suspect log f) with jobs := s.jobs.filter (fun j => decide (j.graph ≠ r.gid)) }
    (partOf r.part) (fun x => { x with pending := x.pending ++ [⟨.fault, 0x21, f.slot, some f⟩] })

/-- A kill of a graph that is not killed yet, where on_fault has room. -/
theorem State.killWith_room (hr : s.run r.gid = some r) (hf : r.faulted = false)
    (hroom : ((s.part (partOf r.part)).pending.filter (fun x => decide (x.hook = .fault))).length < 64) (kind status : Nat)
    (suspect log round : Word) (eclipsed : Bool) (flags : Byte) :
    ∃ f : FaultRec, f.kind = kind ∧ f.status = BitVec.ofNat 16 status
      ∧ s.killWith r.gid kind status suspect log round eclipsed flags = s.killedBy r suspect log f := by
  refine ⟨{ r.discard with suspect := suspect, log := log : Run }.faultRec kind status suspect log round eclipsed flags, rfl, rfl, ?_⟩
  unfold State.killWith
  rw [hr]
  dsimp only
  rw [if_neg (by simp [hf])]
  exact State.deliverFault_room (by exact hroom) _

/-- A kill that a record describes: the record, the eclipse, and the kill. -/
theorem State.killLogged_room {e : ErrRec} (hr : s.run r.gid = some r) (hf : r.faulted = false)
    (hroom : ((s.part (partOf r.part)).pending.filter (fun x => decide (x.hook = .fault))).length < 64) (status : Nat) :
    ∃ (v : State) (f : FaultRec) (log : Word), s.Accessed v ∧ f.kind = e.kind ∧ f.status = BitVec.ofNat 16 status
      ∧ s.killLogged r.gid status e [e.unit] = (v.addEclipse e.unit).killedBy r e.unit log f := by
  unfold State.killLogged
  rw [hr]
  dsimp only
  rw [if_neg (by simp [hf])]
  generalize hlog : s.logError (partOf r.part) _ = x
  have hacc : s.Accessed x.2 := hlog ▸ s.accessed_logError _ _
  obtain ⟨log, v⟩ := x
  obtain ⟨es, hes⟩ := v.addEclipse_eq e.unit
  have hrun : (v.addEclipse e.unit).run r.gid = some r := by
    rw [hes]
    exact (hacc.run r.gid).trans hr
  have hpending : ((v.addEclipse e.unit).part (partOf r.part)).pending = (s.part (partOf r.part)).pending := by
    rw [hes]
    exact hacc.pending _
  obtain ⟨f, hkind, hstatus, hkill⟩ := State.killWith_room hrun hf (hpending ▸ hroom) e.kind status e.unit log e.round true 0#8
  exact ⟨v, f, log, hacc, hkind, hstatus, hkill⟩

theorem State.run_modRun_const {g : Word} {x : Run} (hr : s.run g = some r) (hx : x.gid = g) : (s.modRun g (fun _ => x)).run g = some x := by
  have hsame : (fun y : Run => decide (y.gid = g)) ∘ (fun y => if y.gid = g then x else y) = fun y => decide (y.gid = g) := by
    funext y
    by_cases h : y.gid = g <;> simp [h, hx]
  have hgid : r.gid = g := by simpa using List.find?_some hr
  rw [State.run] at hr
  rw [State.run, State.modRun, List.find?_map, hsame, hr, Option.map_some, if_pos hgid]

theorem State.killedBy_run (hr : s.run r.gid = some r) (suspect log : Word) (f : FaultRec) :
    (s.killedBy r suspect log f).run r.gid = some (r.killed s.ns suspect log f) :=
  State.run_modRun_const (g := r.gid) (x := r.killed s.ns suspect log f) hr rfl

end Killed

section Mismatch
variable {s : State} {r : Run}

/-- A mismatch kills the graph with the sequencer as its suspect, which is eclipsed; no trap is taken. -/
theorem State.seqMismatch_kills (htile : s.runOfTile s.cur.val = some r) (hr : s.run r.gid = some r) (hf : r.faulted = false)
    (hroom : ((s.part (partOf r.part)).pending.filter (fun x => decide (x.hook = .fault))).length < 64) (kind point : Nat) :
    (s.seqMismatch kind point).me = s.me ∧ (s.seqMismatch kind point).eclipsed (seqId s.cur.val) = true
      ∧ ∃ y f, (s.seqMismatch kind point).run r.gid = some y ∧ y.freeze = some .kill ∧ y.frozen = false ∧ y.suspect = seqId s.cur.val
        ∧ y.stores = [] ∧ y.fault = some f ∧ f.kind = kind ∧ f.status = 2#16
        ∧ ((s.seqMismatch kind point).part (partOf r.part)).pending = (s.part (partOf r.part)).pending ++ [⟨.fault, 0x21, f.slot, some f⟩] := by
  unfold State.seqMismatch
  dsimp only
  rw [htile]
  dsimp only
  generalize he : ErrRec.mk kind _ _ (seqId s.cur.val) _ _ _ _ _ _ _ _ _ = e
  have hunit : e.unit = seqId s.cur.val := by rw [← he]
  have hek : e.kind = kind := by rw [← he]
  rw [← hunit, ← hek]
  obtain ⟨v, f, log, hacc, hkind, hstatus, hkill⟩ := State.killLogged_room (e := e) hr hf hroom 2
  rw [hkill]
  obtain ⟨es, hes⟩ := v.addEclipse_eq e.unit
  refine ⟨?_, v.addEclipse_eclipsed e.unit, _, f, State.killedBy_run ?_ _ _ _, rfl, rfl, rfl, rfl, rfl, hkind, hstatus, ?_⟩
  · rw [hes]
    exact hacc.me
  · rw [hes]
    exact (hacc.run r.gid).trans hr
  · rw [State.killedBy, State.modPart_part_self, hes]
    exact congrArg (· ++ _) (hacc.pending _)

/-- A corrected minority: the sequencer is told by a trap that it holds, with the index of the record. -/
theorem State.seqMinority_me (htile : s.runOfTile s.cur.val = some r) (point : Nat) :
    ∃ now, (s.seqMinority point).me = { s.me with
      minority := some now, held := s.me.held ++ [(7, ((s.part (partOf r.part)).el.tail).setWidth 64)] } := by
  refine ⟨s.tileCycles s.cur.val, ?_⟩
  unfold State.seqMinority
  dsimp only
  rw [htile]
  dsimp only
  generalize hlog : s.logError (partOf r.part) _ = x
  have hacc : s.Accessed x.2 := hlog ▸ s.accessed_logError _ _
  have hindex : x.1 = (s.part (partOf r.part)).el.tail := by rw [← hlog]; rfl
  obtain ⟨i, v⟩ := x
  dsimp only at hindex hacc ⊢
  subst hindex
  rw [← hacc.me, ← hacc.cur]
  have hheld (u : State) (now : Nat) (tval : DWord) (hcur : u.cur = v.cur) (hu : u.me = { v.me with minority := some now }) :
      (u.holdTrap v.cur 7 tval).me = { v.me with minority := some now, held := v.me.held ++ [(7, tval)] } := by
    rw [← hcur]
    exact (u.modMe_me _).trans (by rw [hu])
  split_ifs
  · exact hheld _ _ _ rfl (v.modMe_me (fun q => { q with minority := some _ }))
  · exact hheld _ _ _ rfl (v.modMe_me (fun q => { q with minority := some _ }))

end Mismatch

/-- Settles O37: an instruction is its effect after one vote of the ALUs, and each clause is a case of the vote. -/
theorem protectionClassesCompareTheAlus : Obligations.ProtectionClassesCompareTheAlus := by
  refine ⟨?_, ?_, ?_⟩
  · intro s i w hw e u c
    obtain ⟨point, f, hpoint, hexec⟩ := exec_eq_judged hw s
    have hs := hexec e
    rw [State.upset_me_self] at hs
    have hu : ∀ p err, vote p err = .agreed 0#64 → (.next (State.judged u (vote p err) point f) : Host.Outcome State Fault Refusal) = exec i u := by
      intro p err hv
      rw [hv, ← vote_undisturbed (fP w)]
      exact (hexec _).symm
    refine ⟨fun hc h0 => ?_, fun hc h0 h1 => ?_, fun hc hne => ?_, fun hc h01 h02 h12 => ?_, fun k hc hk hj => ?_⟩
    all_goals rw [show fP w = c from rfl, hc] at hs
    · exact hs.trans (hu _ _ (vote_single h0))
    · exact hs.trans (hu _ _ (vote_dual_eq h0 h1))
    · rw [vote_dual_ne hne] at hs
      exact ⟨point, hpoint, hs⟩
    · rw [vote_triple_ne h01 h02 h12] at hs
      exact ⟨point, hpoint, hs⟩
    · rw [vote_triple_one hk hj] at hs
      refine ⟨point, f 0#64 u, hpoint, ?_, hs⟩
      exact (hu 0#2 _ (vote_undisturbed _)).symm.trans (by rw [vote_undisturbed]; rfl)
  · intro s d b o sc v t hs hlate hmod hpath ho hload
    exact exec_ldOrdered_mismatch hs hlate hmod hpath ho hload
  · intro s kind point r htile hr id p t m
    refine ⟨fun hf hroom => ?_, ?_⟩
    · obtain ⟨hme, hecl, hy⟩ := State.seqMismatch_kills htile hr hf hroom kind point
      have hme : t.me = s.me := hme
      rw [hme]
      exact ⟨rfl, rfl, rfl, rfl, hecl, hy⟩
    · obtain ⟨now, hme⟩ := State.seqMinority_me htile point
      have hme : m.me = _ := hme
      rw [hme]
      exact ⟨rfl, rfl, rfl, rfl⟩

end Sys2Proof.Machine
end

section
/-! PROOF. The loads and stores of a sequencer (R236 to R241, R243). -/

namespace Sys2Proof.Machine

/-! ### Values loaded and stored -/

theorem sextNat_eq_toInt (v : Nat) {m : Nat} (hm : 0 < m) : sextNat v m = (BitVec.ofNat m v).toInt := by
  have hpow : 2 ^ m = 2 * 2 ^ (m - 1) := by rw [← Nat.pow_succ', Nat.succ_eq_add_one, Nat.sub_add_cancel hm]
  rw [sextNat, BitVec.toInt_eq_toNat_cond, BitVec.toNat_ofNat]
  split_ifs <;> omega

theorem extendLoad_eq (g : BitVec 1) {n : Nat} (hn : 0 < n) (v : Nat) :
    extendLoad g n v = if g = 1#1 then (BitVec.ofNat (8 * n) v).signExtend 64 else (BitVec.ofNat (8 * n) v).setWidth 64 := by
  rw [extendLoad, sextNat_eq_toInt v (by omega)]
  split_ifs
  · rfl
  · apply BitVec.eq_of_toNat_eq
    rw [BitVec.toNat_ofNat, BitVec.toNat_setWidth, BitVec.toNat_ofNat]

theorem getLsbD_extendLoad (g : BitVec 1) {n i : Nat} (hn : 0 < n) (hn8 : n ≤ 8) (v : Nat) (hi : i < 8 * n) :
    (extendLoad g n v).getLsbD i = v.testBit i := by
  have hi64 : i < 64 := by omega
  rw [extendLoad_eq g hn]
  split_ifs
  · simp only [BitVec.getLsbD_signExtend, BitVec.getLsbD_ofNat, hi64, hi, decide_true, Bool.true_and, if_true]
  · simp only [BitVec.getLsbD_setWidth, BitVec.getLsbD_ofNat, hi64, hi, decide_true, Bool.true_and]

theorem byteAt_extendLoad (g : BitVec 1) {n k : Nat} (hn8 : n ≤ 8) (v : Nat) (hk : k < n) :
    byteAt (extendLoad g n v) k = BitVec.ofNat 8 (v / 256 ^ k) := by
  apply BitVec.eq_of_getLsbD_eq
  intro j hj
  rw [byteAt, BitVec.getLsbD_extractLsb', getLsbD_extendLoad g (by omega) hn8 v (by omega), BitVec.getLsbD_ofNat,
    show (256 : Nat) = 2 ^ 8 from rfl, ← Nat.pow_mul, Nat.testBit_div_two_pow, Nat.add_comm]

/-- What a load writes holds the bytes that it read. -/
theorem holds_extendLoad (g : BitVec 1) {bs : List Byte} (hn : 0 < bs.length) (hn8 : bs.length ≤ 8) :
    Holds g (extendLoad g bs.length (leNat bs)) bs.length (fun k => bs.getD k 0#8) := by
  have hbytes (k : Nat) (hk : k < bs.length) : byteAt (extendLoad g bs.length (leNat bs)) k = bs.getD k 0#8 := by
    rw [byteAt_extendLoad g hn8 _ hk, ofNat_leNat_div hk, List.getD_eq_getElem _ _ hk]
  unfold Holds
  split_ifs with hg
  · have hext := extendLoad_eq g hn (leNat bs)
    rw [if_pos hg] at hext
    refine ⟨hbytes, ?_⟩
    rw [hext, BitVec.toInt_signExtend_of_le (by omega)]
    have hlo := BitVec.le_toInt (BitVec.ofNat (8 * bs.length) (leNat bs))
    have hhi := BitVec.toInt_lt (x := BitVec.ofNat (8 * bs.length) (leNat bs))
    push_cast at hlo hhi ⊢
    exact ⟨hlo, hhi⟩
  · refine ⟨hbytes, ?_⟩
    rw [extendLoad, if_neg hg, BitVec.toNat_ofNat]
    exact (Nat.mod_le _ _).trans_lt (Nat.mod_lt _ (by positivity))

theorem leBytes_mod (n v : Nat) : leBytes n (v % 2 ^ (8 * n)) = leBytes n v := by
  refine List.ext_getElem (by simp) (fun k hk _ => ?_)
  rw [leBytes_length] at hk
  rw [leBytes_getElem, leBytes_getElem]
  apply BitVec.eq_of_getLsbD_eq
  intro j hj
  have hlt : 8 * k + j < 8 * n := by omega
  simp only [BitVec.getLsbD_ofNat, show (256 : Nat) = 2 ^ 8 from rfl, ← Nat.pow_mul, Nat.testBit_div_two_pow, Nat.testBit_mod_two_pow,
    Nat.add_comm j, hlt, decide_true, Bool.true_and]

/-- The bytes of a register that a store writes. -/
theorem leBytes_stored (n : Nat) (v : DWord) : leBytes n (v.toNat % 2 ^ (8 * n)) = (List.range n).map (byteAt v) := by
  rw [leBytes_mod, leBytes_toNat_eq_map_byteAt]

theorem beyond_52_bits_iff (a : DWord) : field a 63 52 ≠ 0 ↔ 2 ^ 52 ≤ a.toNat := by
  have := a.isLt
  rw [field, bitsOf]
  omega

/-! ### Loads and stores, as their access ends -/

section Accesses
variable {s t : State} {i : Instr} {p : BitVec 2} {d : BitVec 5} {sp : Space} {a : DWord} {n : Nat} {g : BitVec 1} {v : DWord}

theorem loadInstr_undisturbed (hw : i.wf = true) (h : Undisturbed s) : loadInstr i p d (some sp) a n g s = .next (
    if a.toNat % n ≠ 0 then s.trapMe 2 a
    else if s.noPath sp a .read then s.killCutOff
    else
      match s.seqLoad sp a n with
      | (.trap code tval, s1) => s1.trapMe code tval
      | (.ok v, s1) => s1.guardedValue p (fun e s => s.writeBack d (extendLoad g n v ^^^ e))) := by
  rw [loadInstr, seqInstr_undisturbed hw h]
  simp only [BitVec.xor_zero] <;> rfl

theorem storeInstr_undisturbed (hw : i.wf = true) (h : Undisturbed s) : storeInstr i p (some sp) a n v s = .next (
    if a.toNat % n ≠ 0 then s.trapMe 2 a
    else if s.noPath sp a .write then s.killCutOff
    else if s.storeHeld sp a then (s.holdWrite s.meAgent a.toNat).stallMe i .retry
    else
      match s.seqStore sp a n (v.toNat % 2 ^ (8 * n)) with
      | (.trap code tval, s1) => s1.trapMe code tval
      | (.ok _, s1) => s1.nextMe) := by
  rw [storeInstr, seqInstr_undisturbed hw h]
  simp only [BitVec.xor_zero] <;> rfl

theorem State.Accessed.undisturbed (h : Undisturbed s) (hacc : s.Accessed t) : Undisturbed t := by
  rw [Undisturbed, hacc.me]
  exact h

section Load
variable (hexec : exec i s = loadInstr i p d (some sp) a n g s) (hw : i.wf = true) (h : Undisturbed s)
include hexec hw h

theorem load_misaligned (ha : a.toNat % n ≠ 0) : Traps i s 2 a := by
  rw [Traps, hexec, loadInstr_undisturbed hw h, if_pos ha]
  exact ⟨_, rfl, s.trapMe_entered 2 a⟩

theorem load_cutOff (ha : a.toNat % n = 0) (hpath : s.noPath sp a .read = true) : exec i s = .next s.killCutOff := by
  rw [hexec, loadInstr_undisturbed hw h, if_neg (not_not.mpr ha), if_pos hpath]

theorem load_trap {code : Nat} (ha : a.toNat % n = 0) (hpath : s.noPath sp a .read = false)
    (hread : s.seqReadBytes s.meAgent sp a n = (.trap code a, t)) : exec i s = .next (t.trapMe code a) := by
  rw [hexec, loadInstr_undisturbed hw h, if_neg (not_not.mpr ha), if_neg (by simp [hpath]), State.seqLoad, if_neg (not_not.mpr ha), hread]

theorem load_ok {x : Nat} (ha : a.toNat % n = 0) (hpath : s.noPath sp a .read = false)
    (hread : s.seqReadBytes s.meAgent sp a n = (.ok x, t)) (ht : Undisturbed t) : exec i s = .next (t.wrote d (extendLoad g n x)) := by
  rw [hexec, loadInstr_undisturbed hw h, if_neg (not_not.mpr ha), if_neg (by simp [hpath]), State.seqLoad, if_neg (not_not.mpr ha), hread]
  simp only [State.guardedValue_undisturbed ht, BitVec.xor_zero, State.writeBack_eq]

end Load

section Store
variable (hexec : exec i s = storeInstr i p (some sp) a n v s) (hw : i.wf = true) (h : Undisturbed s)
include hexec hw h

theorem store_misaligned (ha : a.toNat % n ≠ 0) : Traps i s 2 a := by
  rw [Traps, hexec, storeInstr_undisturbed hw h, if_pos ha]
  exact ⟨_, rfl, s.trapMe_entered 2 a⟩

theorem store_held (ha : a.toNat % n = 0) (hpath : s.noPath sp a .write = false) (hheld : s.storeHeld sp a = true) :
    exec i s = .next ((s.holdWrite s.meAgent a.toNat).stallMe i .retry) := by
  rw [hexec, storeInstr_undisturbed hw h, if_neg (not_not.mpr ha), if_neg (by simp [hpath]), if_pos hheld]

theorem store_trap {code : Nat} (ha : a.toNat % n = 0) (hpath : s.noPath sp a .write = false) (hheld : s.storeHeld sp a = false)
    (hwrite : s.seqWriteBytes s.meAgent sp a n (v.toNat % 2 ^ (8 * n)) = (.trap code a, t)) : exec i s = .next (t.trapMe code a) := by
  rw [hexec, storeInstr_undisturbed hw h, if_neg (not_not.mpr ha), if_neg (by simp [hpath]), if_neg (by simp [hheld]), State.seqStore,
    if_neg (not_not.mpr ha), hwrite]

theorem store_ok {x : Nat} (ha : a.toNat % n = 0) (hpath : s.noPath sp a .write = false) (hheld : s.storeHeld sp a = false)
    (hwrite : s.seqWriteBytes s.meAgent sp a n (v.toNat % 2 ^ (8 * n)) = (.ok x, t)) : exec i s = .next t.passed := by
  rw [hexec, storeInstr_undisturbed hw h, if_neg (not_not.mpr ha), if_neg (by simp [hpath]), if_neg (by simp [hheld]), State.seqStore,
    if_neg (not_not.mpr ha), hwrite]
  rfl

end Store

end Accesses

theorem noPath_of_ne_global {s : State} {sp : Space} (h : sp ≠ .global) (a : DWord) (acc : Access) : s.noPath sp a acc = false := by
  simp [State.noPath, h]

theorem storeHeld_of_ne_global {s : State} {sp : Space} (h : sp ≠ .global) (a : DWord) : s.storeHeld sp a = false := by
  simp [State.storeHeld, h]

theorem ld_wf {p : BitVec 2} {d b : BitVec 5} {z : BitVec 2} {g : BitVec 1} {sp : BitVec 2} {o : BitVec 9} (hp : p ≠ 3#2) (hsp : sp ≠ 3#2)
    (hg : ¬ (g = 1#1 ∧ z = 3#2)) : (Instr.ld p d b z g sp o).wf = true := by
  simp only [Instr.wf, Bool.and_eq_true, Bool.not_eq_true', Bool.and_eq_false_iff, bne_iff_ne, beq_eq_false_iff_ne]
  exact ⟨⟨hp, hsp⟩, not_and_or.mp hg⟩

theorem st_wf {p : BitVec 2} {d b : BitVec 5} {z sp : BitVec 2} {o : BitVec 9} (hp : p ≠ 3#2) (hsp : sp ≠ 3#2) :
    (Instr.st p d b z sp o).wf = true := by
  simp only [Instr.wf, Bool.and_eq_true, bne_iff_ne]
  exact ⟨hp, hsp⟩

theorem exec_ld (s : State) (p : BitVec 2) (d b : BitVec 5) (z : BitVec 2) (g : BitVec 1) (sp : BitVec 2) (o : BitVec 9) :
    exec (.ld p d b z g sp o) s =
      loadInstr (.ld p d b z g sp o) p d (spaceOf sp) (addressOf (s.me.rd b) o (2 ^ z.toNat)) (2 ^ z.toNat) g s := by
  show execLd p d b z g sp o s = _
  rw [execLd, meAddress_eq_addressOf, meBytes]

theorem exec_st (s : State) (p : BitVec 2) (d b : BitVec 5) (z sp : BitVec 2) (o : BitVec 9) :
    exec (.st p d b z sp o) s =
      storeInstr (.st p d b z sp o) p (spaceOf sp) (addressOf (s.me.rd b) o (2 ^ z.toNat)) (2 ^ z.toNat) (s.me.rd d) s := by
  show execSt p d b z sp o s = _
  rw [execSt, meAddress_eq_addressOf, meBytes]

theorem pow_size_le (z : BitVec 2) : 2 ^ z.toNat ≤ 8 := by
  revert z
  decide

theorem holds_readN (g : BitVec 1) (m : Memory) (a : Nat) {n : Nat} (hn : 0 < n) (hn8 : n ≤ 8) :
    Holds g (extendLoad g n (leNat (m.readN a n))) n (fun k => m.read (a + k)) := by
  have h := holds_extendLoad g (bs := m.readN a n) (by simpa using hn) (by simpa using hn8)
  rw [Memory.readN_length] at h
  have hk (k : Nat) (hk : k < n) : (m.readN a n).getD k 0#8 = m.read (a + k) := by
    rw [List.getD_eq_getElem _ _ (by simpa using hk), Memory.readN_getElem]
  unfold Holds HoldsSext HoldsZext at h ⊢
  split_ifs at h ⊢
  · exact ⟨fun k hk' => (h.1 k hk').trans (hk k hk'), h.2⟩
  · exact ⟨fun k hk' => (h.1 k hk').trans (hk k hk'), h.2⟩

/-- What writing the low bytes of a register leaves in a memory. -/
theorem writeN_stored {m : Memory} (w : m.wf = true) (a n : Nat) (v : DWord) :
    (m.writeN a (leBytes n (v.toNat % 2 ^ (8 * n)))).wf = true
      ∧ (∀ k, k < n → (m.writeN a (leBytes n (v.toNat % 2 ^ (8 * n)))).read (a + k) = byteAt v k)
      ∧ ∀ x, x < a ∨ a + n ≤ x → (m.writeN a (leBytes n (v.toNat % 2 ^ (8 * n)))).read x = m.read x := by
  rw [leBytes_stored]
  refine ⟨Memory.wf_writeN a _ w, fun k hk => ?_, fun x hx => ?_⟩
  · rw [Memory.read_writeN_inside w a k _ (by simpa using hk)]
    simp
  · exact Memory.read_writeN_outside w a x _ (by simpa using hx)

theorem State.trapMe_regs (s : State) (code : Nat) (tval : DWord) : (s.trapMe code tval).me.regs = s.me.regs := by
  obtain ⟨-, -, -, -, -, -, -, -, -, hregs, -⟩ := s.trapMe_entered code tval
  exact hregs

@[simp] theorem State.modMTile_mtile_self (s : State) (m : Nat) (f : MTile → MTile) : (s.modMTile m f).mtile m = f (s.mtile m) := by
  simp [State.modMTile, State.mtile]

theorem State.modMTile_congr (s : State) (m : Nat) (f g : MTile → MTile) (h : f (s.mtile m) = g (s.mtile m)) :
    s.modMTile m f = s.modMTile m g := by
  rw [State.mtile] at h
  rw [State.modMTile, State.modMTile, h]

/-- The bytes of a scratchpad after a store to it. -/
theorem State.padWrite_bytes (s : State) (m a : Nat) (bs : List Byte) :
    ((s.padWrite m a bs).mtile m).bytes = (s.mtile m).bytes.writeN a bs :=
  congrArg MTile.bytes (s.modMTile_mtile_self m _)

/-- Settles O15: a load and a store are one shape each, whose read or write of bytes is a trap or not by the place of the address. -/
theorem ramAndScratchLoadsAndStores : Obligations.RamAndScratchLoadsAndStores := by
  refine ⟨?_, ?_⟩
  · intro s p d b z g o h hp hg n a
    have hld : (Instr.ld p d b z g 2#2 o).wf = true := ld_wf hp (by decide) hg
    have hst : (Instr.st p d b z 2#2 o).wf = true := st_wf hp (by decide)
    have hsp : spaceOf 2#2 = some Space.localRam := rfl
    have hne : Space.localRam ≠ .global := by decide
    have eld := exec_ld s p d b z g 2#2 o
    have est := exec_st s p d b z 2#2 o
    rw [hsp] at eld est
    refine ⟨fun ha => ⟨load_misaligned eld hld h ha, store_misaligned est hst h ha⟩, fun ha hhi => ?_, fun ha hhi => ⟨?_, ?_⟩⟩
    · have hr : s.seqReadBytes s.meAgent .localRam a n = (.trap 3 a, s) := if_pos hhi
      have hw : s.seqWriteBytes s.meAgent .localRam a n ((s.me.rd d).toNat % 2 ^ (8 * n)) = (.trap 3 a, s) := if_pos hhi
      exact ⟨⟨_, load_trap eld hld h ha (noPath_of_ne_global hne a _) hr, s.trapMe_entered 3 a⟩,
        ⟨_, store_trap est hst h ha (noPath_of_ne_global hne a _) (storeHeld_of_ne_global hne a) hw, s.trapMe_entered 3 a⟩⟩
    · have hr : s.seqReadBytes s.meAgent .localRam a n = (.ok (leNat (s.me.ram.readN a.toNat n)), s) := if_neg (Nat.not_lt.mpr hhi)
      exact ⟨_, load_ok eld hld h ha (noPath_of_ne_global hne a _) hr h, holds_readN g _ _ (Nat.two_pow_pos _) (pow_size_le z)⟩
    · have hw : s.seqWriteBytes s.meAgent .localRam a n ((s.me.rd d).toNat % 2 ^ (8 * n)) =
          (.ok 0, s.modMe (fun q => { q with ram := q.ram.writeN a.toNat (leBytes n ((s.me.rd d).toNat % 2 ^ (8 * n))) })) :=
        if_neg (Nat.not_lt.mpr hhi)
      refine ⟨_, store_ok est hst h ha (noPath_of_ne_global hne a _) (storeHeld_of_ne_global hne a) hw, ?_, fun hwf => ?_⟩
      · rw [State.passed, State.modMe_modMe, State.modMe_me]
        exact State.modMe_congr _ _ _ rfl
      · rw [State.passed, State.modMe_modMe, State.modMe_me]
        exact writeN_stored hwf a.toNat n (s.me.rd d)
  · intro s p d b z g o h hp hg n a ha
    have hld : (Instr.ld p d b z g 1#2 o).wf = true := ld_wf hp (by decide) hg
    have hst : (Instr.st p d b z 1#2 o).wf = true := st_wf hp (by decide)
    have hsp : spaceOf 1#2 = some Space.scratch := rfl
    have hne : Space.scratch ≠ .global := by decide
    have eld := exec_ld s p d b z g 1#2 o
    have est := exec_st s p d b z 1#2 o
    rw [hsp] at eld est
    refine ⟨fun hplace => ?_, fun m x hplace => ⟨fun hbad => ?_, fun hbad => ?_, ?_⟩⟩
    · have hr : s.seqReadBytes s.meAgent .scratch a n = (.trap 3 a, s) := by simp only [State.seqReadBytes, hplace]
      have hw : s.seqWriteBytes s.meAgent .scratch a n ((s.me.rd d).toNat % 2 ^ (8 * n)) = (.trap 3 a, s) := by
        simp only [State.seqWriteBytes, hplace]
      exact ⟨⟨_, load_trap eld hld h ha (noPath_of_ne_global hne a _) hr, s.trapMe_entered 3 a⟩,
        ⟨_, store_trap est hst h ha (noPath_of_ne_global hne a _) (storeHeld_of_ne_global hne a) hw, s.trapMe_entered 3 a⟩⟩
    · have hr : s.seqReadBytes s.meAgent .scratch a n = (.ok (leNat (s.padBytes m x n)), s) := by
        simp only [State.seqReadBytes, hplace, hbad, Bool.false_eq_true, if_false]
      exact ⟨_, load_ok eld hld h ha (noPath_of_ne_global hne a _) hr h, holds_readN g _ _ (Nat.two_pow_pos _) (pow_size_le z)⟩
    · have hr : s.seqReadBytes s.meAgent .scratch a n = (.trap 3 a, (s.padMet m x n).logConsumed s.cur.val padErr) := by
        simp only [State.seqReadBytes, hplace, hbad, if_true]
      have hacc : s.Accessed ((s.padMet m x n).logConsumed s.cur.val padErr) :=
        (s.accessed_modMTile m _).trans (State.accessed_logConsumed _ _ _)
      refine ⟨_, load_trap eld hld h ha (noPath_of_ne_global hne a _) hr, State.trapMe_entered _ 3 a, ?_⟩
      rw [State.trapMe_regs, hacc.me]
    · have hw : s.seqWriteBytes s.meAgent .scratch a n ((s.me.rd d).toNat % 2 ^ (8 * n)) =
          (.ok 0, s.padWrite m x (leBytes n ((s.me.rd d).toNat % 2 ^ (8 * n)))) := by
        simp only [State.seqWriteBytes, hplace]
      refine ⟨_, store_ok est hst h ha (noPath_of_ne_global hne a _) (storeHeld_of_ne_global hne a) hw, ?_, fun hwf => ?_⟩
      · refine congrArg State.passed (State.modMTile_congr s m _ _ ?_)
        have hbytes : ((s.padWrite m x (leBytes n ((s.me.rd d).toNat % 2 ^ (8 * n)))).passed.mtile m).bytes = _ := s.padWrite_bytes m x _
        rw [hbytes, leBytes_length]
      · have hbytes : ((s.padWrite m x (leBytes n ((s.me.rd d).toNat % 2 ^ (8 * n)))).passed.mtile m).bytes = _ := s.padWrite_bytes m x _
        rw [hbytes]
        exact writeN_stored hwf x n (s.me.rd d)

end Sys2Proof.Machine
end

section
/-! PROOF. Global memory: translations, loads, stores and atomics (R128, R133, R236 to R243, R270). -/

namespace Sys2Proof.Machine

/-! ### Translations -/

theorem State.leafFor_of_not_cached {s : State} {g : Agent} {va : Nat} (h : s.cached g va = none) (acc : Access) :
    s.leafFor g va acc = (s.walk g va, false, s) := by
  rw [State.leafFor, h]

/-- In a raw block, a byte written to physical memory is that byte of memory. -/
theorem State.physWriteByte_raw {s : State} {a : Nat} (h : s.tag (a / 256) = 0x8#4) (b : Byte) :
    s.physWriteByte false a b = { s with mem := s.mem.write a b } := by
  rw [State.physWriteByte, if_pos (by simp [h])]

/-- Settles O16: the walk decides between the fault, the refusal and the marked leaf, whose one byte is written. -/
theorem translationChecksAndMarksTheLeaf : Obligations.TranslationChecksAndMarksTheLeaf := by
  intro s g va acc hcached
  refine ⟨?_, ?_⟩
  · intro x hwalk
    rw [State.translate, State.leafFor_of_not_cached hcached, hwalk]
  · intro l hwalk allowed e
    have hallows : leafAllows l.entry g.user acc = true ↔ allowed := by
      cases acc <;> cases hu : g.user <;> simp [allowed, leafAllows, bitOf_toNat, hu]
    have htr : s.translate g va acc = if leafAllows l.entry g.user acc then (.ok (l.frame + va % pageBytes l.size) { l with entry := e },
        (if e = l.entry then s else s.physWriteByte false l.entryAt (BitVec.ofNat 8 e.toNat)).cacheLeaf g va l e) else (.fault .denied, s) := by
      rw [State.translate, State.leafFor_of_not_cached hcached, hwalk]
      dsimp only
      cases leafAllows l.entry g.user acc <;> rfl
    refine ⟨fun hno => ?_, fun hyes => ⟨_, htr.trans (if_pos (hallows.mpr hyes)), rfl, fun htag => ?_⟩⟩
    · rw [htr, if_neg (fun h => hno (hallows.mp h))]
    · rw [State.physWriteByte_raw htag]
      split_ifs <;> rfl

/-! ### Reads of a page -/

theorem State.leafRead_length {s : State} {l : Leaf} {va n : Nat} {bs : List Byte} {bad : Bool} (h : s.leafRead l va n = some (bs, bad)) :
    bs.length = n := by
  unfold State.leafRead at h
  dsimp only at h
  split_ifs at h
  · obtain ⟨rfl, -⟩ := Prod.mk.inj (Option.some.inj h)
    simp
  · obtain ⟨rfl, -⟩ := Prod.mk.inj (Option.some.inj h)
    simp [State.physBytes]

theorem State.virtRead_length {s t : State} {g : Agent} {va n : Nat} {acc : Access} {bs : List Byte}
    (h : s.virtRead g va n acc = (.ok bs, t)) : bs.length = n := by
  unfold State.virtRead at h
  generalize s.translate g va acc = x at h
  obtain ⟨⟨pa, l⟩ | _ | _, s1⟩ := x
  · dsimp only at h
    generalize hread : s1.leafRead l va n = r at h
    obtain _ | ⟨bs', bad⟩ := r
    · exact ReadEnd.noConfusion (Prod.mk.inj h).1
    · cases bad
      · cases (Prod.mk.inj h).1
        exact State.leafRead_length hread
      · exact ReadEnd.noConfusion (Prod.mk.inj h).1
  · exact ReadEnd.noConfusion (Prod.mk.inj h).1
  · exact ReadEnd.noConfusion (Prod.mk.inj h).1

/-! ### Accesses to global space -/

section Global
variable {s t : State} {g : Agent} {a : DWord} {n : Nat}

theorem seqReadBytes_beyond (ha : 2 ^ 52 ≤ a.toNat) : s.seqReadBytes g .global a n = (.trap 3 a, s) := by
  rw [State.seqReadBytes]
  exact if_pos ((beyond_52_bits_iff a).mpr ha)

theorem seqReadBytes_within (ha : a.toNat < 2 ^ 52) : s.seqReadBytes g .global a n =
    match s.virtRead g a.toNat n .read with
    | (.ok bs, s1) => (.ok (leNat bs), s1.countHot g a.toNat .read)
    | (.uncorrectable e, s1) => (.trap 3 a, s1.logConsumed s.cur.val e)
    | (.fault x, s1) => (.trap (xfaultTrap x) a, s1)
    | (.poison table, s1) => (.trap 4 a, s1.poisonedByMe table) := by
  have hne : ¬ field a 63 52 ≠ 0 := fun h => absurd ((beyond_52_bits_iff a).mp h) (Nat.not_le.mpr ha)
  rw [State.seqReadBytes]
  exact if_neg hne

theorem seqWriteBytes_beyond {x : Nat} (ha : 2 ^ 52 ≤ a.toNat) : s.seqWriteBytes g .global a n x = (.trap 3 a, s) := by
  rw [State.seqWriteBytes]
  exact if_pos ((beyond_52_bits_iff a).mpr ha)

theorem seqWriteBytes_within {x : Nat} (ha : a.toNat < 2 ^ 52) : s.seqWriteBytes g .global a n x =
    match s.translate g a.toNat .write with
    | (.ok pa l, s1) => (.ok 0, ((((s1.physWrite (leafComp l.entry == 1) pa (leBytes n x)).touchL2 pa n).modMe
        (fun q => { q with il1 := markOwn pa n q.il1 })).countHot g a.toNat .write))
    | (.fault x, s1) => (.trap (xfaultTrap x) a, s1)
    | (.poison table, s1) => (.trap 4 a, s1.poisonedByMe table) := by
  have hne : ¬ field a 63 52 ≠ 0 := fun h => absurd ((beyond_52_bits_iff a).mp h) (Nat.not_le.mpr ha)
  rw [State.seqWriteBytes]
  refine (if_neg hne).trans ?_
  rw [State.virtWrite, leBytes_length]
  obtain ⟨_ | _ | _, s1⟩ := s.translate g a.toNat .write <;> rfl

theorem xfaultTrap_eq (x : XFault) : xfaultTrap x = if x = .noContext ∨ x = .denied then 3 else 4 := by
  cases x <;> rfl

end Global

theorem amBytes_eq (z : BitVec 2) : amBytes z = if z = 2#2 then 4 else 8 := rfl

theorem amBytes_bounds (z : BitVec 2) : 0 < amBytes z ∧ amBytes z ≤ 8 := by
  revert z
  decide

/-- Settles O18: both forms are one load of the bytes that the translated page gives, and each clause is an outcome of that read. -/
theorem globalLoadsReadTheirPage : Obligations.GlobalLoadsReadTheirPage := by
  intro s p d b z g off o sc zo h hp hg ho hzo plain
  have hplain {i : Instr} {a : DWord} {n : Nat} {sign : BitVec 1} (hexec : exec i s = loadInstr i p d (some .global) a n sign s)
      (hw : i.wf = true) (hn : 0 < n) (hn8 : n ≤ 8) : plain i a n sign := by
    refine ⟨load_misaligned hexec hw h, fun ha hpath => ⟨fun hhi => ?_, fun hlo => ⟨?_, ?_, ?_, ?_⟩⟩, load_cutOff hexec hw h⟩
    · exact ⟨_, load_trap hexec hw h ha hpath (seqReadBytes_beyond hhi), s.trapMe_entered 3 a⟩
    · intro bs t hread
      have hacc : s.Accessed (t.countHot s.meAgent a.toNat .read) := by
        have hvirt := s.memoryOnly_virtRead s.meAgent a.toNat n .read
        rw [hread] at hvirt
        exact (hvirt.trans (State.memoryOnly_countHot _ _ _ _)).accessed
      have hseq := seqReadBytes_within (s := s) (g := s.meAgent) (n := n) hlo
      rw [hread] at hseq
      refine ⟨_, load_ok hexec hw h ha hpath hseq (hacc.undisturbed h), ?_⟩
      obtain rfl := State.virtRead_length hread
      exact holds_extendLoad sign hn hn8
    · intro x hread
      have hseq := seqReadBytes_within (s := s) (g := s.meAgent) (n := n) hlo
      rw [hread] at hseq
      dsimp only at hseq
      rw [xfaultTrap_eq] at hseq
      exact ⟨_, load_trap hexec hw h ha hpath hseq, s.trapMe_entered _ a⟩
    · intro e t hread
      have hacc : s.Accessed (t.logConsumed s.cur.val e) := by
        have hvirt := s.memoryOnly_virtRead s.meAgent a.toNat n .read
        rw [hread] at hvirt
        exact hvirt.accessed.trans (State.accessed_logConsumed _ _ _)
      have hseq := seqReadBytes_within (s := s) (g := s.meAgent) (n := n) hlo
      rw [hread] at hseq
      exact ⟨_, load_trap hexec hw h ha hpath hseq, State.trapMe_entered _ 3 a, by rw [State.trapMe_regs, hacc.me]⟩
    · intro table t hread
      have hacc : s.Accessed (t.poisonedByMe table) := by
        have hvirt := s.memoryOnly_virtRead s.meAgent a.toNat n .read
        rw [hread] at hvirt
        exact hvirt.accessed.trans (State.accessed_poisonedByMe _ _)
      have hseq := seqReadBytes_within (s := s) (g := s.meAgent) (n := n) hlo
      rw [hread] at hseq
      exact ⟨_, load_trap hexec hw h ha hpath hseq, State.trapMe_entered _ 4 a, by rw [State.trapMe_regs, hacc.me]⟩
  refine ⟨hplain (exec_ld s p d b z g 0#2 off) (ld_wf hp (by decide) hg) (Nat.two_pow_pos _) (pow_size_le z), ?_⟩
  rw [← amBytes_eq]
  have hwf : (Instr.ldOrdered p d b o sc zo).wf = true := by
    simp only [Instr.wf, Bool.and_eq_true, Bool.or_eq_true, bne_iff_ne, beq_iff_eq]
    exact ⟨⟨hp, ho⟩, hzo⟩
  obtain ⟨hpos, hle⟩ := amBytes_bounds zo
  exact hplain rfl hwf hpos hle

theorem State.holdWrite_eq (s : State) (g : Agent) (va : Nat) : ∃ ms, s.holdWrite g va = { s with moves := ms } := s.movesOnly_holdWrite g va

/-- Settles O19: both forms are one store through the page's translation, and each clause is an outcome of that write. -/
theorem globalStoresWriteTheirPage : Obligations.GlobalStoresWriteTheirPage := by
  intro s p v b z off o sc zo h hp ho hzo plain
  have hplain {i : Instr} {a : DWord} {n : Nat} (hexec : exec i s = storeInstr i p (some .global) a n (s.me.rd v) s) (hw : i.wf = true) :
      plain i a n := by
    refine ⟨store_misaligned hexec hw h, fun hpath hheld => ⟨fun ha hhi => ?_, fun ha hlo => ⟨?_, ?_⟩⟩⟩
    · exact ⟨_, store_trap hexec hw h ha hpath hheld (seqWriteBytes_beyond hhi), s.trapMe_entered 3 a⟩
    · intro pa l t htr bytes
      have hseq := seqWriteBytes_within (s := s) (g := s.meAgent) (n := n) (x := (s.me.rd v).toNat % 2 ^ (8 * n)) hlo
      rw [htr] at hseq
      dsimp only at hseq
      rw [leBytes_stored, beq_eq_decide] at hseq
      exact store_ok hexec hw h ha hpath hheld hseq
    · intro x htr
      have hseq := seqWriteBytes_within (s := s) (g := s.meAgent) (n := n) (x := (s.me.rd v).toNat % 2 ^ (8 * n)) hlo
      rw [htr] at hseq
      dsimp only at hseq
      rw [xfaultTrap_eq] at hseq
      exact ⟨_, store_trap hexec hw h ha hpath hheld hseq, s.trapMe_entered _ a⟩
  have hwf : (Instr.stOrdered p b v o sc zo).wf = true := by
    simp only [Instr.wf, Bool.and_eq_true, Bool.or_eq_true, bne_iff_ne, beq_iff_eq]
    exact ⟨⟨hp, ho⟩, hzo⟩
  refine ⟨hplain (exec_st s p v b z 0#2 off) (st_wf hp (by decide)), hplain rfl hwf, fun ha hpath hheld => ?_⟩
  have ha' : (s.me.rd b).toNat % amBytes zo = 0 := by
    rcases hzo with rfl | rfl
    · exact Nat.mod_eq_zero_of_dvd (Nat.dvd_trans (by decide) (Nat.dvd_of_mod_eq_zero ha))
    · exact ha
  obtain ⟨ms, hms⟩ := s.holdWrite_eq s.meAgent (s.me.rd b).toNat
  refine ⟨_, store_held (i := .stOrdered p b v o sc zo) rfl hwf h ha' hpath hheld, ?_⟩
  rw [hms, State.stallMe, State.modMe_me]
  exact ⟨rfl, rfl, rfl⟩

end Sys2Proof.Machine
end

section
/-! PROOF. The atomics (R164, R165, R242, R243, R270). -/

namespace Sys2Proof.Machine

theorem State.Accessed.meAgent {s v : State} (h : s.Accessed v) : v.meAgent = s.meAgent := by
  rw [State.meAgent, State.meAgent, h.me, h.cur, h.partOfTile]

/-- A translation and what follows its refusal leave an access. -/
theorem State.accessed_translate (s : State) (g : Agent) (va : Nat) (acc : Access) : s.Accessed (s.translate g va acc).2 :=
  (s.memoryOnly_translate g va acc).accessed

theorem State.accessed_atomicCheck (s : State) (addr : DWord) (n : Nat) : s.Accessed (s.atomicCheck addr n).2 := by
  have htr := s.accessed_translate s.meAgent addr.toNat .write
  unfold State.atomicCheck
  split_ifs
  · exact .refl s
  · exact .refl s
  · generalize s.translate s.meAgent addr.toNat .write = x at htr
    obtain ⟨⟨pa, l⟩ | _ | _, s1⟩ := x
    · dsimp only
      split <;> exact htr
    · exact htr
    · dsimp only
      exact htr.trans (s1.accessed_poisonedByMe _)

section Atomic
variable {s t u : State} {i : Instr} {p : BitVec 2} {addr : DWord} {n : Nat} {f : Nat → Option Nat} {finish : Nat → Seq → Seq}

theorem atomicInstr_undisturbed (hw : i.wf = true) (h : Undisturbed s) : atomicInstr i p addr n f finish s = .next (
    match s.atomicCheck addr n with
    | (some (code, tval), s1) => s1.trapMe code tval
    | (none, s1) =>
      if s1.noPath .global addr .write then s1.killCutOff
      else if s1.heldWrite s1.meAgent addr.toNat then (s1.holdWrite s1.meAgent addr.toNat).stallMe i .retry
      else if s1.roundReady then
        match s1.atomicDo addr n f with
        | (.trap code tval, s2) => s2.trapMe code tval
        | (.ok old, s2) => s2.makeIrrevocable.modMe (fun q => (finish old q).advance.resume)
      else s1.stallMe i .round) := by
  rw [atomicInstr, seqInstr_undisturbed hw h]
  simp only [BitVec.xor_zero] <;> rfl

/-- An atomic whose page is there, in a round that is the oldest, does its event. -/
theorem atomicInstr_performs (hw : i.wf = true) (h : Undisturbed s) (hcheck : s.atomicCheck addr n = (none, t))
    (hpath : t.noPath .global addr .write = false) (hheld : t.heldWrite s.meAgent addr.toNat = false) (hready : t.roundReady = true) :
    atomicInstr i p addr n f finish s = .next (
      match t.atomicDo addr n f with
      | (.trap code tval, s2) => s2.trapMe code tval
      | (.ok old, s2) => s2.makeIrrevocable.modMe (fun q => (finish old q).advance.resume)) := by
  have hacc := s.accessed_atomicCheck addr n
  rw [hcheck] at hacc
  have hagent : t.meAgent = s.meAgent := hacc.meAgent
  rw [atomicInstr_undisturbed hw h, hcheck]
  dsimp only
  rw [if_neg (by simp [hpath]), hagent, if_neg (by simp [hheld]), if_pos hready]

theorem atomicInstr_waits (hw : i.wf = true) (h : Undisturbed s) (hcheck : s.atomicCheck addr n = (none, t))
    (hpath : t.noPath .global addr .write = false) (hheld : t.heldWrite s.meAgent addr.toNat = false) (hready : t.roundReady = false) :
    atomicInstr i p addr n f finish s = .next (t.stallMe i .round) := by
  have hacc := s.accessed_atomicCheck addr n
  rw [hcheck] at hacc
  have hagent : t.meAgent = s.meAgent := hacc.meAgent
  rw [atomicInstr_undisturbed hw h, hcheck]
  dsimp only
  rw [if_neg (by simp [hpath]), hagent, if_neg (by simp [hheld]), if_neg (by simp [hready])]

theorem atomicInstr_misaligned (hw : i.wf = true) (h : Undisturbed s) (ha : addr.toNat % n ≠ 0) :
    atomicInstr i p addr n f finish s = .next (s.trapMe 2 addr) := by
  have hcheck : s.atomicCheck addr n = (some (2, addr), s) := if_pos ha
  rw [atomicInstr_undisturbed hw h, hcheck]

theorem State.atomicCheck_ok {pa : Nat} {l : Leaf} (ha : addr.toNat % n = 0) (hlo : addr.toNat < 2 ^ 52)
    (htr : s.translate s.meAgent addr.toNat .write = (.ok pa l, t)) (hkind : ¬ (leafMtype l.entry = 1 ∧ hostBase ≤ l.frame)) :
    s.atomicCheck addr n = (none, t) := by
  have hne : ¬ field addr 63 52 ≠ 0 := fun h => absurd ((beyond_52_bits_iff addr).mp h) (Nat.not_le.mpr hlo)
  rw [State.atomicCheck, if_neg (not_not.mpr ha), if_neg hne, htr]
  dsimp only
  rw [if_neg (by simpa using hkind)]

/-- What the event of an atomic leaves behind at a page: the new value, where there is one, or the line of the old. -/
def State.atomicAfter (u : State) (g : Agent) (addr : DWord) (pa n : Nat) (comp : Bool) : Option Nat → State
  | none => u.touchL2 pa n
  | some x => ((((u.physWrite comp pa (leBytes n x)).touchL2 pa n).modMe (fun q => { q with il1 := markOwn pa n q.il1 })).countHot g
      addr.toNat .write)

theorem State.atomicDo_ok {pa : Nat} {l : Leaf} (htr : t.translate t.meAgent addr.toNat .write = (.ok pa l, u)) (hbad : u.physBad pa n = false) :
    t.atomicDo addr n f = (.ok (leNat (u.physBytes pa n)),
      u.atomicAfter t.meAgent addr pa n (leafComp l.entry == 1) (f (leNat (u.physBytes pa n)))) := by
  rw [State.atomicDo, htr]
  dsimp only
  rw [if_neg (by simp [hbad])]
  generalize f (leNat (u.physBytes pa n)) = new
  cases new <;> rfl

theorem State.atomicDo_bad {pa : Nat} {l : Leaf} (htr : t.translate t.meAgent addr.toNat .write = (.ok pa l, u)) (hbad : u.physBad pa n = true) :
    t.atomicDo addr n f = (.trap 3 addr, (u.eccMet pa n).logConsumed t.cur.val (u.memErr pa n false)) := by
  rw [State.atomicDo, htr]
  dsimp only
  rw [if_pos hbad]

end Atomic

theorem amo_wf {p : BitVec 2} {d a v : BitVec 5} {o sc z : BitVec 2} (hp : p ≠ 3#2) (hz : z = 2#2 ∨ z = 3#2) :
    (Instr.amoAdd p d a v o sc z).wf = true ∧ (Instr.amoSwap p d a v o sc z).wf = true ∧ (Instr.amoCas p d a v o sc z).wf = true := by
  have h : (p != 3#2 && (z == 2#2 || z == 3#2)) = true := by simpa using ⟨hp, hz⟩
  exact ⟨h, h, h⟩

theorem exec_amoAdd (s : State) (p : BitVec 2) (d a v : BitVec 5) (o sc z : BitVec 2) : exec (.amoAdd p d a v o sc z) s =
    atomicInstr (.amoAdd p d a v o sc z) p (s.me.rd a) (amBytes z) (fun old => some ((old + (s.me.rd v).toNat) % 2 ^ (8 * amBytes z)))
      (fun old q => q.wr d (BitVec.ofNat 64 old)) s := rfl

theorem exec_amoSwap (s : State) (p : BitVec 2) (d a v : BitVec 5) (o sc z : BitVec 2) : exec (.amoSwap p d a v o sc z) s =
    atomicInstr (.amoSwap p d a v o sc z) p (s.me.rd a) (amBytes z) (fun _ => some ((s.me.rd v).toNat % 2 ^ (8 * amBytes z)))
      (fun old q => q.wr d (BitVec.ofNat 64 old)) s := rfl

theorem exec_amoCas (s : State) (p : BitVec 2) (d a v : BitVec 5) (o sc z : BitVec 2) : exec (.amoCas p d a v o sc z) s =
    atomicInstr (.amoCas p d a v o sc z) p (s.me.rd a) (amBytes z)
      (fun old => if old = (s.me.rd d).toNat % 2 ^ (8 * amBytes z) then some ((s.me.rd v).toNat % 2 ^ (8 * amBytes z)) else none)
      (fun old q => q.wr d (BitVec.ofNat 64 old)) s := rfl

theorem exec_evAdd (s : State) (p : BitVec 2) (a v : BitVec 5) (sc : BitVec 2) : exec (.evAdd p a v sc) s =
    atomicInstr (.evAdd p a v sc) p (s.me.rd a) 8 (fun old => some ((old + (s.me.rd v).toNat) % 2 ^ 64)) (fun _ q => q) s := rfl

section Event
variable {s t u : State} {i : Instr} {p : BitVec 2} {addr : DWord} {n pa : Nat} {l l' : Leaf} {new : Nat → Option Nat} {finish : Nat → Seq → Seq}

/-- An atomic that is performed reads its old value, and writes the new one where that can be read. -/
theorem atomic_runs (h : Undisturbed s) (hexec : exec i s = atomicInstr i p addr n new finish s) (hw : i.wf = true)
    (hpc : ∀ old q, (finish old q).pc = q.pc) (ha : addr.toNat % n = 0) (hlo : addr.toNat < 2 ^ 52)
    (htr : s.translate s.meAgent addr.toNat .write = (.ok pa l, t)) (hkind : ¬ (leafMtype l.entry = 1 ∧ hostBase ≤ l.frame))
    (hpath : t.noPath .global addr .write = false) (hheld : t.heldWrite s.meAgent addr.toNat = false) (hready : t.roundReady = true)
    (htr' : t.translate s.meAgent addr.toNat .write = (.ok pa l', u)) :
    (u.physBad pa n = false → exec i s = .next
      ((u.atomicAfter s.meAgent addr pa n (leafComp l'.entry == 1) (new (leNat (u.physBytes pa n)))).makeIrrevocable.modMe
        (fun q => { finish (leNat (u.physBytes pa n)) q with pc := q.pc + 4#64, stall := none })))
    ∧ (u.physBad pa n = true → ∃ v, exec i s = .next v
      ∧ Entered ((u.eccMet pa n).logConsumed s.cur.val (u.memErr pa n false)) v 3 addr ∧ v.me.regs = s.me.regs) := by
  have hacc : s.Accessed t := by
    have := s.accessed_translate s.meAgent addr.toNat .write
    rwa [htr] at this
  have hacc' : t.Accessed u := by
    have := t.accessed_translate s.meAgent addr.toNat .write
    rwa [htr'] at this
  have hdo := atomicInstr_performs (p := p) (f := new) (finish := finish) hw h (State.atomicCheck_ok ha hlo htr hkind) hpath hheld hready
  rw [← hexec] at hdo
  rw [← hacc.meAgent] at htr'
  refine ⟨fun hbad => ?_, fun hbad => ?_⟩
  · rw [State.atomicDo_ok htr' hbad, hacc.meAgent] at hdo
    rw [hdo]
    refine congrArg Host.Outcome.next (State.modMe_congr _ _ _ ?_)
    rw [Seq.resume, Seq.advance, hpc]
  · rw [State.atomicDo_bad htr' hbad, hacc.cur] at hdo
    have hlog : s.Accessed ((u.eccMet pa n).logConsumed s.cur.val (u.memErr pa n false)) :=
      (hacc.trans hacc').trans ((u.memoryOnly_eccMet pa n).accessed.trans (State.accessed_logConsumed _ _ _))
    exact ⟨_, hdo, State.trapMe_entered _ 3 addr, by rw [State.trapMe_regs, hlog.me]⟩

theorem atomic_waits {f : Nat → Option Nat} (h : Undisturbed s) (hexec : exec i s = atomicInstr i p addr n f finish s) (hw : i.wf = true)
    (hcheck : s.atomicCheck addr n = (none, t)) (hpath : t.noPath .global addr .write = false)
    (hheld : t.heldWrite s.meAgent addr.toNat = false) (hready : t.roundReady = false) :
    ∃ u, exec i s = .next u ∧ u = t.modMe (fun q => { q with stall := u.me.stall }) ∧ u.me.stall.isSome = true := by
  refine ⟨_, hexec.trans (atomicInstr_waits hw h hcheck hpath hheld hready), ?_⟩
  rw [State.stallMe, State.modMe_me]
  exact ⟨rfl, rfl⟩

end Event

/-- Settles O20: every atomic is one shape with its own new value, and each clause is a branch of that shape. -/
theorem atomicsReadAndWriteAtOnce : Obligations.AtomicsReadAndWriteAtOnce := by
  refine ⟨?_, ?_⟩
  · intro s t u p d a v o sc z pa l l' h hp addr agent run into x
    have hrun {i : Instr} {n : Nat} {new : Nat → Option Nat} {finish : Nat → Seq → Seq}
        (hexec : exec i s = atomicInstr i p addr n new finish s) (hw : i.wf = true) (hpc : ∀ old q, (finish old q).pc = q.pc) :
        run i n new finish := by
      intro ha hlo htr hkind hpath hheld hready htr' old after
      have hafter : u.atomicAfter agent addr pa n (leafComp l'.entry == 1) (new old) = after := by
        rw [beq_eq_decide]
        show State.atomicAfter u agent addr pa n _ (new old) = (match new old with
          | none => _
          | some x => _)
        cases new old <;> rfl
      rw [← hafter]
      exact atomic_runs h hexec hw hpc ha hlo htr hkind hpath hheld hready htr'
    clear_value run
    refine ⟨?_, hrun (exec_evAdd s p a v sc) (bne_iff_ne.mpr hp) (fun _ _ => rfl)⟩
    intro hz n
    have hn : amBytes z = n := rfl
    clear_value n
    subst hn
    obtain ⟨hadd, hswap, hcas⟩ := amo_wf (d := d) (a := a) (v := v) (o := o) (sc := sc) hp hz
    have hpc (old : Nat) (q : Seq) : (into old q).pc = q.pc := q.wr_pc d _
    exact ⟨hrun (finish := into) (exec_amoAdd s p d a v o sc z) hadd hpc, hrun (finish := into) (exec_amoSwap s p d a v o sc z) hswap hpc,
      hrun (finish := into) (exec_amoCas s p d a v o sc z) hcas hpc⟩
  · intro s p d a v o sc z h hp hz addr n
    have hn : amBytes z = n := rfl
    clear_value n
    subst hn
    obtain ⟨hadd, hswap, hcas⟩ := amo_wf (d := d) (a := a) (v := v) (o := o) (sc := sc) hp hz
    have hev : (Instr.evAdd p a v sc).wf = true := bne_iff_ne.mpr hp
    refine ⟨fun ha => ⟨?_, ?_, ?_⟩, fun ha => ?_, fun _ => atomic_waits h (exec_amoAdd s p d a v o sc z) hadd,
      fun _ => atomic_waits h (exec_amoSwap s p d a v o sc z) hswap, fun _ => atomic_waits h (exec_amoCas s p d a v o sc z) hcas,
      fun _ => atomic_waits h (exec_evAdd s p a v sc) hev⟩
    · exact ⟨_, atomicInstr_misaligned hadd h ha, s.trapMe_entered 2 addr⟩
    · exact ⟨_, atomicInstr_misaligned hswap h ha, s.trapMe_entered 2 addr⟩
    · exact ⟨_, atomicInstr_misaligned hcas h ha, s.trapMe_entered 2 addr⟩
    · exact ⟨_, atomicInstr_misaligned hev h ha, s.trapMe_entered 2 addr⟩

end Sys2Proof.Machine
end

section
/-! SUPPORT. What a strand's own operations leave unchanged, and how the configuration instructions begin and trap (R246 to R258, R404). -/

namespace Sys2Proof.Machine

/-! ### Tiles and strands, read after they are written -/

section Reads
variable (s : State) (t u : Fin 192) (k j : Fin 8)

theorem State.modTile_congr (f g : Tile → Tile) (h : f (s.tile t) = g (s.tile t)) : s.modTile t f = s.modTile t g := by
  rw [State.tile] at h
  rw [State.modTile, State.modTile, h]

theorem State.modTile_modTile (f g : Tile → Tile) : (s.modTile t f).modTile t g = s.modTile t (fun x => g (f x)) := by
  simp [State.modTile]

theorem State.modTile_self (f : Tile → Tile) (h : f (s.tile t) = s.tile t) : s.modTile t f = s := by
  rw [State.modTile, show s.tiles[t] = s.tile t from rfl, h]
  exact congrArg (fun x => { s with tiles := x }) (Vector.set_getElem_self _)

@[simp] theorem State.modMe_strands (f : Seq → Seq) : ((s.modMe f).tile u).strands = (s.tile u).strands :=
  s.modTile_keeps s.cur (fun x => { x with seq := f x.seq }) Tile.strands (fun _ => rfl) u

@[simp] theorem State.modMe_ctxs (f : Seq → Seq) : ((s.modMe f).tile u).ctxs = (s.tile u).ctxs :=
  s.modTile_keeps s.cur (fun x => { x with seq := f x.seq }) Tile.ctxs (fun _ => rfl) u

@[simp] theorem State.modMe_strand (f : Seq → Seq) : (s.modMe f).strand u k = s.strand u k := by
  rw [State.strand, State.strand, State.modMe_strands]

@[simp] theorem State.modStrand_ctxs (f : Strand → Strand) : ((s.modStrand t k f).tile u).ctxs = (s.tile u).ctxs :=
  s.modTile_keeps t (fun x => { x with strands := x.strands.set k (f x.strands[k]) }) Tile.ctxs (fun _ => rfl) u

@[simp] theorem State.modStrand_me (f : Strand → Strand) : (s.modStrand t k f).me = s.me := s.modStrand_seq t k f s.cur

theorem State.modStrand_strand_ne (f : Strand → Strand) (h : k ≠ j) : (s.modStrand t k f).strand t j = s.strand t j := by
  have h' : (k : Nat) ≠ j := fun e => h (Fin.ext e)
  simp [State.modStrand, State.strand, Vector.getElem_set_ne _ _ h']

theorem State.modStrand_congr (f g : Strand → Strand) (h : f (s.strand t k) = g (s.strand t k)) : s.modStrand t k f = s.modStrand t k g := by
  have h' : f (s.tile t).strands[k] = g (s.tile t).strands[k] := h
  exact s.modTile_congr t _ _ (by rw [h'])

theorem State.modStrand_modStrand (f g : Strand → Strand) : (s.modStrand t k f).modStrand t k g = s.modStrand t k (fun x => g (f x)) := by
  simp [State.modStrand, State.modTile_modTile]

theorem State.modStrand_self (f : Strand → Strand) (h : f (s.strand t k) = s.strand t k) : s.modStrand t k f = s := by
  have h' : f (s.tile t).strands[k] = (s.tile t).strands[k] := h
  refine s.modTile_self t _ ?_
  rw [h']
  exact congrArg (fun x => { s.tile t with strands := x }) (Vector.set_getElem_self _)

end Reads

/-! ### Operations that move a strand's tokens only -/

/-- Nothing differs but the units and the phase of a strand, the runs and the scratchpads. -/
def State.SuppliesOnly (t : Fin 192) (k : Fin 8) (s v : State) : Prop :=
  ∃ us ph rs ms, v = { s.modStrand t k (fun st => { st with units := us, phase := ph }) with runs := rs, mtiles := ms }

section Supplies
variable {t : Fin 192} {k : Fin 8} {s v w : State}

theorem State.SuppliesOnly.refl (s : State) : State.SuppliesOnly t k s s := by
  refine ⟨(s.strand t k).units, (s.strand t k).phase, s.runs, s.mtiles, ?_⟩
  rw [State.modStrand_self s t k _ rfl]

theorem State.SuppliesOnly.trans (h : State.SuppliesOnly t k s v) (h' : State.SuppliesOnly t k v w) : State.SuppliesOnly t k s w := by
  obtain ⟨us, ph, rs, ms, rfl⟩ := h
  obtain ⟨us', ph', rs', ms', rfl⟩ := h'
  refine ⟨us', ph', rs', ms', ?_⟩
  have h := s.modStrand_modStrand t k (fun st => { st with units := us, phase := ph }) (fun st => { st with units := us', phase := ph' })
  exact congrArg (fun x : State => { x with runs := rs', mtiles := ms' }) h

theorem State.suppliesOnly_modRun (s : State) (g : Word) (f : Run → Run) : State.SuppliesOnly t k s (s.modRun g f) := by
  refine ⟨(s.strand t k).units, (s.strand t k).phase, (s.modRun g f).runs, s.mtiles, ?_⟩
  rw [State.modStrand_self s t k _ rfl]
  rfl

theorem State.suppliesOnly_modUnit (s : State) {x : RCtx} (ht : x.t = t) (hk : x.k = k) (u : Nat) (f : UnitSt → UnitSt) :
    State.SuppliesOnly t k s (s.modUnit x u f) := by
  subst ht hk
  exact ⟨_, (s.strand x.t x.k).phase, s.runs, s.mtiles, State.modStrand_congr s x.t x.k _ _ rfl⟩

theorem State.suppliesOnly_modPhase (s : State) {x : RCtx} (ht : x.t = t) (hk : x.k = k) (f : Phase → Phase) :
    State.SuppliesOnly t k s (s.modPhase x f) := by
  subst ht hk
  exact ⟨(s.strand x.t x.k).units, _, s.runs, s.mtiles, State.modStrand_congr s x.t x.k _ _ rfl⟩

theorem State.suppliesOnly_setDesc (s : State) (r : Fin 192) (table b word n : Nat) : State.SuppliesOnly t k s (s.setDesc r table b word n) := by
  unfold State.setDesc
  split
  · exact .refl s
  next m a _ =>
    refine ⟨(s.strand t k).units, (s.strand t k).phase, s.runs, (s.padWrite m (a + 4 * word) (leBytes 4 n)).mtiles, ?_⟩
    rw [State.modStrand_self s t k _ rfl]
    rfl

theorem State.suppliesOnly_returnTokens (s : State) {x : RCtx} (ht : x.t = t) (hk : x.k = k) : State.SuppliesOnly t k s (s.returnTokens x) := by
  refine List.foldlRecOn (motive := State.SuppliesOnly t k s) _ _ (.refl s) (fun v hv u _ => hv.trans ?_)
  dsimp only
  split
  · exact .refl v
  · split
    · refine .trans ?_ (State.suppliesOnly_modUnit _ ht hk _ _)
      split
      · exact v.suppliesOnly_modRun _ _
      · split
        · exact v.suppliesOnly_modRun _ _
        · exact .refl v
    · split
      · split
        · exact (v.suppliesOnly_modRun _ _).trans (State.suppliesOnly_modUnit _ ht hk _ _)
        · exact .refl v
      · exact .refl v

theorem State.suppliesOnly_placePart (s : State) {x : RCtx} (ht : x.t = t) (hk : x.k = k) (c : Fin 16) (u : Nat) :
    State.SuppliesOnly t k s (State.placePart x c s u) := by
  unfold State.placePart
  dsimp only
  split
  · exact s.suppliesOnly_modRun _ _
  · split_ifs
    · exact s.suppliesOnly_modRun _ _
    · exact s.suppliesOnly_modUnit ht hk _ _

theorem State.suppliesOnly_injectPart (s : State) {x : RCtx} (ht : x.t = t) (hk : x.k = k) (c : Fin 16) :
    State.SuppliesOnly t k s (s.injectPart x c) := by
  unfold State.injectPart
  dsimp only
  split
  · exact s.suppliesOnly_modPhase ht hk _
  · exact List.foldlRecOn (motive := State.SuppliesOnly t k s) _ _ (.refl s) (fun v hv u _ => hv.trans (v.suppliesOnly_placePart ht hk c u))

theorem State.suppliesOnly_noteSkips (s : State) (r : Fin 192) (table : Nat) (ds : List (Nat × ExitDesc)) (chosen : Option Nat) :
    State.SuppliesOnly t k s (s.noteSkips r table ds chosen) :=
  List.foldlRecOn (motive := State.SuppliesOnly t k s) _ _ (.refl s) (fun v hv _ _ => hv.trans (v.suppliesOnly_setDesc _ _ _ _ _))

/-! What such a state shares with the one before. -/

theorem State.SuppliesOnly.cur (h : State.SuppliesOnly t k s v) : v.cur = s.cur := by
  obtain ⟨_, _, _, _, rfl⟩ := h
  rfl

theorem State.SuppliesOnly.mem (h : State.SuppliesOnly t k s v) : v.mem = s.mem := by
  obtain ⟨_, _, _, _, rfl⟩ := h
  rfl

theorem State.SuppliesOnly.me (h : State.SuppliesOnly t k s v) : v.me = s.me := by
  obtain ⟨us, ph, _, _, rfl⟩ := h
  exact s.modStrand_me t k (fun st => { st with units := us, phase := ph })

theorem State.SuppliesOnly.ctxs (h : State.SuppliesOnly t k s v) (u : Fin 192) : (v.tile u).ctxs = (s.tile u).ctxs := by
  obtain ⟨us, ph, _, _, rfl⟩ := h
  exact s.modStrand_ctxs t u k (fun st => { st with units := us, phase := ph })

theorem State.SuppliesOnly.strand_ne (h : State.SuppliesOnly t k s v) {j : Fin 8} (hj : j ≠ k) : v.strand t j = s.strand t j := by
  obtain ⟨us, ph, _, _, rfl⟩ := h
  exact s.modStrand_strand_ne t k j (fun st => { st with units := us, phase := ph }) hj.symm

theorem State.SuppliesOnly.strand (h : State.SuppliesOnly t k s v) : ∃ us ph, v.strand t k = { s.strand t k with units := us, phase := ph } := by
  obtain ⟨us, ph, _, _, rfl⟩ := h
  exact ⟨us, ph, s.modStrand_strand_self t k (fun st => { st with units := us, phase := ph })⟩

end Supplies

/-! ### Configuration instructions -/

section Cfg
variable {s t : State} {i : Instr} {p : BitVec 2}

theorem undisturbed_boundary (h : Undisturbed s) : Undisturbed (s.modMe Seq.boundary) := by
  rw [Undisturbed, State.modMe_me]
  exact h

theorem cfgInstr_undisturbed (hw : i.wf = true) (h : Undisturbed s) (f : DWord → State → State) :
    cfgInstr i p f s = .next (f 0#64 (s.modMe Seq.boundary)) := seqInstr_undisturbed hw h p 5 _

/-- A trap taken after the block boundary of the instruction is a trap taken from before it. -/
theorem entered_of_boundary {code : Nat} {tval : DWord} (h : Entered (s.modMe Seq.boundary) t code tval) : Entered s t code tval := by
  obtain ⟨ht, h⟩ := h
  rw [State.modMe_me] at h
  obtain ⟨hepc, hcause, htval, hpsv, hsv, hstep, hstatus, hpc, hregs, hpreds, hvbase, hscratch, hctx, hbrk, hram, hmode, hheld, hil1⟩ := h
  rw [State.modMe_modMe] at ht
  exact ⟨ht, hepc, hcause, htval, hpsv, hsv, hstep, hstatus, hpc, hregs, hpreds, hvbase, hscratch, hctx, hbrk, hram, hmode, hheld,
    hil1.trans List.filter_sublist⟩

theorem State.cfgError_eq (s : State) {reason x code : Nat} (hreason : reason < 256) (hx : x < 256) (hcode : code < 65536) :
    s.cfgError reason x code = s.trapMe 8 (cfgTval reason x code) := by
  rw [State.cfgError, Nat.mod_eq_of_lt hreason, Nat.mod_eq_of_lt hx, Nat.mod_eq_of_lt hcode]
  rfl

theorem traps_of_boundary {code : Nat} {tval : DWord} (hexec : exec i s = .next ((s.modMe Seq.boundary).trapMe code tval)) : Traps i s code tval :=
  ⟨_, hexec, entered_of_boundary (State.trapMe_entered _ code tval)⟩

theorem traps_of_cfgError {reason x code : Nat} (hexec : exec i s = .next ((s.modMe Seq.boundary).cfgError reason x code)) (hreason : reason < 256)
    (hx : x < 256) (hcode : code < 65536) : Traps i s 8 (cfgTval reason x code) :=
  traps_of_boundary (hexec.trans (congrArg _ (State.cfgError_eq _ hreason hx hcode)))

end Cfg

end Sys2Proof.Machine
end

section
/-! PROOF. Image loads and shadows (R247, R251, R252). -/

namespace Sys2Proof.Machine

/-! ### What fetching an image leaves unchanged -/

theorem State.accessed_imageWord (s : State) (va : Nat) : s.Accessed (s.imageWord va).2 := by
  have hread := (s.memoryOnly_virtRead s.meUserAgent va 4 .exec).accessed
  unfold State.imageWord
  dsimp only
  split
  · exact .refl s
  · revert hread
    rcases s.virtRead s.meUserAgent va 4 .exec with ⟨out, s1⟩
    intro hread
    cases out with
    | ok bs => exact hread
    | uncorrectable e => exact hread.trans (s1.accessed_logConsumed _ e)
    | fault x => exact hread
    | poison table =>
      dsimp only
      exact hread.trans (s1.accessed_poisonedByMe table)

theorem State.accessed_imageWords (s : State) (va : Nat) (acc : List Byte) (n : Nat) : s.Accessed (s.imageWords va acc n).2 := by
  induction n generalizing s va acc with
  | zero => exact .refl s
  | succ n ih =>
    have hword := s.accessed_imageWord va
    unfold State.imageWords
    split
    · next heq => rw [heq] at hword; exact hword.trans (ih _ _ _)
    · next heq => rw [heq] at hword; exact hword

theorem State.accessed_fetchImage (s : State) (va : Nat) : s.Accessed (s.fetchImage va).2 := by
  have hhead := s.accessed_imageWords va [] 4
  unfold State.fetchImage
  split
  · next heq => rw [heq] at hhead; exact hhead
  next h s1 heq =>
    rw [heq] at hhead
    have hrecords := s1.accessed_imageWords (va + 16) h (blockBytes (leNat h) / 4)
    dsimp only
    split
    · next heq => rw [heq] at hrecords; exact hhead.trans hrecords
    · next heq =>
        rw [heq] at hrecords
        exact hhead.trans (hrecords.trans (State.accessed_imageWords _ _ _ _))

/-! ### A context set -/

theorem State.setMyCtx_ctxs (s : State) (c : Fin 16) (x : Ctx) (k : Fin 16) :
    ((s.setMyCtx c x).tile s.cur).ctxs[k] = if k = c then x else (s.tile s.cur).ctxs[k] := by
  rw [State.setMyCtx, State.modTile_tile_self]
  simp [Vector.getElem_set, Fin.ext_iff, eq_comm]

theorem State.setMyCtx_me (s : State) (c : Fin 16) (x : Ctx) : (s.setMyCtx c x).me = s.me :=
  s.modTile_keeps s.cur (fun t => { t.dropImage c with ctxs := t.ctxs.set c x }) Tile.seq (fun _ => rfl) s.cur

theorem State.trapMe_ctxs (s : State) (code : Nat) (tval : DWord) (u : Fin 192) : ((s.trapMe code tval).tile u).ctxs = (s.tile u).ctxs :=
  s.modMe_ctxs u _

/-! ### cfg.load -/

section Load
variable {s : State} {p : BitVec 2} {a : BitVec 5} {c : BitVec 4}

theorem cfgLoad_wf (hp : p ≠ 3#2) : (Instr.cfgLoad p a c).wf = true := bne_iff_ne.mpr hp

theorem exec_cfgLoad (hp : p ≠ 3#2) (h : Undisturbed s) : exec (.cfgLoad p a c) s = .next (
    if (s.me.rd a).toNat % 16 ≠ 0 then (s.modMe Seq.boundary).trapMe 2 (s.me.rd a)
    else if (s.tile s.cur).busy c.toFin then (s.modMe Seq.boundary).cfgError 2 c.toNat 0
    else if s.me.slow then
      (((s.modMe Seq.boundary).setMyCtx c.toFin {}).modMe (fun q => { q with slow := false })).stallMe (.cfgLoad p a c) .retry
    else
      match (s.modMe Seq.boundary).fetchImage (s.me.rd a).toNat with
      | (.trap code tval, s1) => (s1.setMyCtx c.toFin {}).trapMe code tval
      | (.ok bs, s1) =>
        match s1.imageCode (imageOf bs) ((s1.runOfTile s.cur.val).bind (fun r => r.blockAt (s.me.rd a).toNat)) with
        | some code => (s1.setMyCtx c.toFin {}).cfgError 1 c.toNat code
        | none => (s1.setMyCtx c.toFin { image := some (imageOf bs), block := (s1.runOfTile s.cur.val).bind (fun r => r.blockAt (s.me.rd a).toNat) }).nextMe) := by
  have hx : ∀ v : DWord, v ^^^ 0#64 = v := fun v => BitVec.xor_zero
  have hme : (s.modMe Seq.boundary).me = s.me.boundary := s.modMe_me _
  have hbusy : ((s.modMe Seq.boundary).tile s.cur).busy c.toFin = (s.tile s.cur).busy c.toFin := by
    rw [Tile.busy, Tile.busy, State.modMe_strands]
  rw [show exec (.cfgLoad p a c) s = execCfgLoad p a c s from rfl, execCfgLoad, cfgInstr_undisturbed (cfgLoad_wf hp) h]
  refine congrArg _ ?_
  dsimp only
  rw [hx, hme, State.modMe_cur]
  rw [show s.me.boundary.rd a = s.me.rd a from rfl, show s.me.boundary.slow = s.me.slow from rfl]
  rw [show ctxOf c = c.toFin from rfl, hbusy] <;> rfl

theorem State.stallMe_stall (s : State) (i : Instr) (k : StallKind) : (s.stallMe i k).me.stall.isSome = true := by
  rw [State.stallMe, State.modMe_me]
  rfl

/-- Settles O22: each path of cfg.load is a branch of its definition, and a fetch changes no tile. -/
theorem configurationLoadPlacesACheckedImage : Obligations.ConfigurationLoadPlacesACheckedImage := by
  intro s p a c h hp
  have hexec := exec_cfgLoad (a := a) (c := c) hp h
  have hme : (s.modMe Seq.boundary).me = s.me.boundary := s.modMe_me _
  refine ⟨?misaligned, ?busy, ?slow, ?fetched, ?faulted⟩
  case misaligned =>
    intro ha
    exact traps_of_boundary (by rw [hexec, if_pos ha])
  case busy =>
    intro ha hb
    exact traps_of_cfgError (by rw [hexec, if_neg (not_not.mpr ha), if_pos hb]) (by decide) (c.isLt.trans (by decide)) (by decide)
  case slow =>
    intro ha hb hslow
    rw [if_neg (not_not.mpr ha), hb, if_neg Bool.false_ne_true, if_pos hslow] at hexec
    refine ⟨_, hexec, State.stallMe_stall _ _ _, ?_, ?_, rfl, ?_⟩
    · rw [State.stallMe, State.modMe_me, State.modMe_me, State.setMyCtx_me, hme]
      rfl
    · rw [State.stallMe, State.modMe_me, State.modMe_me, State.setMyCtx_me, hme]
      rfl
    · intro k
      rw [State.stallMe, State.modMe_ctxs, State.modMe_ctxs]
      exact ((s.modMe Seq.boundary).setMyCtx_ctxs c.toFin {} k).trans (by rw [State.modMe_cur, State.modMe_ctxs])
  case fetched =>
    intro ha hb hslow bs t hfetch
    have hcur : t.cur = s.cur := by
      have hacc := (s.modMe Seq.boundary).accessed_fetchImage (s.me.rd a).toNat
      rw [hfetch] at hacc
      exact hacc.cur
    rw [if_neg (not_not.mpr ha), hb, if_neg Bool.false_ne_true, hslow, if_neg Bool.false_ne_true, hfetch] at hexec
    dsimp only at hexec ⊢
    refine ⟨fun hcode => ?_, fun code hlt hcode => ?_⟩
    · rw [hcode] at hexec
      refine ⟨_, hexec, rfl, fun k => ?_⟩
      rw [State.nextMe, State.modMe_ctxs, ← hcur, State.setMyCtx_ctxs]
    · rw [hcode] at hexec
      refine ⟨_, hexec, ?_⟩
      dsimp only
      rw [State.cfgError_eq _ (by decide) (c.isLt.trans (by decide)) hlt]
      exact State.trapMe_entered _ _ _
  case faulted =>
    intro ha hb hslow code tval t hfetch
    have hcur : t.cur = s.cur := by
      have hacc := (s.modMe Seq.boundary).accessed_fetchImage (s.me.rd a).toNat
      rw [hfetch] at hacc
      exact hacc.cur
    rw [if_neg (not_not.mpr ha), hb, if_neg Bool.false_ne_true, hslow, if_neg Bool.false_ne_true, hfetch] at hexec
    refine ⟨_, hexec, State.trapMe_entered _ _ _, ?_⟩
    rw [State.trapMe_ctxs, ← hcur, State.setMyCtx_ctxs, if_pos rfl]

end Load

/-! ### cfg.arm -/

theorem Tile.busy_iff (t : Tile) (c : Fin 16) :
    t.busy c = true ↔ ∃ j : Fin 8, t.strands[j].active = some c ∨ t.strands[j].shadow = .armed c := by
  simp only [Tile.busy, Vector.any_eq_true, Bool.or_eq_true, decide_eq_true_eq]
  exact ⟨fun ⟨j, hj, h⟩ => ⟨⟨j, hj⟩, h⟩, fun ⟨j, h⟩ => ⟨j, j.isLt, h⟩⟩

theorem Strand.sameRegion_iff (st : Strand) (i : Image) : st.sameRegion i = true ↔ bRegion st.region = i.region := beq_iff_eq

theorem State.modMe_armReason (s : State) (f : Seq → Seq) (k : Fin 8) (c : Fin 16) : (s.modMe f).armReason k c = s.armReason k c := by
  simp only [State.armReason, State.myStrand, State.myCtx, State.modMe_cur, State.modMe_strand, State.modMe_ctxs, Tile.busy, State.modMe_strands]
  rfl

/-- The state after an arm, without the advance of the pc: the context is released by every strand, then armed for one. -/
def State.armed (s : State) (k : Fin 8) (c : Fin 16) : State :=
  (s.modTile s.cur (fun t => { t with strands := t.strands.map (fun st => st.release c) })).modStrand s.cur k (fun st => { st with shadow := .armed c })

theorem State.armed_strands (s : State) (k j : Fin 8) (c : Fin 16) : ((s.armed k c).tile s.cur).strands[j] =
    if j = k then { (s.tile s.cur).strands[j] with shadow := .armed c }
    else if (s.tile s.cur).strands[j].shadow = .unarmed c then { (s.tile s.cur).strands[j] with shadow := .none }
    else (s.tile s.cur).strands[j] := by
  have hset : ((s.armed k c).tile s.cur).strands =
      ((s.tile s.cur).strands.map (fun st => st.release c)).set k { ((s.tile s.cur).strands[k]).release c with shadow := .armed c } := by
    simp [State.armed, State.modStrand]
  rw [hset]
  by_cases hj : j = k
  · subst hj
    simp only [if_true, Fin.getElem_fin, Vector.getElem_set_self, Strand.release]
    split <;> rfl
  · have hj' : (k : Nat) ≠ j := fun e => hj (Fin.ext e.symm)
    rw [if_neg hj]
    simp only [Fin.getElem_fin, Vector.getElem_set_ne _ _ hj', Vector.getElem_map, Strand.release]

theorem State.armed_modMe (s : State) (k : Fin 8) (c : Fin 16) (f : Seq → Seq) :
    (s.armed k c).modMe f = s.modTile s.cur (fun y => { y with strands := ((s.armed k c).tile s.cur).strands, seq := f y.seq }) := by
  have harmed : s.armed k c = s.modTile s.cur (fun y => { y with
      strands := (y.strands.map (fun st => st.release c)).set k { (y.strands.map (fun st => st.release c))[k] with shadow := .armed c } }) := by
    rw [State.armed, State.modStrand, State.modTile_modTile]
  rw [harmed, State.modTile_tile_self, State.modMe, State.modSeq]
  exact (State.modTile_modTile _ _ _ _).trans (State.modTile_congr _ _ _ _ rfl)

theorem exec_cfgArm {s : State} {p : BitVec 2} {k : BitVec 3} {c : BitVec 4} (hp : p ≠ 3#2) (h : Undisturbed s) :
    exec (.cfgArm p k c) s = .next (
      match s.armReason k.toFin c.toFin with
      | some (reason, who) => (s.modMe Seq.boundary).cfgError reason who 0
      | none => ((s.modMe Seq.boundary).armed k.toFin c.toFin).nextMe) := by
  have hw : (Instr.cfgArm p k c).wf = true := bne_iff_ne.mpr hp
  rw [show exec (.cfgArm p k c) s = execCfgArm p k c s from rfl, execCfgArm, cfgInstr_undisturbed hw h]
  refine congrArg _ ?_
  dsimp only
  rw [State.modMe_armReason] <;> rfl

/-- Settles O23: the reasons are the branches of armReason, and the strands after are read one by one. -/
theorem armMakesTheContextAShadow : Obligations.ArmMakesTheContextAShadow := by
  intro s p k c h hp
  have hexec := exec_cfgArm (k := k) (c := c) hp h
  have hbusy := (s.tile s.cur).busy_iff c.toFin
  refine ⟨?_, ?_, ?_⟩
  · intro hb
    refine traps_of_cfgError (hexec.trans ?_) (by decide) (c.isLt.trans (by decide)) (by decide)
    rw [State.armReason, if_pos (hbusy.mpr hb)]
    rfl
  · intro hb hnone
    refine traps_of_cfgError (hexec.trans ?_) (by decide) (c.isLt.trans (by decide)) (by decide)
    rw [State.armReason, if_neg (hbusy.not.mpr hb), State.myCtx, hnone]
    rfl
  intro im hb him
  have hready (hused : (s.myStrand k.toFin).used = true) (hswap : (s.myStrand k.toFin).swapPending = false)
      (hpart : (s.myStrand k.toFin).partPending = false) :
      s.armReason k.toFin c.toFin = if !(s.myStrand k.toFin).sameRegion im then some (7, c.toFin.val) else none := by
    rw [State.armReason, if_neg (hbusy.not.mpr hb), State.myCtx, him, hused, hswap, hpart]
    rfl
  refine ⟨fun hpend => ?_, fun hused hswap hpart => ⟨fun hreg => ?_, fun hreg => ?_⟩⟩
  · refine traps_of_cfgError (hexec.trans ?_) (by decide) (k.isLt.trans (by decide)) (by decide)
    have hpend' : (!(s.myStrand k.toFin).used || (s.myStrand k.toFin).swapPending || (s.myStrand k.toFin).partPending) = true := by
      simpa [or_assoc, State.myStrand, State.strand] using hpend
    rw [State.armReason, if_neg (hbusy.not.mpr hb), State.myCtx, him]
    dsimp only
    rw [if_pos hpend']
    rfl
  · refine traps_of_cfgError (hexec.trans ?_) (by decide) (c.isLt.trans (by decide)) (by decide)
    rw [hready hused hswap hpart, if_pos (by rw [Bool.not_eq_true', ← Bool.not_eq_true, Strand.sameRegion_iff]; exact hreg)]
    rfl
  · rw [hready hused hswap hpart, if_neg (by rw [Bool.not_eq_true', ← Bool.not_eq_true, Strand.sameRegion_iff]; exact not_not.mpr hreg)] at hexec
    refine ⟨_, hexec, ?_, fun j => ?_⟩
    · rw [State.nextMe, State.modMe_strands]
      exact State.armed_modMe (s.modMe Seq.boundary) _ _ _
    · rw [State.nextMe, State.modMe_strands]
      exact ((s.modMe Seq.boundary).armed_strands k.toFin j c.toFin).trans (by rw [State.modMe_cur, State.modMe_strands])

end Sys2Proof.Machine
end

section
/-! PROOF. Swaps, fires and partial reconfiguration (R246, R253 to R257). -/

namespace Sys2Proof.Machine

section Boundary
variable (s : State)

theorem State.myStrand_boundary (k : Fin 8) : (s.modMe Seq.boundary).myStrand k = (s.tile s.cur).strands[k] :=
  congrArg (fun v : Vector Strand 8 => v[k]) (s.modMe_strands s.cur _)

theorem State.me_boundary : (s.modMe Seq.boundary).me = s.me.boundary := s.modMe_me _

/-! What stands in a strand, and in the rest, once an instruction that changed the strand has passed. -/

theorem State.nextMe_strands (u : Fin 192) : (s.nextMe.tile u).strands = (s.tile u).strands := s.modMe_strands u _

theorem State.nextMe_ctxs (u : Fin 192) : (s.nextMe.tile u).ctxs = (s.tile u).ctxs := s.modMe_ctxs u _

theorem State.nextMe_me : s.nextMe.me = s.me.advance.resume := s.modMe_me _

variable {s} {v : State} {t : Fin 192} {k : Fin 8} (g : Strand → Strand)

theorem State.SuppliesOnly.passed_strand (h : State.SuppliesOnly t k s v) :
    ∃ us ph, ((v.modStrand t k g).nextMe.tile t).strands[k] = g { (s.tile t).strands[k] with units := us, phase := ph } := by
  obtain ⟨us, ph, hk⟩ := h.strand
  refine ⟨us, ph, ?_⟩
  rw [State.nextMe_strands]
  exact (v.modStrand_strand_self t k g).trans (congrArg g hk)

theorem State.SuppliesOnly.passed_strand_ne (h : State.SuppliesOnly t k s v) {j : Fin 8} (hj : j ≠ k) :
    ((v.modStrand t k g).nextMe.tile t).strands[j] = (s.tile t).strands[j] := by
  rw [State.nextMe_strands]
  exact (v.modStrand_strand_ne t k j g hj.symm).trans (h.strand_ne hj)

theorem State.SuppliesOnly.passed_ctxs (h : State.SuppliesOnly t k s v) (u : Fin 192) :
    ((v.modStrand t k g).nextMe.tile u).ctxs = (s.tile u).ctxs := by
  rw [State.nextMe_ctxs, State.modStrand_ctxs, h.ctxs]

theorem State.SuppliesOnly.passed_me (h : State.SuppliesOnly t k s v) : (v.modStrand t k g).nextMe.me = s.me.advance.resume := by
  rw [State.nextMe_me, State.modStrand_me, h.me]

end Boundary

/-! ### cfg.swap -/

section Swap
variable {s : State} {p : BitVec 2} {k : BitVec 3}

theorem exec_cfgSwap (hp : p ≠ 3#2) (h : Undisturbed s) : exec (.cfgSwap p k) s = .next (
    match ((s.tile s.cur).strands[k.toFin]).shadow with
    | .armed c =>
      if !((s.tile s.cur).strands[k.toFin]).used || (decide (((s.tile s.cur).strands[k.toFin]).state = .run)
          && (((s.tile s.cur).strands[k.toFin]).swapPending || ((s.tile s.cur).strands[k.toFin]).partPending)) then
        (s.modMe Seq.boundary).cfgError 4 k.toNat 0
      else if ((s.tile s.cur).strands[k.toFin]).state = .run then
        ((s.modMe Seq.boundary).modStrand s.cur k.toFin (fun y => { y with swapPending := true })).nextMe
      else if (s.modMe Seq.boundary).badContext s.cur c then ((s.modMe Seq.boundary).contextError s.cur).nextMe
      else (((s.modMe Seq.boundary).switchTo s.cur k.toFin c).modStrand s.cur k.toFin (fun y => { y with state := .ready })).nextMe
    | _ => (s.modMe Seq.boundary).cfgError 4 k.toNat 0) := by
  have hw : (Instr.cfgSwap p k).wf = true := bne_iff_ne.mpr hp
  rw [show exec (.cfgSwap p k) s = execCfgSwap p k s from rfl, execCfgSwap, cfgInstr_undisturbed hw h]
  refine congrArg _ ?_
  dsimp only
  rw [State.myStrand_boundary] <;> rfl

/-- A switch returns the tokens of the block that was active, and then makes a context active. -/
theorem State.switchTo_eq (s : State) (t : Fin 192) (k : Fin 8) (c : Fin 16) : ∃ v, State.SuppliesOnly t k s v ∧
    s.switchTo t k c = v.modStrand t k (fun st => { st with active := some c, shadow := match st.active with
      | some a => .unarmed a
      | none => .none }) := by
  unfold State.switchTo
  dsimp only
  split
  next x hx => exact ⟨_, s.suppliesOnly_returnTokens (State.rctx_place hx).1 (State.rctx_place hx).2, rfl⟩
  · exact ⟨s, .refl s, rfl⟩

/-- Settles O24: the traps are the branches of cfg.swap, in order; a swap outside run writes its strand alone. -/
theorem swapMakesTheShadowActive : Obligations.SwapMakesTheShadowActive := by
  intro s p k h hp
  have hexec := exec_cfgSwap (k := k) hp h
  have herror (hv : exec (.cfgSwap p k) s = .next ((s.modMe Seq.boundary).cfgError 4 k.toNat 0)) : Traps (.cfgSwap p k) s 8 (cfgTval 4 k.toNat 0) :=
    traps_of_cfgError hv (by decide) (k.isLt.trans (by decide)) (by decide)
  dsimp only
  generalize hst : (s.tile s.cur).strands[k.toFin] = st at hexec ⊢
  refine ⟨fun hshadow => herror ?_, fun hused => herror ?_, fun c hshadow hused => ⟨fun hrun hpend => herror ?_, fun hrun hswap hpart => ?_,
    fun hrun hbad => ?_⟩⟩
  · rw [hexec]
    split
    next c hc => exact absurd hc (hshadow c)
    · rfl
  · rw [hexec, hused]
    split <;> rfl
  · rw [hexec, hshadow]
    dsimp only
    rw [if_pos (by simp [hrun, hpend])]
  · rw [hexec, hshadow]
    dsimp only
    rw [if_neg (by simp [hused, hrun, hswap, hpart]), if_pos hrun]
    rfl
  · rw [hshadow] at hexec
    dsimp only at hexec
    rw [if_neg (by simp [hused, hrun]), if_neg hrun, hbad, if_neg Bool.false_ne_true] at hexec
    obtain ⟨v, hv, hswitch⟩ := (s.modMe Seq.boundary).switchTo_eq s.cur k.toFin c
    rw [hswitch, State.modStrand_modStrand] at hexec
    obtain ⟨us, ph, hk⟩ := hv.passed_strand _
    refine ⟨_, hexec, ?_⟩
    rw [hk, hv.passed_ctxs, hv.passed_me, State.me_boundary, State.modMe_strands, hst, State.modMe_ctxs]
    refine ⟨rfl, rfl, rfl, rfl, fun j hj => ?_, rfl, rfl, rfl, rfl, hv.mem⟩
    rw [hv.passed_strand_ne _ hj, State.modMe_strands]

end Swap

/-! ### cfg.fire -/

section Fire
variable {s : State} {p : BitVec 2} {a b : BitVec 5} {k : BitVec 3}

theorem exec_cfgFire (hp : p ≠ 3#2) (h : Undisturbed s) : exec (.cfgFire p a b k) s = .next (
    if !((s.tile s.cur).strands[k.toFin]).used || decide (((s.tile s.cur).strands[k.toFin]).state = .empty)
        || ((s.tile s.cur).strands[k.toFin]).partPending || ((s.tile s.cur).strands[k.toFin]).firePending.isSome then
      (s.modMe Seq.boundary).cfgError 4 k.toNat 0
    else
      match ((s.tile s.cur).strands[k.toFin]).nextCtx.bind (fun c => (s.modMe Seq.boundary).ctxBlock s.cur k.toFin c) with
      | none => (s.modMe Seq.boundary).cfgError 4 k.toNat 0
      | some x =>
        match readTrips x.image s.me with
        | .inr dim => (s.modMe Seq.boundary).cfgError 5 k.toNat dim
        | .inl trips =>
          match (State.firedBlocks ((s.tile s.cur).strands[k.toFin]) x).find? (fun d =>
              ((s.modMe Seq.boundary).exitDesc s.cur ((s.tile s.cur).strands[k.toFin]).exitTable d).isNone) with
          | some d => (s.modMe Seq.boundary).cfgError 6 k.toNat d
          | none =>
            if ((s.tile s.cur).strands[k.toFin]).state = .run then
              (((s.modMe Seq.boundary).modStrand s.cur k.toFin (fun y => { y with pick := none })).modStrand s.cur k.toFin (fun y =>
                { y with firePending := some ⟨trips, (s.me.rd a, s.me.rd b), ((s.tile s.cur).strands[k.toFin]).pick⟩ })).nextMe
            else if s.badContext s.cur x.c then ((s.modMe Seq.boundary).contextError s.cur).nextMe
            else (((s.modMe Seq.boundary).modStrand s.cur k.toFin (fun y => { y with pick := none })).beginPhase s.cur k.toFin
              ⟨trips, (s.me.rd a, s.me.rd b), ((s.tile s.cur).strands[k.toFin]).pick⟩).nextMe) := by
  have hw : (Instr.cfgFire p a b k).wf = true := bne_iff_ne.mpr hp
  have hbad (x : RCtx) : (s.modMe Seq.boundary).badContext s.cur x.c = s.badContext s.cur x.c := by
    rw [State.badContext, State.modMe_ctxs, State.badContext]
  rw [show exec (.cfgFire p a b k) s = execCfgFire p a b k s from rfl, execCfgFire, cfgInstr_undisturbed hw h]
  refine congrArg _ ?_
  dsimp only
  rw [show strandOf k = k.toFin from rfl, State.myStrand_boundary]
  simp only [BitVec.xor_zero, State.me_boundary, State.modMe_cur, hbad] <;> rfl

/-- A phase that begins notes flags in its run, and then writes its strand. -/
theorem State.beginPhase_eq {t : Fin 192} {k : Fin 8} {x : RCtx} {r : Run} (hx : s.rctx t k = some x) (hr : s.run x.gid = some r) (f : Fire) :
    ∃ rs us ph, s.beginPhase t k f = { s with runs := rs }.modStrand t k (fun y => { (y.setBlock x.key us) with
        state := .run, args := f.args, phase := some ph })
      ∧ ph.trips = f.trips ∧ ph.args = f.args ∧ ph.pick = f.pick ∧ ph.issued = 0 ∧ ph.ended = false := by
  have hruns (c : Prop) [Decidable c] (f : Run → Run) : (if c then s else s.modRun x.gid f) = { s with runs := if c then s.runs else (s.modRun x.gid f).runs } := by
    split <;> rfl
  simp only [State.beginPhase, hx, hr]
  rw [hruns]
  exact ⟨_, _, _, rfl, rfl, rfl, rfl, rfl, rfl⟩

/-- Settles O25: the traps are the branches of cfg.fire, in order; a phase that begins writes its strand and its run alone. -/
theorem fireStartsOrQueuesAPhase : Obligations.FireStartsOrQueuesAPhase := by
  refine ⟨?instruction, ?phase⟩
  case instruction =>
    intro s p a b k h hp
    have hexec := exec_cfgFire (a := a) (b := b) (k := k) hp h
    dsimp only
    generalize (s.tile s.cur).strands[k.toFin] = st at hexec ⊢
    have herror {reason code : Nat} (hreason : reason < 256) (hcode : code < 65536)
        (hv : exec (.cfgFire p a b k) s = .next ((s.modMe Seq.boundary).cfgError reason k.toNat code)) :
        Traps (.cfgFire p a b k) s 8 (cfgTval reason k.toNat code) := traps_of_cfgError hv hreason (k.isLt.trans (by decide)) hcode
    refine ⟨fun hready => herror (by decide) (by decide) ?_, fun hused hempty hpart hfire c x hc hx => ?_⟩
    · rw [hexec, if_pos (by simpa [or_assoc] using hready)]
    rw [if_neg (by simp [hused, hempty, hpart, hfire]), hc, Option.bind_some, hx] at hexec
    dsimp only at hexec
    refine ⟨fun dim hdim htrips => herror (by decide) hdim ?_, fun trips htrips => ?_⟩
    · rw [hexec, htrips]
    rw [htrips] at hexec
    dsimp only at hexec
    refine ⟨fun d hd hbad => herror (by decide) hd ?_, fun hall => ?_⟩
    · rw [hexec, hbad]
    have hnone : (State.firedBlocks st x).find? (fun d => ((s.modMe Seq.boundary).exitDesc s.cur st.exitTable d).isNone) = none := by
      refine List.find?_eq_none.mpr (fun y hy => ?_)
      rw [Option.isNone_iff_eq_none]
      exact Option.isSome_iff_ne_none.mp (hall y hy)
    rw [hnone] at hexec
    dsimp only at hexec
    refine ⟨fun hrun => ?_, fun hrun hbad => ?_⟩
    · rw [hexec, if_pos hrun]
      rfl
    · rw [hexec, if_neg hrun, hbad, if_neg Bool.false_ne_true]
      rfl
  case phase =>
    intro s t k f x r hx hr
    obtain ⟨rs, us, ph, hbegin, hph⟩ := State.beginPhase_eq hx hr f
    dsimp only
    rw [hbegin, State.modStrand_strand_self]
    refine ⟨rfl, ⟨ph, rfl, hph⟩, fun j hj => ?_, fun y => ⟨?_, ?_⟩, rfl, rfl, rfl⟩
    · exact State.modStrand_strand_ne _ t k j _ hj.symm
    · exact State.modStrand_seq _ t k _ y
    · exact State.modStrand_ctxs _ t y k _

end Fire

/-! ### cfg.part -/

section Part
variable {s : State} {p : BitVec 2} {k : BitVec 3} {c : BitVec 4}

theorem exec_cfgPart (hp : p ≠ 3#2) (h : Undisturbed s) : exec (.cfgPart p k c) s = .next (
    match ((s.tile s.cur).ctxs[c.toFin]).image with
    | none => (s.modMe Seq.boundary).cfgError 3 c.toNat 0
    | some im =>
      if !((s.tile s.cur).strands[k.toFin]).used || decide (((s.tile s.cur).strands[k.toFin]).state ≠ .run)
          || ((s.tile s.cur).strands[k.toFin]).pending || decide (((s.tile s.cur).strands[k.toFin]).shadow ≠ .armed c.toFin) then
        (s.modMe Seq.boundary).cfgError 4 k.toNat 0
      else
        match readTrips im s.me with
        | .inr dim => (s.modMe Seq.boundary).cfgError 5 k.toNat dim
        | .inl trips =>
          if !((s.tile s.cur).strands[k.toFin]).sameRegion im then (s.modMe Seq.boundary).cfgError 7 c.toNat 0
          else
            match (s.modMe Seq.boundary).rctx s.cur k.toFin with
            | none => (s.modMe Seq.boundary).cfgError 4 k.toNat 0
            | some x => (((s.modMe Seq.boundary).injectPart x c.toFin).modStrand s.cur k.toFin (fun z =>
                { z with partPending := true, firePending := some ⟨trips, z.args, none⟩ })).nextMe) := by
  have hw : (Instr.cfgPart p k c).wf = true := bne_iff_ne.mpr hp
  rw [show exec (.cfgPart p k c) s = execCfgPart p k c s from rfl, execCfgPart, cfgInstr_undisturbed hw h]
  refine congrArg _ ?_
  dsimp only
  rw [show strandOf k = k.toFin from rfl, State.myStrand_boundary, State.myCtx, State.modMe_cur, State.modMe_ctxs, State.me_boundary] <;> rfl

/-- Settles O26: the traps are the branches of cfg.part, in order; the marker changes no register and of the strand its units and phase. -/
theorem partialReconfigurationBecomesPending : Obligations.PartialReconfigurationBecomesPending := by
  intro s p k c h hp
  have hexec := exec_cfgPart (k := k) (c := c) hp h
  dsimp only
  generalize hst : (s.tile s.cur).strands[k.toFin] = st at hexec ⊢
  refine ⟨fun himage => ?_, fun im himage => ?_⟩
  · refine traps_of_cfgError ?_ (by decide) (c.isLt.trans (by decide)) (by decide)
    rw [hexec, himage]
  rw [himage] at hexec
  dsimp only at hexec
  refine ⟨fun hready => ?_, fun hused hrun hswap hpart hfire harmed => ?_⟩
  · refine traps_of_cfgError ?_ (by decide) (k.isLt.trans (by decide)) (by decide)
    rw [hexec, if_pos (by simpa [Strand.pending, or_assoc] using hready)]
  rw [if_neg (by simp [Strand.pending, hused, hrun, hswap, hpart, hfire, harmed])] at hexec
  refine ⟨fun dim hdim htrips => ?_, fun trips htrips => ?_⟩
  · refine traps_of_cfgError ?_ (by decide) (k.isLt.trans (by decide)) hdim
    rw [hexec, htrips]
  rw [htrips] at hexec
  dsimp only at hexec
  refine ⟨fun hreg => ?_, fun x hreg hx => ?_⟩
  · refine traps_of_cfgError ?_ (by decide) (c.isLt.trans (by decide)) (by decide)
    rw [hexec, if_pos (by simpa [← Bool.not_eq_true, Strand.sameRegion_iff] using hreg)]
  · rw [if_neg (by simpa [Strand.sameRegion_iff] using hreg), hx] at hexec
    have hinject : State.SuppliesOnly s.cur k.toFin (s.modMe Seq.boundary) ((s.modMe Seq.boundary).injectPart x c.toFin) :=
      State.suppliesOnly_injectPart _ (State.rctx_place hx).1 (State.rctx_place hx).2 _
    obtain ⟨us, ph, hk⟩ := hinject.passed_strand (fun z => { z with partPending := true, firePending := some ⟨trips, z.args, none⟩ })
    refine ⟨_, hexec, rfl, ?_⟩
    dsimp only
    rw [hk, hinject.passed_me, State.me_boundary, State.modMe_strands, hst]
    exact ⟨rfl, hrun, rfl, rfl⟩

end Part

end Sys2Proof.Machine
end

section
/-! PROOF. Waits, exits, picks and drains (R91, R256, R258). -/

namespace Sys2Proof.Machine

/-! ### The choice of R91 -/

/-- In an ordered list, the element of the greatest key that maxBy gives stands before the others of that key. -/
theorem maxBy_greatest {α : Type} {key : α → Nat} {r : α → α → Prop} {l : List α} {z : α} (hl : l.Pairwise r) (h : maxBy key l = some z) :
    z ∈ l ∧ ∀ y ∈ l, key y < key z ∨ key y = key z ∧ (y = z ∨ r z y) := by
  induction l generalizing z with
  | nil => cases h
  | cons x xs ih =>
    obtain ⟨hx, hxs⟩ := List.pairwise_cons.mp hl
    rw [maxBy] at h
    cases hm : maxBy key xs with
    | none =>
      have hnil : xs = [] := by
        cases xs with
        | nil => rfl
        | cons y ys =>
          rw [maxBy] at hm
          split at hm
          · cases hm
          · split at hm <;> cases hm
      rw [hm] at h
      obtain rfl : x = z := Option.some.inj h
      subst hnil
      exact ⟨List.mem_singleton_self x, fun y hy => .inr (by simp [List.mem_singleton.mp hy])⟩
    | some m =>
      obtain ⟨hmem, hmax⟩ := ih hxs hm
      rw [hm] at h
      dsimp only at h
      split at h
      next hlt =>
        obtain rfl : m = z := Option.some.inj h
        refine ⟨List.mem_cons_of_mem x hmem, fun y hy => ?_⟩
        rcases List.mem_cons.mp hy with rfl | hy
        · exact .inl hlt
        · exact hmax y hy
      next hle =>
        obtain rfl : x = z := Option.some.inj h
        refine ⟨List.mem_cons_self, fun y hy => ?_⟩
        rcases List.mem_cons.mp hy with rfl | hy
        · exact .inr ⟨rfl, .inl rfl⟩
        · rcases hmax y hy with hlt | ⟨heq, -⟩
          · exact .inl (hlt.trans_le (Nat.not_lt.mp hle))
          · rcases Nat.lt_or_eq_of_le (heq.le.trans (Nat.not_lt.mp hle)) with hlt | heq
            · exact .inl hlt
            · exact .inr ⟨heq, .inr (hx y hy)⟩

theorem maxBy_eq_none_iff {α : Type} {key : α → Nat} {l : List α} : maxBy key l = none ↔ l = [] := by
  cases l with
  | nil => exact ⟨fun _ => rfl, fun _ => rfl⟩
  | cons x xs =>
    refine ⟨fun h => ?_, fun h => nomatch h⟩
    rw [maxBy] at h
    split at h
    · cases h
    · split at h <;> cases h

/-- The descriptors of the blocks that wait. -/
def waitingBlocks (ds : List (Nat × ExitDesc)) : List (Nat × ExitDesc) := ds.filter (fun x => 0 < x.2.waiting)

theorem mem_waitingBlocks {ds : List (Nat × ExitDesc)} {x : Nat × ExitDesc} : x ∈ waitingBlocks ds ↔ x ∈ ds ∧ x.2.waiting ≠ 0 := by
  simp [waitingBlocks, Nat.pos_iff_ne_zero]

theorem pickBlock_eq (ds : List (Nat × ExitDesc)) : pickBlock ds =
    if (waitingBlocks ds).any (fun x => 1024 ≤ x.2.skipped) then maxBy (fun x => x.2.skipped) (waitingBlocks ds)
    else maxBy (fun x => x.2.waiting) (waitingBlocks ds) := rfl

theorem pickBlock_eq_none_iff {ds : List (Nat × ExitDesc)} : pickBlock ds = none ↔ ∀ x ∈ ds, x.2.waiting = 0 := by
  have hnil : pickBlock ds = none ↔ waitingBlocks ds = [] := by
    rw [pickBlock_eq]
    split <;> exact maxBy_eq_none_iff
  rw [hnil, List.eq_nil_iff_forall_not_mem]
  simp only [mem_waitingBlocks, not_and, not_not]

theorem first_of_equals {α : Type} {y z : Nat × α} {m : Nat × α → Nat}
    (h : m y < m z ∨ m y = m z ∧ (y = z ∨ z.1 < y.1)) : m y < m z ∨ m y = m z ∧ z.1 ≤ y.1 :=
  h.imp_right (fun h => ⟨h.1, h.2.elim (fun e => e ▸ le_rfl) le_of_lt⟩)

theorem pickBlock_some {ds : List (Nat × ExitDesc)} (hds : ds.Pairwise (fun x y => x.1 < y.1)) {b : Nat} {d : ExitDesc} (h : pickBlock ds = some (b, d)) :
    (b, d) ∈ ds ∧ d.waiting ≠ 0
    ∧ ((∃ x ∈ ds, x.2.waiting ≠ 0 ∧ 1024 ≤ x.2.skipped) →
        ∀ x ∈ ds, x.2.waiting ≠ 0 → x.2.skipped < d.skipped ∨ (x.2.skipped = d.skipped ∧ b ≤ x.1))
    ∧ ((∀ x ∈ ds, x.2.waiting ≠ 0 → x.2.skipped < 1024) →
        ∀ x ∈ ds, x.2.waiting < d.waiting ∨ (x.2.waiting = d.waiting ∧ b ≤ x.1)) := by
  have hord : (waitingBlocks ds).Pairwise (fun x y => x.1 < y.1) := hds.filter _
  have hany : (waitingBlocks ds).any (fun x => 1024 ≤ x.2.skipped) = true ↔ ∃ x ∈ ds, x.2.waiting ≠ 0 ∧ 1024 ≤ x.2.skipped := by
    simp only [List.any_eq_true, mem_waitingBlocks, decide_eq_true_eq, and_assoc]
  rw [pickBlock_eq] at h
  split at h
  next hskip =>
    obtain ⟨hmem, hmax⟩ := maxBy_greatest hord h
    obtain ⟨hin, hwait⟩ := mem_waitingBlocks.mp hmem
    refine ⟨hin, hwait, fun _ x hx hxw => ?_, fun hall => ?_⟩
    · exact first_of_equals (z := (b, d)) (m := fun x => x.2.skipped) (hmax x (mem_waitingBlocks.mpr ⟨hx, hxw⟩))
    · obtain ⟨x, hx, hxw, hxs⟩ := hany.mp hskip
      exact absurd (hall x hx hxw) (Nat.not_lt.mpr hxs)
  next hskip =>
    obtain ⟨hmem, hmax⟩ := maxBy_greatest hord h
    obtain ⟨hin, hwait⟩ := mem_waitingBlocks.mp hmem
    refine ⟨hin, hwait, fun hex => absurd (hany.mpr hex) hskip, fun _ x hx => ?_⟩
    by_cases hxw : x.2.waiting = 0
    · exact .inl (hxw ▸ Nat.pos_of_ne_zero hwait)
    · exact first_of_equals (z := (b, d)) (m := fun x => x.2.waiting) (hmax x (mem_waitingBlocks.mpr ⟨hx, hxw⟩))

/-! ### Instructions that wait for a strand -/

theorem State.wrote_resume (s : State) (a : BitVec 5) (v : DWord) :
    s.modMe (fun q => (q.wr a v).advance.resume) = (s.wrote a v).modMe Seq.resume := by
  rw [← State.writeBack_eq, State.writeBack, State.modMe_modMe]

section Waits
variable {s : State} {i : Instr} {p : BitVec 2} {k : BitVec 3} {f : DWord → State → State}

theorem waitInstr_eq (hw : i.wf = true) (h : Undisturbed s) : waitInstr i p k f s = .next (
    if !((s.tile s.cur).strands[k.toFin]).used then (s.modMe Seq.boundary).cfgError 4 k.toNat 0
    else
      match (s.modMe Seq.boundary).strandWait k.toFin with
      | some w => (s.modMe Seq.boundary).stallMe i w
      | none => f 0#64 (s.modMe Seq.boundary)) := by
  rw [waitInstr, cfgInstr_undisturbed hw h]
  refine congrArg _ ?_
  rw [show strandOf k = k.toFin from rfl, State.myStrand_boundary] <;> rfl

theorem waitInstr_unused (hexec : exec i s = waitInstr i p k f s) (hw : i.wf = true) (h : Undisturbed s)
    (hused : ((s.tile s.cur).strands[k.toFin]).used = false) : Traps i s 8 (cfgTval 4 k.toNat 0) := by
  refine traps_of_cfgError ?_ (by decide) (k.isLt.trans (by decide)) (by decide)
  rw [hexec, waitInstr_eq hw h, hused]
  rfl

theorem waitInstr_free (hexec : exec i s = waitInstr i p k f s) (hw : i.wf = true) (h : Undisturbed s)
    (hused : ((s.tile s.cur).strands[k.toFin]).used = true) (hrun : ((s.tile s.cur).strands[k.toFin]).state ≠ .run)
    (hswap : ((s.tile s.cur).strands[k.toFin]).swapPending = false) (hpart : ((s.tile s.cur).strands[k.toFin]).partPending = false)
    (hfire : ((s.tile s.cur).strands[k.toFin]).firePending = none) : exec i s = .next (f 0#64 (s.modMe Seq.boundary)) := by
  have hfree : (s.modMe Seq.boundary).strandWait k.toFin = none := by
    unfold State.strandWait
    rw [State.myStrand_boundary]
    generalize (s.tile s.cur).strands[k.toFin] = st at *
    have hidle : st.occupied = false := by simp [Strand.occupied, Strand.pending, hrun, hswap, hpart, hfire]
    dsimp only
    rw [hpart, hidle]
    split <;> rfl
  rw [hexec, waitInstr_eq hw h, hused, hfree]
  rfl

theorem waitInstr_running (hexec : exec i s = waitInstr i p k f s) (hw : i.wf = true) (h : Undisturbed s)
    (hused : ((s.tile s.cur).strands[k.toFin]).used = true) (hrun : ((s.tile s.cur).strands[k.toFin]).state = .run) (hstall : s.me.stall = none) :
    ∃ w, exec i s = .next ((s.modMe Seq.boundary).stallMe i w) := by
  have hwait : ∃ w, (s.modMe Seq.boundary).strandWait k.toFin = some w := by
    unfold State.strandWait
    rw [State.myStrand_boundary, State.me_boundary, show s.me.boundary.stall = none from hstall]
    generalize (s.tile s.cur).strands[k.toFin] = st at *
    have hbusy : st.occupied = true := by simp [Strand.occupied, hrun]
    dsimp only
    rw [hbusy]
    split <;> exact ⟨_, rfl⟩
  obtain ⟨w, hwait⟩ := hwait
  refine ⟨w, ?_⟩
  rw [hexec, waitInstr_eq hw h, hused, hwait]
  rfl

theorem State.stallMe_eq (s : State) (i : Instr) (w : StallKind) : ∃ x, s.stallMe i w = s.modMe (fun q => { q with stall := some x }) := ⟨_, rfl⟩

/-- A stall writes the stall alone. -/
theorem stalls_of_stallMe {w : StallKind} (hexec : exec i s = .next ((s.modMe Seq.boundary).stallMe i w)) : ∃ t, exec i s = .next t
    ∧ t = (s.modMe Seq.boundary).modMe (fun q => { q with stall := t.me.stall }) ∧ t.me.stall.isSome = true := by
  obtain ⟨x, hx⟩ := (s.modMe Seq.boundary).stallMe_eq i w
  rw [hx] at hexec
  refine ⟨_, hexec, ?_, ?_⟩
  all_goals rw [State.modMe_me (s.modMe Seq.boundary)]
  rfl

end Waits

/-! ### The four instructions -/

section Instructions
variable {s : State} {p : BitVec 2} {a : BitVec 5} {k : BitVec 3}

theorem exec_cfgDrain (hp : p ≠ 3#2) (h : Undisturbed s) : exec (.cfgDrain p k) s = .next (
    if !((s.tile s.cur).strands[k.toFin]).used then (s.modMe Seq.boundary).cfgError 4 k.toNat 0
    else if (s.modMe Seq.boundary).enginesDrained s.cur k.toFin then (s.modMe Seq.boundary).nextMe
    else (s.modMe Seq.boundary).stallMe (.cfgDrain p k) .retry) := by
  have hw : (Instr.cfgDrain p k).wf = true := bne_iff_ne.mpr hp
  rw [show exec (.cfgDrain p k) s = execCfgDrain p k s from rfl, execCfgDrain, cfgInstr_undisturbed hw h]
  refine congrArg _ ?_
  dsimp only
  rw [show strandOf k = k.toFin from rfl, State.myStrand_boundary] <;> rfl

theorem exec_cfgExit_shape : exec (.cfgExit p a k) s = waitInstr (.cfgExit p a k) p k (fun e s =>
    s.guardedValue p (fun e' s' => s'.modMe (fun q => (q.wr a ((s.myStrand k.toFin).status.setWidth 64 ^^^ e ^^^ e')).advance.resume))) s := rfl

theorem exec_cfgExit (hp : p ≠ 3#2) (h : Undisturbed s) (hused : ((s.tile s.cur).strands[k.toFin]).used = true)
    (hrun : ((s.tile s.cur).strands[k.toFin]).state ≠ .run) (hswap : ((s.tile s.cur).strands[k.toFin]).swapPending = false)
    (hpart : ((s.tile s.cur).strands[k.toFin]).partPending = false) (hfire : ((s.tile s.cur).strands[k.toFin]).firePending = none) :
    exec (.cfgExit p a k) s = .next (((s.modMe Seq.boundary).wrote a (((s.tile s.cur).strands[k.toFin]).status.setWidth 64)).modMe Seq.resume) := by
  have hw : (Instr.cfgExit p a k).wf = true := bne_iff_ne.mpr hp
  rw [waitInstr_free (i := .cfgExit p a k) (hexec := exec_cfgExit_shape) hw h hused hrun hswap hpart hfire]
  rw [State.guardedValue_undisturbed (undisturbed_boundary h), State.myStrand_boundary]
  simp only [BitVec.xor_zero, State.wrote_resume]

/-- The value that a pick leaves: the block, or all ones. -/
def pickedValue (c : Option (Nat × ExitDesc)) : DWord :=
  match c with
  | some (b, _) => BitVec.ofNat 64 b
  | none => 0xFFFF_FFFF_FFFF_FFFF#64

/-- The end of a pick, its exit table read. -/
def State.picked (s : State) (p : BitVec 2) (a : BitVec 5) (k : Fin 8) (ds : List (Nat × ExitDesc)) (e : DWord) : State :=
  ((s.noteSkips s.cur (s.myStrand k).exitTable ds ((pickBlock ds).map (fun x => x.1))).modStrand s.cur k
    (fun y => { y with pick := (pickBlock ds).map (fun x => (x.1, x.2.waiting)) })).guardedValue p
    (fun e' s' => s'.modMe (fun q => (q.wr a (pickedValue (pickBlock ds) ^^^ e ^^^ e')).advance.resume))

theorem exec_cfgPick_shape : exec (.cfgPick p a k) s = waitInstr (.cfgPick p a k) p k (fun e s =>
    match s.exitTable s.cur (s.myStrand k.toFin) with
    | .inr b => s.cfgError 6 k.toNat b
    | .inl ds => s.picked p a k.toFin ds e) s := rfl

theorem exec_cfgPick (hp : p ≠ 3#2) (h : Undisturbed s) (hused : ((s.tile s.cur).strands[k.toFin]).used = true)
    (hrun : ((s.tile s.cur).strands[k.toFin]).state ≠ .run) (hswap : ((s.tile s.cur).strands[k.toFin]).swapPending = false)
    (hpart : ((s.tile s.cur).strands[k.toFin]).partPending = false) (hfire : ((s.tile s.cur).strands[k.toFin]).firePending = none)
    {ds : List (Nat × ExitDesc)} (hds : (s.modMe Seq.boundary).exitTable s.cur ((s.tile s.cur).strands[k.toFin]) = .inl ds) :
    ∃ v, State.SuppliesOnly s.cur k.toFin (s.modMe Seq.boundary) v ∧
      exec (.cfgPick p a k) s = .next ((v.modStrand s.cur k.toFin (fun y => { y with pick := (pickBlock ds).map (fun x => (x.1, x.2.waiting)) })).modMe
        (fun q => (q.wr a (pickedValue (pickBlock ds))).advance.resume)) := by
  have hw : (Instr.cfgPick p a k).wf = true := bne_iff_ne.mpr hp
  have hskips := (s.modMe Seq.boundary).suppliesOnly_noteSkips (t := s.cur) (k := k.toFin) s.cur ((s.tile s.cur).strands[k.toFin]).exitTable ds
    ((pickBlock ds).map (fun x => x.1))
  refine ⟨_, hskips, ?_⟩
  rw [waitInstr_free (i := .cfgPick p a k) (hexec := exec_cfgPick_shape) hw h hused hrun hswap hpart hfire]
  rw [State.myStrand_boundary, State.modMe_cur, hds]
  dsimp only
  rw [State.picked, State.myStrand_boundary, State.modMe_cur, State.guardedValue_undisturbed]
  · simp only [BitVec.xor_zero]
  · rw [Undisturbed, State.modStrand_me, hskips.me]
    exact undisturbed_boundary h

end Instructions

/-- Settles O27: the waits share one shape; a pick is the first greatest of the waiting blocks. -/
theorem strandWaitsAndPicks : Obligations.StrandWaitsAndPicks := by
  refine ⟨fun s p a k h hp => ?_, fun ds hds => ⟨pickBlock_eq_none_iff, fun b d hpick => pickBlock_some hds hpick⟩⟩
  have hw : (Instr.cfgWait p k).wf = true := bne_iff_ne.mpr hp
  have hdrain := exec_cfgDrain (k := k) hp h
  refine ⟨fun hused => ⟨waitInstr_unused rfl hw h hused, waitInstr_unused (i := .cfgExit p a k) (hexec := exec_cfgExit_shape) hw h hused,
    waitInstr_unused (i := .cfgPick p a k) (hexec := exec_cfgPick_shape) hw h hused, ?_⟩, fun hused hrun hswap hpart hfire => ⟨?_, ?_, fun ds hds => ?_⟩,
    fun hused hdone => ?_, fun hused hbusy => ?_, fun hused hrun hstall => ?_⟩
  · refine traps_of_cfgError ?_ (by decide) (k.isLt.trans (by decide)) (by decide)
    rw [hdrain, hused]
    rfl
  · exact waitInstr_free (i := .cfgWait p k) rfl hw h hused hrun hswap hpart hfire
  · exact exec_cfgExit hp h hused hrun hswap hpart hfire
  · obtain ⟨v, hv, hpick⟩ := exec_cfgPick (a := a) hp h hused hrun hswap hpart hfire hds
    have hk : ((v.modStrand s.cur k.toFin (fun y => { y with pick := (pickBlock ds).map (fun x => (x.1, x.2.waiting)) })).tile s.cur).strands[k.toFin].pick
        = (pickBlock ds).map (fun x => (x.1, x.2.waiting)) := congrArg Strand.pick (State.modStrand_strand_self v s.cur k.toFin _)
    refine ⟨_, pickedValue (pickBlock ds), hpick, ?_, ?_, hv.mem, fun hnone => ?_, fun b d hsome => ?_⟩
    · rw [State.modMe_me, State.modStrand_me, hv.me, State.me_boundary, ← State.writeBack_eq, State.writeBack, State.modMe_me]
      rw [Seq.wr, Seq.wr]
      split <;> rfl
    · rw [State.modMe_me, State.modStrand_me, hv.me, State.me_boundary, Seq.wr]
      split <;> rfl
    · rw [State.modMe_strands, hk, hnone]
      exact ⟨rfl, rfl⟩
    · rw [State.modMe_strands, hk, hsome]
      exact ⟨rfl, rfl⟩
  · rw [hdrain, hused, hdone]
    rfl
  · rw [hused, hbusy] at hdrain
    exact stalls_of_stallMe hdrain
  · obtain ⟨w, hwait⟩ := waitInstr_running (i := .cfgWait p k) rfl hw h hused hrun hstall
    exact stalls_of_stallMe hwait


end Sys2Proof.Machine
end

section
/-! PROOF. Token and round injection (R259 to R264, R418). -/

namespace Sys2Proof.Machine

theorem traps_of_error {i : Instr} {s : State} {reason x code : Nat} (hexec : exec i s = .next (s.cfgError reason x code)) (hreason : reason < 256)
    (hx : x < 256) (hcode : code < 65536) : Traps i s 8 (cfgTval reason x code) := by
  rw [State.cfgError_eq s hreason hx hcode] at hexec
  exact ⟨_, hexec, State.trapMe_entered s 8 _⟩

/-- A stall that is the whole effect of an instruction. -/
theorem stalls_in_place {i : Instr} {s v : State} {w : StallKind} (hexec : exec i s = .next (v.stallMe i w)) :
    ∃ t, exec i s = .next t ∧ t = v.modMe (fun q => { q with stall := t.me.stall }) ∧ t.me.stall.isSome = true := by
  obtain ⟨x, hx⟩ := v.stallMe_eq i w
  rw [hx] at hexec
  refine ⟨_, hexec, ?_, ?_⟩
  all_goals rw [State.modMe_me v]
  rfl

theorem State.nextMe_stall (s : State) : s.nextMe.me.stall = none := by
  rw [State.nextMe_me]
  rfl

/-! ### Ports -/

section Ports
variable {s : State} {i : Instr} {p : BitVec 2} {b : BitVec 5} {f : DWord → RCtx → Nat → Run → Port → State → State}

theorem portInstr_none (hexec : exec i s = portInstr i p b f s) (hw : i.wf = true) (h : Undisturbed s) (hport : s.injPort (s.me.rd b) = none) :
    Traps i s 8 (cfgTval 8 0xFF 0) := by
  refine traps_of_error ?_ (by decide) (by decide) (by decide)
  rw [hexec, portInstr, seqInstr_undisturbed hw h, hport]

theorem portInstr_some (hw : i.wf = true) (h : Undisturbed s) {x : RCtx} {u : Nat} {r : Run} {q : Port}
    (hport : s.injPort (s.me.rd b) = some (x, u, r, q)) : portInstr i p b f s = .next (f 0#64 x u r q s) := by
  rw [portInstr, seqInstr_undisturbed hw h, hport]

/-- An item at the tail of a port's edge, which compresses, and the port as it then stands. -/
def State.putItem (s : State) (x : RCtx) (u : Nat) (q : Port) (item : Item) (next : Port) : State :=
  let edge := packSupply (bwThresh (x.image.bind u)) (s.unitAt x u).reply (q.items ++ [item])
  (s.modUnit x u (fun y => { y with reply := edge.1 })).setPort x.gid { next with used := true, items := edge.2 }

variable {x : RCtx} {u : Nat} {q next : Port} {item : Item}

theorem State.inject_room (hroom : s.portRoom x u q = true) : s.inject i x u q item next = (s.putItem x u q item next).nextMe := by
  rw [State.inject, if_pos hroom]
  rfl

theorem State.inject_full (hroom : s.portRoom x u q = false) : s.inject i x u q item next = s.stallMe i .retry := by
  rw [State.inject, hroom, if_neg Bool.false_ne_true]

end Ports

/-! ### The four instructions -/

section Injections
variable {s : State} {p : BitVec 2} {a b : BitVec 5} {tag : BitVec 7} {x : RCtx} {u : Nat} {r : Run} {q : Port}

theorem exec_rndEnd (hp : p ≠ 3#2) (h : Undisturbed s) (hport : s.injPort (s.me.rd b) = some (x, u, r, q)) : exec (.rndEnd p a b) s = .next (
    if q.closed || q.refuses.isSome then s.cfgError 9 0xFF 0
    else if 0xFFFF_FFFF ≤ q.round && s.portRoom x u q then s.punctuationFault x.gid q.round
    else if (s.inject (.rndEnd p a b) x u q (markerItem 0 (BitVec.ofNat 32 q.round)) { q with round := q.round + 1, seq := 0 }).me.stall.isSome then
      s.inject (.rndEnd p a b) x u q (markerItem 0 (BitVec.ofNat 32 q.round)) { q with round := q.round + 1, seq := 0 }
    else (s.inject (.rndEnd p a b) x u q (markerItem 0 (BitVec.ofNat 32 q.round)) { q with round := q.round + 1, seq := 0 }).noteTimestamp
      x.gid q.round ((s.me.rd a).setWidth 32)) := by
  have hw : (Instr.rndEnd p a b).wf = true := bne_iff_ne.mpr hp
  rw [show exec (.rndEnd p a b) s = execRndEnd p a b s from rfl, execRndEnd, portInstr_some hw h hport]
  simp only [BitVec.xor_zero]

theorem exec_rndGraph (hp : p ≠ 3#2) (h : Undisturbed s) (hport : s.injPort (s.me.rd b) = some (x, u, r, q)) : exec (.rndGraph p b) s = .next (
    if q.closed || q.refuses.isSome || q.seq ≠ 0 then s.cfgError 9 0xFF 0
    else s.inject (.rndGraph p b) x u q (markerItem 2 (BitVec.ofNat 32 q.round - 1#32)) { q with closed := true }) := by
  have hw : (Instr.rndGraph p b).wf = true := bne_iff_ne.mpr hp
  rw [show exec (.rndGraph p b) s = execRndGraph p b s from rfl, execRndGraph, portInstr_some hw h hport]

theorem exec_rndRedo (hp : p ≠ 3#2) (h : Undisturbed s) (hport : s.injPort (s.me.rd b) = some (x, u, r, q)) : exec (.rndRedo p a b) s = .next (
    if q.refuses = some (field (s.me.rd a) 31 0) then
      (s.setPort x.gid { q with round := field (s.me.rd a) 31 0, seq := 0, refuses := none }).nextMe
    else s.cfgError 9 0xFF 0) := by
  have hw : (Instr.rndRedo p a b).wf = true := bne_iff_ne.mpr hp
  rw [show exec (.rndRedo p a b) s = execRndRedo p a b s from rfl, execRndRedo, portInstr_some hw h hport]
  simp only [BitVec.xor_zero]

/-- The token of a value and a tag; an error, where the tag says so, comes from the token's port. -/
def State.portToken (s : State) (x : RCtx) (u : Nat) (q : Port) (v : DWord) (tag : BitVec 7) : Item :=
  let item : Item := { words := [if tag.getLsbD 6 then 0#32 else v.setWidth 32], tag := tag.setWidth 8 }
  if item.isError then { item with origin := some (s.portOrigin x u q) } else item

theorem State.portToken_words (s : State) (x : RCtx) (u : Nat) (q : Port) (v : DWord) (tag : BitVec 7) :
    (s.portToken x u q v tag).words = [if tag.getLsbD 6 then 0#32 else v.setWidth 32] := by
  unfold State.portToken
  dsimp only
  rw [apply_ite Item.words, ite_self]

theorem State.portToken_tag (s : State) (x : RCtx) (u : Nat) (q : Port) (v : DWord) (tag : BitVec 7) :
    (s.portToken x u q v tag).tag = tag.setWidth 8 := by
  unfold State.portToken
  dsimp only
  rw [apply_ite Item.tag, ite_self]

theorem exec_tokPut (hp : p ≠ 3#2) (htag : tokTagOk tag = true) (h : Undisturbed s) (hport : s.injPort (s.me.rd b) = some (x, u, r, q)) :
    exec (.tokPut p a b tag) s = .next (
      if q.closed || q.refuses.isSome then s.cfgError 9 0xFF 0
      else if tag.getLsbD 2 && (field (s.me.rd a) 31 24 = 0 || 7 < field (s.me.rd a) 31 24) then s.cfgError 0xA 0xFF 0
      else s.inject (.tokPut p a b tag) x u q (s.portToken x u q (s.me.rd a) tag) { q with seq := q.seq + 1 }) := by
  have hw : (Instr.tokPut p a b tag).wf = true := Bool.and_eq_true_iff.mpr ⟨bne_iff_ne.mpr hp, htag⟩
  have hbit {n : Nat} (hn : n < 8) : (tag.setWidth 8).getLsbD n = tag.getLsbD n := by simp [hn]
  rw [show exec (.tokPut p a b tag) s = execTokPut p a b tag s from rfl, execTokPut, portInstr_some hw h hport]
  simp only [BitVec.xor_zero, hbit (show 2 < 8 by decide), hbit (show 6 < 8 by decide), State.portToken]

end Injections

/-- Settles O28: the traps are the branches of each instruction, and what it puts goes to the tail of its edge. -/
theorem injectionsAppendToTheirPort : Obligations.InjectionsAppendToTheirPort := by
  intro s p a b tag h hp htag
  have hwPut : (Instr.tokPut p a b tag).wf = true := Bool.and_eq_true_iff.mpr ⟨bne_iff_ne.mpr hp, htag⟩
  have hwEnd : (Instr.rndEnd p a b).wf = true := bne_iff_ne.mpr hp
  have hwGraph : (Instr.rndGraph p b).wf = true := bne_iff_ne.mpr hp
  have hwRedo : (Instr.rndRedo p a b).wf = true := bne_iff_ne.mpr hp
  refine ⟨fun hport => ⟨portInstr_none (i := .tokPut p a b tag) (show exec _ s = execTokPut p a b tag s from rfl) hwPut h hport,
    portInstr_none (i := .rndEnd p a b) (show exec _ s = execRndEnd p a b s from rfl) hwEnd h hport,
    portInstr_none (i := .rndGraph p b) (show exec _ s = execRndGraph p b s from rfl) hwGraph h hport,
    portInstr_none (i := .rndRedo p a b) (show exec _ s = execRndRedo p a b s from rfl) hwRedo h hport⟩, fun x u r q hport => ?_⟩
  have hput := exec_tokPut (a := a) hp htag h hport
  have hend := exec_rndEnd (a := a) hp h hport
  have hgraph := exec_rndGraph hp h hport
  have hredo := exec_rndRedo (a := a) hp h hport
  have herror {i : Instr} {reason : Nat} (hreason : reason < 256) (hexec : exec i s = .next (s.cfgError reason 0xFF 0)) :
      Traps i s 8 (cfgTval reason 0xFF 0) := traps_of_error hexec hreason (by decide) (by decide)
  refine ⟨fun hshut => ?_, fun hclosed hrefuses => ?_, fun hred => ?_, fun hred => ?_⟩
  · have hshut' : (q.closed || q.refuses.isSome) = true := by simpa using hshut
    rw [hshut'] at hput hend hgraph
    exact ⟨herror (by decide) hput, herror (by decide) hend, herror (by decide) hgraph⟩
  · have hopen : ¬(q.closed || q.refuses.isSome) = true := by simp [hclosed, hrefuses]
    refine ⟨fun htag2 hcause => herror (by decide) ?_, fun hcause hroom => ⟨_, ?_, s.portToken_words x u q _ tag, s.portToken_tag x u q _ tag⟩,
      fun hroom hlast => ?_, fun hroom _ hround => ?_, fun hseq => herror (by decide) ?_, fun hseq hroom => ?_, fun hroom => ?_⟩
    · rw [hput, if_neg hopen, if_pos (by simpa [htag2] using hcause)]
    · rw [hput, if_neg hopen, if_neg ?_, State.inject_room hroom]
      · rfl
      · rcases hcause with h2 | ⟨h1, h7⟩
        · rw [h2, Bool.false_and]
          exact Bool.false_ne_true
        · simp [Nat.pos_iff_ne_zero.mp h1, h7]
    · rw [hend, if_neg hopen, if_pos (by simp [hlast, hroom])]
    · rw [hend, if_neg hopen, if_neg (by simp [Nat.not_le.mpr hround]), State.inject_room hroom, State.nextMe_stall, Option.isSome_none, if_neg Bool.false_ne_true]
      rfl
    · rw [hgraph, if_pos (by simp [hseq])]
    · rw [hgraph, if_neg (by simp [hclosed, hrefuses, hseq]), State.inject_room hroom]
      rfl
    · rw [if_neg hopen, if_neg (by simp [hroom]), State.inject_full hroom, if_pos (State.stallMe_stall _ _ _)] at hend
      exact stalls_in_place hend
  · rw [hredo, if_pos hred]
    rfl
  · exact herror (by decide) (hredo.trans (by rw [if_neg hred]))

end Sys2Proof.Machine
end

section
/-! PROOF. Engine instructions and launches (R266 to R268). -/

namespace Sys2Proof.Machine

/-! ### Engine instructions -/

section Engines
variable {s : State} {i : Instr} {p : BitVec 2} {sub : Nat} {a : BitVec 5} {k : BitVec 3}

theorem engInstr_eq (hw : i.wf = true) (h : Undisturbed s) : engInstr i p sub a k s = .next (
    if (s.me.rd a).toNat % 64 ≠ 0 then s.trapMe 2 (s.me.rd a)
    else
      match s.cardTile s.cur.val (s.me.rd a) with
      | none => s.trapMe 3 (s.me.rd a)
      | some m =>
        if ((s.tile s.cur).strands[k.toFin]).state = .empty then s.cfgError 4 k.toNat 0
        else
          match s.seqLoad .scratch (s.me.rd a) 64 with
          | (.trap code tval, s1) => s1.trapMe code tval
          | (.ok v, s1) =>
            match s1.cardCode (s1.gidOfTile s.cur.val) s.cur.val m sub (leBytes 64 v) with
            | some code => s1.cfgError 0xB k.toNat code
            | none => s1.queueJob i sub k m (leBytes 64 v)) := by
  rw [engInstr, seqInstr_undisturbed hw h]
  simp only [BitVec.xor_zero] <;> rfl

theorem State.queueJob_some {m : Nat} {card : List Byte} {e : EngineName} (he : s.chooseEngine (s.gidOfTile s.cur.val) s.cur.val m sub card = some e) :
    s.queueJob i sub k m card = ({ s.openStream (s.gidOfTile s.cur.val) s.cur.val sub e card with
      jobs := s.jobs ++ [⟨e, s.gidOfTile s.cur.val, s.cur.val, k.toNat, ((s.tile s.cur).strands[k.toFin]).active, card, false, none⟩] } : State).nextMe := by
  rw [State.queueJob, he]
  rfl

theorem State.queueJob_none {m : Nat} {card : List Byte} (he : s.chooseEngine (s.gidOfTile s.cur.val) s.cur.val m sub card = none) :
    s.queueJob i sub k m card = s.stallMe i (.kept m card) := by
  rw [State.queueJob, he]

end Engines

/-- Settles O29: the four instructions share one shape, whose branches these are. -/
theorem engineInstructionsQueueTheirJob : Obligations.EngineInstructionsQueueTheirJob := by
  intro s p a k h hp addr t queues
  have hqueues (i : Instr) (sub : Nat) (hw : i.wf = true) (hexec : exec i s = engInstr i p sub a k s) : queues i sub := by
    rw [engInstr_eq hw h] at hexec
    refine ⟨fun ha => ?_, fun ha hcard => ?_, fun m ha hcard => ?_⟩
    · rw [if_pos ha] at hexec
      exact ⟨_, hexec, State.trapMe_entered _ _ _⟩
    · rw [if_neg (not_not.mpr ha), hcard] at hexec
      exact ⟨_, hexec, State.trapMe_entered _ _ _⟩
    rw [if_neg (not_not.mpr ha), hcard] at hexec
    dsimp only at hexec
    refine ⟨fun hempty => ?_, fun hempty v hload => ?_⟩
    · rw [if_pos hempty] at hexec
      exact traps_of_error hexec (by decide) (k.isLt.trans (by decide)) (by decide)
    rw [if_neg hempty, hload] at hexec
    dsimp only at hexec
    refine ⟨fun code hcode hbad => ?_, fun hgood => ⟨fun e he => ?_, fun he => ?_⟩⟩
    · rw [hbad] at hexec
      exact traps_of_error hexec (by decide) (k.isLt.trans (by decide)) hcode
    · rw [hgood] at hexec
      exact hexec.trans (congrArg _ (State.queueJob_some he))
    · rw [hgood] at hexec
      exact stalls_in_place (hexec.trans (congrArg _ (State.queueJob_none he)))
  have hp' : (p != 3#2) = true := bne_iff_ne.mpr hp
  exact ⟨hqueues _ _ hp' rfl, hqueues _ _ hp' rfl, hqueues _ _ hp' rfl, hqueues _ _ hp' rfl⟩

/-! ### launch -/

section Launch
variable {s : State} {p : BitVec 2} {a b : BitVec 5}

theorem State.accessed_seqLoad_global (s : State) (addr : DWord) (n : Nat) : s.Accessed (s.seqLoad .global addr n).2 := by
  have hread := (s.memoryOnly_virtRead s.meAgent addr.toNat n .read).accessed
  unfold State.seqLoad State.seqReadBytes
  dsimp only
  split
  · exact .refl s
  · split
    · exact .refl s
    · revert hread
      rcases s.virtRead s.meAgent addr.toNat n .read with ⟨out, s1⟩
      intro hread
      cases out with
      | ok bs => exact hread.trans (s1.memoryOnly_countHot _ _ _).accessed
      | uncorrectable e => exact hread.trans (s1.accessed_logConsumed _ e)
      | fault x => exact hread
      | poison table =>
        dsimp only
        exact hread.trans (s1.accessed_poisonedByMe table)

theorem exec_launch (hp : p ≠ 3#2) (h : Undisturbed s) : exec (.launch p a b) s = .next (
    if (s.me.rd a).toNat % 64 ≠ 0 then s.trapMe 2 (s.me.rd a)
    else if !s.queueLaunches (s.partOfTile s.cur.val) (s.me.rd b).toNat then s.cfgError 0xC 0xFF (s.me.rd b).toNat
    else
      match s.seqLoad .global (s.me.rd a) 64 with
      | (.trap code tval, s1) => s1.trapMe code tval
      | (.ok v, s1) => s1.pend (.launch p a b) (s.me.rd b).toNat (leBytes 64 v)) := by
  have hw : (Instr.launch p a b).wf = true := bne_iff_ne.mpr hp
  rw [show exec (.launch p a b) s = execLaunch p a b s from rfl, execLaunch, seqInstr_undisturbed hw h]
  simp only [BitVec.xor_zero] <;> rfl

/-- Settles O30: the branches of launch, whose read leaves the runs and the executing sequencer as they were. -/
theorem launchHoldsItsRecordForTheRound : Obligations.LaunchHoldsItsRecordForTheRound := by
  intro s p a b h hp
  have hexec := exec_launch (a := a) (b := b) hp h
  refine ⟨fun ha => ?_, fun ha hq hoff => ?_, fun ha hon v t hload r hrun => ?_⟩
  · rw [if_pos ha] at hexec
    exact ⟨_, hexec, State.trapMe_entered _ _ _⟩
  · rw [if_neg (not_not.mpr ha), hoff] at hexec
    exact traps_of_error hexec (by decide) (by decide) hq
  · have hcur : t.cur = s.cur := by
      have hacc := s.accessed_seqLoad_global (s.me.rd a) 64
      rw [hload] at hacc
      exact hacc.cur
    rw [if_neg (not_not.mpr ha), hon, hload] at hexec
    rw [← hcur] at hrun ⊢
    have hpend : exec (.launch p a b) s = .next (t.pend (.launch p a b) (s.me.rd b).toNat (leBytes 64 v)) := hexec
    rw [State.pend, hrun] at hpend
    dsimp only at hpend
    refine ⟨fun hfew => ?_, fun hmany => ?_⟩
    · rw [if_neg (Nat.not_le.mpr hfew)] at hpend
      exact hpend
    · rw [if_pos hmany] at hpend
      exact stalls_in_place hpend

end Launch

end Sys2Proof.Machine
end

section
/-! PROOF. The ends of stalls (R164, R177, R245, R249, R266, R268, R269). -/

namespace Sys2Proof.Machine

/-- An instruction with a word always ends in a state. -/
theorem exec_next_of_encoded {i : Instr} (hi : (encodeSeq i).isSome = true) (s : State) : ∃ u, exec i s = .next u := by
  obtain ⟨w, hw⟩ := Option.isSome_iff_exists.mp hi
  obtain ⟨point, f, -, hexec, -⟩ := runsGuarded i w hw
  exact ⟨_, hexec s⟩

theorem encoded_of_releasable {i : Instr} (h : releasable i = true) : (encodeSeq i).isSome = true := by
  cases i
  case cfgLoad | cfgWait | cfgExit | cfgPick | cfgDrain | tokPut | rndEnd | rndGraph | engCopy | engDcmp | engVdec | engXfm | launch | st | stOrdered
    | amoAdd | amoSwap | amoCas | evAdd => rfl
  all_goals exact absurd h Bool.false_ne_true

theorem encoded_of_awaitsRound {i : Instr} (h : awaitsRound i = true) : (encodeSeq i).isSome = true := by
  cases i
  case amoAdd | amoSwap | amoCas | evAdd => rfl
  all_goals exact absurd h Bool.false_ne_true

theorem encoded_of_awaitsLine {i : Instr} (h : awaitsLine i = true) : (encodeSeq i).isSome = true := by
  cases i
  case waitAddr | waitAddrN64 => rfl
  all_goals exact absurd h Bool.false_ne_true

theorem waitsForRound_eq (i : Instr) : waitsForRound i = awaitsRound i := by
  cases i <;> rfl

/-- A step that executes an encoded instruction on a sequencer, with its step trap, executes it again. -/
theorem executesAgain_of_stepped {i j : Instr} {s : State} {t : Fin 192} (hj : (encodeSeq j).isSome = true)
    (h : exec i s = stepped s t (exec j { s with cur := t })) : ExecutesAgain i j s t := by
  obtain ⟨u, hu⟩ := exec_next_of_encoded hj { s with cur := t }
  rw [hu] at h
  exact ⟨u, hu, h⟩

section Ends
variable {s : State} {t : Fin 192} {i : Instr} {since : Nat} (hmode : (s.seq t).mode = .running) (hsleep : (s.seq t).sleeping = none)
  (hfrozen : s.tileFrozen t.val = false)
include hmode hsleep hfrozen

theorem State.stalledAs_eq {x : Stall} (hstall : (s.seq t).stall = some x) (kind : StallKind → Bool) :
    s.stalledAs t kind = if kind x.kind then some x else none := by
  unfold State.stalledAs
  dsimp only
  rw [hmode, hsleep, hfrozen, hstall]
  rfl

omit hmode hsleep hfrozen in
theorem State.trapFirst_iff : s.trapFirst t = true ↔ (s.seq t).sv = false ∧ (s.seq t).held ≠ [] := by
  simp [State.trapFirst]

theorem stallRelease_executes {k : StallKind} (hk : k = .retry ∨ k = .switch) (hstall : (s.seq t).stall = some ⟨i, k, since⟩)
    (hrel : releasable i = true) (htrap : awaitsRound i = false ∨ s.trapFirst t = false) :
    exec (.stallRelease t) s = stepped s t (exec i { s with cur := t }) := by
  have hgo : (waitsForRound i && s.trapFirst t) = false := by
    rw [waitsForRound_eq]
    rcases htrap with h | h <;> simp [h]
  rw [show exec (.stallRelease t) s = execStallRelease t s from rfl, execStallRelease, State.stalledAs_eq hmode hsleep hfrozen hstall]
  rcases hk with rfl | rfl
  all_goals
    dsimp only
    rw [if_pos rfl]
    dsimp only
    rw [hgo, if_neg Bool.false_ne_true]
    cases i
    case cfgLoad | cfgWait | cfgExit | cfgPick | cfgDrain | tokPut | rndEnd | rndGraph | engCopy | engDcmp | engVdec | engXfm | launch | st | stOrdered
      | amoAdd | amoSwap | amoCas | evAdd => rfl
    all_goals exact absurd hrel Bool.false_ne_true

theorem stallRelease_goesOn {m : Nat} {bytes : List Byte} (hstall : (s.seq t).stall = some ⟨i, .kept m bytes, since⟩) :
    exec (.stallRelease t) s = .next (s.singleStep (({ s with cur := t } : State).goOn i m bytes) t) := by
  rw [show exec (.stallRelease t) s = execStallRelease t s from rfl, execStallRelease, State.stalledAs_eq hmode hsleep hfrozen hstall]
  rfl

theorem amoPerform_executes (hstall : (s.seq t).stall = some ⟨i, .round, since⟩) (hi : awaitsRound i = true)
    (hready : State.roundReady { s with cur := t } = true) (htrap : s.trapFirst t = false) :
    exec (.amoPerform t) s = stepped s t (exec i { s with cur := t }) := by
  rw [show exec (.amoPerform t) s = execAmoPerform t s from rfl, execAmoPerform, State.stalledAs_eq hmode hsleep hfrozen hstall]
  dsimp only
  rw [if_pos (decide_eq_true rfl)]
  dsimp only
  rw [hready, htrap]
  cases i
  case amoAdd | amoSwap | amoCas | evAdd => rfl
  all_goals exact absurd hi Bool.false_ne_true

theorem amoPerform_waits (hstall : (s.seq t).stall = some ⟨i, .round, since⟩)
    (hwait : State.roundReady { s with cur := t } = false ∨ s.trapFirst t = true) : exec (.amoPerform t) s = .next s := by
  rw [show exec (.amoPerform t) s = execAmoPerform t s from rfl, execAmoPerform, State.stalledAs_eq hmode hsleep hfrozen hstall]
  dsimp only
  rw [if_pos (decide_eq_true rfl)]
  dsimp only
  rw [if_pos (by rcases hwait with h | h <;> simp [h])]

omit hmode hsleep hfrozen in
theorem State.rereadWait_eq (hi : awaitsLine i = true) (k : StallKind) : s.rereadWait t ⟨i, k, since⟩ = stepped s t (exec i { s with cur := t }) := by
  cases i
  case waitAddr | waitAddrN64 => rfl
  all_goals exact absurd hi Bool.false_ne_true

theorem waitAddrWake_executes {line : Nat} (hstall : (s.seq t).stall = some ⟨i, .sleep line false, since⟩) (hi : awaitsLine i = true) :
    exec (.waitAddrWake t) s = stepped s t (exec i { s with cur := t }) := by
  rw [← State.rereadWait_eq hi (.sleep line false), show exec (.waitAddrWake t) s = execWaitAddrWake t s from rfl, execWaitAddrWake,
    State.stalledAs_eq hmode hsleep hfrozen hstall]
  rfl

theorem waitAddrPoll_eq {line : Nat} (hstall : (s.seq t).stall = some ⟨i, .sleep line true, since⟩) :
    exec (.waitAddrPoll t) s = if since + 1024 ≤ s.tileCycles t.val then s.rereadWait t ⟨i, .sleep line true, since⟩ else .next s := by
  rw [show exec (.waitAddrPoll t) s = execWaitAddrPoll t s from rfl, execWaitAddrPoll, State.stalledAs_eq hmode hsleep hfrozen hstall]
  rfl

end Ends

/-- Settles O45: the release of a stall is one test of its kind, and what executes again is the instruction itself. -/
theorem stalledInstructionsExecuteAgain : Obligations.StalledInstructionsExecuteAgain := by
  intro s t i since hmode hsleep hfrozen here trapFirst
  have htrap : s.trapFirst t = true ↔ trapFirst := State.trapFirst_iff
  have hnot : s.trapFirst t = false ↔ ¬ trapFirst := Bool.not_eq_true _ ▸ htrap.not
  refine ⟨fun k hk hstall hrel hgo => ?_, fun m card n p a k hi hstall e he => ?_, fun q bytes p a b hi hstall r hr hroom => ?_,
    fun hstall hi => ⟨fun hready hgo => ?_, fun hwait => ?_⟩, fun line hstall hi => ?_, fun line hstall hi => ⟨fun hlate => ?_, fun hearly => ?_⟩⟩
  · exact executesAgain_of_stepped (encoded_of_releasable hrel)
      (stallRelease_executes hmode hsleep hfrozen hk hstall hrel (hgo.imp_right hnot.mpr))
  · rw [stallRelease_goesOn hmode hsleep hfrozen hstall]
    have hgoOn : here.goOn i m card = here.queueJob i n k m card := by
      simp only [List.mem_cons, Prod.mk.injEq, List.not_mem_nil, or_false] at hi
      rcases hi with ⟨rfl, rfl⟩ | ⟨rfl, rfl⟩ | ⟨rfl, rfl⟩ | ⟨rfl, rfl⟩ <;> rfl
    rw [show ({ s with cur := t } : State) = here from rfl, hgoOn, State.queueJob_some he]
    rfl
  · subst hi
    rw [stallRelease_goesOn hmode hsleep hfrozen hstall]
    have hpend : here.goOn (.launch p a b) q bytes = (here.modRun r.gid (fun x => { x with
        launches := x.launches ++ [⟨t.val, r.currentRound t.val, q, bytes⟩] })).nextMe := by
      show here.pend _ q bytes = _
      rw [State.pend, show here.runOfTile here.cur.val = some r from hr]
      dsimp only
      rw [if_neg (Nat.not_le.mpr hroom)]
    rw [show ({ s with cur := t } : State) = here from rfl, hpend]
    rfl
  · exact executesAgain_of_stepped (encoded_of_awaitsRound hi) (amoPerform_executes hmode hsleep hfrozen hstall hi hready (hnot.mpr hgo))
  · exact amoPerform_waits hmode hsleep hfrozen hstall (hwait.imp_right htrap.mpr)
  · exact executesAgain_of_stepped (encoded_of_awaitsLine hi) (waitAddrWake_executes hmode hsleep hfrozen hstall hi)
  · refine executesAgain_of_stepped (encoded_of_awaitsLine hi) ?_
    rw [waitAddrPoll_eq hmode hsleep hfrozen hstall, if_pos hlate, State.rereadWait_eq hi]
  · rw [waitAddrPoll_eq hmode hsleep hfrozen hstall, if_neg (Nat.not_le.mpr hearly)]

end Sys2Proof.Machine
end

section
/-! PROOF. A step runs the decoded instruction (R181, R222, R240, R361, R477). -/

namespace Sys2Proof.Machine

/-! ### The word at the pc -/

section Fetch
variable {s : State} {bs : List Byte} {after : State}

theorem State.fetchFresh_ok (hpc : s.me.pc.toNat < 2 ^ 52) (hread : s.virtRead s.meAgent s.me.pc.toNat 4 .exec = (.ok bs, after)) :
    s.fetchFresh = (.word (BitVec.ofNat 32 (leNat bs)), after) := by
  have hlow : ¬ field s.me.pc 63 52 ≠ 0 := (beyond_52_bits_iff _).not.mpr (Nat.not_le.mpr hpc)
  unfold State.fetchFresh
  dsimp only
  rw [if_neg hlow, hread]

theorem State.fetch_ok (hsv : s.me.sv = false) (hil1 : s.me.il1Word (s.partOfTile s.cur.val).val = none) (hpc : s.me.pc.toNat < 2 ^ 52)
    (hread : s.virtRead s.meAgent s.me.pc.toNat 4 .exec = (.ok bs, after)) :
    s.fetch = (.word (BitVec.ofNat 32 (leNat bs)), after.fillL1 (BitVec.ofNat 32 (leNat bs))) := by
  unfold State.fetch
  dsimp only
  rw [hsv, if_neg Bool.false_ne_true, hil1, State.fetchFresh_ok hpc hread]

end Fetch

/-! ### A turn of a sequencer -/

/-- A turn of a sequencer at user privilege with nothing held and nothing stalled fetches and runs. -/
theorem seqTurn_runs {s : State} {t : Fin 192} (hexe : State.executes { s with cur := t } t = true) (hsv : (s.seq t).sv = false)
    (hheld : (s.seq t).held = []) (hstall : (s.seq t).stall = none) : seqTurn t s = fetchAndRun t { s with cur := t } := by
  have henter : State.enterHeld { s with cur := t } t = none := by
    unfold State.enterHeld
    dsimp only
    rw [show State.seq { s with cur := t } t = s.seq t from rfl, hsv, if_neg Bool.false_ne_true, hheld]
    rfl
  have hvector : (s.seq t).atVector = none := by
    unfold Seq.atVector
    rw [hsv]
    rfl
  unfold seqTurn
  dsimp only
  rw [hexe, henter, show State.me { s with cur := t } = s.seq t from rfl, hstall, hvector]
  rfl

theorem fetchAndRun_word {s s1 : State} {w : Word} (t : Fin 192) (hbrk : s.me.brkHit = none) (hfetch : s.fetch = (.word w, s1)) :
    fetchAndRun t s = runWord t w s1 := by
  unfold fetchAndRun
  rw [hbrk, hfetch]

/-! ### The emulation of mulh.i32 (R477, log entry 82) -/

/-- Nothing follows an instruction outside emulated code, nor one that is not a mulh.i32 with a destination. -/
theorem emulation_none {s : State} {i : Instr} (h : s.inEmulated = false ∨ ∀ p d a b, d ≠ 0#5 → i ≠ .mulh p d a b 2#2)
    (o : Host.Outcome State Fault Refusal) : emulation s i o = o := by
  unfold emulation
  split
  next p d a b w v =>
    refine if_neg (fun hc => ?_)
    simp only [Bool.and_eq_true, decide_eq_true_eq] at hc
    obtain ⟨⟨⟨rfl, hd⟩, hin⟩, -⟩ := hc
    rcases h with h | h
    · exact Bool.false_ne_true (h.symm.trans hin)
    · exact h p d a b hd rfl
  · rfl

theorem State.wrote_rd (s : State) {d : BitVec 5} (hd : d ≠ 0#5) (v : DWord) : (s.wrote d v).me.rd d = v := by
  rw [State.wrote, State.modMe_me, Seq.rd, if_neg hd, if_neg hd]
  exact Vector.getElem_set_self _

theorem undisturbed_wrote {s : State} (h : Undisturbed s) (d : BitVec 5) (v : DWord) : Undisturbed (s.wrote d v) := by
  rw [Undisturbed, State.wrote, State.modMe_me]
  exact h

/-- Up and down by 32 leaves the low 32 bits, zero-extended. -/
theorem shiftLeft_shiftRight_32 (v : DWord) : (v <<< 32) >>> 32 = (v.setWidth 32).setWidth 64 := by
  apply BitVec.eq_of_toNat_eq
  simp
  omega

/-- In emulated code a mulh.i32 leaves its result zero-extended, and its two shifts advance the pc no further. -/
theorem emulation_mulh {s v : State} {p : BitVec 2} {d a b : BitVec 5} (hp : p ≠ 3#2) (hd : d ≠ 0#5) (hin : s.inEmulated = true) (h : Undisturbed s)
    (hexec : exec (.mulh p d a b 2#2) s = .next v) : ∃ x, emulation s (.mulh p d a b 2#2) (exec (.mulh p d a b 2#2) s) = .next x
      ∧ x.me.rd d = ((v.me.rd d).setWidth 32).setWidth 64 ∧ x.me.pc = s.me.pc + 4#64 := by
  have hp' : (p != 3#2) = true := bne_iff_ne.mpr hp
  obtain ⟨r, hr⟩ : ∃ r, v = s.wrote d r :=
    ⟨_, Host.Outcome.next.inj (hexec.symm.trans (exec_eq_wrote (i := .mulh p d a b 2#2) rfl hp' h))⟩
  have hv : Undisturbed v := hr ▸ undisturbed_wrote h d r
  have hpc : v.me.pc = s.me.pc + 4#64 := by
    rw [hr, State.wrote, State.modMe_me]
  have hup : execShli p d d 32#6 v = .next (v.wrote d (v.me.rd d <<< 32)) := exec_eq_wrote (i := .shli p d d 32#6) rfl hp' hv
  have hdown : execShrli p d d 32#6 (v.wrote d (v.me.rd d <<< 32)) =
      .next ((v.wrote d (v.me.rd d <<< 32)).wrote d ((v.wrote d (v.me.rd d <<< 32)).me.rd d >>> 32)) :=
    exec_eq_wrote (i := .shrli p d d 32#6) rfl hp' (undisturbed_wrote hv d _)
  refine ⟨((v.wrote d (v.me.rd d <<< 32)).wrote d ((v.wrote d (v.me.rd d <<< 32)).me.rd d >>> 32)).modMe (fun q => { q with pc := s.me.pc + 4#64 }), ?_, ?_, ?_⟩
  · rw [hexec]
    unfold emulation
    dsimp only
    rw [if_pos (by simp [hd, hin, hpc]), hup]
    dsimp only
    rw [hdown]
  · have hrd (u : State) : (u.modMe (fun q => { q with pc := s.me.pc + 4#64 })).me.rd d = u.me.rd d := by
      rw [State.modMe_me]
      rfl
    rw [hrd, State.wrote_rd _ hd, State.wrote_rd _ hd, shiftLeft_shiftRight_32]
  · rw [State.modMe_me]

/-- Settles O4: the turn at the head of the agenda, the word at the pc, and what runs it. -/
theorem aStepRunsTheDecodedInstruction : Obligations.AStepRunsTheDecodedInstruction := by
  refine ⟨?seq, ?alm, ?act, ?idle⟩
  case seq =>
    intro s t rest hagenda here hexe hsv hheld hstall hbrk hpc hil1 bs after hread w u
    have hstep : step s = runWord t w (after.fillL1 w) := by
      have hturn : step s = seqTurn t { s with agenda := rest } := by
        unfold step
        rw [hagenda]
      rw [hturn, seqTurn_runs (s := { s with agenda := rest }) hexe hsv hheld hstall]
      exact fetchAndRun_word t hbrk (State.fetch_ok hsv hil1 hpc hread)
    refine ⟨fun i hi => ⟨(sequencerWordsRoundTrip.2 i w hi).2, fun hplain => ?_⟩, fun p d a b v hi hin hd hun hexec => ?_, fun e he hun => ?_⟩
    · have hrun : runWord t w (after.fillL1 w) = stepped u t (emulation u i (exec i u)) := by
        unfold runWord
        rw [hi]
      rw [hstep, hrun, emulation_none hplain]
      cases exec i u <;> rfl
    · have hrun : runWord t w (after.fillL1 w) = stepped u t (emulation u (.mulh p d a b 2#2) (exec (.mulh p d a b 2#2) u)) := by
        unfold runWord
        rw [hi]
      have hp : p ≠ 3#2 := bne_iff_ne.mp (sequencerWordsRoundTrip.2 _ w hi).2
      obtain ⟨x, hx, hrest⟩ := emulation_mulh hp hd hin hun hexec
      exact ⟨x, by rw [hstep, hrun, hx]; rfl, hrest⟩
    · have hrun : runWord t w (after.fillL1 w) = .next (u.guarded (w.extractLsb' 30 2) 4 (fun _ s => s.trapMe 1 (w.setWidth 64))) := by
        unfold runWord
        rw [he]
      rw [hstep, hrun, State.guarded_undisturbed hun]
      exact ⟨_, rfl, State.trapMe_entered u 1 _⟩
  case alm =>
    intro s p rest v hagenda hinv hcycles here i n hi
    refine ⟨(almanacWordsRoundTrip.2 i _ n hi).2.2, ?_⟩
    have hturn : step s = almTurn p { s with agenda := rest } := by
      unfold step
      rw [hagenda]
    have hover : here.overrunning p = false := by
      unfold State.overrunning
      rw [show (here.part p).inv = some v from hinv]
      exact decide_eq_false (Nat.not_le.mpr hcycles)
    rw [hturn]
    unfold almTurn
    dsimp only
    rw [show State.invocation { s with agenda := rest, curPart := p } = some v from hinv]
    dsimp only
    rw [show State.overrunning { s with agenda := rest, curPart := p } p = false from hover, if_neg Bool.false_ne_true,
      show State.almCode { s with agenda := rest, curPart := p } = here.almCode from rfl, hi]
  case act =>
    intro s i rest hagenda hi
    unfold step
    rw [hagenda]
    dsimp only
    unfold actTurn
    rw [hi]
  case idle =>
    intro s hagenda
    unfold step
    rw [hagenda]

end Sys2Proof.Machine
end

section
/-! PROOF. Shootdowns (R129, R404, R459). -/

namespace Sys2Proof.Machine

/-! ### Operations that write tiles only -/

/-- Nothing differs but the tiles. -/
def State.TilesOnly (s v : State) : Prop := ∃ ts, v = { s with tiles := ts }

theorem State.TilesOnly.refl (s : State) : s.TilesOnly s := ⟨_, rfl⟩

theorem State.TilesOnly.trans {s v w : State} (h : s.TilesOnly v) (h' : v.TilesOnly w) : s.TilesOnly w := by
  obtain ⟨ts, rfl⟩ := h
  obtain ⟨ts', rfl⟩ := h'
  exact ⟨ts', rfl⟩

theorem State.tilesOnly_modTile (s : State) (t : Fin 192) (f : Tile → Tile) : s.TilesOnly (s.modTile t f) := ⟨_, rfl⟩

theorem State.tilesOnly_foldl {α : Type} (f : State → α → State) (hf : ∀ (v : State) (x : α), v.TilesOnly (f v x)) (l : List α) (s : State) : s.TilesOnly (l.foldl f s) :=
  List.foldlRecOn (motive := State.TilesOnly s) l f (.refl s) (fun v hv x _ => hv.trans (hf v x))

theorem State.tilesOnly_staleBases (s : State) (p : Fin 16) (ctx : Half) (bad : Base → Bool) : s.TilesOnly (s.staleBases p ctx bad) :=
  State.tilesOnly_foldl _ (fun v _ => State.tilesOnly_foldl _ (fun w _ => w.tilesOnly_modTile _ _) _ v) _ s

/-- Dropping a page writes tiles and the cached translations alone. -/
theorem State.dropPage_eq (s : State) (p : Fin 16) (x : Shoot) : ∃ ts, s.dropPage p x = { s with
    tlb := s.tlb.filter (fun e => !(e.part == p.val && decide (e.ctx = x.ctx) && x.meets e.va e.size)), tiles := ts } := by
  obtain ⟨ts, hts⟩ := State.tilesOnly_staleBases { s with
    tlb := s.tlb.filter (fun e => !(e.part == p.val && decide (e.ctx = x.ctx) && x.meets e.va e.size)) } p x.ctx (fun b => x.meets b.page b.size)
  exact ⟨ts, hts⟩

/-! ### A command issued -/

section Issue
variable {s : State} {p : Fin 16} {kind : Nat} {ctx : Half} {k : Nat}

theorem State.issueShoot_full (h : 16 ≤ (s.part p).shoots.length) :
    s.issueShoot p kind ctx k = s.modPart p (fun z => { z with shootOverflow := true }) := by
  unfold State.issueShoot
  dsimp only
  rw [if_pos h]

theorem State.issueShoot_room (h : (s.part p).shoots.length < 16) :
    s.issueShoot p kind ctx k =
      let x : Shoot := ⟨(s.part p).shootNext + 1#32, kind, k, ctx, (s.part p).shootVa.toNat, s.ns⟩
      let s1 := s.modPart p (fun z => { z with shoots := z.shoots ++ [x], shootNext := z.shootNext + 1#32 })
      if kind = 0 then s1 else s1.reachAll p x := by
  unfold State.issueShoot
  dsimp only
  rw [if_neg (Nat.not_le.mpr h)]
  rfl

end Issue

/-! ### A command completed -/

/-- Whether a sequencer waits at a command. -/
def State.shootWaits (s : State) (x : Shoot) : Bool := s.tiles.toList.any (fun t => t.seq.shoots.any (fun y => decide (y.1 = x)))

theorem State.shootWaits_iff {s : State} {x : Shoot} : s.shootWaits x = true ↔ ∃ t : Fin 192, ∃ w ∈ (s.seq t).shoots, w.1 = x := by
  simp only [State.shootWaits, List.any_eq_true, decide_eq_true_eq]
  constructor
  · rintro ⟨t, ht, w, hw, hx⟩
    obtain ⟨n, hn, rfl⟩ := List.mem_iff_getElem.mp ht
    exact ⟨⟨n, by simpa using hn⟩, w, hw, hx⟩
  · rintro ⟨t, w, hw, hx⟩
    exact ⟨s.tile t, by simp [State.tile], w, hw, hx⟩

theorem exec_shootdownComplete {s : State} {p : Fin 16} {x : Shoot} {rest : List Shoot} (h : (s.part p).shoots = x :: rest) :
    exec (.shootdownComplete p) s = if x.kind ≠ 0 && s.shootWaits x then .next s
      else .next (((if x.kind = 0 then s else s.dropLines p x).dropPage p x).modPart p (fun y => { y with shoots := rest, shootDone := x.number })) := by
  rw [show exec (.shootdownComplete p) s = execShootdownComplete p s from rfl, execShootdownComplete, h]
  rfl

/-- Settles O47: a command is queued by number, and its completion writes the cached translations, tiles and its partition alone. -/
theorem shootdownsQueueAndComplete : Obligations.ShootdownsQueueAndComplete := by
  intro s p ctx k y cmd queued
  refine ⟨fun hformed hroom => ⟨?_, ?_, ?_⟩, fun hformed hfull => ⟨?_, ?_, ?_⟩, fun x rest hx => ⟨fun hdone => ?_, fun hkind hwait => ?_⟩⟩
  · show Host.Outcome.next (if (s.part p).formed then s.issueShoot p 0 ctx k.toNat else s) = _
    rw [if_pos hformed, State.issueShoot_room hroom]
    rfl
  · show Host.Outcome.next (if (s.part p).formed then s.issueShoot p 1 ctx k.toNat else s) = _
    rw [if_pos hformed, State.issueShoot_room hroom]
    rfl
  · show Host.Outcome.next (if (s.part p).formed then s.issueShoot p 2 ctx k.toNat else s) = _
    rw [if_pos hformed, State.issueShoot_room hroom]
    rfl
  · show Host.Outcome.next (if (s.part p).formed then s.issueShoot p 0 ctx k.toNat else s) = _
    rw [if_pos hformed, State.issueShoot_full hfull]
  · show Host.Outcome.next (if (s.part p).formed then s.issueShoot p 1 ctx k.toNat else s) = _
    rw [if_pos hformed, State.issueShoot_full hfull]
  · show Host.Outcome.next (if (s.part p).formed then s.issueShoot p 2 ctx k.toNat else s) = _
    rw [if_pos hformed, State.issueShoot_full hfull]
  · have hgo : ¬ (decide (x.kind ≠ 0) && s.shootWaits x) = true := by
      intro hboth
      obtain ⟨hkind, hwaits⟩ := Bool.and_eq_true_iff.mp hboth
      obtain ⟨t, w, hw, hwx⟩ := State.shootWaits_iff.mp hwaits
      have hkind' : x.kind ≠ 0 := by simpa using hkind
      exact hdone.elim hkind' (fun hnone => hnone t w hw hwx)
    have hexec := exec_shootdownComplete hx
    rw [if_neg hgo] at hexec
    obtain ⟨ts, hv⟩ : ∃ ts, (if x.kind = 0 then s else s.dropLines p x) = { s with tiles := ts } := by
      split <;> exact ⟨_, rfl⟩
    obtain ⟨ts', hdrop⟩ := State.dropPage_eq { s with tiles := ts } p x
    rw [hv, hdrop] at hexec
    refine ⟨_, hexec, ?_, ?_, rfl, fun e => ?_⟩
    · exact congrArg Part.shoots (State.modPart_part_self _ p _)
    · exact congrArg Part.shootDone (State.modPart_part_self _ p _)
    · show e ∈ s.tlb.filter _ ↔ _
      simp only [List.mem_filter, Bool.not_eq_true', ← Bool.not_eq_true, Bool.and_eq_true, beq_iff_eq, decide_eq_true_eq, and_assoc]
  · rw [exec_shootdownComplete hx, State.shootWaits_iff.mpr hwait, if_pos (by simp [hkind])]

end Sys2Proof.Machine
end

section
/-! PROOF. Page-fault resolutions (R134, R136, R353, R455). -/

namespace Sys2Proof.Machine

/-! ### A tile with a request resolved -/

theorem Strand.block_map (st : Strand) (f : UnitSt → UnitSt) (key : Nat) :
    ({ st with units := st.units.map (fun u => (u.1, u.2.map f)) } : Strand).block key = (st.block key).map f := by
  simp only [Strand.block, List.find?_map, Function.comp_def]
  cases st.units.find? (fun x => x.1 == key) <;> rfl

/-- The access that a unit of a block withholds. -/
def Tile.heldBy (t : Tile) (k : Fin 8) (b u : Nat) : Option Withheld := ((t.strands[k].block b)[u]?).bind (fun x => x.withheld)

/-- A tile on which the accesses withheld under a tag, and the sequencer that sleeps for it, go on. -/
def Tile.Resolves (tag : Word) (invalid : Bool) (t t' : Tile) : Prop :=
  (∀ (k : Fin 8) (b u : Nat), t'.heldBy k b u = (t.heldBy k b u).map (fun w => w.resolve tag invalid))
  ∧ t'.seq.sleeping = if t.seq.sleeping = some tag then none else t.seq.sleeping

theorem Withheld.resolve_resolve (w : Withheld) (tag : Word) (invalid : Bool) : (w.resolve tag invalid).resolve tag invalid = w.resolve tag invalid := by
  by_cases h : w.tag = some tag
  · rw [show w.resolve tag invalid = { w with tag := none, cause := if invalid then some 3 else none } from if_pos h]
    exact if_neg (fun h => nomatch h)
  · rw [show w.resolve tag invalid = w from if_neg h]
    exact if_neg h

theorem Tile.resolves_resolve (t : Tile) (tag : Word) (invalid : Bool) (slept now : Nat) : Tile.Resolves tag invalid t (t.resolve tag invalid slept now) := by
  refine ⟨fun k b u => ?_, ?_⟩
  · have hk : (t.resolve tag invalid slept now).strands[k] = { t.strands[k] with
        units := t.strands[k].units.map (fun u => (u.1, u.2.map (fun y => { y with withheld := y.withheld.map (fun w => w.resolve tag invalid) }))) } := by
      simp [Tile.resolve]
    rw [Tile.heldBy, Tile.heldBy, hk, Strand.block_map, List.getElem?_map]
    cases (t.strands[k].block b)[u]? <;> rfl
  · unfold Tile.resolve
    dsimp only
    split <;> rfl

theorem Tile.Resolves.trans {tag : Word} {invalid : Bool} {t t' t'' : Tile} (h : Tile.Resolves tag invalid t t') (h' : Tile.Resolves tag invalid t' t'') :
    Tile.Resolves tag invalid t t'' := by
  refine ⟨fun k b u => ?_, ?_⟩
  · rw [h'.1, h.1, Option.map_map]
    exact congrFun (congrArg Option.map (funext (fun w => w.resolve_resolve tag invalid))) _
  · rw [h'.2, h.2]
    by_cases hs : t.seq.sleeping = some tag <;> simp [hs]

/-- A request resolved on each of some tiles. -/
def State.resolveTiles (s : State) (ts : List (Nat × Nat)) (tag : Word) (invalid : Bool) (slept now : Nat → Nat) : State :=
  ts.foldl (fun acc t => acc.modTile (tileOf t.2) (fun y => y.resolve tag invalid (slept t.2) (now t.2))) s

theorem State.tilesOnly_resolveTiles (s : State) (ts : List (Nat × Nat)) (tag : Word) (invalid : Bool) (slept now : Nat → Nat) :
    s.TilesOnly (s.resolveTiles ts tag invalid slept now) := State.tilesOnly_foldl _ (fun v _ => v.tilesOnly_modTile _ _) ts s

theorem State.resolveTiles_other (s : State) (ts : List (Nat × Nat)) (tag : Word) (invalid : Bool) (slept now : Nat → Nat) {x : Fin 192}
    (h : ∀ y ∈ ts, tileOf y.2 ≠ x) : (s.resolveTiles ts tag invalid slept now).tile x = s.tile x := by
  induction ts generalizing s with
  | nil => rfl
  | cons y ys ih =>
    refine (ih _ (fun z hz => h z (List.mem_cons_of_mem y hz))).trans ?_
    exact State.modTile_tile_ne _ _ _ _ (h y List.mem_cons_self)

theorem State.resolveTiles_resolves (s : State) (ts : List (Nat × Nat)) (tag : Word) (invalid : Bool) (slept now : Nat → Nat) {x : Fin 192}
    (h : ∃ y ∈ ts, tileOf y.2 = x) : Tile.Resolves tag invalid (s.tile x) ((s.resolveTiles ts tag invalid slept now).tile x) := by
  induction ts generalizing s with
  | nil => exact nomatch h
  | cons z zs ih =>
    let acc := s.modTile (tileOf z.2) (fun y => y.resolve tag invalid (slept z.2) (now z.2))
    show Tile.Resolves tag invalid (s.tile x) ((acc.resolveTiles zs tag invalid slept now).tile x)
    by_cases hz : tileOf z.2 = x
    · have hone : Tile.Resolves tag invalid (s.tile x) (acc.tile x) := by
        rw [← hz, State.modTile_tile_self]
        exact Tile.resolves_resolve _ _ _ _ _
      by_cases hin : ∃ w ∈ zs, tileOf w.2 = x
      · exact hone.trans (ih acc hin)
      · rw [State.resolveTiles_other acc zs tag invalid slept now (fun w hw hwx => hin ⟨w, hw, hwx⟩)]
        exact hone
    · have hin : ∃ w ∈ zs, tileOf w.2 = x := by
        obtain ⟨y, hy, hyx⟩ := h
        rcases List.mem_cons.mp hy with rfl | hy
        · exact absurd hyx hz
        · exact ⟨y, hy, hyx⟩
      rw [← State.modTile_tile_ne s (tileOf z.2) x (fun y => y.resolve tag invalid (slept z.2) (now z.2)) hz]
      exact ih acc hin

/-! ### The resolution -/

/-- What a resolution does once its load's limit has been judged. -/
def State.resolved (s : State) (p : Fin 16) (f : PfReq) (tag : Word) (invalid : Bool) : State :=
  let s1 := s.modPart p (fun x => { x with faults := x.faults.erase f })
  let s2 : State := match s1.run f.graph with
    | some r => s1.resolveTiles r.tiles tag invalid (fun t => s1.cyclesSince (islandOf t) f.time) s1.tileCycles
    | none => s1
  let s3 : State := { s2 with
    jobs := s2.jobs.map (fun j => if j.graph = f.graph then j.resolve tag invalid else j)
    saved := s2.saved.map (fun y => if y.run.gid = f.graph then y.resolve tag else y) }
  s3.nowResumable p f.graph

section Resolved
variable (s : State) (p : Fin 16) (f : PfReq) (tag : Word) (invalid : Bool)

theorem State.trigger_faults (hook : Hook) (code : Nat) (subject : Word) : ((s.trigger p hook code subject).part p).faults = (s.part p).faults := by
  rw [State.trigger, State.modPart_part_self]
  split <;> rfl

theorem State.nowResumable_keeps (g : Word) : (s.nowResumable p g).tiles = s.tiles ∧ (s.nowResumable p g).mem = s.mem
    ∧ (s.nowResumable p g).runs = s.runs ∧ ((s.nowResumable p g).part p).faults = (s.part p).faults := by
  unfold State.nowResumable
  dsimp only
  split
  · exact ⟨rfl, rfl, rfl, by rw [State.trigger_faults, State.modPart_part_self]⟩
  · exact ⟨rfl, rfl, rfl, rfl⟩

/-- The state in which the request is gone and its tiles go on. -/
def State.wokenTiles (s : State) (p : Fin 16) (f : PfReq) (tag : Word) (invalid : Bool) : State :=
  let s1 := s.modPart p (fun x => { x with faults := x.faults.erase f })
  match s.run f.graph with
  | some r => s1.resolveTiles r.tiles tag invalid (fun t => s1.cyclesSince (islandOf t) f.time) s1.tileCycles
  | none => s1

theorem State.tilesOnly_wokenTiles : (s.modPart p (fun x => { x with faults := x.faults.erase f })).TilesOnly (s.wokenTiles p f tag invalid) := by
  unfold State.wokenTiles
  dsimp only
  split
  · exact State.tilesOnly_resolveTiles _ _ _ _ _ _
  · exact .refl _

theorem State.resolved_keeps : (s.resolved p f tag invalid).tiles = (s.wokenTiles p f tag invalid).tiles
    ∧ (s.resolved p f tag invalid).mem = s.mem ∧ (s.resolved p f tag invalid).runs = s.runs
    ∧ ((s.resolved p f tag invalid).part p).faults = (s.part p).faults.erase f := by
  obtain ⟨ts, hts⟩ := s.tilesOnly_wokenTiles p f tag invalid
  obtain ⟨htiles, hmem, hruns, hfaults⟩ := State.nowResumable_keeps { s.wokenTiles p f tag invalid with
    jobs := (s.wokenTiles p f tag invalid).jobs.map (fun j => if j.graph = f.graph then j.resolve tag invalid else j)
    saved := (s.wokenTiles p f tag invalid).saved.map (fun y => if y.run.gid = f.graph then y.resolve tag else y) } p f.graph
  refine ⟨htiles, hmem.trans ?_, hruns.trans ?_, hfaults.trans ?_⟩
  · show (s.wokenTiles p f tag invalid).mem = _
    rw [hts]
    rfl
  · show (s.wokenTiles p f tag invalid).runs = _
    rw [hts]
    rfl
  · show ((s.wokenTiles p f tag invalid).part p).faults = _
    rw [hts]
    exact congrArg Part.faults (State.modPart_part_self s p (fun x => { x with faults := x.faults.erase f }))

theorem State.resolved_tile (x : Fin 192) : (s.resolved p f tag invalid).tile x = (s.wokenTiles p f tag invalid).tile x := by
  rw [State.tile, State.tile, (s.resolved_keeps p f tag invalid).1]

variable {s f} {x : Fin 192}

theorem State.resolved_other (h : ∀ r, s.run f.graph = some r → ∀ y ∈ r.tiles, tileOf y.2 ≠ x) :
    (s.resolved p f tag invalid).tile x = s.tile x := by
  rw [State.resolved_tile]
  unfold State.wokenTiles
  split
  next r hr => exact State.resolveTiles_other _ _ _ _ _ _ (h r hr)
  · rfl

theorem State.resolved_resolves {r : Run} (hr : s.run f.graph = some r) (h : ∃ y ∈ r.tiles, tileOf y.2 = x) :
    Tile.Resolves tag invalid (s.tile x) ((s.resolved p f tag invalid).tile x) := by
  rw [State.resolved_tile]
  unfold State.wokenTiles
  rw [hr]
  exact State.resolveTiles_resolves _ _ _ _ _ _ h

end Resolved

theorem State.requestFreeze_run {s : State} {g : Word} {r : Run} (hr : s.run g = some r) (why : FreezeReason) :
    (s.requestFreeze r.gid why).run g = some { r with freeze := some why, frozen := false } := by
  obtain rfl := State.gid_of_run hr
  exact (s.modRun_run r.gid (fun y => { y with freeze := some why, frozen := false }) (fun _ => rfl)).trans (congrArg _ hr)

section Resolution
variable {s : State} {p : Fin 16} {v : DWord}

theorem exec_frresolve (hformed : (s.part p).formed = true) : exec (.frresolve p v) s = .next (s.resolveFault p v) := by
  show Host.Outcome.next (if (s.part p).formed then s.resolveFault p v else s) = _
  rw [if_pos hformed]

theorem State.resolveFault_nothing (h : field v 63 33 ≠ 0 ∨ ∀ f ∈ (s.part p).faults, f.tag ≠ v.setWidth 32) : s.resolveFault p v = s := by
  unfold State.resolveFault
  dsimp only
  by_cases hfield : field v 63 33 ≠ 0
  · exact if_pos hfield
  · have hnone : (s.part p).faults.find? (fun f => decide (f.tag = v.setWidth 32)) = none :=
      List.find?_eq_none.mpr (fun f hf => by simpa using h.resolve_left hfield f hf)
    rw [if_neg hfield, hnone]

variable {f : PfReq} (hfield : field v 63 33 = 0) (hfind : (s.part p).faults.find? (fun x => decide (x.tag = v.setWidth 32)) = some f)
include hfield hfind

/-- Before the limit of its load a resolution is the host's word. -/
theorem State.resolveFault_inTime (hlate : ∀ r, s.run f.graph = some r → s.faultLate r = false) :
    s.resolveFault p v = s.resolved p f (v.setWidth 32) (v.getLsbD 32) := by
  unfold State.resolveFault
  dsimp only
  rw [if_neg (not_not.mpr hfield), hfind, ← bitOf_toNat]
  dsimp only
  cases hr : s.run f.graph with
  | none =>
    dsimp only
    rw [Bool.not_false, Bool.and_true]
    rfl
  | some r =>
    have hlimit : s.faultLimit r = s := by
      unfold State.faultLimit
      rw [hlate r hr]
      rfl
    dsimp only
    rw [hlate r hr, hlimit, Bool.not_false, Bool.and_true]
    rfl

/-- From the limit on the load is drained all the same, and the access walks again. -/
theorem State.resolveFault_late {r : Run} (hr : s.run f.graph = some r) (hlate : s.faultLate r = true) (hfreeze : r.freeze = none)
    (hfits : s.saveFits r = true) : s.resolveFault p v = (s.requestFreeze r.gid .pageFault).resolved p f (v.setWidth 32) false := by
  unfold State.resolveFault
  dsimp only
  have hlimit : s.faultLimit r = s.requestFreeze r.gid .pageFault := by
    unfold State.faultLimit
    rw [hlate, hfreeze]
    dsimp only
    rw [hfits]
    rfl
  rw [if_neg (not_not.mpr hfield), hfind]
  dsimp only
  rw [hr]
  dsimp only
  rw [hlate, hlimit, Bool.not_true, Bool.and_false]
  rfl

end Resolution

/-- Settles O50: a tag names one request at most, in time or late, and resolving it writes that request and its sleepers alone. -/
theorem pageFaultResolutionsEndTheirRequest : Obligations.PageFaultResolutionsEndTheirRequest := by
  intro s p v hformed tag
  have hexec := exec_frresolve (v := v) hformed
  refine ⟨fun h => ?_, ?_⟩
  · rw [hexec, State.resolveFault_nothing h]
  intro hfield f hfind held ends
  refine ⟨fun hlate => ?_, fun r hr hlate hfreeze hfits => ?_⟩
  · rw [State.resolveFault_inTime hfield hfind hlate] at hexec
    obtain ⟨-, hmem, -, hfaults⟩ := s.resolved_keeps p f tag (v.getLsbD 32)
    refine ⟨_, hexec, hfaults, hmem, fun r hr y hy => ?_, fun x hx => State.resolved_other p tag _ hx⟩
    exact State.resolved_resolves p tag (v.getLsbD 32) hr ⟨y, hy, rfl⟩
  · rw [State.resolveFault_late hfield hfind hr hlate hfreeze hfits] at hexec
    have hrun := State.requestFreeze_run hr .pageFault
    obtain ⟨-, hmem, hruns, hfaults⟩ := (s.requestFreeze r.gid .pageFault).resolved_keeps p f tag false
    refine ⟨_, { r with freeze := some .pageFault, frozen := false }, hexec, ⟨hfaults, hmem, fun r' hr' y hy => ?_, fun x hx => ?_⟩, ?_, rfl, rfl⟩
    · obtain rfl : r = r' := Option.some.inj (hr.symm.trans hr')
      exact State.resolved_resolves p tag false hrun ⟨y, hy, rfl⟩
    · refine State.resolved_other p tag false (fun r' hr' => ?_)
      obtain rfl := Option.some.inj (hrun.symm.trans hr')
      exact hx r hr
    · exact (State.run_congr hruns f.graph).trans hrun

end Sys2Proof.Machine
end

section
/-! SUPPORT. The placement unit's epochs, the ends of page moves, and which job an idle engine starts (R138, R139, R267). -/

namespace Sys2Proof.Machine

/-! ### Epochs (R139) -/

/-- Nothing differs but the free choices, and moves that have begun. -/
def State.BeginsMoves (s v : State) : Prop := ∃ n ms, v = { s with free := n, moves := s.moves ++ ms }

theorem State.BeginsMoves.of_free (s : State) (n : Nat) : s.BeginsMoves { s with free := n } := ⟨n, [], by rw [List.append_nil]⟩

theorem State.BeginsMoves.trans {s v w : State} (h : s.BeginsMoves v) (h' : v.BeginsMoves w) : s.BeginsMoves w := by
  obtain ⟨n, ms, rfl⟩ := h
  obtain ⟨n', ms', rfl⟩ := h'
  exact ⟨n', ms ++ ms', by rw [← List.append_assoc]⟩

theorem State.BeginsMoves.ite {s v w : State} {c : Prop} [Decidable c] (hv : s.BeginsMoves v) (hw : s.BeginsMoves w) :
    s.BeginsMoves (if c then v else w) := by
  split
  · exact hv
  · exact hw

theorem State.beginsMoves_evaluatePage (s : State) (h : HotPage) : s.BeginsMoves (s.evaluatePage h) := by
  have hchoose : s.BeginsMoves (s.chooseDie h).2 := .of_free s _
  unfold State.evaluatePage
  revert hchoose
  rcases s.chooseDie h with ⟨_ | d, s1⟩
  · exact id
  · intro hchoose
    refine hchoose.trans ?_
    dsimp only
    generalize (if h.writes = 0 then some MoveKind.replicate
      else if 2 * h.counts.getD h.home 0 < h.counts.getD d 0 then some .migrate else none) = kind
    cases kind with
    | none => exact .of_free s1 s1.free
    | some k =>
      dsimp only
      refine .ite (.of_free s1 s1.free) ?_
      have hdraw : s1.BeginsMoves (s1.drawFrame (d * 2 ^ 37) (2 ^ 37) h.size).2 := .of_free s1 _
      revert hdraw
      rcases s1.drawFrame (d * 2 ^ 37) (2 ^ 37) h.size with ⟨_ | dest, s2⟩
      · exact id
      · exact fun hdraw => hdraw.trans ⟨s2.free, _, rfl⟩

theorem State.beginsMoves_evaluatePages (s : State) (hs : List HotPage) : s.BeginsMoves (hs.foldl (fun v h => v.evaluatePage h) s) :=
  List.foldlRecOn (motive := State.BeginsMoves s) hs _ (.of_free s s.free) (fun v hv h _ => hv.trans (v.beginsMoves_evaluatePage h))

/-- The hot pages of a die, counted anew. -/
def halveCounts (d : Fin 4) (h : HotPage) : HotPage :=
  if h.home = d.val then { h with counts := h.counts.map (· / 2), writes := h.writes / 2 } else h

theorem placementEpoch_ends (s : State) (d : Fin 4) :
    (s.ns / 1000000 ≤ s.epochs[d] → exec (.placementEpoch d) s = .next s)
    ∧ (s.epochs[d] < s.ns / 1000000 → ∃ v, exec (.placementEpoch d) s = .next v ∧ v.epochs = s.epochs.set d (s.ns / 1000000)
        ∧ v.hot = (s.hot.filter (fun h => h.home != d.val || s.stillHot h)).map (halveCounts d)
        ∧ v.mem = s.mem ∧ s.moves <+: v.moves) := by
  refine ⟨fun hearly => if_pos hearly, fun hlate => ?_⟩
  refine ⟨_, if_neg (Nat.not_le.mpr hlate), ?_⟩
  dsimp only
  obtain ⟨n, ms, hv⟩ := State.beginsMoves_evaluatePages { s with hot := s.hot.filter (fun h => h.home != d.val || s.stillHot h) }
    ((s.hot.filter (fun h => h.home != d.val || s.stillHot h)).filter (fun h => h.home == d.val))
  rw [hv]
  refine ⟨rfl, ?_, rfl, ⟨ms, rfl⟩⟩
  exact congrArg (fun f => List.map f _) (funext (fun h => by simp [halveCounts]))

/-! ### Engines (R267) -/

theorem modifyFirst_append {α : Type} {p : α → Bool} (f : α → α) {before after : List α} {x : α} (hb : ∀ y ∈ before, p y = false) (hx : p x = true) :
    modifyFirst (before ++ x :: after) p f = before ++ f x :: after := by
  induction before with
  | nil => rw [List.nil_append, modifyFirst, if_pos hx, List.nil_append]
  | cons y ys ih =>
    rw [List.cons_append, modifyFirst, hb y List.mem_cons_self, if_neg Bool.false_ne_true, ih (fun z hz => hb z (List.mem_cons_of_mem y hz)), List.cons_append]

section Engines
variable {s : State} {e : EngineName}

/-- The oldest queued job whose load runs starts, on an engine that has none started. -/
theorem engineJobStart_starts {before after : List Job} {j : Job} (hjobs : s.jobs = before ++ j :: after) (hj : j.engine = e)
    (hidle : ∀ y ∈ s.jobs, y.engine = e → y.started = false) (hruns : s.jobRuns j = true) (holder : ∀ y ∈ before, y.engine = e → s.jobRuns y = false) :
    exec (.engineJobStart e) s = .next { s with jobs := before ++ { j with started := true } :: after } := by
  have hany : s.jobs.any (fun y => decide (y.engine = e) && y.started) = false := by
    rw [List.any_eq_false]
    intro y hy hboth
    obtain ⟨hye, hst⟩ := Bool.and_eq_true_iff.mp hboth
    rw [hidle y hy (of_decide_eq_true hye)] at hst
    exact Bool.false_ne_true hst
  have hbefore : ∀ y ∈ before, (decide (y.engine = e) && s.jobRuns y) = false := by
    intro y hy
    by_cases hye : y.engine = e
    · rw [holder y hy hye, Bool.and_false]
    · simp [hye]
  have hfind : s.jobs.find? (fun y => decide (y.engine = e) && s.jobRuns y) = some j := by
    rw [hjobs, List.find?_append, List.find?_eq_none.mpr (fun y hy => by simp [hbefore y hy]), Option.none_or]
    exact List.find?_cons_of_pos (by simp [hj, hruns])
  have hsame : ∀ y ∈ before, (y == j) = false := by
    intro y hy
    rw [beq_eq_false_iff_ne]
    rintro rfl
    rw [holder y hy hj] at hruns
    exact Bool.false_ne_true hruns
  show execEngineJobStart e s = _
  unfold execEngineJobStart
  rw [hany, if_neg Bool.false_ne_true, hfind]
  dsimp only
  rw [State.modJob, hjobs, modifyFirst_append _ hsame (beq_self_eq_true j)]

theorem engineJobStart_busy (h : ∃ y ∈ s.jobs, y.engine = e ∧ y.started = true) : exec (.engineJobStart e) s = .next s := by
  obtain ⟨y, hy, hye, hst⟩ := h
  exact if_pos (List.any_eq_true.mpr ⟨y, hy, by simp [hye, hst]⟩)

theorem engineJobComplete_idle (h : ∀ y ∈ s.jobs, y.engine = e → y.started = false) : exec (.engineJobComplete e) s = .next s := by
  have hnone : s.jobs.find? (fun j => decide (j.engine = e) && j.started && s.jobRuns j) = none := by
    refine List.find?_eq_none.mpr (fun y hy hall => ?_)
    simp only [Bool.and_eq_true, decide_eq_true_eq] at hall
    obtain ⟨⟨hye, hst⟩, -⟩ := hall
    rw [h y hy hye] at hst
    exact Bool.false_ne_true hst
  show execEngineJobComplete e s = _
  unfold execEngineJobComplete
  rw [hnone]

end Engines

/-! ### Collapses (R139) -/

theorem pageMove_collapse {s : State} {n : BitVec 16} {m : Move} (hm : s.moves[n.toNat]? = some m) (hkind : m.kind = .collapse) :
    ∃ v, exec (.pageMove n) s = .next v ∧ v.moves = s.moves.erase m ∧ v.mem = s.mem ∧ v.tags = s.tags
      ∧ ∀ h ∈ v.hot, h.part = m.part ∧ h.ctx = m.ctx ∧ h.va = m.va → h.replicas = [] := by
  have hexec : exec (.pageMove n) s = .next ((({ s with moves := s.moves.erase m } : State).shootMoved m).modHot m (fun h => { h with replicas := [] })) := by
    show execPageMove n s = _
    unfold execPageMove
    rw [hm]
    dsimp only
    rw [hkind]
  obtain ⟨ts, hdrop⟩ := State.dropPage_eq { s with moves := s.moves.erase m } (partOf m.part) ⟨0#32, 0, m.size, m.ctx, m.va, s.ns⟩
  rw [State.shootMoved, hdrop] at hexec
  refine ⟨_, hexec, rfl, rfl, rfl, fun h hh hsame => ?_⟩
  obtain ⟨h0, -, hh0⟩ := List.mem_map.mp hh
  obtain ⟨hp, hc, hv⟩ := hsame
  split at hh0
  · rw [← hh0]
  next hother =>
    rw [hh0] at hother
    exact absurd (by simp [hp, hc, hv]) hother

end Sys2Proof.Machine
end

section
/-! SUPPORT. A copy within scratch windows (R427, R430): its reads, its writes and its completion record. -/

namespace Sys2Proof.Machine

/-! ### Bytes and card fields -/

theorem leNat_leBytes (n v : Nat) : leNat (leBytes n v) = v % 256 ^ n := by
  induction n generalizing v with
  | zero => simp [leBytes, leNat, Nat.mod_one]
  | succ n ih =>
    rw [leBytes, leNat, ih, BitVec.toNat_ofNat, Nat.pow_succ' (m := 256)]
    exact Nat.mod_mul.symm

theorem cardNat_lt (card : List Byte) (lo n : Nat) : cardNat card lo n < 256 ^ n := by
  refine (leNat_lt _).trans_le (Nat.pow_le_pow_right (by decide) ?_)
  rw [List.length_take]
  exact min_le_left _ _

/-- Bit 63 of a card's address names a scratch-window address, the rest of it the place. -/
theorem bitOf_scratch {x : Nat} (h : x < 2 ^ 63) : bitOf (2 ^ 63 + x) 63 = true := by
  simp only [bitOf, beq_iff_eq]
  omega

theorem scratch_mod {x : Nat} (h : x < 2 ^ 63) : (2 ^ 63 + x) % 2 ^ 63 = x := by omega

/-! ### Scratchpads written byte by byte -/

/-- Bytes written to a scratchpad one after the other. -/
def State.padWriteEach (s : State) (m a : Nat) : List Byte → State
  | [] => s
  | b :: bs => State.padWriteEach (s.padWrite m a [b]) m (a + 1) bs

section Pads
variable (s : State) (m a : Nat)

theorem State.padWrite_windows (b : Byte) (k : Nat) : ((s.padWrite m a [b]).mtile k).windows = (s.mtile k).windows := by
  by_cases h : (tileOf m : Nat) = tileOf k
  · simp only [State.padWrite, State.modMTile, State.mtile]
    simp [h]
  · simp only [State.padWrite, State.modMTile, State.mtile]
    simp [h]

theorem State.padWrite_scratchPlace (b : Byte) (t : Nat) (addr : DWord) (n : Nat) : (s.padWrite m a [b]).scratchPlace t addr n = s.scratchPlace t addr n := by
  have hwindow (g : Word) (k : Nat) : (s.padWrite m a [b]).window g k = s.window g k := by
    rw [State.window, State.window, State.padWrite_windows]
  simp only [State.scratchPlace, hwindow]
  rfl

theorem State.padWriteEach_eq (bs : List Byte) : ∃ ms, s.padWriteEach m a bs = { s with mtiles := ms } := by
  induction bs generalizing s a with
  | nil => exact ⟨_, rfl⟩
  | cons b bs ih =>
    obtain ⟨ms, hms⟩ := ih (s.padWrite m a [b]) (a + 1)
    exact ⟨ms, hms⟩

theorem State.padWriteEach_scratchPlace (bs : List Byte) (t : Nat) (addr : DWord) (n : Nat) :
    (s.padWriteEach m a bs).scratchPlace t addr n = s.scratchPlace t addr n := by
  induction bs generalizing s a with
  | nil => rfl
  | cons b bs ih => exact (ih (s.padWrite m a [b]) (a + 1)).trans (s.padWrite_scratchPlace m a b t addr n)

theorem State.padWriteEach_bytes_self (bs : List Byte) : ((s.padWriteEach m a bs).mtile m).bytes = (s.mtile m).bytes.writeN a bs := by
  induction bs generalizing s a with
  | nil => rfl
  | cons b bs ih =>
    refine (ih (s.padWrite m a [b]) (a + 1)).trans ?_
    rw [State.padWrite, State.modMTile_mtile_self]
    rfl

variable {m}

theorem State.padWriteEach_bytes_ne {k : Nat} (h : tileOf m ≠ tileOf k) (bs : List Byte) : ((s.padWriteEach m a bs).mtile k).bytes = (s.mtile k).bytes := by
  have h' : (tileOf m : Nat) ≠ tileOf k := fun e => h (Fin.ext e)
  induction bs generalizing s a with
  | nil => rfl
  | cons b bs ih =>
    refine (ih (s.padWrite m a [b]) (a + 1)).trans ?_
    simp only [State.padWrite, State.modMTile, State.mtile]
    simp [h']

end Pads

theorem tileOf_inj {m k : Nat} (hm : m < 192) (hk : k < 192) : tileOf m = tileOf k ↔ m = k := by
  simp [tileOf, Fin.ext_iff, Fin.ofNat, Nat.mod_eq_of_lt hm, Nat.mod_eq_of_lt hk]

section PadReads
variable {s : State} {m k a x : Nat} {bs : List Byte} (hwf : ∀ m, (s.mtile m).bytes.wf = true)
include hwf

theorem State.padWriteEach_wf (m a : Nat) (bs : List Byte) : ∀ k, ((s.padWriteEach m a bs).mtile k).bytes.wf = true := by
  intro k
  by_cases h : tileOf m = tileOf k
  · have hk : (s.padWriteEach m a bs).mtile k = (s.padWriteEach m a bs).mtile m := by simp [State.mtile, h]
    rw [hk, State.padWriteEach_bytes_self]
    exact Memory.wf_writeN a bs (hwf m)
  · rw [State.padWriteEach_bytes_ne s a h]
    exact hwf k

/-- What the writes leave of another place. -/
theorem State.padWriteEach_read_outside (hm : m < 192) (hk : k < 192) (h : k ≠ m ∨ x < a ∨ a + bs.length ≤ x) :
    ((s.padWriteEach m a bs).mtile k).bytes.read x = (s.mtile k).bytes.read x := by
  by_cases hkm : k = m
  · subst hkm
    rw [State.padWriteEach_bytes_self]
    exact Memory.read_writeN_outside (hwf k) a x bs (h.resolve_left (fun hne => hne rfl))
  · rw [State.padWriteEach_bytes_ne s a (fun e => hkm ((tileOf_inj hm hk).mp e).symm)]

/-- What the writes leave in their own place. -/
theorem State.padWriteEach_read_inside {i : Nat} (hi : i < bs.length) : ((s.padWriteEach m a bs).mtile m).bytes.read (a + i) = bs[i] := by
  rw [State.padWriteEach_bytes_self]
  exact Memory.read_writeN_inside (hwf m) a i bs hi

end PadReads

/-! ### A job's reads and writes (R426) -/

section Bytes
variable {s : State} {j : Job}

theorem State.jobByte_scratch {x m a : Nat} (hx : x < 2 ^ 63) (hplace : s.scratchPlace j.tile (BitVec.ofNat 64 x) 1 = some (m, a))
    (hgood : s.padBad m a 1 = false) : s.jobByte j (2 ^ 63 + x) = (.ok, (s.mtile m).bytes.read a, s) := by
  unfold State.jobByte
  rw [bitOf_scratch hx, if_pos rfl, scratch_mod hx, hplace]
  dsimp only
  rw [hgood]
  rfl

theorem State.jobRead_scratch {src m a n : Nat} (hsrc : src + n ≤ 2 ^ 63)
    (h : ∀ i, i < n → s.scratchPlace j.tile (BitVec.ofNat 64 (src + i)) 1 = some (m, a + i) ∧ s.padBad m (a + i) 1 = false) :
    s.jobRead j (2 ^ 63 + src) n = (.ok, (s.mtile m).bytes.readN a n, s) := by
  induction n generalizing src a with
  | zero => rfl
  | succ n ih =>
    have hplace : s.scratchPlace j.tile (BitVec.ofNat 64 src) 1 = some (m, a) := (h 0 (Nat.succ_pos n)).1
    have hgood : s.padBad m a 1 = false := (h 0 (Nat.succ_pos n)).2
    have hrest := ih (src := src + 1) (a := a + 1) (by omega) (fun i hi => by
      have hi1 := h (i + 1) (by omega)
      rwa [← Nat.add_assoc, Nat.add_right_comm, ← Nat.add_assoc, Nat.add_right_comm a] at hi1)
    unfold State.jobRead
    rw [State.jobByte_scratch (by omega) hplace hgood]
    dsimp only
    rw [Nat.add_assoc, hrest]
    rfl

theorem State.jobPut_scratch {x m a : Nat} (hx : x < 2 ^ 63) (hplace : s.scratchPlace j.tile (BitVec.ofNat 64 x) 1 = some (m, a)) (b : Byte) :
    s.jobPut j (2 ^ 63 + x) b = (.ok, s.padWrite m a [b]) := by
  unfold State.jobPut
  rw [bitOf_scratch hx, if_pos rfl, scratch_mod hx, hplace]

theorem State.jobWrite_scratch {dst m a k : Nat} {bs : List Byte} (hdst : dst + k + bs.length ≤ 2 ^ 63)
    (h : ∀ i, i < bs.length → s.scratchPlace j.tile (BitVec.ofNat 64 (dst + (k + i))) 1 = some (m, a + i)) :
    s.jobWrite j (2 ^ 63 + dst) k bs = (.ok, k + bs.length, s.padWriteEach m a bs) := by
  induction bs generalizing s a k with
  | nil => rfl
  | cons b bs ih =>
    rw [List.length_cons] at hdst
    have hplace : s.scratchPlace j.tile (BitVec.ofNat 64 (dst + k)) 1 = some (m, a) := h 0 (Nat.succ_pos _)
    have hrest := ih (s := s.padWrite m a [b]) (a := a + 1) (k := k + 1) (by omega) (fun i hi => by
      have hi1 := h (i + 1) (by simpa using hi)
      rw [State.padWrite_scratchPlace, show k + 1 + i = k + (i + 1) by omega, show a + 1 + i = a + (i + 1) by omega]
      exact hi1)
    unfold State.jobWrite
    rw [Nat.add_assoc, State.jobPut_scratch (by omega) hplace]
    dsimp only
    rw [hrest, List.length_cons, show k + 1 + bs.length = k + (bs.length + 1) by omega]
    rfl

/-- The writes of a copy whose ranges are apart: each byte goes where its index says. -/
theorem State.jobCopy_scratch {src dst m a n k i : Nat} {bs : List Byte} (hi : i + bs.length ≤ n) (hdst : dst + n ≤ 2 ^ 63)
    (hapart : src + n ≤ dst ∨ dst + n ≤ src)
    (h : ∀ x, x < n → s.scratchPlace j.tile (BitVec.ofNat 64 (dst + x)) 1 = some (m, a + x)) :
    s.jobCopy j (2 ^ 63 + src) (2 ^ 63 + dst) n false k ((List.range' i bs.length).zip bs) =
      (.ok, k + bs.length, s.padWriteEach m (a + i) bs) := by
  induction bs generalizing s i k with
  | nil => rfl
  | cons b bs ih =>
    rw [List.length_cons] at hi
    have hplain : (copyOverwritten (2 ^ 63 + src) (2 ^ 63 + dst) i false && decide (2 ^ 63 + src + i < 2 ^ 63 + dst + n)
        && decide (2 ^ 63 + dst ≤ 2 ^ 63 + src + i)) = false := by
      simp only [copyOverwritten, Bool.and_eq_false_iff, decide_eq_false_iff_not]
      simp
      omega
    have hrest := ih (s := s.padWrite m (a + i) [b]) (i := i + 1) (k := k + 1) (by omega) (fun x hx => by
      rw [State.padWrite_scratchPlace]
      exact h x hx)
    rw [List.length_cons, List.range'_succ, List.zip_cons_cons]
    unfold State.jobCopy
    rw [hplain, if_neg Bool.false_ne_true]
    dsimp only
    rw [Nat.add_assoc, State.jobPut_scratch (by omega) (h i (by omega))]
    dsimp only
    rw [hrest, show k + 1 + bs.length = k + (bs.length + 1) by omega]
    rfl

end Bytes

/-! ### A copy and its completion record (R427, R430) -/

/-- The bytes of a completion record from its fifth on: the status and the count. -/
def recordBody (status count : Nat) : List Byte := leBytes 4 status ++ leBytes 8 count

theorem recordBody_length (status count : Nat) : (recordBody status count).length = 12 := by
  rw [recordBody, List.length_append, leBytes_length, leBytes_length]

section Copy
variable {s : State} {j : Job} {src dst done n m1 m2 m3 a b d : Nat}

theorem State.runCopy_scratch (hsrc : src + n ≤ 2 ^ 63) (hdst : dst + n ≤ 2 ^ 63) (hfrom : cardNat j.card 16 8 = 2 ^ 63 + src)
    (hto : cardNat j.card 24 8 = 2 ^ 63 + dst) (hcount : cardNat j.card 32 4 = n)
    (hplaces : ∀ i, i < n → s.scratchPlace j.tile (BitVec.ofNat 64 (src + i)) 1 = some (m1, a + i) ∧ s.padBad m1 (a + i) 1 = false
      ∧ s.scratchPlace j.tile (BitVec.ofNat 64 (dst + i)) 1 = some (m2, b + i)) (hapart : src + n ≤ dst ∨ dst + n ≤ src) :
    s.runCopy j = (.done 0 n false, s.padWriteEach m2 b ((s.mtile m1).bytes.readN a n)) := by
  have hread : s.jobRead j (2 ^ 63 + src) n = (.ok, (s.mtile m1).bytes.readN a n, s) :=
    State.jobRead_scratch hsrc (fun i hi => ⟨(hplaces i hi).1, (hplaces i hi).2.1⟩)
  have hcopy := State.jobCopy_scratch (s := s) (j := j) (src := src) (dst := dst) (m := m2) (a := b) (n := n) (k := 0) (i := 0)
    (bs := (s.mtile m1).bytes.readN a n) (by rw [Memory.readN_length]; omega) hdst hapart (fun x hx => (hplaces x hx).2.2)
  have hmeets : ¬ (2 ^ 63 + dst < 2 ^ 63 + src ∧ 2 ^ 63 + src < 2 ^ 63 + dst + n) := by omega
  rw [Memory.readN_length, ← List.range_eq_range', Nat.zero_add, Nat.add_zero] at hcopy
  unfold State.runCopy
  rw [hfrom, hto, hcount]
  dsimp only
  rw [hread]
  dsimp only
  rw [Memory.readN_length, decide_eq_false hmeets]
  simp only [Bool.false_eq_true, if_false, hcopy, jobEndOf]

theorem State.jobRecord_scratch (hdone : done + 16 ≤ 2 ^ 63) (hcard : cardNat j.card 8 8 = 2 ^ 63 + done)
    (hplaces : ∀ i, i < 16 → s.scratchPlace j.tile (BitVec.ofNat 64 (done + i)) 1 = some (m3, d + i)) (count : Nat) :
    s.jobRecord j 0 count false =
      (.ok, (s.padWriteEach m3 (d + 4) (recordBody 0 count)).padWriteEach m3 d (leBytes 4 (cardNat j.card 4 4))) := by
  have hbody := State.jobWrite_scratch (s := s) (j := j) (dst := done + 4) (m := m3) (a := d + 4) (k := 0) (bs := recordBody 0 count)
    (by rw [recordBody_length]; omega) (fun i hi => by
      rw [recordBody_length] at hi
      rw [show done + 4 + (0 + i) = done + (4 + i) by omega, show d + 4 + i = d + (4 + i) by omega]
      exact hplaces (4 + i) (by omega))
  have hvalue := State.jobWrite_scratch (s := s.padWriteEach m3 (d + 4) (recordBody 0 count)) (j := j) (dst := done) (m := m3) (a := d) (k := 0)
    (bs := leBytes 4 (cardNat j.card 4 4)) (by rw [leBytes_length]; omega) (fun i hi => by
      rw [leBytes_length] at hi
      rw [State.padWriteEach_scratchPlace, Nat.zero_add]
      exact hplaces i (by omega))
  unfold State.jobRecord
  rw [hcard]
  dsimp only
  rw [show leBytes 4 (0 + if false = true then 256 else 0) ++ leBytes 8 count = recordBody 0 count from rfl, Nat.add_assoc, hbody]
  dsimp only
  rw [hvalue]

theorem State.jobRanges_scratch {c : Fin 192} (he : j.engine = .copy c) (hsrc : src < 2 ^ 63) (hdst : dst < 2 ^ 63) (hdone : done < 2 ^ 63)
    (hfrom : cardNat j.card 16 8 = 2 ^ 63 + src) (hto : cardNat j.card 24 8 = 2 ^ 63 + dst) (hcard : cardNat j.card 8 8 = 2 ^ 63 + done) :
    s.jobRanges j = ([], []) := by
  have hfrom' : bitOf (cardNat j.card 16 8) 63 = true := hfrom ▸ bitOf_scratch hsrc
  have hto' : bitOf (cardNat j.card 24 8) 63 = true := hto ▸ bitOf_scratch hdst
  have hcard' : bitOf (cardNat j.card 8 8) 63 = true := hcard ▸ bitOf_scratch hdone
  unfold State.jobRanges
  rw [he]
  simp [hfrom', hto', hcard']

/-- The state in which a copy within scratch windows has moved its bytes and left its record. -/
def State.copied (s : State) (j : Job) (n m1 m2 m3 a b d : Nat) : State :=
  ((s.padWriteEach m2 b ((s.mtile m1).bytes.readN a n)).padWriteEach m3 (d + 4) (recordBody 0 n)).padWriteEach m3 d (leBytes 4 (cardNat j.card 4 4))

theorem engineJobComplete_copies {e : EngineName} {c : Fin 192}
    (hfind : s.jobs.find? (fun y => decide (y.engine = e) && y.started && s.jobRuns y) = some j) (hheld : j.withheld = none) (he : e = .copy c)
    (hsrc : src + n ≤ 2 ^ 63) (hdst : dst + n ≤ 2 ^ 63) (hdone : done + 16 ≤ 2 ^ 63) (hfrom : cardNat j.card 16 8 = 2 ^ 63 + src)
    (hto : cardNat j.card 24 8 = 2 ^ 63 + dst) (hcard : cardNat j.card 8 8 = 2 ^ 63 + done) (hcount : cardNat j.card 32 4 = n)
    (hplaces : ∀ i, i < n → s.scratchPlace j.tile (BitVec.ofNat 64 (src + i)) 1 = some (m1, a + i) ∧ s.padBad m1 (a + i) 1 = false
      ∧ s.scratchPlace j.tile (BitVec.ofNat 64 (dst + i)) 1 = some (m2, b + i))
    (hrecord : ∀ i, i < 16 → s.scratchPlace j.tile (BitVec.ofNat 64 (done + i)) 1 = some (m3, d + i)) (hapart : src + n ≤ dst ∨ dst + n ≤ src) :
    exec (.engineJobComplete e) s = .next { s.copied j n m1 m2 m3 a b d with jobs := (s.copied j n m1 m2 m3 a b d).jobs.erase j } := by
  have hj : j.engine = .copy c := by
    have hkind := List.find?_some hfind
    simp only [Bool.and_eq_true, decide_eq_true_eq] at hkind
    exact hkind.1.1.trans he
  have hbound {lo x : Nat} (h : cardNat j.card lo 8 = 2 ^ 63 + x) : x < 2 ^ 63 := by
    have hlt := cardNat_lt j.card lo 8
    omega
  have hranges : s.jobRanges j = ([], []) := State.jobRanges_scratch hj (hbound hfrom) (hbound hto) (hbound hcard) hfrom hto hcard
  have hfree : s.jobHeld j = none := by
    unfold State.jobHeld
    rw [hranges]
    rfl
  have hrun : s.runJob j = (.done 0 n false, s.padWriteEach m2 b ((s.mtile m1).bytes.readN a n)) := by
    unfold State.runJob
    rw [hj]
    exact State.runCopy_scratch hsrc hdst hfrom hto hcount hplaces hapart
  have hrec := State.jobRecord_scratch (s := s.padWriteEach m2 b ((s.mtile m1).bytes.readN a n)) (j := j) hdone hcard
    (fun i hi => (State.padWriteEach_scratchPlace s m2 b _ _ _ _).trans (hrecord i hi)) n
  show execEngineJobComplete e s = _
  unfold execEngineJobComplete
  rw [hfind]
  dsimp only
  rw [hheld, hfree]
  dsimp only
  rw [if_neg Bool.false_ne_true, if_neg (by simp), hrun]
  dsimp only
  rw [hrec, hranges]
  rfl

end Copy

/-! ### What the copy leaves in the scratchpads -/

theorem Memory.readN_eq_of_read {m : Memory} {x : Nat} {l : List Byte} (h : ∀ i (hi : i < l.length), m.read (x + i) = l[i]) : m.readN x l.length = l := by
  refine List.ext_getElem (by rw [Memory.readN_length]) (fun i hi hi' => ?_)
  rw [Memory.readN_getElem, h i hi']

section Copied
variable {s : State} {j : Job} {n m1 m2 m3 a b d : Nat}

theorem State.copied_eq (s : State) (j : Job) (n m1 m2 m3 a b d : Nat) : ∃ ms, s.copied j n m1 m2 m3 a b d = { s with mtiles := ms } := by
  obtain ⟨ms1, h1⟩ := s.padWriteEach_eq m2 b ((s.mtile m1).bytes.readN a n)
  obtain ⟨ms2, h2⟩ := State.padWriteEach_eq { s with mtiles := ms1 } m3 (d + 4) (recordBody 0 n)
  obtain ⟨ms3, h3⟩ := State.padWriteEach_eq { s with mtiles := ms2 } m3 d (leBytes 4 (cardNat j.card 4 4))
  refine ⟨ms3, ?_⟩
  rw [State.copied, h1, h2]
  exact h3

variable (hwf : ∀ m, (s.mtile m).bytes.wf = true) (h2 : m2 < 192) (h3 : m3 < 192)
include hwf h2 h3

theorem State.copied_moved (hapart : m2 ≠ m3 ∨ b + n ≤ d ∨ d + 16 ≤ b) {i : Nat} (hi : i < n) :
    ((s.copied j n m1 m2 m3 a b d).mtile m2).bytes.read (b + i) = (s.mtile m1).bytes.read (a + i) := by
  have hwf1 := State.padWriteEach_wf hwf m2 b ((s.mtile m1).bytes.readN a n)
  have hwf2 := State.padWriteEach_wf hwf1 m3 (d + 4) (recordBody 0 n)
  have hout {lo len : Nat} (hlo : d ≤ lo) (hlen : lo + len ≤ d + 16) : m2 ≠ m3 ∨ b + i < lo ∨ lo + len ≤ b + i := by
    rcases hapart with h | h | h
    · exact .inl h
    · exact .inr (.inl (by omega))
    · exact .inr (.inr (by omega))
  rw [State.copied, State.padWriteEach_read_outside hwf2 h3 h2 (hout le_rfl (by rw [leBytes_length]; omega)),
    State.padWriteEach_read_outside hwf1 h3 h2 (hout (by omega) (by rw [recordBody_length])),
    State.padWriteEach_read_inside hwf (by rw [Memory.readN_length]; exact hi), Memory.readN_getElem]

omit h2 h3 in
theorem State.copied_value : leNat (((s.copied j n m1 m2 m3 a b d).mtile m3).bytes.readN d 4) = cardNat j.card 4 4 := by
  have hwf1 := State.padWriteEach_wf hwf m2 b ((s.mtile m1).bytes.readN a n)
  have hwf2 := State.padWriteEach_wf hwf1 m3 (d + 4) (recordBody 0 n)
  have hread : ((s.copied j n m1 m2 m3 a b d).mtile m3).bytes.readN d 4 = leBytes 4 (cardNat j.card 4 4) :=
    Memory.readN_eq_of_read (fun i hi => State.padWriteEach_read_inside hwf2 hi)
  rw [hread, leNat_leBytes, Nat.mod_eq_of_lt (cardNat_lt _ _ _)]

omit h2 in
theorem State.copied_body {i : Nat} (hi : i < (recordBody 0 n).length) :
    ((s.copied j n m1 m2 m3 a b d).mtile m3).bytes.read (d + 4 + i) = (recordBody 0 n)[i] := by
  have hwf1 := State.padWriteEach_wf hwf m2 b ((s.mtile m1).bytes.readN a n)
  have hwf2 := State.padWriteEach_wf hwf1 m3 (d + 4) (recordBody 0 n)
  rw [State.copied, State.padWriteEach_read_outside hwf2 h3 h3 (.inr (.inr (by rw [leBytes_length]; omega)))]
  exact State.padWriteEach_read_inside hwf1 hi

omit h2 in
theorem State.copied_status : leNat (((s.copied j n m1 m2 m3 a b d).mtile m3).bytes.readN (d + 4) 4) = 0 := by
  have hread : ((s.copied j n m1 m2 m3 a b d).mtile m3).bytes.readN (d + 4) 4 = leBytes 4 0 :=
    Memory.readN_eq_of_read (fun i hi => (State.copied_body hwf h3 (by rw [recordBody_length]; exact hi.trans (by decide))).trans
      (List.getElem_append_left hi))
  rw [hread, leNat_leBytes, Nat.zero_mod]

omit h2 in
theorem State.copied_count (hn : n < 2 ^ 64) : leNat (((s.copied j n m1 m2 m3 a b d).mtile m3).bytes.readN (d + 8) 8) = n := by
  have hread : ((s.copied j n m1 m2 m3 a b d).mtile m3).bytes.readN (d + 8) 8 = leBytes 8 n :=
    Memory.readN_eq_of_read (l := leBytes 8 n) (fun i hi => by
      have hlt : 4 + i < (recordBody 0 n).length := by
        rw [recordBody_length]
        rw [leBytes_length] at hi
        omega
      have hbody := State.copied_body (j := j) (m1 := m1) (m2 := m2) (a := a) (b := b) (d := d) hwf h3 hlt
      rw [show d + 4 + (4 + i) = d + 8 + i by omega] at hbody
      rw [hbody]
      simp [recordBody, List.getElem_append_right])
  rw [hread, leNat_leBytes, Nat.mod_eq_of_lt (hn.trans_le (by decide))]

end Copied

end Sys2Proof.Machine
end

section
/-! SUPPORT. Pages copied by their blocks, and physical bytes written and read back (R406, R410 to R412, R414). -/

namespace Sys2Proof.Machine

/-! ### Cells filtered and moved -/

theorem Memory.keys_of_wfFrom {m : Memory} {lo : Nat} (w : m.wfFrom lo = true) : ∀ c ∈ m, lo ≤ c.1 := by
  induction m generalizing lo with
  | nil => exact fun c hc => nomatch hc
  | cons c rest ih =>
    obtain ⟨j, b⟩ := c
    simp only [Memory.wfFrom, Bool.and_eq_true, decide_eq_true_eq] at w
    intro x hx
    rcases List.mem_cons.mp hx with rfl | hx
    · exact w.1.1
    · have := ih w.2 x hx
      omega

theorem Memory.read_filter {m : Memory} {lo : Nat} (w : m.wfFrom lo = true) (q : Nat → Bool) (a : Nat) :
    Memory.read (m.filter (fun c => q c.1)) a = if q a then m.read a else unlisted := by
  induction m generalizing lo with
  | nil => simp [Memory.read]
  | cons c rest ih =>
    obtain ⟨j, b⟩ := c
    have w' := w
    simp only [Memory.wfFrom, Bool.and_eq_true, decide_eq_true_eq] at w'
    have hrest := ih w'.2
    have habove (h : a ≤ j) : Memory.read (rest.filter (fun c => q c.1)) a = unlisted :=
      Memory.read_of_wfFrom (Memory.wfFrom_filter _ w'.2) (Nat.lt_succ_of_le h)
    rw [List.filter_cons]
    rcases Nat.lt_trichotomy a j with h | h | h
    · have hne : j ≠ a := Nat.ne_of_gt h
      by_cases hq : q j = true <;> simp [hq, Memory.read, hne, h, habove h.le]
    · subst h
      by_cases hq : q a = true <;> simp [hq, Memory.read, habove le_rfl]
    · have hne : j ≠ a := Nat.ne_of_lt h
      have hnlt : ¬ a < j := Nat.not_lt.mpr h.le
      by_cases hq : q j = true <;> simp [hq, Memory.read, hne, hnlt, hrest]

/-- Cells written elsewhere, each with its key moved. -/
def moveCells (source dest : Nat) (cells old : Memory) : Memory :=
  cells.foldl (fun (m : Memory) c => m.write (c.1 - source + dest) c.2) old

theorem moveCells_wf (source dest : Nat) (cells : Memory) {old : Memory} (w : old.wf = true) : (moveCells source dest cells old).wf = true :=
  Memory.wf_foldl (fun _ c hm => Memory.wf_write _ c.2 hm) cells w

theorem read_moveCells_outside {source dest y : Nat} {cells old : Memory} (w : old.wf = true) (h : ∀ c ∈ cells, c.1 - source + dest ≠ y) :
    (moveCells source dest cells old).read y = old.read y := by
  induction cells generalizing old with
  | nil => rfl
  | cons c rest ih =>
    refine (ih (Memory.wf_write _ c.2 w) (fun x hx => h x (List.mem_cons_of_mem c hx))).trans ?_
    exact Memory.read_write_ne w c.2 (h c List.mem_cons_self).symm

theorem read_moveCells_inside {source dest lo x : Nat} {cells old : Memory} (w : old.wf = true) (hc : Memory.wfFrom lo cells = true) (hlo : ∀ c ∈ cells, source ≤ c.1)
    (hx : source ≤ x) (hfree : old.read (x - source + dest) = unlisted) :
    (moveCells source dest cells old).read (x - source + dest) = Memory.read cells x := by
  induction cells generalizing old lo with
  | nil => exact hfree
  | cons c rest ih =>
    obtain ⟨j, b⟩ := c
    have hc' := hc
    simp only [Memory.wfFrom, Bool.and_eq_true, decide_eq_true_eq] at hc'
    obtain ⟨⟨hj, -⟩, hrest⟩ := hc'
    have hkeys := Memory.keys_of_wfFrom hrest
    have hsource : source ≤ j := hlo (j, b) List.mem_cons_self
    have w' : (old.write (j - source + dest) b).wf = true := Memory.wf_write _ b w
    show (moveCells source dest rest (old.write (j - source + dest) b)).read _ = _
    have hpast (h : x ≤ j) : (moveCells source dest rest (old.write (j - source + dest) b)).read (x - source + dest) =
        (old.write (j - source + dest) b).read (x - source + dest) :=
      read_moveCells_outside w' (fun c hcm => by have := hkeys c hcm; omega)
    rcases Nat.lt_trichotomy x j with h | h | h
    · rw [hpast h.le, Memory.read_write_ne w b (by omega), hfree, Memory.read, if_neg (Nat.ne_of_gt h), if_pos h]
    · subst h
      rw [hpast le_rfl, Memory.read_write_self w, Memory.read, if_pos rfl]
    · rw [ih w' hrest (fun c hcm => hlo c (List.mem_cons_of_mem _ hcm)) (by rw [Memory.read_write_ne w b (by omega), hfree])]
      rw [Memory.read, if_neg (Nat.ne_of_lt h), if_neg (Nat.not_lt.mpr h.le)]

/-! ### Tags filtered and moved -/

section Tags
variable {α : Type} {d : α}

theorem Sparse.get_of_above {m : Sparse α} {k : Nat} (h : ∀ c ∈ m, k < c.1) : Sparse.get m k d = d := by
  cases m with
  | nil => rfl
  | cons c rest =>
    obtain ⟨j, v⟩ := c
    have hj : k < j := h (j, v) List.mem_cons_self
    rw [Sparse.get, if_neg (Nat.ne_of_gt hj), if_pos hj]

theorem Sparse.get_set_ne {j k : Nat} (h : j ≠ k) (v : α) : ∀ m : Sparse α, (Sparse.set m k v).get j d = m.get j d
  | [] => by simp [Sparse.set, Sparse.get, h.symm]
  | (i, w) :: rest => by
    have ih := Sparse.get_set_ne h v rest
    rcases Nat.lt_trichotomy k i with hk | hk | hk
    · by_cases hj : j < k
      · simp [Sparse.set, Sparse.get, hk, h.symm, hj, Nat.lt_trans hj hk, Nat.ne_of_gt (Nat.lt_trans hj hk)]
      · simp [Sparse.set, Sparse.get, hk, h.symm, hj]
    · subst hk
      simp [Sparse.set, Sparse.get, h.symm]
    · simp [Sparse.set, Sparse.get, Nat.not_lt.mpr hk.le, Nat.ne_of_gt hk, ih]

theorem Sparse.get_filter {m : Sparse α} (hm : m.Pairwise (fun x y => x.1 < y.1)) (q : Nat → Bool) (k : Nat) :
    Sparse.get (m.filter (fun c => q c.1)) k d = if q k then Sparse.get m k d else d := by
  induction m with
  | nil => simp [Sparse.get]
  | cons c rest ih =>
    obtain ⟨j, v⟩ := c
    obtain ⟨hj, hrest⟩ := List.pairwise_cons.mp hm
    have habove (h : k ≤ j) : Sparse.get (rest.filter (fun c => q c.1)) k d = d :=
      Sparse.get_of_above (fun c hc => Nat.lt_of_le_of_lt h (hj c (List.mem_of_mem_filter hc)))
    rw [List.filter_cons]
    rcases Nat.lt_trichotomy k j with h | h | h
    · by_cases hq : q j = true <;> simp [hq, Sparse.get, Nat.ne_of_gt h, h, habove h.le]
    · subst h
      by_cases hq : q k = true <;> simp [hq, Sparse.get, habove le_rfl]
    · by_cases hq : q j = true <;> simp [hq, Sparse.get, Nat.ne_of_lt h, Nat.not_lt.mpr h.le, ih hrest]

/-- Values set elsewhere, each with its key moved. -/
def moveTags (source dest : Nat) (l old : Sparse α) : Sparse α :=
  l.foldl (fun (m : Sparse α) t => m.set (t.1 - source + dest) t.2) old

theorem get_moveTags_outside {source dest y : Nat} {l old : Sparse α} (h : ∀ c ∈ l, c.1 - source + dest ≠ y) :
    Sparse.get (moveTags source dest l old) y d = Sparse.get old y d := by
  induction l generalizing old with
  | nil => rfl
  | cons c rest ih =>
    refine (ih (fun x hx => h x (List.mem_cons_of_mem c hx))).trans ?_
    exact Sparse.get_set_ne (h c List.mem_cons_self).symm c.2 old

theorem get_moveTags_inside {source dest x : Nat} {l old : Sparse α} (hl : l.Pairwise (fun x y => x.1 < y.1)) (hlo : ∀ c ∈ l, source ≤ c.1)
    (hx : source ≤ x) (hfree : Sparse.get old (x - source + dest) d = d) :
    Sparse.get (moveTags source dest l old) (x - source + dest) d = Sparse.get l x d := by
  induction l generalizing old with
  | nil => exact hfree
  | cons c rest ih =>
    obtain ⟨j, v⟩ := c
    obtain ⟨hj, hrest⟩ := List.pairwise_cons.mp hl
    have hsource : source ≤ j := hlo (j, v) List.mem_cons_self
    show Sparse.get (moveTags source dest rest (old.set (j - source + dest) v)) _ d = _
    have hpast (h : x ≤ j) : Sparse.get (moveTags source dest rest (old.set (j - source + dest) v)) (x - source + dest) d =
        Sparse.get (old.set (j - source + dest) v) (x - source + dest) d :=
      get_moveTags_outside (fun c hc => by have : j < c.1 := hj c hc; omega)
    rcases Nat.lt_trichotomy x j with h | h | h
    · rw [hpast h.le, Sparse.get_set_ne (by omega), hfree, Sparse.get, if_neg (Nat.ne_of_gt h), if_pos h]
    · subst h
      rw [hpast le_rfl, Sparse.get_set_self, Sparse.get, if_pos rfl]
    · rw [ih hrest (fun c hc => hlo c (List.mem_cons_of_mem _ hc)) (by rw [Sparse.get_set_ne (by omega), hfree])]
      rw [Sparse.get, if_neg (Nat.ne_of_lt h), if_neg (Nat.not_lt.mpr h.le)]

end Tags

end Sys2Proof.Machine
end

section
/-! SUPPORT. A page copied within device memory reads as its source, and nothing else changes (R410, R411, R414). -/

namespace Sys2Proof.Machine

/-! ### What a block depends on (R410, R411) -/

theorem tagBytes_le (t : BitVec 4) : tagBytes t ≤ 256 := by
  revert t
  decide

/-- A block is made of the sectors that its tag occupies alone. -/
theorem bdcLoad_congr {t : BitVec 4} {x y : List Byte} (hx : x.length = 256) (hy : y.length = 256) (h : x.take (tagBytes t) = y.take (tagBytes t)) :
    bdcLoad t x = bdcLoad t y := by
  unfold bdcLoad
  by_cases h8 : t = 0x8#4
  · have hxy : x = y := by
      subst h8
      rwa [show tagBytes 0x8#4 = 256 from rfl, List.take_of_length_le hx.le, List.take_of_length_le hy.le] at h
    rw [hxy]
  · by_cases hlow : 8 < t.toNat
    · simp [h8, hlow]
    · have hne : t.toNat ≠ 8 := fun ht => h8 (BitVec.eq_of_toNat_eq ht)
      rw [tagBytes, if_neg (by omega)] at h
      simp [h8, hlow, h]

/-- One block stands as another did: its tag, and the bytes that the tag occupies. -/
def State.SameBlock (s : State) (b : Nat) (v : State) (c : Nat) : Prop :=
  v.tag c = s.tag b ∧ ∀ i, i < tagBytes (s.tag b) → v.mem.read (256 * c + i) = s.mem.read (256 * b + i)

section
variable {s v : State} {b c i : Nat}

theorem State.SameBlock.block (h : s.SameBlock b v c) : v.block c = s.block b := by
  obtain ⟨htag, hread⟩ := h
  rw [State.block, State.block, htag]
  refine congrArg (fun o => Option.map wordsToBytes o) (bdcLoad_congr (Memory.readN_length _ _ _) (Memory.readN_length _ _ _) ?_)
  refine List.ext_getElem (by simp) (fun i h1 h2 => ?_)
  rw [List.length_take] at h1
  rw [List.getElem_take, List.getElem_take, Memory.readN_getElem, Memory.readN_getElem]
  exact hread i (by omega)

theorem State.SameBlock.physByte (h : s.SameBlock b v c) (hi : i < 256) (hsome : (s.block b).isSome = true) (hb : inHbm (256 * b + i) = true)
    (hc : inHbm (256 * c + i) = true) : v.physByte (256 * c + i) = s.physByte (256 * b + i) := by
  have hblock := h.block
  obtain ⟨htag, hread⟩ := h
  obtain ⟨bs, hbs⟩ := Option.isSome_iff_exists.mp hsome
  have hdiv (k : Nat) : (256 * k + i) / 256 = k := by omega
  have hmod (k : Nat) : (256 * k + i) % 256 = i := by omega
  unfold State.physByte
  rw [hb, hc, hdiv, hdiv, hmod, hmod, htag, hblock, hbs, Bool.true_and]
  by_cases h8 : s.tag b = 0x8#4
  · have hr := hread i (by rw [h8]; exact hi)
    simp [h8, hr]
  · simp [h8]

/-- Blocks that stand as they did, byte for byte, read alike, in device memory or out of it. -/
theorem State.physByte_congr {a : Nat} (htag : v.tag (a / 256) = s.tag (a / 256)) (hread : ∀ y, y / 256 = a / 256 → v.mem.read y = s.mem.read y) :
    v.physByte a = s.physByte a := by
  have hsame : s.SameBlock (a / 256) v (a / 256) :=
    ⟨htag, fun i hi => hread _ (by have := tagBytes_le (s.tag (a / 256)); omega)⟩
  unfold State.physByte
  rw [hsame.block, htag, hread a rfl]

end

/-! ### Pages copied (R414) -/

section
variable {s : State} {source dest n : Nat}

theorem State.copyBlocks_eq (s : State) (source dest n : Nat) : s.copyBlocks source dest n = { s with
    mem := moveCells source dest (s.mem.filter (fun c => source ≤ c.1 && c.1 < source + n && s.occupied source (c.1 - source)))
      (s.mem.filter (fun c => !(dest ≤ c.1 && c.1 < dest + n && s.occupied source (c.1 - dest))))
    tags := moveTags (source / 256) (dest / 256) (s.tags.filter (fun t => source / 256 ≤ t.1 && t.1 < (source + n) / 256))
      (s.tags.filter (fun t => !(dest / 256 ≤ t.1 && t.1 < (dest + n) / 256))) } := rfl

theorem State.copyBlocks_memory (s : State) (source dest n : Nat) : ∃ m t, s.copyBlocks source dest n = { s with mem := m, tags := t } := ⟨_, _, rfl⟩

theorem State.copyBlocks_wf (w : s.mem.wf = true) : (s.copyBlocks source dest n).mem.wf = true := by
  rw [s.copyBlocks_eq]
  exact moveCells_wf source dest _ (Memory.wf_filter _ w)

theorem State.copyBlocks_read_outside (w : s.mem.wf = true) {y : Nat} (h : y < dest ∨ dest + n ≤ y) :
    (s.copyBlocks source dest n).mem.read y = s.mem.read y := by
  rw [s.copyBlocks_eq]
  refine (read_moveCells_outside (Memory.wf_filter _ w) (fun c hc => ?_)).trans ?_
  · obtain ⟨-, hin⟩ := List.mem_filter.mp hc
    simp only [Bool.and_eq_true, decide_eq_true_eq] at hin
    omega
  · refine (Memory.read_filter w (fun x => !(dest ≤ x && x < dest + n && s.occupied source (x - dest))) y).trans (if_pos ?_)
    have hout : (decide (dest ≤ y) && decide (y < dest + n)) = false := by
      simp only [Bool.and_eq_false_iff, decide_eq_false_iff_not]
      omega
    simp [hout]

theorem State.copyBlocks_read_inside (w : s.mem.wf = true) {o : Nat} (ho : o < n) (hoccupied : s.occupied source o = true) :
    (s.copyBlocks source dest n).mem.read (dest + o) = s.mem.read (source + o) := by
  have hmoved : source + o - source + dest = dest + o := by omega
  have hin : (decide (source ≤ source + o) && decide (source + o < source + n) && s.occupied source (source + o - source)) = true := by
    simp [ho, hoccupied]
  have hdrop : (!(decide (dest ≤ dest + o) && decide (dest + o < dest + n) && s.occupied source (dest + o - dest))) = false := by
    simp [ho, hoccupied]
  rw [s.copyBlocks_eq]
  show (moveCells _ _ _ _).read _ = _
  rw [← hmoved]
  refine (read_moveCells_inside (Memory.wf_filter _ w) (Memory.wf_filter _ w) (fun c hc => ?_) (Nat.le_add_right _ _) ?_).trans ?_
  · obtain ⟨-, hc⟩ := List.mem_filter.mp hc
    simp only [Bool.and_eq_true, decide_eq_true_eq] at hc
    exact hc.1.1
  · rw [hmoved]
    exact (Memory.read_filter w (fun x => !(dest ≤ x && x < dest + n && s.occupied source (x - dest))) _).trans
      (if_neg (by rw [hdrop]; exact Bool.false_ne_true))
  · exact (Memory.read_filter w (fun x => source ≤ x && x < source + n && s.occupied source (x - source)) _).trans (if_pos hin)

theorem State.copyBlocks_tag_outside (sorted : s.tags.Pairwise (fun x y => x.1 < y.1)) {b : Nat} (hn : n % 256 = 0) (hsource : source % 256 = 0)
    (hdest : dest % 256 = 0) (h : b < dest / 256 ∨ (dest + n) / 256 ≤ b) : (s.copyBlocks source dest n).tag b = s.tag b := by
  rw [s.copyBlocks_eq]
  refine (get_moveTags_outside (fun c hc => ?_)).trans ?_
  · obtain ⟨-, hin⟩ := List.mem_filter.mp hc
    simp only [Bool.and_eq_true, decide_eq_true_eq] at hin
    omega
  · refine (Sparse.get_filter sorted (fun x => !(dest / 256 ≤ x && x < (dest + n) / 256)) b).trans (if_pos ?_)
    have hout : (decide (dest / 256 ≤ b) && decide (b < (dest + n) / 256)) = false := by
      simp only [Bool.and_eq_false_iff, decide_eq_false_iff_not]
      omega
    simp [hout]

theorem State.copyBlocks_tag_inside (sorted : s.tags.Pairwise (fun x y => x.1 < y.1)) {k : Nat} (hn : n % 256 = 0) (hsource : source % 256 = 0)
    (hdest : dest % 256 = 0) (hk : k < n / 256) : (s.copyBlocks source dest n).tag (dest / 256 + k) = s.tag (source / 256 + k) := by
  have hmoved : source / 256 + k - source / 256 + dest / 256 = dest / 256 + k := by omega
  have hin : (decide (source / 256 ≤ source / 256 + k) && decide (source / 256 + k < (source + n) / 256)) = true := by
    simp only [Bool.and_eq_true, decide_eq_true_eq]
    omega
  have hdrop : (!(decide (dest / 256 ≤ dest / 256 + k) && decide (dest / 256 + k < (dest + n) / 256))) = false := by
    simp only [Bool.not_eq_false', Bool.and_eq_true, decide_eq_true_eq]
    omega
  rw [s.copyBlocks_eq]
  show Sparse.get (moveTags _ _ _ _) _ _ = _
  rw [← hmoved]
  refine (get_moveTags_inside (sorted.filter _) (fun c hc => ?_) (Nat.le_add_right _ _) ?_).trans ?_
  · obtain ⟨-, hc⟩ := List.mem_filter.mp hc
    simp only [Bool.and_eq_true, decide_eq_true_eq] at hc
    exact hc.1
  · rw [hmoved]
    exact (Sparse.get_filter sorted (fun x => !(dest / 256 ≤ x && x < (dest + n) / 256)) _).trans
      (if_neg (by rw [hdrop]; exact Bool.false_ne_true))
  · exact (Sparse.get_filter sorted (fun x => source / 256 ≤ x && x < (source + n) / 256) _).trans (if_pos hin)

/-- What a copy takes for granted: memory in order, every block of it readable, and whole blocks at both places. -/
structure State.Copies (s : State) (source dest n : Nat) : Prop where
  wf : s.mem.wf = true
  decodable : s.Decodable
  size : n % 256 = 0
  source : source % 256 = 0
  dest : dest % 256 = 0

theorem State.Copies.sameBlock (h : s.Copies source dest n) {k : Nat} (hk : k < n / 256) :
    s.SameBlock (source / 256 + k) (s.copyBlocks source dest n) (dest / 256 + k) := by
  obtain ⟨w, ⟨-, sorted⟩, hn, hsource, hdest⟩ := h
  refine ⟨State.copyBlocks_tag_inside sorted hn hsource hdest hk, fun i hi => ?_⟩
  have hi256 := Nat.lt_of_lt_of_le hi (tagBytes_le _)
  have hoccupied : s.occupied source (256 * k + i) = true := by
    rw [State.occupied, show (source + (256 * k + i)) / 256 = source / 256 + k by omega, show (256 * k + i) % 256 = i by omega]
    exact decide_eq_true hi
  rw [show 256 * (dest / 256 + k) + i = dest + (256 * k + i) by omega, show 256 * (source / 256 + k) + i = source + (256 * k + i) by omega]
  exact State.copyBlocks_read_inside w (by omega) hoccupied

theorem State.Copies.physByte_inside (h : s.Copies source dest n) (hs : source + n ≤ hbmEnd) (hd : dest + n ≤ hbmEnd) {o : Nat} (ho : o < n) :
    (s.copyBlocks source dest n).physByte (dest + o) = s.physByte (source + o) := by
  have hsame := h.sameBlock (k := o / 256) (by have := h.size; omega)
  obtain ⟨w, ⟨hblocks, -⟩, hn, hsource, hdest⟩ := h
  have hto : dest + o = 256 * (dest / 256 + o / 256) + o % 256 := by omega
  have hfrom : source + o = 256 * (source / 256 + o / 256) + o % 256 := by omega
  rw [hto, hfrom]
  exact hsame.physByte (Nat.mod_lt _ (by decide)) (hblocks _) (decide_eq_true (by omega)) (decide_eq_true (by omega))

theorem State.Copies.unmoved (h : s.Copies source dest n) {a y : Nat} (ha : a < dest ∨ dest + n ≤ a) (hy : y / 256 = a / 256) :
    (s.copyBlocks source dest n).tag (a / 256) = s.tag (a / 256) ∧ (s.copyBlocks source dest n).mem.read y = s.mem.read y := by
  obtain ⟨w, ⟨-, sorted⟩, hn, hsource, hdest⟩ := h
  exact ⟨State.copyBlocks_tag_outside sorted hn hsource hdest (by omega), State.copyBlocks_read_outside w (by omega)⟩

theorem State.Copies.physByte_outside (h : s.Copies source dest n) {a : Nat} (ha : a < dest ∨ dest + n ≤ a) :
    (s.copyBlocks source dest n).physByte a = s.physByte a :=
  State.physByte_congr (h.unmoved ha rfl).1 (fun _ hy => (h.unmoved ha hy).2)

theorem State.Copies.block_outside (h : s.Copies source dest n) {a : Nat} (ha : a < dest ∨ dest + n ≤ a) :
    ((s.copyBlocks source dest n).block (a / 256)).isSome = true := by
  have hsame : s.SameBlock (a / 256) (s.copyBlocks source dest n) (a / 256) :=
    ⟨(h.unmoved ha rfl).1, fun i hi => (h.unmoved ha (by have := tagBytes_le (s.tag (a / 256)); omega)).2⟩
  rw [hsame.block]
  exact h.decodable.1 _

end

end Sys2Proof.Machine
end

section
/-! SUPPORT. Physical bytes written through a leaf that does not compress, and read back (R411, R412). -/

namespace Sys2Proof.Machine

/-! ### The 256 bytes of a block (R410, R411) -/

theorem bdcDecodeFrom_length {n : Nat} {d : BdcDict} {bits : List Bool} {ws : List Word} (h : bdcDecodeFrom n d bits = some ws) : ws.length = n := by
  induction n generalizing d bits ws with
  | zero => exact (Option.some.inj h) ▸ rfl
  | succ n ih =>
    unfold bdcDecodeFrom at h
    split at h
    · cases h
    · obtain ⟨rest, hrest, rfl⟩ := Option.map_eq_some_iff.mp h
      rw [List.length_cons, ih hrest]

theorem bdcLoad_length {t : BitVec 4} {slot : List Byte} {ws : List Word} (h : bdcLoad t slot = some ws) : ws.length = 64 := by
  unfold bdcLoad at h
  split_ifs at h
  · exact (Option.some.inj h) ▸ List.length_replicate
  · exact (Option.some.inj h) ▸ (by simp [bytesToWords])
  · exact bdcDecodeFrom_length h

theorem wordsToBytes_length (ws : List Word) : (wordsToBytes ws).length = 4 * ws.length := by
  induction ws with
  | nil => rfl
  | cons w ws ih =>
    rw [wordsToBytes, List.flatMap_cons, List.length_append, leBytes_length, List.length_cons]
    have : (ws.flatMap (fun w => leBytes 4 w.toNat)).length = 4 * ws.length := ih
    omega

section
variable {s : State} {a x b : Nat}

theorem State.block_length {bs : List Byte} (h : s.block b = some bs) : bs.length = 256 := by
  obtain ⟨ws, hws, rfl⟩ := Option.map_eq_some_iff.mp h
  rw [wordsToBytes_length, bdcLoad_length hws]

/-! ### Reads of raw and of coded bytes (R411) -/

theorem State.physByte_raw (h : inHbm x = false ∨ s.tag (x / 256) = 0x8#4) : s.physByte x = s.mem.read x := by
  unfold State.physByte
  rcases h with h | h <;> simp [h]

theorem State.physByte_coded {bs : List Byte} (hx : inHbm x = true) (htag : s.tag (x / 256) ≠ 0x8#4) (hbs : s.block (x / 256) = some bs) :
    s.physByte x = bs.getD (x % 256) 0#8 := by
  unfold State.physByte
  simp [hx, htag, hbs]

theorem inHbm_congr (h : x / 256 = a / 256) : inHbm x = inHbm a := by
  unfold inHbm hbmEnd
  refine decide_eq_decide.mpr ?_
  omega

/-! ### Raw writes (R412) -/

/-- Memory in order, and the block of an address readable if it lies in device memory. -/
def State.Writable (s : State) (a : Nat) : Prop := s.mem.wf = true ∧ (inHbm a = true → (s.block (a / 256)).isSome = true)

theorem State.Writable.congr (h : s.Writable a) (hx : x / 256 = a / 256) : s.Writable x := by
  obtain ⟨w, hblock⟩ := h
  refine ⟨w, fun hin => ?_⟩
  rw [hx]
  exact hblock (inHbm_congr hx ▸ hin)

theorem State.physWriteByte_of_raw (h : inHbm a = false ∨ s.tag (a / 256) = 0x8#4) (b : Byte) :
    s.physWriteByte false a b = { s with mem := s.mem.write a b } := by
  unfold State.physWriteByte
  rcases h with h | h <;> simp [h]

theorem State.physWriteByte_of_coded {bs : List Byte} (ha : inHbm a = true) (htag : s.tag (a / 256) ≠ 0x8#4) (hbs : s.block (a / 256) = some bs) (b : Byte) :
    s.physWriteByte false a b = { s with mem := s.mem.writeN (256 * (a / 256)) (bs.set (a % 256) b), tags := s.tags.set (a / 256) 0x8#4 } := by
  unfold State.physWriteByte State.blockForWrite
  simp [ha, htag, hbs]

theorem State.tag_set_self (m : Memory) (t : BitVec 4) : ({ s with mem := m, tags := s.tags.set b t } : State).tag b = t :=
  Sparse.get_set_self b t _ s.tags

theorem State.tag_set_ne {k : Nat} (h : k ≠ b) (m : Memory) (t : BitVec 4) : ({ s with mem := m, tags := s.tags.set b t } : State).tag k = s.tag k :=
  Sparse.get_set_ne h t s.tags

theorem State.Writable.physWriteByte (h : s.Writable a) (b : Byte) : (s.physWriteByte false a b).Writable a := by
  obtain ⟨w, hblock⟩ := h
  by_cases hraw : inHbm a = false ∨ s.tag (a / 256) = 0x8#4
  · rw [State.physWriteByte_of_raw hraw]
    refine ⟨Memory.wf_write a b w, fun ha => ?_⟩
    rcases hraw with hraw | hraw
    · exact absurd (ha.symm.trans hraw) (by decide)
    · exact State.block_isSome_of_raw hraw
  · rw [not_or, Bool.not_eq_false] at hraw
    obtain ⟨ha, htag⟩ := hraw
    obtain ⟨bs, hbs⟩ := Option.isSome_iff_exists.mp (hblock ha)
    rw [State.physWriteByte_of_coded ha htag hbs]
    exact ⟨Memory.wf_writeN _ _ w, fun _ => State.block_isSome_of_raw (State.tag_set_self _ _)⟩

theorem State.physByte_physWriteByte (h : s.Writable a) (b : Byte) (x : Nat) :
    (s.physWriteByte false a b).physByte x = if x = a then b else s.physByte x := by
  obtain ⟨w, hblock⟩ := h
  by_cases hraw : inHbm a = false ∨ s.tag (a / 256) = 0x8#4
  · rw [State.physWriteByte_of_raw hraw]
    by_cases hx : x / 256 = a / 256
    · have hrawx : inHbm x = false ∨ s.tag (x / 256) = 0x8#4 := by rwa [inHbm_congr hx, hx]
      rw [State.physByte_raw hrawx, State.physByte_raw (s := { s with mem := s.mem.write a b }) hrawx]
      by_cases hxa : x = a
      · rw [if_pos hxa, hxa]
        exact Memory.read_write_self w a b
      · rw [if_neg hxa]
        exact Memory.read_write_ne w b hxa
    · rw [if_neg (fun hxa : x = a => hx (by rw [hxa]))]
      exact State.physByte_congr rfl (fun y hy => Memory.read_write_ne w b (fun hya => hx (hy ▸ hya ▸ rfl)))
  · rw [not_or, Bool.not_eq_false] at hraw
    obtain ⟨ha, htag⟩ := hraw
    obtain ⟨bs, hbs⟩ := Option.isSome_iff_exists.mp (hblock ha)
    have hlen : (bs.set (a % 256) b).length = 256 := List.length_set.trans (State.block_length hbs)
    rw [State.physWriteByte_of_coded ha htag hbs]
    by_cases hx : x / 256 = a / 256
    · rw [State.physByte_raw (.inr (hx ▸ State.tag_set_self _ _)), State.physByte_coded (inHbm_congr hx ▸ ha) (hx ▸ htag) (hx ▸ hbs)]
      have hread := Memory.read_writeN_inside w (256 * (a / 256)) (x % 256) (bs.set (a % 256) b) (by omega)
      rw [show 256 * (a / 256) + x % 256 = x by omega] at hread
      rw [hread, List.getElem_set]
      by_cases hxa : x = a
      · rw [if_pos hxa, if_pos (congrArg (· % 256) hxa.symm)]
      · rw [if_neg hxa, if_neg (by omega), List.getD_eq_getElem _ _ (by have := State.block_length hbs; omega)]
    · rw [if_neg (fun hxa : x = a => hx (by rw [hxa]))]
      refine State.physByte_congr (State.tag_set_ne hx _ _) (fun y hy => ?_)
      exact Memory.read_writeN_outside w _ _ _ (by omega)

/-- Bytes written within one block read back, and no other byte changes. -/
theorem State.physByte_physWrite (h : s.Writable a) {bs : List Byte} (hin : a % 256 + bs.length ≤ 256) (x : Nat) :
    (s.physWrite false a bs).physByte x = if a ≤ x ∧ x < a + bs.length then bs.getD (x - a) 0#8 else s.physByte x := by
  induction bs generalizing s a with
  | nil => rw [if_neg (by simp)]; rfl
  | cons b bs ih =>
    rw [List.length_cons] at hin ⊢
    rw [State.physWrite]
    cases bs with
    | nil =>
      rw [State.physWrite, State.physByte_physWriteByte h, List.length_nil]
      by_cases hx : x = a
      · rw [if_pos hx, if_pos (by omega), hx, Nat.sub_self]
        rfl
      · rw [if_neg hx, if_neg (by omega)]
    | cons c cs =>
      rw [List.length_cons] at hin
      rw [ih ((h.physWriteByte b).congr (by omega)) (by rw [List.length_cons]; omega), State.physByte_physWriteByte h]
      by_cases hx : x = a
      · rw [if_neg (by omega), if_pos hx, if_pos (by omega), hx, Nat.sub_self]
        rfl
      · rw [if_neg hx]
        by_cases hin' : a + 1 ≤ x ∧ x < a + 1 + (c :: cs).length
        · rw [if_pos hin', if_pos (by omega), show x - a = x - (a + 1) + 1 by omega]
          rfl
        · rw [if_neg hin', if_neg (by omega)]

end

end Sys2Proof.Machine
end

section
/-! SUPPORT. The end of a page move: its bytes at the new frame, and the leaf entry that names it (R125, R138, R414). -/

namespace Sys2Proof.Machine

/-! ### What the end of a move leaves alone -/

/-- Memory, its tags and the moves in progress are the same. -/
def State.SameMemory (s v : State) : Prop := v.mem = s.mem ∧ v.tags = s.tags ∧ v.moves = s.moves

section
variable {s v w : State}

theorem State.SameMemory.trans (h : s.SameMemory v) (h' : v.SameMemory w) : s.SameMemory w := by
  obtain ⟨hmem, htags, hmoves⟩ := h
  obtain ⟨hmem', htags', hmoves'⟩ := h'
  exact ⟨hmem'.trans hmem, htags'.trans htags, hmoves'.trans hmoves⟩

theorem State.SameMemory.physByte (h : s.SameMemory v) (a : Nat) : v.physByte a = s.physByte a := by
  obtain ⟨hmem, htags, -⟩ := h
  exact State.physByte_congr (by rw [State.tag, State.tag, htags]) (fun _ _ => by rw [hmem])

theorem State.sameMemory_modHot (s : State) (m : Move) (f : HotPage → HotPage) : s.SameMemory (s.modHot m f) := ⟨rfl, rfl, rfl⟩

theorem State.sameMemory_shootMoved (s : State) (m : Move) : s.SameMemory (s.shootMoved m) := by
  obtain ⟨ts, hdrop⟩ := State.dropPage_eq s (partOf m.part) ⟨0#32, 0, m.size, m.ctx, m.va, s.ns⟩
  rw [State.shootMoved, hdrop]
  exact ⟨rfl, rfl, rfl⟩

theorem State.sameMemory_redirect (s : State) (m : Move) : s.SameMemory (s.redirect m) :=
  List.foldlRecOn (motive := s.SameMemory) _ _ ⟨rfl, rfl, rfl⟩
    (fun _ hv _ _ => List.foldlRecOn (motive := s.SameMemory) _ _ hv (fun _ hu _ _ => hu.trans ⟨rfl, rfl, rfl⟩))

/-! ### Walks do not look at moves (R124) -/

theorem State.walkFrom_moves (s : State) (ms : List Move) (va : Nat) (levels : List Nat) (table : Nat) :
    State.walkFrom { s with moves := ms } va table levels = s.walkFrom va table levels := by
  induction levels generalizing table with
  | nil => rfl
  | cons level levels ih =>
    rw [State.walkFrom, State.walkFrom]
    dsimp only
    rw [ih]
    rfl

theorem State.walk_moves (s : State) (ms : List Move) (g : Agent) (va : Nat) : State.walk { s with moves := ms } g va = s.walk g va := by
  unfold State.walk
  rw [show State.rootOf { s with moves := ms } g.part g.ctx = s.rootOf g.part g.ctx from rfl]
  cases s.rootOf g.part g.ctx with
  | none => rfl
  | some root => exact s.walkFrom_moves ms va _ root

/-! ### The leaf entry rewritten (R125, R414) -/

theorem reframe_frame {frame : Nat} (h : frame < 2 ^ 39) (e : DWord) : (reframe e frame).extractLsb' 16 40 = BitVec.ofNat 40 (frame / 4096) := by
  have hmask : (0xFF00_0000_0000_FFFF#64).extractLsb' 16 40 = 0#40 := by decide
  have hframe : (BitVec.ofNat 64 (frame / 4096 * 65536)).extractLsb' 16 40 = BitVec.ofNat 40 (frame / 4096) := by
    apply BitVec.eq_of_toNat_eq
    rw [BitVec.extractLsb'_toNat, BitVec.toNat_ofNat, BitVec.toNat_ofNat, Nat.shiftRight_eq_div_pow]
    omega
  rw [reframe, if_pos (show inHbm frame = true from decide_eq_true h), BitVec.extractLsb'_or, BitVec.extractLsb'_and, hmask, BitVec.and_zero,
    BitVec.zero_or, hframe]

theorem reframe_low {frame : Nat} (h : frame < 2 ^ 39) (e : DWord) : (reframe e frame).extractLsb' 0 16 = e.extractLsb' 0 16 := by
  have hmask : (0xFF00_0000_0000_FFFF#64).extractLsb' 0 16 = BitVec.allOnes 16 := by decide
  have hframe : (BitVec.ofNat 64 (frame / 4096 * 65536)).extractLsb' 0 16 = 0#16 := by
    apply BitVec.eq_of_toNat_eq
    rw [BitVec.extractLsb'_toNat, BitVec.toNat_ofNat, BitVec.toNat_ofNat, Nat.shiftRight_eq_div_pow]
    omega
  rw [reframe, if_pos (show inHbm frame = true from decide_eq_true h), BitVec.extractLsb'_or, BitVec.extractLsb'_and, hmask, BitVec.and_allOnes,
    hframe, BitVec.or_zero]

theorem reframe_high {frame : Nat} (h : frame < 2 ^ 39) (e : DWord) : (reframe e frame).extractLsb' 56 8 = e.extractLsb' 56 8 := by
  have hmask : (0xFF00_0000_0000_FFFF#64).extractLsb' 56 8 = BitVec.allOnes 8 := by decide
  have hframe : (BitVec.ofNat 64 (frame / 4096 * 65536)).extractLsb' 56 8 = 0#8 := by
    apply BitVec.eq_of_toNat_eq
    rw [BitVec.extractLsb'_toNat, BitVec.toNat_ofNat, BitVec.toNat_ofNat, Nat.shiftRight_eq_div_pow]
    omega
  rw [reframe, if_pos (show inHbm frame = true from decide_eq_true h), BitVec.extractLsb'_or, BitVec.extractLsb'_and, hmask, BitVec.and_allOnes,
    hframe, BitVec.or_zero]

/-- The 64-bit value at a physical address. -/
def State.physDWord (s : State) (a : Nat) : DWord := BitVec.ofNat 64 (leNat (s.physBytes a 8))

theorem State.physDWord_congr {a : Nat} (h : ∀ i, i < 8 → v.physByte (a + i) = s.physByte (a + i)) : v.physDWord a = s.physDWord a := by
  have hbytes : v.physBytes a 8 = s.physBytes a 8 := List.map_congr_left (fun i hi => h i (List.mem_range.mp hi))
  rw [State.physDWord, hbytes, State.physDWord]

section
variable {a : Nat} (h : s.Writable a) (haligned : a % 8 = 0)
include h haligned

theorem State.physDWord_physWrite (x : DWord) : (s.physWrite false a (leBytes 8 x.toNat)).physDWord a = x := by
  have hlen : (leBytes 8 x.toNat).length = 8 := leBytes_length 8 _
  have hbytes : (s.physWrite false a (leBytes 8 x.toNat)).physBytes a 8 = leBytes 8 x.toNat := by
    refine List.ext_getElem (by simp [State.physBytes, hlen]) (fun i h1 h2 => ?_)
    simp only [State.physBytes, List.getElem_map, List.getElem_range]
    rw [State.physByte_physWrite h (by omega), if_pos (by omega), Nat.add_sub_cancel_left, List.getD_eq_getElem _ _ h2]
  rw [State.physDWord, hbytes, leNat_leBytes, Nat.mod_eq_of_lt (x.isLt.trans_le (by decide)), BitVec.ofNat_toNat, BitVec.setWidth_eq]

theorem State.physByte_physWrite_dword (x : DWord) {y : Nat} (hy : y < a ∨ a + 8 ≤ y) :
    (s.physWrite false a (leBytes 8 x.toNat)).physByte y = s.physByte y := by
  have hlen : (leBytes 8 x.toNat).length = 8 := leBytes_length 8 _
  rw [State.physByte_physWrite h (by omega), if_neg (by omega)]

end

theorem State.remap_single {l : Leaf} (h : l.entry.getLsbD 8 = false) (frame : Nat) :
    s.remap l frame = s.physWrite false l.entryAt (leBytes 8 (reframe (s.physDWord l.entryAt) frame).toNat) := by
  rw [State.remap, bitOf_toNat, h, if_neg Bool.false_ne_true, List.range_one, List.foldl_cons, List.foldl_nil, State.physDWord]
  simp only [Nat.mul_zero, Nat.add_zero]

/-! ### Pages moved within device memory (R138, R139, R414) -/

theorem pageBytes_pos (k : Nat) : 0 < pageBytes k := Nat.mul_pos (by decide) (Nat.pow_pos (by decide))

theorem blocks_pageBytes (k : Nat) : 256 ∣ pageBytes k := Dvd.dvd.mul_right (by decide) _

theorem State.copies_page {source dest k : Nat} (w : s.mem.wf = true) (hdec : s.Decodable) (hsource : source % pageBytes k = 0)
    (hdest : dest % pageBytes k = 0) : s.Copies source dest (pageBytes k) := by
  have hblock {x : Nat} (hx : x % pageBytes k = 0) : x % 256 = 0 :=
    Nat.mod_eq_zero_of_dvd ((blocks_pageBytes k).trans (Nat.dvd_of_mod_eq_zero hx))
  exact ⟨w, hdec, Nat.mod_eq_zero_of_dvd (blocks_pageBytes k), hblock hsource, hblock hdest⟩

theorem State.Copies.moves {source dest n : Nat} (h : s.Copies source dest n) (ms : List Move) :
    State.Copies { s with moves := ms } source dest n := by
  obtain ⟨w, hdec, hn, hsource, hdest⟩ := h
  exact ⟨w, hdec, hn, hsource, hdest⟩

/-- The page of a move copied to its new frame. -/
def State.pageCopied (s : State) (m : Move) : State := s.copyBlocks m.source m.dest (pageBytes m.size)

section
variable {n : BitVec 16} {m : Move} (hcopies : s.Copies m.source m.dest (pageBytes m.size)) (hsource : m.source + pageBytes m.size ≤ 2 ^ 39)
  (hdest : m.dest + pageBytes m.size ≤ 2 ^ 39)

section
include hcopies hsource hdest

theorem pageMove_replicate (hm : s.moves[n.toNat]? = some m) (hkind : m.kind = .replicate) :
    ∃ v, exec (.pageMove n) s = .next v ∧ v.moves = s.moves.erase m
      ∧ (∀ o, o < pageBytes m.size → v.physByte (m.dest + o) = s.physByte (m.source + o))
      ∧ (∀ a, a < m.dest ∨ m.dest + pageBytes m.size ≤ a → v.physByte a = s.physByte a) := by
  have hexec : exec (.pageMove n) s = .next (((State.pageCopied { s with moves := s.moves.erase m } m).shootMoved m).modHot m
      (fun h => { h with replicas := h.replicas ++ [m.dest / 2 ^ 37] })) := by
    show execPageMove n s = _
    unfold execPageMove
    rw [hm]
    dsimp only
    rw [hkind]
    rfl
  have hmoved := hcopies.moves (s.moves.erase m)
  have hsame := ((State.pageCopied { s with moves := s.moves.erase m } m).sameMemory_shootMoved m).trans
    (State.sameMemory_modHot _ m (fun h => { h with replicas := h.replicas ++ [m.dest / 2 ^ 37] }))
  refine ⟨_, hexec, hsame.2.2, fun o ho => ?_, fun a ha => ?_⟩
  · exact (hsame.physByte _).trans (hmoved.physByte_inside hsource hdest ho)
  · exact (hsame.physByte _).trans (hmoved.physByte_outside ha)

end

section
variable {l : Leaf} (hwalk : s.walk ⟨s.homeDie (partOf m.part), partOf m.part, m.ctx, false⟩ m.va = .leaf l)
  (hframe : l.frame = m.source) (hsize : l.size = m.size)
include hsource hdest hwalk hframe hsize

/-- A migration leaves of memory the copied page, with the entry of its leaf rewritten. -/
theorem State.finishMigrate_sameMemory : ((s.pageCopied m).remap l m.dest).SameMemory (s.finishMigrate m) := by
  have hpos := pageBytes_pos m.size
  have hto : inHbm m.dest = true := decide_eq_true (show m.dest < 2 ^ 39 by omega)
  have hfrom : inHbm l.frame = true := decide_eq_true (show l.frame < 2 ^ 39 by omega)
  have hcopy : s.copyPage l m.dest = s.pageCopied m := by
    rw [State.copyPage, hto, hfrom, hframe, hsize]
    rfl
  unfold State.finishMigrate
  rw [hwalk]
  dsimp only
  rw [if_pos (by simp [hframe, hsize]), hcopy]
  exact ((((s.pageCopied m).remap l m.dest).sameMemory_shootMoved m).trans (State.sameMemory_redirect _ m)).trans ⟨rfl, rfl, rfl⟩

variable (hungrouped : l.entry.getLsbD 8 = false) (haligned : l.entryAt % 8 = 0)
  (hoffDest : l.entryAt + 8 ≤ m.dest ∨ m.dest + pageBytes m.size ≤ l.entryAt)
include hcopies hungrouped haligned hoffDest

theorem State.finishMigrate_physical : (s.finishMigrate m).moves = s.moves
    ∧ (∀ o, o < pageBytes m.size → (s.finishMigrate m).physByte (m.dest + o) = s.physByte (m.source + o))
    ∧ (s.finishMigrate m).physDWord l.entryAt = reframe (s.physDWord l.entryAt) m.dest
    ∧ (∀ a, (a < m.dest ∨ m.dest + pageBytes m.size ≤ a) → (a < l.entryAt ∨ l.entryAt + 8 ≤ a) →
        (s.finishMigrate m).physByte a = s.physByte a) := by
  have hoff : l.entryAt < m.dest ∨ m.dest + pageBytes m.size ≤ l.entryAt := by omega
  have hwritable : (s.pageCopied m).Writable l.entryAt := ⟨State.copyBlocks_wf hcopies.wf, fun _ => hcopies.block_outside hoff⟩
  have hold : (s.pageCopied m).physDWord l.entryAt = s.physDWord l.entryAt :=
    State.physDWord_congr (fun i hi => hcopies.physByte_outside (by omega))
  have hsame := State.finishMigrate_sameMemory hsource hdest hwalk hframe hsize
  rw [State.remap_single hungrouped, hold] at hsame
  have hbyte {a : Nat} (ha : a < l.entryAt ∨ l.entryAt + 8 ≤ a) : (s.finishMigrate m).physByte a = (s.pageCopied m).physByte a :=
    (hsame.physByte a).trans (State.physByte_physWrite_dword hwritable haligned _ ha)
  refine ⟨?_, fun o ho => ?_, ?_, fun a ha hentry => ?_⟩
  · obtain ⟨side, hside⟩ := (s.pageCopied m).memoryOnly_physWrite false l.entryAt (leBytes 8 (reframe (s.physDWord l.entryAt) m.dest).toNat)
    rw [hsame.2.2, hside]
    rfl
  · rw [hbyte (by omega)]
    exact hcopies.physByte_inside hsource hdest ho
  · rw [State.physDWord_congr (fun i _ => hsame.physByte (l.entryAt + i)), State.physDWord_physWrite hwritable haligned]
  · rw [hbyte hentry]
    exact hcopies.physByte_outside ha

theorem pageMove_migrate (hm : s.moves[n.toNat]? = some m) (hkind : m.kind = .migrate) :
    ∃ v, exec (.pageMove n) s = .next v ∧ v.moves = s.moves.erase m
      ∧ (∀ o, o < pageBytes m.size → v.physByte (m.dest + o) = s.physByte (m.source + o))
      ∧ v.physDWord l.entryAt = reframe (s.physDWord l.entryAt) m.dest
      ∧ (∀ a, (a < m.dest ∨ m.dest + pageBytes m.size ≤ a) → (a < l.entryAt ∨ l.entryAt + 8 ≤ a) → v.physByte a = s.physByte a) := by
  have hexec : exec (.pageMove n) s = .next (State.finishMigrate { s with moves := s.moves.erase m } m) := by
    show execPageMove n s = _
    unfold execPageMove
    rw [hm]
    dsimp only
    rw [hkind]
  exact ⟨_, hexec, State.finishMigrate_physical (hcopies.moves _) hsource hdest ((State.walk_moves s _ _ _).trans hwalk) hframe hsize hungrouped
    haligned hoffDest⟩

end

end

end

end Sys2Proof.Machine
end

section
/-! PROOF. Page moves, the placement unit's epochs and the engines (R138, R139, R267, R414, R427, R430). -/

namespace Sys2Proof.Machine

theorem State.mtile_jobs (s : State) (js : List Job) (k : Nat) : State.mtile { s with jobs := js } k = s.mtile k := rfl

theorem State.copied_jobs (s : State) (j : Job) (n m1 m2 m3 a b d : Nat) : (s.copied j n m1 m2 m3 a b d).jobs = s.jobs := by
  obtain ⟨ms, hms⟩ := State.copied_eq s j n m1 m2 m3 a b d
  rw [hms]

theorem State.copied_mem (s : State) (j : Job) (n m1 m2 m3 a b d : Nat) : (s.copied j n m1 m2 m3 a b d).mem = s.mem := by
  obtain ⟨ms, hms⟩ := State.copied_eq s j n m1 m2 m3 a b d
  rw [hms]

section
variable {s : State} {j : Job} {src dst done n m1 m2 m3 a b d : Nat}

/-- A copy ends its job, moves its bytes and leaves its record, and memory stays as it is. -/
theorem engineJobComplete_copy {e : EngineName} {c : Fin 192}
    (hfind : s.jobs.find? (fun y => decide (y.engine = e) && y.started && s.jobRuns y) = some j) (hheld : j.withheld = none) (he : e = .copy c)
    (hsrc : src + n ≤ 2 ^ 63) (hdst : dst + n ≤ 2 ^ 63) (hdone : done + 16 ≤ 2 ^ 63) (hfrom : cardNat j.card 16 8 = 2 ^ 63 + src)
    (hto : cardNat j.card 24 8 = 2 ^ 63 + dst) (hcard : cardNat j.card 8 8 = 2 ^ 63 + done) (hcount : cardNat j.card 32 4 = n)
    (hplaces : ∀ i, i < n → s.scratchPlace j.tile (BitVec.ofNat 64 (src + i)) 1 = some (m1, a + i) ∧ s.padBad m1 (a + i) 1 = false
      ∧ s.scratchPlace j.tile (BitVec.ofNat 64 (dst + i)) 1 = some (m2, b + i))
    (hrecord : ∀ i, i < 16 → s.scratchPlace j.tile (BitVec.ofNat 64 (done + i)) 1 = some (m3, d + i)) (hapart : src + n ≤ dst ∨ dst + n ≤ src)
    (hoff : m2 ≠ m3 ∨ b + n ≤ d ∨ d + 16 ≤ b) (h2 : m2 < 192) (h3 : m3 < 192) (hwf : ∀ m, (s.mtile m).bytes.wf = true) :
    ∃ v, exec (.engineJobComplete e) s = .next v ∧ v.jobs = s.jobs.erase j ∧ v.mem = s.mem
      ∧ (∀ i, i < n → (v.mtile m2).bytes.read (b + i) = (s.mtile m1).bytes.read (a + i))
      ∧ leNat ((v.mtile m3).bytes.readN d 4) = cardNat j.card 4 4
      ∧ leNat ((v.mtile m3).bytes.readN (d + 4) 4) = 0 ∧ leNat ((v.mtile m3).bytes.readN (d + 8) 8) = n := by
  have hn : n < 2 ^ 64 := by
    have := cardNat_lt j.card 32 4
    omega
  have hexec := engineJobComplete_copies hfind hheld he hsrc hdst hdone hfrom hto hcard hcount hplaces hrecord hapart
  refine ⟨_, hexec, ?_⟩
  simp only [State.mtile_jobs]
  exact ⟨by rw [State.copied_jobs], State.copied_mem s j n m1 m2 m3 a b d, fun i hi => State.copied_moved hwf h2 h3 hoff hi, State.copied_value hwf, State.copied_status hwf h3, State.copied_count hwf h3 hn⟩

end

section
variable {s : State} {n : BitVec 16} {m : Move}

/-- A replica and a migrated page hold the bytes of the page, and the leaf entry names the new frame. -/
theorem pageMove_moves (hm : s.moves[n.toNat]? = some m) (w : s.mem.wf = true) (hdec : s.Decodable) (hsource : m.source % pageBytes m.size = 0)
    (hdest : m.dest % pageBytes m.size = 0) (hfrom : m.source + pageBytes m.size ≤ 2 ^ 39) (hto : m.dest + pageBytes m.size ≤ 2 ^ 39) :
    (m.kind = .replicate → ∃ v, exec (.pageMove n) s = .next v ∧ v.moves = s.moves.erase m
      ∧ (∀ o, o < pageBytes m.size → v.physByte (m.dest + o) = s.physByte (m.source + o))
      ∧ (∀ a, a < m.dest ∨ m.dest + pageBytes m.size ≤ a → v.physByte a = s.physByte a))
    ∧ ∀ l, m.kind = .migrate → s.walk ⟨s.homeDie (partOf m.part), partOf m.part, m.ctx, false⟩ m.va = .leaf l → l.frame = m.source → l.size = m.size →
        l.entry.getLsbD 8 = false → l.entryAt % 8 = 0 → l.entryAt + 8 ≤ m.source ∨ m.source + pageBytes m.size ≤ l.entryAt →
        l.entryAt + 8 ≤ m.dest ∨ m.dest + pageBytes m.size ≤ l.entryAt →
        ∃ v, exec (.pageMove n) s = .next v ∧ v.moves = s.moves.erase m
          ∧ (∀ o, o < pageBytes m.size → v.physByte (m.dest + o) = s.physByte (m.source + o))
          ∧ ((v.physDWord l.entryAt).extractLsb' 16 40 = BitVec.ofNat 40 (m.dest / 4096)
            ∧ (v.physDWord l.entryAt).extractLsb' 0 16 = (s.physDWord l.entryAt).extractLsb' 0 16
            ∧ (v.physDWord l.entryAt).extractLsb' 56 8 = (s.physDWord l.entryAt).extractLsb' 56 8)
          ∧ (∀ a, (a < m.dest ∨ m.dest + pageBytes m.size ≤ a) → (a < l.entryAt ∨ l.entryAt + 8 ≤ a) → v.physByte a = s.physByte a) := by
  have hcopies := State.copies_page w hdec hsource hdest
  have hlt : m.dest < 2 ^ 39 := by
    have := pageBytes_pos m.size
    omega
  refine ⟨pageMove_replicate hcopies hfrom hto hm, fun l hkind hwalk hframe hsize hungrouped haligned _ hoffDest => ?_⟩
  obtain ⟨v, hexec, hmoves, hin, hentry, hout⟩ := pageMove_migrate hcopies hfrom hto hwalk hframe hsize hungrouped haligned hoffDest hm hkind
  refine ⟨v, hexec, hmoves, hin, ?_, hout⟩
  rw [hentry]
  exact ⟨reframe_frame hlt _, reframe_low hlt _, reframe_high hlt _⟩

end

/-- Settles O36: a copied page has the tag and the occupied sectors of its source block for block, and reads depend on nothing else; the copy
and the rewritten leaf entry are the only writes to memory of a move, and an engine's copy and completion record land in the scratch windows,
byte by byte, in the places that its card names. -/
theorem pagesMoveAndEnginesWork : Obligations.PagesMoveAndEnginesWork := by
  unfold Obligations.PagesMoveAndEnginesWork
  refine ⟨placementEpoch_ends, fun s n m hm => ⟨pageMove_collapse hm, fun w hdec hsource hdest _ hfrom hto => ?_⟩, fun s e => ?_⟩
  · exact pageMove_moves hm w hdec hsource hdest hfrom hto
  · refine ⟨fun before j after => engineJobStart_starts, engineJobStart_busy, engineJobComplete_idle, ?_⟩
    intro j c hfind hheld he src dst done n m1 m2 m3 a b d hsrc hdst hdone hfrom hto hcard hcount hplaces hrecord hapart _ hoff _ h2 h3 hwf
    exact engineJobComplete_copy hfind hheld he hsrc hdst hdone hfrom hto hcard hcount hplaces hrecord hapart hoff h2 h3 hwf

end Sys2Proof.Machine
end
